-- ==== Sys2Proof/Word.lean ====
section
/-! DEFINITION. The word types of the machine (R10, R104). -/

namespace Sys2Proof

/-- A 64-bit register value (R16). -/
abbrev Word := BitVec 64

/-- One byte of memory (R56). -/
abbrev Byte := BitVec 8

end Sys2Proof
end

