-- ==== Sys2Proof/Syntax.lean ====
section
/-! DEFINITION. The instructions: one constructor for every row of the table of operations and events.
The first 134 are encoded (R121); the others are the operations and events of the core, engines, front end, fabric,
host and power that have no encoding, each with the operands its rule needs. -/

namespace Sys2Proof

/-- Execution scope (R103). -/
inductive Scope where
  | lane | group | set | block
deriving DecidableEq, Repr

/-- Operand codes (R105); a literal carries its value (R106). -/
inductive Opd where
  | v (n : Fin 192)
  | q (n : Fin 8)
  | y (n : Fin 2)
  | x (n : Fin 32)
  | k (n : Fin 16)
  | lit32 (l : BitVec 32)
  | lit64 (l : BitVec 64)
  | zero
  | lane
deriving DecidableEq, Repr

/-- The fields every base word has (R103). -/
structure Head where
  scope : Scope
  stall : BitVec 3
  pneg : Bool
  pred : BitVec 3
deriving DecidableEq, Repr

/-- Format tags (R22). -/
inductive Tag where
  | fp32 | bf16 | fp16 | e4m3 | e5m2 | i8 | i16 | i32 | i64 | n8 | n16 | n32 | n64 | ptrLo | ptrHi | poison
deriving DecidableEq, Repr

/-- Pointer and memory formats (R91, R117); `any` is the instruction format ANY. -/
inductive MFmt where
  | tag (t : Tag)
  | ptr | pk | any
deriving DecidableEq, Repr

/-- Element format codes of classes 100 and 111 (R114). -/
inductive EFmt where
  | tag (t : Tag)
  | e3m2 | e2m3 | b4
deriving DecidableEq, Repr

/-- Rounding modes (R65). -/
inductive RM where
  | rne | rtz | rup | rdn | sr
deriving DecidableEq, Repr

/-- Relations of ICMP (R156). -/
inductive IRel where
  | eq | ne | lt | le | gt | ge
deriving DecidableEq, Repr

/-- Relations of FCMP (R178). -/
inductive FRel where
  | eq | ne | lt | le | gt | ge | un | ord
deriving DecidableEq, Repr

/-- Relations of WAITM (R147). -/
inductive WRel where
  | eq | ne | geu | ltu | ges | lts
deriving DecidableEq, Repr

/-- The six outstanding-operation counters (R44, R110). -/
inductive Ctr where
  | ld | st | at_ | cp | mm | bn
deriving DecidableEq, Repr

/-- Special registers of SRD (R42). -/
inductive SReg where
  | lane | group | wid | time | flags | oc | pend | cap | ctl | set
deriving DecidableEq, Repr

/-- Sub-group width (R116). -/
inductive Width where
  | w32 | w2 | w4 | w8 | w16
deriving DecidableEq, Repr

/-- FCLASS selection (R179). -/
inductive ClassSel where
  | mask | fin | nan
deriving DecidableEq, Repr

/-- SHUF out-of-range rule (R199). -/
inductive ShufVar where
  | wrap | clamp | own
deriving DecidableEq, Repr

/-- VOTE variants (R203). -/
inductive VoteVar where
  | all | any | ballot | uni
deriving DecidableEq, Repr

/-- AMAX span (R192). -/
inductive Span where
  | blk | ln | grp
deriving DecidableEq, Repr

/-- REDUX and SCAN operations (R206). -/
inductive RedOp where
  | add | min | max | and | or | xor
deriving DecidableEq, Repr

/-- ATOM operations (R214). -/
inductive AOp where
  | add | min | max | and | or | xor | xchg | fadd
deriving DecidableEq, Repr

/-- Registers moved by one access (R117). -/
inductive NReg where
  | one | pair | quad
deriving DecidableEq, Repr

/-- Pointer fields (R84). -/
inductive PField where
  | base | extent | sfmt | vfmt | space | class_ | scope | stream | home | xunit | submode | policy
deriving DecidableEq, Repr

/-- TCLAIM kinds (R238). -/
inductive ClaimKind where
  | op | win | c
deriving DecidableEq, Repr

/-- BIN operations (R260). -/
inductive BinOp where
  | item | open_ | close
deriving DecidableEq, Repr

/-- BINRD selections (R264). -/
inductive BinSel where
  | state | count | ovf | total
deriving DecidableEq, Repr

/-- TLBX page sizes (R273). -/
inductive PgSize where
  | p64k | p4m | p1g
deriving DecidableEq, Repr

/-- SWR targets (R269, R346, R370, R389, R410). -/
inductive SysReg where
  | seed | ctl | privap | saveap | shtab | defctl | defseed | tvec | tframe
  | ptroot | fltsvc | fltbase | preq | prewin | imptab | exptab | lease
  | q (n : Fin 32)
deriving DecidableEq, Repr

/-- Destination and one source. -/
structure O2 where
  d : Opd
  a : Opd
deriving DecidableEq, Repr

/-- Destination and two sources. -/
structure O3 where
  d : Opd
  a : Opd
  b : Opd
deriving DecidableEq, Repr

/-- Destination and three sources. -/
structure O4 where
  d : Opd
  a : Opd
  b : Opd
  c : Opd
deriving DecidableEq, Repr

/-- A fabric message (R424): the 128-bit routing header, the offset it names and its payload. -/
structure Msg where
  hdr : BitVec 128
  off : Word
  body : List Byte
deriving DecidableEq, Repr

/-- A firmware image (R447): its header's fields, whose places in the 512 bytes the manual does not give, the header as it is signed, the
body, the public key and the signature that come with it. -/
structure Image where
  kind : Nat
  len : Nat
  version : Nat
  digest : BitVec 512
  header : List Byte
  body : List Byte
  key : List Byte
  sig : List Byte
deriving DecidableEq, Repr

/-- A host snoop's demand (R421). -/
inductive SnoopKind where
  | share | own
deriving DecidableEq, Repr

/-- Where a register write comes in (R8, R410, R445): BAR 0 of a logical device's function, or the management function. -/
inductive RegPort where
  | bar0 (die : Fin 4)
  | mgmt
deriving DecidableEq, Repr

/-- What an ECC event hits (R457): a line of device memory, a scratchpad line of a block, an operand slot row, a C slot
row of a cluster. -/
inductive ErrPlace where
  | device (line : Nat)
  | host (line : Nat)
  | scratch (blk line : Nat)
  | opRow (cluster slot row : Nat)
  | cRow (cluster slot row : Nat)
deriving DecidableEq, Repr

/-- The instructions, operations and events. -/
inductive Instr where
  -- class 000 (R109, R110, R139)
  | runend (h : Head) (await : BitVec 8)
  | br (h : Head) (off : BitVec 24) (await : BitVec 8)
  | brc (h : Head) (off : BitVec 24) (await : BitVec 8) (cneg : Bool) (cpred : BitVec 3)
  | brx (h : Head) (a : Opd) (await : BitVec 8)
  | call (h : Head) (off : BitVec 24) (await : BitVec 8) (link : Fin 192)
  | ret (h : Head) (a : Opd) (await : BitVec 8)
  | exit (h : Head) (await : BitVec 8)
  | yield (h : Head) (await : BitVec 8)
  | bar (h : Head) (await : BitVec 8)
  | waitc (h : Head) (ctr : Ctr) (thresh : BitVec 6) (await : BitVec 8)
  | waitm (h : Head) (rel : WRel) (dword : Bool) (ptr : Opd) (cmp : Opd) (await : BitVec 8)
  | regroup (h : Head) (a : Opd) (await : BitVec 8)
  | chkpt (h : Head) (off : BitVec 24) (await : BitVec 8)
  | setd (h : Head) (setno : BitVec 2) (diss : Bool) (a : Opd)
  | nop (h : Head)
  -- class 001 (R152)
  | iadd (h : Head) (f : Tag) (sat : Bool) (o : O3)
  | isub (h : Head) (f : Tag) (sat : Bool) (o : O3)
  | iaddc (h : Head) (f : Tag) (cin : BitVec 3) (pd : BitVec 3) (o : O3)
  | imul (h : Head) (f : Tag) (sat : Bool) (o : O3)
  | imulh (h : Head) (f : Tag) (o : O3)
  | imad (h : Head) (f : Tag) (sat : Bool) (o : O4)
  | imadw (h : Head) (f : Tag) (hi : Bool) (sat : Bool) (o : O4)
  | imin (h : Head) (f : Tag) (o : O3)
  | imax (h : Head) (f : Tag) (o : O3)
  | iabs (h : Head) (f : Tag) (sat : Bool) (o : O2)
  | ineg (h : Head) (f : Tag) (sat : Bool) (o : O2)
  | icmp (h : Head) (f : Tag) (rel : IRel) (pd : BitVec 3) (a b : Opd)
  | sel (h : Head) (p : BitVec 3) (o : O3)
  | mov (h : Head) (f : Option Tag) (o : O2)
  | movk (h : Head) (o : O3)
  | srd (h : Head) (r : SReg) (clr : Bool) (d : Opd)
  | shl (h : Head) (f : Tag) (sat : Bool) (o : O3)
  | shr (h : Head) (f : Tag) (o : O3)
  | sar (h : Head) (f : Tag) (o : O3)
  | rol (h : Head) (f : Tag) (o : O3)
  | popc (h : Head) (f : Tag) (o : O2)
  | clz (h : Head) (f : Tag) (o : O2)
  | ctz (h : Head) (f : Tag) (o : O2)
  | brev (h : Head) (f : Tag) (o : O2)
  | bfx (h : Head) (f : Tag) (o : O3)
  | bfi (h : Head) (f : Tag) (o : O4)
  | plop (h : Head) (lut : BitVec 8) (pd : BitVec 3) (a b c : BitVec 3)
  -- class 010 (R163)
  | and (h : Head) (o : O3)
  | or (h : Head) (o : O3)
  | xor (h : Head) (o : O3)
  | andn (h : Head) (o : O3)
  | prmb (h : Head) (o : O4)
  | iaddPacked (h : Head) (f : Tag) (sat : Bool) (o : O3)
  | isubPacked (h : Head) (f : Tag) (sat : Bool) (o : O3)
  | iminPacked (h : Head) (f : Tag) (o : O3)
  | imaxPacked (h : Head) (f : Tag) (o : O3)
  | imac2 (h : Head) (o : O4)
  | idot4 (h : Head) (f : Tag) (sat : Bool) (o : O4)
  | shrr (h : Head) (f : Tag) (o : O4)
  | isat (h : Head) (f : Tag) (o : O3)
  -- class 011 (R173)
  | fadd (h : Head) (f : Tag) (rm : RM) (o : O3)
  | fsub (h : Head) (f : Tag) (rm : RM) (o : O3)
  | fmul (h : Head) (f : Tag) (rm : RM) (o : O3)
  | ffma (h : Head) (f : Tag) (rm : RM) (o : O4)
  | fmin (h : Head) (f : Tag) (o : O3)
  | fmax (h : Head) (f : Tag) (o : O3)
  | fabs (h : Head) (f : Tag) (o : O2)
  | fneg (h : Head) (f : Tag) (o : O2)
  | fcmp (h : Head) (f : Tag) (rel : FRel) (pd : BitVec 3) (a b : Opd)
  | fclass (h : Head) (f : Tag) (sel : ClassSel) (o : O2)
  | frnd (h : Head) (f : Tag) (rm : RM) (o : O2)
  | fdot2 (h : Head) (rm : RM) (o : O4)
  | frcp (h : Head) (f : Tag) (rm : RM) (tag : BitVec 3) (o : O2)
  | frsq (h : Head) (f : Tag) (rm : RM) (tag : BitVec 3) (o : O2)
  | fsqrt (h : Head) (f : Tag) (rm : RM) (tag : BitVec 3) (o : O2)
  | fexp2 (h : Head) (f : Tag) (rm : RM) (tag : BitVec 3) (o : O2)
  | flog2 (h : Head) (f : Tag) (rm : RM) (tag : BitVec 3) (o : O2)
  | fsin (h : Head) (f : Tag) (rm : RM) (tag : BitVec 3) (o : O2)
  | fcos (h : Head) (f : Tag) (rm : RM) (tag : BitVec 3) (o : O2)
  | ftanh (h : Head) (f : Tag) (rm : RM) (tag : BitVec 3) (o : O2)
  -- class 100 (R183)
  | cvt (h : Head) (sf df : Tag) (rm : RM) (sat : Bool) (part : BitVec 2) (d a c : Opd)
  | cvtf8 (h : Head) (sf df : Tag) (rm : RM) (sat : Bool) (part : BitVec 2) (d a c : Opd)
  | pack6 (h : Head) (sf : Tag) (df : EFmt) (rm : RM) (part : BitVec 2) (d a c : Opd)
  | pack4 (h : Head) (sf : Tag) (rm : RM) (part : BitVec 2) (o : O4)
  | unpk (h : Head) (sf : EFmt) (df : Tag) (rm : RM) (part : BitVec 2) (o : O3)
  | sclc (h : Head) (sf : Tag) (ty : BitVec 2) (o : O2)
  | amax (h : Head) (sf : Tag) (span : Span) (o : O2)
  -- class 101 (R198)
  | shuf (h : Head) (f : Option Tag) (w : Width) (var : ShufVar) (pd : BitVec 3) (o : O3)
  | slide (h : Head) (f : Option Tag) (w : Width) (o : O4)
  | bcast (h : Head) (f : Option Tag) (w : Width) (o : O3)
  | perm (h : Head) (f : Option Tag) (w : Width) (o : O4)
  | vote (h : Head) (w : Width) (var : VoteVar) (pd : BitVec 3) (o : O2)
  | match_ (h : Head) (f : Option Tag) (w : Width) (val : Bool) (pd : BitVec 3) (o : O2)
  | eqmask (h : Head) (f : Tag) (w : Width) (s1 : Bool) (pd : BitVec 3) (o : O3)
  | rank (h : Head) (f : Tag) (w : Width) (s1 : Bool) (pd : BitVec 3) (o : O3)
  | redux (h : Head) (f : Option Tag) (w : Width) (op : RedOp) (pt : BitVec 3) (o : O2)
  | scan (h : Head) (f : Option Tag) (w : Width) (op : RedOp) (excl : Bool) (pt : BitVec 3) (o : O2)
  -- class 110 (R208, R218)
  | ld (h : Head) (f : MFmt) (n : NReg) (tag : BitVec 3) (d ptr off : Opd)
  | st (h : Head) (f : MFmt) (n : NReg) (ptr off data : Opd)
  | atom (h : Head) (f : MFmt) (op : AOp) (tag : BitVec 3) (d ptr off c : Opd)
  | cas (h : Head) (f : MFmt) (pair : Bool) (tag : BitVec 3) (d ptr off e : Opd)
  | pmake (h : Head) (priv : Bool) (o : O3)
  | psub (h : Head) (o : O3)
  | pget (h : Head) (fld : PField) (o : O2)
  | pchk (h : Head) (st : Bool) (o : O4)
  | pwiden (h : Head) (nscope : BitVec 3) (nclass : BitVec 2) (o : O2)
  | pnarrow (h : Head) (nscope : BitVec 3) (nclass : BitVec 2) (o : O2)
  | subscr (h : Head) (a b c : Opd)
  | upgr (h : Head) (a b c : Opd)
  | tagq (h : Head) (o : O2)
  -- class 111 (R229)
  | tclaim (h : Head) (kind : ClaimKind) (d count : Opd)
  | trel (h : Head) (slot : Opd)
  | tld (h : Head) (f : EFmt) (hr : Fin 16) (ptr off slot : Opd)
  | tst (h : Head) (hr : Fin 16) (ptr off slot : Opd)
  | tzero (h : Head) (slot : Opd)
  | mmq (h : Head) (f : EFmt) (ty tx : BitVec 2) (bh : Bool) (a b c : Opd)
  | mms (h : Head) (f : EFmt) (ty tx : BitVec 2) (bh : Bool) (a b c : Opd)
  | tdrain (h : Head) (f : EFmt) (hr : Fin 16) (ptr off slot : Opd)
  | twin (h : Head) (hr : Fin 16) (slot : Opd)
  | tflag (h : Head) (d slot : Opd)
  | hld (h : Head) (hr : Fin 16) (handle : Opd)
  | hset (h : Head) (hr : Fin 16) (fld value : Opd)
  | hget (h : Head) (hr : Fin 16) (tag : BitVec 3) (d fld : Opd)
  | copy (h : Head) (d ptr off words : Opd)
  | copyw (h : Head) (tag : BitVec 3) (d seq : Opd)
  | copyx (h : Head) (d ptr off words : Opd)
  | bin (h : Head) (op : BinOp) (ptr key item : Opd)
  | binrd (h : Head) (sel : BinSel) (tag : BitVec 3) (d ptr idx : Opd)
  | sendl (h : Head) (ptr src words : Opd)
  | launch (h : Head) (q hdr : Opd)
  | release (h : Head) (handle : Opd)
  | trap (h : Head) (code : Opd)
  | tret (h : Head)
  | swr (h : Head) (r : SysReg) (value : Opd)
  | time (h : Head) (pkg : Bool) (tag : BitVec 3) (d : Opd)
  | fltrd (h : Head) (word : BitVec 2) (cons : Bool) (tag : BitVec 3) (d idx : Opd)
  | qsc (h : Head) (done : Bool) (tag : BitVec 3) (d : Opd)
  | tlbx (h : Head) (size : PgSize) (all : Bool) (va count : Opd)
  | halt (h : Head)
  -- events of a core
  | issuePick (die core part : Nat)
  | cohortPromote (blk coh : Nat)
  | regroupExchange (blk laneA laneB : Nat)
  | fixedResultWrite (id : Nat)
  | pendingTagComplete (id : Nat)
  | rendezvousComplete (blk rdv : Nat)
  | trapEntry (blk grp : Nat)
  | accessPerformed (id : Nat) (order : List Nat)
  | waitmReread (id : Nat)
  | blockRelease (blk : Nat)
  | scratchpadFill (blk line : Nat)
  | scratchpadWriteback (blk line : Nat)
  | memoryActionClose (id : Nat)
  | slotReturn (id : Nat)
  | copyAccept (blk : Nat)
  | copyStamp (id : Nat)
  | patch (die : Fin 4) (handle : BitVec 8) (value : Nat)
  | matrixGrant (cluster : Nat)
  | matrixPassWrite (id : Nat)
  | tileTransferComplete (id : Nat)
  | binOpenPerform (die : Fin 4)
  | binItemPerform (die : Fin 4)
  | binClosePerform (die : Fin 4)
  | sendEntryAccept (die : Fin 4) (list : Word)
  | sendEntryComplete (id : Nat)
  -- events of the front end
  | headerRead (die : Fin 4) (queue : Fin 32)
  | blockPlace (die : Fin 4)
  | launchAged (id : Nat)
  | launchEnd (id : Nat)
  | queueEnable (die : Fin 4) (queue : Fin 32) (value : Word)
  | queueTeardown (die : Fin 4) (queue : Fin 32)
  -- translation, pre-emption and contexts
  | pageWalkComplete (id : Nat)
  | faultSignalDelayed (die : Fin 4)
  | quiescenceTick (die : Fin 4)
  | fltsvcConsume (die : Fin 4) (idx : BitVec 8)
  | fltsvcServiced (die : Fin 4) (idx : BitVec 8)
  | fltsvcRefused (die : Fin 4) (idx : BitVec 8)
  | fltsvcIgnored (die : Fin 4) (idx : BitVec 8)
  | preqSuspend (die : Fin 4) (hdr : Word) (all : Bool)
  | preqResume (die : Fin 4) (hdr : Word) (all : Bool)
  | preemptWindowEnd (blk : Nat)
  | blockSave (blk : Nat)
  | blockRestore (blk core : Nat)
  -- fabric
  | readRequest (m : Msg)
  | readSharedLease (m : Msg)
  | ownershipRequest (m : Msg)
  | writeBack (m : Msg)
  | invalidation (m : Msg)
  | acknowledgement (m : Msg)
  | dataReply (m : Msg)
  | errorReply (m : Msg)
  | push (m : Msg)
  | revocation (m : Msg)
  | sendListPayload (m : Msg)
  | remoteStamp (m : Msg)
  | syncAccessAtHome (m : Msg)
  | timeExchange (m : Msg)
  | fabricMessageDiscard (die : Fin 4) (m : Msg)
  | chordReview
  | requestTimeout (id : Nat)
  | leaseExpire (line : Nat) (pos : BitVec 4)
  | timeSyncTick (pod pkg : List Nat)
  -- the host
  | hostRead (addr : Nat) (n : Nat)
  | hostWrite (addr : Nat) (body : List Byte)
  | hostSnoop (iod : Fin 2) (line : Nat) (kind : SnoopKind)
  | backInvalidateResponse (line : Nat)
  | spdmMeasurement
  | coldStart (dies : BitVec 4) (images : List Image)
  | warmStart (dies : BitVec 4) (sref : Bool) (images : List Image)
  | fabDropClear
  | quiesce
  | ldResume (die : Fin 4)
  | ldReset (die : Fin 4)
  -- power, errors, links
  | pwrTargetD0 (die : Fin 4)
  | pwrTargetD1 (die : Fin 4)
  | pwrTargetD2 (die : Fin 4)
  | powerStateEnter (die : Fin 4)
  | dieWake (die : Fin 4)
  | thermalThrottle (die : Fin 4)
  | thermalTrip (die : Fin 4)
  | pwrtelUpdate (die : Fin 4) (temp power : BitVec 16)
  | patrolScrub (die : Fin 4)
  | memoryError (die : Fin 4) (uncorrectable : Bool) (place : ErrPlace)
  | portFailing (kg : Fin 16) (port : Fin 9)
  | retrainComplete (kg : Fin 16)
  | retrainWindowEnd (kg : Fin 16)
  | portSignalLoss (kg : Fin 16) (port : Fin 9)
  | portSilenceTimeout (kg : Fin 16) (port : Option (Fin 9))
  | peerLost (pos : BitVec 4)
  | hostLinkDrop (iod : Fin 2)
  | supplyReset (die : Fin 4)
  | registerWrite (port : RegPort) (off : Nat) (value : Word)
  | linkBringUp (pos : BitVec 4) (groups : List (Fin 16))
  | departureMessage (pos : BitVec 4)
  | chordRelay (m : Msg)
  | chordReturn (m : Msg)
  | pairKeyEpoch (pos : BitVec 4)
  | powerCapThrottle
deriving DecidableEq, Repr

end Sys2Proof
end

