-- ==== Sys2Proof/WellFormed.lean ====
section
/-! DEFINITION. Which instructions decode accepts (R124, R125), apart from the kernel's V allocation (R18), which the
machine checks with the block's count. The events of the table have no encoding and are not well-formed. -/

namespace Sys2Proof

/-- A literal (R106). -/
def Opd.isLit : Opd → Bool
  | .lit32 _ | .lit64 _ => true
  | _ => false

/-- The two words' worth of literals an instruction may name (R106). -/
def litsOk (os : List Opd) : Bool := (os.filter Opd.isLit).length ≤ 2

def Scope.wide (s : Scope) : Bool := s != .lane

/-- A destination of a fixed-latency result (R18, R19). -/
def dstOk (h : Head) : Opd → Bool
  | .v _ | .q _ | .zero => true
  | .k _ => h.scope.wide
  | .x _ => h.scope == .set
  | _ => false

/-- A destination under a pending tag (R36). -/
def longDstOk (h : Head) : Opd → Bool
  | .v _ | .zero => true
  | .k _ => h.scope.wide
  | .x _ => h.scope == .set
  | _ => false

def evenV : Opd → Bool
  | .v n => n.val % 2 == 0
  | _ => false

def quadV : Opd → Bool
  | .v n => n.val % 4 == 0
  | _ => false

/-- A pointer operand or a pointer pair destination (R100, R218). -/
def ptrOk (h : Head) : Opd → Bool
  | .v n => n.val % 2 == 0
  | .x n => n.val % 2 == 0 && h.scope == .set
  | _ => false

/-- An offset of a memory instruction (R208): a register, a literal or zero. -/
def offOk : Opd → Bool
  | .lane => false
  | _ => true

/-- B of SLIDE and BCAST (R200, R201): a literal, zero or a K register. -/
def uniformOk : Opd → Bool
  | .lit32 _ | .lit64 _ | .zero | .k _ => true
  | _ => false

/-- A source that carries a tag (R227). -/
def taggedOk : Opd → Bool
  | .v _ | .q _ | .y _ | .x _ => true
  | _ => false

def Tag.isInt : Tag → Bool
  | .i8 | .i16 | .i32 | .i64 | .n8 | .n16 | .n32 | .n64 => true
  | _ => false

def Tag.isWideInt : Tag → Bool
  | .i32 | .i64 | .n32 | .n64 => true
  | _ => false

def Tag.isNarrowInt : Tag → Bool
  | .i8 | .i16 | .n8 | .n16 => true
  | _ => false

/-- The float formats of CVT (R186). -/
def Tag.isFloat : Tag → Bool
  | .fp32 | .bf16 | .fp16 => true
  | _ => false

def Tag.isF8 : Tag → Bool
  | .e4m3 | .e5m2 => true
  | _ => false

/-- The arithmetic float formats (R173). -/
def Tag.isArith : Tag → Bool
  | .fp32 | .bf16 => true
  | _ => false

/-- The formats of a plain element (R91 codes 0 to 12). -/
def Tag.isElem : Tag → Bool
  | .ptrLo | .ptrHi | .poison => false
  | _ => true

/-- Element width in bits (R22); a pointer half fills its register. -/
def Tag.width : Tag → Nat
  | .fp32 | .i32 | .n32 => 32
  | .bf16 | .fp16 | .i16 | .n16 => 16
  | .e4m3 | .e5m2 | .i8 | .n8 => 8
  | _ => 64

/-- Sub-elements per register (R22). -/
def Tag.count (t : Tag) : Nat := 64 / t.width

/-- Values in one register of an element format (R185): a 6-bit container holds 8, a 4-bit one 16. -/
def EFmt.count : EFmt → Nat
  | .tag t => t.count
  | .e3m2 | .e2m3 => 8
  | .b4 => 16

/-- The cross-lane formats (R198). -/
def dataFmtOk : Option Tag → Bool
  | none => true
  | some t => t.isFloat || t.isInt

/-- Part and C of the part merge (R185), the ratio at most 4. -/
def partOk (ns nd : Nat) (part : BitVec 2) (c : Opd) : Bool :=
  if ns < nd then nd / ns ≤ 4 && part.toNat < nd / ns
  else if nd < ns then ns / nd ≤ 4 && part.toNat < ns / nd && c == .zero
  else part == 0 && c == .zero

def cvtOk (sf df : Tag) (rm : RM) (sat : Bool) : Bool :=
  (sf.isFloat || sf.isInt) && (df.isFloat || df.isInt) && sf != df &&
    (if sf.isInt && df.isInt then rm == .rne else sf.isFloat && df.isFloat || !sat)

def cvtf8Ok (sf df : Tag) (sat : Bool) : Bool :=
  (sf.isFloat && df.isF8) || (sf.isF8 && df.isFloat && !sat)

/-- The pairs of operation and format REDUX and SCAN accept (R206). -/
def redOk (op : RedOp) (f : Option Tag) : Bool :=
  match op, f with
  | .add, some t | .min, some t | .max, some t => t.isInt || t.isArith
  | .and, some t | .or, some t | .xor, some t => t.isInt
  | .and, none | .or, none | .xor, none => true
  | _, none => false

/-- The pairs of operation and format ATOM accepts (R214). -/
def atomOk (op : AOp) (f : MFmt) : Bool :=
  match op, f with
  | .add, .tag t | .min, .tag t | .max, .tag t | .and, .tag t | .or, .tag t | .xor, .tag t => t.isWideInt
  | .and, .any | .or, .any | .xor, .any | .xchg, .any => true
  | .xchg, .tag t => t.isWideInt || t.isArith
  | .fadd, .tag t => t.isArith
  | _, _ => false

/-- Destination or data registers of LD and ST (R208). -/
def nregOk (n : NReg) (f : MFmt) (one : Bool) (o : Opd) : Bool :=
  match n with
  | .one => one && f != .ptr
  | .pair => evenV o
  | .quad => quadV o

def MFmt.ok : MFmt → Bool
  | .tag t => t.isElem
  | _ => true

def stDataOk : Opd → Bool
  | .lane => false
  | _ => true

def casOk (f : MFmt) (pair : Bool) (d e : Opd) (h : Head) : Bool :=
  if pair then (f == .any || f == .ptr) && quadV e && evenV d
  else f != .ptr && f.ok && evenV e && longDstOk h d

def tldFmtOk : EFmt → Bool
  | .tag t => t.isF8 || t == .i8 || t == .n8 || t == .bf16 || t == .fp16 || t == .fp32 || t == .i32
  | .b4 => true
  | _ => false

def mmFmtOk : EFmt → Bool
  | .tag t => t.isF8 || t == .i8 || t == .n8 || t == .bf16 || t == .fp16
  | .b4 => true
  | _ => false

def drainFmtOk : EFmt → Bool
  | .tag t => t == .fp32 || t == .bf16 || t == .fp16 || t == .e4m3 || t == .i32
  | _ => false

/-- A class 000 to 010 format list (R152, R163). -/
def laneOnly (h : Head) : Bool := h.scope == .lane
def laneGroup (h : Head) : Bool := h.scope == .lane || h.scope == .group
def wideOnly (h : Head) : Bool := h.scope.wide

/-- What decode accepts of an encoded instruction (R125). SCAN of group scope may write a K register, as R195 has it of every cross-lane
instruction: R207's bar on X and K destinations stands under set and block scope (DESIGN CHOICE, log 93). -/
def Instr.wf : Instr → Bool
  | .runend h _ | .br h _ _ | .brc h _ _ _ _ | .call h _ _ _ | .exit h _ | .yield h _ | .chkpt h _ _ => laneOnly h
  | .brx h _ _ | .ret h _ _ | .regroup h _ _ => laneOnly h
  | .bar h _ => wideOnly h
  | .waitc h _ _ _ => laneGroup h
  | .waitm h _ _ ptr _ _ => ptrOk h ptr
  | .setd h _ diss a => h.scope == .block && (!diss || a == .zero)
  | .nop _ => true
  | .iadd h f _ o | .isub h f _ o | .imul h f _ o | .shl h f _ o => f.isWideInt && dstOk h o.d
  | .iaddc h f _ _ o => (f == .i64 || f == .n64) && dstOk h o.d
  | .imulh h f o | .imin h f o | .imax h f o | .shr h f o | .sar h f o | .rol h f o | .bfx h f o =>
      f.isWideInt && dstOk h o.d
  | .imad h f _ o => f.isWideInt && dstOk h o.d && litsOk [o.a, o.b, o.c]
  | .imadw h f _ _ o => (f == .i32 || f == .n32) && dstOk h o.d && litsOk [o.a, o.b, o.c]
  | .iabs h f _ o | .ineg h f _ o => (f == .i32 || f == .i64) && dstOk h o.d
  | .icmp _ f _ _ _ _ => f.isWideInt
  | .sel h _ o => dstOk h o.d
  | .mov h f o =>
      dstOk h o.d &&
        match f with
        | none => true
        | some t => if taggedOk o.a then t == .n64 else t.isElem
  | .movk h o => h.scope.wide && (match o.d with | .k _ => true | _ => false)
  | .srd h r clr d => dstOk h d && (!clr || r == .flags)
  | .popc h f o | .clz h f o | .ctz h f o | .brev h f o => f.isWideInt && dstOk h o.d
  | .bfi h f o => f.isWideInt && dstOk h o.d && litsOk [o.a, o.b, o.c]
  | .plop _ _ _ _ _ _ => true
  | .and h o | .or h o | .xor h o | .andn h o => dstOk h o.d
  | .prmb h o | .imac2 h o => dstOk h o.d && litsOk [o.a, o.b, o.c]
  | .iaddPacked h f _ o | .isubPacked h f _ o => f.isNarrowInt && dstOk h o.d
  | .iminPacked h f o | .imaxPacked h f o => f.isNarrowInt && dstOk h o.d
  | .idot4 h f _ o => (f == .i8 || f == .n8) && dstOk h o.d && litsOk [o.a, o.b, o.c]
  | .shrr h f o => (f == .i16 || f == .i32 || f == .n16 || f == .n32) && dstOk h o.d && litsOk [o.a, o.b, o.c]
  | .isat h f o => f.isInt && dstOk h o.d
  | .fadd h f rm o | .fsub h f rm o | .fmul h f rm o => f.isArith && rm != .sr && dstOk h o.d
  | .ffma h f rm o => f.isArith && rm != .sr && dstOk h o.d && litsOk [o.a, o.b, o.c]
  | .fmin h f o | .fmax h f o => f.isArith && dstOk h o.d
  | .fabs h f o | .fneg h f o => f.isArith && dstOk h o.d
  | .fcmp _ f _ _ _ _ => f.isArith
  | .fclass h f _ o => f.isArith && dstOk h o.d
  | .frnd h f rm o => f.isArith && rm != .sr && dstOk h o.d
  | .fdot2 h rm o => rm != .sr && dstOk h o.d && litsOk [o.a, o.b, o.c]
  | .frcp h f rm _ o | .frsq h f rm _ o | .fsqrt h f rm _ o | .fexp2 h f rm _ o | .flog2 h f rm _ o
  | .fsin h f rm _ o | .fcos h f rm _ o | .ftanh h f rm _ o => f.isArith && rm != .sr && longDstOk h o.d
  | .cvt h sf df rm sat part d _ c => cvtOk sf df rm sat && partOk sf.count df.count part c && dstOk h d
  | .cvtf8 h sf df _ sat part d _ c => cvtf8Ok sf df sat && partOk sf.count df.count part c && dstOk h d
  | .pack6 h sf df _ part d _ c =>
      sf.isFloat && (df == .e3m2 || df == .e2m3) && partOk sf.count 8 part c && dstOk h d
  | .pack4 h sf _ part o =>
      (sf == .bf16 || sf == .fp16) && partOk sf.count 16 part o.c && dstOk h o.d && litsOk [o.a, o.b, o.c]
  | .unpk h sf df _ part o =>
      (match sf with
        | .e3m2 | .e2m3 => df.isFloat && o.b == .zero
        | .b4 => df == .bf16 || df == .fp16
        | .tag _ => false) && partOk sf.count df.count part .zero && dstOk h o.d
  | .sclc h sf _ o => sf.isFloat && dstOk h o.d
  | .amax h sf _ o => sf.isFloat && dstOk h o.d
  | .shuf h f _ _ _ o => laneGroup h && dataFmtOk f && dstOk h o.d
  | .slide h f _ o => laneGroup h && dataFmtOk f && dstOk h o.d && uniformOk o.b && litsOk [o.a, o.b, o.c]
  | .bcast h f _ o => laneGroup h && dataFmtOk f && dstOk h o.d && uniformOk o.b
  | .perm h f _ o => laneGroup h && dataFmtOk f && dstOk h o.d && litsOk [o.a, o.b, o.c]
  | .vote h _ _ _ o => laneGroup h && dstOk h o.d
  | .match_ h f _ _ _ o => laneGroup h && dataFmtOk f && dstOk h o.d
  | .eqmask h f _ s1 _ o | .rank h f _ s1 _ o =>
      laneGroup h && f.isWideInt && (!s1 || f.width == 32) && dstOk h o.d
  | .redux h f w op pt o =>
      wideOnly h && redOk op f &&
        (if h.scope == .group then pt == 0 && dstOk h o.d else w == .w32 && longDstOk h o.d)
  | .scan h f w op _ pt o =>
      wideOnly h && redOk op f &&
        (if h.scope == .group then pt == 0 && dstOk h o.d
         else w == .w32 && (match o.d with | .v _ | .zero => true | _ => false))
  | .ld h f n _ d ptr off => f.ok && ptrOk h ptr && offOk off && nregOk n f (longDstOk h d) d
  | .st h f n ptr off data =>
      f.ok && ptrOk h ptr && offOk off && nregOk n f (stDataOk data) data
  | .atom h f op _ d ptr off _ => atomOk op f && ptrOk h ptr && offOk off && longDstOk h d
  | .cas h f pair _ d ptr off e => ptrOk h ptr && offOk off && casOk f pair d e h
  | .pmake h _ o => ptrOk h o.d
  | .psub h o => ptrOk h o.d && ptrOk h o.a
  | .pget h _ o => dstOk h o.d && ptrOk h o.a
  | .pchk h _ o => dstOk h o.d && ptrOk h o.a
  | .pwiden h ns nc o | .pnarrow h ns nc o => ptrOk h o.d && ptrOk h o.a && ns != 6 && nc.toNat < 4
  | .subscr h a _ _ | .upgr h a _ _ => ptrOk h a
  | .tagq h o => dstOk h o.d && taggedOk o.a
  | .tclaim h kind d count => wideOnly h && dstOk h d && (kind == .win || count == .zero)
  | .trel h _ | .tzero h _ | .twin h _ _ => wideOnly h
  | .tld h f _ ptr off _ => wideOnly h && tldFmtOk f && ptrOk h ptr && offOk off
  | .tst h _ ptr off _ => wideOnly h && ptrOk h ptr && offOk off
  | .mmq h f _ _ _ a b c => laneGroup h && mmFmtOk f && litsOk [a, b, c]
  | .mms h f _ _ _ a b c => h.scope == .set && mmFmtOk f && litsOk [a, b, c]
  | .tdrain h f _ ptr off _ => wideOnly h && drainFmtOk f && ptrOk h ptr && offOk off
  | .tflag h d _ => wideOnly h && dstOk h d
  | .hld h _ _ | .hset h _ _ _ => wideOnly h
  | .hget h _ _ d _ => wideOnly h && longDstOk h d
  | .copy h d ptr off w | .copyx h d ptr off w => dstOk h d && ptrOk h ptr && offOk off && evenV w
  | .copyw h _ d _ => longDstOk h d
  | .bin h op ptr key item => ptrOk h ptr && (op == .item || key == .zero && item == .zero)
  | .binrd h sl _ d ptr idx => longDstOk h d && ptrOk h ptr && (sl == .count || idx == .zero)
  | .sendl h ptr src w => ptrOk h ptr && ptrOk h src && evenV w
  | .launch h q hd => ptrOk h q && ptrOk h hd
  | .release _ _ => true
  | .trap h _ | .tret h | .halt h => laneOnly h
  | .swr h r _ => if r == .seed then h.scope == .lane else h.scope == .group
  | .time h _ _ d | .qsc h _ _ d => laneGroup h && longDstOk h d
  | .fltrd h word cons _ d _ => laneGroup h && longDstOk h d && (!cons || word == 0)
  | .tlbx h size all va count => laneGroup h && (!all || size == .p64k && va == .zero && count == .zero)
  | .issuePick .. | .cohortPromote .. | .regroupExchange .. | .fixedResultWrite .. | .pendingTagComplete ..
  | .rendezvousComplete .. | .trapEntry .. | .accessPerformed .. | .waitmReread .. | .blockRelease ..
  | .scratchpadFill .. | .scratchpadWriteback .. | .memoryActionClose .. | .slotReturn .. | .copyAccept ..
  | .copyStamp .. | .patch .. | .matrixGrant .. | .matrixPassWrite .. | .tileTransferComplete ..
  | .binOpenPerform .. | .binItemPerform .. | .binClosePerform .. | .sendEntryAccept .. | .sendEntryComplete ..
  | .headerRead .. | .blockPlace .. | .launchAged .. | .launchEnd .. | .queueEnable .. | .queueTeardown ..
  | .pageWalkComplete .. | .faultSignalDelayed .. | .quiescenceTick .. | .fltsvcConsume .. | .fltsvcServiced ..
  | .fltsvcRefused .. | .fltsvcIgnored .. | .preqSuspend .. | .preqResume .. | .preemptWindowEnd ..
  | .blockSave .. | .blockRestore .. | .readRequest .. | .readSharedLease .. | .ownershipRequest ..
  | .writeBack .. | .invalidation .. | .acknowledgement .. | .dataReply .. | .errorReply .. | .push ..
  | .revocation .. | .sendListPayload .. | .remoteStamp .. | .syncAccessAtHome .. | .timeExchange ..
  | .fabricMessageDiscard .. | .chordReview | .requestTimeout .. | .leaseExpire .. | .timeSyncTick ..
  | .hostRead .. | .hostWrite .. | .hostSnoop .. | .backInvalidateResponse .. | .spdmMeasurement
  | .coldStart .. | .warmStart .. | .fabDropClear | .quiesce | .ldResume .. | .ldReset .. | .pwrTargetD0 ..
  | .pwrTargetD1 .. | .pwrTargetD2 .. | .powerStateEnter .. | .dieWake .. | .thermalThrottle ..
  | .thermalTrip .. | .pwrtelUpdate .. | .patrolScrub .. | .memoryError .. | .portFailing ..
  | .retrainComplete .. | .retrainWindowEnd .. | .portSignalLoss .. | .portSilenceTimeout .. | .peerLost ..
  | .hostLinkDrop .. | .supplyReset .. | .registerWrite .. | .linkBringUp .. | .departureMessage ..
  | .chordRelay .. | .chordReturn .. | .pairKeyEpoch .. | .powerCapThrottle => false

end Sys2Proof
end

