-- ==== Sys2Proof/Decode.lean ====
section
/-! DEFINITION. The decoder and the encoder of the base word and its literals (R103 to R125, R229). -/

namespace Sys2Proof

/-- Codes of `Scope` (R103). -/
def Scope.code : Scope → BitVec 2
  | .lane => 0#2
  | .group => 1#2
  | .set => 2#2
  | .block => 3#2

def Scope.ofCode (c : BitVec 2) : Option Scope :=
  match c.toNat with
  | 0 => some .lane
  | 1 => some .group
  | 2 => some .set
  | 3 => some .block
  | _ => none

/-- Codes of `RM` (R65). -/
def RM.code : RM → BitVec 3
  | .rne => 0#3
  | .rtz => 1#3
  | .rup => 2#3
  | .rdn => 3#3
  | .sr => 4#3

def RM.ofCode (c : BitVec 3) : Option RM :=
  match c.toNat with
  | 0 => some .rne
  | 1 => some .rtz
  | 2 => some .rup
  | 3 => some .rdn
  | 4 => some .sr
  | _ => none

/-- Codes of `IRel` (R156). -/
def IRel.code : IRel → BitVec 3
  | .eq => 0#3
  | .ne => 1#3
  | .lt => 2#3
  | .le => 3#3
  | .gt => 4#3
  | .ge => 5#3

def IRel.ofCode (c : BitVec 3) : Option IRel :=
  match c.toNat with
  | 0 => some .eq
  | 1 => some .ne
  | 2 => some .lt
  | 3 => some .le
  | 4 => some .gt
  | 5 => some .ge
  | _ => none

/-- Codes of `FRel` (R178). -/
def FRel.code : FRel → BitVec 3
  | .eq => 0#3
  | .ne => 1#3
  | .lt => 2#3
  | .le => 3#3
  | .gt => 4#3
  | .ge => 5#3
  | .un => 6#3
  | .ord => 7#3

def FRel.ofCode (c : BitVec 3) : Option FRel :=
  match c.toNat with
  | 0 => some .eq
  | 1 => some .ne
  | 2 => some .lt
  | 3 => some .le
  | 4 => some .gt
  | 5 => some .ge
  | 6 => some .un
  | 7 => some .ord
  | _ => none

/-- Codes of `WRel` (R110). -/
def WRel.code : WRel → BitVec 3
  | .eq => 0#3
  | .ne => 1#3
  | .geu => 2#3
  | .ltu => 3#3
  | .ges => 4#3
  | .lts => 5#3

def WRel.ofCode (c : BitVec 3) : Option WRel :=
  match c.toNat with
  | 0 => some .eq
  | 1 => some .ne
  | 2 => some .geu
  | 3 => some .ltu
  | 4 => some .ges
  | 5 => some .lts
  | _ => none

/-- Codes of `Ctr` (R110). -/
def Ctr.code : Ctr → BitVec 3
  | .ld => 0#3
  | .st => 1#3
  | .at_ => 2#3
  | .cp => 3#3
  | .mm => 4#3
  | .bn => 5#3

def Ctr.ofCode (c : BitVec 3) : Option Ctr :=
  match c.toNat with
  | 0 => some .ld
  | 1 => some .st
  | 2 => some .at_
  | 3 => some .cp
  | 4 => some .mm
  | 5 => some .bn
  | _ => none

/-- Codes of `SReg` (R42). -/
def SReg.code : SReg → BitVec 8
  | .lane => 0#8
  | .group => 1#8
  | .wid => 2#8
  | .time => 3#8
  | .flags => 4#8
  | .oc => 5#8
  | .pend => 6#8
  | .cap => 7#8
  | .ctl => 8#8
  | .set => 9#8

def SReg.ofCode (c : BitVec 8) : Option SReg :=
  match c.toNat with
  | 0 => some .lane
  | 1 => some .group
  | 2 => some .wid
  | 3 => some .time
  | 4 => some .flags
  | 5 => some .oc
  | 6 => some .pend
  | 7 => some .cap
  | 8 => some .ctl
  | 9 => some .set
  | _ => none

/-- Codes of `Width` (R116). -/
def Width.code : Width → BitVec 3
  | .w32 => 0#3
  | .w2 => 1#3
  | .w4 => 2#3
  | .w8 => 3#3
  | .w16 => 4#3

def Width.ofCode (c : BitVec 3) : Option Width :=
  match c.toNat with
  | 0 => some .w32
  | 1 => some .w2
  | 2 => some .w4
  | 3 => some .w8
  | 4 => some .w16
  | _ => none

/-- Codes of `ClassSel` (R179). -/
def ClassSel.code : ClassSel → BitVec 3
  | .mask => 0#3
  | .fin => 1#3
  | .nan => 2#3

def ClassSel.ofCode (c : BitVec 3) : Option ClassSel :=
  match c.toNat with
  | 0 => some .mask
  | 1 => some .fin
  | 2 => some .nan
  | _ => none

/-- Codes of `ShufVar` (R116). -/
def ShufVar.code : ShufVar → BitVec 3
  | .wrap => 0#3
  | .clamp => 1#3
  | .own => 2#3

def ShufVar.ofCode (c : BitVec 3) : Option ShufVar :=
  match c.toNat with
  | 0 => some .wrap
  | 1 => some .clamp
  | 2 => some .own
  | _ => none

/-- Codes of `VoteVar` (R203). -/
def VoteVar.code : VoteVar → BitVec 3
  | .all => 0#3
  | .any => 1#3
  | .ballot => 2#3
  | .uni => 3#3

def VoteVar.ofCode (c : BitVec 3) : Option VoteVar :=
  match c.toNat with
  | 0 => some .all
  | 1 => some .any
  | 2 => some .ballot
  | 3 => some .uni
  | _ => none

/-- Codes of `Span` (R192). -/
def Span.code : Span → BitVec 2
  | .blk => 0#2
  | .ln => 1#2
  | .grp => 2#2

def Span.ofCode (c : BitVec 2) : Option Span :=
  match c.toNat with
  | 0 => some .blk
  | 1 => some .ln
  | 2 => some .grp
  | _ => none

/-- Codes of `RedOp` (R206). -/
def RedOp.code : RedOp → BitVec 3
  | .add => 0#3
  | .min => 1#3
  | .max => 2#3
  | .and => 3#3
  | .or => 4#3
  | .xor => 5#3

def RedOp.ofCode (c : BitVec 3) : Option RedOp :=
  match c.toNat with
  | 0 => some .add
  | 1 => some .min
  | 2 => some .max
  | 3 => some .and
  | 4 => some .or
  | 5 => some .xor
  | _ => none

/-- Codes of `AOp` (R214). -/
def AOp.code : AOp → BitVec 4
  | .add => 0#4
  | .min => 1#4
  | .max => 2#4
  | .and => 3#4
  | .or => 4#4
  | .xor => 5#4
  | .xchg => 6#4
  | .fadd => 7#4

def AOp.ofCode (c : BitVec 4) : Option AOp :=
  match c.toNat with
  | 0 => some .add
  | 1 => some .min
  | 2 => some .max
  | 3 => some .and
  | 4 => some .or
  | 5 => some .xor
  | 6 => some .xchg
  | 7 => some .fadd
  | _ => none

/-- Codes of `NReg` (R117). -/
def NReg.code : NReg → BitVec 2
  | .one => 0#2
  | .pair => 1#2
  | .quad => 2#2

def NReg.ofCode (c : BitVec 2) : Option NReg :=
  match c.toNat with
  | 0 => some .one
  | 1 => some .pair
  | 2 => some .quad
  | _ => none

/-- Codes of `PField` (R84). -/
def PField.code : PField → BitVec 4
  | .base => 0#4
  | .extent => 1#4
  | .sfmt => 2#4
  | .vfmt => 3#4
  | .space => 4#4
  | .class_ => 5#4
  | .scope => 6#4
  | .stream => 7#4
  | .home => 8#4
  | .xunit => 9#4
  | .submode => 10#4
  | .policy => 11#4

def PField.ofCode (c : BitVec 4) : Option PField :=
  match c.toNat with
  | 0 => some .base
  | 1 => some .extent
  | 2 => some .sfmt
  | 3 => some .vfmt
  | 4 => some .space
  | 5 => some .class_
  | 6 => some .scope
  | 7 => some .stream
  | 8 => some .home
  | 9 => some .xunit
  | 10 => some .submode
  | 11 => some .policy
  | _ => none

/-- Codes of `ClaimKind` (R229). -/
def ClaimKind.code : ClaimKind → BitVec 2
  | .op => 0#2
  | .win => 1#2
  | .c => 2#2

def ClaimKind.ofCode (c : BitVec 2) : Option ClaimKind :=
  match c.toNat with
  | 0 => some .op
  | 1 => some .win
  | 2 => some .c
  | _ => none

/-- Codes of `BinOp` (R229). -/
def BinOp.code : BinOp → BitVec 2
  | .item => 0#2
  | .open_ => 1#2
  | .close => 2#2

def BinOp.ofCode (c : BitVec 2) : Option BinOp :=
  match c.toNat with
  | 0 => some .item
  | 1 => some .open_
  | 2 => some .close
  | _ => none

/-- Codes of `BinSel` (R229). -/
def BinSel.code : BinSel → BitVec 2
  | .state => 0#2
  | .count => 1#2
  | .ovf => 2#2
  | .total => 3#2

def BinSel.ofCode (c : BitVec 2) : Option BinSel :=
  match c.toNat with
  | 0 => some .state
  | 1 => some .count
  | 2 => some .ovf
  | 3 => some .total
  | _ => none

/-- Codes of `PgSize` (R229). -/
def PgSize.code : PgSize → BitVec 2
  | .p64k => 0#2
  | .p4m => 1#2
  | .p1g => 2#2

def PgSize.ofCode (c : BitVec 2) : Option PgSize :=
  match c.toNat with
  | 0 => some .p64k
  | 1 => some .p4m
  | 2 => some .p1g
  | _ => none

/-- Codes of `Tag` (R22). -/
def Tag.code : Tag → BitVec 4
  | .fp32 => 0#4
  | .bf16 => 1#4
  | .fp16 => 2#4
  | .e4m3 => 3#4
  | .e5m2 => 4#4
  | .i8 => 5#4
  | .i16 => 6#4
  | .i32 => 7#4
  | .i64 => 8#4
  | .n8 => 9#4
  | .n16 => 10#4
  | .n32 => 11#4
  | .n64 => 12#4
  | .ptrLo => 13#4
  | .ptrHi => 14#4
  | .poison => 15#4

def Tag.ofCode (c : BitVec 4) : Option Tag :=
  match c.toNat with
  | 0 => some .fp32
  | 1 => some .bf16
  | 2 => some .fp16
  | 3 => some .e4m3
  | 4 => some .e5m2
  | 5 => some .i8
  | 6 => some .i16
  | 7 => some .i32
  | 8 => some .i64
  | 9 => some .n8
  | 10 => some .n16
  | 11 => some .n32
  | 12 => some .n64
  | 13 => some .ptrLo
  | 14 => some .ptrHi
  | 15 => some .poison
  | _ => none

/-- Format codes of R91 and R117; 0b1111 is ANY. -/
def MFmt.code : MFmt → BitVec 4
  | .tag t => t.code
  | .ptr => 13#4
  | .pk => 14#4
  | .any => 15#4

def MFmt.ofCode (c : BitVec 4) : Option MFmt :=
  match c.toNat with
  | 13 => some .ptr
  | 14 => some .pk
  | 15 => some .any
  | _ => (Tag.ofCode c).map .tag

/-- Element format codes (R114). -/
def EFmt.code : EFmt → BitVec 4
  | .tag t => t.code
  | .e3m2 => 13#4
  | .e2m3 => 14#4
  | .b4 => 15#4

def EFmt.ofCode (c : BitVec 4) : Option EFmt :=
  match c.toNat with
  | 13 => some .e3m2
  | 14 => some .e2m3
  | 15 => some .b4
  | _ => (Tag.ofCode c).map .tag

/-- `FMT` with 0b1111 for no format (R111, R116). -/
def optTagCode : Option Tag → BitVec 4
  | none => 15#4
  | some t => t.code

def optTagOfCode (c : BitVec 4) : Option (Option Tag) :=
  match c.toNat with
  | 15 => some none
  | _ => (Tag.ofCode c).map some

/-- SWR selectors (R269, R346, R370, R389, R410). -/
def SysReg.code : SysReg → BitVec 7
  | .seed => 0x00#7
  | .ctl => 0x08#7
  | .privap => 0x10#7
  | .saveap => 0x11#7
  | .shtab => 0x12#7
  | .defctl => 0x13#7
  | .defseed => 0x14#7
  | .tvec => 0x20#7
  | .tframe => 0x21#7
  | .q n => BitVec.ofNat 7 (0x30 + n.val)
  | .ptroot => 0x50#7
  | .fltsvc => 0x51#7
  | .fltbase => 0x52#7
  | .preq => 0x53#7
  | .prewin => 0x54#7
  | .imptab => 0x58#7
  | .exptab => 0x59#7
  | .lease => 0x5A#7

def SysReg.ofCode (c : BitVec 7) : Option SysReg :=
  match c.toNat with
  | 0x00 => some .seed
  | 0x08 => some .ctl
  | 0x10 => some .privap
  | 0x11 => some .saveap
  | 0x12 => some .shtab
  | 0x13 => some .defctl
  | 0x14 => some .defseed
  | 0x20 => some .tvec
  | 0x21 => some .tframe
  | 0x50 => some .ptroot
  | 0x51 => some .fltsvc
  | 0x52 => some .fltbase
  | 0x53 => some .preq
  | 0x54 => some .prewin
  | 0x58 => some .imptab
  | 0x59 => some .exptab
  | 0x5A => some .lease
  | n => if h : 0x30 ≤ n ∧ n < 0x50 then some (.q ⟨n - 0x30, by omega⟩) else none

/-- Operand codes (R105). -/
def Opd.code : Opd → BitVec 8
  | .v n => BitVec.ofNat 8 n.val
  | .q n => BitVec.ofNat 8 (192 + n.val)
  | .y n => BitVec.ofNat 8 (200 + n.val)
  | .x n => BitVec.ofNat 8 (202 + n.val)
  | .k n => BitVec.ofNat 8 (234 + n.val)
  | .lit32 _ => 250#8
  | .lit64 _ => 251#8
  | .zero => 252#8
  | .lane => 253#8

/-- The operand a code names, its literal given (R105, R106). -/
def Opd.ofCode (c : BitVec 8) (lit : BitVec 64) : Option Opd :=
  let n := c.toNat
  if h : n < 192 then some (.v ⟨n, h⟩)
  else if h : n < 200 then some (.q ⟨n - 192, by omega⟩)
  else if h : n < 202 then some (.y ⟨n - 200, by omega⟩)
  else if h : n < 234 then some (.x ⟨n - 202, by omega⟩)
  else if h : n < 250 then some (.k ⟨n - 234, by omega⟩)
  else if n = 250 then some (.lit32 (lit.setWidth 32))
  else if n = 251 then some (.lit64 lit)
  else if n = 252 then some .zero
  else if n = 253 then some .lane
  else none

/-- The literal words an operand brings (R106): one word, or two with the low half first. -/
def Opd.words : Opd → List (BitVec 32)
  | .lit32 l => [l]
  | .lit64 l => [l.extractLsb' 0 32, l.extractLsb' 32 32]
  | _ => []

/-- The fields of a base word (R103); in form T bits [45:22] are the offset (R109). -/
structure Base where
  op : BitVec 9
  scope : BitVec 2
  stall : BitVec 3
  pneg : BitVec 1
  pred : BitVec 3
  dst : BitVec 8
  a : BitVec 8
  b : BitVec 8
  c : BitVec 8
  mod : BitVec 14
deriving DecidableEq, Repr

/-- A base word cut into its fields (R103). -/
def Base.ofWord (w : BitVec 64) : Base :=
  { op := w.extractLsb' 55 9, scope := w.extractLsb' 53 2, stall := w.extractLsb' 50 3, pneg := w.extractLsb' 49 1,
    pred := w.extractLsb' 46 3, dst := w.extractLsb' 38 8, a := w.extractLsb' 30 8, b := w.extractLsb' 22 8,
    c := w.extractLsb' 14 8, mod := w.extractLsb' 0 14 }

/-- The offset of form T (R109): bits [45:22]. -/
def Base.offset (f : Base) : BitVec 24 := f.dst ++ f.a ++ f.b

def Base.class_ (f : Base) : BitVec 3 := f.op.extractLsb' 6 3
def Base.sub (f : Base) : BitVec 6 := f.op.extractLsb' 0 6

/-- Why a word is no instruction: each is an ILLEGAL trap at decode (R125). -/
inductive DecErr where
  | short            -- fewer words than the instruction has
  | reservedOpcode   -- R122
  | unreadField      -- R108: an unread operand field or modifier bit is set
  | badValue         -- R105, R120: a reserved code or value
  | notAccepted      -- R124, R125: operands, formats or scope the entry bars
deriving DecidableEq, Repr

/-- The literal a source code names and the words after it (R106). -/
def takeLit (c : BitVec 8) (ws : List (BitVec 32)) : Option (BitVec 64 × List (BitVec 32)) :=
  if c = 250#8 then
    match ws with
    | l :: r => some (l.setWidth 64, r)
    | [] => none
  else if c = 251#8 then
    match ws with
    | l :: m :: r => some (m ++ l, r)
    | _ => none
  else some (0, ws)

/-- A boolean field of one bit. -/
def flag (b : BitVec 1) : Bool := b == 1#1

def Head.ofBase (f : Base) : Option Head :=
  (Scope.ofCode f.scope).map fun s => { scope := s, stall := f.stall, pneg := flag f.pneg, pred := f.pred }

/-- The fields an opcode reads (R108): `used` has a bit for each of DST, SRCA, SRCB, SRCC (8, 4, 2, 1); the others hold
252, and `mod` holds 0 outside `mask`. -/
def Base.unreadOk (f : Base) (used : BitVec 4) (mask : BitVec 14) : Bool :=
  (used.getLsbD 3 || f.dst == 252#8) && (used.getLsbD 2 || f.a == 252#8) && (used.getLsbD 1 || f.b == 252#8) &&
    (used.getLsbD 0 || f.c == 252#8) && f.mod &&& ~~~mask == 0#14

/-- An opcode's row: the fields it reads, the modifier bits it reads, and the instruction the fields name. -/
structure Row where
  used : BitVec 4
  mask : BitVec 14
  instr : Option Instr

def m4 (m : BitVec 14) : BitVec 4 := m.extractLsb' 10 4

/-- A V register named by a modifier field (R110: LINK). -/
def vOfCode (c : BitVec 8) : Option (Fin 192) :=
  if h : c.toNat < 192 then some ⟨c.toNat, h⟩ else none

/-- Class 000 of the opcode map (R121): the row of a code; `none` where the code is reserved. -/
def rowControl (g : Base) (h : Head) (od oa ob oc : Option Opd) : Option Row :=
  let m := g.mod
  match g.sub.toNat with
  | 1 => some ⟨1, 0x0000#14, some (.runend h g.c)⟩
  | 7 => some ⟨1, 0x0000#14, some (.exit h g.c)⟩
  | 8 => some ⟨1, 0x0000#14, some (.yield h g.c)⟩
  | 9 => some ⟨1, 0x0000#14, some (.bar h g.c)⟩
  | 2 => some ⟨15, 0x0000#14, some (.br h g.offset g.c)⟩
  | 3 => some ⟨15, 0x3C00#14, some (.brc h g.offset g.c (flag (m.extractLsb' 13 1)) (m.extractLsb' 10 3))⟩
  | 4 => some ⟨5, 0x0000#14, do return .brx h (← oa) g.c⟩
  | 5 => some ⟨15, 0x03FC#14, do return .call h g.offset g.c (← vOfCode (m.extractLsb' 2 8))⟩
  | 6 => some ⟨5, 0x0000#14, do return .ret h (← oa) g.c⟩
  | 10 => some ⟨1, 0x3FE0#14, do return .waitc h (← Ctr.ofCode (m.extractLsb' 11 3)) (m.extractLsb' 5 6) g.c⟩
  | 11 => some ⟨7, 0x3C00#14, do return .waitm h (← WRel.ofCode (m.extractLsb' 11 3)) (flag (m.extractLsb' 10 1)) (← oa) (← ob) g.c⟩
  | 12 => some ⟨5, 0x0000#14, do return .regroup h (← oa) g.c⟩
  | 13 => some ⟨15, 0x0000#14, some (.chkpt h g.offset g.c)⟩
  | 14 => some ⟨4, 0x3800#14, do return .setd h (m.extractLsb' 12 2) (flag (m.extractLsb' 11 1)) (← oa)⟩
  | 15 => some ⟨0, 0x0000#14, some (.nop h)⟩
  | _ => none

/-- Class 001 of the opcode map (R121): the row of a code; `none` where the code is reserved. -/
def rowInteger (g : Base) (h : Head) (od oa ob oc : Option Opd) : Option Row :=
  let m := g.mod
  match g.sub.toNat with
  | 0 => some ⟨14, 0x3C40#14, do return .iadd h (← Tag.ofCode (m.extractLsb' 10 4)) (flag (m.extractLsb' 6 1)) ⟨(← od), (← oa), (← ob)⟩⟩
  | 1 => some ⟨14, 0x3C40#14, do return .isub h (← Tag.ofCode (m.extractLsb' 10 4)) (flag (m.extractLsb' 6 1)) ⟨(← od), (← oa), (← ob)⟩⟩
  | 2 => some ⟨14, 0x3F87#14, do return .iaddc h (← Tag.ofCode (m.extractLsb' 10 4)) (m.extractLsb' 7 3) (m.extractLsb' 0 3) ⟨(← od), (← oa), (← ob)⟩⟩
  | 3 => some ⟨14, 0x3C40#14, do return .imul h (← Tag.ofCode (m.extractLsb' 10 4)) (flag (m.extractLsb' 6 1)) ⟨(← od), (← oa), (← ob)⟩⟩
  | 4 => some ⟨14, 0x3C00#14, do return .imulh h (← Tag.ofCode (m.extractLsb' 10 4)) ⟨(← od), (← oa), (← ob)⟩⟩
  | 5 => some ⟨15, 0x3C40#14, do return .imad h (← Tag.ofCode (m.extractLsb' 10 4)) (flag (m.extractLsb' 6 1)) ⟨(← od), (← oa), (← ob), (← oc)⟩⟩
  | 6 => some ⟨15, 0x3CC0#14, do return .imadw h (← Tag.ofCode (m.extractLsb' 10 4)) (flag (m.extractLsb' 7 1)) (flag (m.extractLsb' 6 1)) ⟨(← od), (← oa), (← ob), (← oc)⟩⟩
  | 7 => some ⟨14, 0x3C00#14, do return .imin h (← Tag.ofCode (m.extractLsb' 10 4)) ⟨(← od), (← oa), (← ob)⟩⟩
  | 8 => some ⟨14, 0x3C00#14, do return .imax h (← Tag.ofCode (m.extractLsb' 10 4)) ⟨(← od), (← oa), (← ob)⟩⟩
  | 9 => some ⟨12, 0x3C40#14, do return .iabs h (← Tag.ofCode (m.extractLsb' 10 4)) (flag (m.extractLsb' 6 1)) ⟨(← od), (← oa)⟩⟩
  | 10 => some ⟨12, 0x3C40#14, do return .ineg h (← Tag.ofCode (m.extractLsb' 10 4)) (flag (m.extractLsb' 6 1)) ⟨(← od), (← oa)⟩⟩
  | 11 => some ⟨6, 0x3F87#14, do return .icmp h (← Tag.ofCode (m.extractLsb' 10 4)) (← IRel.ofCode (m.extractLsb' 7 3)) (m.extractLsb' 0 3) (← oa) (← ob)⟩
  | 12 => some ⟨14, 0x3F80#14, if m.extractLsb' 10 4 == 15#4 then (do return .sel h (m.extractLsb' 7 3) ⟨(← od), (← oa), (← ob)⟩) else none⟩
  | 13 => some ⟨12, 0x3C00#14, do return .mov h (← optTagOfCode (m.extractLsb' 10 4)) ⟨(← od), (← oa)⟩⟩
  | 14 => some ⟨14, 0x3C00#14, if m.extractLsb' 10 4 == 15#4 then (do return .movk h ⟨(← od), (← oa), (← ob)⟩) else none⟩
  | 15 => some ⟨8, 0x0FF8#14, do return .srd h (← SReg.ofCode (m.extractLsb' 3 8)) (flag (m.extractLsb' 11 1)) (← od)⟩
  | 16 => some ⟨14, 0x3C40#14, do return .shl h (← Tag.ofCode (m.extractLsb' 10 4)) (flag (m.extractLsb' 6 1)) ⟨(← od), (← oa), (← ob)⟩⟩
  | 17 => some ⟨14, 0x3C00#14, do return .shr h (← Tag.ofCode (m.extractLsb' 10 4)) ⟨(← od), (← oa), (← ob)⟩⟩
  | 18 => some ⟨14, 0x3C00#14, do return .sar h (← Tag.ofCode (m.extractLsb' 10 4)) ⟨(← od), (← oa), (← ob)⟩⟩
  | 19 => some ⟨14, 0x3C00#14, do return .rol h (← Tag.ofCode (m.extractLsb' 10 4)) ⟨(← od), (← oa), (← ob)⟩⟩
  | 20 => some ⟨12, 0x3C00#14, do return .popc h (← Tag.ofCode (m.extractLsb' 10 4)) ⟨(← od), (← oa)⟩⟩
  | 21 => some ⟨12, 0x3C00#14, do return .clz h (← Tag.ofCode (m.extractLsb' 10 4)) ⟨(← od), (← oa)⟩⟩
  | 22 => some ⟨12, 0x3C00#14, do return .ctz h (← Tag.ofCode (m.extractLsb' 10 4)) ⟨(← od), (← oa)⟩⟩
  | 23 => some ⟨12, 0x3C00#14, do return .brev h (← Tag.ofCode (m.extractLsb' 10 4)) ⟨(← od), (← oa)⟩⟩
  | 24 => some ⟨14, 0x3C00#14, do return .bfx h (← Tag.ofCode (m.extractLsb' 10 4)) ⟨(← od), (← oa), (← ob)⟩⟩
  | 25 => some ⟨15, 0x3C00#14, do return .bfi h (← Tag.ofCode (m.extractLsb' 10 4)) ⟨(← od), (← oa), (← ob), (← oc)⟩⟩
  | 26 => some ⟨7, 0x3FC7#14,
      if g.a.toNat < 8 && g.b.toNat < 8 && g.c.toNat < 8 then
        some (.plop h (m.extractLsb' 6 8) (m.extractLsb' 0 3) (g.a.setWidth 3) (g.b.setWidth 3) (g.c.setWidth 3))
      else none⟩
  | _ => none

/-- Class 010 of the opcode map (R121): the row of a code; `none` where the code is reserved. -/
def rowPacked (g : Base) (h : Head) (od oa ob oc : Option Opd) : Option Row :=
  let m := g.mod
  match g.sub.toNat with
  | 0 => some ⟨14, 0x3C00#14, if m.extractLsb' 10 4 == 15#4 then (do return .and h ⟨(← od), (← oa), (← ob)⟩) else none⟩
  | 1 => some ⟨14, 0x3C00#14, if m.extractLsb' 10 4 == 15#4 then (do return .or h ⟨(← od), (← oa), (← ob)⟩) else none⟩
  | 2 => some ⟨14, 0x3C00#14, if m.extractLsb' 10 4 == 15#4 then (do return .xor h ⟨(← od), (← oa), (← ob)⟩) else none⟩
  | 3 => some ⟨14, 0x3C00#14, if m.extractLsb' 10 4 == 15#4 then (do return .andn h ⟨(← od), (← oa), (← ob)⟩) else none⟩
  | 4 => some ⟨15, 0x3C00#14, if m.extractLsb' 10 4 == 15#4 then (do return .prmb h ⟨(← od), (← oa), (← ob), (← oc)⟩) else none⟩
  | 8 => some ⟨14, 0x3C40#14, do return .iaddPacked h (← Tag.ofCode (m.extractLsb' 10 4)) (flag (m.extractLsb' 6 1)) ⟨(← od), (← oa), (← ob)⟩⟩
  | 9 => some ⟨14, 0x3C40#14, do return .isubPacked h (← Tag.ofCode (m.extractLsb' 10 4)) (flag (m.extractLsb' 6 1)) ⟨(← od), (← oa), (← ob)⟩⟩
  | 10 => some ⟨14, 0x3C00#14, do return .iminPacked h (← Tag.ofCode (m.extractLsb' 10 4)) ⟨(← od), (← oa), (← ob)⟩⟩
  | 11 => some ⟨14, 0x3C00#14, do return .imaxPacked h (← Tag.ofCode (m.extractLsb' 10 4)) ⟨(← od), (← oa), (← ob)⟩⟩
  | 12 => some ⟨15, 0x3C00#14, if m.extractLsb' 10 4 == 6#4 then (do return .imac2 h ⟨(← od), (← oa), (← ob), (← oc)⟩) else none⟩
  | 13 => some ⟨15, 0x3C40#14, do return .idot4 h (← Tag.ofCode (m.extractLsb' 10 4)) (flag (m.extractLsb' 6 1)) ⟨(← od), (← oa), (← ob), (← oc)⟩⟩
  | 14 => some ⟨15, 0x3C00#14, do return .shrr h (← Tag.ofCode (m.extractLsb' 10 4)) ⟨(← od), (← oa), (← ob), (← oc)⟩⟩
  | 15 => some ⟨14, 0x3C00#14, do return .isat h (← Tag.ofCode (m.extractLsb' 10 4)) ⟨(← od), (← oa), (← ob)⟩⟩
  | _ => none

/-- Class 011 of the opcode map (R121): the row of a code; `none` where the code is reserved. -/
def rowFloat (g : Base) (h : Head) (od oa ob oc : Option Opd) : Option Row :=
  let m := g.mod
  match g.sub.toNat with
  | 0 => some ⟨14, 0x3F80#14, do return .fadd h (← Tag.ofCode (m.extractLsb' 10 4)) (← RM.ofCode (m.extractLsb' 7 3)) ⟨(← od), (← oa), (← ob)⟩⟩
  | 1 => some ⟨14, 0x3F80#14, do return .fsub h (← Tag.ofCode (m.extractLsb' 10 4)) (← RM.ofCode (m.extractLsb' 7 3)) ⟨(← od), (← oa), (← ob)⟩⟩
  | 2 => some ⟨14, 0x3F80#14, do return .fmul h (← Tag.ofCode (m.extractLsb' 10 4)) (← RM.ofCode (m.extractLsb' 7 3)) ⟨(← od), (← oa), (← ob)⟩⟩
  | 3 => some ⟨15, 0x3F80#14, do return .ffma h (← Tag.ofCode (m.extractLsb' 10 4)) (← RM.ofCode (m.extractLsb' 7 3)) ⟨(← od), (← oa), (← ob), (← oc)⟩⟩
  | 4 => some ⟨14, 0x3C00#14, do return .fmin h (← Tag.ofCode (m.extractLsb' 10 4)) ⟨(← od), (← oa), (← ob)⟩⟩
  | 5 => some ⟨14, 0x3C00#14, do return .fmax h (← Tag.ofCode (m.extractLsb' 10 4)) ⟨(← od), (← oa), (← ob)⟩⟩
  | 6 => some ⟨12, 0x3C00#14, do return .fabs h (← Tag.ofCode (m.extractLsb' 10 4)) ⟨(← od), (← oa)⟩⟩
  | 7 => some ⟨12, 0x3C00#14, do return .fneg h (← Tag.ofCode (m.extractLsb' 10 4)) ⟨(← od), (← oa)⟩⟩
  | 8 => some ⟨6, 0x3C77#14, do return .fcmp h (← Tag.ofCode (m.extractLsb' 10 4)) (← FRel.ofCode (m.extractLsb' 4 3)) (m.extractLsb' 0 3) (← oa) (← ob)⟩
  | 9 => some ⟨12, 0x3C70#14, do return .fclass h (← Tag.ofCode (m.extractLsb' 10 4)) (← ClassSel.ofCode (m.extractLsb' 4 3)) ⟨(← od), (← oa)⟩⟩
  | 10 => some ⟨12, 0x3F80#14, do return .frnd h (← Tag.ofCode (m.extractLsb' 10 4)) (← RM.ofCode (m.extractLsb' 7 3)) ⟨(← od), (← oa)⟩⟩
  | 11 => some ⟨15, 0x3F80#14, if m.extractLsb' 10 4 == 1#4 then (do return .fdot2 h (← RM.ofCode (m.extractLsb' 7 3)) ⟨(← od), (← oa), (← ob), (← oc)⟩) else none⟩
  | 16 => some ⟨12, 0x3F87#14, do return .frcp h (← Tag.ofCode (m.extractLsb' 10 4)) (← RM.ofCode (m.extractLsb' 7 3)) (m.extractLsb' 0 3) ⟨(← od), (← oa)⟩⟩
  | 17 => some ⟨12, 0x3F87#14, do return .frsq h (← Tag.ofCode (m.extractLsb' 10 4)) (← RM.ofCode (m.extractLsb' 7 3)) (m.extractLsb' 0 3) ⟨(← od), (← oa)⟩⟩
  | 18 => some ⟨12, 0x3F87#14, do return .fsqrt h (← Tag.ofCode (m.extractLsb' 10 4)) (← RM.ofCode (m.extractLsb' 7 3)) (m.extractLsb' 0 3) ⟨(← od), (← oa)⟩⟩
  | 19 => some ⟨12, 0x3F87#14, do return .fexp2 h (← Tag.ofCode (m.extractLsb' 10 4)) (← RM.ofCode (m.extractLsb' 7 3)) (m.extractLsb' 0 3) ⟨(← od), (← oa)⟩⟩
  | 20 => some ⟨12, 0x3F87#14, do return .flog2 h (← Tag.ofCode (m.extractLsb' 10 4)) (← RM.ofCode (m.extractLsb' 7 3)) (m.extractLsb' 0 3) ⟨(← od), (← oa)⟩⟩
  | 21 => some ⟨12, 0x3F87#14, do return .fsin h (← Tag.ofCode (m.extractLsb' 10 4)) (← RM.ofCode (m.extractLsb' 7 3)) (m.extractLsb' 0 3) ⟨(← od), (← oa)⟩⟩
  | 22 => some ⟨12, 0x3F87#14, do return .fcos h (← Tag.ofCode (m.extractLsb' 10 4)) (← RM.ofCode (m.extractLsb' 7 3)) (m.extractLsb' 0 3) ⟨(← od), (← oa)⟩⟩
  | 23 => some ⟨12, 0x3F87#14, do return .ftanh h (← Tag.ofCode (m.extractLsb' 10 4)) (← RM.ofCode (m.extractLsb' 7 3)) (m.extractLsb' 0 3) ⟨(← od), (← oa)⟩⟩
  | _ => none

/-- Class 100 of the opcode map (R121): the row of a code; `none` where the code is reserved. -/
def rowConvert (g : Base) (h : Head) (od oa ob oc : Option Opd) : Option Row :=
  let m := g.mod
  match g.sub.toNat with
  | 0 => some ⟨13, 0x3FFF#14, do return .cvt h (← Tag.ofCode (m.extractLsb' 10 4)) (← Tag.ofCode (m.extractLsb' 6 4)) (← RM.ofCode (m.extractLsb' 3 3)) (flag (m.extractLsb' 2 1)) (m.extractLsb' 0 2) (← od) (← oa) (← oc)⟩
  | 1 => some ⟨13, 0x3FFF#14, do return .cvtf8 h (← Tag.ofCode (m.extractLsb' 10 4)) (← Tag.ofCode (m.extractLsb' 6 4)) (← RM.ofCode (m.extractLsb' 3 3)) (flag (m.extractLsb' 2 1)) (m.extractLsb' 0 2) (← od) (← oa) (← oc)⟩
  | 2 => some ⟨13, 0x3FFB#14, do return .pack6 h (← Tag.ofCode (m.extractLsb' 10 4)) (← EFmt.ofCode (m.extractLsb' 6 4)) (← RM.ofCode (m.extractLsb' 3 3)) (m.extractLsb' 0 2) (← od) (← oa) (← oc)⟩
  | 3 => some ⟨15, 0x3FFB#14, if m.extractLsb' 6 4 == 15#4 then (do return .pack4 h (← Tag.ofCode (m.extractLsb' 10 4)) (← RM.ofCode (m.extractLsb' 3 3)) (m.extractLsb' 0 2) ⟨(← od), (← oa), (← ob), (← oc)⟩) else none⟩
  | 4 => some ⟨14, 0x3FFB#14, do return .unpk h (← EFmt.ofCode (m.extractLsb' 10 4)) (← Tag.ofCode (m.extractLsb' 6 4)) (← RM.ofCode (m.extractLsb' 3 3)) (m.extractLsb' 0 2) ⟨(← od), (← oa), (← ob)⟩⟩
  | 5 => some ⟨12, 0x3FC3#14, if m.extractLsb' 6 4 == 15#4 then (do return .sclc h (← Tag.ofCode (m.extractLsb' 10 4)) (m.extractLsb' 0 2) ⟨(← od), (← oa)⟩) else none⟩
  | 6 => some ⟨12, 0x3FC3#14, if m.extractLsb' 6 4 == m.extractLsb' 10 4 then (do return .amax h (← Tag.ofCode (m.extractLsb' 10 4)) (← Span.ofCode (m.extractLsb' 0 2)) ⟨(← od), (← oa)⟩) else none⟩
  | _ => none

/-- Class 101 of the opcode map (R121): the row of a code; `none` where the code is reserved. -/
def rowCrossLane (g : Base) (h : Head) (od oa ob oc : Option Opd) : Option Row :=
  let m := g.mod
  match g.sub.toNat with
  | 0 => some ⟨14, 0x3FF7#14, do return .shuf h (← optTagOfCode (m.extractLsb' 10 4)) (← Width.ofCode (m.extractLsb' 7 3)) (← ShufVar.ofCode (m.extractLsb' 4 3)) (m.extractLsb' 0 3) ⟨(← od), (← oa), (← ob)⟩⟩
  | 1 => some ⟨15, 0x3F80#14, do return .slide h (← optTagOfCode (m.extractLsb' 10 4)) (← Width.ofCode (m.extractLsb' 7 3)) ⟨(← od), (← oa), (← ob), (← oc)⟩⟩
  | 2 => some ⟨14, 0x3F80#14, do return .bcast h (← optTagOfCode (m.extractLsb' 10 4)) (← Width.ofCode (m.extractLsb' 7 3)) ⟨(← od), (← oa), (← ob)⟩⟩
  | 3 => some ⟨15, 0x3F80#14, do return .perm h (← optTagOfCode (m.extractLsb' 10 4)) (← Width.ofCode (m.extractLsb' 7 3)) ⟨(← od), (← oa), (← ob), (← oc)⟩⟩
  | 4 => some ⟨12, 0x3FF7#14, if m.extractLsb' 10 4 == 15#4 then (do return .vote h (← Width.ofCode (m.extractLsb' 7 3)) (← VoteVar.ofCode (m.extractLsb' 4 3)) (m.extractLsb' 0 3) ⟨(← od), (← oa)⟩) else none⟩
  | 5 => some ⟨12, 0x3F97#14, do return .match_ h (← optTagOfCode (m.extractLsb' 10 4)) (← Width.ofCode (m.extractLsb' 7 3)) (flag (m.extractLsb' 4 1)) (m.extractLsb' 0 3) ⟨(← od), (← oa)⟩⟩
  | 6 => some ⟨14, 0x3F97#14, do return .eqmask h (← Tag.ofCode (m.extractLsb' 10 4)) (← Width.ofCode (m.extractLsb' 7 3)) (flag (m.extractLsb' 4 1)) (m.extractLsb' 0 3) ⟨(← od), (← oa), (← ob)⟩⟩
  | 7 => some ⟨14, 0x3F97#14, do return .rank h (← Tag.ofCode (m.extractLsb' 10 4)) (← Width.ofCode (m.extractLsb' 7 3)) (flag (m.extractLsb' 4 1)) (m.extractLsb' 0 3) ⟨(← od), (← oa), (← ob)⟩⟩
  | 8 => some ⟨12, 0x3FF7#14, do return .redux h (← optTagOfCode (m.extractLsb' 10 4)) (← Width.ofCode (m.extractLsb' 7 3)) (← RedOp.ofCode (m.extractLsb' 4 3)) (m.extractLsb' 0 3) ⟨(← od), (← oa)⟩⟩
  | 9 => some ⟨12, 0x3FFF#14, do return .scan h (← optTagOfCode (m.extractLsb' 10 4)) (← Width.ofCode (m.extractLsb' 7 3)) (← RedOp.ofCode (m.extractLsb' 4 3)) (flag (m.extractLsb' 3 1)) (m.extractLsb' 0 3) ⟨(← od), (← oa)⟩⟩
  | _ => none

/-- Class 110 of the opcode map (R121): the row of a code; `none` where the code is reserved. -/
def rowMemory (g : Base) (h : Head) (od oa ob oc : Option Opd) : Option Row :=
  let m := g.mod
  match g.sub.toNat with
  | 0 => some ⟨14, 0x3F07#14, do return .ld h (← MFmt.ofCode (m.extractLsb' 10 4)) (← NReg.ofCode (m.extractLsb' 8 2)) (m.extractLsb' 0 3) (← od) (← oa) (← ob)⟩
  | 1 => some ⟨7, 0x3F00#14, do return .st h (← MFmt.ofCode (m.extractLsb' 10 4)) (← NReg.ofCode (m.extractLsb' 8 2)) (← oa) (← ob) (← oc)⟩
  | 2 => some ⟨15, 0x3CF7#14, do return .atom h (← MFmt.ofCode (m.extractLsb' 10 4)) (← AOp.ofCode (m.extractLsb' 4 4)) (m.extractLsb' 0 3) (← od) (← oa) (← ob) (← oc)⟩
  | 3 => some ⟨15, 0x3D07#14, do return .cas h (← MFmt.ofCode (m.extractLsb' 10 4)) (flag (m.extractLsb' 8 1)) (m.extractLsb' 0 3) (← od) (← oa) (← ob) (← oc)⟩
  | 8 => some ⟨14, 0x0008#14, do return .pmake h (flag (m.extractLsb' 3 1)) ⟨(← od), (← oa), (← ob)⟩⟩
  | 9 => some ⟨14, 0x0000#14, do return .psub h ⟨(← od), (← oa), (← ob)⟩⟩
  | 10 => some ⟨12, 0x3C00#14, do return .pget h (← PField.ofCode (m.extractLsb' 10 4)) ⟨(← od), (← oa)⟩⟩
  | 11 => some ⟨15, 0x0008#14, do return .pchk h (flag (m.extractLsb' 3 1)) ⟨(← od), (← oa), (← ob), (← oc)⟩⟩
  | 12 => some ⟨12, 0x03E0#14, do return .pwiden h (m.extractLsb' 7 3) (m.extractLsb' 5 2) ⟨(← od), (← oa)⟩⟩
  | 13 => some ⟨12, 0x03E0#14, do return .pnarrow h (m.extractLsb' 7 3) (m.extractLsb' 5 2) ⟨(← od), (← oa)⟩⟩
  | 16 => some ⟨7, 0x0000#14, do return .subscr h (← oa) (← ob) (← oc)⟩
  | 17 => some ⟨7, 0x0000#14, do return .upgr h (← oa) (← ob) (← oc)⟩
  | 18 => some ⟨12, 0x0000#14, do return .tagq h ⟨(← od), (← oa)⟩⟩
  | _ => none

/-- Class 111 of the opcode map (R121): the row of a code; `none` where the code is reserved. -/
def rowEngine (g : Base) (h : Head) (od oa ob oc : Option Opd) : Option Row :=
  let m := g.mod
  match g.sub.toNat with
  | 0 => some ⟨12, 0x0300#14, do return .tclaim h (← ClaimKind.ofCode (m.extractLsb' 8 2)) (← od) (← oa)⟩
  | 1 => some ⟨4, 0x0000#14, do return .trel h (← oa)⟩
  | 2 => some ⟨7, 0x3FC0#14, do return .tld h (← EFmt.ofCode (m.extractLsb' 10 4)) ((m.extractLsb' 6 4).toFin) (← oa) (← ob) (← oc)⟩
  | 3 => some ⟨7, 0x03C0#14, do return .tst h ((m.extractLsb' 6 4).toFin) (← oa) (← ob) (← oc)⟩
  | 4 => some ⟨4, 0x0000#14, do return .tzero h (← oa)⟩
  | 5 => some ⟨7, 0x3FE0#14, do return .mmq h (← EFmt.ofCode (m.extractLsb' 10 4)) (m.extractLsb' 8 2) (m.extractLsb' 6 2) (flag (m.extractLsb' 5 1)) (← oa) (← ob) (← oc)⟩
  | 6 => some ⟨7, 0x3FE0#14, do return .mms h (← EFmt.ofCode (m.extractLsb' 10 4)) (m.extractLsb' 8 2) (m.extractLsb' 6 2) (flag (m.extractLsb' 5 1)) (← oa) (← ob) (← oc)⟩
  | 7 => some ⟨7, 0x3FC0#14, do return .tdrain h (← EFmt.ofCode (m.extractLsb' 10 4)) ((m.extractLsb' 6 4).toFin) (← oa) (← ob) (← oc)⟩
  | 8 => some ⟨4, 0x03C0#14, do return .twin h ((m.extractLsb' 6 4).toFin) (← oa)⟩
  | 9 => some ⟨12, 0x0000#14, do return .tflag h (← od) (← oa)⟩
  | 10 => some ⟨4, 0x03C0#14, do return .hld h ((m.extractLsb' 6 4).toFin) (← oa)⟩
  | 11 => some ⟨6, 0x03C0#14, do return .hset h ((m.extractLsb' 6 4).toFin) (← oa) (← ob)⟩
  | 12 => some ⟨12, 0x03C7#14, do return .hget h ((m.extractLsb' 6 4).toFin) (m.extractLsb' 0 3) (← od) (← oa)⟩
  | 16 => some ⟨15, 0x0000#14, do return .copy h (← od) (← oa) (← ob) (← oc)⟩
  | 18 => some ⟨15, 0x0000#14, do return .copyx h (← od) (← oa) (← ob) (← oc)⟩
  | 17 => some ⟨12, 0x0007#14, do return .copyw h (m.extractLsb' 0 3) (← od) (← oa)⟩
  | 20 => some ⟨7, 0x0300#14, do return .bin h (← BinOp.ofCode (m.extractLsb' 8 2)) (← oa) (← ob) (← oc)⟩
  | 21 => some ⟨14, 0x0307#14, do return .binrd h (← BinSel.ofCode (m.extractLsb' 8 2)) (m.extractLsb' 0 3) (← od) (← oa) (← ob)⟩
  | 22 => some ⟨7, 0x0000#14, do return .sendl h (← oa) (← ob) (← oc)⟩
  | 23 => some ⟨6, 0x0000#14, do return .launch h (← oa) (← ob)⟩
  | 24 => some ⟨4, 0x0000#14, do return .release h (← oa)⟩
  | 32 => some ⟨4, 0x0000#14, do return .trap h (← oa)⟩
  | 33 => some ⟨0, 0x0000#14, some (.tret h)⟩
  | 34 => some ⟨4, 0x03F8#14, do return .swr h (← SysReg.ofCode (m.extractLsb' 3 7)) (← oa)⟩
  | 35 => some ⟨8, 0x000F#14, do return .time h (flag (m.extractLsb' 3 1)) (m.extractLsb' 0 3) (← od)⟩
  | 36 => some ⟨12, 0x0387#14, do return .fltrd h (m.extractLsb' 8 2) (flag (m.extractLsb' 7 1)) (m.extractLsb' 0 3) (← od) (← oa)⟩
  | 37 => some ⟨8, 0x000F#14, do return .qsc h (flag (m.extractLsb' 3 1)) (m.extractLsb' 0 3) (← od)⟩
  | 38 => some ⟨6, 0x0380#14, do return .tlbx h (← PgSize.ofCode (m.extractLsb' 8 2)) (flag (m.extractLsb' 7 1)) (← oa) (← ob)⟩
  | 39 => some ⟨0, 0x0000#14, some (.halt h)⟩
  | _ => none

/-- The row of an opcode (R121). -/
def rowOf (g : Base) (h : Head) (od oa ob oc : Option Opd) : Option Row :=
  match g.class_.toNat with
  | 0 => rowControl g h od oa ob oc
  | 1 => rowInteger g h od oa ob oc
  | 2 => rowPacked g h od oa ob oc
  | 3 => rowFloat g h od oa ob oc
  | 4 => rowConvert g h od oa ob oc
  | 5 => rowCrossLane g h od oa ob oc
  | 6 => rowMemory g h od oa ob oc
  | _ => rowEngine g h od oa ob oc

/-- Form T carries no operand codes in bits [45:22] (R109), and PLOP holds predicate numbers in its source fields
(R112): neither names a literal. -/
def Base.noLits (g : Base) : Bool :=
  g.op == 2#9 || g.op == 3#9 || g.op == 5#9 || g.op == 13#9 || g.op == 90#9

/-- A form with an await mask has no SRCC operand (R109, R110). -/
def Base.awaits (g : Base) : Bool := g.class_ == 0#3 && g.op != 14#9 && g.op != 15#9

/-- The opcode is assigned (R121, R122); the words after a reserved one are not looked at. -/
def Base.assigned (g : Base) : Bool :=
  (rowOf g ⟨.lane, 0, false, 7⟩ none none none none).isSome

/-- Decode (R125): the instruction at the head of a list of words and the number of words it takes. -/
def decodeWords (ws : List (BitVec 32)) : Except DecErr (Instr × Nat) :=
  match ws with
  | w0 :: w1 :: rest =>
    let g := Base.ofWord (w1 ++ w0)
    let ca := if g.noLits then 0#8 else g.a
    let cb := if g.noLits then 0#8 else g.b
    let cc := if g.noLits || g.awaits then 0#8 else g.c
    if !g.assigned then .error .reservedOpcode
    else match takeLit ca rest with
    | none => .error .short
    | some (la, r1) =>
      match takeLit cb r1 with
      | none => .error .short
      | some (lb, r2) =>
        match takeLit cc r2 with
        | none => .error .short
        | some (lc, r3) =>
          match Head.ofBase g with
          | none => .error .badValue
          | some h =>
            match rowOf g h (Opd.ofCode g.dst 0) (Opd.ofCode g.a la) (Opd.ofCode g.b lb) (Opd.ofCode g.c lc) with
            | none => .error .reservedOpcode
            | some row =>
              if g.unreadOk row.used row.mask then
                match row.instr with
                | none => .error .badValue
                | some i => if i.wf then .ok (i, 2 + (rest.length - r3.length)) else .error .notAccepted
              else .error .unreadField
  | _ => .error .short

/-! The encoder, from the same tables. -/

/-- A base word from its fields (R103). -/
def Base.toWord (g : Base) : BitVec 64 :=
  g.op ++ g.scope ++ g.stall ++ g.pneg ++ g.pred ++ g.dst ++ g.a ++ g.b ++ g.c ++ g.mod

/-- A base word's fields with every operand field holding 252 (R108). -/
def Head.base (h : Head) (op : BitVec 9) (mod : BitVec 14) : Base :=
  { op := op, scope := h.scope.code, stall := h.stall, pneg := BitVec.ofBool h.pneg, pred := h.pred,
    dst := 252#8, a := 252#8, b := 252#8, c := 252#8, mod := mod }

/-- The fields and literal operands of an encoded instruction; `none` for an event, which has no encoding. -/
def Instr.fields : Instr → Option (Base × List Opd)
  | .runend h aw => some ({ h.base 1#9 0#14 with c := aw }, [])
  | .exit h aw => some ({ h.base 7#9 0#14 with c := aw }, [])
  | .yield h aw => some ({ h.base 8#9 0#14 with c := aw }, [])
  | .bar h aw => some ({ h.base 9#9 0#14 with c := aw }, [])
  | .br h off aw => some ({ h.base 2#9 0#14 with dst := off.extractLsb' 16 8, a := off.extractLsb' 8 8, b := off.extractLsb' 0 8, c := aw }, [])
  | .brc h off aw cneg cpred => some ({ h.base 3#9 ((BitVec.ofBool cneg) ++ cpred ++ 0#10) with dst := off.extractLsb' 16 8, a := off.extractLsb' 8 8, b := off.extractLsb' 0 8, c := aw }, [])
  | .brx h a aw => some ({ h.base 4#9 0#14 with a := a.code, c := aw }, [a])
  | .call h off aw link => some ({ h.base 5#9 (0#4 ++ (BitVec.ofNat 8 link.val) ++ 0#2) with dst := off.extractLsb' 16 8, a := off.extractLsb' 8 8, b := off.extractLsb' 0 8, c := aw }, [])
  | .ret h a aw => some ({ h.base 6#9 0#14 with a := a.code, c := aw }, [a])
  | .waitc h ctr thresh aw => some ({ h.base 10#9 (ctr.code ++ thresh ++ 0#5) with c := aw }, [])
  | .waitm h rel dword ptr cmp aw => some ({ h.base 11#9 (rel.code ++ (BitVec.ofBool dword) ++ 0#10) with a := ptr.code, b := cmp.code, c := aw }, [ptr, cmp])
  | .regroup h a aw => some ({ h.base 12#9 0#14 with a := a.code, c := aw }, [a])
  | .chkpt h off aw => some ({ h.base 13#9 0#14 with dst := off.extractLsb' 16 8, a := off.extractLsb' 8 8, b := off.extractLsb' 0 8, c := aw }, [])
  | .setd h setno diss a => some ({ h.base 14#9 (setno ++ (BitVec.ofBool diss) ++ 0#11) with a := a.code }, [a])
  | .nop h => some (h.base 15#9 0#14, [])
  | .iadd h f sat o => some ({ h.base 64#9 (f.code ++ 0#3 ++ (BitVec.ofBool sat) ++ 0#6) with dst := o.d.code, a := o.a.code, b := o.b.code }, [o.a, o.b])
  | .isub h f sat o => some ({ h.base 65#9 (f.code ++ 0#3 ++ (BitVec.ofBool sat) ++ 0#6) with dst := o.d.code, a := o.a.code, b := o.b.code }, [o.a, o.b])
  | .iaddc h f cin pd o => some ({ h.base 66#9 (f.code ++ cin ++ 0#4 ++ pd) with dst := o.d.code, a := o.a.code, b := o.b.code }, [o.a, o.b])
  | .imul h f sat o => some ({ h.base 67#9 (f.code ++ 0#3 ++ (BitVec.ofBool sat) ++ 0#6) with dst := o.d.code, a := o.a.code, b := o.b.code }, [o.a, o.b])
  | .imulh h f o => some ({ h.base 68#9 (f.code ++ 0#10) with dst := o.d.code, a := o.a.code, b := o.b.code }, [o.a, o.b])
  | .imad h f sat o => some ({ h.base 69#9 (f.code ++ 0#3 ++ (BitVec.ofBool sat) ++ 0#6) with dst := o.d.code, a := o.a.code, b := o.b.code, c := o.c.code }, [o.a, o.b, o.c])
  | .imadw h f hi sat o => some ({ h.base 70#9 (f.code ++ 0#2 ++ (BitVec.ofBool hi) ++ (BitVec.ofBool sat) ++ 0#6) with dst := o.d.code, a := o.a.code, b := o.b.code, c := o.c.code }, [o.a, o.b, o.c])
  | .imin h f o => some ({ h.base 71#9 (f.code ++ 0#10) with dst := o.d.code, a := o.a.code, b := o.b.code }, [o.a, o.b])
  | .imax h f o => some ({ h.base 72#9 (f.code ++ 0#10) with dst := o.d.code, a := o.a.code, b := o.b.code }, [o.a, o.b])
  | .iabs h f sat o => some ({ h.base 73#9 (f.code ++ 0#3 ++ (BitVec.ofBool sat) ++ 0#6) with dst := o.d.code, a := o.a.code }, [o.a])
  | .ineg h f sat o => some ({ h.base 74#9 (f.code ++ 0#3 ++ (BitVec.ofBool sat) ++ 0#6) with dst := o.d.code, a := o.a.code }, [o.a])
  | .icmp h f rel pd a b => some ({ h.base 75#9 (f.code ++ rel.code ++ 0#4 ++ pd) with a := a.code, b := b.code }, [a, b])
  | .sel h p o => some ({ h.base 76#9 (15#4 ++ p ++ 0#7) with dst := o.d.code, a := o.a.code, b := o.b.code }, [o.a, o.b])
  | .mov h f o => some ({ h.base 77#9 ((optTagCode f) ++ 0#10) with dst := o.d.code, a := o.a.code }, [o.a])
  | .movk h o => some ({ h.base 78#9 (15#4 ++ 0#10) with dst := o.d.code, a := o.a.code, b := o.b.code }, [o.a, o.b])
  | .srd h r clr d => some ({ h.base 79#9 (0#2 ++ (BitVec.ofBool clr) ++ r.code ++ 0#3) with dst := d.code }, [])
  | .shl h f sat o => some ({ h.base 80#9 (f.code ++ 0#3 ++ (BitVec.ofBool sat) ++ 0#6) with dst := o.d.code, a := o.a.code, b := o.b.code }, [o.a, o.b])
  | .shr h f o => some ({ h.base 81#9 (f.code ++ 0#10) with dst := o.d.code, a := o.a.code, b := o.b.code }, [o.a, o.b])
  | .sar h f o => some ({ h.base 82#9 (f.code ++ 0#10) with dst := o.d.code, a := o.a.code, b := o.b.code }, [o.a, o.b])
  | .rol h f o => some ({ h.base 83#9 (f.code ++ 0#10) with dst := o.d.code, a := o.a.code, b := o.b.code }, [o.a, o.b])
  | .popc h f o => some ({ h.base 84#9 (f.code ++ 0#10) with dst := o.d.code, a := o.a.code }, [o.a])
  | .clz h f o => some ({ h.base 85#9 (f.code ++ 0#10) with dst := o.d.code, a := o.a.code }, [o.a])
  | .ctz h f o => some ({ h.base 86#9 (f.code ++ 0#10) with dst := o.d.code, a := o.a.code }, [o.a])
  | .brev h f o => some ({ h.base 87#9 (f.code ++ 0#10) with dst := o.d.code, a := o.a.code }, [o.a])
  | .bfx h f o => some ({ h.base 88#9 (f.code ++ 0#10) with dst := o.d.code, a := o.a.code, b := o.b.code }, [o.a, o.b])
  | .bfi h f o => some ({ h.base 89#9 (f.code ++ 0#10) with dst := o.d.code, a := o.a.code, b := o.b.code, c := o.c.code }, [o.a, o.b, o.c])
  | .plop h lut pd a b c => some ({ h.base 90#9 (lut ++ 0#3 ++ pd) with a := a.setWidth 8, b := b.setWidth 8, c := c.setWidth 8 }, [])
  | .and h o => some ({ h.base 128#9 (15#4 ++ 0#10) with dst := o.d.code, a := o.a.code, b := o.b.code }, [o.a, o.b])
  | .or h o => some ({ h.base 129#9 (15#4 ++ 0#10) with dst := o.d.code, a := o.a.code, b := o.b.code }, [o.a, o.b])
  | .xor h o => some ({ h.base 130#9 (15#4 ++ 0#10) with dst := o.d.code, a := o.a.code, b := o.b.code }, [o.a, o.b])
  | .andn h o => some ({ h.base 131#9 (15#4 ++ 0#10) with dst := o.d.code, a := o.a.code, b := o.b.code }, [o.a, o.b])
  | .prmb h o => some ({ h.base 132#9 (15#4 ++ 0#10) with dst := o.d.code, a := o.a.code, b := o.b.code, c := o.c.code }, [o.a, o.b, o.c])
  | .iaddPacked h f sat o => some ({ h.base 136#9 (f.code ++ 0#3 ++ (BitVec.ofBool sat) ++ 0#6) with dst := o.d.code, a := o.a.code, b := o.b.code }, [o.a, o.b])
  | .isubPacked h f sat o => some ({ h.base 137#9 (f.code ++ 0#3 ++ (BitVec.ofBool sat) ++ 0#6) with dst := o.d.code, a := o.a.code, b := o.b.code }, [o.a, o.b])
  | .iminPacked h f o => some ({ h.base 138#9 (f.code ++ 0#10) with dst := o.d.code, a := o.a.code, b := o.b.code }, [o.a, o.b])
  | .imaxPacked h f o => some ({ h.base 139#9 (f.code ++ 0#10) with dst := o.d.code, a := o.a.code, b := o.b.code }, [o.a, o.b])
  | .imac2 h o => some ({ h.base 140#9 (6#4 ++ 0#10) with dst := o.d.code, a := o.a.code, b := o.b.code, c := o.c.code }, [o.a, o.b, o.c])
  | .idot4 h f sat o => some ({ h.base 141#9 (f.code ++ 0#3 ++ (BitVec.ofBool sat) ++ 0#6) with dst := o.d.code, a := o.a.code, b := o.b.code, c := o.c.code }, [o.a, o.b, o.c])
  | .shrr h f o => some ({ h.base 142#9 (f.code ++ 0#10) with dst := o.d.code, a := o.a.code, b := o.b.code, c := o.c.code }, [o.a, o.b, o.c])
  | .isat h f o => some ({ h.base 143#9 (f.code ++ 0#10) with dst := o.d.code, a := o.a.code, b := o.b.code }, [o.a, o.b])
  | .fadd h f rm o => some ({ h.base 192#9 (f.code ++ rm.code ++ 0#7) with dst := o.d.code, a := o.a.code, b := o.b.code }, [o.a, o.b])
  | .fsub h f rm o => some ({ h.base 193#9 (f.code ++ rm.code ++ 0#7) with dst := o.d.code, a := o.a.code, b := o.b.code }, [o.a, o.b])
  | .fmul h f rm o => some ({ h.base 194#9 (f.code ++ rm.code ++ 0#7) with dst := o.d.code, a := o.a.code, b := o.b.code }, [o.a, o.b])
  | .ffma h f rm o => some ({ h.base 195#9 (f.code ++ rm.code ++ 0#7) with dst := o.d.code, a := o.a.code, b := o.b.code, c := o.c.code }, [o.a, o.b, o.c])
  | .fmin h f o => some ({ h.base 196#9 (f.code ++ 0#10) with dst := o.d.code, a := o.a.code, b := o.b.code }, [o.a, o.b])
  | .fmax h f o => some ({ h.base 197#9 (f.code ++ 0#10) with dst := o.d.code, a := o.a.code, b := o.b.code }, [o.a, o.b])
  | .fabs h f o => some ({ h.base 198#9 (f.code ++ 0#10) with dst := o.d.code, a := o.a.code }, [o.a])
  | .fneg h f o => some ({ h.base 199#9 (f.code ++ 0#10) with dst := o.d.code, a := o.a.code }, [o.a])
  | .fcmp h f rel pd a b => some ({ h.base 200#9 (f.code ++ 0#3 ++ rel.code ++ 0#1 ++ pd) with a := a.code, b := b.code }, [a, b])
  | .fclass h f sl o => some ({ h.base 201#9 (f.code ++ 0#3 ++ sl.code ++ 0#4) with dst := o.d.code, a := o.a.code }, [o.a])
  | .frnd h f rm o => some ({ h.base 202#9 (f.code ++ rm.code ++ 0#7) with dst := o.d.code, a := o.a.code }, [o.a])
  | .fdot2 h rm o => some ({ h.base 203#9 (1#4 ++ rm.code ++ 0#7) with dst := o.d.code, a := o.a.code, b := o.b.code, c := o.c.code }, [o.a, o.b, o.c])
  | .frcp h f rm tg o => some ({ h.base 208#9 (f.code ++ rm.code ++ 0#4 ++ tg) with dst := o.d.code, a := o.a.code }, [o.a])
  | .frsq h f rm tg o => some ({ h.base 209#9 (f.code ++ rm.code ++ 0#4 ++ tg) with dst := o.d.code, a := o.a.code }, [o.a])
  | .fsqrt h f rm tg o => some ({ h.base 210#9 (f.code ++ rm.code ++ 0#4 ++ tg) with dst := o.d.code, a := o.a.code }, [o.a])
  | .fexp2 h f rm tg o => some ({ h.base 211#9 (f.code ++ rm.code ++ 0#4 ++ tg) with dst := o.d.code, a := o.a.code }, [o.a])
  | .flog2 h f rm tg o => some ({ h.base 212#9 (f.code ++ rm.code ++ 0#4 ++ tg) with dst := o.d.code, a := o.a.code }, [o.a])
  | .fsin h f rm tg o => some ({ h.base 213#9 (f.code ++ rm.code ++ 0#4 ++ tg) with dst := o.d.code, a := o.a.code }, [o.a])
  | .fcos h f rm tg o => some ({ h.base 214#9 (f.code ++ rm.code ++ 0#4 ++ tg) with dst := o.d.code, a := o.a.code }, [o.a])
  | .ftanh h f rm tg o => some ({ h.base 215#9 (f.code ++ rm.code ++ 0#4 ++ tg) with dst := o.d.code, a := o.a.code }, [o.a])
  | .cvt h sf df rm sat part d a c => some ({ h.base 256#9 (sf.code ++ df.code ++ rm.code ++ (BitVec.ofBool sat) ++ part) with dst := d.code, a := a.code, c := c.code }, [a, c])
  | .cvtf8 h sf df rm sat part d a c => some ({ h.base 257#9 (sf.code ++ df.code ++ rm.code ++ (BitVec.ofBool sat) ++ part) with dst := d.code, a := a.code, c := c.code }, [a, c])
  | .pack6 h sf df rm part d a c => some ({ h.base 258#9 (sf.code ++ df.code ++ rm.code ++ 0#1 ++ part) with dst := d.code, a := a.code, c := c.code }, [a, c])
  | .pack4 h sf rm part o => some ({ h.base 259#9 (sf.code ++ 15#4 ++ rm.code ++ 0#1 ++ part) with dst := o.d.code, a := o.a.code, b := o.b.code, c := o.c.code }, [o.a, o.b, o.c])
  | .unpk h sf df rm part o => some ({ h.base 260#9 (sf.code ++ df.code ++ rm.code ++ 0#1 ++ part) with dst := o.d.code, a := o.a.code, b := o.b.code }, [o.a, o.b])
  | .sclc h sf ty o => some ({ h.base 261#9 (sf.code ++ 15#4 ++ 0#4 ++ ty) with dst := o.d.code, a := o.a.code }, [o.a])
  | .amax h sf span o => some ({ h.base 262#9 (sf.code ++ sf.code ++ 0#4 ++ span.code) with dst := o.d.code, a := o.a.code }, [o.a])
  | .shuf h f w var pd o => some ({ h.base 320#9 ((optTagCode f) ++ w.code ++ var.code ++ 0#1 ++ pd) with dst := o.d.code, a := o.a.code, b := o.b.code }, [o.a, o.b])
  | .slide h f w o => some ({ h.base 321#9 ((optTagCode f) ++ w.code ++ 0#7) with dst := o.d.code, a := o.a.code, b := o.b.code, c := o.c.code }, [o.a, o.b, o.c])
  | .bcast h f w o => some ({ h.base 322#9 ((optTagCode f) ++ w.code ++ 0#7) with dst := o.d.code, a := o.a.code, b := o.b.code }, [o.a, o.b])
  | .perm h f w o => some ({ h.base 323#9 ((optTagCode f) ++ w.code ++ 0#7) with dst := o.d.code, a := o.a.code, b := o.b.code, c := o.c.code }, [o.a, o.b, o.c])
  | .vote h w var pd o => some ({ h.base 324#9 (15#4 ++ w.code ++ var.code ++ 0#1 ++ pd) with dst := o.d.code, a := o.a.code }, [o.a])
  | .match_ h f w vl pd o => some ({ h.base 325#9 ((optTagCode f) ++ w.code ++ 0#2 ++ (BitVec.ofBool vl) ++ 0#1 ++ pd) with dst := o.d.code, a := o.a.code }, [o.a])
  | .eqmask h f w s1 pd o => some ({ h.base 326#9 (f.code ++ w.code ++ 0#2 ++ (BitVec.ofBool s1) ++ 0#1 ++ pd) with dst := o.d.code, a := o.a.code, b := o.b.code }, [o.a, o.b])
  | .rank h f w s1 pd o => some ({ h.base 327#9 (f.code ++ w.code ++ 0#2 ++ (BitVec.ofBool s1) ++ 0#1 ++ pd) with dst := o.d.code, a := o.a.code, b := o.b.code }, [o.a, o.b])
  | .redux h f w op pt o => some ({ h.base 328#9 ((optTagCode f) ++ w.code ++ op.code ++ 0#1 ++ pt) with dst := o.d.code, a := o.a.code }, [o.a])
  | .scan h f w op excl pt o => some ({ h.base 329#9 ((optTagCode f) ++ w.code ++ op.code ++ (BitVec.ofBool excl) ++ pt) with dst := o.d.code, a := o.a.code }, [o.a])
  | .ld h f n tg d ptr off => some ({ h.base 384#9 (f.code ++ n.code ++ 0#5 ++ tg) with dst := d.code, a := ptr.code, b := off.code }, [ptr, off])
  | .st h f n ptr off data => some ({ h.base 385#9 (f.code ++ n.code ++ 0#8) with a := ptr.code, b := off.code, c := data.code }, [ptr, off, data])
  | .atom h f op tg d ptr off c => some ({ h.base 386#9 (f.code ++ 0#2 ++ op.code ++ 0#1 ++ tg) with dst := d.code, a := ptr.code, b := off.code, c := c.code }, [ptr, off, c])
  | .cas h f pr tg d ptr off e => some ({ h.base 387#9 (f.code ++ 0#1 ++ (BitVec.ofBool pr) ++ 0#5 ++ tg) with dst := d.code, a := ptr.code, b := off.code, c := e.code }, [ptr, off, e])
  | .pmake h pv o => some ({ h.base 392#9 (0#10 ++ (BitVec.ofBool pv) ++ 0#3) with dst := o.d.code, a := o.a.code, b := o.b.code }, [o.a, o.b])
  | .psub h o => some ({ h.base 393#9 0#14 with dst := o.d.code, a := o.a.code, b := o.b.code }, [o.a, o.b])
  | .pget h fld o => some ({ h.base 394#9 (fld.code ++ 0#10) with dst := o.d.code, a := o.a.code }, [o.a])
  | .pchk h stf o => some ({ h.base 395#9 (0#10 ++ (BitVec.ofBool stf) ++ 0#3) with dst := o.d.code, a := o.a.code, b := o.b.code, c := o.c.code }, [o.a, o.b, o.c])
  | .pwiden h ns nc o => some ({ h.base 396#9 (0#4 ++ ns ++ nc ++ 0#5) with dst := o.d.code, a := o.a.code }, [o.a])
  | .pnarrow h ns nc o => some ({ h.base 397#9 (0#4 ++ ns ++ nc ++ 0#5) with dst := o.d.code, a := o.a.code }, [o.a])
  | .subscr h a b c => some ({ h.base 400#9 0#14 with a := a.code, b := b.code, c := c.code }, [a, b, c])
  | .upgr h a b c => some ({ h.base 401#9 0#14 with a := a.code, b := b.code, c := c.code }, [a, b, c])
  | .tagq h o => some ({ h.base 402#9 0#14 with dst := o.d.code, a := o.a.code }, [o.a])
  | .tclaim h kind d count => some ({ h.base 448#9 (0#4 ++ kind.code ++ 0#8) with dst := d.code, a := count.code }, [count])
  | .trel h slot => some ({ h.base 449#9 0#14 with a := slot.code }, [slot])
  | .tld h f hr ptr off slot => some ({ h.base 450#9 (f.code ++ (BitVec.ofNat 4 hr.val) ++ 0#6) with a := ptr.code, b := off.code, c := slot.code }, [ptr, off, slot])
  | .tst h hr ptr off slot => some ({ h.base 451#9 (0#4 ++ (BitVec.ofNat 4 hr.val) ++ 0#6) with a := ptr.code, b := off.code, c := slot.code }, [ptr, off, slot])
  | .tzero h slot => some ({ h.base 452#9 0#14 with a := slot.code }, [slot])
  | .mmq h f ty tx bh a b c => some ({ h.base 453#9 (f.code ++ ty ++ tx ++ (BitVec.ofBool bh) ++ 0#5) with a := a.code, b := b.code, c := c.code }, [a, b, c])
  | .mms h f ty tx bh a b c => some ({ h.base 454#9 (f.code ++ ty ++ tx ++ (BitVec.ofBool bh) ++ 0#5) with a := a.code, b := b.code, c := c.code }, [a, b, c])
  | .tdrain h f hr ptr off slot => some ({ h.base 455#9 (f.code ++ (BitVec.ofNat 4 hr.val) ++ 0#6) with a := ptr.code, b := off.code, c := slot.code }, [ptr, off, slot])
  | .twin h hr slot => some ({ h.base 456#9 (0#4 ++ (BitVec.ofNat 4 hr.val) ++ 0#6) with a := slot.code }, [slot])
  | .tflag h d slot => some ({ h.base 457#9 0#14 with dst := d.code, a := slot.code }, [slot])
  | .hld h hr handle => some ({ h.base 458#9 (0#4 ++ (BitVec.ofNat 4 hr.val) ++ 0#6) with a := handle.code }, [handle])
  | .hset h hr fld value => some ({ h.base 459#9 (0#4 ++ (BitVec.ofNat 4 hr.val) ++ 0#6) with a := fld.code, b := value.code }, [fld, value])
  | .hget h hr tg d fld => some ({ h.base 460#9 (0#4 ++ (BitVec.ofNat 4 hr.val) ++ 0#3 ++ tg) with dst := d.code, a := fld.code }, [fld])
  | .copy h d ptr off ws => some ({ h.base 464#9 0#14 with dst := d.code, a := ptr.code, b := off.code, c := ws.code }, [ptr, off, ws])
  | .copyx h d ptr off ws => some ({ h.base 466#9 0#14 with dst := d.code, a := ptr.code, b := off.code, c := ws.code }, [ptr, off, ws])
  | .copyw h tg d seq => some ({ h.base 465#9 (0#11 ++ tg) with dst := d.code, a := seq.code }, [seq])
  | .bin h op ptr key item => some ({ h.base 468#9 (0#4 ++ op.code ++ 0#8) with a := ptr.code, b := key.code, c := item.code }, [ptr, key, item])
  | .binrd h sl tg d ptr idx => some ({ h.base 469#9 (0#4 ++ sl.code ++ 0#5 ++ tg) with dst := d.code, a := ptr.code, b := idx.code }, [ptr, idx])
  | .sendl h ptr src ws => some ({ h.base 470#9 0#14 with a := ptr.code, b := src.code, c := ws.code }, [ptr, src, ws])
  | .launch h q hd => some ({ h.base 471#9 0#14 with a := q.code, b := hd.code }, [q, hd])
  | .release h handle => some ({ h.base 472#9 0#14 with a := handle.code }, [handle])
  | .trap h cd => some ({ h.base 480#9 0#14 with a := cd.code }, [cd])
  | .tret h => some (h.base 481#9 0#14, [])
  | .swr h r value => some ({ h.base 482#9 (0#4 ++ r.code ++ 0#3) with a := value.code }, [value])
  | .time h pkg tg d => some ({ h.base 483#9 (0#10 ++ (BitVec.ofBool pkg) ++ tg) with dst := d.code }, [])
  | .fltrd h wrd cons tg d idx => some ({ h.base 484#9 (0#4 ++ wrd ++ (BitVec.ofBool cons) ++ 0#4 ++ tg) with dst := d.code, a := idx.code }, [idx])
  | .qsc h done tg d => some ({ h.base 485#9 (0#10 ++ (BitVec.ofBool done) ++ tg) with dst := d.code }, [])
  | .tlbx h size all va count => some ({ h.base 486#9 (0#4 ++ size.code ++ (BitVec.ofBool all) ++ 0#7) with a := va.code, b := count.code }, [va, count])
  | .halt h => some (h.base 487#9 0#14, [])
  | _ => none

/-- The words of an instruction (R103, R104, R106): empty for an event. -/
def Instr.encode (i : Instr) : List (BitVec 32) :=
  match i.fields with
  | some (g, lits) =>
    g.toWord.extractLsb' 0 32 :: g.toWord.extractLsb' 32 32 :: lits.flatMap Opd.words
  | none => []

/-- The length of an instruction in words (R104). -/
def Instr.length (i : Instr) : Nat := i.encode.length

/-- The words of a byte list, little-endian (R104). -/
def wordsOfBytes : List Byte → List (BitVec 32)
  | b0 :: b1 :: b2 :: b3 :: r => (b3 ++ b2 ++ b1 ++ b0) :: wordsOfBytes r
  | _ => []

/-- The bytes of words, little-endian (R104). -/
def bytesOfWords (ws : List (BitVec 32)) : List Byte :=
  ws.flatMap fun w => [w.extractLsb' 0 8, w.extractLsb' 8 8, w.extractLsb' 16 8, w.extractLsb' 24 8]

/-- The words of the instruction at the head of a list by the literals its fields name, the first two counted (R104, R106):
what an instruction that decode refuses takes. -/
def refusedLength (ws : List (BitVec 32)) : Nat :=
  match ws with
  | w0 :: w1 :: _ =>
    let g := Base.ofWord (w1 ++ w0)
    let n (c : BitVec 8) : Nat := if c == 250#8 then 1 else if c == 251#8 then 2 else 0
    if g.noLits then 2 else 2 + min 4 (n g.a + n g.b + (if g.awaits then 0 else n g.c))
  | _ => 2

/-- Decode at the head of a byte list. -/
def decodeBytes (bs : List Byte) : Except DecErr (Instr × Nat) := decodeWords (wordsOfBytes bs)

/-- The words of an instruction given as one number: bit 0 is bit 0 of word 0; six words, the longest instruction (R104). -/
def tableWords (nbits w : Nat) : List (BitVec 32) :=
  let v := w % 2 ^ nbits
  [0, 1, 2, 3, 4, 5].map fun k => BitVec.ofNat 32 (v >>> (32 * k))

/-- What the decoder reads from an instruction given as one number. -/
def decodeTableWord (nbits w : Nat) : Option Instr :=
  match decodeBytes (bytesOfWords (tableWords nbits w)) with
  | .ok (i, _) => some i
  | .error _ => none

end Sys2Proof
end

