-- ==== Sys2Proof/Machine/Bits.lean ====
section
/-! DEFINITION. Bytes, bit fields, elements of a register, and integer narrowing (R11, R13, R56, R57). -/

namespace Sys2Proof.Machine

/-- Bits [hi:lo] of a number. -/
def bits (x hi lo : Nat) : Nat := x / 2 ^ lo % 2 ^ (hi + 1 - lo)

/-- Bit i of a number. -/
def bit (x i : Nat) : Bool := x.testBit i

/-- The bytes of a number, lowest first (R56). -/
def toBytes : Nat → Nat → List Byte
  | 0, _ => []
  | n + 1, x => BitVec.ofNat 8 x :: toBytes n (x / 256)

/-- The number whose bytes these are, lowest first. -/
def ofBytes : List Byte → Nat
  | [] => 0
  | b :: bs => b.toNat + 256 * ofBytes bs

/-- Element s of width w of a register (R13). -/
def elem (w : Nat) (x : Word) (s : Nat) : Nat := x.toNat / 2 ^ (w * s) % 2 ^ w

/-- A register from its elements of width w, element 0 lowest. -/
def packNat (w : Nat) : List Nat → Nat
  | [] => 0
  | e :: es => e % 2 ^ w + 2 ^ w * packNat w es

def packElems (w : Nat) (es : List Nat) : Word := BitVec.ofNat 64 (packNat w es)

/-- A w-bit pattern read as a signed integer. -/
def signed (w x : Nat) : Int := if 2 * (x % 2 ^ w) < 2 ^ w then (x % 2 ^ w : Nat) else (x % 2 ^ w : Nat) - (2 ^ w : Nat)

/-- The w-bit pattern of an integer, wrapping. -/
def wrap (w : Nat) (i : Int) : Nat := (i % (2 ^ w : Nat)).toNat

/-- The formats with signed elements (R57). -/
def tagSigned : Tag → Bool
  | .i8 | .i16 | .i32 | .i64 => true
  | _ => false

/-- An element read as the integer its format names (R153). -/
def num (t : Tag) (x : Nat) : Int := if tagSigned t then signed t.width x else (x % 2 ^ t.width : Nat)

/-- The least and greatest integers of a width (R57). -/
def intMin (sg : Bool) (w : Nat) : Int := if sg then -(2 ^ (w - 1) : Nat) else 0
def intMax (sg : Bool) (w : Nat) : Int := if sg then (2 ^ (w - 1) : Nat) - 1 else (2 ^ w : Nat) - 1

/-- Clamp to a range (R11's sat). -/
def clamp (lo hi i : Int) : Int := if i < lo then lo else if hi < i then hi else i

def satInt (sg : Bool) (w : Nat) (i : Int) : Int := clamp (intMin sg w) (intMax sg w) i

/-- Round up to a multiple. -/
def roundUp (x m : Nat) : Nat := (x + m - 1) / m * m

/-- The number of one bits of the low w bits. -/
def popcount : Nat → Nat → Nat
  | 0, _ => 0
  | w + 1, x => x % 2 + popcount w (x / 2)

/-- Leading zeros of a w-bit pattern. -/
def clz (w x : Nat) : Nat := if x = 0 then w else w - 1 - Nat.log2 x

/-- Trailing zeros of a w-bit pattern. -/
def ctz : Nat → Nat → Nat
  | 0, _ => 0
  | w + 1, x => if x % 2 = 1 then 0 else 1 + ctz w (x / 2)

/-- Bit reversal of w bits. -/
def brev : Nat → Nat → Nat
  | 0, _ => 0
  | w + 1, x => (x % 2) * 2 ^ w + brev w (x / 2)

/-- Every element of a list of bools as a number, bit 0 first. -/
def maskOf : List Bool → Nat
  | [] => 0
  | b :: bs => (if b then 1 else 0) + 2 * maskOf bs

end Sys2Proof.Machine
end

