-- ==== Sys2Proof/Machine/Num.lean ====
section
/-! DEFINITION. Float formats, exact values and the one rounding every path applies (R58 to R73), and the functions the
special-function unit computes (R182). -/

namespace Sys2Proof.Machine

/-- How a format treats its all-ones exponent field (R59). -/
inductive TopExp where
  | ieee | e4m3 | finite
deriving DecidableEq, Repr

/-- A float format (R58): exponent bits, fraction bits, bias. -/
structure FF where
  ew : Nat
  fw : Nat
  bias : Nat
  top : TopExp
deriving DecidableEq, Repr

def FF.fp32 : FF := ⟨8, 23, 127, .ieee⟩
def FF.bf16 : FF := ⟨8, 7, 127, .ieee⟩
def FF.fp16 : FF := ⟨5, 10, 15, .ieee⟩
def FF.e4m3 : FF := ⟨4, 3, 7, .e4m3⟩
def FF.e5m2 : FF := ⟨5, 2, 15, .ieee⟩
def FF.e3m2 : FF := ⟨3, 2, 3, .finite⟩
def FF.e2m3 : FF := ⟨2, 3, 1, .finite⟩
def FF.e2m1 : FF := ⟨2, 1, 1, .finite⟩
def FF.fp36 : FF := ⟨9, 26, 255, .ieee⟩

/-- The float format of a tag, FP32 where the tag is no float. -/
def FF.ofTag : Tag → FF
  | .bf16 => .bf16
  | .fp16 => .fp16
  | .e4m3 => .e4m3
  | .e5m2 => .e5m2
  | _ => .fp32

def FF.width (f : FF) : Nat := 1 + f.ew + f.fw

/-- An exact value: NaN, an infinity, or ±m·2^e (a signed zero when m = 0). -/
inductive Val where
  | nan
  | inf (neg : Bool)
  | fin (neg : Bool) (m : Nat) (e : Int)
deriving DecidableEq, Repr

/-- The exponent of the least subnormal's unit: 1 − bias − fw. -/
def FF.emin (f : FF) : Int := 1 - (f.bias : Int) - (f.fw : Int)

/-- The value an encoding denotes (R58, R59). -/
def FF.value (f : FF) (x : Nat) : Val :=
  let frac := x % 2 ^ f.fw
  let ex := x / 2 ^ f.fw % 2 ^ f.ew
  let neg := x.testBit (f.ew + f.fw)
  if ex = 0 then .fin neg frac f.emin
  else if ex = 2 ^ f.ew - 1 && f.top == .ieee then (if frac = 0 then .inf neg else .nan)
  else if ex = 2 ^ f.ew - 1 && f.top == .e4m3 && frac = 2 ^ f.fw - 1 then .nan
  else .fin neg (2 ^ f.fw + frac) (f.emin + (ex : Int) - 1)

def FF.signBit (f : FF) (neg : Bool) : Nat := if neg then 2 ^ (f.ew + f.fw) else 0

/-- The magnitude bits of the largest finite value (R58). -/
def FF.maxBits (f : FF) : Nat :=
  match f.top with
  | .ieee => (2 ^ f.ew - 1) * 2 ^ f.fw - 1
  | .e4m3 => 2 ^ (f.ew + f.fw) - 2
  | .finite => 2 ^ (f.ew + f.fw) - 1

/-- The canonical NaN (R60). -/
def FF.nanBits (f : FF) : Nat :=
  match f.top with
  | .ieee => (2 ^ f.ew - 1) * 2 ^ f.fw + 2 ^ (f.fw - 1)
  | .e4m3 => 2 ^ (f.ew + f.fw) - 1
  | .finite => 0

def FF.infBits (f : FF) (neg : Bool) : Nat := f.signBit neg + (2 ^ f.ew - 1) * 2 ^ f.fw

/-- A rounded magnitude: the magnitude bits on the grid unbounded above, and whether it is inexact. For a result in
range these are the encoding's bits. -/
structure Rounded where
  mag : Nat
  inexact : Bool
deriving DecidableEq, Repr

/-- Does a magnitude k·(unit), with remainder r of d below it, step away from zero (R65 to R67)? -/
def stepsAway (rm : RM) (neg : Bool) (k r d draw : Nat) : Bool :=
  match rm with
  | .rne => d < 2 * r || (2 * r == d && k % 2 == 1)
  | .rtz => false
  | .rup => !neg && r != 0
  | .rdn => neg && r != 0
  | .sr => 2 ^ 16 ≤ r * 2 ^ 16 / d + draw

/-- Round a nonzero magnitude m·2^e to the grid of f with exponent unbounded above (R66, R67, R70). -/
def FF.roundMag (f : FF) (rm : RM) (neg : Bool) (m : Nat) (e : Int) (draw : Nat) : Rounded :=
  let top : Int := (Nat.log2 m : Int) + e
  let q : Int := max (top - f.fw) f.emin
  let base := (q - f.emin).toNat * 2 ^ f.fw
  if q ≤ e then
    let k := m * 2 ^ (e - q).toNat
    ⟨base + k + (if stepsAway rm neg k 0 1 draw then 1 else 0), false⟩
  else
    let d := 2 ^ (q - e).toNat
    let k := m / d
    let r := m % d
    ⟨base + k + (if stepsAway rm neg k r d draw then 1 else 0), r != 0⟩

/-- The sticky flags (R43). -/
abbrev Flags := BitVec 6
def Flags.sat : Flags := 1
def Flags.ovf : Flags := 2
def Flags.unf : Flags := 4
def Flags.inx : Flags := 8
def Flags.nv : Flags := 16
def Flags.dz : Flags := 32

/-- A delivered element: its bits and the flags it sets. -/
abbrev Deliv := Nat × Flags

/-- The overflow result of a finite value in a format with infinities (R66). -/
def FF.ovfBits (f : FF) (rm : RM) (neg : Bool) : Nat :=
  match rm with
  | .rne | .sr => f.infBits neg
  | .rtz => f.signBit neg + f.maxBits
  | .rup => if neg then f.signBit neg + f.maxBits else f.infBits neg
  | .rdn => if neg then f.infBits neg else f.signBit neg + f.maxBits

/-- Deliver a value to a format under a mode, saturating or not (R66, R69, R70, R463); subnormals kept. -/
def FF.deliver (f : FF) (rm : RM) (saturate : Bool) (draw : Nat) : Val → Deliv
  | .nan => (f.nanBits, if f.top == .finite then Flags.nv else 0)
  | .inf neg =>
    match f.top, saturate with
    | .ieee, false => (f.infBits neg, 0)
    | .e4m3, false => (f.nanBits, Flags.nv)
    | _, _ => (f.signBit neg + f.maxBits, Flags.ovf)
  | .fin neg m e =>
    if m = 0 then (f.signBit neg, 0)
    else
      let r := f.roundMag rm neg m e draw
      if f.maxBits < r.mag then
        (match f.top, saturate with
          | .ieee, false => f.ovfBits rm neg
          | .e4m3, false => f.nanBits
          | _, _ => f.signBit neg + f.maxBits, Flags.ovf ||| Flags.inx)
      else (f.signBit neg + r.mag, if r.inexact then Flags.inx else 0)

/-- R11's round_to: non-saturating, the named mode. -/
def FF.roundTo (f : FF) (rm : RM) (v : Val) : Nat := (f.deliver rm false 0 v).1

/-- Delivery of class 011 (R174): a BF16 subnormal result is flushed, setting UNF and INX. -/
def outFloat (t : Tag) (rm : RM) (v : Val) : Deliv :=
  let f := FF.ofTag t
  let (x, fl) := f.deliver rm false 0 v
  if t == .bf16 && x % 2 ^ 15 != 0 && x % 2 ^ 15 < 2 ^ 7 then (x / 2 ^ 15 * 2 ^ 15, fl ||| Flags.unf ||| Flags.inx)
  else (x, fl)

/-- Reading of class 011 (R174): a BF16 subnormal is the zero of its sign. -/
def inFloat (t : Tag) (x : Nat) : Val :=
  match t, (FF.ofTag t).value x with
  | .bf16, .fin neg m e => if m < 2 ^ 7 then .fin neg 0 e else .fin neg m e
  | _, v => v

def Val.isNan : Val → Bool
  | .nan => true
  | _ => false

def Val.isZero : Val → Bool
  | .fin _ m _ => m == 0
  | _ => false

def Val.neg? : Val → Bool
  | .nan => false
  | .inf n => n
  | .fin n _ _ => n

def Val.negate : Val → Val
  | .nan => .nan
  | .inf n => .inf !n
  | .fin n m e => .fin (!n) m e

/-- ±m·2^e as an integer at the scale 2^q, q ≤ e. -/
def scaleInt (neg : Bool) (m : Nat) (e q : Int) : Int :=
  let k : Int := (m * 2 ^ (e - q).toNat : Nat)
  if neg then -k else k

/-- Exact sum (R174, R175); an exact zero takes its sign from the mode. ∞ − ∞ is NaN. -/
def Val.add (rm : RM) : Val → Val → Val
  | .nan, _ => .nan
  | _, .nan => .nan
  | .inf a, .inf b => if a == b then .inf a else .nan
  | .inf a, .fin .. => .inf a
  | .fin .., .inf b => .inf b
  | .fin na ma ea, .fin nb mb eb =>
    let q := min ea eb
    let t := scaleInt na ma ea q + scaleInt nb mb eb q
    if t = 0 then .fin (if ma = 0 && mb = 0 && na == nb then na else rm == .rdn) 0 q
    else .fin (t < 0) t.natAbs q

/-- Exact product; 0 × ∞ is NaN. -/
def Val.mul : Val → Val → Val
  | .nan, _ => .nan
  | _, .nan => .nan
  | .inf a, .inf b => .inf (a != b)
  | .inf a, .fin b m _ => if m = 0 then .nan else .inf (a != b)
  | .fin a m _, .inf b => if m = 0 then .nan else .inf (a != b)
  | .fin a m e, .fin b n g => .fin (a != b) (m * n) (e + g)

/-- Order of two values, none when either is NaN; zeros are equal. -/
def Val.cmp : Val → Val → Option Ordering
  | .nan, _ => none
  | _, .nan => none
  | .inf a, .inf b => some (if a == b then .eq else if a then .lt else .gt)
  | .inf a, .fin .. => some (if a then .lt else .gt)
  | .fin .., .inf b => some (if b then .gt else .lt)
  | .fin na ma ea, .fin nb mb eb =>
    let q := min ea eb
    some (compare (scaleInt na ma ea q) (scaleInt nb mb eb q))

/-- An elementwise operation's value and flags: NV when it makes a NaN of non-NaN sources (R73). -/
def invalidFlag (srcs : List Val) (v : Val) : Flags :=
  if v.isNan && !srcs.any Val.isNan then Flags.nv else 0

/-- Round an exact value to an integer in a direction (R71, R180): the integer's magnitude and whether inexact. -/
def roundInt (rm : RM) (neg : Bool) (m : Nat) (e : Int) (draw : Nat) : Nat × Bool :=
  if 0 ≤ e then (m * 2 ^ e.toNat, false)
  else
    let d := 2 ^ (-e).toNat
    let k := m / d
    let r := m % d
    (k + (if stepsAway rm neg k r d draw then 1 else 0), r != 0)

/-- An integer as a value. -/
def Val.ofInt (i : Int) : Val := .fin (i < 0) i.natAbs 0

/-- Float to integer (R71): always saturating. Whether the value is in range is judged after rounding (DESIGN CHOICE, log 103). -/
def toIntDeliv (sg : Bool) (w : Nat) (rm : RM) (draw : Nat) : Val → Deliv
  | .nan => (0, Flags.nv)
  | .inf neg => (wrap w (if neg then intMin sg w else intMax sg w), Flags.sat)
  | .fin neg m e =>
    let (k, ix) := roundInt rm neg m e draw
    let i : Int := if neg then -(k : Int) else k
    if satInt sg w i != i then (wrap w (satInt sg w i), Flags.sat ||| Flags.inx)
    else (wrap w i, if ix then Flags.inx else 0)

/-- Integer square root, one bit at a time. -/
def isqrtAux (n : Nat) : Nat → Nat → Nat
  | 0, r => r
  | i + 1, r => let t := r + 2 ^ i; isqrtAux n i (if t * t ≤ n then t else r)

def isqrt (n : Nat) : Nat := isqrtAux n (Nat.log2 n / 2 + 1) 0

/-- 1 / (±m·2^e), m nonzero, with a sticky last bit below 80 extra bits. -/
def recipVal (neg : Bool) (m : Nat) (e : Int) : Val :=
  let k := Nat.log2 m + 80
  let q := 2 ^ k / m
  let s := if q * m = 2 ^ k then 0 else 1
  .fin neg (2 * q + s) (-(k : Int) - e - 1)

/-- √(m·2^e), m nonzero. -/
def sqrtVal (m : Nat) (e : Int) : Val :=
  let n := m * 2 ^ (160 + (e % 2).toNat)
  let r := isqrt n
  let s := if r * r = n then 0 else 1
  .fin false (2 * r + s) ((e - e % 2) / 2 - 81)

/-- 1 / √(m·2^e), m nonzero. -/
def rsqrtVal (m : Nat) (e : Int) : Val :=
  let n0 := Nat.log2 m + 160
  let k := n0 + ((n0 + e) % 2).toNat
  let r := isqrt (2 ^ k / m)
  let s := if r * r * m = 2 ^ k then 0 else 1
  .fin false (2 * r + s) (-(((k : Int) + e) / 2) - 1)

/-- Fixed-point fraction bits of the transcendental functions. Every FP32 or BF16 result lies further from a rounding
boundary than the error of these sums (UNVERIFIED, log 6). -/
def fixP : Nat := 640

/-- floor(π · 2^900). -/
def piFix : Nat := 0x3243f6a8885a308d313198a2e03707344a4093822299f31d0082efa98ec4e6c89452821e638d01377be5466cf34e90c6cc0ac29b7c97c50dd3f84d5b5b54709179216d5d98979fb1bd1310ba698dfb5ac2ffd72dbd01adfb7b8e1afed6a267e96ba7c9045f12c7f9924a19947b3916cf70

/-- floor(ln 2 · 2^640). -/
def ln2Fix : Nat := 0xb17217f7d1cf79abc9e3b39803f2f6af40f343267298b62d8a0d175b8baafa2be7b876206debac98559552fb4afa1b10ed2eae35c138214427573b291169b8253e96ca16224ae8c51acbda11317c387e

/-- Σ t, t·x/i, t·x²/(i(i+1)), … in fixed point: the exponential series from term i. -/
def expSeries (x : Nat) : Nat → Nat → Nat → Nat
  | 0, _, _ => 0
  | n + 1, i, t => t + expSeries x n (i + 1) (t * x / 2 ^ fixP / i)

/-- e^x for 0 ≤ x < 1 at fixed point. -/
def expFix (x : Nat) : Nat := expSeries x 150 1 (2 ^ fixP)

/-- The alternating series of sine and cosine in x², from the term of degree i. -/
def trigSeries (x2 : Nat) : Nat → Nat → Nat → Int
  | 0, _, _ => 0
  | n + 1, i, t => (t : Int) - trigSeries x2 n (i + 2) (t * x2 / 2 ^ fixP / ((i + 1) * (i + 2)))

/-- sin x and cos x for 0 ≤ x ≤ 1 at fixed point. -/
def sinFix (x : Nat) : Nat := (trigSeries (x * x / 2 ^ fixP) 80 1 x).toNat
def cosFix (x : Nat) : Nat := (trigSeries (x * x / 2 ^ fixP) 80 0 (2 ^ fixP)).toNat

/-- Σ z, z·z²/3, … : the series of artanh. -/
def atanhSeries (z2 : Nat) : Nat → Nat → Nat → Nat
  | 0, _, _ => 0
  | n + 1, i, t => t / i + atanhSeries z2 n (i + 2) (t * z2 / 2 ^ fixP)

/-- ln (num/den) for 1 ≤ num/den < 2. -/
def lnFix (a d : Nat) : Nat :=
  let z := (a - d) * 2 ^ fixP / (a + d)
  2 * atanhSeries (z * z / 2 ^ fixP) 210 1 z

/-- A non-dyadic positive fixed-point result: a sticky bit below the last. -/
def stickyVal (neg : Bool) (x : Nat) (e : Int) : Val := .fin neg (2 * x + 1) (e - 1)

/-- 2^a (R182) for finite nonzero a. -/
def exp2Val (neg : Bool) (m : Nat) (e : Int) : Val :=
  if 0 ≤ e then
    -- an integer: exact
    let n : Nat := m * 2 ^ e.toNat
    .fin false 1 (if neg then -((min n 4096 : Nat) : Int) else (min n 4096 : Nat))
  else
    let top : Int := (Nat.log2 m : Int) + e
    if 12 ≤ top then stickyVal false (2 ^ 64) (if neg then -4160 else 4032)
    else
      let d := 2 ^ (-e).toNat
      let i : Int := if neg then -((m / d : Nat) : Int) - (if m % d = 0 then 0 else 1) else (m / d : Nat)
      let fr := if neg then (d - m % d) % d else m % d
      if fr = 0 then .fin false 1 i
      else stickyVal false (expFix (fr * ln2Fix / d)) (i - fixP)

/-- log2 (m·2^e) for m nonzero (R182); a power of two is exact. -/
def log2Val (m : Nat) (e : Int) : Val :=
  let l := Nat.log2 m
  let n : Int := (l : Int) + e
  if m = 2 ^ l then Val.ofInt n
  else
    let fr := lnFix m (2 ^ l) * 2 ^ fixP / ln2Fix
    let t : Int := n * (2 ^ fixP : Nat) + (fr : Nat)
    if 0 ≤ t then stickyVal false t.toNat (-(fixP : Int)) else stickyVal true ((-t).toNat - 1) (-(fixP : Int))

/-- The quadrant of a = m·2^e and the distance |a − k·π/2| at fixed point with its sign: exact argument reduction
(R182) with 900 bits of π. -/
def reduceAngle (m : Nat) (e : Int) : Nat × Bool × Nat :=
  let x : Nat := if 0 ≤ e + 900 then m * 2 ^ (e + 900).toNat else m / 2 ^ (-(e + 900)).toNat
  let half := piFix / 2
  let k := (2 * x + half) / (2 * half)
  let d : Int := (x : Int) - (k * piFix / 2 : Nat)
  (k, d < 0, d.natAbs / 2 ^ (900 - fixP))

/-- sin and cos of a finite nonzero value (R182). -/
def sinVal (neg : Bool) (m : Nat) (e : Int) : Val :=
  let (k, dn, r) := reduceAngle m e
  match k % 4 with
  | 0 => stickyVal (neg != dn) (sinFix r) (-(fixP : Int))
  | 1 => stickyVal neg (cosFix r) (-(fixP : Int))
  | 2 => stickyVal (neg != !dn) (sinFix r) (-(fixP : Int))
  | _ => stickyVal (!neg) (cosFix r) (-(fixP : Int))

def cosVal (m : Nat) (e : Int) : Val :=
  let (k, dn, r) := reduceAngle m e
  match k % 4 with
  | 0 => stickyVal false (cosFix r) (-(fixP : Int))
  | 1 => stickyVal (!dn) (sinFix r) (-(fixP : Int))
  | 2 => stickyVal true (cosFix r) (-(fixP : Int))
  | _ => stickyVal dn (sinFix r) (-(fixP : Int))

/-- tanh of a finite nonzero value (R182): (1 − t)/(1 + t) with t = e^(−2a). -/
def tanhVal (neg : Bool) (m : Nat) (e : Int) : Val :=
  if 7 ≤ (Nat.log2 m : Int) + e then stickyVal neg (2 ^ 400 - 1) (-400)
  else
    -- 2a / ln 2 = i + fr/2^P, so t = 2^(−i) · e^(−fr·ln 2)
    let x := if 0 ≤ e + 1 then m * 2 ^ (e + 1 + fixP).toNat else m * 2 ^ (e + 1 + fixP).toNat
    let i := x / ln2Fix
    let r := x % ln2Fix
    let one := 2 ^ fixP
    let t := one * one / expFix r / 2 ^ i
    stickyVal neg ((one - t) * one / (one + t)) (-(fixP : Int))

/-- The eight special functions (R182): value and flags. -/
inductive SpecialFn where
  | rcp | rsq | sqrt | exp2 | log2 | sin | cos | tanh
deriving DecidableEq, Repr

def specialVal (fn : SpecialFn) (v : Val) : Val × Flags :=
  match fn, v with
  | _, .nan => (.nan, 0)
  | .rcp, .inf n => (.fin n 0 0, 0)
  | .rcp, .fin n m e => if m = 0 then (.inf n, Flags.dz) else (recipVal n m e, 0)
  | .rsq, .inf n => if n then (.nan, Flags.nv) else (.fin false 0 0, 0)
  | .rsq, .fin n m e => if m = 0 then (.inf n, Flags.dz) else if n then (.nan, Flags.nv) else (rsqrtVal m e, 0)
  | .sqrt, .inf n => if n then (.nan, Flags.nv) else (.inf false, 0)
  | .sqrt, .fin n m e => if m = 0 then (.fin n 0 0, 0) else if n then (.nan, Flags.nv) else (sqrtVal m e, 0)
  | .exp2, .inf n => if n then (.fin false 0 0, 0) else (.inf false, 0)
  | .exp2, .fin n m e => if m = 0 then (.fin false 1 0, 0) else (exp2Val n m e, 0)
  | .log2, .inf n => if n then (.nan, Flags.nv) else (.inf false, 0)
  | .log2, .fin n m e => if m = 0 then (.inf true, Flags.dz) else if n then (.nan, Flags.nv) else (log2Val m e, 0)
  | .sin, .inf _ => (.nan, Flags.nv)
  | .sin, .fin n m e => if m = 0 then (.fin n 0 0, 0) else (sinVal n m e, 0)
  | .cos, .inf _ => (.nan, Flags.nv)
  | .cos, .fin _ m e => if m = 0 then (.fin false 1 0, 0) else (cosVal m e, 0)
  | .tanh, .inf n => (.fin n 1 0, 0)
  | .tanh, .fin n m e => if m = 0 then (.fin n 0 0, 0) else (tanhVal n m e, 0)

end Sys2Proof.Machine
end

