-- ==== Sys2Proof/Rng.lean ====
section
/-! DEFINITION. What R193 states of a lane's rounding generator, and that such generators exist: `Config` takes one of them and says no
more of it. The generator built here only shows that there is one; nothing else names it. -/

namespace Sys2Proof

/-- A generator: its next state, the 16-bit draw taken from a state, and the start state mixed from a seed and a work identifier. -/
structure Rng where
  next : Word → Word
  draw : Word → BitVec 16
  mix : Word → Word → Word

/-- Nonzero states, as numbers below 2^64, with a property. -/
def Rng.stateCount (p : Word → Bool) : Nat := Nat.count (fun n => n ≠ 0 ∧ p (BitVec.ofNat 64 n) = true) (2 ^ 64)

/-- What R193 states: the generator runs through every nonzero state; every draw, and every ordered pair of consecutive draws, occurs
equally often to within one; lanes of different work identifiers start apart, and from states it runs through. -/
structure Rng.Sound (g : Rng) : Prop where
  nonzero : ∀ x, x ≠ 0 → g.next x ≠ 0
  period : ∀ x y, x ≠ 0 → y ≠ 0 → ∃ k : Nat, g.next^[k] x = y
  draws : ∀ v w, Rng.stateCount (g.draw · == v) ≤ Rng.stateCount (g.draw · == w) + 1
  pairs : ∀ v w : BitVec 16 × BitVec 16, Rng.stateCount (fun x => (g.draw x, g.draw (g.next x)) == v) ≤
    Rng.stateCount (fun x => (g.draw x, g.draw (g.next x)) == w) + 1
  lanes : ∀ seed v w, v ≠ w → g.mix seed v ≠ g.mix seed w
  started : ∀ seed w, w ≠ BitVec.allOnes 64 → g.mix seed w ≠ 0

/-! ## One such generator

A state is h · 2^32 + v · 2^16 + u. The pair (u, v) moves as the pairs of neighbours of the cyclic sequence 0, 0 1, 0 2, …, 1, 1 2, … in
which every pair of 16-bit values stands once; h counts its rounds; the state zero is passed over. -/

namespace Rng.Witness

/-- The value after the neighbours u, v. K: the number of values. -/
def succ (K u v : Nat) : Nat :=
  if u < v then (if v + 1 < K then u else u + 1)
  else if u + 1 < K then u + 1
  else if v + 1 < K then v else 0

/-- The value before the neighbours u, v. -/
def pred (K u v : Nat) : Nat :=
  if u < v then v - 1
  else if u = v ∧ u + 1 < K then K - 1
  else if u + 1 < K then v
  else if v = 0 then K - 1 else v - 1

/-- Where the part of the sequence that begins with i stands. -/
def base (K i : Nat) : Nat := i * (2 * K - i)

/-- The place of the neighbours u, v in the sequence. -/
def rank (K u v : Nat) : Nat :=
  if u < v then base K u + 2 * (v - u) - 1
  else if u + 1 < K then base K v + 2 * (u - v)
  else if v = 0 then K * K - 1 else base K v - 1

theorem base_succ {K i : Nat} (h : i < K) : base K (i + 1) = base K i + (2 * K - 2 * i - 1) := by
  obtain ⟨d, rfl⟩ : ∃ d, K = i + 1 + d := ⟨K - i - 1, by omega⟩
  have e1 : 2 * (i + 1 + d) - (i + 1) = i + 1 + 2 * d := by omega
  have e2 : 2 * (i + 1 + d) - i = i + 2 + 2 * d := by omega
  have e3 : 2 * (i + 1 + d) - 2 * i - 1 = 2 * d + 1 := by omega
  simp only [base, e1, e2, e3]; ring

theorem base_le {K i : Nat} (h : i ≤ K) : base K i ≤ K * K := by
  obtain ⟨d, rfl⟩ : ∃ d, K = i + d := ⟨K - i, by omega⟩
  have e : 2 * (i + d) - i = i + 2 * d := by omega
  simp only [base, e]; nlinarith

theorem rank_lt {K u v : Nat} (hu : u < K) (hv : v < K) : rank K u v < K * K := by
  have h1 := base_le (K := K) (i := u + 1) (by omega)
  have h2 := base_le (K := K) (i := v + 1) (by omega)
  rw [base_succ hu] at h1
  rw [base_succ hv] at h2
  have : 0 < K * K := Nat.mul_pos (by omega) (by omega)
  unfold rank; split_ifs <;> omega

theorem succ_lt {K u v : Nat} (hK : 2 ≤ K) (hu : u < K) (hv : v < K) : succ K u v < K := by
  unfold succ; split_ifs <;> omega

theorem pred_lt {K u v : Nat} (hK : 2 ≤ K) (hu : u < K) (hv : v < K) : pred K u v < K := by
  unfold pred; split_ifs <;> omega

theorem succ_pred {K u v : Nat} (hK : 2 ≤ K) (hu : u < K) (hv : v < K) : succ K (pred K u v) u = v := by
  unfold succ pred; split_ifs <;> omega

theorem rank_succ {K u v : Nat} (hK : 2 ≤ K) (hu : u < K) (hv : v < K) (h : ¬ (u + 1 = K ∧ v = 0)) :
    rank K v (succ K u v) = rank K u v + 1 := by
  have h0 : base K 0 = 0 := by simp [base]
  have hb := base_succ hu
  have hc := base_succ hv
  have hd : 0 < v → base K v = base K (v - 1) + (2 * K - 2 * (v - 1) - 1) := fun p => by
    have := base_succ (K := K) (i := v - 1) (by omega); rwa [Nat.sub_add_cancel p] at this
  have he : v + 1 = K → base K v + 1 = K * K := fun e => by
    subst e; simp only [base, show 2 * (v + 1) - v = v + 2 by omega]; ring
  unfold rank succ
  split_ifs <;> first | omega | contradiction

/-! ### A cycle from a rank -/

/-- A step that passes over the state zero. -/
def hop (f : Nat → Nat) (n : Nat) : Nat := if f n = 0 then f 0 else f n

theorem hop_ne {f : Nat → Nat} (h0 : f 0 ≠ 0) (n : Nat) : hop f n ≠ 0 := by unfold hop; split_ifs <;> assumption

/-- A step of which a rank counts the states, and which has an inverse, joins every two nonzero states. -/
theorem hop_joins {f g R : Nat → Nat} {M B : Nat} (hf : ∀ n < M, f n < M)
    (hg : ∀ n < M, g n < M ∧ f (g n) = n) (hR : ∀ n < M, f n = 0 ∨ R (f n) = R n + 1) (hB : ∀ n < M, R n < B) :
    ∀ x y, x < M → y < M → x ≠ 0 → y ≠ 0 → ∃ k, (hop f)^[k] x = y := by
  have up : ∀ d n, B - R n ≤ d → n < M → n ≠ 0 → ∃ k, (hop f)^[k] n = f 0 := by
    intro d
    induction d with
    | zero => intro n hd hn _; have := hB n hn; omega
    | succ d ih =>
      intro n hd hn hz
      by_cases e : f n = 0
      · exact ⟨1, by simp [hop, e]⟩
      · have hr := (hR n hn).resolve_left e
        have hb := hB (f n) (hf n hn)
        obtain ⟨k, hk⟩ := ih (f n) (by omega) (hf n hn) e
        exact ⟨k + 1, by rw [Function.iterate_succ_apply, show hop f n = f n by simp [hop, e], hk]⟩
  have down : ∀ d y, R y ≤ d → y < M → y ≠ 0 → ∃ k, (hop f)^[k] (f 0) = y := by
    intro d
    induction d with
    | zero =>
      intro y hd hy hz
      have hp := hg y hy
      have hr := (hR _ hp.1).resolve_left (by rw [hp.2]; exact hz)
      rw [hp.2] at hr; omega
    | succ d ih =>
      intro y hd hy hz
      have hp := hg y hy
      have hr := (hR _ hp.1).resolve_left (by rw [hp.2]; exact hz)
      rw [hp.2] at hr
      by_cases e : g y = 0
      · exact ⟨0, by rw [Function.iterate_zero_apply, ← hp.2, e]⟩
      · obtain ⟨k, hk⟩ := ih (g y) (by omega) hp.1 e
        exact ⟨k + 1, by rw [Function.iterate_succ_apply', hk, hop, hp.2, if_neg hz]⟩
  intro x y hx hy h1 h2
  obtain ⟨a, ha⟩ := up _ x le_rfl hx h1
  obtain ⟨b, hb⟩ := down _ y le_rfl hy h2
  exact ⟨b + a, by rw [Function.iterate_add_apply, ha, hb]⟩

/-! ### States of three digits -/

/-- The state with rounds h and neighbours u, v. -/
def pack (K h u v : Nat) : Nat := (h * K + v) * K + u

theorem pack_u {K h u v : Nat} (hu : u < K) : pack K h u v % K = u := by
  rw [pack, Nat.mul_comm, Nat.mul_add_mod, Nat.mod_eq_of_lt hu]

theorem pack_hv {K h u v : Nat} (hu : u < K) : pack K h u v / K = h * K + v := by
  rw [pack, Nat.mul_comm, Nat.mul_add_div (by omega), Nat.div_eq_of_lt hu, Nat.add_zero]

theorem pack_v {K h u v : Nat} (hu : u < K) (hv : v < K) : pack K h u v / K % K = v := by
  rw [pack_hv hu, Nat.mul_comm, Nat.mul_add_mod, Nat.mod_eq_of_lt hv]

theorem pack_h {K h u v : Nat} (hu : u < K) (hv : v < K) : pack K h u v / K / K = h := by
  rw [pack_hv hu, Nat.mul_comm, Nat.mul_add_div (by omega), Nat.div_eq_of_lt hv, Nat.add_zero]

theorem pack_eq (K n : Nat) : pack K (n / K / K) (n % K) (n / K % K) = n := by
  rw [pack, Nat.mul_comm (n / K / K), Nat.div_add_mod, Nat.mul_comm, Nat.div_add_mod]

theorem pack_lt {K H h u v : Nat} (hh : h < H) (hu : u < K) (hv : v < K) : pack K h u v < H * K * K := by
  have : h * K + v < H * K := by nlinarith
  unfold pack; nlinarith

theorem h_lt {K H n : Nat} (hn : n < H * K * K) : n / K / K < H :=
  Nat.div_lt_of_lt_mul (by rw [Nat.mul_comm]; exact Nat.div_lt_of_lt_mul (by rw [Nat.mul_comm]; exact hn))

/-- The step, its inverse and its rank, with H rounds. -/
def stepN (K H n : Nat) : Nat :=
  let u := n % K
  let v := n / K % K
  pack K (if u + 1 = K ∧ v = 0 then (n / K / K + 1) % H else n / K / K) v (succ K u v)

def backN (K H n : Nat) : Nat :=
  let u := n % K
  let v := n / K % K
  pack K (if u = 0 ∧ v = 0 then (n / K / K + H - 1) % H else n / K / K) (pred K u v) u

def rankN (K n : Nat) : Nat := n / K / K * (K * K) + rank K (n % K) (n / K % K)

variable {K H : Nat}

theorem stepN_lt (hK : 2 ≤ K) (hH : 0 < H) (n : Nat) (hn : n < H * K * K) : stepN K H n < H * K * K := by
  have hu : n % K < K := Nat.mod_lt _ (by omega)
  have hv : n / K % K < K := Nat.mod_lt _ (by omega)
  refine pack_lt ?_ hv (succ_lt hK hu hv)
  split_ifs
  · exact Nat.mod_lt _ hH
  · exact h_lt hn

theorem succ_zero_iff {u v : Nat} (hK : 2 ≤ K) (hu : u < K) (hv : v < K) : (v = 0 ∧ succ K u v = 0) ↔ (u + 1 = K ∧ v = 0) := by
  unfold succ; constructor <;> rintro ⟨h1, h2⟩ <;> split_ifs at * <;> omega

theorem stepN_zero (hK : 2 ≤ K) : stepN K H 0 ≠ 0 := by
  have : succ K 0 0 = 1 := by unfold succ; split_ifs <;> omega
  simp only [stepN, Nat.zero_mod, Nat.zero_div, this, pack]
  rw [if_neg (by omega)]; simp; omega

theorem backN_spec (hK : 2 ≤ K) (hH : 0 < H) (n : Nat) (hn : n < H * K * K) :
    backN K H n < H * K * K ∧ stepN K H (backN K H n) = n := by
  have hu : n % K < K := Nat.mod_lt _ (by omega)
  have hv : n / K % K < K := Nat.mod_lt _ (by omega)
  have hh := h_lt hn
  have hp := pred_lt hK hu hv
  have hs := succ_pred hK hu hv
  refine ⟨pack_lt ?_ hp hu, ?_⟩
  · split_ifs
    · exact Nat.mod_lt _ hH
    · exact hh
  · have hz := succ_zero_iff hK hp hu
    rw [hs] at hz
    simp only [stepN, backN, pack_u hp, pack_v hp hu, pack_h hp hu, hs]
    conv_rhs => rw [← pack_eq K n]
    congr 1
    by_cases e : n % K = 0 ∧ n / K % K = 0
    · rw [if_pos (hz.1 e), if_pos e]
      by_cases z : n / K / K = 0
      · rw [z, Nat.zero_add, Nat.mod_eq_of_lt (by omega : H - 1 < H), Nat.sub_add_cancel hH, Nat.mod_self]
      · have hz1 : n / K / K - 1 < H := by omega
        have hz2 : n / K / K - 1 + 1 = n / K / K := Nat.sub_add_cancel (Nat.one_le_iff_ne_zero.2 z)
        rw [show n / K / K + H - 1 = n / K / K - 1 + H from by rw [Nat.add_comm, Nat.add_sub_assoc (Nat.one_le_iff_ne_zero.2 z), Nat.add_comm],
          Nat.add_mod_right, Nat.mod_eq_of_lt hz1, hz2, Nat.mod_eq_of_lt hh]
    · rw [if_neg (fun q => e (hz.2 q)), if_neg e]

theorem rankN_step (hK : 2 ≤ K) (n : Nat) (hn : n < H * K * K) :
    stepN K H n = 0 ∨ rankN K (stepN K H n) = rankN K n + 1 := by
  have hu : n % K < K := Nat.mod_lt _ (by omega)
  have hv : n / K % K < K := Nat.mod_lt _ (by omega)
  have hw := succ_lt hK hu hv
  have hh := h_lt hn
  simp only [rankN, stepN, pack_u hv, pack_v hv hw, pack_h hv hw]
  by_cases e : n % K + 1 = K ∧ n / K % K = 0
  · have z := (succ_zero_iff hK hu hv).2 e
    have hKK : 0 < K * K := Nat.mul_pos (by omega) (by omega)
    by_cases l : n / K / K + 1 = H
    · left; rw [if_pos e, l, Nat.mod_self, z.2, z.1]; simp [pack]
    · right
      have r0 : rank K 0 0 = 0 := by unfold rank base; split_ifs <;> omega
      have r1 : rank K (n % K) 0 = K * K - 1 := by unfold rank; split_ifs <;> omega
      rw [if_pos e, Nat.mod_eq_of_lt (by omega), z.2, z.1, r0, r1, Nat.add_mul]; omega
  · right; rw [if_neg e, rank_succ hK hu hv e]; omega

theorem rankN_lt (hK : 2 ≤ K) (n : Nat) (hn : n < H * K * K) : rankN K n < H * (K * K) := by
  have hr := rank_lt (K := K) (Nat.mod_lt n (by omega : 0 < K)) (Nat.mod_lt (n / K) (by omega : 0 < K))
  have hh := h_lt hn
  unfold rankN; nlinarith

/-! ### Counting -/

/-- States of a residue, zero left out: as many for every residue, to within one. -/
theorem count_close {r a b M : Nat} (hr : 0 < r) (ha : a < r) (hb : b < r) (hd : r ∣ M) :
    Nat.count (fun n => n ≠ 0 ∧ n % r = a) M ≤ Nat.count (fun n => n ≠ 0 ∧ n % r = b) M + 1 := by
  have all (c : Nat) (hc : c < r) : Nat.count (fun n => n % r = c) M = M / r := by
    have h := Nat.count_modEq_card M hr c
    rw [Nat.mod_eq_zero_of_dvd hd, if_neg (by omega), Nat.add_zero] at h
    rw [← h]; congr 1; ext n; simp [Nat.ModEq, Nat.mod_eq_of_lt hc]
  have le : Nat.count (fun n => n ≠ 0 ∧ n % r = a) M ≤ M / r :=
    (Nat.count_mono_left (fun _ _ h => h.2)).trans (all a ha).le
  have ge (m : Nat) : Nat.count (fun n => n % r = b) m ≤ Nat.count (fun n => n ≠ 0 ∧ n % r = b) m + 1 := by
    induction m with
    | zero => simp
    | succ m ih =>
      by_cases z : m = 0
      · subst z; have := Nat.count_le (p := fun n => n % r = b) (n := 0 + 1); omega
      · have e : (m ≠ 0 ∧ m % r = b) ↔ m % r = b := and_iff_right z
        rw [Nat.count_succ, Nat.count_succ]; simp only [e]; omega
  exact le.trans ((all b hb).ge.trans (ge M))

/-! ### The generator -/

/-- 2^16 values, 2^32 rounds. -/
def step (n : Nat) : Nat := stepN (2 ^ 16) (2 ^ 32) n

theorem size : 2 ^ 32 * 2 ^ 16 * 2 ^ 16 = 2 ^ 64 := by norm_num

theorem step_lt {n : Nat} (h : n < 2 ^ 64) : step n < 2 ^ 64 := size ▸ stepN_lt (by norm_num) (by norm_num) n (size ▸ h)

theorem hop_lt {n : Nat} (h : n < 2 ^ 64) : hop step n < 2 ^ 64 := by
  unfold hop; split_ifs
  · exact step_lt (by norm_num)
  · exact step_lt h

/-- The first neighbour of the state that follows is the second of this one. -/
theorem hop_mod (n : Nat) : hop step n % 2 ^ 16 = n / 2 ^ 16 % 2 ^ 16 := by
  have h (m : Nat) : step m % 2 ^ 16 = m / 2 ^ 16 % 2 ^ 16 := pack_u (Nat.mod_lt _ (by norm_num))
  unfold hop; split_ifs with e
  · rw [h 0, ← h n, e]; rfl
  · exact h n

/-- The generator built here. -/
def gen : Rng :=
  { next := fun x => BitVec.ofNat 64 (hop step x.toNat), draw := fun x => BitVec.ofNat 16 x.toNat, mix := fun _ w => w + 1 }

theorem gen_iter (k : Nat) (x : Word) : (gen.next^[k] x).toNat = (hop step)^[k] x.toNat := by
  induction k generalizing x with
  | zero => rfl
  | succ k ih =>
    rw [Function.iterate_succ_apply, Function.iterate_succ_apply, ih]
    simp only [gen, BitVec.toNat_ofNat, Nat.mod_eq_of_lt (hop_lt x.isLt)]

theorem toNat_ne {x : Word} (h : x ≠ 0) : x.toNat ≠ 0 := fun e => h (BitVec.eq_of_toNat_eq (by simpa using e))

theorem count_same {p q : Nat → Prop} [DecidablePred p] [DecidablePred q] {M : Nat} (h : ∀ n < M, p n ↔ q n) :
    Nat.count p M = Nat.count q M :=
  le_antisymm (Nat.count_mono_left fun n hn => (h n hn).1) (Nat.count_mono_left fun n hn => (h n hn).2)

/-- The states with a draw, and those with two consecutive draws, are those of a residue. -/
theorem count_draw (v : BitVec 16) :
    Rng.stateCount (gen.draw · == v) = Nat.count (fun n => n ≠ 0 ∧ n % 2 ^ 16 = v.toNat) (2 ^ 64) :=
  count_same fun n hn => by
    have h : (gen.draw (BitVec.ofNat 64 n)).toNat = n % 2 ^ 16 := by
      simp only [gen, BitVec.toNat_ofNat, Nat.mod_eq_of_lt hn]
    rw [beq_iff_eq, ← BitVec.toNat_inj, h]

theorem count_pair (v : BitVec 16 × BitVec 16) :
    Rng.stateCount (fun x => (gen.draw x, gen.draw (gen.next x)) == v) =
      Nat.count (fun n => n ≠ 0 ∧ n % 2 ^ 32 = v.2.toNat * 2 ^ 16 + v.1.toNat) (2 ^ 64) :=
  count_same fun n hn => by
    have h1 : (gen.draw (BitVec.ofNat 64 n)).toNat = n % 2 ^ 16 := by
      simp only [gen, BitVec.toNat_ofNat, Nat.mod_eq_of_lt hn]
    have h2 : (gen.draw (gen.next (BitVec.ofNat 64 n))).toNat = n / 2 ^ 16 % 2 ^ 16 := by
      simp only [gen, BitVec.toNat_ofNat, Nat.mod_eq_of_lt hn, Nat.mod_eq_of_lt (hop_lt hn), hop_mod]
    have h3 := v.1.isLt
    have h4 := v.2.isLt
    rw [beq_iff_eq, Prod.ext_iff, ← BitVec.toNat_inj, ← BitVec.toNat_inj]
    simp only [h1, h2]
    omega

/-- It has what R193 states. -/
theorem gen_sound : gen.Sound where
  nonzero x _ h := by
    have e := congrArg BitVec.toNat h
    simp only [gen, BitVec.toNat_ofNat, Nat.mod_eq_of_lt (hop_lt x.isLt)] at e
    exact hop_ne (f := step) (stepN_zero (K := 2 ^ 16) (H := 2 ^ 32) (by norm_num)) x.toNat (by simpa using e)
  period x y hx hy := by
    obtain ⟨k, hk⟩ := hop_joins (f := step) (g := backN (2 ^ 16) (2 ^ 32)) (R := rankN (2 ^ 16)) (M := 2 ^ 64) (B := 2 ^ 64)
      (fun n h => step_lt h) (fun n h => size ▸ backN_spec (by norm_num) (by norm_num) n (size ▸ h))
      (fun n h => rankN_step (by norm_num) n (size ▸ h))
      (fun n h => by have := rankN_lt (K := 2 ^ 16) (H := 2 ^ 32) (by norm_num) n (size ▸ h); rwa [← Nat.mul_assoc, size] at this)
      x.toNat y.toNat x.isLt y.isLt (toNat_ne hx) (toNat_ne hy)
    exact ⟨k, BitVec.eq_of_toNat_eq (by rw [gen_iter, hk])⟩
  draws v w := by
    rw [count_draw, count_draw]
    exact count_close (by norm_num) v.isLt w.isLt ⟨2 ^ 48, by norm_num⟩
  pairs v w := by
    rw [count_pair, count_pair]
    have := v.1.isLt; have := v.2.isLt; have := w.1.isLt; have := w.2.isLt
    exact count_close (by norm_num) (by omega) (by omega) ⟨2 ^ 32, by norm_num⟩
  lanes _ v w h e := h (add_right_cancel (show v + 1 = w + 1 from e))
  started _ w h e := h (by
    have e' : w + 1 = 0 := e
    refine BitVec.eq_of_toNat_eq ?_
    have n := congrArg BitVec.toNat e'
    have := w.isLt
    simp [BitVec.toNat_add] at n ⊢
    omega)

end Rng.Witness

/-- A generator with what R193 states of it: which one is open, and nothing tells (log 4). -/
opaque Config.rng : Subtype Rng.Sound := ⟨Rng.Witness.gen, Rng.Witness.gen_sound⟩

end Sys2Proof
end

