-- ==== Sys2Proof/Config.lean ====
section
/-! DEFINITION. What the manual leaves open: free values and functions without a body, and the fuses of the part. -/

namespace Sys2Proof.Config

/-- The rounding generator's next state (R193), of the generator that `Config.rng` takes. -/
def rngNext : Word → Word := rng.val.next

/-- The 16-bit draw taken from a generator state (R67, R193). -/
def rngDraw : Word → BitVec 16 := rng.val.draw

/-- The start state of a lane's generator: a fixed function of the default seed and the work identifier (R193). -/
def seedMix : Word → Word → Word := rng.val.mix

/-- The generator of the part has what R193 states. -/
theorem rng_sound : Rng.Sound ⟨rngNext, rngDraw, seedMix⟩ := rng.property

/-- A free value: nothing constrains it. Applied to the counter `State.free`. -/
opaque freeWord : Nat → Word

/-- The byte that a read finds where the manual states none: a poisoned line, or a physical address beyond the capacity. Applied to
the counters `State.free` and `State.nextId` and the address. -/
opaque lostByte : Nat → Nat → Nat → BitVec 8

/-- The lane index delivered to a float format for which R107 states no value (FP16, E4M3, E5M2): format code, lane. -/
opaque laneElem : Nat → Nat → Word

/-- The three images of the boot memory as the first start after power-on finds them (R446, R447; log 7). -/
opaque images : List Image

/-- The image digests that a start before this power-on left in the device (R446). -/
opaque digests : List (BitVec 512)

/-- The fused digest of the signing key and the fused minimum security version of each image (R447). -/
opaque fuseKey : BitVec 512
opaque fuseMin : List Nat

/-- The training coefficients that the device keeps (R446). -/
opaque coeffs : List Word

/-- The functions that R447 and R448 name and the spec does not define: SHA-512, the test of an RSA-PSS signature by a key over bytes, and
the device's signature over bytes with its identity key. -/
opaque sha512 : List Byte → BitVec 512
opaque pssVerify : (key msg sig : List Byte) → Bool
opaque identitySign : List Byte → List Byte

/-- Whether the host has read past an entry of the error log of a die, the n-th since the start, when it is overwritten (R445, R458): the
spec has no register that a reader moves, so it is free (log 94). Applied to the counter `State.nextId` as well. -/
opaque readPast : (stamp die n : Nat) → Bool

/-- `CAP.STEP` (fuse, R2): the first production stepping. DESIGN CHOICE, log 1. -/
def step : BitVec 8 := 0x01#8

/-- `CAP.GRADE` (fuse, R3) of the part after `State.reset`: L9-X. DESIGN CHOICE, log 1. -/
def grade : BitVec 2 := 0#2

end Sys2Proof.Config
end

