-- ==== Sys2Proof/Machine/State.lean ====
section
/-! DEFINITION. The state of one device as plain data (R16 to R20, R42 to R45, R276 to R319, R346, R370, R389, R395,
R410, R445), its faults and refusals, and the state after reset. Every sparse map is a list of (key, value) pairs,
keys strictly rising, no entry equal to what an unlisted key reads as. -/

namespace Sys2Proof.Machine

/-- A sparse map: keys strictly rising, no default entries. -/
abbrev Map (α : Type) := List (Nat × α)

/-- A 64-bit register with its format tag (R22). -/
structure Reg where
  bits : Word
  tag : Tag
deriving DecidableEq, Repr

/-- The value every allocated register holds at block start: zero, tag N64 (R23). -/
def Reg.zero : Reg := ⟨0, .n64⟩

/-- The traps (R345). -/
inductive Trap where
  | illegal | runLong | unitAbsent | setAbsent | voidOperand | poisonUse | formatMismatch | stallShort
  | ptrBad | scopeHome | writeRs | extent | align | privilege | staleHandle | shapeInvalid | slotInvalid
  | copyInvalid | setInvalid | rdvMismatch | userTrap | tstoreErr | accessRefused
deriving DecidableEq, Repr

/-- A producer of the current run: the register code it writes, the declared distance and cycle at its issue,
its latency (R33, R34). Predicate p has code 256 + p. -/
structure Producer where
  code : Nat
  dist : Nat
  lat : Nat
  id : Nat
  captures : Bool
deriving DecidableEq, Repr

/-- The run a lane is in (R28): its start, the instructions issued, the declared distance run so far, the producers. -/
structure Run where
  start : Nat
  count : Nat
  dist : Nat
  prods : List Producer
deriving DecidableEq, Repr

/-- What holds a lane between runs beyond its await mask (R49, R138, R146 to R149). A WAITC keeps the cohort or rendezvous that issued
it, and its scope. -/
inductive Hold where
  | ready
  | waitc (ctr : Ctr) (thresh iss : Nat) (sc : Scope)
  | waitm (mon : Nat)
  | parked (table : Nat)
  | regroup (key : Nat)
  | yielded
  | exiting
deriving DecidableEq, Repr

/-- Where a lane stands (R38, R49). -/
inductive LaneSt where
  | exited
  | running (coh : Nat)
  | between (start : Nat) (await : BitVec 8) (hold : Hold)
deriving DecidableEq, Repr

/-- A lane. `regs` is keyed by operand code: V 0 to 191, Q 192 to 199, Y 200 and 201. `void` bit k: Q k, bit 8 + k: Y k. -/
structure Lane where
  regs : Map Reg
  void : BitVec 10
  p : BitVec 7
  flags : BitVec 6
  rng : Word
  wid : Word
  winCore : Nat
  winLane : Nat
  pc : Nat
  run : Run
  st : LaneSt
  phys : Nat
  since : Nat
deriving DecidableEq, Repr

/-- An uncounted operation of a group, in issue order (R311). -/
structure OpRec where
  id : Nat
  ctr : Ctr
  done : Bool
deriving DecidableEq, Repr

/-- An instruction as it has been fetched: decoded, with its length, or refused by decoding, with its length and its scope field (R125,
R344). -/
inductive Code where
  | instr (i : Instr) (len : Nat)
  | illegal (len : Nat) (sc : Scope)
deriving DecidableEq, Repr

/-- A raised trap and what its frame will hold (R348 to R350); `fetched`: the instruction it stands at, as it has been fetched. -/
structure Raised where
  trap : Trap
  lanes : List Nat
  failmask : BitVec 32
  pc : Nat
  pc2 : Nat
  detail : Word
  addr : Word
  user : BitVec 16
  tscope : Scope
  runpos : Nat
  members : List Nat
  coh : Nat
  fetched : Option (Nat × Code)
deriving DecidableEq, Repr

/-- An open trap frame (R351): the trap, the run each handler lane was in, the registers the handler has written,
the deferred accesses. -/
structure Frame where
  raised : Raised
  base : Nat
  runs : List (Nat × Run)
  written : List (Nat × Nat)
  deferred : List Nat
  coh : Nat
deriving DecidableEq, Repr

/-- A refusal that makes ACCESS_REFUSED pending (R355), ordered by the issue of the access. -/
structure Refused where
  ord : Nat
  pc : Nat
  lanes : List Nat
  frec : Nat
  tag : Nat
  dst : Nat
deriving DecidableEq, Repr

/-- A group's path to a peer is broken (R435) since a store of some access was dropped; `enders`: the later loads and atomics that completed a lane
with the error value for it, the first of which to complete ends the break. -/
structure Broken where
  pos : BitVec 4
  since : Nat
  enders : List Nat
deriving DecidableEq, Repr

/-- A group. `k` holds K0 to K15, `h` holds H0 to H15; both lists have 16 entries. `part` and `pslot` say where in its core
the group stands (R279); `due`: traps found at a replay that the group's next instruction raises, with the lane each failed in (R250, R266). -/
structure Group where
  k : List Word
  h : List (BitVec 512)
  hPend : List Nat
  ctl : Word
  ops : List OpRec
  sysMode : Bool
  sysLaunch : Bool
  raised : Option Raised
  frame : Option Frame
  refusals : List Refused
  broken : List Broken
  part : Nat
  pslot : Nat
  heldBy : Option Nat
  due : List (Nat × Trap)
deriving DecidableEq, Repr

/-- Where a cohort stands (R31, R47, R49); `fetch` waits for a fetch fault's record (R397), with the
quiescence counter at the fetch (R399). -/
inductive Stage where
  | slot (n : Fin 2)
  | rdv (id : Nat)
  | resume
  | held
  | fetch (frec stamp : Nat)
deriving DecidableEq, Repr

/-- A cohort: lanes of one hardware group executing one run from one run start; `fetched`: the instruction it stands at as it has
been fetched, with its address (R344). -/
structure Cohort where
  id : Nat
  grp : Nat
  lanes : List Nat
  pc : Nat
  start : Nat
  stage : Stage
  wait : Nat
  nextIssue : Nat
  promoted : Bool
  fetched : Option (Nat × Code)
deriving DecidableEq, Repr

/-- An open rendezvous (R283): its scope, the instruction's address, the instruction, its length, the member groups,
the cohorts that arrived, the members in order of arrival, whether it is complete and its instruction waits for a pick, and the cycle
from which it may be picked. -/
structure Rdv where
  id : Nat
  scope : Scope
  pc : Nat
  instr : Instr
  len : Nat
  members : List Nat
  arrived : List Nat
  order : List Nat
  fired : Bool
  nextIssue : Nat
deriving DecidableEq, Repr

/-- A set (R19, R20): its member groups in ascending index and its 32 X registers: tag, and position p of register i
at key 32·i + p. -/
structure GSet where
  no : Nat
  members : List Nat
  x : Map Word
  xtag : Map Tag
deriving DecidableEq, Repr

/-- A window configuration bound by TWIN (R244). -/
structure WinCfg where
  ow : Nat
  iw : Nat
  sx : Nat
  sy : Nat
  dx : Nat
  dy : Nat
  baserow : Nat
deriving DecidableEq, Repr

/-- One local slot index of a block (R236): its physical slot, the first local index of its window, the window's slot
count when it is the head (1 for a lone slot), and the window configuration. -/
structure SlotEnt where
  phys : Nat
  head : Nat
  count : Nat
  cfg : Option WinCfg
deriving DecidableEq, Repr

/-- A backed scratchpad region (R298). -/
structure Region where
  backing : Nat
  len4k : Nat
  soff : Nat
  nowb : Bool
deriving DecidableEq, Repr

/-- A filled backed scratchpad line (R297 to R300): stale, dirty byte mask, the 4 KiB granule of device memory that the
directory records for it. -/
structure LineSt where
  stale : Bool
  dirty : BitVec 128
  back : Nat
deriving DecidableEq, Repr

/-- One operand slot (R305): 32 rows of 96 bytes at key 96·r + b, 6 scale bytes a row at key 6·r + k, poisoned rows. -/
structure OpSlot where
  bytes : Map Byte
  scales : Map Byte
  poison : BitVec 32
deriving DecidableEq, Repr

/-- One C slot (R305): 32 × 16 elements of 36 bits at key 16·r + j, marks, SATM, poisoned rows. -/
structure CSlot where
  el : Map (BitVec 36)
  rowm : BitVec 32
  colm : BitVec 16
  satm : Bool
  poison : BitVec 32
deriving DecidableEq, Repr

/-- A block's pending TSTORE_ERR (R355, R356). -/
structure TsErr where
  slot : Nat
  rows : Nat
  released : Bool
  remote : Bool
  rank : Nat
deriving DecidableEq, Repr

/-- Where a block stands in its life (R385, R402 to R409, R303): a pre-emption window ends at a cycle, 0 once it has ended. -/
inductive BlockSt where
  | running
  | window (ends : Nat)
  | saved (slot : Nat) (full : Bool)
  | retained
deriving DecidableEq, Repr

/-- A block (R276 to R280, R293). Lane m of group g is `lanes[32·g + m]`. Its scratchpad lies at `scrBase` of its core's.
`ctxOps` and `ctxCs` hold the slots of a saved block by local index; `resides` numbers its present residence on its core (R308). -/
structure Block where
  id : Nat
  resides : Nat
  die : Nat
  core : Nat
  launch : Nat
  rank : Nat
  bcluster : Nat
  vregs : Nat
  setMax : Nat
  lanes : List Lane
  groups : List Group
  cohorts : List Cohort
  rdvs : List Rdv
  sets : List GSet
  scrBase : Nat
  scrSize : Nat
  scratch : Map Byte
  scrPoison : List Nat
  regions : List Region
  lines : Map LineSt
  slots : Map SlotEnt
  wbWaits : Option Nat
  wbStamp : Nat
  wbRefused : List Nat
  tsErr : Option TsErr
  ctxOps : Map OpSlot
  ctxCs : Map CSlot
  st : BlockSt
deriving DecidableEq, Repr

/-- One register write of a result (R30, R34): to a lane's register, its Y capture, flags or predicate, to a K, X or
H register. -/
inductive Wr where
  | reg (lane code : Nat) (r : Reg)
  | ycap (lane : Nat) (r : Reg)
  | flags (lane : Nat) (f : BitVec 6)
  | pred (lane p : Nat) (b : Bool)
  | rng (lane : Nat) (v : Word)
  | kreg (grp k : Nat) (v : Word)
  | xpos (set x p : Nat) (v : Word)
  | xtag (set x : Nat) (t : Tag)
  | hreg (grp h : Nat) (v : BitVec 512)
deriving DecidableEq, Repr

/-- A fixed-latency result in flight (R34). -/
structure FixedRes where
  id : Nat
  blk : Nat
  ready : Nat
  wrs : List Wr
deriving DecidableEq, Repr

/-- What a long-latency instruction delivers when its tag completes (R36): values fixed at issue, or a reading made at
completion. `access` waits for its memory access; `hld` is an HLD that faulted, with the instruction and its length, which is no tag but waits like
one (R250) and holds an entry of the operand log (`LongOp.logged`). -/
inductive LongBody where
  | wrs
  | access
  | copyw (seq : List (Nat × Word))
  | binrd (sel : BinSel) (reqs : List (Nat × BitVec 128 × Word))
  | fltrd (word : BitVec 2) (cons : Bool) (idx : List (Nat × Word))
  | qsc (done : Bool)
  | time (pkg : Bool)
  | hld (hr : Nat) (handle : Word) (i : Instr) (len : Nat)
deriving DecidableEq, Repr

/-- A pending tag in flight (R36 to R40): its lanes, the operand codes in flight (V codes per lane, K and X codes),
its receivers as (lane, source lane) pairs, the writes once known; `shown`: the lanes of a trap handler to which its destination
is shown as POISON, so that it completes after TRET; `deferred`: an HLD to be performed after TRET (R348). -/
structure LongOp where
  id : Nat
  blk : Nat
  die : Nat
  tag : Nat
  lanes : List Nat
  codes : List Nat
  dst : Opd
  recv : List (Nat × Nat)
  pos : List (Nat × Nat)
  groups : List Nat
  desig : Nat
  scope : Scope
  stamp : Nat
  pc : Nat
  body : LongBody
  ready : Bool
  wrs : List Wr
  shown : List Nat
  drop : List (Nat × Nat)
  waits : Option Nat
  logged : Bool
  deferred : Bool
  refused : List Nat
deriving DecidableEq, Repr

/-- Where bytes lie after translation: device memory, host memory, a block's scratchpad, a peer's exported region, or
nowhere (the error value). -/
inductive Place where
  | dev (a : Nat)
  | host (a : Nat)
  | scr (blk off : Nat)
  | peer (pos die exp gen tenant off : Nat)
  | err
deriving DecidableEq, Repr

/-- What a lane's access does (R210 to R215, R147). -/
inductive AccKind where
  | load
  | store
  | atom (op : AOp)
  | cas
  | monitor
deriving DecidableEq, Repr

/-- How far one lane's access has come (R40, R352, R353). -/
inductive Phase where
  | walk
  | placed (ps : List Place)
  | waits (rec : Nat)
  | refused (rec : Nat)
  | sent (req : Nat) (ps : List Place)
  | done
deriving DecidableEq, Repr

/-- One lane's access: its pointer, virtual address (or scratchpad offset, or peer-window address), bytes moved, store
bytes and which of them come from a POISON register, compare bytes, the bytes read and which of them are an error
value; `kept`: while it waits on a fault, the bytes with their error marks that later accesses of the lane found where they were
performed, which it takes for its own place in program order (R324, R342). -/
structure LaneAcc where
  lane : Nat
  ptr : BitVec 128
  addr : Nat
  size : Nat
  data : List Byte
  cmp : List Byte
  poison : List Bool
  phase : Phase
  got : List Byte
  bad : List Bool
  kept : List (Place × Byte × Bool) := []
deriving DecidableEq, Repr

/-- A memory access in flight (R321): the issuing instruction, its lanes' accesses, its destination. Identifiers rise
in issue order; `logged` holds an entry of the operand log. A fault record is named by die × 256 + index. -/
structure Access where
  id : Nat
  blk : Nat
  grp : Nat
  die : Nat
  stamp : Nat
  pc : Nat
  kind : AccKind
  fmt : MFmt
  regs : Nat
  width : Nat
  scope : Scope
  dst : Opd
  tag : Nat
  logged : Bool
  deferred : Bool
  las : List LaneAcc
  recv : List (Nat × Nat)
  pos : List (Nat × Nat)
  groups : List Nat
  desig : Nat
deriving DecidableEq, Repr

/-- A WAITM monitor (R147): the instruction, its scope and members, the reading lanes that no read has satisfied with
their pointer and comparison value, the time of the last read, and whether a further read is due. -/
structure Monitor where
  id : Nat
  blk : Nat
  pc : Nat
  len : Nat
  instr : Instr
  scope : Scope
  members : List Nat
  rel : WRel
  dword : Bool
  lanes : List (Nat × BitVec 128 × Word)
  readAt : Nat
  armed : Bool
deriving DecidableEq, Repr

/-- What an open memory action does (R224 to R226). -/
inductive ActKind where
  | widen | narrow | subscr | upgr
deriving DecidableEq, Repr

/-- An open memory action (R223 to R226): its lanes, and each performed range as pointer, first offset, length and new
pointer. -/
structure Action where
  id : Nat
  blk : Nat
  kind : ActKind
  lanes : List Nat
  ranges : List (BitVec 128 × Nat × Nat × BitVec 128)
deriving DecidableEq, Repr

/-- The tile store of one hardware cluster (R305, R306): slot contents and the slots claimed. -/
structure TileStore where
  ops : Map OpSlot
  cs : Map CSlot
  opUsed : List Nat
  cUsed : List Nat
deriving DecidableEq, Repr

/-- A tile operation in flight (R235, R237). -/
inductive TileKind where
  | tld (f : EFmt) (h : BitVec 512)
  | tst (h : BitVec 512)
  | tzero
  | tdrain (f : EFmt) (h : BitVec 512)
  | twin (h : BitVec 512)
  | trel
deriving DecidableEq, Repr

/-- A tile operation: its issuer, pointer and offset, local index, the physical slots, its operation record. -/
structure TileOp where
  id : Nat
  blk : Nat
  grp : Nat
  stamp : Nat
  pc : Nat
  kind : TileKind
  ptr : BitVec 128
  off : Nat
  slot : Nat
  phys : List Nat
  isC : Bool
  flagLane : Nat
  op : Nat
  groups : List Nat
  waits : Option Nat
  refused : List Nat
deriving DecidableEq, Repr

/-- A quarter in a reservation table (R314). -/
structure Quarter where
  id : Nat
  bound : Nat
  cluster : Nat
  blk : Nat
  grp : Nat
  core : Nat
  prio : Nat
  entered : Nat
  fmt : EFmt
  aPhys : List Nat
  aCfg : Option WinCfg
  aOwn : Nat
  aLocal : Nat
  aRemote : Bool
  bPhys : Nat
  bOwn : Nat
  bLocal : Nat
  bRemote : Bool
  cPhys : Nat
  cLocal : Nat
  ty : Nat
  tx : Nat
  bh : Bool
  q : Nat
  op : Nat
deriving DecidableEq, Repr

/-- A granted pass (R316, R317). -/
structure Pass where
  id : Nat
  cluster : Nat
  at_ : Nat
  quarters : List Quarter
deriving DecidableEq, Repr

/-- Where a copy command stands (R256, R262, R308); `letGo`: released, its check waits for a line of the import table. -/
inductive CopySt where
  | held
  | letGo
  | released (n : Nat)
  | queued
  | active
deriving DecidableEq, Repr

/-- An accepted copy command (R254 to R258, R308). `dslots` are the physical slots of a slot destination; `op` is the
operation its stamp counts (R232). -/
structure Copy where
  id : Nat
  blk : Nat
  die : Nat
  core : Nat
  grp : Nat
  pc : Nat
  op : Option Nat
  lanes : List Nat
  ord : Nat
  stamp : Nat
  seq : Nat
  src : BitVec 128
  ctl : Word
  len : Word
  dslots : List Nat
  st : CopySt
  wp : Nat
  bad : Option Nat
  waits : Option Nat
  refused : List Nat
deriving DecidableEq, Repr

/-- A published ring entry not yet accepted (R232, R253, R256): its issuer, the operation its stamp counts, and the slot
table of the block as it stood at the publication. -/
structure RingRec where
  blk : Nat
  seq : Nat
  grp : Nat
  op : Option Nat
  pc : Nat
  lanes : List Nat
  ord : Nat
  slots : Map SlotEnt
deriving DecidableEq, Repr

/-- A COPY or COPYX under way at its instruction (R232, R253): the cohort or rendezvous, its operation, the lanes whose
entries are published with the sequence number of each. -/
structure Pub where
  blk : Nat
  coh : Nat
  op : Option Nat
  done : List (Nat × Nat)
deriving DecidableEq, Repr

/-- What an append does (R266, R267): an entry of a send list, or a header of a launch queue. -/
inductive AppendKind where
  | send (cb src : BitVec 128) (dst len : Word)
  | launch (q hdr : Nat)
deriving DecidableEq, Repr

/-- A SENDL or LAUNCH of one lane under way (R235, R266, R267): its operation, the lanes whose earlier accesses it follows, the fault
record it waits on, the pages refused. -/
structure Append where
  id : Nat
  blk : Nat
  grp : Nat
  die : Nat
  pc : Nat
  kind : AppendKind
  lane : Nat
  issuers : List Nat
  stamp : Nat
  op : Nat
  waits : Option Nat
  refused : List Nat
deriving DecidableEq, Repr

/-- A patch (with its value) or a release that reached held copies of a saved block, applied at restore (R262). -/
structure Reach where
  blk : Nat
  handle : Nat
  value : Option Nat
deriving DecidableEq, Repr

/-- A TLBX whose removed translations are still used by these lanes of accesses (R273). -/
structure Drain where
  id : Nat
  blk : Nat
  accs : List (Nat × Nat)
deriving DecidableEq, Repr

/-- A bin command received by a die's engine (R260). -/
structure BinCmd where
  id : Nat
  blk : Nat
  grp : Nat
  stamp : Nat
  pc : Nat
  kind : BinOp
  ptr : BitVec 128
  key : Word
  item : Word
  op : Nat
  lanes : List Nat
  waits : Option Nat
  refused : List Nat
deriving DecidableEq, Repr

/-- A send-list entry accepted by a transfer engine (R265, R428): its issuer as (block, group, address, issue), the list it
belongs to as die and virtual address, the bytes whose sending has begun and those acknowledged; `ending`: its end is being written to the
list. -/
structure SendEnt where
  id : Nat
  die : Nat
  stamp : Nat
  list : Nat
  seq : Nat
  issuer : Option (Nat × Nat × Nat × Nat)
  src : BitVec 128
  dst : Word
  len : Word
  held : Bool
  failed : Bool
  bad : Option Nat
  sent : Nat
  acks : List Nat
  stamping : Bool
  ending : Bool
  done : Bool
  waits : Option Nat
  refused : List Nat
deriving DecidableEq, Repr

/-- An entry appended and not yet accepted (R265, R433): its issuer and the issue of its SENDL, its length word, the patches and releases
that have reached it. -/
structure SendIss where
  seq : Nat
  blk : Nat
  grp : Nat
  pc : Nat
  op : Nat
  len : Word
  reach : List (Option Nat)
deriving DecidableEq, Repr

/-- A send list known to a transfer engine (R265): its control block, the entries appended and not yet accepted. -/
structure SendList where
  die : Nat
  ptr : BitVec 128
  addr : Nat
  stopped : Bool
  waits : Option Nat
  stamp : Nat
  issuers : List SendIss
deriving DecidableEq, Repr

/-- A launch queue in service (R370 to R375): the link watched, headers read and refused since enabling, the fault record
waited on, the quiescence counter when it began to wait (R399), pages refused. -/
structure Queue where
  link : Nat
  nread : Nat
  nref : Nat
  waits : Option Nat
  stamp : Nat
  refused : List Nat
deriving DecidableEq, Repr

/-- An unfinished launch (R376 to R388); `stamp`: the quiescence counter when its completion word began to wait (R399). -/
structure Launch where
  id : Nat
  die : Nat
  queue : Nat
  hdr : Nat
  code : Nat
  args : Word
  shape : Word
  lres : Word
  extents : List Nat
  cword : Nat
  cseq : Word
  cscope : Nat
  pctl : Word
  pval : Nat
  reads : List (Nat × Nat)
  writes : List (Nat × Nat)
  regions : List Region
  after : List Nat
  held : Bool
  suspended : Bool
  placed : Nat
  live : List Nat
  readyAt : Option Nat
  aged : Bool
  waits : Option Nat
  stamp : Nat
  refused : List Nat
deriving DecidableEq, Repr

/-- A fault record (R395). Word 0's KINDS byte, the page bitmap, first fault's time, count; state 0 free, 1 open,
2 consumed; the waiters. -/
structure FaultRec where
  block : Nat
  kinds : BitVec 8
  st : Nat
  bitmap : Word
  first : Word
  count : Nat
  waiters : Nat
deriving DecidableEq, Repr

/-- A fault that waits for a record to free (R396): the number its waiters wait on, the die, the address, the kind bits, how many
wait. -/
structure LateFault where
  no : Nat
  die : Nat
  va : Nat
  kind : Nat
  waiters : Nat
deriving DecidableEq, Repr

/-- A write of the die's own that is still to be performed: its number, who translates, the address, the bytes, and whether the
error log records that it is skipped (R396), the quiescence counter at its issue (R399): the mirror of a fault record, a queue's
counts, a refused header's completion word, a patched header's fields. -/
structure Posted where
  no : Nat
  view : Nat
  va : Nat
  bytes : List Byte
  logged : Bool
  stamp : Nat
deriving DecidableEq, Repr

/-- A translation held (R393, R394): its holder (die + 4 × (1 + core), or the die's own number for its engines), page address
and size, leaf, the counter read when its walk began. -/
structure TlbEnt where
  holder : Nat
  va : Nat
  size : Nat
  leaf : Word
  stamp : Nat
deriving DecidableEq, Repr

/-- An import entry that a holder keeps (R414): the slot, its four words, the counter read when it was fetched. -/
structure ImportEnt where
  holder : Nat
  slot : Nat
  words : List Word
  stamp : Nat
deriving DecidableEq, Repr

/-- An error-log entry (R458). -/
structure ErrEnt where
  w0 : Word
  w1 : Word
  w2 : Word
  w3 : Word
deriving DecidableEq, Repr

/-- The states of a host line (R420). -/
inductive Moesi where
  | m | o | e | s | i
deriving DecidableEq, Repr

/-- One half of a 128-byte line of host memory in the device's directory (R420), with the die that owns it. -/
structure HalfSt where
  st : Moesi
  owner : Nat
deriving DecidableEq, Repr

/-- A directory entry of a 128-byte line of host memory: the two host lines of 64 bytes in it (R420). -/
structure HostDir where
  line : Nat
  lo : HalfSt
  hi : HalfSt
deriving DecidableEq, Repr

/-- An entry of an I/O die's host-line filter (R421): a host line of 64 bytes and the dies that hold it; `lost`: its modified bytes were
lost in a reset (R455). -/
structure HostLine where
  line : Nat
  dies : List Nat
  lost : Bool
deriving DecidableEq, Repr

/-- A compute die and its logical device: registers (R96, R97, R193, R249, R346, R370, R389, R410), fault records,
error log, quiescence counter, queues, power and management registers (R440, R445). -/
structure Die where
  privap : Word
  saveap : Word
  shtab : Word
  defctl : Word
  defseed : Word
  tvec : Word
  tframe : Word
  ptroot : Word
  fltbase : Word
  prewin : Word
  imptab : Word
  exptab : Word
  leasectl : Word
  qctl : Map Word
  queues : Map Queue
  faults : Map FaultRec
  log : Map ErrEnt
  logNext : Nat
  logLost : Nat
  quiesce : Nat
  halted : Bool
  time : Word
  msixAt : Option Nat
  msixDue : Bool
  msix : List Nat
  fcomp : Word
  fkeep : Word
  finvl : Word
  fpush : Word
  pwrTarget : BitVec 2
  pwrState : BitVec 2
  d2At : Word
  temp : BitVec 16
  power : BitVec 16
  throt : BitVec 16
  throttled : Bool
deriving DecidableEq, Repr

/-- A port group (R423, R445, R459, R460): the ports it retrains for, when its stall began, when it last came into service. -/
structure PortGroup where
  retrains : BitVec 8
  up : BitVec 9
  spare : Bool
  gstate : BitVec 2
  failing : List Nat
  stallAt : Nat
  resumedAt : Nat
deriving DecidableEq, Repr

/-- A peer as this device sees it (R424 to R426, R461): lost, sequence number and epoch towards it, the highest number
accepted from it in its epoch and the numbers accepted, and the pod time of the last message from it or of the loss of the last group that
faced it (`heard`). -/
structure Peer where
  lost : Bool
  departed : Bool
  seq : Nat
  epoch : BitVec 8
  rxEpoch : BitVec 8
  rxHigh : Nat
  rxSeen : List Nat
  heard : Nat
deriving DecidableEq, Repr

/-- A lease granted by this device as home (R412, R417): line, holder's pod position and die, end field, facet code (7: none) and
storage format, push mode; `ended`: a push holder whose lease ended while a store waited (R418);
`asked`: the sequence number of a revocation on its way, 0 without one. -/
structure Lease where
  line : Nat
  pos : BitVec 4
  die : Nat
  fin : Nat
  facet : Nat
  sfmt : Nat
  push : Bool
  ended : Bool
  asked : Nat
deriving DecidableEq, Repr

/-- A sharer that the home directory, or for a line of host memory the host-line filter (R80, R93), records for a line: holder
core (die × 192 + core), facet code (7: held at the storage format), storage format code, push mode. -/
structure Sharer where
  host : Bool
  line : Nat
  core : Nat
  facet : Nat
  sfmt : Nat
  push : Bool
deriving DecidableEq, Repr

/-- Stores of one instance's cores to a line of device or host memory through pointers of core, cluster or die scope (1 to 3) that are
not yet published: the line's bytes before them, which a weak load from outside their instance may still return (R332), and the cores
that stored. -/
structure Unpub where
  host : Bool
  line : Nat
  old : List Byte
  scope : Nat
  cores : List Nat
deriving DecidableEq, Repr

/-- Bytes of a line of a peer that an LLC slice of a die holds (R416): the peer and its line, how the bytes are named there, the facet
pair asked for (15: none), the end of the lease (none: ordinary ownership), and whether the line is held exclusively, for stores that are
still to be written back. -/
structure RemoteLine where
  die : Nat
  pos : Nat
  ddie : Nat
  expidx : Nat
  tenant : Nat
  egen : Nat
  off : Nat
  bytes : List Byte
  line : Nat
  facet : Nat
  lease : Option Nat
  excl : Bool
  bad : Bool
deriving DecidableEq, Repr

/-- What a fabric request serves: a lane of an access, a line of an engine operation, payload bytes of a send entry from an
offset, its stamp, the writing back of a line, after which an invalidation is acknowledged, or the home's taking back of a line from a
holder or a leaseholder. -/
inductive ReqFor where
  | back (inval : Option Msg)
  | lane (acc lane : Nat)
  | send (ent off : Nat)
  | eng (op pos off : Nat)
  | stamp (ent : Nat)
  | recall (line pos die : Nat)
deriving DecidableEq, Repr

/-- A line of a peer that an engine operation reads or writes through the fabric: its reply, once it has come. -/
structure EngLine where
  op : Nat
  pos : Nat
  off : Nat
  got : Option (List Byte × Bool)
deriving DecidableEq, Repr

/-- A fabric request awaiting its reply (R426): its sequence number and destination, what it serves, when it was sent, and
the hop it left by, and whether what its reply brings may be kept (R416). -/
structure Request where
  seq : Nat
  dest : Nat
  epoch : BitVec 8
  serves : ReqFor
  msg : Msg
  sentAt : Word
  hop : Nat
  keep : Bool
deriving DecidableEq, Repr

/-- A request of a peer that waits (R337, R415): on a fault record (die × 256 + index), or for one of the reasons
`pwFull`, `pwRetry`, `pwWoken`; the quiescence counter when it began to wait (R399). -/
structure PeerWait where
  msg : Msg
  die : Nat
  frec : Nat
  stamp : Nat
deriving DecidableEq, Repr

/-- A peer device that holds a line of this device under ordinary ownership (R412, R416): exclusively or not, and the
sequence number of an invalidation on its way to it, 0 without one. -/
structure Holder where
  line : Nat
  pos : Nat
  die : Nat
  excl : Bool
  asked : Nat
deriving DecidableEq, Repr

/-- A store that waits for leases (R337). -/
structure LeaseWait where
  line : Nat
  acc : Nat
deriving DecidableEq, Repr

/-- What the package sends out to the host or reports (MSI-X, snoop replies, read data, error responses, requests for host lines and their
write-backs, an SPDM answer with its signature), and the bytes of send entries to scale-out endpoints (R429). -/
inductive HostMsg where
  | data (addr : Nat) (body : List Byte) (poison : Bool)
  | abort (addr : Nat)
  | written (addr : Nat)
  | snoopReply (line : Nat) (dirty : Option (List Byte)) (poison : Bool)
  | backInvalidate (line : Nat)
  | msix (die vec : Nat)
  | endpoint (iod port : Nat) (handle : Word) (ent off : Nat) (body : List Byte) (poison : Bool)
  | hostRequest (line : Nat) (own : Bool)
  | hostWriteBack (line : Nat) (body : List Byte) (poison : Bool)
  | measurement (digests : List (BitVec 512)) (versions : List Nat) (sig : List Byte)
deriving DecidableEq, Repr

/-- A start under way (R446): warm, with DRAM held in self-refresh, the dies that pass their self-test, and the
dies in service before. -/
structure Boot where
  warm : Bool
  sref : Bool
  dies : BitVec 4
  was : BitVec 4
deriving DecidableEq, Repr

/-- The issuing context of an encoded instruction: block, cohort, hardware group, lanes (block indices), address,
length, and whether its rendezvous has completed. -/
structure Ctx where
  blk : Nat
  coh : Nat
  grp : Nat
  lanes : List Nat
  pc : Nat
  len : Nat
  wide : Bool
  members : List Nat
  order : List Nat
deriving DecidableEq, Repr

/-- A pick of an issue partition that waits to execute: a cohort of a block, or a completed rendezvous; and, after the cohorts of
a pick, the end of the pick: the partition (die, core, number), the group's place, its block and the cohorts picked with the
addresses they stood at. -/
inductive PortEnt where
  | cohort (blk coh : Nat)
  | rdv (blk rdv : Nat)
  | picked (die core part place blk : Nat) (cohs : List (Nat × Nat))
deriving DecidableEq, Repr

/-- The machine. -/
structure State where
  dies : List Die
  capStep : BitVec 8
  capGrade : BitVec 2
  dieMask : BitVec 4
  podpos : Word
  ivtab0 : Word
  ivtab1 : Word
  kvmap : List (BitVec 8)
  podSkew : BitVec 16
  ptcSkew : BitVec 16
  joined : Bool
  podTime : Word
  bootStep : BitVec 8
  fusedOff : BitVec 4
  warm : Bool
  bootState : BitVec 2
  boot : Option Boot
  images : List Image
  digests : List (BitVec 512)
  fuseKey : BitVec 512
  fuseMin : List Nat
  coeffs : List Word
  retwin : Word
  scrubctl : Word
  fabDrop : Word
  pwrcap : Word
  capThrottled : Bool
  quiesceDone : Bool
  quiescing : Bool
  left : List Nat
  kgs : List PortGroup
  peers : List Peer
  dmem : List Host.Cell
  hmem : List Host.Cell
  dpoison : List Nat
  hpoison : List Nat
  hostLinks : BitVec 2
  hostHeld : List Nat
  hostAsked : List Nat
  filter : List HostLine
  hostDir : List HostDir
  leases : List Lease
  leaseWaits : List LeaseWait
  holders : List Holder
  sharers : List Sharer
  unpub : List Unpub
  remotes : List RemoteLine
  tlb : List TlbEnt
  imports : List ImportEnt
  lateFaults : List LateFault
  posted : List Posted
  waitVa : Map Nat
  wanted : List Nat
  blocks : List Block
  stores : Map TileStore
  launches : List Launch
  qturn : List Nat
  fixed : List FixedRes
  longs : List LongOp
  accs : List Access
  monitors : List Monitor
  actions : List Action
  tileOps : List TileOp
  quarters : List Quarter
  lastGrant : Map Nat
  passes : List Pass
  rings : List RingRec
  copies : List Copy
  coreRing : Map Nat
  bins : List BinCmd
  binOpen : Map (List Nat)
  sendLists : List SendList
  sends : List SendEnt
  pubs : List Pub
  appends : List Append
  exchanged : List Nat
  picked : List Nat
  drains : List Drain
  reach : List Reach
  requests : List Request
  engLines : List EngLine
  peerWaits : List PeerWait
  outbox : List (Nat × Msg)
  wire : List (Nat × Msg)
  hostWait : List Instr
  hostTurn : Bool
  hostOut : List HostMsg
  lanesUsed : Map (List Nat)
  port : List PortEnt
  cur : Option Ctx
  agenda : List Instr
  turn : Nat
  rr : Map Nat
  nextId : Nat
  cycle : Nat
  free : Nat
deriving DecidableEq, Repr

/-- Why the machine stops with a fault. -/
inductive Fault where
  /-- Raised by an encoded instruction executed while no cohort is issuing (`cur` names no resident block). Safe: the
  step sets `cur` before it executes, so no run reaches it. -/
  | noContext
deriving DecidableEq, Repr

/-- Why the model gives no next state. -/
inductive Refusal where
  /-- Answered by the arm of an instruction that has no meaning yet. Safe: nothing follows. -/
  | notModelled (mnemonic : String)
deriving DecidableEq, Repr

/-- A compute die after reset. -/
def Die.reset : Die :=
  { privap := 0, saveap := 0, shtab := 0, defctl := 0, defseed := 0, tvec := 0, tframe := 0, ptroot := 0,
    fltbase := 0, prewin := 200, imptab := 0, exptab := 0, leasectl := 4000, qctl := [], queues := [],
    faults := [], log := [], logNext := 0, logLost := 0, quiesce := 0, halted := false, time := 0,
    msixAt := none, msixDue := false, msix := [], fcomp := 0, fkeep := 0, finvl := 0, fpush := 0, pwrTarget := 0,
    pwrState := 0, d2At := 0, temp := 0, power := 0, throt := 0, throttled := false }

/-- The interleave table with all four dies in service: entry h names die h mod 4 (R411, R450). -/
def ivtabReset : Word := 0xE4E4E4E4E4E4E4E4

/-- The machine after a completed start (R446): every register at its reset value, device memory zero, no block. -/
def State.reset : State :=
  { dies := List.replicate 4 Die.reset, capStep := Config.step, capGrade := Config.grade, dieMask := 0xF,
    podpos := 0, ivtab0 := ivtabReset, ivtab1 := ivtabReset, kvmap := List.replicate 16 0, podSkew := 0xFFFF,
    ptcSkew := 0xFFFF, joined := false, podTime := 0, bootStep := 10, fusedOff := 0, warm := false, bootState := 0, boot := none,
    images := Config.images, digests := Config.digests, fuseKey := Config.fuseKey, fuseMin := Config.fuseMin, coeffs := Config.coeffs,
    retwin := 50, scrubctl := 24, fabDrop := 0, pwrcap := 3200, capThrottled := false, quiesceDone := false,
    quiescing := false, left := [],
    kgs := List.replicate 16 ⟨0, 0, false, 3, [], 0, 0⟩,
    peers := List.replicate 16 ⟨true, false, 0, 0, 0, 0, [], 0⟩,
    dmem := [], hmem := [], dpoison := [], hpoison := [], hostLinks := 3, hostHeld := [], hostAsked := [], filter := [],
    hostDir := [], leases := [], leaseWaits := [], holders := [], sharers := [], unpub := [], remotes := [], tlb := [],
    imports := [], lateFaults := [], posted := [], waitVa := [], wanted := [], blocks := [], stores := [], launches := [],
    qturn := [0, 0, 0, 0], fixed := [],
    longs := [], accs := [], monitors := [], actions := [], tileOps := [], quarters := [], lastGrant := [],
    passes := [], rings := [], copies := [], coreRing := [], bins := [], binOpen := [], sendLists := [], sends := [],
    pubs := [], appends := [], exchanged := [], picked := [], drains := [], reach := [], requests := [], engLines := [],
    peerWaits := [], outbox := [], wire := [], hostWait := [], hostTurn := false, hostOut := [], lanesUsed := [], port := [],
    cur := none, agenda := [], turn := 0, rr := [], nextId := 0, cycle := 0, free := 0 }

end Sys2Proof.Machine
end

