-- ==== Sys2Proof/Machine/Sparse.lean ====
section
/-! DEFINITION. Sparse maps in canonical form, and lists of records found by identifier. -/

namespace Sys2Proof.Machine

/-- Look a key up; `d` is what an unlisted key reads as. -/
def Sparse.get {α : Type} (d : α) : Map α → Nat → α
  | [], _ => d
  | (k', v) :: m, k => if k = k' then v else if k < k' then d else Sparse.get d m k

/-- Write a key, keeping keys rising and listing no default. -/
def Sparse.set {α : Type} [DecidableEq α] (d : α) : Map α → Nat → α → Map α
  | [], k, v => if v = d then [] else [(k, v)]
  | (k', v') :: m, k, v =>
    if k < k' then (if v = d then (k', v') :: m else (k, v) :: (k', v') :: m)
    else if k = k' then (if v = d then m else (k, v) :: m)
    else (k', v') :: Sparse.set d m k v

/-- Every key is above `lo` and keys rise, no entry is the default. -/
def Sparse.wfFrom {α : Type} [DecidableEq α] (d : α) : Nat → Map α → Bool
  | _, [] => true
  | lo, (k, v) :: m => lo ≤ k && v != d && Sparse.wfFrom d (k + 1) m

/-- The canonical form. -/
def Sparse.wf {α : Type} [DecidableEq α] (d : α) (m : Map α) : Bool := Sparse.wfFrom d 0 m

/-- Look up a key of a map without a default. -/
def Sparse.find? {α : Type} (m : Map α) (k : Nat) : Option α := (m.find? (·.1 == k)).map (·.2)

/-- Insert or replace a key of a map without a default. -/
def Sparse.put {α : Type} : Map α → Nat → α → Map α
  | [], k, v => [(k, v)]
  | (k', v') :: m, k, v =>
    if k < k' then (k, v) :: (k', v') :: m else if k = k' then (k, v) :: m else (k', v') :: Sparse.put m k v

/-- Remove a key. -/
def Sparse.erase {α : Type} (m : Map α) (k : Nat) : Map α := m.filter (·.1 != k)

/-- Remove every key at or above `lo` and below `hi`. -/
def Sparse.clear {α : Type} (m : Map α) (lo hi : Nat) : Map α := m.filter fun e => e.1 < lo || hi ≤ e.1

/-- Consecutive writes from key `k`. -/
def Sparse.setList {α : Type} [DecidableEq α] (d : α) (m : Map α) (k : Nat) : List α → Map α
  | [] => m
  | v :: vs => Sparse.setList d (Sparse.set d m k v) (k + 1) vs

/-- Consecutive reads from key `k`. -/
def Sparse.getList {α : Type} (d : α) (m : Map α) (k : Nat) : Nat → List α
  | 0 => []
  | n + 1 => Sparse.get d m k :: Sparse.getList d m (k + 1) n

/-- Update the entries a test picks. -/
def updWhere {α : Type} (p : α → Bool) (f : α → α) (l : List α) : List α := l.map fun a => if p a then f a else a

/-- The lowest key of `0 .. n-1` not in a list. -/
def lowestFree (used : List Nat) (n : Nat) : Option Nat := (List.range n).find? fun k => !used.contains k

end Sys2Proof.Machine
end

