-- ==== Sys2Proof/Machine/Mem.lean ====
section
/-! DEFINITION. Bytes of memory, poison, blocks by number, translation, fault records and the error log (R56, R297,
R357, R390 to R398, R411, R458). -/

namespace Sys2Proof.Machine

/-! ## Blocks, lanes, groups -/

def State.block? (s : State) (id : Nat) : Option Block := s.blocks.find? (·.id == id)

def State.setBlock (s : State) (b : Block) : State := { s with blocks := updWhere (·.id == b.id) (fun _ => b) s.blocks }

def State.modBlock (s : State) (id : Nat) (f : Block → Block) : State :=
  { s with blocks := updWhere (·.id == id) f s.blocks }

/-- A lane outside every block's lanes: exited, all zero. -/
def Lane.empty : Lane :=
  { regs := [], void := 0, p := 0, flags := 0, rng := 0, wid := 0, winCore := 0, winLane := 0, pc := 0,
    run := ⟨0, 0, 0, []⟩, st := .exited, phys := 0, since := 0 }

def Group.empty : Group :=
  { k := [], h := [], hPend := [], ctl := 0, ops := [], sysMode := false, sysLaunch := false, raised := none,
    frame := none, refusals := [], broken := [], part := 0, pslot := 0, heldBy := none, due := [] }

def Block.lane (b : Block) (l : Nat) : Lane := b.lanes.getD l Lane.empty
def Block.group (b : Block) (g : Nat) : Group := b.groups.getD g Group.empty

def Block.modLanes (b : Block) (p : Nat → Bool) (f : Nat → Lane → Lane) : Block :=
  { b with lanes := b.lanes.mapIdx fun i l => if p i then f i l else l }

def Block.modGroup (b : Block) (g : Nat) (f : Group → Group) : Block := { b with groups := b.groups.modify g f }

def Lane.exited (l : Lane) : Bool := l.st == .exited

/-- The non-exited lanes of a group, ascending. -/
def Block.live (b : Block) (g : Nat) : List Nat :=
  (List.range 32).map (32 * g + ·) |>.filter fun l => !(b.lane l).exited

def Block.setOf (b : Block) (g : Nat) : Option GSet := b.sets.find? fun t => t.members.contains g

/-- A compute die in service (R4). -/
def State.inService (s : State) (d : Nat) : Bool := s.dieMask.getLsbD d

def State.die (s : State) (d : Nat) : Die := s.dies.getD d Die.reset
def State.modDie (s : State) (d : Nat) (f : Die → Die) : State := { s with dies := s.dies.modify d f }

/-- A fresh identifier. -/
def State.fresh (s : State) : Nat × State := (s.nextId, { s with nextId := s.nextId + 1 })

/-- The next free value. -/
def State.freeVal (s : State) : Word × State := (Config.freeWord s.free, { s with free := s.free + 1 })

/-! ## Memory (R411: one space of bytes, interleaved over the dies; the interleave is invisible) -/

/-- Bytes of device memory with k dies in service (R450). -/
def capacityOf (mask : BitVec 4) : Nat :=
  match popcount 4 mask.toNat with
  | 4 => 256 * 2 ^ 30
  | 3 => 186 * 2 ^ 30
  | 2 => 128 * 2 ^ 30
  | 1 => 64 * 2 ^ 30
  | _ => 0

def State.capacity (s : State) : Nat := capacityOf s.dieMask

/-- The home die of a physical address (R411). -/
def State.homeDie (s : State) (a : Nat) : Nat :=
  let h := (bits a 17 12).xor ((bits a 23 18).xor (bits a 27 24))
  if h < 32 then bits s.ivtab0.toNat (2 * h + 1) (2 * h) else bits s.ivtab1.toNat (2 * (h - 32) + 1) (2 * (h - 32))

/-- Insert into a rising list without repeats. -/
def insertLine (l : Nat) : List Nat → List Nat
  | [] => [l]
  | x :: xs => if l < x then l :: x :: xs else if l = x then x :: xs else x :: insertLine l xs

/-- What an unlisted byte reads as: zero, as a start leaves it (R446); host memory zero (DESIGN CHOICE, log 3). -/
def memDefault : Byte := 0

def Memory.read (m : List Host.Cell) (a : Nat) : Byte := Sparse.get memDefault m a
def Memory.write (m : List Host.Cell) (a : Nat) (v : Byte) : List Host.Cell := Sparse.set memDefault m a v

/-- The canonical form of a memory. -/
def Memory.wf (m : List Host.Cell) : Bool := Sparse.wf memDefault m

def Memory.readN (m : List Host.Cell) (a n : Nat) : List Byte := Sparse.getList memDefault m a n
def Memory.writeN (m : List Host.Cell) (a : Nat) (bs : List Byte) : List Host.Cell := Sparse.setList memDefault m a bs

/-- A place k bytes further on. -/
def Place.add : Place → Nat → Place
  | .dev a, k => .dev (a + k)
  | .host a, k => .host (a + k)
  | .scr b o, k => .scr b (o + k)
  | .peer p d e g t o, k => .peer p d e g t (o + k)
  | .err, _ => .err

/-- Is the byte's line poisoned, out of reach, or a host line whose modified bytes were lost in a reset (R357, R455, R461)? -/
def State.badByte (s : State) : Place → Bool
  | .dev a => s.dpoison.contains (a / 128)
  | .host a => s.hpoison.contains (a / 128) || !s.hostLinks.getLsbD (bits a 12 12) || s.filter.any fun h => h.lost && h.line == a / 64
  | .scr b o => ((s.block? b).map fun bl => bl.scrPoison.contains (o / 128)).getD true
  | _ => true

/-- The byte of a place that states none: a poisoned line, whose stale bytes no read returns (R357), or a physical address at or
beyond the capacity (R411). A free value (log 65). -/
def State.lostByte (s : State) (a : Nat) : Byte := Config.lostByte s.free s.nextId a

/-- A byte as a reader finds it. -/
def State.readByte (s : State) (p : Place) : Byte :=
  match p with
  | .dev a => if s.badByte p || s.capacity ≤ a then s.lostByte a else Memory.read s.dmem a
  | .host a => if s.badByte p then s.lostByte a else Memory.read s.hmem a
  | .scr b o => if s.badByte p then s.lostByte o else ((s.block? b).map fun bl => Sparse.get 0 bl.scratch o).getD 0
  | _ => 0xFF

/-- A physical address at or beyond the capacity holds no byte, so a write there changes nothing (log 65). -/
def State.writeByte (s : State) (p : Place) (v : Byte) : State :=
  match p with
  | .dev a => if s.capacity ≤ a then s else { s with dmem := Memory.write s.dmem a v }
  | .host a => if s.hostLinks.getLsbD (bits a 12 12) then { s with hmem := Memory.write s.hmem a v } else s
  | .scr b o => s.modBlock b fun bl => { bl with scratch := Sparse.set 0 bl.scratch o v }
  | _ => s

/-- Mark or unmark the line of a place (R357). -/
def State.setPoison (s : State) (p : Place) (on : Bool) : State :=
  let upd (l : List Nat) (k : Nat) := if on then insertLine k l else l.filter (· != k)
  match p with
  | .dev a => if s.capacity ≤ a then s else { s with dpoison := upd s.dpoison (a / 128) }
  | .host a =>
    { s with hpoison := upd s.hpoison (a / 128),
             filter := if on then s.filter else updWhere (·.line / 2 == a / 128) (fun h => { h with lost := false }) s.filter }
  | .scr b o => s.modBlock b fun bl => { bl with scrPoison := upd bl.scrPoison (o / 128) }
  | _ => s

/-- The place within its 128-byte line. -/
def Place.lineOff : Place → Nat
  | .dev a => a % 128
  | .host a => a % 128
  | .scr _ o => o % 128
  | _ => 1

/-- Bytes k, k+1, … of a list of places. -/
def State.readPlaces (s : State) (ps : List Place) : List Byte := ps.map s.readByte

def State.writeBytes (s : State) : List (Place × Byte) → State
  | [] => s
  | (p, v) :: r => (s.writeByte p v).writeBytes r

/-- Store bytes at places; a line all of whose 128 bytes one store covers becomes sound (R357). -/
def State.storeRaw (s : State) (pv : List (Place × Byte)) : State :=
  let heads := pv.filterMap fun (p, _) =>
    if p.lineOff == 0 && ((List.range 128).all fun k => pv.any fun (q, _) => q == p.add k) then some p else none
  heads.foldl (fun t p => t.setPoison p false) (s.writeBytes pv)

/-! ## The home directory: facet sharers and backed lines (R79, R80, R93, R94, R300, R440) -/

/-- One element converted between formats, non-saturating RNE where it narrows (R92). -/
def convElem (a b : Tag) (x : Nat) : Deliv :=
  if a == b || a.isInt then (x, 0) else (FF.ofTag b).deliver .rne false 0 ((FF.ofTag a).value x)

/-- The format of a facet code (R79). -/
def facetTag : Nat → Tag
  | 0 => .fp32 | 1 => .bf16 | 2 => .fp16 | 3 => .e4m3 | _ => .e5m2

/-- Does a facet of a line tell its old and new bytes apart (R80)? Only elements written in part or whole count; code 7
compares every byte. -/
def disturbs (facet sfmt : Nat) (old new : List Byte) (written : List Nat) : Bool :=
  if facet = 7 then old != new
  else
    let a := facetTag sfmt
    let w := a.width / 8
    (List.range (128 / w)).any fun j =>
      let at_ (l : List Byte) : Nat := ofBytes ((l.drop (w * j)).take w)
      written.any (fun k => k / w == j) &&
        (convElem a (facetTag facet) (at_ old)).1 != (convElem a (facetTag facet) (at_ new)).1

/-- The bytes of a line of device memory, or of host memory. -/
def State.lineBytes (s : State) (host : Bool) (line : Nat) : List Byte :=
  Memory.readN (if host then s.hmem else s.dmem) (128 * line) 128

/-- The addresses of a store in device memory, or in host memory. -/
def sideAddrs (host : Bool) (pv : List (Place × Byte)) : List Nat :=
  pv.filterMap fun (p, _) => match p with
    | .dev a => if host then none else some a
    | .host a => if host then some a else none
    | _ => none

/-- The lines of device memory, or of host memory, that a store writes, with the offsets written. -/
def sideLines (host : Bool) (pv : List (Place × Byte)) : List (Nat × List Nat) :=
  let as := sideAddrs host pv
  (as.map (· / 128)).eraseDups.map fun l => (l, (as.filter fun a => a / 128 == l).map (· % 128))

/-- The device lines a store writes, with the offsets written. -/
def devLines (pv : List (Place × Byte)) : List (Nat × List Nat) := sideLines false pv

/-- The comparator's work for one line after a store (R80, R440): counters, and the sharers that remain. A line of host memory is
compared at its I/O die's filter, which no counter of a die counts. Facets under lease at other devices count as they stand: one that the
store disturbs has ended before it (R337, R418). -/
def State.compareLine (s : State) (core : Option Nat) (host : Bool) (old : List Byte) (line : Nat) (written : List Nat) : State :=
  let new := s.lineBytes host line
  let on (h : Sharer) : Bool := h.host == host && h.line == line
  let others := s.sharers.filter fun h => on h && some h.core != core
  let facets := others.filter (·.facet != 7)
  let hit (h : Sharer) : Bool := disturbs h.facet h.sfmt old new written
  let leased := if host then [] else s.leases.filter fun e => e.line == line && e.facet != 7
  let keeps (e : Lease) : Bool := !disturbs e.facet e.sfmt old new written
  let kept := ((facets.filter (!hit ·)).map (·.facet) ++ (leased.filter keeps).map (·.facet)).eraseDups.length
  let lost := facets.filter hit
  let s1 := if (facets.isEmpty && leased.isEmpty) || host then s else s.modDie (s.homeDie (128 * line)) fun d =>
    { d with fcomp := d.fcomp + 1, fkeep := d.fkeep + BitVec.ofNat 64 kept,
             finvl := d.finvl + BitVec.ofNat 64 (lost.filter (!·.push)).length,
             fpush := d.fpush + BitVec.ofNat 64 (lost.filter (·.push)).length }
  let gone (h : Sharer) : Bool := on h && some h.core != core && hit h && !(h.facet != 7 && h.push)
  let own (h : Sharer) : Sharer := if on h && some h.core == core then { h with facet := 7 } else h
  { s1 with sharers := (s1.sharers.filter (!gone ·)).map own }

/-- Mark stale every filled backed line of the granules written (R300). -/
def State.markStale (s : State) (granules : List Nat) : State :=
  { s with blocks := s.blocks.map fun b =>
      { b with lines := b.lines.map fun (k, l) => (k, if granules.contains l.back then { l with stale := true } else l) } }

/-- The region and backing address of a scratchpad line. -/
def Block.backing (b : Block) (line : Nat) : Option (Region × Nat) :=
  (b.regions.find? fun r => r.soff ≤ 128 * line && 128 * line < r.soff + 4096 * r.len4k).map fun r =>
    (r, r.backing + (128 * line - r.soff))

/-- Set the dirty mask bits of the backed lines that a store to scratchpad writes (R299). A line still to be filled takes its other
bytes later. -/
def State.markDirty (s : State) (pv : List (Place × Byte)) : State :=
  pv.foldl (fun s (p, _) => match p with
    | .scr b o => s.modBlock b fun bl =>
        if (bl.backing (o / 128)).isNone then bl
        else
          let l := (Sparse.find? bl.lines (o / 128)).getD ⟨true, 0, 2 ^ 64⟩
          { bl with lines := Sparse.put bl.lines (o / 128) { l with dirty := l.dirty ||| BitVec.ofNat 128 (2 ^ (o % 128)) } }
    | _ => s) s

/-! ## The copy ring's words (R253) -/

/-- A byte of a block's scratchpad: of a poisoned line a free value, never the stale byte (R357, log 65). -/
def Block.scrByte (b : Block) (o : Nat) : Byte :=
  if b.scrPoison.contains (o / 128) then Config.lostByte b.resides b.id o else Sparse.get 0 b.scratch o

def Block.scrWord (b : Block) (o : Nat) : Nat := ofBytes ((List.range 8).map fun k => b.scrByte (o + k))
def Block.setScrWord (b : Block) (o v : Nat) : Block := { b with scratch := Sparse.setList 0 b.scratch o (toBytes 8 v) }

/-- The ring's first byte, PROD and CONS (R253). -/
def Block.ringOff (b : Block) : Nat := b.scrSize - 576
def Block.prodOff (b : Block) : Nat := b.scrSize - 64
def Block.consOff (b : Block) : Nat := b.scrSize - 56
def Block.hasRing (b : Block) : Bool := 576 ≤ b.scrSize
/-- The channels keep `PROD` and `CONS` as the stores that write them leave them. -/
def Block.prod (b : Block) : Nat := ofBytes (Sparse.getList 0 b.scratch b.prodOff 8)
def Block.cons (b : Block) : Nat := ofBytes (Sparse.getList 0 b.scratch b.consOff 8)

/-- A store of the block's own that covers `PROD` publishes the entries up to the new value, at most the ring's 16 (R253,
R256): each keeps the slot table of this moment. Which group and which PC2 a refusal of such an entry takes is open: group 0 and PC2 = 0
(DESIGN CHOICE, log 104). -/
def State.notePublish (s : State) (blk : Nat) : State :=
  match s.block? blk with
  | none => s
  | some b =>
    let known := ((s.rings.filter (·.blk == blk)).map (·.seq)).foldl max b.cons
    let new := ((List.range 16).map (known + 1 + ·)).filter fun q => q ≤ b.prod && q ≤ b.cons + 16
    { s with
      nextId := s.nextId + 1,
      rings := s.rings ++ new.map fun q =>
        ({ blk := blk, seq := q, grp := 0, op := none, pc := 0, lanes := [], ord := s.nextId, slots := b.slots } : RingRec) }

/-- The blocks whose `PROD` a store to scratchpad touches. -/
def State.published (s : State) (pv : List (Place × Byte)) : List Nat :=
  (pv.filterMap fun (p, _) => match p with
    | .scr k o =>
      match s.block? k with
      | some b => if b.hasRing && b.prodOff ≤ o && o < b.consOff then some k else none
      | none => none
    | _ => none).eraseDups

/-! ## Stores not yet published (R332) -/

/-- The lines of some places: of device memory, or of host memory. -/
def placeLines (ps : List Place) : List (Bool × Nat) :=
  (ps.filterMap fun q => match q with
    | .dev a => some (false, a / 128)
    | .host a => some (true, a / 128)
    | _ => none).eraseDups

/-- A core is within the instance of unpublished stores. -/
def Unpub.inside (u : Unpub) (core : Nat) : Bool :=
  u.cores.any fun k => match u.scope with
    | 1 => k == core
    | 2 => k / 4 == core / 4
    | _ => k / 192 == core / 192

/-- The stores that a test names are published: every observer reads them from now on. -/
def State.publish (s : State) (p : Unpub → Bool) : State := { s with unpub := s.unpub.filter (!p ·) }

/-- Every store to some lines is published. -/
def State.publishLines (s : State) (ls : List (Bool × Nat)) : State := s.publish fun u => ls.contains (u.host, u.line)

/-- A release at a scope publishes what its core stored at a narrower one (R332). -/
def State.releaseAt (s : State) (core scope : Nat) : State := s.publish fun u => u.cores.contains core && u.scope < scope

/-- The forced publish of an acquire (R331): what was stored in instances that do not contain the core. -/
def State.acquireAt (s : State) (core : Nat) : State := s.publish fun u => !u.inside core

/-- What a core's stores through a pointer of a scope leave unpublished: the lines with their bytes before the first of them. Where the
line stands unpublished in a wider instance or in another one, that is published first. -/
def State.unpubOf (s : State) (core scope : Nat) (ls : List (Bool × Nat)) : List Unpub :=
  let scope := max 1 scope
  if 4 ≤ scope then []
  else
    (ls.filter fun l => !(if l.1 then s.hpoison else s.dpoison).contains l.2).map fun l =>
      match s.unpub.find? fun u => u.host == l.1 && u.line == l.2 && u.inside core && u.scope ≤ scope with
      | some u => { u with scope := scope, cores := insertLine core u.cores }
      | none => ⟨l.1, l.2, s.lineBytes l.1 l.2, scope, [core]⟩

/-- A byte as it was before the unpublished stores to its line. -/
def byteBefore (us : List Unpub) (p : Place) (v : Byte) : Byte :=
  let old (host : Bool) (a : Nat) : Byte := match us.find? fun u => u.host == host && u.line == a / 128 with
    | some u => u.old.getD (a % 128) 0
    | none => v
  match p with
  | .dev a => old false a
  | .host a => old true a
  | _ => v

/-- A weak load from a core: where its lines hold stores of instances that do not contain the core, it returns the bytes before them,
or, the lines having been evicted from the caches of those instances, the newest ones; which of the two is a free value (R332). -/
def State.weakRead (s : State) (core : Nat) (ps : List Place) : State × List Byte :=
  let us := s.unpub.filter fun u => !u.inside core && (placeLines ps).contains (u.host, u.line)
  if us.isEmpty then (s, s.readPlaces ps)
  else
    let (w, t) := s.freeVal
    if w.getLsbD 0 then (t.publish us.contains, s.readPlaces ps)
    else (t, (ps.zip (s.readPlaces ps)).map fun e => byteBefore us e.1 e.2)

/-- A coherence message to every monitor (R147). -/
def State.armMonitors (s : State) : State := { s with monitors := s.monitors.map fun m => { m with armed := true } }

/-- A store performed: bytes, poison, the comparator of every line, stale and dirty marks, and a coherence message
to every monitor (R147); earlier stores to its lines are published with it. `core`: the storing core. -/
def State.storeBy (s : State) (core : Option Nat) (pv : List (Place × Byte)) : State :=
  let ls := devLines pv
  let s0 := ls.foldl (fun t (l, w) => t.compareLine core false (s.lineBytes false l) l w) (s.storeRaw pv)
  let s1 := (sideLines true pv).foldl (fun t (l, w) => t.compareLine core true (s.lineBytes true l) l w) s0
  let s2 := ((s1.markStale ((ls.map (·.1 / 32)).eraseDups)).markDirty pv).publishLines (placeLines (pv.map (·.1)))
  ((s2.published pv).foldl (·.notePublish ·) s2).armMonitors

def State.storeBytes (s : State) (pv : List (Place × Byte)) : State := s.storeBy none pv

/-- The core's own write to a block's scratchpad. -/
def State.storeScr (s : State) (blk o n v : Nat) : State :=
  s.storeBytes (((List.range n).map fun k => Place.scr blk (o + k)).zip (toBytes n v))

/-- The lines on which the store waits for leases (R337): a leaseholder that it would disturb, or for which this writer already
waits, has a lease on the line, and some lease on the line has not ended. -/
def State.leaseHolds (s : State) (who : Nat) (pv : List (Place × Byte)) : List Nat :=
  (devLines pv).filterMap fun (l, w) =>
    let old := s.lineBytes false l
    let new := (s.storeRaw pv).lineBytes false l
    let hit := s.leases.any fun e => e.line == l && disturbs e.facet e.sfmt old new w
    if (hit || s.leaseWaits.any fun k => k.line == l && k.acc == who) && s.leases.any fun e => e.line == l && !e.ended
    then some l else none

/-- The line has facet sharers, here or at other devices, recorded with another storage format (R94). -/
def State.formatClash (s : State) (host : Bool) (line sfmt : Nat) : Bool :=
  (s.sharers.any fun h => h.host == host && h.line == line && h.facet != 7 && h.sfmt != sfmt) ||
    (!host && s.leases.any fun e => e.line == line && e.facet != 7 && e.sfmt != sfmt)

/-- Register a load's line in the directory (R93, R94): a facet, or the storage format. -/
def State.share (s : State) (host : Bool) (line core : Nat) (facet sfmt : Nat) (push : Bool) : State :=
  let on (h : Sharer) : Bool := h.host == host && h.line == line
  let mine (h : Sharer) : Bool := on h && h.core == core
  let f := if facet == 7 || s.formatClash host line sfmt then 7
    else match s.sharers.find? mine with
      | some h => if h.facet == facet then facet else 7
      | none => facet
  { s with sharers := s.sharers.filter (!mine ·) ++ [⟨host, line, core, f, sfmt, push && f != 7⟩] }

/-! ## Error log (R458) -/

/-- This device's pod position (R410). -/
def State.pos (s : State) : Nat := bits s.podpos.toNat 3 0

def mkWord (fields : List (Nat × Nat)) : Word := BitVec.ofNat 64 (fields.foldl (fun a f => a + f.1 * 2 ^ f.2) 0)

/-- Write one entry of a die's error log: kind, requester's pod position, address, detail. An entry overwritten counts as lost unless it
has been read past, which is free (R445, log 94). -/
def State.logError (s : State) (d kind pos : Nat) (addr detail : Word) : State :=
  s.modDie d fun di =>
    let e : ErrEnt := ⟨mkWord [(kind, 56), (d, 54), (pos, 48)], addr, di.time, detail⟩
    { di with
      log := Sparse.put di.log (di.logNext % 256) e, logNext := di.logNext + 1,
      logLost := di.logLost + (if 256 ≤ di.logNext && !Config.readPast s.nextId d (di.logNext - 256) then 1 else 0),
      msix := if kind == 0x02 || kind == 0x0A then di.msix ++ [2] else di.msix }

/-- An entry whose requester is this device itself: its own position stands where the requester's is asked for, and where an entry has no
requester (DEDUCED, log 98). -/
def State.logOwn (s : State) (d kind : Nat) (addr detail : Word) : State := s.logError d kind s.pos addr detail

/-! ## Translation (R390 to R394) -/

/-- Fault kind bits of a record (R395). -/
def kLoad : Nat := 1
def kStore : Nat := 2
def kAtomic : Nat := 4
def kFetch : Nat := 8
def kEngine : Nat := 16
def kAbsent : Nat := 32
def kPerm : Nat := 64
def kSpace : Nat := 128

/-- What a translation is for (R392). -/
inductive Need where
  | read | write | both | fetch
deriving DecidableEq, Repr

/-- A space's claim on the leaf's HOST bit (R86, R392). -/
inductive Side where
  | device | host | either
deriving DecidableEq, Repr

inductive Trans where
  | ok (p : Place)
  | fault (kind : Nat)
  | wait
deriving DecidableEq, Repr

/-- Page sizes by SIZE code. -/
def pageSize (code : Nat) : Nat := if code = 0 then 2 ^ 16 else if code = 1 then 2 ^ 22 else 2 ^ 30

/-- Is an entry at a level a good leaf (R391)? -/
def leafOk (level : Nat) (e : Nat) : Bool :=
  bits e 63 56 == 0 && bits e 14 8 == 0 &&
    (if level = 0 then bits e 6 5 == 0 || (bits e 6 5 == 1 && bits e 21 15 == 0)
     else level == 1 && bits e 6 5 == 2 && bits e 29 15 == 0)

/-- A line of device memory that a reader of tables must await: a peer holds it exclusively, its home die sleeps, or DRAM is in self-refresh
after a thermal trip (R412, R452, R453). -/
def State.lineAway (s : State) (l : Nat) : Bool :=
  let w := (s.die (s.homeDie (128 * l))).pwrState
  w == 1 || w == 2 || s.bootState == 3 || s.holders.any fun h => h.excl && h.line == l

/-- Such lines among some places. -/
def State.away (s : State) (ps : List Place) : List Nat :=
  ((ps.filterMap fun p => match p with
    | .dev a => some (a / 128)
    | _ => none).eraseDups).filter s.lineAway

/-- Lines are wanted at home: they are asked for, and their dies woken, at the end of the cycle. -/
def State.want (s : State) (ls : List Nat) : State := { s with wanted := ls.foldl (fun w l => insertLine l w) s.wanted }

/-- One read of a table entry: 8 bytes of device memory. -/
def State.entry (s : State) (a : Nat) : Nat := ofBytes ((List.range 8).map fun k => s.readByte (.dev (a + k)))

/-- What a walk gives: the leaf and its size, nothing (absent), or a line of a table that must come home first. -/
inductive Leaf where
  | ok (e sz : Nat)
  | absent
  | wait (line : Nat)
deriving DecidableEq, Repr

/-- Walk from a level's table (R390, R391). -/
def State.walkFrom (s : State) (va : Nat) : Nat → Nat → Leaf
  | level, table =>
    let a := table + 8 * bits va (16 + 12 * level + 11) (16 + 12 * level)
    if s.lineAway (a / 128) then .wait (a / 128)
    else
      let e := s.entry a
      if !bit e 0 then .absent
      else if bit e 4 then (if leafOk level e then .ok e (pageSize (bits e 6 5)) else .absent)
      else if bits e 63 56 != 0 || bits e 14 8 != 0 then .absent
      else
        match level with
        | 0 => .absent
        | n + 1 => s.walkFrom va n (bits e 55 15 * 2 ^ 15)

/-- Who translates: a core's TLB, or (the die's number) the engines, walk units and front end of a die (R393). The die is the
number modulo 4. -/
def coreView (die core : Nat) : Nat := die + 4 * (1 + core)
def Block.view (b : Block) : Nat := coreView b.die b.core

/-- The leaf that serves a virtual address for a holder: a translation it holds and that has not expired, or a walk (R393, R394).
Nothing translates while PTROOT.EN is 0 (R389). -/
def State.leafOf (s : State) (v va : Nat) : State × Leaf :=
  let di := s.die (v % 4)
  let root := di.ptroot.toNat
  if !bit root 0 then (s, .absent)
  else
    match s.tlb.find? fun t => t.holder == v && t.va ≤ va && va < t.va + t.size && di.quiesce < t.stamp + 64 with
    | some t => (s, .ok t.leaf.toNat t.size)
    | none =>
      match s.walkFrom va 3 (bits root 63 15 * 2 ^ 15) with
      | .ok e sz =>
        ({ s with tlb := s.tlb.filter (fun t => t.holder % 4 != v % 4 || di.quiesce < t.stamp + 64) ++
            [⟨v, va / sz * sz, sz, BitVec.ofNat 64 e, di.quiesce⟩] }, .ok e sz)
      | .absent => (s, .absent)
      | .wait l => (s.want [l], .wait l)

/-- Translate one byte's virtual address for a need (R392). A copy of a leaf that refuses the access is given up, so that a
replay walks anew (R393). -/
def State.translate (s : State) (v va : Nat) (need : Need) (side : Side) : State × Trans :=
  match s.leafOf v va with
  | (s, .absent) => (s, .fault kAbsent)
  | (s, .wait _) => (s, .wait)
  | (s, .ok e sz) =>
    let okPerm := match need with
      | .read => bit e 1
      | .write => bit e 2
      | .both => bit e 1 && bit e 2
      | .fetch => bit e 3
    let onHost := bit e 7
    let okSide := match side with
      | .device => !onHost
      | .host => onHost
      | .either => true
    let a := bits e 55 15 * 2 ^ 15 / sz * sz + va % sz
    if !okPerm || !okSide then
      ({ s with tlb := s.tlb.filter fun t => !(t.holder == v && t.va ≤ va && va < t.va + t.size) },
        .fault ((if okPerm then 0 else kPerm) + (if okSide then 0 else kSpace)))
    else (s, .ok (if onHost then .host a else .dev a))

/-- The places of n bytes at a virtual address: translate the first byte and, where the bytes cross a page, the first
byte of the next page. -/
inductive Spots where
  | ok (ps : List Place)
  | fault (va kind : Nat)
  | wait
deriving DecidableEq, Repr

/-- Translate a byte range page by page, with fuel for the pages. -/
def State.spotsFrom (s : State) (v : Nat) (need : Need) (side : Side) : Nat → Nat → Nat → State × Spots
  | 0, _, _ => (s, .ok [])
  | fuel + 1, va, n =>
    if n = 0 then (s, .ok [])
    else
      let k := min n (2 ^ 16 - va % 2 ^ 16)
      match s.translate v va need side with
      | (s, .fault kind) => (s, .fault va kind)
      | (s, .wait) => (s, .wait)
      | (s, .ok p) =>
        match s.spotsFrom v need side fuel (va + k) (n - k) with
        | (s, .ok ps) => (s, .ok ((List.range k).map p.add ++ ps))
        | r => r

def State.spots (s : State) (v va n : Nat) (need : Need) (side : Side) : State × Spots :=
  s.spotsFrom v need side (n / 2 ^ 16 + 2) va n

/-! ## Fault records (R395, R396) -/

def FaultRec.free : FaultRec := ⟨0, 0, 0, 0, 0, 0, 0⟩

def State.faultRec (s : State) (d i : Nat) : FaultRec := Sparse.get FaultRec.free (s.die d).faults i

/-- Word w of a fault record (R395). -/
def FaultRec.word (r : FaultRec) (w : Nat) : Word :=
  match w with
  | 0 => mkWord [(r.block, 22), (r.kinds.toNat, 8), (r.st, 0)]
  | 1 => r.bitmap
  | 2 => r.first
  | _ => mkWord [(min r.waiters 65535, 32), (min r.count (2 ^ 32 - 1), 0)]

/-- A write of the die's own, performed once its line lets it in. -/
def State.post (s : State) (view va : Nat) (bs : List Byte) (logged : Bool) : State :=
  { s with nextId := s.nextId + 1, posted := s.posted ++ [⟨s.nextId, view, va, bs, logged, (s.die (view % 4)).quiesce⟩] }

/-- Mirror a changed record to memory (R396). -/
def State.mirror (s : State) (d i : Nat) : State :=
  let fb := (s.die d).fltbase.toNat
  let r := s.faultRec d i
  if !bit fb 0 then s
  else s.post d (bits fb 63 13 * 2 ^ 13 + 32 * i) ((List.range 4).flatMap fun w => toBytes 8 (r.word w).toNat) true

def State.setFaultRec (s : State) (d i : Nat) (r : FaultRec) : State :=
  (s.modDie d fun di => { di with faults := Sparse.set FaultRec.free di.faults i r }).mirror d i

/-- Signal MSI-X vector 1 for a record opened, at most once a microsecond (R396). -/
def State.signalFault (s : State) (d : Nat) : State :=
  s.modDie d fun di =>
    match di.msixAt with
    | some t => if di.time.toNat < t + 1000 then { di with msixDue := true }
                else { di with msixAt := some di.time.toNat, msix := di.msix ++ [1] }
    | none => { di with msixAt := some di.time.toNat, msix := di.msix ++ [1] }

/-- Record a fault of a page with `w` new waiters; the record as die × 256 + index. While every record is open or consumed the fault
waits to be recorded, under a number from 1,024 (R396). -/
def State.joinFault (s : State) (d va kind w : Nat) : State × Nat :=
  let fs := (s.die d).faults
  let addTo (r : FaultRec) : FaultRec :=
    { r with kinds := r.kinds ||| BitVec.ofNat 8 kind, bitmap := r.bitmap ||| BitVec.ofNat 64 (2 ^ bits va 21 16),
             count := min (r.count + 1) (2 ^ 32 - 1), waiters := r.waiters + w }
  match fs.find? fun e => e.2.st == 1 && e.2.block == va / 2 ^ 22 with
  | some (i, r) => (s.setFaultRec d i (addTo r), d * 256 + i)
  | none =>
    match lowestFree (fs.map (·.1)) 256 with
    | none => ({ s with nextId := s.nextId + 1, lateFaults := s.lateFaults ++ [⟨1024 + s.nextId, d, va, kind, w⟩] }, 1024 + s.nextId)
    | some i =>
      let r := addTo { FaultRec.free with block := va / 2 ^ 22, st := 1, first := (s.die d).time }
      ((s.setFaultRec d i r).signalFault d, d * 256 + i)

/-- Record a fault with its one waiter. -/
def State.recordFault (s : State) (d va kind : Nat) : State × Nat := s.joinFault d va kind 1

/-! ## Reads and writes by the device's own agents -/

/-- Read n bytes at a virtual address of a logical device, translated with R; none where it does not translate. -/
def State.readVirt (s : State) (d va n : Nat) : Option (List Byte) :=
  match s.spots d va n .read .either with
  | (s', .ok ps) => some (s'.readPlaces ps)
  | _ => none

/-- The lines that must come home before such a read: of the tables its walks read, or its own. -/
def State.virtAway (s : State) (d va n : Nat) : List Nat :=
  match s.spots d va n .read .either with
  | (s', .ok ps) => s'.away ps
  | (s', .wait) => s'.wanted
  | _ => []

def State.readVirtWord (s : State) (d va : Nat) : Option Word := (s.readVirt d va 8).map fun bs => BitVec.ofNat 64 (ofBytes bs)

end Sys2Proof.Machine
end

