-- ==== Sys2Proof/Machine/Operands.lean ====
section
/-! DEFINITION. Operand forms: what a source delivers in a lane (R19, R105, R107), which tags it may carry (R24 to R26),
which lanes' sources an instruction reads and which lanes receive (R41, R136, R195, R284, R285), and the checks at issue
up to STALL_SHORT (R29, R33 to R39, R46). -/

namespace Sys2Proof.Machine

/-- The register an operand names, as an operand code (R105). -/
def regCode? : Opd → Option Nat
  | .v n => some n.val
  | .q n => some (192 + n.val)
  | .y n => some (200 + n.val)
  | .x n => some (202 + n.val)
  | .k n => some (234 + n.val)
  | _ => none

/-- The format a source without a tag is delivered in (R107): none, an element format, or a zero-extended offset. -/
inductive LitAs where
  | plain
  | zext
  | as (t : Tag)
deriving DecidableEq, Repr

/-- A pattern in every sub-element of width w. -/
def splat (w n x : Nat) : Word := packElems w (List.replicate n x)

/-- The lane index in a format (R107). -/
def laneValue (f : LitAs) (m : Nat) : Word :=
  match f with
  | .plain | .zext => BitVec.ofNat 64 m
  | .as t =>
    if t.isInt then packElems t.width ((List.range t.count).map fun k => m * t.count + k)
    else if t == .fp32 || t == .bf16 then
      packElems t.width ((List.range t.count).map fun k => (FF.ofTag t).roundTo .rne (Val.ofInt (m * t.count + k : Nat)))
    else Config.laneElem (FF.ofTag t).ew m

/-- A 32-bit literal in a format (R107). -/
def lit32Value (f : LitAs) (l : BitVec 32) : Word :=
  match f with
  | .plain => l.signExtend 64
  | .zext => l.zeroExtend 64
  | .as t => if t.width ≤ 32 then splat t.width t.count l.toNat
             else if t == .i64 then l.signExtend 64 else l.zeroExtend 64

/-- A source's value and tag; no tag for K registers, literals, zero and the lane index (R22). -/
structure Src where
  bits : Word
  tag : Option Tag
deriving DecidableEq, Repr

/-- Register code c as lane l of a block reads it (R19). -/
def Block.readCode (b : Block) (l c : Nat) : Src :=
  if c < 202 then let r := Sparse.get Reg.zero (b.lane l).regs c; ⟨r.bits, some r.tag⟩
  else if c < 234 then
    match b.setOf (l / 32) with
    | some t => ⟨Sparse.get 0 t.x (32 * (c - 202) + l % 32), some (Sparse.get .n64 t.xtag (c - 202))⟩
    | none => ⟨0, some .n64⟩
  else ⟨(b.group (l / 32)).k.getD (c - 234) 0, none⟩

/-- What an operand delivers in a lane (R105, R107). -/
def Block.read (b : Block) (l : Nat) (f : LitAs) : Opd → Src
  | .lit32 v => ⟨lit32Value f v, none⟩
  | .lit64 v => ⟨v, none⟩
  | .zero => ⟨0, none⟩
  | .lane => ⟨laneValue f (l % 32), none⟩
  | .v n => b.readCode l n.val
  | .q n => b.readCode l (192 + n.val)
  | .y n => b.readCode l (200 + n.val)
  | .x n => b.readCode l (202 + n.val)
  | .k n => b.readCode l (234 + n.val)

/-- The tag check an instruction makes on a source (R24 to R26, R100, R184, R231). -/
inductive Chk where
  | raw
  | fmt (t : Tag)
  | pack
  | int64
  | scale
  | ptrLo
  | ptrHi
  | noPoison
  | setOnly
deriving DecidableEq, Repr

def Chk.accepts : Chk → Tag → Bool
  | .raw, _ => true
  | .noPoison, _ => true
  | .setOnly, _ => true
  | .pack, t => t == .n64
  | .int64, t => t == .i64 || t == .n64
  | .scale, t => t == .n8 || t == .n64
  | .ptrLo, t => t == .ptrLo
  | .ptrHi, t => t == .ptrHi
  | .fmt f, t =>
    if f.isInt then t.isInt && t.width == f.width
    else if f.isF8 then t == f || t == .n8
    else t == f

/-- A source as an instruction names it: a register code to read and the check on it. -/
structure SrcSpec where
  opd : Opd
  chk : Chk
deriving DecidableEq, Repr

/-- The set that an instruction of set scope, or one with an X destination, needs (R20, R282): no register is read. -/
def needs (h : Head) (d : Opd) : List SrcSpec :=
  match d with
  | .x _ => [⟨d, .setOnly⟩]
  | _ => if h.scope == .set then [⟨.x 0, .setOnly⟩] else []

/-- The next register of an operand. -/
def nextReg : Opd → Opd
  | .v n => .v (n + 1)
  | .x n => .x (n + 1)
  | o => o

/-- A pointer pair operand (R100). -/
def ptrSpecs (p : Opd) : List SrcSpec := [⟨p, .ptrLo⟩, ⟨nextReg p, .ptrHi⟩]

/-- The pointer an operand pair holds in a lane (R83). -/
def Block.readPtr (b : Block) (l : Nat) (p : Opd) : BitVec 128 :=
  (b.read l .plain (nextReg p)).bits ++ (b.read l .plain p).bits

/-! ## The lanes an instruction acts in -/

/-- The value of a predicate number in a lane; P7 reads 1 (R16). -/
def Lane.pval (l : Lane) (p : Nat) : Bool := if p = 7 then true else l.p.getLsbD p

/-- The head's predicate in a lane, after the negate bit (R41). -/
def Lane.on (l : Lane) (h : Head) : Bool := l.pval h.pred.toNat != h.pneg

/-- Which lanes' sources an instruction reads (`src`), which lanes receive from which (`recv`), the X positions and
their sources (`pos`), the member groups, the designated lane, and whether anything acts at all. -/
structure Work where
  src : List Nat
  recv : List (Nat × Nat)
  pos : List (Nat × Nat)
  groups : List Nat
  desig : Nat
  acts : Bool
deriving DecidableEq, Repr

/-- The lowest-numbered non-exited lane of the lowest-ranked member with one (R284). -/
def Block.designated (b : Block) (gs : List Nat) : Option Nat := (gs.flatMap b.live).head?

/-- The supplying lane of position p: p of the designated member, or of the lowest-ranked member where it is live (R284). -/
def Block.supplying (b : Block) (gs : List Nat) (p : Nat) : Option Nat :=
  let dg := (b.designated gs).getD 0 / 32
  ((dg :: gs).find? fun g => !(b.lane (32 * g + p)).exited).map (32 * · + p)

/-- The member groups of a scope, ranked (R283). -/
def Block.members (b : Block) (g : Nat) : Scope → List Nat
  | .lane | .group => [g]
  | .set => match b.setOf g with
    | some t => t.members
    | none => [g]
  | .block => List.range b.groups.length

/-- The home groups of some lanes (R54). -/
def homesOf (ls : List Nat) : List Nat := (ls.map (· / 32)).eraseDups

/-- The work of an instruction at lane scope: each active lane for itself. -/
def laneWork (lanes : List Nat) (grp : Nat) : Work :=
  { src := lanes, recv := lanes.map fun l => (l, l), pos := [],
    groups := if lanes.isEmpty then [grp] else homesOf lanes, desig := lanes.headD 0, acts := !lanes.isEmpty }

/-- The work of an instruction after its rendezvous (R136, R284): one lane's result at group scope, a result a
position at set and block scope. -/
def Block.wideWork (b : Block) (gs : List Nat) (sc : Scope) (h : Head) : Work :=
  let d := (b.designated gs).getD 0
  let on := (b.lane d).on h && (b.designated gs).isSome
  if sc == .group then
    { src := [d], recv := (gs.flatMap b.live).map fun l => (l, d), pos := [], groups := gs, desig := d, acts := on }
  else
    let pos := (List.range 32).filterMap fun p => (b.supplying gs p).map fun l => (p, l)
    { src := pos.map (·.2),
      recv := gs.flatMap fun g => pos.filterMap fun (p, l) =>
        if (b.lane (32 * g + p)).exited then none else some (32 * g + p, l),
      pos := pos, groups := gs, desig := d, acts := on }

/-- The work of an instruction in a context (R41, R136, R285). -/
def Block.work (b : Block) (c : Ctx) (h : Head) : Work :=
  if h.scope == .lane then laneWork (c.lanes.filter fun l => (b.lane l).on h) c.grp
  else b.wideWork c.members h.scope h

/-- The work of an instruction that acts once, with the designated lane's sources (R232): its result goes to every
non-exited lane of every member, and position p of an X register. -/
def Work.once (b : Block) (w : Work) : Work :=
  { w with src := [w.desig], recv := (w.groups.flatMap b.live).map fun l => (l, w.desig),
           pos := w.pos.map fun (p, _) => (p, w.desig) }

/-! ## Applying results -/

def Lane.setReg (l : Lane) (c : Nat) (r : Reg) : Lane := { l with regs := Sparse.set Reg.zero l.regs c r }

/-- Y0 moves to Y1 and the result enters Y0 (R30). -/
def Lane.capture (l : Lane) (r : Reg) : Lane := (l.setReg 201 (Sparse.get Reg.zero l.regs 200)).setReg 200 r

def Lane.setPred (l : Lane) (p : Nat) (v : Bool) : Lane :=
  if p < 7 then { l with p := if v then l.p ||| BitVec.ofNat 7 (2 ^ p) else l.p &&& ~~~ BitVec.ofNat 7 (2 ^ p) } else l

/-- A register written by a handler lane while its frame is open (R354); of a K register, an H register (code 400 and up) or a set's X
register, the group's first lane stands for it. -/
def Block.noteWrite (b : Block) (l c : Nat) : Block :=
  b.modGroup (l / 32) fun g =>
    match g.frame with
    | some f => { g with frame := some { f with written := f.written ++ [(l, c)] } }
    | none => g

def Block.modSet (b : Block) (n : Nat) (f : GSet → GSet) : Block := { b with sets := updWhere (·.no == n) f b.sets }

/-- Apply one write of a result. -/
def Block.apply (b : Block) : Wr → Block
  | .reg l c r => (b.modLanes (· == l) fun _ ln => ln.setReg c r).noteWrite l c
  | .ycap l r => b.modLanes (· == l) fun _ ln => ln.capture r
  | .flags l f => b.modLanes (· == l) fun _ ln => { ln with flags := ln.flags ||| f }
  | .pred l p v => b.modLanes (· == l) fun _ ln => ln.setPred p v
  | .rng l v => b.modLanes (· == l) fun _ ln => { ln with rng := v }
  | .kreg g k v => (b.modGroup g fun gr => { gr with k := gr.k.set k v }).noteWrite (32 * g) (234 + k)
  | .xpos n x p v => (b.sets.filter (·.no == n)).foldl (fun b t => t.members.foldl (fun b g => b.noteWrite (32 * g) (202 + x)) b)
      (b.modSet n fun t => { t with x := Sparse.set 0 t.x (32 * x + p) v })
  | .xtag n x tg => b.modSet n fun t => { t with xtag := Sparse.set .n64 t.xtag x tg }
  | .hreg g h v => (b.modGroup g fun gr => { gr with h := gr.h.set h v, hPend := gr.hPend.erase h }).noteWrite (32 * g) (400 + h)

def Block.applyAll (b : Block) (ws : List Wr) : Block := ws.foldl Block.apply b

/-! ## Checks 3 to 7 (R46) -/

/-- Does a write touch register code c of a lane? -/
def Wr.touches (b : Block) (l c : Nat) : Wr → Bool
  | .reg l' c' _ => l' == l && c' == c
  | .ycap l' _ => l' == l && (c == 200 || c == 201)
  | .pred l' p _ => l' == l && c == 256 + p
  | .flags l' _ => l' == l && c == 300
  | .rng .. => false
  | .kreg g k _ => g == l / 32 && c == 234 + k
  | .xpos n x _ _ => (b.setOf (l / 32)).any (·.no == n) && c == 202 + x
  | .xtag n x _ => (b.setOf (l / 32)).any (·.no == n) && c == 202 + x
  | .hreg .. => false

/-- A fixed-latency result for the register is still to be written. -/
def State.fixedBusy (s : State) (b : Block) (l c : Nat) : Bool :=
  s.fixed.any fun f => f.blk == b.id && f.wrs.any (Wr.touches b l c)

/-- A pending-tag result for the register is in flight (R36). -/
def State.longBusy (s : State) (b : Block) (l c : Nat) : Bool :=
  s.longs.any fun o => o.blk == b.id && !o.shown.contains l && o.lanes.contains l && o.codes.contains c && !o.drop.contains (l, c)

/-- A pending tag is in flight in a lane (R36). -/
def State.tagBusy (s : State) (b : Block) (l t : Nat) : Bool :=
  s.longs.any fun o => o.blk == b.id && o.tag == t && o.lanes.contains l

/-- The producers of the run that code c depends on: its last writer; for Y0 and Y1 the last two captures (R30, R35). -/
def Run.producers (r : Run) (c : Nat) : List Producer :=
  if c == 200 || c == 201 then (r.prods.filter (·.captures)).take 2 else (r.prods.filter (·.code == c)).take 1

/-- The declared distance to some producer is below its latency (R35). -/
def Run.short (r : Run) (c : Nat) : Bool := (r.producers c).any fun p => r.dist < p.dist + p.lat

/-- The group's CTL.STALLCHK (R45). -/
def Block.stallchk (b : Block) (l : Nat) : Bool := (b.group (l / 32)).ctl.getLsbD 0

/-- The void mark of a register code (R29). -/
def Lane.isVoid (ln : Lane) (c : Nat) : Bool := 192 ≤ c && c < 202 && ln.void.getLsbD (c - 192)

/-- What a check finds; a trap with the place in the list of sources of the first source that fails it. -/
inductive Gate where
  | pass
  | hold
  | trap (t : Trap) (fail : List Nat) (at_ : Nat)
deriving DecidableEq, Repr

/-- The lanes of a list that satisfy a test, as a check's failures. -/
def failing (t : Trap) (lanes : List Nat) (p : Nat → Bool) : Option Gate :=
  match lanes.filter p with
  | [] => none
  | l => some (.trap t l 0)

/-- The lanes in which some source fails a test, with the first source that fails in the lowest of them. -/
def failingSrc (t : Trap) (lanes : List Nat) (sps : List SrcSpec) (p : Nat → SrcSpec → Bool) : Option Gate :=
  match lanes.filter fun l => sps.any (p l) with
  | [] => none
  | l => some (.trap t l (sps.findIdx (p (l.headD 0))))

/-- Does a source fail its tag check in a lane (R24)? -/
def Block.tagFails (b : Block) (l : Nat) (sp : SrcSpec) : Bool :=
  match (b.read l .plain sp.opd).tag with
  | some t => !sp.chk.accepts t
  | none => false

def Block.poisonFails (b : Block) (l : Nat) (sp : SrcSpec) : Bool :=
  sp.chk != .noPoison && sp.chk != .setOnly && (b.read l .plain sp.opd).tag == some .poison

def Block.voidFails (b : Block) (l : Nat) (sp : SrcSpec) : Bool :=
  sp.chk != .setOnly && match regCode? sp.opd with
  | some c => (b.lane l).isVoid c
  | none => false

/-- Does the lane's group lack the set an X operand needs (R20)? -/
def Block.setFails (b : Block) (l : Nat) (sp : SrcSpec) : Bool :=
  match sp.opd with
  | .x _ => (b.setOf (l / 32)).isNone
  | _ => false

/-- The register codes read. -/
def codesOf (sps : List SrcSpec) : List Nat := sps.filterMap fun sp => if sp.chk == .setOnly then none else regCode? sp.opd

/-- A code's stall check in a lane (R35, R39): short declared distance or a pending-tag register. -/
def State.stallFails (s : State) (b : Block) (reads writes : List Nat) (l : Nat) : Bool :=
  b.stallchk l &&
    (reads.any (fun c => (b.lane l).run.short c || s.longBusy b l c) || writes.any (s.longBusy b l))

/-- Something the lane reads or writes is still in flight: the core holds the instruction (R35, R39). -/
def State.busy (s : State) (b : Block) (reads writes : List Nat) (l : Nat) : Bool :=
  reads.any (fun c => s.fixedBusy b l c || s.longBusy b l c) || writes.any (s.longBusy b l)

/-- The block as it stands once the fixed-latency results in flight are written: what a consumer will read (R35). -/
def State.landed (s : State) (b : Block) : Block :=
  (s.fixed.filter (·.blk == b.id)).foldl (fun b f => b.applyAll f.wrs) b

/-- Is a source's pending-tag result in flight (R39)? -/
def State.srcPending (s : State) (b : Block) (l : Nat) (sp : SrcSpec) : Bool :=
  sp.chk != .setOnly && match regCode? sp.opd with
  | some c => s.longBusy b l c
  | none => false

/-- Checks 3 to 7 of R46 in the lanes whose sources are read; `recv` lanes are those whose registers are written. Tags are
checked as the producers deliver them: a lane that waits for a pending tag holds the instruction first (R35, R39). -/
def State.gate (s : State) (b : Block) (src recv : List Nat) (sps : List SrcSpec) (writes : List Nat) (preds : List Nat) :
    Gate :=
  let reads := codesOf sps ++ preds.map (256 + ·)
  let v := s.landed b
  let ready (f : Nat → SrcSpec → Bool) (l : Nat) (sp : SrcSpec) : Bool := !s.srcPending b l sp && f l sp
  (failing .setAbsent src fun l => sps.any (b.setFails l)).getD
  (if src.any fun l => !b.stallchk l && reads.any (s.longBusy b l) then .hold
   else
    ((failingSrc .voidOperand src sps (ready b.voidFails)) <|>
     (failingSrc .poisonUse src sps (ready v.poisonFails)) <|>
     (failingSrc .formatMismatch src sps (ready v.tagFails)) <|>
     (failing .stallShort (src ++ recv.filter (!src.contains ·)) fun l =>
       s.stallFails b (if src.contains l then reads else []) writes l)).getD
    (if src.any (fun l => s.busy b reads [] l) || recv.any (fun l => s.busy b [] writes l) then .hold else .pass))

/-- The block with the predicates that are due to be written: the guard's value where its distance is too short. -/
def State.landedPreds (s : State) (b : Block) : Block :=
  (s.fixed.filter (·.blk == b.id)).foldl (fun b f => b.applyAll (f.wrs.filter fun w => match w with
    | .pred .. => true
    | _ => false)) b

/-- The lanes that the guard predicate lets act and in which it is read too early by its declared distance (R35): they fail
check 7, once the checks before it have passed. -/
def State.guardShort (s : State) (b : Block) (lanes : List Nat) (h : Head) : List Nat :=
  if h.pred == 7 then []
  else
    match lanes.filter fun l => b.stallchk l && (b.lane l).run.short (256 + h.pred.toNat) with
    | [] => []
    | ls => ls.filter fun l => ((s.landedPreds b).lane l).on h

/-- The guard predicate of a head is in flight (R34, R35). -/
def State.guardGate (s : State) (b : Block) (lanes : List Nat) (h : Head) : Gate :=
  if h.pred == 7 then .pass
  else
    match s.guardShort b lanes h with
    | [] => if lanes.any (fun l => s.fixedBusy b l (256 + h.pred.toNat)) then .hold else .pass
    | l => .trap .stallShort l 0

/-- The lanes whose guard predicate an issue reads: the cohort's, or the designated lane's (R41, R285). -/
def Block.guardLanes (b : Block) (c : Ctx) : List Nat :=
  if c.wide then ((b.designated c.members).map fun l => [l]).getD [] else c.lanes

end Sys2Proof.Machine
end

