-- ==== Sys2Proof/Machine/Ops.lean ====
section
/-! DEFINITION. The shared operations: applying results, issuing a fixed-latency or pending-tag instruction, arriving at
a rendezvous, ending runs, taking a trap (R345 to R350) and returning from one (R354). -/

namespace Sys2Proof.Machine

abbrev Out := Host.Outcome State Fault Refusal

/-! ## What an instruction computes in a lane -/

/-- The result of one lane: the registers delivered (two for a pointer pair), the flags it sets, the predicate it
writes, the generator state after its draws. -/
structure LaneRes where
  outs : List Reg
  flags : Flags
  pd : Option Bool
  rng : Option Word
deriving DecidableEq, Repr

/-- A result of one register without flags. -/
def LaneRes.ofReg (r : Reg) : LaneRes := ⟨[r], 0, none, none⟩

/-- A lane's result in a list of (lane, result) pairs. -/
def resOf (rs : List (Nat × LaneRes)) (l : Nat) : LaneRes := ((rs.find? (·.1 == l)).map (·.2)).getD ⟨[], 0, none, none⟩

/-- Register codes written from a destination by n results. -/
def dstCodes (d : Opd) (n : Nat) : List Nat :=
  match regCode? d with
  | some c => (List.range n).map (c + ·)
  | none => []

/-- The writes that deliver results to a destination (R19, R136). -/
def Work.regWrites (b : Block) (w : Work) (d : Opd) (rs : List (Nat × LaneRes)) : List Wr :=
  match d with
  | .v n => w.recv.flatMap fun (l, sl) => (resOf rs sl).outs.zipIdx.map fun (r, k) => .reg l (n.val + k) r
  | .q n => w.recv.flatMap fun (l, sl) => (resOf rs sl).outs.zipIdx.map fun (r, k) => .reg l (192 + n.val + k) r
  | .k n => w.groups.map fun g => .kreg g n.val (((resOf rs w.desig).outs.map (·.bits)).headD 0)
  | .x n =>
    match b.setOf (w.desig / 32) with
    | some t =>
      w.pos.flatMap (fun (p, sl) => (resOf rs sl).outs.zipIdx.map fun (r, k) => .xpos t.no (n.val + k) p r.bits) ++
        (resOf rs w.desig).outs.zipIdx.map fun (r, k) => .xtag t.no (n.val + k) r.tag
    | none => []
  | _ => []

/-- The Y captures of a delivery (R30): a K destination captures the K value. -/
def Work.captures (w : Work) (d : Opd) (rs : List (Nat × LaneRes)) : List Wr :=
  w.recv.flatMap fun (l, sl) =>
    (resOf rs (match d with | .k _ => w.desig | _ => sl)).outs.map fun r => .ycap l r

def Work.flagWrites (w : Work) (rs : List (Nat × LaneRes)) : List Wr :=
  w.src.filterMap fun l => let f := (resOf rs l).flags; if f = 0 then none else some (.flags l f)

def Work.predWrites (w : Work) (pd : Nat) (rs : List (Nat × LaneRes)) : List Wr :=
  if pd < 7 then w.recv.filterMap fun (l, sl) => (resOf rs sl).pd.map fun v => .pred l pd v else []

/-- Every write of a fixed-latency result but its Y captures. -/
def Work.writes (b : Block) (w : Work) (d : Opd) (pd : Nat) (rs : List (Nat × LaneRes)) : List Wr :=
  w.regWrites b d rs ++ w.predWrites pd rs ++ w.flagWrites rs

/-! ## Advancing past an instruction -/

/-- A lane's void marks after an instruction issues that writes a code and captures n results (R29, R30). The marks follow the
instructions of the run alone: a result of an ended run that is written during the next run enters Y's bits and leaves Y void
(DESIGN CHOICE, log 74). -/
def Lane.unvoid (l : Lane) (codes : List Nat) (caps : Nat) : Lane :=
  let v := codes.foldl (fun v c => if 192 ≤ c && c < 200 then v &&& ~~~ BitVec.ofNat 10 (2 ^ (c - 192)) else v) l.void
  let y0 := v.getLsbD 8
  let v' := if caps = 0 then v
    else if caps = 1 then (v &&& 0x0FF#10) ||| (if y0 then 0x200#10 else 0)
    else v &&& 0x0FF#10
  { l with void := v' }

/-- One lane steps past an instruction: its run grows; a receiver gains a producer (R28, R33). -/
def Lane.step (l : Lane) (len stall : Nat) (ps : List Producer) : Lane :=
  { l with pc := l.pc + len,
           run := { l.run with count := l.run.count + 1, dist := l.run.dist + 1 + stall,
                               prods := ps.map (fun p => { p with dist := l.run.dist }) ++ l.run.prods } }

/-- The cohort or cohorts of an issue move past it (R31): at lane scope the cohort stays in its slot; after a rendezvous
every arrived cohort resumes, at group scope as one. -/
def Block.moveCohorts (b : Block) (c : Ctx) (sc : Scope) (stall cycle : Nat) : Block :=
  if !c.wide then
    { b with cohorts := updWhere (·.id == c.coh)
               (fun k => { k with pc := c.pc + c.len, nextIssue := cycle + 1 + stall, wait := cycle, promoted := false }) b.cohorts }
  else
    let mine := (b.rdvs.find? (·.id == c.coh)).map (·.arrived) |>.getD []
    let ks := b.cohorts.filter fun k => mine.contains k.id
    let moved := ks.map fun k => { k with pc := c.pc + c.len, stage := Stage.resume, nextIssue := cycle + 1 + stall,
                                          wait := cycle, promoted := false }
    let merged := match moved with
      | k :: _ =>
        if sc == .group then
          [{ k with lanes := (List.range b.lanes.length).filter fun l => moved.any fun m => m.lanes.contains l }]
        else moved
      | [] => []
    let rest := b.cohorts.filter fun k => !mine.contains k.id
    let ids := merged.flatMap fun k => k.lanes.map fun l => (l, k.id)
    ({ b with cohorts := rest ++ merged, rdvs := b.rdvs.filter (·.id != c.coh) } : Block).modLanes (fun l => ids.any (·.1 == l))
      fun l ln => { ln with st := .running (((ids.find? (·.1 == l)).map (·.2)).getD 0) }

/-- The issue of an instruction that is no terminator, with its receivers' producers. -/
def Block.advance (b : Block) (c : Ctx) (h : Head) (cycle : Nat) (recv : List Nat) (codes : List Nat) (caps : Nat)
    (ps : List Producer) : Block :=
  (b.modLanes (fun l => c.lanes.contains l) fun l ln =>
      let r := recv.contains l
      (if r then ln.unvoid codes caps else ln).step c.len h.stall.toNat (if r then ps else [])).moveCohorts
    c h.scope h.stall.toNat cycle

/-- The core holds the instruction: nothing changes but that the cohort (or rendezvous) waits a cycle. -/
def State.holdIssue (s : State) (c : Ctx) : State :=
  { s.modBlock c.blk fun b =>
      if c.wide then { b with rdvs := updWhere (·.id == c.coh) (fun r => { r with nextIssue := s.cycle + 1 }) b.rdvs }
      else { b with cohorts := updWhere (·.id == c.coh) (fun k => { k with nextIssue := s.cycle + 1 }) b.cohorts }
    with cur := none }

/-- Advance with no result. -/
def State.pass (s : State) (b : Block) (c : Ctx) (h : Head) : State :=
  { s.setBlock (b.advance c h s.cycle [] [] 0 []) with cur := none }

/-- The results of a fixed-latency instruction in flight: its registers, predicates and flags, and apart from them its Y captures,
which keep the order of issue (R30, R34). -/
def fixedOf (id blk ready : Nat) (wrs caps : List Wr) : List FixedRes :=
  ⟨id, blk, ready, wrs⟩ :: if caps.isEmpty then [] else [⟨id + 1, blk, ready, caps⟩]

/-- Issue a fixed-latency instruction (R34): its writes wait for their cycle. -/
def State.issueFixed (s : State) (b : Block) (c : Ctx) (h : Head) (w : Work) (d : Opd) (pd lat : Nat)
    (rs : List (Nat × LaneRes)) : State :=
  let id := s.nextId
  let n := (resOf rs w.desig).outs.length
  let codes := dstCodes d n ++ (if pd < 7 then [256 + pd] else [])
  let ps := (if n = 0 then [] else [⟨(codes.headD 400), 0, lat, id, true⟩]) ++
    ((if n = 0 then codes else codes.drop 1).map fun k => ⟨k, 0, lat, id, decide (n = 2) && k < 256⟩)
  let b1 := b.modLanes (fun l => w.src.contains l) fun l ln =>
    match (resOf rs l).rng with
    | some v => { ln with rng := v }
    | none => ln
  { s.setBlock (b1.advance c h s.cycle (w.recv.map (·.1)) codes n ps) with
    cur := none, nextId := id + 2,
    fixed := s.fixed ++ fixedOf id b.id (s.cycle + lat) (w.writes b d pd rs) (w.captures d rs) }

/-- The lanes in which a pending tag is in flight (R36): the receivers at lane scope, every non-exited lane of the
members otherwise. -/
def Block.tagLanes (b : Block) (h : Head) (w : Work) : List Nat :=
  if h.scope == .lane then w.recv.map (·.1) else w.groups.flatMap b.live

/-- Issue a long-latency instruction under a pending tag (R36). -/
def State.issueLong (s : State) (b : Block) (c : Ctx) (h : Head) (w : Work) (d : Opd) (n tag : Nat) (body : LongBody)
    (ready : Bool) (wrs : List Wr) : State :=
  let id := s.nextId
  let lanes := b.tagLanes h w
  let o : LongOp :=
    { id := id, blk := b.id, die := b.die, tag := tag, lanes := lanes, codes := dstCodes d n, dst := d, recv := w.recv,
      pos := w.pos, groups := w.groups, desig := w.desig, scope := h.scope, stamp := (s.die b.die).quiesce, pc := c.pc, body := body, ready := ready, wrs := wrs, shown := [],
      drop := [], waits := none, logged := false, deferred := false, refused := [] }
  { s.setBlock (b.advance c h s.cycle [] [] 0 []) with cur := none, nextId := id + 1, longs := s.longs ++ [o] }

/-! ## Outstanding-operation counters (R311, R312) -/

/-- The counter: operations of the class not yet counted. -/
def Group.count (g : Group) (k : Ctr) : Nat := (g.ops.filter (·.ctr == k)).length

/-- An operation issues. -/
def Group.addOp (g : Group) (id : Nat) (k : Ctr) : Group := { g with ops := g.ops ++ [⟨id, k, false⟩] }

/-- Drop the completed operations of a class that no earlier uncounted operation of the class precedes. -/
def countPrefix (k : Ctr) : List OpRec → List OpRec
  | [] => []
  | o :: os => if o.ctr == k then (if o.done then countPrefix k os else o :: os) else o :: countPrefix k os

/-- An operation completes, and completions are counted in issue order. -/
def Group.finishOp (g : Group) (id : Nat) : Group :=
  let ops := updWhere (·.id == id) (fun o => { o with done := true }) g.ops
  match ops.find? (·.id == id) with
  | some o => { g with ops := countPrefix o.ctr ops }
  | none => g

def State.finishOp (s : State) (blk : Nat) (id : Nat) : State :=
  s.modBlock blk fun b => { b with groups := b.groups.map (·.finishOp id) }

def Block.addOps (b : Block) (gs : List Nat) (id : Nat) (k : Ctr) : Block :=
  gs.foldl (fun b g => b.modGroup g (·.addOp id k)) b

/-- Some member group's counter of the class reads 63 (R312). -/
def Block.ctrFull (b : Block) (gs : List Nat) (k : Ctr) : Bool := gs.any fun g => 63 ≤ (b.group g).count k

/-! ## Ending a run -/

/-- Every named tag in flight has completed (R38). -/
def State.awaitDone (s : State) (b : Block) (l : Nat) (mask : BitVec 8) : Bool :=
  (List.range 8).all fun t => !mask.getLsbD t || !s.tagBusy b l t

/-- A lane stands at a rendezvous: exited, or in a cohort held there. -/
def Block.arrivedAt (b : Block) (r : Rdv) (l : Nat) : Bool :=
  (b.lane l).exited || b.cohorts.any fun k => r.arrived.contains k.id && k.lanes.contains l

/-- The members whose every lane has arrived, in the order of their arrivals (R207, R287). -/
def Rdv.noted (b : Block) (r : Rdv) : Rdv :=
  { r with order := r.order ++ r.members.filter fun g => !r.order.contains g && (b.live g).all fun l => b.arrivedAt r l }

/-- A lane whose EXIT's awaits are done exits (R143), and has arrived at every rendezvous that requires it (R287). -/
def State.settleExit (s : State) (blk : Nat) : State :=
  match s.block? blk with
  | none => s
  | some b =>
    let b1 := b.modLanes (fun _ => true) fun l ln =>
      match ln.st with
      | .between _ m .exiting => if s.awaitDone b l m then { ln with st := .exited } else ln
      | _ => ln
    s.setBlock { b1 with rdvs := b1.rdvs.map (Rdv.noted b1) }

/-- The lanes of an issue end their run at a terminator: next run start, await mask and hold per lane (R137, R140). -/
def State.endRun (s : State) (b : Block) (c : Ctx) (await : BitVec 8) (next : Nat → Nat) (hold : Nat → Hold) : State :=
  let mine := if c.wide then ((b.rdvs.find? (·.id == c.coh)).map (·.arrived)).getD [] else [c.coh]
  let b1 := b.modLanes (fun l => c.lanes.contains l) fun l ln =>
    { ln with st := .between (next l) await (hold l), since := s.cycle, run := { ln.run with count := ln.run.count + 1 } }
  let b2 := { b1 with cohorts := b1.cohorts.filter (fun k => !mine.contains k.id),
                      rdvs := if c.wide then b1.rdvs.filter (·.id != c.coh) else b1.rdvs }
  { (s.setBlock b2).settleExit b.id with cur := none }

/-! ## Rendezvous (R283, R287, R288) -/

def Block.required (r : Rdv) : List Nat := r.members.flatMap fun g => (List.range 32).map (32 * g + ·)

/-- A lane is suspended: a trap is raised or a frame open for it, or its group is held (R283). -/
def Block.suspended (b : Block) (l : Nat) : Bool :=
  let g := b.group (l / 32)
  g.heldBy.isSome || (g.raised.map fun r => r.lanes.contains l).getD false ||
    (g.frame.map fun f => f.raised.lanes.contains l).getD false

/-- Some lane held at `r` is required by `q`. -/
def Block.holdsFor (b : Block) (r q : Rdv) : Bool :=
  (Block.required q).any fun l => !(b.lane l).exited && b.arrivedAt r l

/-! ## Taking a trap -/

def trapCode : Trap → Nat
  | .illegal => 1 | .runLong => 2 | .unitAbsent => 3 | .setAbsent => 4 | .voidOperand => 5 | .poisonUse => 6
  | .formatMismatch => 7 | .stallShort => 8 | .ptrBad => 9 | .scopeHome => 10 | .writeRs => 11 | .extent => 12
  | .align => 13 | .privilege => 14 | .staleHandle => 15 | .shapeInvalid => 16 | .slotInvalid => 17
  | .copyInvalid => 18 | .setInvalid => 19 | .rdvMismatch => 20 | .userTrap => 21 | .tstoreErr => 22
  | .accessRefused => 23

def scopeCode : Scope → Nat
  | .lane => 0 | .group => 1 | .set => 2 | .block => 3

/-- Halt a logical device (R274, R347): nothing more is placed; its blocks stop as at a window's end. -/
def State.haltDevice (s : State) (d : Nat) : State :=
  { s.modDie d fun di => { di with halted := true } with
    blocks := updWhere (fun b => b.die == d && (b.st == .running || match b.st with | .window _ => true | _ => false))
      (fun b => { b with st := .window 0 }) s.blocks }

/-- The lanes of a list as a 32-bit mask of home lane numbers. -/
def laneMask (ls : List Nat) : BitVec 32 := ls.foldl (fun m l => m ||| BitVec.ofNat 32 (2 ^ (l % 32))) 0

/-- A lane's access is made through a peer window: where its export is this device's own, a fault of a page there is the exporter's, on
which the request waits as one that was sent (R415). -/
def LaneAcc.byWindow (x : LaneAcc) : Bool := bits x.ptr.toNat 106 104 == 3

/-- A lane's access waits on a fault record, or to be recorded. -/
def LaneAcc.faulted (x : LaneAcc) : Bool := !x.byWindow && match x.phase with
  | .waits _ => true
  | _ => false

/-- A long-latency instruction delivers to some lanes: an HLD (which has no tag) to those of its groups. -/
def LongOp.inLanes (o : LongOp) (ls : List Nat) : Bool :=
  o.lanes.any ls.contains || (o.tag == 8 && ls.any fun l => o.groups.contains (l / 32))

/-- A long-latency instruction waits on a fault record: a BINRD or HLD, or a load or atomic one of whose lanes does. -/
def State.longWaits (s : State) (o : LongOp) : Bool :=
  o.waits.isSome || s.accs.any fun a => a.id == o.id && a.las.any (·.faulted)

/-- Everything the handler lanes issued earlier is performed or waits on a fault record; their fixed results are
written (R348 steps 1 and 2). -/
def State.drained (s : State) (b : Block) (ls : List Nat) : Bool :=
  (s.fixed.all fun f => f.blk != b.id || f.wrs.all fun w =>
    match w with
    | .reg l _ _ | .ycap l _ | .flags l _ | .pred l _ _ | .rng l _ => !ls.contains l
    | .kreg g _ _ | .hreg g _ _ => !ls.any fun l => l / 32 == g
    | .xpos .. | .xtag .. => false) &&
  (s.accs.all fun a => a.blk != b.id || a.las.all fun x => x.phase == .done || x.faulted || !ls.contains x.lane) &&
  (s.longs.all fun o => o.blk != b.id || !o.inLanes ls || s.longWaits o)

/-- The index of the fault record that something waits on, as a frame gives it; a fault still to be recorded has none (R396, log 48). -/
def recIndex (r : Nat) : Nat := if r < 1024 then r % 256 else 0xFF

/-- A fault-record index an access waits on. -/
def Access.waitRec (a : Access) : Nat :=
  (a.las.findSome? fun x => match x.phase with
    | .waits r => some (recIndex r)
    | _ => none).getD 0xFF

def Access.faulted (a : Access) : Bool := a.las.any (·.faulted)

/-- Is an access a store (R353's summary bit)? -/
def Access.isStore (a : Access) : Bool := a.kind == .store

/-- What a frame says of an access of the handler lanes that awaits replay (R353). -/
structure LogSum where
  id : Nat
  addr : Word
  word : Word
deriving DecidableEq, Repr

/-- A frame's log summary of an access (R353). -/
def Access.summary (a : Access) : LogSum :=
  ⟨a.id, BitVec.ofNat 64 a.pc,
   mkWord [((laneMask ((a.las.filter (·.faulted)).map (·.lane))).toNat, 0), (a.tag % 8, 32), ((regCode? a.dst).getD 252, 35),
           (a.waitRec, 43), (if a.isStore then 1 else 0, 51)]⟩

/-- A frame's log summary of a BINRD or HLD that awaits replay. -/
def LongOp.summary (o : LongOp) : LogSum :=
  ⟨o.id, BitVec.ofNat 64 o.pc,
   mkWord [((laneMask (if o.lanes.isEmpty then [o.desig] else o.lanes)).toNat, 0), (o.tag % 8, 32), ((regCode? o.dst).getD 252, 35),
           (recIndex (o.waits.getD 1024), 43)]⟩

/-- Put a summary into a list in issue order. -/
def insertSum (x : LogSum) : List LogSum → List LogSum
  | [] => [x]
  | y :: r => if x.id < y.id then x :: y :: r else y :: insertSum x r

/-- What handler lanes await replay of, in issue order. -/
def State.waitingOf (s : State) (b : Block) (ls : List Nat) : List LogSum :=
  (s.longs.filter fun o => o.blk == b.id && o.waits.isSome && o.inLanes ls).foldl
    (fun l o => insertSum o.summary l)
    ((s.accs.filter fun a => a.blk == b.id && a.faulted && a.las.any fun x => ls.contains x.lane).map (·.summary))

/-- The value of a register as bytes of a frame. -/
def regBytes (l : Option Lane) (c : Nat) : List Byte :=
  match l with
  | some ln => toBytes 8 (Sparse.get Reg.zero ln.regs c).bits.toNat
  | none => toBytes 8 0

def tagCode : Tag → Nat
  | .fp32 => 0 | .bf16 => 1 | .fp16 => 2 | .e4m3 => 3 | .e5m2 => 4 | .i8 => 5 | .i16 => 6 | .i32 => 7 | .i64 => 8
  | .n8 => 9 | .n16 => 10 | .n32 => 11 | .n64 => 12 | .ptrLo => 13 | .ptrHi => 14 | .poison => 15

def tagOf : Nat → Tag
  | 0 => .fp32 | 1 => .bf16 | 2 => .fp16 | 3 => .e4m3 | 4 => .e5m2 | 5 => .i8 | 6 => .i16 | 7 => .i32 | 8 => .i64
  | 9 => .n8 | 10 => .n16 | 11 => .n32 | 12 => .n64 | 13 => .ptrLo | 14 => .ptrHi | _ => .poison

/-- The 14 registers of a frame's tag words: Q0 to Q7, Y0, Y1, V0 to V3 (R349). -/
def frameCodes : List Nat := [192, 193, 194, 195, 196, 197, 198, 199, 200, 201, 0, 1, 2, 3]

/-- An imprecise trap is pending for some lanes of a group: a refusal of theirs, or the block's TSTORE_ERR (R350, R355). -/
def Block.morePending (b : Block) (g : Nat) (ls : List Nat) : Bool :=
  b.tsErr.isSome || (b.group g).refusals.any fun r => r.lanes.any ls.contains

/-- The CODE word (R350). -/
def Raised.codeWord (r : Raised) (more : Bool) : Word :=
  mkWord [(trapCode r.trap, 0), (if more then 1 else 0, 7), (scopeCode r.tscope, 40), (r.user.toNat, 48)]

/-- The ACTION a frame is written with (R354). -/
def Raised.action (r : Raised) : Nat := if r.trap == .userTrap then 1 else 0

/-- The first 0x1200 bytes of a frame (R349): lane m is `ln m` when it is in the handler cohort. -/
def frameBytes (r : Raised) (more : Bool) (ln : Nat → Option Lane) (logs : List LogSum) : List Byte :=
  let ms := List.range 32
  let w64 (x : Word) := toBytes 8 x.toNat
  let sums := (logs.take 8).flatMap fun e => w64 e.addr ++ w64 e.word
  let voidMask (k : Nat) : Nat := maskOf (ms.map fun m => ((ln m).map fun l => l.void.getLsbD k).getD false)
  let predMask (k : Nat) : Nat := maskOf (ms.map fun m => ((ln m).map fun l => l.p.getLsbD k).getD false)
  let tags (l : Lane) : Nat := packNat 4 (frameCodes.map fun c => tagCode (Sparse.get Reg.zero l.regs c).tag)
  w64 (r.codeWord more) ++ toBytes 8 r.pc ++ toBytes 8 r.pc2 ++ w64 r.detail ++ w64 r.addr ++
  w64 (mkWord [((laneMask r.lanes).toNat, 0), (r.failmask.toNat, 32)]) ++ toBytes 8 r.runpos ++ toBytes 8 r.action ++
  toBytes 8 0 ++ toBytes 8 (min logs.length 8) ++ sums ++ List.replicate (128 - sums.length) 0 ++
  ((List.range 10).flatMap fun k => toBytes 4 (voidMask k)) ++ toBytes 8 0 ++
  ((List.range 10).flatMap fun k => ms.flatMap fun m => regBytes (ln m) (192 + k)) ++
  ((List.range 4).flatMap fun k => ms.flatMap fun m => regBytes (ln m) k) ++
  (ms.flatMap fun m => toBytes 8 (((ln m).map tags).getD 0)) ++
  (ms.flatMap fun m => toBytes 8 (((ln m).map fun l => l.flags.toNat).getD 0)) ++
  ((List.range 7).flatMap fun k => toBytes 4 (predMask k)) ++ List.replicate 228 0

/-- The frame pointer of a die (R348): global, private class, die scope, 8,192 bytes, formats N64. -/
def framePtr (d base : Nat) : BitVec 128 :=
  BitVec.ofNat 128 (base + 8192 * 2 ^ 64 + 12 * 2 ^ 96 + 12 * 2 ^ 100 + 3 * 2 ^ 109 + d * 2 ^ 116)

/-- The address of a group's frame (R347). -/
def State.frameBase (s : State) (b : Block) (g : Nat) : Nat :=
  let l0 := b.lane (32 * g)
  bits (s.die b.die).tframe.toNat 63 31 * 2 ^ 31 + 8192 * (l0.winCore * 1024 + l0.winLane)

/-- A destination register in flight as the handler finds it: tag POISON, bytes 0xFF (R348). -/
def Block.putPoison (b : Block) (ls : List Nat) (o : LongOp) (c : Nat) : Block :=
  if c < 202 then
    b.modLanes (fun l => ls.contains l && o.lanes.contains l) fun _ ln => ln.setReg c ⟨BitVec.allOnes 64, .poison⟩
  else if c < 234 then
    match b.setOf (o.desig / 32) with
    | some t => b.modSet t.no fun t =>
        { t with x := o.pos.foldl (fun x e => Sparse.set 0 x (32 * (c - 202) + e.1) (BitVec.allOnes 64)) t.x,
                 xtag := Sparse.set .n64 t.xtag (c - 202) .poison }
    | none => b
  else o.groups.foldl (fun b g => b.modGroup g fun gr => { gr with k := gr.k.set (c - 234) (BitVec.allOnes 64) }) b

/-- An H register in flight as the handler finds it: bytes 0xFF (R348). -/
def Block.putOnes (b : Block) (gs : List Nat) (hr : Nat) : Block :=
  gs.foldl (fun b g => b.modGroup g fun gr =>
    if gr.hPend.contains hr then { gr with h := gr.h.set hr (BitVec.allOnes 512), hPend := gr.hPend.erase hr } else gr) b

/-- The H register of an HLD that faulted. -/
def LongOp.hldReg (o : LongOp) : Option Nat := match o.body with
  | .hld hr .. => some hr
  | _ => none

/-- A load or atomic that awaits replay is shown to the handler as POISON, an HLD too, bytes 0xFF, and its replay deferred until TRET;
a store's is not (R250, R348, R353). -/
def State.showPoison (s : State) (b : Block) (ids : List Nat) (ls : List Nat) : State × Block :=
  let os := s.longs.filter fun o => ids.contains o.id && !o.codes.isEmpty
  let b := os.foldl (fun b o => o.codes.foldl (fun b c => b.putPoison ls o c) b) b
  let b := (s.longs.filter fun o => ids.contains o.id).foldl (fun b o => match o.hldReg with
    | some hr => b.putOnes (o.groups.filter (homesOf ls).contains) hr
    | none => b) b
  ({ s with longs := updWhere (fun o => ids.contains o.id)
              (fun o => { o with shown := if o.codes.isEmpty then o.shown else o.lanes.filter ls.contains, deferred := o.hldReg.isSome }) s.longs,
            accs := updWhere (fun a => ids.contains a.id && !a.isStore) (fun a => { a with deferred := true }) s.accs }, b)

/-- What a group's frame is written with (R349): the loads that await replay stand in it as POISON (R348). -/
def State.frameImage (s : State) (b : Block) (g : Nat) (r : Raised) : List Byte :=
  let logs := s.waitingOf b r.lanes
  let b1 := (s.showPoison b (logs.map (·.id)) r.lanes).2
  frameBytes r (b.morePending g r.lanes) (fun m => (r.lanes.find? (· % 32 == m)).map b1.lane) logs

/-- A group's frame may be written at once: it lies in device memory, where nobody holds a line and no die sleeps. Where it may not, TRAP_ENTRY
asks for its lines (R412, R421, R453). -/
def State.frameFree (s : State) (b : Block) (g : Nat) : Bool :=
  s.holders.isEmpty && s.hostHeld.isEmpty && s.leases.isEmpty && s.bootState != 3 &&
  (s.dies.all fun d => d.pwrState == 0 || d.pwrState == 3) &&
  match s.spots b.die (s.frameBase b g) 8192 .write .either with
  | (_, .ok (.host _ :: _)) => false
  | _ => true

/-- ENTER THE HANDLER of a raised trap (R348): the frame is written; V0:V1 receive the frame pointer, V2 the CODE word,
V3 the PC; the group enters system mode; the cohort begins a run at TVEC.ENTRY with Q and Y void. Without a handler or a
writable frame the logical device halts and the error log records the trap (R347). -/
def State.enterTrap (s : State) (blk g : Nat) : State :=
  match s.block? blk with
  | none => s
  | some b =>
    match (b.group g).raised with
    | none => s
    | some r =>
      let d := b.die
      let tvec := (s.die d).tvec.toNat
      let base := s.frameBase b g
      let fail (s : State) : State := (s.logOwn d 0x07 (BitVec.ofNat 64 r.pc) (BitVec.ofNat 64 (trapCode r.trap))).haltDevice d
      if !bit tvec 0 || !bit (s.die d).tframe.toNat 0 then fail s
      else
        match s.spots d base 8192 .write .either with
        | (s, .ok ps) =>
          let img := s.frameImage b g r
          let logs := s.waitingOf b r.lanes
          let more := b.morePending g r.lanes
          let (s, b) := s.showPoison b (logs.map (·.id)) r.lanes
          let s := s.storeBytes (ps.zip img)
          let fp := framePtr d base
          let entry := bits tvec 63 2 * 4
          let (id, s) := s.fresh
          let runs := r.lanes.map fun l => (l, (b.lane l).run)
          let b1 := b.modLanes (fun l => r.lanes.contains l) fun _ ln =>
            { ((((ln.setReg 0 ⟨fp.setWidth 64, .ptrLo⟩).setReg 1 ⟨(fp >>> 64).setWidth 64, .ptrHi⟩).setReg 2
                ⟨r.codeWord more, .n64⟩).setReg 3 ⟨BitVec.ofNat 64 r.pc, .n64⟩) with
              pc := entry, void := 0x3FF, run := ⟨entry, 0, 0, []⟩, st := .running id }
          let k : Cohort := { id := id, grp := g, lanes := r.lanes, pc := entry, start := entry, stage := .resume,
                              wait := s.cycle, nextIssue := s.cycle + 1, promoted := false, fetched := none }
          let b2 := ({ b1 with cohorts := b1.cohorts.filter (·.id != r.coh) ++ [k] } : Block).modGroup g fun gr =>
            { gr with sysMode := true, raised := none,
                      frame := some { raised := r, base := base, runs := runs, written := [],
                                      deferred := logs.map (·.id), coh := id } }
          s.setBlock b2
        | (s, .wait) => s
        | (s, .fault ..) => fail s

/-- What a frame holds of the lowest failing lane: DETAIL, ADDR, the code of a TRAP. -/
structure TrapArgs where
  detail : Word
  addr : Word
  user : BitVec 16
deriving DecidableEq, Repr

def TrapArgs.none : TrapArgs := ⟨0, 0, 0⟩

/-- The cohorts of a context stay at their instruction. -/
def Block.standHeld (b : Block) (c : Ctx) : Block :=
  { b with cohorts := updWhere (·.id == c.coh) (fun k => { k with stage := .held }) b.cohorts }

/-- RAISE A TRAP: fix the handler cohort and what the frame will hold (R345, R348; RUNPOS is the greatest count of its lanes: DESIGN
CHOICE, log 110), suspend the other members (R289),
and enter the handler at once when everything earlier is performed and the frame is free; otherwise TRAP_ENTRY does. A trap in the handler
cohort halts the logical device; one in another cohort of a group with an open frame waits at its instruction (R351). -/
def State.raiseHome (s : State) (b : Block) (c : Ctx) (sc : Scope) (t : Trap) (fail : List Nat) (x : TrapArgs) (pc2 : Nat) : State :=
  let dg := if c.wide then ((b.designated c.members).map (· / 32)).getD c.grp else c.grp
  let ls := if c.wide then b.live dg else c.lanes
  let gr := b.group dg
  match gr.raised, gr.frame with
  | none, none =>
    let (id, s) := s.fresh
    let others := if c.wide then c.members.filter (· != dg) else []
    let r : Raised :=
      { trap := t, lanes := ls, failmask := laneMask (fail.filter fun l => l / 32 == dg || t == .accessRefused), pc := c.pc,
        pc2 := pc2, detail := x.detail, addr := x.addr, user := x.user, tscope := sc,
        runpos := (ls.map fun l => (b.lane l).run.count).foldl max 0, members := others, coh := id,
        fetched := b.cohorts.findSome? fun q => if q.lanes.any ls.contains then q.fetched.filter (·.1 == c.pc) else none }
    let k : Cohort := { id := id, grp := dg, lanes := ls, pc := c.pc, start := c.pc, stage := .held, wait := s.cycle,
                        nextIssue := s.cycle + 1, promoted := false, fetched := none }
    let kept := b.cohorts.filter fun q => !q.lanes.any ls.contains
    let rdvs := if c.wide then
        (if others.isEmpty then b.rdvs.filter (·.id != c.coh)
         else updWhere (·.id == c.coh)
           (fun q => { q with fired := false, arrived := q.arrived.filter fun i => kept.any (·.id == i),
                              order := q.order.filter (· != dg) }) b.rdvs)
      else b.rdvs
    let b1 := ({ b with cohorts := kept ++ [k], rdvs := rdvs } : Block).modLanes (fun l => ls.contains l)
      fun _ ln => { ln with st := .running id, pc := c.pc }
    let b2 := others.foldl (fun b g => b.modGroup g fun gr => { gr with heldBy := some dg }) b1
    let b3 := b2.modGroup dg fun gr => { gr with raised := some r }
    let s1 := { s.setBlock b3 with cur := none }
    if !(s.die b.die).halted && s1.drained b3 ls && s1.frameFree b3 dg then s1.enterTrap b.id dg else s1
  | _, some f =>
    if ls.any f.raised.lanes.contains then
      let s1 := s.setBlock (b.standHeld c)
      if (s.die b.die).halted then { s1 with cur := none }
      else { (s1.logOwn b.die 0x07 (BitVec.ofNat 64 c.pc)
          (mkWord [(trapCode t, 0), (trapCode f.raised.trap, 8)])).haltDevice b.die with cur := none }
    else { s.setBlock (b.standHeld c) with cur := none }
  | some _, none => { s.setBlock (b.standHeld c) with cur := none }

/-- The contexts of a cohort whose lanes belong to several home groups (R54): one cohort for each, the first under the old
number, all standing at the instruction. -/
def State.splitHomes (s : State) (b : Block) (c : Ctx) : State × Block × List Ctx :=
  let parts := (homesOf c.lanes).zipIdx.map fun (g, i) =>
    (g, if i = 0 then c.coh else s.nextId + i, c.lanes.filter fun l => l / 32 == g)
  let old := (b.cohorts.filter (·.id == c.coh))
  let new := parts.flatMap fun (g, id, ls) => old.map fun k =>
    { k with id := id, grp := g, lanes := ls, stage := .resume, nextIssue := s.cycle + 1 }
  let b1 := ({ b with cohorts := b.cohorts.filter (·.id != c.coh) ++ new } : Block).modLanes (fun l => c.lanes.contains l)
    fun l ln => { ln with st := .running (((parts.find? fun p => p.2.2.contains l).map (·.2.1)).getD c.coh) }
  ({ s with nextId := s.nextId + parts.length }, b1, parts.map fun (g, id, ls) => { c with coh := id, grp := g, lanes := ls })

/-- DETAIL of a trap of R350's first row that fails no numbered check: the spec gives no value, so its check, and its operand
where it names none, are free (log 20). -/
def State.openDetail (s : State) (t : Trap) (detail : Word) : State × Word :=
  let row := match t with
    | .ptrBad | .scopeHome | .writeRs | .formatMismatch | .extent => true
    | _ => false
  if row && detail.toNat % 8 == 0 then
    let (v, s) := s.freeVal
    (s, detail ||| (v &&& (if detail == 0 then 0xF07 else 7)))
  else (s, detail)

/-- Raise a trap for each home group of the issue that has a failing lane, with what its lowest failing lane gives; the lanes of
other home groups stay at the instruction. -/
def State.raise (s : State) (b : Block) (c : Ctx) (sc : Scope) (t : Trap) (fail : List Nat) (x : Nat → TrapArgs) (pc2 : Nat) : State :=
  let one (s : State) (b : Block) (k : Ctx) (fs : List Nat) : State :=
    let a := x (match fs with
      | l :: ls => ls.foldl min l
      | [] => k.lanes.headD 0)
    let (s, d) := s.openDetail t a.detail
    s.raiseHome b k sc t fs { a with detail := d } pc2
  if c.wide then one s b c fail
  else if (homesOf c.lanes).length < 2 then one s b { c with grp := (homesOf c.lanes).headD c.grp } fail
  else
    let (s1, b1, cs) := s.splitHomes b c
    (if fail.isEmpty then cs.take 1 else cs.filter fun k => (homesOf fail).contains k.grp).foldl (fun s k =>
      match s.block? k.blk with
      | some b => one s b k (fail.filter fun l => l / 32 == k.grp)
      | none => s) { s1.setBlock b1 with cur := none }

/-- A trap without DETAIL, ADDR or user code. -/
def State.trap (s : State) (b : Block) (c : Ctx) (sc : Scope) (t : Trap) (fail : List Nat) : State :=
  s.raise b c sc t fail (fun _ => TrapArgs.none) 0

/-! ## Returning from a trap (R354) -/

/-- Registers Q0 to Y1 and V0 to V3, P0 to P6 and flags of a lane as a frame's image gives them; `quick` restores Q and
Y with their void marks too. -/
def Lane.restore (ln : Lane) (img : List Byte) (m : Nat) (quick : Bool) : Lane :=
  let at_ (o n : Nat) : Nat := ofBytes ((img.drop o).take n)
  let tags := at_ (0xF00 + 8 * m) 8
  let reg (k o : Nat) : Reg := ⟨BitVec.ofNat 64 (at_ o 8), tagOf (bits tags (4 * k + 3) (4 * k))⟩
  let l1 := (List.range 4).foldl (fun ln k => ln.setReg k (reg (10 + k) (0xB00 + 256 * k + 8 * m))) ln
  let l2 := if quick then
      { (List.range 10).foldl (fun ln k => ln.setReg (192 + k) (reg k (0x100 + 256 * k + 8 * m))) l1 with
        void := BitVec.ofNat 10 (maskOf ((List.range 10).map fun k => bit (at_ (0xD0 + 4 * k) 4) m)) }
    else l1
  { l2 with flags := BitVec.ofNat 6 (at_ (0x1000 + 8 * m) 8),
            p := BitVec.ofNat 7 (maskOf ((List.range 7).map fun k => bit (at_ (0x1100 + 4 * k) 4) m)) }

/-- Release the deferred replays (R354): each destination is in flight again unless the handler has written it; V0 to V3 count as
written by a store to their image in the frame. -/
def State.releaseDeferred (s : State) (f : Frame) : State :=
  let wrote (l c : Nat) : Bool :=
    if c < 4 then f.written.contains (l, 1000 + c)
    else if c < 202 then f.written.contains (l, c)
    else f.written.any (·.2 == c)
  let gs := homesOf f.raised.lanes
  let back (s : State) (o : LongOp) : State := match o.hldReg with
    | some hr => s.modBlock o.blk fun b => (o.groups.filter fun g => gs.contains g && !f.written.contains (32 * g, 400 + hr)).foldl
        (fun b g => b.modGroup g fun gr => { gr with hPend := gr.hPend ++ [hr] }) b
    | none => s
  let hdrop (o : LongOp) : List (Nat × Nat) := match o.hldReg with
    | some hr => (gs.filter fun g => o.groups.contains g && f.written.contains (32 * g, 400 + hr)).map fun g => (32 * g, 400 + hr)
    | none => []
  { (s.longs.filter fun o => f.deferred.contains o.id).foldl back s with
    longs := updWhere (fun o => f.deferred.contains o.id)
      (fun o => { o with shown := [], deferred := false, drop := o.drop ++ hdrop o ++ o.lanes.flatMap fun l =>
                           (o.codes.filter fun c => f.raised.lanes.contains l && wrote l c).map fun c => (l, c) }) s.longs,
    accs := updWhere (fun a => f.deferred.contains a.id) (fun a => { a with deferred := false }) s.accs }

/-- RETURN FROM A TRAP (R354): act on ACTION in every lane of the handler cohort, release the deferred replays, let the
held members go on, and leave system mode unless the launch asked for it. An instruction that is retried is not fetched again (R344). -/
def State.returnTrap (s : State) (b : Block) (g : Nat) (f : Frame) (img : List Byte) (skipLen skipStall : Nat) (skipTerm : Bool) : State :=
  let at_ (o n : Nat) : Nat := ofBytes ((img.drop o).take n)
  let action := at_ 0x38 8 % 4
  let target := at_ 0x40 8
  let ls := f.raised.lanes
  let (id, s) := s.fresh
  let resume (pc : Nat) (add : Nat) (b : Block) : Block :=
    let b1 := b.modLanes (fun l => ls.contains l) fun l ln =>
      let old := ((f.runs.find? (·.1 == l)).map (·.2)).getD ⟨pc, 0, 0, []⟩
      { ln.restore img (l % 32) true with
        pc := pc, st := .running id, run := { old with count := old.count + add, dist := old.dist + add * (1 + skipStall) } }
    let k : Cohort := { id := id, grp := g, lanes := ls, pc := pc, start := pc, stage := .resume, wait := s.cycle,
                        nextIssue := s.cycle + 1, promoted := false, fetched := f.raised.fetched.filter (·.1 == pc) }
    { b1 with cohorts := b1.cohorts.filter (fun q => !q.lanes.any ls.contains) ++ [k] }
  let between (pc : Nat) (quick : Bool) (b : Block) : Block :=
    { b.modLanes (fun l => ls.contains l) fun l ln =>
        { ln.restore img (l % 32) quick with st := .between pc 0 .ready, since := s.cycle } with
      cohorts := b.cohorts.filter fun q => !q.lanes.any ls.contains }
  let b1 :=
    match action with
    | 0 => resume f.raised.pc 0 b
    | 1 => if skipTerm then between (f.raised.pc + skipLen) true b else resume (f.raised.pc + skipLen) 1 b
    | 2 => between target false b
    | _ => { b.modLanes (fun l => ls.contains l) fun _ ln => { ln with st := .between 0 0 .exiting } with
             cohorts := b.cohorts.filter fun q => !q.lanes.any ls.contains }
  -- a skip of a set- or block-scope instruction lets the held members past it too (DESIGN CHOICE, log 109)
  let b2 :=
    if action = 1 && !f.raised.members.isEmpty then
      let rs := b1.rdvs.filter fun r => r.pc == f.raised.pc && r.members.any f.raised.members.contains
      let ids := rs.flatMap (·.arrived)
      if skipTerm then
        let held := b1.cohorts.filter fun k => ids.contains k.id
        { b1.modLanes (fun l => held.any (·.lanes.contains l)) fun _ ln =>
            { ln with st := .between (f.raised.pc + skipLen) 0 .ready, since := s.cycle } with
          cohorts := b1.cohorts.filter (fun k => !ids.contains k.id), rdvs := b1.rdvs.filter fun r => !rs.contains r }
      else
        { b1.modLanes (fun l => b1.cohorts.any fun k => ids.contains k.id && k.lanes.contains l) fun _ ln =>
            ln.step skipLen skipStall [] with
          cohorts := updWhere (fun k => ids.contains k.id)
            (fun k => { k with pc := f.raised.pc + skipLen, stage := .resume, nextIssue := s.cycle + 1 }) b1.cohorts,
          rdvs := b1.rdvs.filter fun r => !rs.contains r }
    else b1
  let b3 := f.raised.members.foldl (fun b g => b.modGroup g fun gr => { gr with heldBy := none }) b2
  let b4 := { b3.modGroup g fun gr => { gr with frame := none, sysMode := gr.sysLaunch } with
      cohorts := updWhere (fun k => (g :: f.raised.members).contains (k.lanes.headD 0 / 32) && k.stage == .held)
        (fun k => { k with stage := .resume }) b3.cohorts }
  { ((s.setBlock b4).releaseDeferred f).settleExit b.id with cur := none }

/-! ## Arriving at a rendezvous -/

/-- A cohort arrives at an instruction of group scope or wider (R283): it gives up its slot and keeps its lanes. When
two open rendezvous each hold a lane the other requires, RDV_MISMATCH is raised for the wider scope (R288); while a trap of a
group concerned is open, the cohort waits at the instruction (R351). A group of no set is the only member of its own set-scope
rendezvous, and SET_ABSENT follows it as a check (R286, log 75). An arrival in mismatch with two open rendezvous meets the oldest of them
(DESIGN CHOICE, log 105). -/
def State.arriveHome (s : State) (b : Block) (c : Ctx) (i : Instr) (sc : Scope) : State :=
  let gs := b.members c.grp sc
  let b0 := { b with cohorts := updWhere (·.id == c.coh) (fun k => { k with stage := .held }) b.cohorts }
  let (r, s, b1) :=
    match b.rdvs.find? fun r => r.pc == c.pc && r.scope == sc && r.members == gs with
    | some r => (r, s, b0)
    | none =>
      let (id, s) := s.fresh
      let r : Rdv := { id := id, scope := sc, pc := c.pc, instr := i, len := c.len, members := gs, arrived := [],
                       order := [], fired := false, nextIssue := 0 }
      (r, s, { b0 with rdvs := b0.rdvs ++ [r] })
  let r2 := Rdv.noted b1 { r with arrived := r.arrived ++ [c.coh] }
  let b2 := { b1 with rdvs := updWhere (·.id == r.id) (fun _ => r2) b1.rdvs,
                      cohorts := updWhere (·.id == c.coh) (fun k => { k with stage := .rdv r.id }) b1.cohorts }
  match b2.rdvs.find? fun q => q.id != r2.id && b2.holdsFor q r2 && b2.holdsFor r2 q with
  | none => { s.setBlock b2 with cur := none }
  | some q =>
    let wide := if scopeCode q.scope ≤ scopeCode r2.scope then r2 else q
    let away (g : Nat) : Bool := (b.group g).raised.isSome || (b.group g).frame.isSome || (b.group g).heldBy.isSome
    if (c.grp :: wide.members).any away then s.holdIssue c
    else
      -- both rendezvous are abandoned: every cohort held there stands at its own instruction; the trap is that of the wider scope
      let ids := r2.arrived ++ q.arrived
      let (nid, s) := s.fresh
      let b3 := { b2 with
        rdvs := b2.rdvs.filter fun x => x.id != r2.id && x.id != q.id,
        cohorts := updWhere (fun k => ids.contains k.id) (fun k => { k with stage := .held }) b2.cohorts }
      let cw : Ctx := { blk := b.id, coh := nid, grp := c.grp, lanes := wide.members.flatMap b3.live, pc := r2.pc,
                        len := r2.len, wide := true, members := wide.members, order := [] }
      s.raise b3 cw sc .rdvMismatch [] (fun _ => TrapArgs.none) q.pc

/-- Arrive: the lanes of each home group apart (R54, R281). -/
def State.arrive (s : State) (b : Block) (c : Ctx) (i : Instr) (sc : Scope) : State :=
  let (s1, b1, cs) := s.splitHomes b c
  cs.foldl (fun s k =>
    match s.block? k.blk with
    | some b => s.arriveHome b k i sc
    | none => s) (s1.setBlock b1)

/-! ## The frame every meaning is written in -/

/-- The encoded operand fields of an instruction's sources: SRCA, SRCB, SRCC (R103). -/
def Instr.srcCodes (i : Instr) : List Nat :=
  match i.fields with
  | some (g, _) => [g.a.toNat, g.b.toNat, g.c.toNat]
  | none => []

/-- The operand field (1 SRCA to 3 SRCC) that names source n of a list of sources in the order of the fields: a source no
later field names, or the odd half of a pointer, belongs to the field of the one before it (R350). -/
def specField (i : Instr) (sps : List SrcSpec) (n : Nat) : Nat :=
  let fs := (Instr.srcCodes i).zipIdx.map fun (c, k) => (k + 1, c)
  max 1 ((sps.take (n + 1)).foldl (fun f sp =>
    if sp.chk == .ptrHi then f
    else match fs.find? fun e => f < e.1 && some e.2 == regCode? sp.opd with
      | some e => e.1
      | none => f) 0)

/-- Run a meaning in the issuing context: an instruction of group scope or wider first rendezvouses; the guard predicate
must be written (R35, R283, R286). Where it is read too early under CTL.STALLCHK the meaning goes on with the value it will have, and
`gated` raises STALL_SHORT after the checks that come before it (R46). -/
def State.issue (s : State) (i : Instr) (h : Head) (k : Block → Ctx → Out) : Out :=
  match s.cur with
  | none => .fault .noContext
  | some c =>
    match s.block? c.blk with
    | none => .fault .noContext
    | some b =>
      if h.scope != .lane && !c.wide then .next (s.arrive b c i h.scope)
      else
        match s.guardGate b (b.guardLanes c) h with
        | .hold => .next (s.holdIssue c)
        | .trap .. => k (s.landedPreds b) c
        | .pass => k b c

/-- The place of a trap among checks 3 to 7 of R46. -/
def checkRank : Trap → Nat
  | .setAbsent => 3
  | .voidOperand => 4
  | .poisonUse => 5
  | .formatMismatch => 6
  | _ => 7

/-- What two sets of sources together find: the check that comes first in R46, in every lane that fails it; `n`: the number of the
first set's sources. -/
def Gate.both (n : Nat) (a b : Gate) : Gate :=
  match a, b with
  | .trap t l k, .trap u m j =>
    if checkRank t < checkRank u then .trap t l k
    else if checkRank u < checkRank t then .trap u m (n + j)
    else .trap t (l ++ m) k
  | .trap t l k, _ => .trap t l k
  | _, .trap u m j => .trap u m (n + j)
  | .pass, .pass => .pass
  | _, _ => .hold

/-- Act on what checks 3 to 7 of R46 find, the guard among them: trap, hold or go on. -/
def State.gatedBy (s : State) (b : Block) (c : Ctx) (i : Instr) (h : Head) (g : Gate) (sps : List SrcSpec) (k : Out) : Out :=
  let early := s.guardShort b (b.guardLanes c) h
  match g with
  | .hold => .next (s.holdIssue c)
  | .trap t l n =>
    if t == .stallShort then .next (s.trap b c h.scope t (early ++ l))
    else
      let x : TrapArgs := ⟨if t == .formatMismatch then BitVec.ofNat 64 (256 * specField i sps n) else 0, 0, 0⟩
      .next (s.raise b c h.scope t l (fun _ => x) 0)
  | .pass => if early.isEmpty then k else .next (s.trap b c h.scope .stallShort early)

/-- Checks 3 to 7 of R46 on an instruction's sources, destinations and guard. -/
def State.gated (s : State) (b : Block) (c : Ctx) (i : Instr) (h : Head) (src recv : List Nat) (sps : List SrcSpec)
    (writes preds : List Nat) (k : Out) : Out :=
  s.gatedBy b c i h (s.gate b src recv sps writes preds) sps k

/-- Act on a check an instruction makes besides those of `gated`: trap, hold or go on. -/
def State.onGate (s : State) (b : Block) (c : Ctx) (h : Head) (g : Gate) (k : Out) : Out :=
  match g with
  | .hold => .next (s.holdIssue c)
  | .trap t l _ => .next (s.trap b c h.scope t l)
  | .pass => k

/-- AN INSTRUCTION OF FIXED LATENCY that reads registers and writes a destination, a predicate or both (R136, R153):
the checks, the result of each source lane, the writes due after the latency. -/
def State.alu (s : State) (i : Instr) (h : Head) (sps : List SrcSpec) (preds : List Nat) (d : Opd) (n pd lat : Nat)
    (f : Block → Work → Nat → LaneRes) : Out :=
  s.issue i h fun b c =>
    let w := b.work c h
    if !w.acts then .next (s.pass b c h)
    else
      let codes := dstCodes d n ++ (if pd < 7 then [256 + pd] else [])
      s.gated b c i h w.src (w.recv.map (·.1)) (sps ++ needs h d) codes preds
        (.next (s.issueFixed b c h w d pd lat (w.src.map fun l => (l, f b w l))))

end Sys2Proof.Machine
end

