-- ==== Sys2Proof/Machine/Control.lean ====
section
/-! DEFINITION. Class 000: terminators, SETD and NOP (R137 to R151, R355). WAITM stands with the memory instructions. -/

namespace Sys2Proof.Machine

/-- The first pending ACCESS_REFUSED of a lane that issues this terminator, with its group. -/
def Block.dueRefusal (b : Block) (c : Ctx) : Option (Nat × Refused) :=
  ((c.lanes.map (· / 32)).eraseDups.flatMap fun g =>
    ((b.group g).refusals.filter fun r => r.lanes.any c.lanes.contains).map fun r => (g, r)).head?

/-- DETAIL of TSTORE_ERR (R350). -/
def TsErr.detail (e : TsErr) : Word :=
  mkWord [(e.slot, 0), (min e.rows 65535, 16), (if e.released then 1 else 0, 32), (if e.remote then 1 else 0, 33),
          (e.rank, 34)]

/-- DETAIL of ACCESS_REFUSED (R350). -/
def Refused.detail (r : Refused) : Word := mkWord [(r.frec % 256, 0), (r.tag % 256, 8), (r.dst % 256, 16)]

/-- Is a lane of the issue in a trap handler? -/
def Block.inHandler (b : Block) (c : Ctx) : Bool :=
  c.lanes.any fun l => ((b.group (l / 32)).frame.map fun f => f.raised.lanes.contains l).getD false

/-- Does a group of the issue have a trap raised or a frame open (R351)? -/
def Block.trapOpen (b : Block) (c : Ctx) : Bool :=
  (homesOf c.lanes).any fun g => (b.group g).frame.isSome || (b.group g).raised.isSome

/-- Imprecise traps due at a terminator, after its own checks (R355): ACCESS_REFUSED, then TSTORE_ERR where `tst`. In a handler
they stay pending; a cohort outside it is held with its trap pending (R351). -/
def State.late (s : State) (b : Block) (c : Ctx) (h : Head) (tst : Bool) (k : Out) : Out :=
  if b.inHandler c then k
  else match b.dueRefusal c with
  | some (g, r) =>
    let b1 := if b.trapOpen c then b else b.modGroup g fun gr => { gr with refusals := gr.refusals.erase r }
    .next (s.raise b1 c h.scope .accessRefused r.lanes (fun _ => ⟨r.detail, 0, 0⟩) r.pc)
  | none =>
    match tst, b.tsErr with
    | true, some e =>
      .next (s.raise (if b.trapOpen c then b else { b with tsErr := none }) c h.scope .tstoreErr [] (fun _ => ⟨e.detail, 0, 0⟩) 0)
    | _, _ => k

/-- The lanes of a terminator that its predicate lets act: at wide scope all or none (R41, R285). -/
def Block.acting (b : Block) (c : Ctx) (h : Head) : List Nat :=
  if c.wide then (if (b.work c h).acts then c.lanes else []) else c.lanes.filter fun l => (b.lane l).on h

/-- A terminator without sources: checks, then the run ends; `hold` and `next` for acting lanes (R137). -/
def State.terminate (s : State) (i : Instr) (h : Head) (await : BitVec 8) (next : Ctx → Nat) (hold : Hold) : Out :=
  s.issue i h fun b c =>
    let on := b.acting c h
    s.gated b c i h on [] (needs h .zero) [] []
      (s.late b c h false
        (.next (s.endRun b c await (fun l => if on.contains l then next c else c.pc + c.len)
          (fun l => if on.contains l then hold else .ready))))

/-- RUNEND (R140). -/
def execRunend (h : Head) (await : BitVec 8) (s : State) : Out :=
  s.terminate (.runend h await) h await (fun c => c.pc + c.len) .ready

/-- A word-offset target (R109): word 0's address plus four times the sign-extended offset, in 64 bits. -/
def targetOf (pc : Nat) (off : BitVec 24) : Nat := (BitVec.ofNat 64 pc + 4 * off.signExtend 64).toNat

/-- BR (R141). -/
def execBr (h : Head) (off : BitVec 24) (await : BitVec 8) (s : State) : Out :=
  s.terminate (.br h off await) h await (fun c => targetOf c.pc off) .ready

/-- BRC (R141): the condition predicate picks the target or the following instruction. -/
def execBrc (h : Head) (off : BitVec 24) (await : BitVec 8) (cneg : Bool) (cpred : BitVec 3) (s : State) : Out :=
  s.issue (.brc h off await cneg cpred) h fun b c =>
    let on := b.acting c h
    s.gated b c (.brc h off await cneg cpred) h on on [] [] (if cpred == 7 then [] else [cpred.toNat])
      (s.late b c h false
        (.next (s.endRun b c await
          (fun l => if on.contains l && ((b.lane l).pval cpred.toNat != cneg) then targetOf c.pc off else c.pc + c.len)
          (fun _ => .ready))))

/-- A transfer to a register's address (R138, R142): ALIGN unless it is a multiple of 4. -/
def State.transfer (s : State) (i : Instr) (h : Head) (a : Opd) (await : BitVec 8) : Out :=
  s.issue i h fun b c =>
    let on := b.acting c h
    s.gated b c i h on [] [⟨a, .int64⟩] [] []
      (let tgt (l : Nat) : Nat := (b.read l .plain a).bits.toNat
       match on.filter fun l => tgt l % 4 != 0 with
       | [] => s.late b c h false
           (.next (s.endRun b c await (fun l => if on.contains l then tgt l else c.pc + c.len) (fun _ => .ready)))
       | ls => .next (s.raise b c h.scope .align ls (fun l => ⟨0, BitVec.ofNat 64 (tgt l), 0⟩) 0))

/-- BRX (R142). -/
def execBrx (h : Head) (a : Opd) (await : BitVec 8) (s : State) : Out := s.transfer (.brx h a await) h a await

/-- RET (R142). -/
def execRet (h : Head) (a : Opd) (await : BitVec 8) (s : State) : Out := s.transfer (.ret h a await) h a await

/-- CALL (R142): the link register receives word 0 plus 8, tag N64, after the latency of an address instruction; no Y register
captures it, since the run has ended and Y is void (DESIGN CHOICE, log 16). -/
def execCall (h : Head) (off : BitVec 24) (await : BitVec 8) (link : Fin 192) (s : State) : Out :=
  s.issue (.call h off await link) h fun b c =>
    let on := b.acting c h
    s.gated b c (.call h off await link) h [] on [] [link.val] []
      (s.late b c h false
        (let s1 := s.endRun b c await (fun l => if on.contains l then targetOf c.pc off else c.pc + c.len)
            (fun _ => .ready)
         .next { s1 with
           nextId := s1.nextId + 1,
           fixed := s1.fixed ++ [⟨s1.nextId, b.id, s.cycle + 4,
             on.map fun l => .reg l link.val ⟨BitVec.ofNat 64 (c.pc + 8), .n64⟩⟩] }))

/-- EXIT (R143): the lane exits once its awaited tags have completed. -/
def execExit (h : Head) (await : BitVec 8) (s : State) : Out :=
  s.terminate (.exit h await) h await (fun c => c.pc + c.len) .exiting

/-- YIELD (R144). -/
def execYield (h : Head) (await : BitVec 8) (s : State) : Out :=
  s.terminate (.yield h await) h await (fun c => c.pc + c.len) .yielded

/-- BAR's members have nothing left that BAR orders (R145, R328): every access of their lanes, exited ones among them, is performed,
what faulted is replayed and its destination written. -/
def State.barDone (s : State) (b : Block) (gs : List Nat) : Bool :=
  (s.accs.all fun a => a.blk != b.id || a.las.all fun x =>
    !gs.contains (x.lane / 32) || (x.phase == .done && (!a.logged || !s.longs.any fun o => o.id == a.id))) &&
  s.longs.all fun o => o.blk != b.id || !o.groups.any gs.contains || match o.body with
    | .hld .. => false
    | _ => true

/-- BAR (R145). -/
def execBar (h : Head) (await : BitVec 8) (s : State) : Out :=
  s.issue (.bar h await) h fun b c =>
    let on := b.acting c h
    s.gated b c (.bar h await) h on [] (needs h .zero) [] []
      (if !on.isEmpty && !s.barDone b c.members then .next (s.holdIssue c)
       else s.late b c h (h.scope == .block && !on.isEmpty)
        (.next (s.endRun b c await (fun _ => c.pc + c.len) (fun _ => .ready))))

/-- WAITC (R146): held until the counter reads the threshold or less. -/
def execWaitc (h : Head) (ctr : Ctr) (thresh : BitVec 6) (await : BitVec 8) (s : State) : Out :=
  s.issue (.waitc h ctr thresh await) h fun b c =>
    let on := b.acting c h
    s.gated b c (.waitc h ctr thresh await) h on [] [] [] []
      (s.late b c h (ctr == .mm && !on.isEmpty)
        (.next (s.endRun b c await (fun _ => c.pc + c.len)
          (fun l => if on.contains l then .waitc ctr thresh.toNat c.coh h.scope else .ready))))

/-- REGROUP (R148): ends the run; with CTL.RGQ the lane waits for every pending result addressed to it. -/
def execRegroup (h : Head) (a : Opd) (await : BitVec 8) (s : State) : Out :=
  s.issue (.regroup h a await) h fun b c =>
    let on := b.acting c h
    s.gated b c (.regroup h a await) h on [] [⟨a, .raw⟩] [] []
      (s.late b c h false
        (.next (s.endRun b c await (fun _ => c.pc + c.len)
          (fun l => if on.contains l then .regroup ((b.read l .plain a).bits.toNat % 2 ^ 16) else .ready))))

/-- A pre-emption request is pending for the block (R149, R403). -/
def Block.preempting (b : Block) : Bool := match b.st with
  | .window _ => true
  | _ => false

/-- Its window has not ended: a lane that reaches CHKPT parks there (R149, R403). -/
def Block.parking (b : Block) : Bool := match b.st with
  | .window e => e != 0
  | _ => false

/-- CHKPT (R149): parks while a pre-emption request is pending. -/
def execChkpt (h : Head) (off : BitVec 24) (await : BitVec 8) (s : State) : Out :=
  s.issue (.chkpt h off await) h fun b c =>
    let on := b.acting c h
    let table := targetOf c.pc off
    s.gated b c (.chkpt h off await) h on [] [] [] []
      (if !on.isEmpty && table % 8 != 0 then .next (s.raise b c h.scope .align on (fun _ => ⟨0, BitVec.ofNat 64 table, 0⟩) 0)
       else s.late b c h false
        (.next (s.endRun b c await (fun _ => c.pc + c.len)
          (fun l => if on.contains l && b.parking then .parked table else .ready))))

/-- A set-scope result is in flight to the set's X registers. -/
def State.setBusy (s : State) (b : Block) (t : GSet) : Bool :=
  (s.fixed.any fun f => f.blk == b.id && f.wrs.any fun w => match w with
    | .xpos n _ _ _ => n == t.no
    | .xtag n _ _ => n == t.no
    | _ => false) ||
  s.longs.any fun o => o.blk == b.id && (match o.dst with | .x _ => true | _ => false) &&
    o.groups.any t.members.contains

/-- May SETD create set n with these members (R150)? -/
def Block.setOk (b : Block) (n : Nat) (ms : List Nat) : Bool :=
  2 ≤ ms.length && ms.all (fun g => g < b.groups.length && (b.setOf g).isNone) && !b.sets.any (·.no == n) && n < b.setMax

/-- SETD (R150). -/
def execSetd (h : Head) (setno : BitVec 2) (diss : Bool) (a : Opd) (s : State) : Out :=
  s.issue (.setd h setno diss a) h fun b c =>
    let w := b.work c h
    if !w.acts then .next (s.pass b c h)
    else
      s.gated b c (.setd h setno diss a) h [w.desig] [] [⟨a, .raw⟩] [] []
        (if diss then
          match b.sets.find? (·.no == setno.toNat) with
          | none => .next (s.trap b c h.scope .setInvalid [w.desig])
          | some t =>
            if s.setBusy b t then .next (s.holdIssue c)
            else .next (s.pass { b with sets := b.sets.filter (·.no != setno.toNat) } c h)
        else
          let mask := (b.read w.desig .plain a).bits.toNat
          let ms := (List.range 32).filter (bit mask)
          if b.setOk setno.toNat ms then
            .next (s.pass { b with sets := b.sets ++ [⟨setno.toNat, ms, [], []⟩] } c h)
          else .next (s.trap b c h.scope .setInvalid [w.desig]))

/-- NOP (R151). -/
def execNop (h : Head) (s : State) : Out :=
  s.issue (.nop h) h fun b c =>
    let w := b.work c h
    if !w.acts then .next (s.pass b c h)
    else s.gated b c (.nop h) h w.src [] (needs h .zero) [] [] (.next (s.pass b c h))

end Sys2Proof.Machine
end

