-- ==== Sys2Proof/Machine/Integer.lean ====
section
/-! DEFINITION. Classes 001 and 010: integer, address, logic and packed integer instructions (R152 to R169). -/

namespace Sys2Proof.Machine

/-- The elements of a source in a lane. -/
def Block.elems (b : Block) (l : Nat) (t : Tag) (o : Opd) : List Nat :=
  let x := (b.read l (.as t) o).bits
  (List.range t.count).map (elem t.width x)

/-- Narrow an exact element result (R153): clamp and set SAT, or wrap. -/
def narrow (t : Tag) (sat : Bool) (i : Int) : Nat × Flags :=
  let k := satInt (tagSigned t) t.width i
  if sat then (wrap t.width k, if k != i then Flags.sat else 0) else (wrap t.width i, 0)

def orFlags (l : List (Nat × Flags)) : Flags := l.foldl (fun f x => f ||| x.2) 0

/-- A register from delivered elements. -/
def delivered (t : Tag) (tag : Tag) (es : List (Nat × Flags)) : LaneRes :=
  ⟨[⟨packElems t.width (es.map (·.1)), tag⟩], orFlags es, none, none⟩

/-- One elementwise result of two sources (R153). -/
def elemwise2 (b : Block) (t : Tag) (sat : Bool) (o : O3) (op : Int → Int → Int) (l : Nat) : LaneRes :=
  delivered t t ((b.elems l t o.a).zip (b.elems l t o.b) |>.map fun (x, y) => narrow t sat (op (num t x) (num t y)))

/-- An elementwise instruction of two sources. -/
def State.int2 (s : State) (i : Instr) (h : Head) (t : Tag) (sat : Bool) (o : O3) (lat : Nat) (op : Int → Int → Int) : Out :=
  s.alu i h [⟨o.a, .fmt t⟩, ⟨o.b, .fmt t⟩] [] o.d 1 7 lat fun b _ l => elemwise2 b t sat o op l

/-- An elementwise instruction of one source. -/
def State.int1 (s : State) (i : Instr) (h : Head) (t : Tag) (o : O2) (op : Nat → Nat × Flags) : Out :=
  s.alu i h [⟨o.a, .fmt t⟩] [] o.d 1 7 4 fun b _ l => delivered t t ((b.elems l t o.a).map op)

/-- An instruction on w-bit patterns of two sources. -/
def State.pat2 (s : State) (i : Instr) (h : Head) (t : Tag) (o : O3) (lat : Nat) (op : Nat → Nat → Nat × Flags) : Out :=
  s.alu i h [⟨o.a, .fmt t⟩, ⟨o.b, .fmt t⟩] [] o.d 1 7 lat fun b _ l =>
    delivered t t ((b.elems l t o.a).zip (b.elems l t o.b) |>.map fun (x, y) => op x y)

/-- IADD (R153). -/
def execIadd (h : Head) (f : Tag) (sat : Bool) (o : O3) (s : State) : Out := s.int2 (.iadd h f sat o) h f sat o 4 (· + ·)

/-- ISUB (R153). -/
def execIsub (h : Head) (f : Tag) (sat : Bool) (o : O3) (s : State) : Out := s.int2 (.isub h f sat o) h f sat o 4 (· - ·)

/-- IADDC (R154): a + b + carry-in, the carry-out to a predicate. -/
def execIaddc (h : Head) (f : Tag) (cin pd : BitVec 3) (o : O3) (s : State) : Out :=
  s.alu (.iaddc h f cin pd o) h [⟨o.a, .fmt f⟩, ⟨o.b, .fmt f⟩] (if cin == 7 then [] else [cin.toNat]) o.d 1 pd.toNat 4
    fun b _ l =>
      let t := (b.read l (.as f) o.a).bits.toNat + (b.read l (.as f) o.b).bits.toNat +
        (if (b.lane l).pval cin.toNat then 1 else 0)
      ⟨[⟨BitVec.ofNat 64 t, f⟩], 0, some (2 ^ 64 ≤ t), none⟩

/-- IMUL (R153). -/
def execImul (h : Head) (f : Tag) (sat : Bool) (o : O3) (s : State) : Out := s.int2 (.imul h f sat o) h f sat o 6 (· * ·)

/-- IMULH (R153): the high half of the product. -/
def execImulh (h : Head) (f : Tag) (o : O3) (s : State) : Out :=
  s.int2 (.imulh h f o) h f false o 6 fun a b => a * b / (2 ^ f.width : Nat)

/-- IMAD (R153): exact, then wrapped or saturated once. -/
def execImad (h : Head) (f : Tag) (sat : Bool) (o : O4) (s : State) : Out :=
  s.alu (.imad h f sat o) h [⟨o.a, .fmt f⟩, ⟨o.b, .fmt f⟩, ⟨o.c, .fmt f⟩] [] o.d 1 7 6 fun b _ l =>
    delivered f f (((b.elems l f o.a).zip (b.elems l f o.b)).zip (b.elems l f o.c) |>.map fun ((x, y), z) =>
      narrow f sat (num f x * num f y + num f z))

/-- IMADW (R155): a 32-bit half of A and of B, C and D 64 bits of the same signedness. -/
def execImadw (h : Head) (f : Tag) (hi sat : Bool) (o : O4) (s : State) : Out :=
  let wt : Tag := if f == .i32 then .i64 else .n64
  s.alu (.imadw h f hi sat o) h [⟨o.a, .fmt f⟩, ⟨o.b, .fmt f⟩, ⟨o.c, .fmt wt⟩] [] o.d 1 7 6 fun b _ l =>
    let k := if hi then 1 else 0
    let x := num f (elem 32 (b.read l (.as f) o.a).bits k)
    let y := num f (elem 32 (b.read l (.as f) o.b).bits k)
    let z := num wt (b.read l (.as wt) o.c).bits.toNat
    delivered wt wt [narrow wt sat (x * y + z)]

/-- IMIN and IMAX (R153). -/
def execImin (h : Head) (f : Tag) (o : O3) (s : State) : Out := s.int2 (.imin h f o) h f false o 4 min
def execImax (h : Head) (f : Tag) (o : O3) (s : State) : Out := s.int2 (.imax h f o) h f false o 4 max

/-- IABS (R153). -/
def execIabs (h : Head) (f : Tag) (sat : Bool) (o : O2) (s : State) : Out :=
  s.int1 (.iabs h f sat o) h f o fun x => narrow f sat (num f x).natAbs

/-- INEG (R153). -/
def execIneg (h : Head) (f : Tag) (sat : Bool) (o : O2) (s : State) : Out :=
  s.int1 (.ineg h f sat o) h f o fun x => narrow f sat (-(num f x))

/-- The relations of ICMP (R156). -/
def IRel.holds (r : IRel) (a b : Int) : Bool :=
  match r with
  | .eq => a == b | .ne => a != b | .lt => a < b | .le => a ≤ b | .gt => b < a | .ge => b ≤ a

/-- ICMP (R156): sub-element 0 only; a predicate. -/
def execIcmp (h : Head) (f : Tag) (rel : IRel) (pd : BitVec 3) (x y : Opd) (s : State) : Out :=
  s.alu (.icmp h f rel pd x y) h [⟨x, .fmt f⟩, ⟨y, .fmt f⟩] [] .zero 0 pd.toNat 4 fun b _ l =>
    let a := num f (elem f.width (b.read l (.as f) x).bits 0)
    let c := num f (elem f.width (b.read l (.as f) y).bits 0)
    ⟨[], 0, some (IRel.holds rel a c), none⟩

/-- SEL (R157): A where the predicate is true, else B; the tag comes with the value. -/
def execSel (h : Head) (p : BitVec 3) (o : O3) (s : State) : Out :=
  s.alu (.sel h p o) h [⟨o.a, .raw⟩, ⟨o.b, .raw⟩] (if p == 7 then [] else [p.toNat]) o.d 1 7 4 fun b _ l =>
    let x := b.read l .plain (if (b.lane l).pval p.toNat then o.a else o.b)
    LaneRes.ofReg ⟨x.bits, x.tag.getD .n64⟩

/-- MOV (R158). -/
def execMov (h : Head) (f : Option Tag) (o : O2) (s : State) : Out :=
  s.alu (.mov h f o) h [⟨o.a, .raw⟩] [] o.d 1 7 4 fun b _ l =>
    match f with
    | none => let x := b.read l .plain o.a; LaneRes.ofReg ⟨x.bits, x.tag.getD .n64⟩
    | some t => LaneRes.ofReg ⟨(b.read l (.as t) o.a).bits, t⟩

/-- The home lane that B names (R159), by the value it will have. -/
def State.movkLane (s : State) (b : Block) (desig : Nat) (o : Opd) : Nat :=
  desig / 32 * 32 + ((s.landed b).read desig .plain o).bits.toNat % 32

/-- A lane outside an issue, such as an exited one, has no producer in its run (R35). -/
def Block.inRun (b : Block) (c : Ctx) (l : Nat) : Block :=
  if c.lanes.contains l then b else b.modLanes (· == l) fun _ ln => { ln with run := { ln.run with prods := [] } }

/-- MOVK (R159): the value of A in the home lane B names, to a K register of every member. The checks on both come in the order of R46. -/
def execMovk (h : Head) (o : O3) (s : State) : Out :=
  s.issue (.movk h o) h fun b c =>
    let w := (b.work c h).once b
    if !w.acts then .next (s.pass b c h)
    else
      let l := s.movkLane b w.desig o.b
      let sps := ⟨o.b, .raw⟩ :: needs h o.d
      let gb := s.gate b [w.desig] (w.recv.map (·.1)) sps (dstCodes o.d 1) []
      let ga := s.gate (b.inRun c l) [l] [] [⟨o.a, .raw⟩] [] []
      s.gatedBy b c (.movk h o) h (if s.srcPending b w.desig ⟨o.b, .raw⟩ then gb else gb.both sps.length ga) (sps ++ [⟨o.a, .raw⟩])
        (.next (s.issueFixed b c h w o.d 7 4 [(w.desig, LaneRes.ofReg ⟨(b.read l .plain o.a).bits, .n64⟩)]))

/-- CAP as a lane or a physical function of a die reads it (R2, R3). -/
def State.cap (s : State) (d : Nat) : Word :=
  let units : Nat := if s.capGrade == 0 then 0b1111 else if s.capGrade == 1 then 0b0011 else 0b1100
  mkWord [(s.capStep.toNat, 56), (s.dieMask.toNat, 36), (d, 34), (s.capGrade.toNat, 6), (units, 2)]

/-- S.OC (R44). -/
def Group.oc (g : Group) : Word :=
  mkWord [(g.count .ld, 0), (g.count .st, 6), (g.count .at_, 12), (g.count .cp, 18), (g.count .mm, 24), (g.count .bn, 30)]

/-- S.SET (R42): member of a set, set number, member rank. -/
def Block.setWord (b : Block) (g : Nat) : Word :=
  match b.setOf g with
  | some t => mkWord [(1, 7), (t.no, 0), (t.members.findIdx (· == g), 2)]
  | none => 0

/-- A special register as a lane reads it (R42). -/
def State.special (s : State) (b : Block) (l : Nat) : SReg → Word
  | .lane => BitVec.ofNat 64 (l % 32)
  | .group => BitVec.ofNat 64 (l / 32)
  | .wid => (b.lane l).wid
  | .time => (s.die b.die).time
  | .flags => (b.lane l).flags.setWidth 64
  | .oc => (b.group (l / 32)).oc
  | .pend => BitVec.ofNat 64 (maskOf ((List.range 8).map (s.tagBusy b l)))
  | .cap => s.cap b.die
  | .ctl => (b.group (l / 32)).ctl
  | .set => b.setWord (l / 32)

/-- SRD (R160): the clearing form clears S.FLAGS of the lanes read, in the same action. -/
def execSrd (h : Head) (r : SReg) (clr : Bool) (d : Opd) (s : State) : Out :=
  s.issue (.srd h r clr d) h fun b c =>
    let w := b.work c h
    if !w.acts then .next (s.pass b c h)
    else
      s.gated b c (.srd h r clr d) h w.src (w.recv.map (·.1)) (needs h d) (dstCodes d 1) []
        (let b1 := if clr then b.modLanes (fun l => w.src.contains l) fun _ ln => { ln with flags := 0 } else b
         .next (s.issueFixed b1 c h w d 7 4
           (w.src.map fun l => (l, LaneRes.ofReg ⟨s.special b l r, .n64⟩))))

/-- SHL (R162): the saturating form clamps the exact product. -/
def execShl (h : Head) (f : Tag) (sat : Bool) (o : O3) (s : State) : Out :=
  s.pat2 (.shl h f sat o) h f o 4 fun x k =>
    if sat then
      let n := num f x
      -- a shift past 2w exceeds every bound already
      narrow f true (n * (2 ^ min k 128 : Nat))
    else (if f.width ≤ k then 0 else x * 2 ^ k % 2 ^ f.width, 0)

/-- SHR (R162). -/
def execShr (h : Head) (f : Tag) (o : O3) (s : State) : Out :=
  s.pat2 (.shr h f o) h f o 4 fun x k => (if f.width ≤ k then 0 else x / 2 ^ k, 0)

/-- SAR (R162). -/
def execSar (h : Head) (f : Tag) (o : O3) (s : State) : Out :=
  s.pat2 (.sar h f o) h f o 4 fun x k => (wrap f.width (signed f.width x / (2 ^ min k f.width : Nat)), 0)

/-- ROL (R162). -/
def execRol (h : Head) (f : Tag) (o : O3) (s : State) : Out :=
  s.pat2 (.rol h f o) h f o 4 fun x k =>
    let r := k % f.width
    ((x * 2 ^ r + x / 2 ^ (f.width - r)) % 2 ^ f.width, 0)

/-- POPC, CLZ, CTZ, BREV (R162). -/
def execPopc (h : Head) (f : Tag) (o : O2) (s : State) : Out := s.int1 (.popc h f o) h f o fun x => (popcount f.width x, 0)
def execClz (h : Head) (f : Tag) (o : O2) (s : State) : Out := s.int1 (.clz h f o) h f o fun x => (clz f.width x, 0)
def execCtz (h : Head) (f : Tag) (o : O2) (s : State) : Out := s.int1 (.ctz h f o) h f o fun x => (ctz f.width x, 0)
def execBrev (h : Head) (f : Tag) (o : O2) (s : State) : Out := s.int1 (.brev h f o) h f o fun x => (brev f.width x, 0)

/-- A bit field of a w-bit pattern, sign-extended for I formats (R162's BFX). -/
def bitField (f : Tag) (x p l : Nat) : Nat :=
  let l := min l f.width
  let v := x / 2 ^ p % 2 ^ l
  if l = 0 then 0 else if tagSigned f then wrap f.width (signed l v) else v

/-- BFX (R162). -/
def execBfx (h : Head) (f : Tag) (o : O3) (s : State) : Out :=
  s.pat2 (.bfx h f o) h f o 4 fun x y => (bitField f x (bits y 7 0) (bits y 15 8), 0)

/-- c with a field replaced by the low bits of a (R162's BFI). -/
def insertField (w x y z : Nat) : Nat :=
  let p := bits y 7 0
  let l := min (bits y 15 8) w
  let hi := min (p + l) w
  if w ≤ p then z
  else (z / 2 ^ hi * 2 ^ hi + x % 2 ^ (hi - p) * 2 ^ p + z % 2 ^ p) % 2 ^ w

/-- BFI (R162). -/
def execBfi (h : Head) (f : Tag) (o : O4) (s : State) : Out :=
  s.alu (.bfi h f o) h [⟨o.a, .fmt f⟩, ⟨o.b, .fmt f⟩, ⟨o.c, .fmt f⟩] [] o.d 1 7 4 fun b _ l =>
    delivered f f (((b.elems l f o.a).zip (b.elems l f o.b)).zip (b.elems l f o.c) |>.map fun ((x, y), z) =>
      (insertField f.width x y z, 0))

/-- PLOP (R161): a three-input table over predicates. -/
def execPlop (h : Head) (lut : BitVec 8) (pd a b c : BitVec 3) (s : State) : Out :=
  s.alu (.plop h lut pd a b c) h [] (([a, b, c].filter (· != 7)).map (·.toNat)) .zero 0 pd.toNat 4 fun bl _ l =>
    let v (p : BitVec 3) : Nat := if (bl.lane l).pval p.toNat then 1 else 0
    ⟨[], 0, some (lut.getLsbD (4 * v a + 2 * v b + v c)), none⟩

/-! ## Class 010 -/

/-- A K register: a register source that carries no tag (R22). -/
def isK : Opd → Bool
  | .k _ => true
  | _ => false

/-- The tag of AND, OR, XOR, ANDN and PRMB (R25): A's tag when every register source carries it, else N64; literals, zero and the
lane index match any, and where A is one of them the tag is that of the other source (log 26). -/
def commonTag (xs : List (Opd × Src)) : Tag :=
  if xs.any (isK ·.1) then .n64
  else
    match xs.filterMap (·.2.tag) with
    | [] => .n64
    | t :: ts => if ts.all (· == t) then t else .n64

/-- A logic instruction over 64 bits (R164). -/
def State.logic (s : State) (i : Instr) (h : Head) (o : O3) (op : Word → Word → Word) : Out :=
  s.alu i h [⟨o.a, .raw⟩, ⟨o.b, .raw⟩] [] o.d 1 7 4 fun b _ l =>
    let x := b.read l .plain o.a
    let y := b.read l .plain o.b
    LaneRes.ofReg ⟨op x.bits y.bits, commonTag [(o.a, x), (o.b, y)]⟩

/-- AND, OR, XOR, ANDN (R164). -/
def execAnd (h : Head) (o : O3) (s : State) : Out := s.logic (.and h o) h o (· &&& ·)
def execOr (h : Head) (o : O3) (s : State) : Out := s.logic (.or h o) h o (· ||| ·)
def execXor (h : Head) (o : O3) (s : State) : Out := s.logic (.xor h o) h o (· ^^^ ·)
def execAndn (h : Head) (o : O3) (s : State) : Out := s.logic (.andn h o) h o fun a b => a &&& ~~~ b

/-- PRMB (R165): byte k of D is the byte of A or C that nibble k of B names. -/
def execPrmb (h : Head) (o : O4) (s : State) : Out :=
  s.alu (.prmb h o) h [⟨o.a, .raw⟩, ⟨o.b, .raw⟩, ⟨o.c, .raw⟩] [] o.d 1 7 4 fun b _ l =>
    let x := b.read l .plain o.a
    let y := (b.read l .plain o.b).bits
    let z := b.read l .plain o.c
    LaneRes.ofReg ⟨packElems 8 ((List.range 8).map fun k =>
      let n := elem 4 y k
      if n < 8 then elem 8 x.bits n else elem 8 z.bits (n - 8)), commonTag [(o.a, x), (o.c, z)]⟩

/-- Packed IADD, ISUB, IMIN, IMAX (R164). -/
def execIaddPacked (h : Head) (f : Tag) (sat : Bool) (o : O3) (s : State) : Out :=
  s.int2 (.iaddPacked h f sat o) h f sat o 4 (· + ·)
def execIsubPacked (h : Head) (f : Tag) (sat : Bool) (o : O3) (s : State) : Out :=
  s.int2 (.isubPacked h f sat o) h f sat o 4 (· - ·)
def execIminPacked (h : Head) (f : Tag) (o : O3) (s : State) : Out := s.int2 (.iminPacked h f o) h f false o 4 min
def execImaxPacked (h : Head) (f : Tag) (o : O3) (s : State) : Out := s.int2 (.imaxPacked h f o) h f false o 4 max

/-- IMAC2 (R166): pairs of I16 into I32, saturating always. -/
def execImac2 (h : Head) (o : O4) (s : State) : Out :=
  s.alu (.imac2 h o) h [⟨o.a, .fmt .i16⟩, ⟨o.b, .fmt .i16⟩, ⟨o.c, .fmt .i32⟩] [] o.d 1 7 6 fun b _ l =>
    let x := (b.read l (.as .i16) o.a).bits
    let y := (b.read l (.as .i16) o.b).bits
    let z := (b.read l (.as .i32) o.c).bits
    delivered .i32 .i32 ((List.range 2).map fun j =>
      narrow .i32 true (signed 32 (elem 32 z j) + signed 16 (elem 16 x (2 * j)) * signed 16 (elem 16 y (2 * j)) +
        signed 16 (elem 16 x (2 * j + 1)) * signed 16 (elem 16 y (2 * j + 1))))

/-- IDOT4 (R167): four byte products into each 32-bit element. -/
def execIdot4 (h : Head) (f : Tag) (sat : Bool) (o : O4) (s : State) : Out :=
  let t : Tag := if f == .i8 then .i32 else .n32
  s.alu (.idot4 h f sat o) h [⟨o.a, .fmt f⟩, ⟨o.b, .fmt f⟩, ⟨o.c, .fmt t⟩] [] o.d 1 7 6 fun b _ l =>
    let x := (b.read l (.as f) o.a).bits
    let y := (b.read l (.as f) o.b).bits
    let z := (b.read l (.as t) o.c).bits
    delivered t t ((List.range 2).map fun j =>
      narrow t sat ((List.range 4).foldl
        (fun a k => a + num f (elem 8 x (4 * j + k)) * num f (elem 8 y (4 * j + k))) (num t (elem 32 z j))))

/-- The format of half the width and the same signedness (R163). -/
def halfTag : Tag → Tag
  | .i16 => .i8 | .n16 => .n8 | .i32 => .i16 | .n32 => .n16 | .i64 => .i32 | .n64 => .n32
  | t => t

/-- SHRR (R168): rounding shift right, narrowing with saturation. -/
def execShrr (h : Head) (f : Tag) (o : O4) (s : State) : Out :=
  s.alu (.shrr h f o) h [⟨o.a, .fmt f⟩, ⟨o.b, .fmt f⟩, ⟨o.c, .fmt f⟩] [] o.d 1 7 6 fun b _ l =>
    let k := (b.read l (.as f) o.c).bits.toNat % 64
    let t := halfTag f
    delivered t t ((b.elems l f o.a ++ b.elems l f o.b).map fun x =>
      let v := num f x
      narrow t true (if k = 0 then v else (v + (2 ^ (k - 1) : Nat)) / (2 ^ k : Nat)))

/-- ISAT (R169): clamp each element to the range of an m-bit integer. -/
def execIsat (h : Head) (f : Tag) (o : O3) (s : State) : Out :=
  s.alu (.isat h f o) h [⟨o.a, .fmt f⟩, ⟨o.b, .fmt f⟩] [] o.d 1 7 6 fun b _ l =>
    let m := (b.read l (.as f) o.b).bits.toNat % 64
    delivered f f ((b.elems l f o.a).map fun x =>
      let v := num f x
      let k := if m = 0 then 0 else if f.width ≤ m then v else satInt (tagSigned f) m v
      (wrap f.width k, if k != v then Flags.sat else 0))

end Sys2Proof.Machine
end

