-- ==== Sys2Proof/Machine/Float.lean ====
section
/-! DEFINITION. Class 011: float arithmetic and the special functions (R172 to R182). -/

namespace Sys2Proof.Machine

/-- The result of an elementwise float instruction in a lane: the value of each element from its sources' values, delivered in
the mode, with the flags of the delivery and of an invalid operation (R174, R175). -/
def fltRes (t : Tag) (rm : RM) (srcs : List Opd) (op : List Val → Val) (b : Block) (l : Nat) : LaneRes :=
  delivered t t ((List.range t.count).map fun k =>
    let vs := srcs.map fun o => inFloat t (elem t.width (b.read l (.as t) o).bits k)
    let v := op vs
    let r := outFloat t rm v
    (r.1, r.2 ||| invalidFlag vs v))

/-- An elementwise float instruction of fixed latency. -/
def State.flt (s : State) (i : Instr) (h : Head) (t : Tag) (rm : RM) (d : Opd) (srcs : List Opd)
    (op : List Val → Val) : Out :=
  s.alu i h (srcs.map fun o => ⟨o, .fmt t⟩) [] d 1 7 6 fun b _ l => fltRes t rm srcs op b l

/-- FADD (R175). -/
def execFadd (h : Head) (f : Tag) (rm : RM) (o : O3) (s : State) : Out :=
  s.flt (.fadd h f rm o) h f rm o.d [o.a, o.b] fun vs => (vs.getD 0 .nan).add rm (vs.getD 1 .nan)

/-- FSUB (R175). -/
def execFsub (h : Head) (f : Tag) (rm : RM) (o : O3) (s : State) : Out :=
  s.flt (.fsub h f rm o) h f rm o.d [o.a, o.b] fun vs => (vs.getD 0 .nan).add rm (vs.getD 1 .nan).negate

/-- FMUL (R175). -/
def execFmul (h : Head) (f : Tag) (rm : RM) (o : O3) (s : State) : Out :=
  s.flt (.fmul h f rm o) h f rm o.d [o.a, o.b] fun vs => (vs.getD 0 .nan).mul (vs.getD 1 .nan)

/-- FFMA (R175): rounded once. -/
def execFfma (h : Head) (f : Tag) (rm : RM) (o : O4) (s : State) : Out :=
  s.flt (.ffma h f rm o) h f rm o.d [o.a, o.b, o.c] fun vs =>
    ((vs.getD 0 .nan).mul (vs.getD 1 .nan)).add rm (vs.getD 2 .nan)

/-- The smaller (or larger) of two values, −0 below +0; a NaN gives way to the other source (R176). -/
def minMaxVal (larger : Bool) (a b : Val) : Val :=
  if a.isNan then b
  else if b.isNan then a
  else
    match a.cmp b with
    | some .lt => if larger then b else a
    | some .gt => if larger then a else b
    | _ => if a.neg? == larger then b else a

/-- One FMIN or FMAX: no flag is set. -/
def State.fltSel (s : State) (i : Instr) (h : Head) (t : Tag) (o : O3) (larger : Bool) : Out :=
  s.alu i h [⟨o.a, .fmt t⟩, ⟨o.b, .fmt t⟩] [] o.d 1 7 6 fun b _ l =>
    delivered t t ((b.elems l t o.a).zip (b.elems l t o.b) |>.map fun (x, y) =>
      ((outFloat t .rne (minMaxVal larger (inFloat t x) (inFloat t y))).1, 0))

/-- FMIN and FMAX (R176). -/
def execFmin (h : Head) (f : Tag) (o : O3) (s : State) : Out := s.fltSel (.fmin h f o) h f o false
def execFmax (h : Head) (f : Tag) (o : O3) (s : State) : Out := s.fltSel (.fmax h f o) h f o true

/-- An instruction on the bits of each element. -/
def State.fltBits (s : State) (i : Instr) (h : Head) (t tag : Tag) (o : O2) (op : Nat → Nat) : Out :=
  s.alu i h [⟨o.a, .fmt t⟩] [] o.d 1 7 6 fun b _ l => delivered t tag ((b.elems l t o.a).map fun x => (op x, 0))

/-- FABS and FNEG (R177): the sign bit alone. -/
def execFabs (h : Head) (f : Tag) (o : O2) (s : State) : Out :=
  s.fltBits (.fabs h f o) h f f o fun x => x % 2 ^ (f.width - 1)
def execFneg (h : Head) (f : Tag) (o : O2) (s : State) : Out :=
  s.fltBits (.fneg h f o) h f f o fun x => x ^^^ 2 ^ (f.width - 1)

/-- The relations of FCMP (R178). -/
def FRel.holds (r : FRel) (a b : Val) : Bool :=
  let c := a.cmp b
  match r with
  | .eq => c == some .eq
  | .ne => c != some .eq
  | .lt => c == some .lt
  | .le => c == some .lt || c == some .eq
  | .gt => c == some .gt
  | .ge => c == some .gt || c == some .eq
  | .un => c.isNone
  | .ord => c.isSome

/-- FCMP (R178): sub-element 0 of each source; a predicate. -/
def execFcmp (h : Head) (f : Tag) (rel : FRel) (pd : BitVec 3) (x y : Opd) (s : State) : Out :=
  s.alu (.fcmp h f rel pd x y) h [⟨x, .fmt f⟩, ⟨y, .fmt f⟩] [] .zero 0 pd.toNat 6 fun b _ l =>
    let v (o : Opd) : Val := inFloat f (elem f.width (b.read l (.as f) o).bits 0)
    ⟨[], 0, some (FRel.holds rel (v x) (v y)), none⟩

/-- The class bit of an encoding (R179). -/
def classBit (f : FF) (x : Nat) : Nat :=
  match f.value x with
  | .nan => 8
  | .inf n => if n then 0 else 7
  | .fin n m _ =>
    if m = 0 then (if n then 3 else 4)
    else if m < 2 ^ f.fw then (if n then 2 else 5)
    else if n then 1 else 6

/-- One element of FCLASS. -/
def classOf (f : FF) (sel : ClassSel) (x : Nat) : Nat :=
  let k := classBit f x
  match sel with
  | .mask => 2 ^ k
  | .fin => if k = 8 || k = 0 || k = 7 then 0 else 2 ^ f.width - 1
  | .nan => if k = 8 then 2 ^ f.width - 1 else 0

/-- FCLASS (R179): nothing is flushed. -/
def execFclass (h : Head) (f : Tag) (sel : ClassSel) (o : O2) (s : State) : Out :=
  s.fltBits (.fclass h f sel o) h f (if f == .fp32 then .n32 else .n16) o (classOf (FF.ofTag f) sel)

/-- A value rounded to an integer in a direction, a zero keeping the sign (R180). -/
def Val.integral (rm : RM) : Val → Val
  | .fin n m e => .fin n (roundInt rm n m e 0).1 0
  | v => v

/-- FRND (R180): no flag. -/
def execFrnd (h : Head) (f : Tag) (rm : RM) (o : O2) (s : State) : Out :=
  s.alu (.frnd h f rm o) h [⟨o.a, .fmt f⟩] [] o.d 1 7 6 fun b _ l =>
    delivered f f ((b.elems l f o.a).map fun x => ((outFloat f .rne ((inFloat f x).integral rm)).1, 0))

/-- FDOT2 (R181): c + a0·b0 + a1·b1, rounded once. -/
def execFdot2 (h : Head) (rm : RM) (o : O4) (s : State) : Out :=
  s.alu (.fdot2 h rm o) h [⟨o.a, .fmt .bf16⟩, ⟨o.b, .fmt .bf16⟩, ⟨o.c, .fmt .fp32⟩] [] o.d 1 7 6 fun b _ l =>
    let x (k : Nat) : Val := inFloat .bf16 (elem 16 (b.read l (.as .bf16) o.a).bits k)
    let y (k : Nat) : Val := inFloat .bf16 (elem 16 (b.read l (.as .bf16) o.b).bits k)
    delivered .fp32 .fp32 ((List.range 2).map fun j =>
      let z := FF.fp32.value (elem 32 (b.read l (.as .fp32) o.c).bits j)
      let p := (x (2 * j)).mul (y (2 * j))
      let q := (x (2 * j + 1)).mul (y (2 * j + 1))
      let v := dotVal rm z p q
      let r := outFloat .fp32 rm v
      (r.1, r.2 ||| invalidFlag [x (2 * j), y (2 * j), x (2 * j + 1), y (2 * j + 1), z] v))
where
  /-- The exact sum of three terms; an exact zero is −0 only where every term is, or under RDN. -/
  dotVal (rm : RM) (z p q : Val) : Val :=
    match (z.add .rne p).add .rne q with
    | .fin n m e =>
      if m = 0 then .fin (if z.isZero && p.isZero && q.isZero && z.neg? == p.neg? && p.neg? == q.neg? then n
                          else rm == .rdn) 0 e
      else .fin n m e
    | v => v

/-! ## Special functions -/

/-- AN INSTRUCTION UNDER A PENDING TAG whose values are fixed at issue (R36, R37): the tag and the destination are in
flight until PENDING_TAG_COMPLETE writes the results and their flags. -/
def State.tagged (s : State) (i : Instr) (h : Head) (sps : List SrcSpec) (d : Opd) (n tag : Nat)
    (f : Block → Work → Nat → LaneRes) : Out :=
  s.issue i h fun b c =>
    let w := b.work c h
    if !w.acts then .next (s.pass b c h)
    else
      s.gated b c i h w.src (w.recv.map (·.1)) (sps ++ needs h d) (dstCodes d n) []
        (if (b.tagLanes h w).any fun l => s.tagBusy b l tag then .next (s.holdIssue c)
         else
           let rs := w.src.map fun l => (l, f b w l)
           .next (s.issueLong b c h w d n tag .wrs true (w.regWrites b d rs ++ w.flagWrites rs)))

/-- A special function (R182). -/
def State.special1 (s : State) (i : Instr) (h : Head) (t : Tag) (rm : RM) (tag : BitVec 3) (o : O2) (fn : SpecialFn) : Out :=
  s.tagged i h [⟨o.a, .fmt t⟩] o.d 1 tag.toNat fun b _ l =>
    delivered t t ((b.elems l t o.a).map fun x =>
      let v := specialVal fn (inFloat t x)
      let r := outFloat t rm v.1
      (r.1, r.2 ||| v.2))

/-- FRCP, FRSQ, FSQRT, FEXP2, FLOG2, FSIN, FCOS, FTANH (R182). -/
def execFrcp (h : Head) (f : Tag) (rm : RM) (tag : BitVec 3) (o : O2) (s : State) : Out :=
  s.special1 (.frcp h f rm tag o) h f rm tag o .rcp
def execFrsq (h : Head) (f : Tag) (rm : RM) (tag : BitVec 3) (o : O2) (s : State) : Out :=
  s.special1 (.frsq h f rm tag o) h f rm tag o .rsq
def execFsqrt (h : Head) (f : Tag) (rm : RM) (tag : BitVec 3) (o : O2) (s : State) : Out :=
  s.special1 (.fsqrt h f rm tag o) h f rm tag o .sqrt
def execFexp2 (h : Head) (f : Tag) (rm : RM) (tag : BitVec 3) (o : O2) (s : State) : Out :=
  s.special1 (.fexp2 h f rm tag o) h f rm tag o .exp2
def execFlog2 (h : Head) (f : Tag) (rm : RM) (tag : BitVec 3) (o : O2) (s : State) : Out :=
  s.special1 (.flog2 h f rm tag o) h f rm tag o .log2
def execFsin (h : Head) (f : Tag) (rm : RM) (tag : BitVec 3) (o : O2) (s : State) : Out :=
  s.special1 (.fsin h f rm tag o) h f rm tag o .sin
def execFcos (h : Head) (f : Tag) (rm : RM) (tag : BitVec 3) (o : O2) (s : State) : Out :=
  s.special1 (.fcos h f rm tag o) h f rm tag o .cos
def execFtanh (h : Head) (f : Tag) (rm : RM) (tag : BitVec 3) (o : O2) (s : State) : Out :=
  s.special1 (.ftanh h f rm tag o) h f rm tag o .tanh

end Sys2Proof.Machine
end

