-- ==== Sys2Proof/Machine/Pointer.lean ====
section
/-! DEFINITION. Typed pointers: fields (R82), what each space admits (R85 to R88), bounds (R90), formats (R91, R92) and the
checks at issue (R98, R99, R209, R414). -/

namespace Sys2Proof.Machine

/-- The fields of a pointer (R82, R84). -/
structure Ptr where
  base : Nat
  extent : Nat
  sfmt : Nat
  vfmt : Nat
  space : Nat
  cls : Nat
  scope : Nat
  stream : Nat
  home : Nat
  xunit : Bool
  submode : Bool
  policy : Nat
deriving DecidableEq, Repr

def ptrOf (p : BitVec 128) : Ptr :=
  let f := bits p.toNat
  { base := f 63 0, extent := f 95 64, sfmt := f 99 96, vfmt := f 103 100, space := f 106 104, cls := f 108 107,
    scope := f 111 109, stream := f 115 112, home := f 123 116, xunit := bit p.toNat 124, submode := bit p.toNat 125,
    policy := f 127 126 }

/-- The pointer value of fields. -/
def Ptr.pack (p : Ptr) : BitVec 128 :=
  let b (x : Bool) : Nat := if x then 1 else 0
  BitVec.ofNat 128 (p.base % 2 ^ 64 + p.extent % 2 ^ 32 * 2 ^ 64 + p.sfmt % 16 * 2 ^ 96 + p.vfmt % 16 * 2 ^ 100 +
    p.space % 8 * 2 ^ 104 + p.cls % 4 * 2 ^ 107 + p.scope % 8 * 2 ^ 109 + p.stream % 16 * 2 ^ 112 +
    p.home % 256 * 2 ^ 116 + b p.xunit * 2 ^ 124 + b p.submode * 2 ^ 125 + p.policy % 4 * 2 ^ 126)

/-- Space codes (R85). -/
def spGlobal : Nat := 0
def spScratch : Nat := 1
def spPrivate : Nat := 2
def spPeer : Nat := 3
def spHost : Nat := 4
def spCode : Nat := 5

/-- The class codes (R85). -/
def clPrivate : Nat := 0
def clShared : Nat := 1
def clSync : Nat := 2

def Ptr.sync (p : Ptr) : Bool := p.cls == clSync

/-- The limit in bytes (R90). -/
def Ptr.limit (p : Ptr) : Nat := if p.xunit then p.extent * 4096 else p.extent

/-- Classes and scopes a space admits (R86). -/
def Ptr.admitted (p : Ptr) : Bool :=
  match p.space with
  | 0 => p.cls ≤ 2 && 1 ≤ p.scope && p.scope ≤ 5
  | 1 => (p.cls == 0 || p.cls == 2) && (p.scope == 1 || p.scope == 2)
  | 2 => p.cls == 0 && p.scope == 0
  | 3 => p.cls ≤ 2 && (p.scope == 4 || p.scope == 5)
  | 4 => p.cls ≤ 2 && (p.scope == 3 || p.scope == 4)
  | 5 => p.cls == 1 && 1 ≤ p.scope && p.scope ≤ 5
  | _ => false

/-- HOME in the range of its scope (R88). -/
def Ptr.homeOk (p : Ptr) : Bool :=
  match p.scope with
  | 0 => p.home ≤ 191
  | 1 | 2 => p.home ≤ (if p.space == spScratch then 15 else 191)
  | 3 => p.home ≤ 3
  | 4 => p.home ≤ 15
  | _ => p.home == 0

/-- The format of a storage or view code (R91). -/
def fmtOf (k : Nat) : Option MFmt :=
  if k ≤ 12 then some (.tag (tagOf k)) else if k = 13 then some .ptr else if k = 14 then some .pk else none

/-- Storage and view pairs admitted (R92). -/
def pairAdmitted (sf vf : Nat) : Bool :=
  match fmtOf sf, fmtOf vf with
  | some (.tag a), some (.tag b) =>
    if a.isInt then b.isInt && b.width == a.width
    else a == b ||
      match a with
      | .fp32 => b == .bf16 || b == .fp16 || b == .e4m3 || b == .e5m2
      | .bf16 => b == .fp32 || b == .e4m3 || b == .e5m2
      | .fp16 => b == .fp32 || b == .e4m3 || b == .e5m2
      | _ => b == .fp32 || b == .bf16 || b == .fp16
  | some .ptr, some .ptr => true
  | some .pk, some .pk => true
  | _, _ => false

/-- Element width in memory, bytes (R91). -/
def storeWidth : MFmt → Nat
  | .tag t => t.width / 8
  | .ptr => 16
  | .pk | .any => 8

/-- View elements per register, in halves for a pointer: registers × this / 2 elements. -/
def viewBytes (sf vf : MFmt) (regs : Nat) : Nat :=
  match vf with
  | .tag v => regs * v.count * storeWidth sf
  | .ptr | .pk | .any => 8 * regs

/-- log2 of the private window (R96). -/
def Die.wlog (d : Die) : Option Nat :=
  let w := bits d.privap.toNat 4 0
  if 12 ≤ w && w ≤ 24 then some w else none

/-- The private window's virtual address (R95). -/
def Die.window (d : Die) (core lane : Nat) : Nat :=
  bits d.privap.toNat 63 24 * 2 ^ 24 + (core * 1024 + lane) * 2 ^ (d.wlog.getD 0)

/-- The save aperture as first address and size (R97). -/
def Die.saveRange (d : Die) : Option (Nat × Nat) :=
  let z := bits d.saveap.toNat 5 0
  if 24 ≤ z && z ≤ 47 then some (bits d.saveap.toNat 63 24 * 2 ^ 24, 2 ^ z) else none

/-- An import entry (R413); words 2 and 3 describe an Ethernet endpoint (R429). -/
structure Import where
  kind : Nat
  tpos : Nat
  tdie : Nat
  expidx : Nat
  tenant : Nat
  egen : Nat
  len : Nat
  w2 : Word
  w3 : Word
deriving DecidableEq, Repr

/-- The fields of an import entry's four words, where it is VALID. -/
def importOf (ws : List Word) : Option Import :=
  let w0 := (ws.getD 0 0).toNat
  if !bit w0 63 then none
  else some { kind := bits w0 62 61, tpos := bits w0 60 57, tdie := bits w0 56 55, expidx := bits w0 51 40,
              tenant := bits w0 39 24, egen := bits w0 11 0, len := (ws.getD 1 0).toNat, w2 := ws.getD 2 0, w3 := ws.getD 3 0 }

/-- The virtual address of entry n of a logical device's import table (R413). -/
def Die.importAt (d : Die) (n : Nat) : Nat := bits d.imptab.toNat 63 17 * 2 ^ 17 + 32 * n

/-- The copy of an import entry that a viewer holds and that has not expired (R394, R414). -/
def State.heldImport (s : State) (v n : Nat) : Option ImportEnt :=
  s.imports.find? fun e => e.holder == v && e.slot == n && (s.die (v % 4)).quiesce < e.stamp + 64

/-- The words of import slot n for a viewer: its copy, or the table in memory. -/
def State.importWords (s : State) (v n : Nat) : Option (List Word) :=
  match s.heldImport v n with
  | some e => some e.words
  | none => (s.readVirt v ((s.die (v % 4)).importAt n) 32).map fun bs =>
      (List.range 4).map fun k => BitVec.ofNat 64 (ofBytes ((bs.drop (8 * k)).take 8))

/-- Import slot n of a viewer's logical device where it is in use (R413, R414). -/
def State.import? (s : State) (v n : Nat) : Option Import :=
  if !bit (s.die (v % 4)).imptab.toNat 0 then none else (s.importWords v n).bind importOf

/-- The lines of the import table that must come home before slot n of a viewer's logical device can be read. -/
def State.importAway (s : State) (v n : Nat) : List Nat :=
  if !bit (s.die (v % 4)).imptab.toNat 0 || (s.heldImport v n).isSome then [] else s.virtAway v ((s.die (v % 4)).importAt n) 32

/-- A viewer keeps the import entries it has used (R414): valid ones only, with the counter read when they were fetched. -/
def State.keepImport (s : State) (v n : Nat) : State :=
  if (s.heldImport v n).isSome || (s.import? v n).isNone then s
  else
    match s.importWords v n with
    | some ws =>
      { s with imports := s.imports.filter (fun e => !(e.holder == v && e.slot == n)) ++ [⟨v, n, ws, (s.die (v % 4)).quiesce⟩] }
    | none => s

/-- The block of a rank in a block's cluster (R86, R302, R303). -/
def State.rankBlock (s : State) (b : Block) (rank : Nat) : Option Block :=
  s.blocks.find? fun q => q.die == b.die && q.bcluster == b.bcluster && q.rank == rank

/-- Check 1 of R99 fails: a reserved code, a combination or pair not admitted, HOME out of range, no aperture, an import
slot that serves no access (R414). -/
def State.check1 (s : State) (b : Block) (p : Ptr) : Bool :=
  !p.admitted || !pairAdmitted p.sfmt p.vfmt || !p.homeOk ||
  (p.space == spPrivate && ((s.die b.die).wlog).isNone) ||
  (p.space == spPeer &&
    match s.import? b.view (p.base / 2 ^ 52) with
    | none => true
    | some i => i.kind != 1 || (p.scope == 4 && i.tpos != s.pos))

/-- The lane is within the pointer's home (R88). -/
def State.within (s : State) (b : Block) (l : Nat) (p : Ptr) : Bool :=
  match p.scope with
  | 0 => (b.lane l).winCore == p.home && (b.lane l).winLane == p.base / 2 ^ 54
  | 1 => if p.space == spScratch then p.home == b.rank else p.home == b.core
  | 2 => if p.space == spScratch then (s.rankBlock b p.home).isSome
         else p.home % 48 == b.core / 4 && p.home / 48 == b.die
  | 3 => p.home == b.die
  | 4 => p.home == s.pos
  | _ => true

/-- Check 5 of R99 fails (R90): the limit or the bound of the space. -/
def State.check5 (s : State) (b : Block) (p : Ptr) (o z : Nat) : Bool :=
  p.limit == 0 || p.limit < o + z ||
  match p.space with
  | 1 => ((s.rankBlock b p.home).map (·.scrSize)).getD 0 < p.base + o + z
  | 2 => 2 ^ (((s.die b.die).wlog).getD 0) < p.base % 2 ^ 54 + o + z
  | 3 => ((s.import? b.view (p.base / 2 ^ 52)).map (·.len)).getD 0 < p.base % 2 ^ 52 + o + z
  | _ => 2 ^ 64 < p.base + o + z

/-- Instead of the number of a failing check: the check cannot be made yet. -/
def notYet : Nat := 9

/-- Check 6 of R99 fails (R98): a byte of the range lies in the save aperture. -/
def State.check6 (s : State) (b : Block) (p : Ptr) (o z : Nat) : Bool :=
  0 < z && (p.space == spGlobal || p.space == spHost || p.space == spCode) &&
  match (s.die b.die).saveRange with
  | some (a, n) => p.base + o < a + n && a < p.base + o + z
  | none => false

/-- The first of the named checks of R99 that fails in a lane for the range [o, o + z); `notYet` where the import table cannot be read
yet. -/
def State.ptrFail (s : State) (b : Block) (l : Nat) (p : Ptr) (o z : Nat) (fmtBad : Bool) (only : List Nat) : Option Nat :=
  if p.space == spPeer && !(s.importAway b.view (p.base / 2 ^ 52)).isEmpty then some notYet
  else only.find? fun k =>
    match k with
    | 1 => s.check1 b p
    | 2 => !s.within b l p
    | 3 => p.cls == clShared
    | 4 => fmtBad
    | 5 => s.check5 b p o z
    | _ => s.check6 b p o z

def checkTrap : Nat → Trap
  | 2 => .scopeHome
  | 3 => .writeRs
  | 4 => .formatMismatch
  | 5 => .extent
  | _ => .ptrBad

/-! ## What a lane's checks find -/

/-- A failed check: its place in the order of checks, the trap, DETAIL and ADDR (R349, R350). -/
structure Bad where
  rank : Nat
  trap : Trap
  detail : Nat
  addr : Nat
deriving DecidableEq, Repr

/-- A failed pointer check k of operand field f (0 DST to 3 SRCC), ranked after those of earlier operands. -/
def badPtr (f k : Nat) (addr : Nat) : Bad := ⟨10 * f + (if k = notYet then 0 else k), checkTrap k, k + f * 256, addr⟩

/-- No failure: a check that cannot be made yet, of a peer-window address or of a send list's control block. -/
def Bad.holds (x : Bad) : Bool := x.detail % 256 == notYet

/-- The first failing check over the lanes, with the lanes that fail it (R46, R99). -/
def firstBad (l : List (Nat × Option Bad)) : Option (Bad × List Nat) :=
  let fs := l.filterMap fun (m, b) => b.map fun b => (m, b)
  match (fs.map (·.2.rank)).foldl (fun a r => match a with | none => some r | some x => some (min x r)) (none : Option Nat) with
  | none => none
  | some r =>
    let ms := fs.filter (·.2.rank == r)
    (ms.head?).map fun x => (x.2, ms.map (·.1))

/-- Trap on a failed check, hold on one that cannot be made yet, else go on. -/
def State.checked (s : State) (b : Block) (c : Ctx) (h : Head) (l : List (Nat × Option Bad)) (k : Out) : Out :=
  match firstBad l with
  | some (x, ls) =>
    if x.holds then
      .next ((s.want (if x.trap == .copyInvalid then s.virtAway b.die x.addr 64 else s.importAway b.view (x.addr / 2 ^ 52))).holdIssue c)
    else
    let of_ (m : Nat) : Bad := ((l.find? fun e => e.1 == m).bind (·.2)).getD x
    .next (s.raise b c h.scope x.trap ls (fun m => ⟨BitVec.ofNat 64 (of_ m).detail, BitVec.ofNat 64 (of_ m).addr, 0⟩) 0)
  | none => k

/-- The address an access names: a virtual address in the translated and private spaces, a scratchpad offset, or the
whole peer-window address. -/
def State.addrOf (s : State) (b : Block) (p : Ptr) (o : Nat) : Nat :=
  if p.space == spPrivate then
    (s.die b.die).window p.home (p.base / 2 ^ 54) + p.base % 2 ^ 54 + o
  else p.base + o

/-- The offset whose alignment R209 judges: from address 0, or from the start of the allocation, window or region. -/
def Ptr.alignOff (p : Ptr) (o : Nat) : Nat :=
  match p.space with
  | 2 => p.base % 2 ^ 54 + o
  | 3 => p.base % 2 ^ 52 + o
  | _ => p.base + o

/-! ## Conversion between storage and view (R92) -/

/-- Split bytes into numbers of n bytes. -/
def chunks (n : Nat) (bs : List Byte) (k : Nat) : List Nat := (List.range k).map fun j => ofBytes ((bs.drop (n * j)).take n)

/-- The storage bytes of one view register and the flags of a narrowing store. -/
def storeReg (sf vf : MFmt) (x : Word) : List Byte × Flags :=
  match sf, vf with
  | .tag a, .tag v =>
    let es := (List.range v.count).map fun k => convElem v a (elem v.width x k)
    (es.flatMap fun e => toBytes (a.width / 8) e.1, orFlags es)
  | _, _ => (toBytes 8 x.toNat, 0)
where
  orFlags (l : List Deliv) : Flags := l.foldl (fun f e => f ||| e.2) 0

/-- The view register of its storage bytes. -/
def loadReg (sf vf : MFmt) (bs : List Byte) : Word :=
  match sf, vf with
  | .tag a, .tag v => packElems v.width ((chunks (a.width / 8) bs v.count).map fun x => (convElem a v x).1)
  | _, _ => BitVec.ofNat 64 (ofBytes bs)

/-- The tag register k of a load carries (R210). -/
def loadTag (vf : MFmt) (k : Nat) : Tag :=
  match vf with
  | .tag t => t
  | .ptr => if k % 2 = 0 then .ptrLo else .ptrHi
  | .pk | .any => .n64

/-- The peer-window pointers' import slots among some pointers. -/
def importSlots (ps : List (BitVec 128)) : List Nat :=
  (ps.filterMap fun pv => let p := ptrOf pv; if p.space == spPeer then some (p.base / 2 ^ 52) else none).eraseDups

/-- Does a load take a facet (R93)? -/
def Ptr.facet (p : Ptr) : Bool :=
  p.cls == clShared &&
  match p.sfmt, p.vfmt with
  | 0, v => 1 ≤ v && v ≤ 4
  | 1, v => v == 3 || v == 4
  | 2, v => v == 3 || v == 4
  | _, _ => false

end Sys2Proof.Machine
end

