-- ==== Sys2Proof/Machine/Memory.lean ====
section
/-! DEFINITION. Class 110: loads, stores and atomics, pointer instructions and memory actions (R208 to R228), and WAITM
(R147): what happens at issue. The accesses are performed by the events of MemEvents. -/

namespace Sys2Proof.Machine

/-! ## Order between accesses of one lane (R324 to R328, R342) -/

/-- What storage an address lies in, for overlap: virtual, a scratchpad by rank, or the peer window. -/
def Ptr.kind (p : Ptr) : Nat := if p.space == spScratch then 1 + p.home else if p.space == spPeer then 100 else 0

/-- May two ranges meet once each is taken modulo a size that every mapping keeps? -/
def meetMod (z a n b m : Nat) : Bool := (b + z - a % z) % z < n || (a + z - b % z) % z < m

/-- Two places may be the same byte: regions of one peer start at multiples of 4 KiB (R413), and where two exports of it lie is the
peer's own. -/
def Place.same (p q : Place) : Bool :=
  match p, q with
  | .peer pos d e _ _ o, .peer pos' d' e' _ _ o' => pos == pos' && (if d == d' && e == e' then o == o' else o % 4096 == o' % 4096)
  | .err, _ => false
  | _, _ => p == q

/-- Where an access's bytes lie, once it is known. -/
def LaneAcc.places (x : LaneAcc) : Option (List Place) :=
  match x.phase with
  | .placed ps => some ps
  | .sent _ ps => some ps
  | _ => none

/-- An access writes, reads. -/
def AccKind.writes (k : AccKind) : Bool := match k with
  | .load | .monitor => false
  | _ => true
def AccKind.reads (k : AccKind) : Bool := k != .store

/-- Two accesses of a lane touch a common byte, the earlier first: by address, or by place once both are translated. Until then two
addresses are taken to name the same bytes wherever they could (log 79). One that waits on a fault takes its bytes, at its own place
in program order, from what later accesses leave in `kept`; only a later read of bytes it writes must follow it. -/
def LaneAcc.overlaps (ek : AccKind) (x : LaneAcc) (k : AccKind) (y : LaneAcc) : Bool :=
  let p := ptrOf x.ptr
  let q := ptrOf y.ptr
  (p.kind == q.kind && x.addr < y.addr + y.size && y.addr < x.addr + x.size) ||
  match x.places, y.places with
  | some ps, some qs => ps.any fun a => qs.any a.same
  | _, _ =>
    if p.space == spScratch || q.space == spScratch then false
    else (!x.faulted || (ek.writes && k.reads)) &&
      meetMod (if p.space == spPeer || q.space == spPeer then 4096 else 2 ^ 16) x.addr x.size y.addr y.size

def LaneAcc.acquires (k : AccKind) (x : LaneAcc) : Bool := (ptrOf x.ptr).sync && k != .store
def LaneAcc.releases (k : AccKind) (x : LaneAcc) : Bool :=
  (ptrOf x.ptr).sync && match k with
    | .load | .monitor => false
    | _ => true

/-- An earlier access of a lane is ordered before a later one: same bytes (R324), both ordered and of one stream
(R325), the later a release or the earlier an acquire (R328). -/
def mustPrecede (ek : AccKind) (x : LaneAcc) (k : AccKind) (y : LaneAcc) : Bool :=
  let p := ptrOf x.ptr
  let q := ptrOf y.ptr
  x.overlaps ek k y || (p.cls != clPrivate && q.cls != clPrivate && p.stream == q.stream) || y.releases k || x.acquires ek

/-- The scope instance a pointer names, as its scope and which one (R320). -/
def State.scopeInst (s : State) (b : Block) (p : Ptr) : Nat × Nat :=
  if p.space == spScratch then
    if p.scope == 2 then (2, b.die * 48 + b.core / 4) else (1, b.die * 192 + ((s.rankBlock b p.home).getD b).core)
  else if p.scope == 1 then (1, b.die * 192 + p.home)
  else (p.scope, p.home)

/-- The device whose memory a pointer names: this one, or by a peer window another; none where no import entry serves. -/
def State.target (s : State) (b : Block) (p : Ptr) : Option Nat :=
  if p.space == spPeer then (s.import? b.view (p.base / 2 ^ 52)).map (·.tpos) else some s.pos

/-- As `mustPrecede` (bytes of different devices are different bytes), or both are synchronising and name one scope instance, whatever
their streams (R330). -/
def State.precedes (s : State) (b : Block) (ek : AccKind) (x : LaneAcc) (k : AccKind) (y : LaneAcc) : Bool :=
  let p := ptrOf x.ptr
  let q := ptrOf y.ptr
  (if s.target b p != s.target b q then mustPrecede ek { x with size := 0 } k { y with size := 0 }
   else mustPrecede ek x k y) ||
  (p.sync && q.sync && s.scopeInst b p == s.scopeInst b q)

def LaneAcc.done (x : LaneAcc) : Bool := x.phase == .done

/-! ## What holds a memory instruction at issue -/

/-- An HLD that faulted and is still to be performed (R250). -/
def LongOp.isHld (o : LongOp) : Bool := match o.body with
  | .hld .. => true
  | _ => false

/-- A member group has a faulted access or HLD without an operand-log entry (R352). -/
def State.logFull (s : State) (b : Block) (gs : List Nat) : Bool :=
  (s.accs.any fun a => a.blk == b.id && a.faulted && !a.logged && gs.any a.groups.contains) ||
    s.longs.any fun o => o.blk == b.id && o.isHld && o.waits.isSome && !o.logged && gs.any o.groups.contains

/-- As `logFull`, or a member group has an HLD that is still to be performed: its read is an acquire, so later accesses of the group
follow it (R328, R342); one deferred by a trap waits for TRET (R348). -/
def State.logHeld (s : State) (b : Block) (gs : List Nat) : Bool :=
  s.logFull b gs || s.longs.any fun o => o.blk == b.id && o.isHld && !o.deferred && gs.any o.groups.contains

/-- An open PWIDEN or PNARROW (for loads, an open UPGR too) of one of the lanes (R224, R226). -/
def State.actionHeld (s : State) (b : Block) (lanes : List Nat) (isLoad : Bool) : Bool :=
  s.actions.any fun a => a.blk == b.id && a.lanes.any lanes.contains &&
    (a.kind == .widen || a.kind == .narrow || (a.kind == .upgr && isLoad))

/-- A faulted access of the same lane that is to be performed first (R342), as it is by every synchronising access; deferred
ones wait for TRET. -/
def State.replayHeld (s : State) (b : Block) (k : AccKind) (las : List LaneAcc) : Bool :=
  s.accs.any fun a => a.blk == b.id && !a.deferred && a.las.any fun x => x.faulted &&
    las.any fun y => y.lane == x.lane && ((ptrOf y.ptr).sync || s.precedes b a.kind x k y)

/-- An engine command waits at issue for the faulted accesses that R338 orders before it: those of its stream and every
synchronising one. -/
def State.engineHeld (s : State) (b : Block) (lanes : List Nat) (stream : Nat) : Bool :=
  s.accs.any fun a => a.blk == b.id && !a.deferred && a.las.any fun x => x.faulted && lanes.contains x.lane &&
    ((ptrOf x.ptr).sync || (ptrOf x.ptr).stream == stream)

/-! ## Loads, stores, atomics -/

/-- The format of a memory instruction as a source format. -/
def mfmtAs : MFmt → LitAs
  | .tag t => .as t
  | .pk => .as .n64
  | .ptr | .any => .plain

/-- The check on register k of a memory instruction's data (R211, R214, R215). -/
def mfmtChk (f : MFmt) (k : Nat) (anyPoison : Bool) : Chk :=
  match f with
  | .tag t => .fmt t
  | .pk => .pack
  | .ptr => if k % 2 = 0 then .ptrLo else .ptrHi
  | .any => if anyPoison then .noPoison else .raw

/-- n consecutive registers from an operand. -/
def regRun (o : Opd) : Nat → List Opd
  | 0 => []
  | n + 1 => o :: regRun (nextReg o) n

def dataSpecs (f : MFmt) (o : Opd) (n : Nat) (anyPoison : Bool) : List SrcSpec :=
  (regRun o n).zipIdx.map fun (r, k) => ⟨r, mfmtChk f k anyPoison⟩

def nregCount : NReg → Nat
  | .one => 1 | .pair => 2 | .quad => 4

/-- Width in bytes of the element of ATOM and CAS (R214, R215). -/
def atomWidth (f : MFmt) (pair : Bool) : Nat :=
  if pair then 16 else match f with
    | .tag t => t.width / 8
    | _ => 8

/-- What the access of a memory instruction needs: its kind, format, registers moved, width of an atomic's element. -/
structure MemOp where
  kind : AccKind
  fmt : MFmt
  regs : Nat
  width : Nat
deriving DecidableEq, Repr

def MemOp.isLoad (m : MemOp) : Bool := m.kind == .load
def MemOp.isStore (m : MemOp) : Bool := m.kind == .store
def MemOp.isAtomic (m : MemOp) : Bool := !(m.isLoad || m.isStore)

/-- Bytes one lane's access covers (R209, R92). -/
def MemOp.size (m : MemOp) (p : Ptr) : Nat :=
  if m.isAtomic then m.width
  else if m.fmt == .any then 8 * m.regs
  else viewBytes ((fmtOf p.sfmt).getD .any) ((fmtOf p.vfmt).getD .any) m.regs

/-- Required alignment (R209). -/
def MemOp.align (m : MemOp) (p : Ptr) : Nat :=
  if m.isAtomic then m.width
  else match m.fmt with
    | .tag _ => min 8 (storeWidth ((fmtOf p.sfmt).getD .any))
    | _ => 8

/-- Check 4 of R99 fails. -/
def MemOp.fmtBad (m : MemOp) (p : Ptr) : Bool :=
  m.fmt != .any && (fmtOf p.vfmt != some m.fmt || (m.isAtomic && p.sfmt != p.vfmt))

/-- The pointer checks and ALIGN of one lane's access (R99, R209). -/
def State.memBad (s : State) (b : Block) (m : MemOp) (l : Nat) (pv : BitVec 128) (o : Nat) : Option Bad :=
  let p := ptrOf pv
  match s.ptrFail b l p o (m.size p) (m.fmtBad p) (if m.isLoad then [1, 2, 4, 5, 6] else [1, 2, 3, 4, 5, 6]) with
  | some k => some (badPtr 1 k (p.base + o))
  | none => if p.alignOff o % m.align p != 0 then some ⟨100, .align, 0, p.base + o⟩ else none

/-- The storage bytes of a store's data in a lane, its poison, and the flags of the conversion (R211). -/
def Block.storeData (b : Block) (m : MemOp) (l : Nat) (p : Ptr) (data : Opd) : List Byte × List Bool × Flags :=
  let sf := if m.fmt == .any then MFmt.any else (fmtOf p.sfmt).getD .any
  let vf := if m.fmt == .any then MFmt.any else (fmtOf p.vfmt).getD .any
  let rs := (regRun data m.regs).map fun o =>
    let r := b.read l (mfmtAs m.fmt) o
    let d := storeReg sf vf r.bits
    (d.1, List.replicate d.1.length (r.tag == some .poison), d.2)
  (rs.flatMap (·.1), rs.flatMap (·.2.1), rs.foldl (fun f r => f ||| r.2.2) 0)

/-- The operand, or the expected and new values, of an atomic in a lane as bytes. -/
def Block.atomData (b : Block) (m : MemOp) (l : Nat) (c : Opd) : List Byte × List Byte :=
  let reg (o : Opd) : List Byte := toBytes 8 (b.read l (mfmtAs m.fmt) o).bits.toNat
  match m.kind with
  | .cas =>
    let rs := (regRun c 4).map reg
    if m.width = 16 then (rs.getD 2 [] ++ rs.getD 3 [], rs.getD 0 [] ++ rs.getD 1 [])
    else ((rs.getD 1 []).take m.width, (rs.getD 0 []).take m.width)
  | _ => ((reg c).take m.width, [])

/-- One lane's access, awaiting its walk. -/
def State.laneAcc (s : State) (b : Block) (m : MemOp) (l : Nat) (pv : BitVec 128) (o : Nat) (data : Opd) : LaneAcc × Flags :=
  let p := ptrOf pv
  let base : LaneAcc := { lane := l, ptr := pv, addr := s.addrOf b p o, size := m.size p, data := [], cmp := [],
                          poison := [], phase := .walk, got := [], bad := [] }
  if m.isStore then
    let (d, ps, f) := b.storeData m l p data
    ({ base with data := d, poison := ps }, f)
  else if m.isAtomic then
    let (d, e) := b.atomData m l data
    ({ base with data := d, cmp := e }, 0)
  else (base, 0)

/-- The core keeps the import entries its pointers use (R414). -/
def State.keepImports (s : State) (b : Block) (ps : List (BitVec 128)) : State :=
  (importSlots ps).foldl (fun s n => s.keepImport b.view n) s

/-- The access record of an issue. -/
def accOf (s : State) (b : Block) (c : Ctx) (h : Head) (w : Work) (m : MemOp) (d : Opd) (tag : Nat) (las : List LaneAcc) : Access :=
  { id := s.nextId, blk := b.id, grp := c.grp, die := b.die, stamp := (s.die b.die).quiesce, pc := c.pc, kind := m.kind,
    fmt := m.fmt, regs := m.regs, width := m.width, scope := h.scope, dst := d, tag := tag, logged := false,
    deferred := false, las := las, recv := w.recv, pos := w.pos, groups := w.groups, desig := w.desig }

/-- A LOAD, STORE OR ATOMIC at issue: the checks of R46, R99 and R209, the waits of R37, R224, R312, R342 and R352, then
the access is outstanding and counted. -/
def State.memIssue (s : State) (i : Instr) (h : Head) (m : MemOp) (d : Opd) (tag : Nat) (ptr off data : Opd)
    (dsps : List SrcSpec) (ctr : Ctr) : Out :=
  s.issue i h fun b c =>
    let w := b.work c h
    if !w.acts then .next (s.pass b c h)
    else
      let codes := if m.isStore then [] else dstCodes d m.regs
      let sps := ptrSpecs ptr ++ [⟨off, .int64⟩] ++ dsps ++ needs h d
      s.gated b c i h w.src (if m.isStore then [] else w.recv.map (·.1)) sps codes []
        (let at_ (l : Nat) : BitVec 128 × Nat := (b.readPtr l ptr, (b.read l .zext off).bits.toNat)
         s.checked b c h (w.src.map fun l => (l, s.memBad b m l (at_ l).1 (at_ l).2))
          (let las := w.src.map fun l => s.laneAcc b m l (at_ l).1 (at_ l).2 data
           if b.ctrFull w.groups ctr || s.actionHeld b w.src m.isLoad || s.logHeld b w.groups ||
              s.replayHeld b m.kind (las.map (·.1)) ||
              (!m.isStore && (b.tagLanes h w).any fun l => s.tagBusy b l tag) then .next (s.holdIssue c)
           else
            let a := accOf s b c h w m d tag (las.map (·.1))
            let b1 := b.addOps w.groups a.id ctr
            let s := s.keepImports b (w.src.map fun l => (at_ l).1)
            if m.isStore then
              let b2 := b1.modLanes (fun l => w.src.contains l) fun l ln =>
                { ln with flags := ln.flags ||| (((las.find? (·.1.lane == l)).map (·.2)).getD 0) }
              .next { s.pass b2 c h with nextId := s.nextId + 1, accs := s.accs ++ [a] }
            else .next { s.issueLong b1 c h w d m.regs tag .access false [] with accs := s.accs ++ [a] }))

/-- LD (R210). -/
def execLd (h : Head) (f : MFmt) (n : NReg) (tag : BitVec 3) (d ptr off : Opd) (s : State) : Out :=
  s.memIssue (.ld h f n tag d ptr off) h ⟨.load, f, nregCount n, 8⟩ d tag.toNat ptr off .zero [] .ld

/-- ST (R211). -/
def execSt (h : Head) (f : MFmt) (n : NReg) (ptr off data : Opd) (s : State) : Out :=
  s.memIssue (.st h f n ptr off data) h ⟨.store, f, nregCount n, 8⟩ .zero 0 ptr off data (dataSpecs f data (nregCount n) true) .st

/-- ATOM (R214). -/
def execAtom (h : Head) (f : MFmt) (op : AOp) (tag : BitVec 3) (d ptr off c : Opd) (s : State) : Out :=
  s.memIssue (.atom h f op tag d ptr off c) h ⟨.atom op, f, 1, atomWidth f false⟩ d tag.toNat ptr off c
    (dataSpecs f c 1 false) .at_

/-- CAS (R215). -/
def execCas (h : Head) (f : MFmt) (pair : Bool) (tag : BitVec 3) (d ptr off e : Opd) (s : State) : Out :=
  s.memIssue (.cas h f pair tag d ptr off e) h ⟨.cas, f, if pair then 2 else 1, atomWidth f pair⟩ d tag.toNat ptr off e
    (dataSpecs f e (if pair then 4 else 2) false) .at_

/-! ## WAITM (R147) -/

/-- WAITM: the checks, then the run ends with the acting lanes held at a monitor whose first read is outstanding. -/
def execWaitm (h : Head) (rel : WRel) (dword : Bool) (ptr cmp : Opd) (await : BitVec 8) (s : State) : Out :=
  s.issue (.waitm h rel dword ptr cmp await) h fun b c =>
    let on := b.acting c h
    let w : Work := if c.wide then { src := [(b.designated c.members).getD 0], recv := [], pos := [], groups := c.members,
                                     desig := (b.designated c.members).getD 0, acts := !on.isEmpty }
      else { src := on, recv := [], pos := [], groups := if on.isEmpty then [c.grp] else homesOf on, desig := on.headD 0, acts := !on.isEmpty }
    let src := if on.isEmpty then [] else w.src
    let z := if dword then 8 else 4
    let m : MemOp := ⟨.load, .any, 1, z⟩
    s.gated b c (.waitm h rel dword ptr cmp await) h src [] (ptrSpecs ptr ++ [⟨cmp, .raw⟩] ++ needs h .zero) [] []
      (let bad (l : Nat) : Option Bad :=
         let p := ptrOf (b.readPtr l ptr)
         match s.ptrFail b l p 0 z false [1, 2, 4, 5, 6] with
         | some k => some (badPtr 1 k p.base)
         | none => if p.base % z != 0 then some ⟨100, .align, 0, p.base⟩ else none
       s.checked b c h (src.map fun l => (l, bad l))
        (s.late b c h false
          (let las := src.map fun l =>
             { (s.laneAcc b m l (b.readPtr l ptr) 0 .zero).1 with size := z }
           if src.isEmpty then .next (s.endRun b c await (fun _ => c.pc + c.len) (fun _ => .ready))
           else if s.actionHeld b src true || s.logHeld b w.groups || s.replayHeld b .monitor las then
             .next (s.holdIssue c)
           else
             let s := s.keepImports b (src.map fun l => b.readPtr l ptr)
             let a := { accOf s b c h w ⟨.monitor, .any, 1, z⟩ .zero 0 las with scope := h.scope }
             let mon : Monitor :=
               { id := a.id, blk := b.id, pc := c.pc, len := c.len, instr := .waitm h rel dword ptr cmp await,
                 scope := h.scope, members := if c.wide then c.members else homesOf c.lanes, rel := rel, dword := dword,
                 lanes := src.map fun l => (l, b.readPtr l ptr, (b.read l .plain cmp).bits),
                 readAt := (s.die b.die).time.toNat, armed := false }
             .next { s.endRun b c await (fun _ => c.pc + c.len) (fun l => if on.contains l then .waitm a.id else .ready) with
                     nextId := a.id + 1, accs := s.accs ++ [a], monitors := s.monitors ++ [mon] })))

/-! ## Building and reading pointers -/

/-- A pointer pair as two results (R218). -/
def ptrRes (p : BitVec 128) : LaneRes :=
  ⟨[⟨p.setWidth 64, .ptrLo⟩, ⟨(p >>> 64).setWidth 64, .ptrHi⟩], 0, none, none⟩

/-- An instruction of fixed latency with checks of its own per lane. -/
def State.aluChk (s : State) (i : Instr) (h : Head) (sps : List SrcSpec) (d : Opd) (n lat : Nat)
    (bad : Block → Nat → Option Bad) (f : Block → Nat → LaneRes) : Out :=
  s.issue i h fun b c =>
    let w := b.work c h
    if !w.acts then .next (s.pass b c h)
    else
      s.gated b c i h w.src (w.recv.map (·.1)) (sps ++ needs h d) (dstCodes d n) []
        (s.checked b c h (w.src.map fun l => (l, bad b l))
          (.next (s.issueFixed b c h w d 7 lat (w.src.map fun l => (l, f b l)))))

/-- PMAKE (R219). -/
def execPmake (h : Head) (priv : Bool) (o : O3) (s : State) : Out :=
  s.alu (.pmake h priv o) h [⟨o.a, .raw⟩, ⟨o.b, .raw⟩] [] o.d 2 7 4 fun b _ l =>
    let lo := (b.read l .plain o.a).bits
    let hi := (b.read l .plain o.b).bits
    let p := ptrOf (hi ++ lo)
    ptrRes (if priv then
      ({ p with base := (b.lane l).winLane * 2 ^ 54 + lo.toNat % 2 ^ 54, home := (b.lane l).winCore, space := spPrivate,
                cls := clPrivate, scope := 0 } : Ptr).pack
      else hi ++ lo)

/-- PSUB (R220). -/
def execPsub (h : Head) (o : O3) (s : State) : Out :=
  s.aluChk (.psub h o) h (ptrSpecs o.a ++ [⟨o.b, .int64⟩]) o.d 2 4
    (fun b l =>
      let p := ptrOf (b.readPtr l o.a)
      if p.extent < bits (b.read l .plain o.b).bits.toNat 31 0 then some ⟨1, .extent, 0, p.base⟩ else none)
    fun b l => ptrRes { ptrOf (b.readPtr l o.a) with extent := bits (b.read l .plain o.b).bits.toNat 31 0 }.pack

/-- A field of a pointer (R84). -/
def ptrFieldOf (p : Ptr) : PField → Nat
  | .base => p.base | .extent => p.extent | .sfmt => p.sfmt | .vfmt => p.vfmt | .space => p.space | .class_ => p.cls
  | .scope => p.scope | .stream => p.stream | .home => p.home | .xunit => if p.xunit then 1 else 0
  | .submode => if p.submode then 1 else 0 | .policy => p.policy

/-- PGET (R221). -/
def execPget (h : Head) (fld : PField) (o : O2) (s : State) : Out :=
  s.alu (.pget h fld o) h (ptrSpecs o.a) [] o.d 1 7 4 fun b _ l =>
    LaneRes.ofReg ⟨BitVec.ofNat 64 (ptrFieldOf (ptrOf (b.readPtr l o.a)) fld), .n64⟩

/-- The code PCHK reports for a failing check (R222). -/
def pchkCode : Option Nat → Nat
  | none => 0
  | some 6 => 5
  | some 5 => 4
  | some k => k

/-- PCHK (R222): reports, never traps. A 32-bit literal byte count C is zero-extended like the offset (DESIGN CHOICE, log 80). -/
def execPchk (h : Head) (st : Bool) (o : O4) (s : State) : Out :=
  let fail (b : Block) (l : Nat) : Option Nat :=
    s.ptrFail b l (ptrOf (b.readPtr l o.a)) (b.read l .zext o.b).bits.toNat (b.read l .zext o.c).bits.toNat false
      (if st then [1, 2, 3, 5, 6] else [1, 2, 5, 6])
  s.aluChk (.pchk h st o) h (ptrSpecs o.a ++ [⟨o.b, .int64⟩, ⟨o.c, .int64⟩]) o.d 1 4
    (fun b l => if fail b l = some notYet then some (badPtr 1 notYet (ptrOf (b.readPtr l o.a)).base) else none)
    fun b l => LaneRes.ofReg ⟨BitVec.ofNat 64 (pchkCode (fail b l)), .n64⟩

/-! ## Widening and narrowing (R223, R224) -/

/-- HOME of a new scope for the executing block (R223). -/
def State.homeFor (s : State) (b : Block) (scope : Nat) : Nat :=
  match scope with
  | 1 => b.core
  | 2 => b.die * 48 + b.core / 4
  | 3 => b.die
  | 4 => s.pos
  | _ => 0

/-- The pointer PWIDEN or PNARROW forms, none where the transition is not admitted. With scope and class both unchanged D equals A in
every space, the spaces from which no transition is admitted among them (DESIGN CHOICE, log 81). -/
def State.rescope (s : State) (b : Block) (widen : Bool) (p : Ptr) (ns nc : Nat) : Option Ptr :=
  let sc := if ns = 7 then p.scope else ns
  let cl := if nc = 3 then p.cls else nc
  let home := if sc == p.scope || p.space == spScratch then p.home else s.homeFor b sc
  let q := { p with scope := sc, cls := cl, home := home }
  let keep (ok : Bool) (r : Ptr) : Option Ptr := if ok && r.admitted then some r else none
  let whole := p.space == spGlobal || p.space == spHost || p.space == spPeer
  if sc == p.scope && cl == p.cls then some p
  else if widen then
    if whole || p.space == spCode then
      keep (p.scope ≤ sc && (cl == p.cls || ((p.cls == 0 || p.cls == 2) && cl == 1))) q
    else if p.space == spScratch then keep (p.scope ≤ sc && cl == p.cls) q
    else
      keep (1 ≤ sc && cl ≤ 2)
        { q with space := spGlobal, home := s.homeFor b sc,
                 base := (s.die b.die).window p.home (p.base / 2 ^ 54) + p.base % 2 ^ 54 }
  else
    if whole then keep (sc ≤ p.scope && (cl == p.cls || (p.cls == 1 && cl == 2))) q
    else if p.space == spScratch then keep (sc ≤ p.scope && cl == p.cls) q
    else none

/-- PWIDEN and PNARROW: the checks, D after its latency, and the memory action, open and counted on ST. A second one of the lane is held
while the action is open (DESIGN CHOICE, log 82). -/
def State.respan (s : State) (i : Instr) (h : Head) (widen : Bool) (ns : BitVec 3) (nc : BitVec 2) (o : O2) : Out :=
  s.issue i h fun b c =>
    let w := b.work c h
    if !w.acts then .next (s.pass b c h)
    else
      s.gated b c i h w.src (w.recv.map (·.1)) (ptrSpecs o.a ++ needs h o.d) (dstCodes o.d 2) []
        (let pt (l : Nat) : Ptr := ptrOf (b.readPtr l o.a)
         let new (l : Nat) : Option Ptr := s.rescope b widen (pt l) ns.toNat nc.toNat
         let bad (l : Nat) : Option Bad :=
           match s.ptrFail b l (pt l) 0 (pt l).limit false [1, 2, 6] with
           | some k => some (badPtr 1 k (pt l).base)
           | none => if (new l).isNone then some ⟨100, .ptrBad, 0, (pt l).base⟩ else none
         s.checked b c h (w.src.map fun l => (l, bad l))
          (let acts := w.src.filter fun l => new l != some (pt l)
           if !acts.isEmpty && (b.ctrFull w.groups .st || s.actionHeld b w.src false || s.logHeld b w.groups) then
             .next (s.holdIssue c)
           else
             let rs := w.src.map fun l => (l, ptrRes (((new l).getD (pt l)).pack))
             let s := s.keepImports b (acts.map fun l => b.readPtr l o.a)
             if acts.isEmpty then .next (s.issueFixed b c h w o.d 7 4 rs)
             else
               let id := s.nextId
               let a : Action := { id := id, blk := b.id, kind := if widen then .widen else .narrow,
                                   lanes := if h.scope == .lane then acts else w.groups.flatMap b.live,
                                   ranges := acts.map fun l =>
                                     (b.readPtr l o.a, 0, (pt l).limit, ((new l).getD (pt l)).pack) }
               .next ({ s with nextId := id + 1, actions := s.actions ++ [a] }.issueFixed (b.addOps w.groups id .st) c h w
                 o.d 7 4 rs)))

/-- PWIDEN and PNARROW (R223). -/
def execPwiden (h : Head) (nscope : BitVec 3) (nclass : BitVec 2) (o : O2) (s : State) : Out :=
  s.respan (.pwiden h nscope nclass o) h true nscope nclass o
def execPnarrow (h : Head) (nscope : BitVec 3) (nclass : BitVec 2) (o : O2) (s : State) : Out :=
  s.respan (.pnarrow h nscope nclass o) h false nscope nclass o

/-- SUBSCR and UPGR at issue (R225, R226): the checks of a load, then an action counted on LD. A 32-bit literal byte count C is
zero-extended (DESIGN CHOICE, log 80). -/
def State.register (s : State) (i : Instr) (h : Head) (kind : ActKind) (a o n : Opd) : Out :=
  s.issue i h fun b c =>
    let w := b.work c h
    if !w.acts then .next (s.pass b c h)
    else
      s.gated b c i h w.src [] (ptrSpecs a ++ [⟨o, .int64⟩, ⟨n, .int64⟩] ++ needs h .zero) [] []
        (let off (l : Nat) : Nat := (b.read l .zext o).bits.toNat
         let len (l : Nat) : Nat := min 65536 (b.read l .zext n).bits.toNat
         let bad (l : Nat) : Option Bad :=
           let p := ptrOf (b.readPtr l a)
           (s.ptrFail b l p (off l) (len l) false [1, 2, 5, 6]).map fun k => badPtr 1 k (p.base + off l)
         s.checked b c h (w.src.map fun l => (l, bad l))
          (if b.ctrFull w.groups .ld || s.actionHeld b w.src (kind == .upgr) || s.logHeld b w.groups then .next (s.holdIssue c)
           else
             let s := s.keepImports b (w.src.map fun l => b.readPtr l a)
             let id := s.nextId
             let act : Action := { id := id, blk := b.id, kind := kind,
                                   lanes := if h.scope == .lane then w.src else w.groups.flatMap b.live,
                                   ranges := w.src.map fun l => (b.readPtr l a, off l, len l, b.readPtr l a) }
             .next { s.pass (b.addOps w.groups id .ld) c h with nextId := id + 1, actions := s.actions ++ [act] }))

/-- SUBSCR (R225) and UPGR (R226). -/
def execSubscr (h : Head) (a b c : Opd) (s : State) : Out := s.register (.subscr h a b c) h .subscr a b c
def execUpgr (h : Head) (a b c : Opd) (s : State) : Out := s.register (.upgr h a b c) h .upgr a b c

/-- TAGQ (R227): the tag of A, POISON included. -/
def execTagq (h : Head) (o : O2) (s : State) : Out :=
  s.alu (.tagq h o) h [⟨o.a, .noPoison⟩] [] o.d 1 7 4 fun b _ l =>
    LaneRes.ofReg ⟨BitVec.ofNat 64 (((b.read l .plain o.a).tag.map tagCode).getD 12), .n64⟩

end Sys2Proof.Machine
end

