-- ==== Sys2Proof/Machine/Tile.lean ====
section
/-! DEFINITION. Class 111, tile store, matrix and shape instructions at issue (R229 to R252, R305, R306). -/

namespace Sys2Proof.Machine

/-! ## The frame of class 111 -/

/-- An instruction performed once, with the designated lane's sources (R232): UNIT_ABSENT, then the checks of R46. -/
def State.onceIssue (s : State) (i : Instr) (h : Head) (absent : Bool) (sps : List SrcSpec) (d : Opd) (n : Nat)
    (k : Block → Ctx → Work → Out) : Out :=
  s.issue i h fun b c =>
    let w := (b.work c h).once b
    if !w.acts then .next (s.pass b c h)
    else if absent then .next (s.trap b c h.scope .unitAbsent [w.desig])
    else
      s.gated b c i h w.src (w.recv.map (·.1)) (sps ++ needs h d) (dstCodes d n) [] (k b c w)

/-- A unit bit of CAP reads 1 (R3, R5). -/
def State.hasUnit (s : State) (k : Nat) : Bool := bit (s.cap 0).toNat k

/-- The designated lane's integer value of a source. -/
def Block.num (b : Block) (w : Work) (o : Opd) : Nat := (b.read w.desig .plain o).bits.toNat

/-! ## The tile store (R305, R306) -/

def OpSlot.zero : OpSlot := ⟨[], [], 0⟩
def CSlot.zero : CSlot := ⟨[], 0, 0, false, 0⟩
def TileStore.empty : TileStore := ⟨[], [], [], []⟩

/-- The core an access issues from, numbered over the package. -/
def Block.coreKey (b : Block) : Nat := b.die * 192 + b.core

/-- The hardware cluster of a block, numbered over the package. -/
def Block.cluster (b : Block) : Nat := b.die * 48 + b.core / 4

def State.store (s : State) (k : Nat) : TileStore := Sparse.get TileStore.empty s.stores k
def State.setStore (s : State) (k : Nat) (t : TileStore) : State :=
  { s with stores := Sparse.set TileStore.empty s.stores k t }

def TileStore.op (t : TileStore) (p : Nat) : OpSlot := Sparse.get OpSlot.zero t.ops p
def TileStore.setOp (t : TileStore) (p : Nat) (x : OpSlot) : TileStore := { t with ops := Sparse.set OpSlot.zero t.ops p x }
def TileStore.c (t : TileStore) (p : Nat) : CSlot := Sparse.get CSlot.zero t.cs p
def TileStore.setC (t : TileStore) (p : Nat) (x : CSlot) : TileStore := { t with cs := Sparse.set CSlot.zero t.cs p x }

/-- The free slots of aligned group q. -/
def TileStore.freeIn (t : TileStore) (q : Nat) : List Nat :=
  ((List.range 4).map (4 * q + ·)).filter fun p => !t.opUsed.contains p

/-- The slot a lone claim takes (R306): the group with the fewest free slots, then the lowest slot. -/
def TileStore.pickOp (t : TileStore) : Option Nat :=
  ((List.range 128).foldl (fun (best : Option (List Nat)) q =>
    match t.freeIn q, best with
    | [], b => b
    | f, none => some f
    | f, some b => if f.length < b.length then some f else some b) none).bind (·.head?)

/-- The first of k adjacent free slots within one aligned group: the lowest such place (DESIGN CHOICE, log 106). -/
def TileStore.pickWin (t : TileStore) (k : Nat) : Option Nat :=
  (((List.range 128).flatMap fun q => (List.range (5 - k)).map fun a => 4 * q + a).find? fun p =>
    (List.range k).all fun j => !t.opUsed.contains (p + j))

/-- The physical C slot a claim takes: the lowest free (DESIGN CHOICE, log 106). -/
def TileStore.pickC (t : TileStore) : Option Nat := lowestFree t.cUsed 256

/-- The lowest local index with k free ones in a row, from `lo` below `hi` (R238). -/
def Block.pickLocal (b : Block) (lo hi k : Nat) : Option Nat :=
  ((List.range (hi + 1 - lo - k)).map (lo + ·)).find? fun a =>
    (List.range k).all fun j => (Sparse.find? b.slots (a + j)).isNone

/-- Bind k local indices from `a` to physical slots from `p`. -/
def Block.bindSlots (b : Block) (a p k : Nat) : Block :=
  { b with slots := (List.range k).foldl (fun m j => Sparse.put m (a + j) ⟨p + j, a, if j = 0 then k else 0, none⟩) b.slots }

/-- Claim k operand slots of a block (a lone slot when k is 1): the local index and the new state. -/
def State.claimOp (s : State) (b : Block) (k : Nat) : Option (Nat × State × Block) :=
  let t := s.store b.cluster
  match b.pickLocal 0 512 k, if k = 1 then t.pickOp else t.pickWin k with
  | some a, some p =>
    let ps := (List.range k).map (p + ·)
    let t1 := ps.foldl (fun t p => t.setOp p OpSlot.zero) { t with opUsed := ps.foldl (fun u p => insertLine p u) t.opUsed }
    some (a, s.setStore b.cluster t1, b.bindSlots a p k)
  | _, _ => none

def State.claimC (s : State) (b : Block) : Option (Nat × State × Block) :=
  let t := s.store b.cluster
  match b.pickLocal 512 768 1, t.pickC with
  | some a, some p =>
    some (a, s.setStore b.cluster ({ t with cUsed := insertLine p t.cUsed }.setC p CSlot.zero), b.bindSlots a p 1)
  | _, _ => none

/-! ## Slot indices (R236) -/

inductive SlotWant where
  | op | opWin | win | c | any
deriving DecidableEq, Repr

/-- A resolved slot index: the owning block's id, the local index, its entry, and whether it was named REMOTE. -/
structure SlotRef where
  own : Nat
  loc : Nat
  ent : SlotEnt
  remote : Bool
  rank : Nat
deriving DecidableEq, Repr

def wantOk (w : SlotWant) (loc : Nat) (e : SlotEnt) : Bool :=
  match w with
  | .op => loc < 512 && e.count == 1
  | .opWin => loc < 512
  | .win => loc < 512 && 2 ≤ e.count
  | .c => 512 ≤ loc
  | .any => true

/-- Resolve a slot index, none where it traps with SLOT_INVALID. -/
def State.slotRef (s : State) (b : Block) (v : Nat) (want : SlotWant) (remoteOk : Bool) : Option SlotRef :=
  let rem := bit v 14
  let rank := bits v 13 10
  let loc := bits v 9 0
  if 2 ^ 15 ≤ v || 768 ≤ loc || (!rem && rank != 0) || (rem && !remoteOk) then none
  else
    let own := if rem && rank != b.rank then s.rankBlock b rank else some b
    match own with
    | none => none
    | some q =>
      match Sparse.find? q.slots loc with
      | none => none
      | some e => if e.head == loc && wantOk want loc e then some ⟨q.id, loc, e, rem, rank⟩ else none

/-- The physical slots of an entry. -/
def SlotEnt.physList (e : SlotEnt) : List Nat := (List.range e.count).map (e.phys + ·)

def badSlot : Bad := ⟨400, .slotInvalid, 0, 0⟩
def badShape : Bad := ⟨300, .shapeInvalid, 0, 0⟩
def badAlign (a : Nat) : Bad := ⟨100, .align, 0, a⟩

/-! ## Shapes (R248) -/

/-- Low bit and width of a shape field. -/
def shapeField : Nat → Nat × Nat
  | 0 => (0, 32) | 1 => (32, 8) | 2 => (40, 8) | 3 => (64, 32) | 4 => (96, 32) | 5 => (128, 8) | 6 => (136, 8)
  | 7 => (144, 4) | 8 => (148, 4) | 9 => (152, 4) | 10 => (156, 4) | 11 => (160, 8) | 12 => (192, 64)
  | _ => (500, 12)

def shGet (h : BitVec 512) (k : Nat) : Nat := let f := shapeField k; h.toNat / 2 ^ f.1 % 2 ^ f.2

/-- Replace a field. -/
def shSet (h : BitVec 512) (k v : Nat) : BitVec 512 :=
  let f := shapeField k
  BitVec.ofNat 512 (h.toNat - shGet h k * 2 ^ f.1 + v % 2 ^ f.2 * 2 ^ f.1)

/-- A reserved bit is set. -/
def shReserved (h : BitVec 512) : Bool :=
  bits h.toNat 499 256 != 0 || bits h.toNat 191 168 != 0 || bits h.toNat 63 48 != 0

/-- The H register of the designated member. -/
def Block.hreg (b : Block) (w : Work) (hr : Fin 16) : BitVec 512 := (b.group (w.desig / 32)).h.getD hr.val 0

/-- An HLD or HSET of the register has not completed in some member group. -/
def Block.hBusy (b : Block) (gs : List Nat) (hr : Fin 16) : Bool := gs.any fun g => (b.group g).hPend.contains hr.val

/-! ## Claims and releases -/

/-- TCLAIM (R238): a slot index, or all ones; it never waits. -/
def execTclaim (h : Head) (kind : ClaimKind) (d count : Opd) (s : State) : Out :=
  s.onceIssue (.tclaim h kind d count) h false [⟨count, .int64⟩] d 1 fun b c w =>
    let k := b.num w count
    if kind == .win && !(2 ≤ k && k ≤ 4) then .next (s.trap b c h.scope .slotInvalid [w.desig])
    else if s.logFull b w.groups then .next (s.holdIssue c)
    else
      let r := match kind with
        | .op => s.claimOp b 1
        | .win => s.claimOp b k
        | .c => s.claimC b
      let (v, s1, b1) := match r with
        | some (a, s1, b1) => (BitVec.ofNat 64 a, s1, b1)
        | none => (BitVec.allOnes 64, s, b)
      .next (s1.issueFixed b1 c h w d 7 8 [(w.desig, LaneRes.ofReg ⟨v, .n64⟩)])

/-- A tile or matrix command is issued: counted on MM in each member group, recorded, and the cohort goes on. -/
def State.tileIssue (s : State) (b : Block) (c : Ctx) (h : Head) (w : Work) (kind : TileKind) (ptr : BitVec 128) (off : Nat)
    (r : SlotRef) : State :=
  let s := s.keepImports b [ptr]
  let id := s.nextId
  let t : TileOp :=
    { id := id, blk := b.id, grp := w.desig / 32, stamp := (s.die b.die).quiesce, pc := c.pc, kind := kind, ptr := ptr,
      off := off, slot := r.loc, phys := r.ent.physList, isC := decide (512 ≤ r.loc), flagLane := w.desig, op := id,
      groups := w.groups, waits := none, refused := [] }
  { s.pass (b.addOps w.groups id .mm) c h with nextId := id + 1, tileOps := s.tileOps ++ [t] }

/-- What holds a tile command at issue (R312, R224, R338, R342, R352). -/
def State.tileHeld (s : State) (b : Block) (w : Work) (stream : Option Nat) : Bool :=
  b.ctrFull w.groups .mm || s.actionHeld b (w.groups.flatMap b.live) false || s.logHeld b w.groups ||
    match stream with
    | some k => s.engineHeld b (w.groups.flatMap b.live) k
    | none => false

/-- A slot of a block is released: the pending tile-store errors that name it, the block's own and those of blocks of its cluster that name
it by a REMOTE index, say so (R350). -/
def State.slotGone (s : State) (b : Block) (loc : Nat) : State :=
  let names (q : Block) (e : TsErr) : Bool := e.slot == loc &&
    if e.remote then q.die == b.die && q.bcluster == b.bcluster && e.rank == b.rank else q.id == b.id
  { s with blocks := s.blocks.map fun q => { q with tsErr := q.tsErr.map fun e => if names q e then { e with released := true } else e } }

/-- TREL (R239): the local indices are free at once; the physical slots return with SLOT_RETURN. -/
def execTrel (h : Head) (slot : Opd) (s : State) : Out :=
  s.onceIssue (.trel h slot) h false [⟨slot, .int64⟩] .zero 0 fun b c w =>
    match s.slotRef b (b.num w slot) .any false with
    | none => .next (s.trap b c h.scope .slotInvalid [w.desig])
    | some r =>
      if s.tileHeld b w none then .next (s.holdIssue c)
      else
        let b1 := { b with slots := Sparse.clear b.slots r.loc (r.loc + r.ent.count) }
        let gone (k : Copy) : Bool := k.blk == b.id && k.st == .held && r.loc < 512 && k.dslots.any r.ent.physList.contains
        .next { (s.tileIssue b1 c h w .trel 0 0 r).slotGone b1 r.loc with copies := s.copies.filter (!gone ·) }

/-! ## Transfers -/

/-- The pointer checks of a tile transfer over its ranges (R99), then ALIGN, SHAPE_INVALID and SLOT_INVALID (R234). -/
def State.tileChecks (s : State) (b : Block) (l : Nat) (pv : BitVec 128) (only : List Nat) (fmtBad : Bool)
    (ranges : List (Nat × Nat)) (alignBad shapeBad : Bool) (off : Nat) (r : Option SlotRef) : Option Bad :=
  let p := ptrOf pv
  match only.findSome? fun k => ranges.findSome? fun (o, z) => s.ptrFail b l p o z fmtBad [k] with
  | some k => some (badPtr 1 k (p.base + off))
  | none =>
    if alignBad then some (badAlign (p.base + off))
    else if shapeBad then some badShape
    else if r.isNone then some badSlot else none

/-- Element width of a tile format in memory (R240). -/
def tileWidth : EFmt → Nat
  | .tag t => t.width / 8
  | _ => 1

/-- The pointer format of a tile format (R240). -/
def tilePtrFmt : EFmt → MFmt
  | .tag t => .tag t
  | _ => .pk

/-- Does TLD into this format fill a C slot? -/
def tileIsC : EFmt → Bool
  | .tag .fp32 | .tag .i32 => true
  | _ => false

/-- Rows of a resolved slot, or the most its kind could have. -/
def slotRows (isC : Bool) (r : Option SlotRef) : Nat :=
  if isC then 32 else match r with
    | some x => 32 * x.ent.count
    | none => 128

/-- A tile transfer at issue. -/
def State.transferIssue (s : State) (i : Instr) (h : Head) (absent : Bool) (hr : Fin 16) (ptr off slot : Opd)
    (kind : BitVec 512 → TileKind) (bad : Block → Work → BitVec 512 → Nat → Nat → BitVec 128 → Option Bad) (want : SlotWant) : Out :=
  s.onceIssue i h absent (ptrSpecs ptr ++ [⟨off, .int64⟩, ⟨slot, .int64⟩]) .zero 0 fun b c w =>
    if b.hBusy [w.desig / 32] hr then .next (s.holdIssue c)
    else
      let sh := b.hreg w hr
      let o := (b.read w.desig .zext off).bits.toNat
      let v := b.num w slot
      let pv := b.readPtr w.desig ptr
      s.checked b c h [(w.desig, bad b w sh o v pv)]
        (match s.slotRef b v want false with
         | none => .next (s.trap b c h.scope .slotInvalid [w.desig])
         | some r =>
           if s.tileHeld b w (some (ptrOf pv).stream) then .next (s.holdIssue c)
           else .next (s.tileIssue b c h w (kind sh) pv o r))

/-- The ranges of a transfer (R240). -/
def rowRange (sh : BitVec 512) (o len : Nat) : Nat × Nat := (o, (shGet sh 1 - 1) * shGet sh 0 + len)

/-- TLD (R240). -/
def execTld (h : Head) (f : EFmt) (hr : Fin 16) (ptr off slot : Opd) (s : State) : Out :=
  let isC := tileIsC f
  let want : SlotWant := if isC then .c else .opWin
  s.transferIssue (.tld h f hr ptr off slot) h (f == .b4 && !s.hasUnit 2) hr ptr off slot (fun sh => .tld f sh)
    (fun b w sh o v pv =>
      let p := ptrOf pv
      let r := s.slotRef b v want false
      let rows := shGet sh 1
      let rb := shGet sh 2
      let ew := tileWidth f
      let len := if isC then 64 else rb
      let rbOk := isC || match f with
        | .b4 => 16 ≤ rb && rb ≤ 96 && rb % 16 == 0
        | _ => ew ≤ rb && rb ≤ 96 && rb % ew == 0
      s.tileChecks b w.desig pv [1, 2, 4, 5, 6] (fmtOf p.vfmt != some (tilePtrFmt f) || p.sfmt != p.vfmt)
        (rowRange sh o len :: (if f == .b4 then [(o + shGet sh 3, (rows - 1) * shGet sh 4 + rb / 16)] else []))
        (o % ew != 0 || shGet sh 0 % ew != 0)
        (shReserved sh || rows == 0 || slotRows isC r < rows || !rbOk) o r) want

/-- TST (R241). -/
def execTst (h : Head) (hr : Fin 16) (ptr off slot : Opd) (s : State) : Out :=
  s.transferIssue (.tst h hr ptr off slot) h false hr ptr off slot (fun sh => .tst sh)
    (fun b w sh o v pv =>
      let isC := 512 ≤ bits v 9 0
      let r := s.slotRef b v .any false
      let rows := shGet sh 1
      let rb := shGet sh 2
      s.tileChecks b w.desig pv [1, 2, 3, 5, 6] false [rowRange sh o (if isC then 128 else rb)]
        (isC && (o % 8 != 0 || shGet sh 0 % 8 != 0))
        (shReserved sh || rows == 0 || slotRows isC r < rows || (!isC && (rb == 0 || 96 < rb))) o r) .any

/-- TDRAIN (R247). -/
def execTdrain (h : Head) (f : EFmt) (hr : Fin 16) (ptr off slot : Opd) (s : State) : Out :=
  s.transferIssue (.tdrain h f hr ptr off slot) h false hr ptr off slot (fun sh => .tdrain f sh)
    (fun b w sh o v pv =>
      let p := ptrOf pv
      let ew := tileWidth f
      s.tileChecks b w.desig pv [1, 2, 3, 4, 5, 6] (fmtOf p.vfmt != some (tilePtrFmt f) || p.sfmt != p.vfmt)
        [rowRange sh o (16 * ew)] (o % ew != 0 || shGet sh 0 % ew != 0)
        (shReserved sh || shGet sh 1 == 0 || 32 < shGet sh 1) o (s.slotRef b v .c false)) .c

/-- TZERO (R242). -/
def execTzero (h : Head) (slot : Opd) (s : State) : Out :=
  s.onceIssue (.tzero h slot) h false [⟨slot, .int64⟩] .zero 0 fun b c w =>
    match s.slotRef b (b.num w slot) .any false with
    | none => .next (s.trap b c h.scope .slotInvalid [w.desig])
    | some r => if s.tileHeld b w none then .next (s.holdIssue c) else .next (s.tileIssue b c h w .tzero 0 0 r)

/-- A tile operation or pass of the group on a C slot that has not completed (R243). -/
def State.slotBusy (s : State) (b : Block) (g : Nat) (isC : Bool) (ps : List Nat) : Bool :=
  (s.tileOps.any fun t => t.blk == b.id && t.groups.contains g && t.isC == isC && t.phys.any ps.contains) ||
  ((s.quarters ++ s.passes.flatMap (·.quarters)).any fun q => q.blk == b.id && q.grp == g &&
    (if isC then ps.contains q.cPhys else q.aPhys.any ps.contains || ps.contains q.bPhys))

/-- The marks word of a C slot (R243). -/
def CSlot.flagWord (c : CSlot) : Word := mkWord [(c.rowm.toNat, 0), (c.colm.toNat, 32), (if c.satm then 1 else 0, 48)]

/-- TFLAG (R243): waits for its group's earlier operations on the slot. -/
def execTflag (h : Head) (d slot : Opd) (s : State) : Out :=
  s.onceIssue (.tflag h d slot) h false [⟨slot, .int64⟩] d 1 fun b c w =>
    match s.slotRef b (b.num w slot) .c false with
    | none => .next (s.trap b c h.scope .slotInvalid [w.desig])
    | some r =>
      if s.logFull b w.groups || w.groups.any fun g => s.slotBusy b g true r.ent.physList then .next (s.holdIssue c)
      else .next (s.issueFixed b c h w d 7 8
        [(w.desig, LaneRes.ofReg ⟨((s.store b.cluster).c r.ent.phys).flagWord, .n64⟩)])

/-- The window configuration of a shape (R244). -/
def winCfgOf (sh : BitVec 512) : WinCfg :=
  ⟨shGet sh 5, shGet sh 6, shGet sh 7, shGet sh 8, shGet sh 9, shGet sh 10, shGet sh 11⟩

def WinCfg.ok (w : WinCfg) : Bool :=
  let r (x lo hi : Nat) : Bool := lo ≤ x && x ≤ hi
  r w.ow 1 32 && r w.iw 1 128 && r w.sx 1 4 && r w.sy 1 4 && r w.dx 1 4 && r w.dy 1 4

/-- TWIN (R244): later passes read the window through the configuration. -/
def execTwin (h : Head) (hr : Fin 16) (slot : Opd) (s : State) : Out :=
  s.onceIssue (.twin h hr slot) h false [⟨slot, .int64⟩] .zero 0 fun b c w =>
    if b.hBusy [w.desig / 32] hr then .next (s.holdIssue c)
    else
      let sh := b.hreg w hr
      let cfg := winCfgOf sh
      if !cfg.ok || shReserved sh then .next (s.trap b c h.scope .shapeInvalid [w.desig])
      else
        match s.slotRef b (b.num w slot) .win false with
        | none => .next (s.trap b c h.scope .slotInvalid [w.desig])
        | some r =>
          if 32 * r.ent.count ≤ cfg.baserow then .next (s.trap b c h.scope .shapeInvalid [w.desig])
          else if s.tileHeld b w none then .next (s.holdIssue c)
          else
            let b1 := { b with slots := Sparse.put b.slots r.loc { r.ent with cfg := some cfg } }
            .next (s.tileIssue b1 c h w (.twin sh) 0 0 r)

/-! ## Matrix passes (R245, R246) -/

/-- The operands of one entry, none where a slot traps. -/
def State.mmOperands (s : State) (b : Block) (av bv cv ty tx : Nat) : Option (SlotRef × SlotRef × SlotRef) :=
  match s.slotRef b av .opWin true, s.slotRef b bv .op true, s.slotRef b cv .c false with
  | some a, some q, some c => if (ty != 0 || tx != 0) && a.ent.cfg.isNone then none else some (a, q, c)
  | _, _, _ => none

/-- One quarter entry of the reservation table (R314). -/
def quarterOf (s : State) (b : Block) (id bound grp op : Nat) (f : EFmt) (r : SlotRef × SlotRef × SlotRef) (ty tx : Nat)
    (bh : Bool) (q : Nat) : Quarter :=
  let (a, bb, c) := r
  { id := id, bound := bound, cluster := b.cluster, blk := b.id, grp := grp, core := b.core,
    prio := bits (b.group grp).ctl.toNat 6 4, entered := s.cycle, fmt := f, aPhys := a.ent.physList, aCfg := a.ent.cfg,
    aOwn := a.own, aLocal := a.loc, aRemote := a.remote, bPhys := bb.ent.phys, bOwn := bb.own, bLocal := bb.loc,
    bRemote := bb.remote, cPhys := c.ent.phys, cLocal := c.loc, ty := ty, tx := tx, bh := bh, q := q, op := op }

/-- Enter quarters of groups into the table, or wait for room (R314). `es`: group, its operands, its quarters; entries of
one group are bound together where `bound`. -/
def State.enterQuarters (s : State) (b : Block) (c : Ctx) (h : Head) (f : EFmt) (ty tx : Nat) (bh bound : Bool)
    (es : List (Nat × (SlotRef × SlotRef × SlotRef) × Nat)) (gs : List Nat) : Out :=
  if 64 < (s.quarters.filter (·.cluster == b.cluster)).length + es.length || b.ctrFull gs .mm || s.logHeld b gs ||
     s.actionHeld b c.lanes false then
    .next (s.holdIssue c)
  else
    let op0 := s.nextId
    let q0 := op0 + gs.length
    let opOf (g : Nat) : Nat := op0 + gs.findIdx (· == g)
    let qs := es.zipIdx.map fun ((g, r, q), k) =>
      quarterOf s b (q0 + k) (if bound then opOf g else q0 + k) g (opOf g) f r ty tx bh q
    let b1 := gs.foldl (fun b g => b.modGroup g (·.addOp (opOf g) .mm)) b
    .next { s.pass b1 c h with nextId := q0 + es.length, quarters := s.quarters ++ qs }

/-- MMQ (R245): at lane scope the quarters of every home group that has active lanes in them (R54), each group's for itself; at group
scope the group's quarters together. -/
def execMmq (h : Head) (f : EFmt) (ty tx : BitVec 2) (bh : Bool) (x y z : Opd) (s : State) : Out :=
  s.issue (.mmq h f ty tx bh x y z) h fun b c =>
    let w := b.work c h
    if !w.acts then .next (s.pass b c h)
    else if f == .b4 && !s.hasUnit 2 then .next (s.trap b c h.scope .unitAbsent w.src)
    else
      s.gated b c (.mmq h f ty tx bh x y z) h w.src [] [⟨x, .int64⟩, ⟨y, .int64⟩, ⟨z, .int64⟩] [] []
        (let gs := if h.scope == .lane then homesOf w.src else [w.desig / 32]
         let quarter (g q : Nat) : List Nat := (List.range 8).map fun k => 32 * g + 8 * q + k
         -- each quarter's source lane: its lowest active lane, or the designated lane of the group
         let srcs : List (Nat × Nat × Nat) := gs.flatMap fun g => (List.range 4).filterMap fun q =>
           if h.scope == .lane then ((quarter g q).find? w.src.contains).map fun l => (g, q, l)
           else if (quarter g q).any fun l => !(b.lane l).exited then some (g, q, w.desig) else none
         let val (l : Nat) (o : Opd) : Nat := (b.read l .plain o).bits.toNat
         let ops (l : Nat) := s.mmOperands b (val l x) (val l y) (val l z) ty.toNat tx.toNat
         s.checked b c h (srcs.map fun (_, _, l) => (l, if (ops l).isNone then some badSlot else none))
          (s.enterQuarters b c h f ty.toNat tx.toNat bh (h.scope != .lane)
            (srcs.filterMap fun (g, q, l) => (ops l).map fun r => (g, r, q)) gs))

/-- MMS (R246): B from the designated lane, A and C from each member's lowest live lane. -/
def execMms (h : Head) (f : EFmt) (ty tx : BitVec 2) (bh : Bool) (x y z : Opd) (s : State) : Out :=
  s.issue (.mms h f ty tx bh x y z) h fun b c =>
    let w := b.work c h
    if !w.acts then .next (s.pass b c h)
    else if f == .b4 && !s.hasUnit 2 then .next (s.trap b c h.scope .unitAbsent [w.desig])
    else
      let gs := c.members.filter fun g => !(b.live g).isEmpty
      let low (g : Nat) : Nat := (b.live g).headD (32 * g)
      s.gatedBy b c (.mms h f ty tx bh x y z) h
        (Gate.both 1 (s.gate b (gs.map low) [] [⟨x, .int64⟩] [] [])
          (Gate.both 1 (s.gate b [w.desig] [] (⟨y, .int64⟩ :: needs h .zero) [] []) (s.gate b (gs.map low) [] [⟨z, .int64⟩] [] [])))
        [⟨x, .int64⟩, ⟨y, .int64⟩, ⟨z, .int64⟩]
          (let val (l : Nat) (o : Opd) : Nat := (b.read l .plain o).bits.toNat
           let ops (g : Nat) := s.mmOperands b (val (low g) x) (val w.desig y) (val (low g) z) ty.toNat tx.toNat
           s.checked b c h (gs.map fun g => (low g, if (ops g).isNone then some badSlot else none))
            (s.enterQuarters b c h f ty.toNat tx.toNat bh true
              (gs.flatMap fun g => (List.range 4).filterMap fun q =>
                if (List.range 8).any fun k => !(b.lane (32 * g + 8 * q + k)).exited then (ops g).map fun r => (g, r, q) else none)
              gs))

/-! ## Shape registers -/

/-- HSET (R252): a field of the H register of every member group, after latency 4. -/
def execHset (h : Head) (hr : Fin 16) (fld value : Opd) (s : State) : Out :=
  s.onceIssue (.hset h hr fld value) h false [⟨fld, .int64⟩, ⟨value, .raw⟩] .zero 0 fun b c w =>
    let k := b.num w fld
    if 12 < k then .next (s.trap b c h.scope .shapeInvalid [w.desig])
    else if b.hBusy w.groups hr then .next (s.holdIssue c)
    else
      let id := s.nextId
      let b1 := w.groups.foldl (fun b g => b.modGroup g fun gr => { gr with hPend := gr.hPend ++ [hr.val] }) b
      .next { s.pass b1 c h with
        nextId := id + 1,
        fixed := s.fixed ++ [⟨id, b.id, s.cycle + 4, w.groups.map fun g =>
          .hreg g hr.val (shSet ((b.group g).h.getD hr.val 0) k (b.num w value))⟩] }

/-- An instruction performed once that delivers one value under a pending tag. -/
def State.onceLong (s : State) (b : Block) (c : Ctx) (h : Head) (w : Work) (d : Opd) (tag : Nat) (body : LongBody)
    (v : Option Word) : Out :=
  if (b.tagLanes h w).any fun l => s.tagBusy b l tag then .next (s.holdIssue c)
  else
    match v with
    | some x => .next (s.issueLong b c h w d 1 tag .wrs true (w.regWrites b d [(w.desig, LaneRes.ofReg ⟨x, .n64⟩)]))
    | none => .next (s.issueLong b c h w d 1 tag body true [])

/-- HGET (R252). -/
def execHget (h : Head) (hr : Fin 16) (tag : BitVec 3) (d fld : Opd) (s : State) : Out :=
  s.onceIssue (.hget h hr tag d fld) h false [⟨fld, .int64⟩] d 1 fun b c w =>
    let k := b.num w fld
    if 13 < k then .next (s.trap b c h.scope .shapeInvalid [w.desig])
    else if b.hBusy [w.desig / 32] hr then .next (s.holdIssue c)
    else if shReserved (b.hreg w hr) then .next (s.trap b c h.scope .shapeInvalid [w.desig])
    else s.onceLong b c h w d tag.toNat .wrs (some (BitVec.ofNat 64 (shGet (b.hreg w hr) k)))

end Sys2Proof.Machine
end

