-- ==== Sys2Proof/Machine/Engine.lean ====
section
/-! DEFINITION. Class 111: the copy ring, binning, send lists, LAUNCH and RELEASE as instructions (R253 to R267, R371,
R372). The engines' own steps stand in CopyEvents, BinEvents, SendEvents and LaunchEvents. -/

namespace Sys2Proof.Machine

/-! ## Commands carried out at issue -/

/-- How one lane's command ends at issue: done with a value, or waiting for room. -/
inductive EngStep where
  | done (s : State) (v : Nat)
  | wait

/-- Carry out the commands of some lanes in order (R232), as far as they go: true where all are done. -/
def engRun (f : State → Nat → EngStep) : State → List Nat → List (Nat × Nat) → State × List (Nat × Nat) × Bool
  | s, [], done => (s, done, true)
  | s, l :: ls, done =>
    match f s l with
    | .done s v => engRun f s ls (done ++ [(l, v)])
    | .wait => (s, done, false)

def State.setPub (s : State) (p : Pub) : State :=
  { s with pubs := s.pubs.filter (fun q => q.blk != p.blk || q.coh != p.coh) ++ [p] }

def State.clearPub (s : State) (c : Ctx) : State :=
  { s with pubs := s.pubs.filter fun q => q.blk != c.blk || q.coh != c.coh }

/-- Wait at the instruction for a fault record's service. -/
def State.waitFault (s : State) (c : Ctx) (va kind : Nat) : State :=
  match s.block? c.blk with
  | none => s
  | some b =>
    let r := s.recordFault b.die va kind
    { r.1.modBlock c.blk fun b =>
        { b with cohorts := updWhere (·.id == c.coh) (fun k => { k with stage := .fetch r.2 (s.die b.die).quiesce }) b.cohorts } with cur := none }

/-- The lanes whose commands an instruction of COPY to RELEASE performs: each active lane, or the designated one (R232). -/
def Block.engWork (b : Block) (c : Ctx) (h : Head) : Work :=
  if c.wide then (b.work c h).once b else b.work c h

/-- The lanes whose earlier accesses a command follows (R338). -/
def Work.issuers (b : Block) (h : Head) (w : Work) (l : Nat) : List Nat :=
  if h.scope == .lane then [l] else w.groups.flatMap b.live

/-- An engine command carried out at issue: the checks in each performing lane, the waits, the commands in lane order; what waits
leaves the cohort at the instruction with its progress kept. -/
def State.engine (s : State) (i : Instr) (h : Head) (sps : List SrcSpec) (d : Opd) (n : Nat)
    (ctr : Block → Work → Option Ctr) (bad : Block → Nat → Option Bad) (held : Block → Work → Bool)
    (f : Block → Work → Option Nat → State → Nat → EngStep) (fin : State → Block → Ctx → Work → Option Nat → List (Nat × Nat) → State) : Out :=
  s.issue i h fun b c =>
    let w := b.engWork c h
    if !w.acts then .next (s.pass b c h)
    else
      let go (s : State) (p : Pub) : Out :=
        match engRun (f b w p.op) s (w.src.filter fun l => !p.done.any (·.1 == l)) p.done with
        | (s, done, true) =>
          match s.block? c.blk with
          | some b => .next (fin (s.clearPub c) b c w p.op done)
          | none => .next s
        | (s, done, false) => .next ((s.setPub { p with done := done }).holdIssue c)
      match s.pubs.find? fun p => p.blk == c.blk && p.coh == c.coh with
      | some p => go s p
      | none =>
        s.gated b c i h w.src (w.recv.map (·.1)) (sps ++ needs h d) (dstCodes d n) []
          (s.checked b c h (w.src.map fun l => (l, bad b l))
            (let k := ctr b w
             if ((k.map fun k => b.ctrFull w.groups k).getD false) || s.actionHeld b (w.groups.flatMap b.live) false ||
                s.logHeld b w.groups || held b w then .next (s.holdIssue c)
             else
               let op := k.map fun _ => s.nextId
               let s1 := match k with
                 | some k => { s.setBlock (b.addOps w.groups s.nextId k) with nextId := s.nextId + 1 }
                 | none => s
               go s1 ⟨c.blk, c.coh, op, []⟩))

/-- An engine command whose effect is complete at issue: its count returns and the cohort goes on. -/
def engPass (h : Head) (s : State) (_b : Block) (c : Ctx) (_w : Work) (op : Option Nat) (_done : List (Nat × Nat)) : State :=
  let s1 := match op with
    | some k => s.finishOp c.blk k
    | none => s
  match s1.block? c.blk with
  | some b => s1.pass b c h
  | none => s1

/-! ## The copy ring (R253 to R255) -/

def ctlHold (ctl : Word) : Bool := ctl.getLsbD 39
def ctlConv (ctl : Word) : Bool := ctl.getLsbD 28
def ctlSlot (ctl : Word) : Bool := ctl.getLsbD 29
def ctlStamp (ctl : Word) : Nat := 8 * bits ctl.toNat 62 48
def ctlStream (ctl : Word) : Nat := bits ctl.toNat 35 32
def ctlChan (ctl : Word) : Nat := bits ctl.toNat 31 30
def ctlDoff (ctl : Word) : Nat := bits ctl.toNat 19 0
def ctlPatch (ctl : Word) : Nat := bits ctl.toNat 47 40
def lenRows (len : Word) : Nat := bits len.toNat 31 24
def lenRow (len : Word) : Nat := bits len.toNat 23 0
def lenStride (len : Word) : Nat := bits len.toNat 63 32

/-- Source bytes of one row (R255). -/
def copyRow (p : Ptr) (ctl len : Word) : Nat :=
  if ctlConv ctl then
    lenRow len * storeWidth ((fmtOf p.sfmt).getD .any) / storeWidth ((fmtOf p.vfmt).getD .any)
  else lenRow len

/-- Bytes of the source range [0, (ROWS − 1)·SSTRIDE + L). -/
def copySpan (p : Ptr) (ctl len : Word) : Nat := lenRows len * lenStride len + copyRow p ctl len - lenStride len

/-- The stamp's bytes leave the allocation below the ring (R255). -/
def Block.stampBad (b : Block) (ctl : Word) : Bool := b.ringOff < ctlStamp ctl + 8

/-- The checks on an entry after its offset is applied: source range from pointer offset `o`, slot, then COPY_INVALID (R255). -/
def State.copyBad (s : State) (b : Block) (l : Nat) (src : BitVec 128) (o : Nat) (ctl len : Word) (slots : Map SlotEnt) :
    Option Bad :=
  let p := ptrOf src
  let c := ctl.toNat
  let n := lenRows len * lenRow len
  let unit := if p.xunit then 4096 else 1
  match s.ptrFail b l p o (copySpan p ctl len) false [1, 2] with
  | some k => some (badPtr 1 k (p.base + o))
  | none =>
    if o % unit != 0 then some (badPtr 1 5 (p.base + o))
    else
      match s.ptrFail b l p o (copySpan p ctl len) false [5, 6] with
      | some k => some (badPtr 1 k (p.base + o))
      | none =>
        let slot := s.slotRef { b with slots := slots } (ctlDoff ctl) .opWin false
        if ctlSlot ctl && slot.isNone then some badSlot
        else
          let room := if ctlSlot ctl then 3072 * ((slot.map fun r => r.ent.count).getD 0) else b.ringOff
          let first := if ctlSlot ctl then 0 else ctlDoff ctl
          let scope := bits c 38 36
          let vw := storeWidth ((fmtOf p.vfmt).getD .any)
          if !b.hasRing || bit c 63 || bits c 27 20 != 0 || scope == 0 || 5 < scope ||
             (ctlConv ctl && lenRow len % vw != 0) || (ctlPatch ctl != 0 && !ctlHold ctl) || room < first + n ||
             b.stampBad ctl ||
             (!ctlSlot ctl && 0 < n && ctlStamp ctl < first + n && first < ctlStamp ctl + 8) then
            some ⟨500, .copyInvalid, 0, 0⟩
          else none

/-- The pointer of an entry: BASE advanced and EXTENT reduced by the offset, in the pointer's unit (R255). -/
def copySrc (src : BitVec 128) (o : Nat) : BitVec 128 :=
  let p := ptrOf src
  ({ p with base := p.base + o, extent := p.extent - o / (if p.xunit then 4096 else 1) } : Ptr).pack

/-- The control word an instruction publishes: CONV set by COPYX, clear by COPY. -/
def copyCtl (conv : Bool) (w : Word) : Word :=
  if conv then w ||| BitVec.ofNat 64 (2 ^ 28) else w &&& ~~~ BitVec.ofNat 64 (2 ^ 28)

/-- Write the next entry of a ring and PROD (R253). -/
def Block.publish (b : Block) (src : BitVec 128) (ctl len : Word) : Block :=
  let e := b.ringOff + 32 * (b.prod % 16)
  let w (b : Block) (k : Nat) (v : Nat) := b.setScrWord (e + 8 * k) v
  (w (w (w (w b 0 (bits src.toNat 63 0)) 1 (bits src.toNat 127 64)) 2 ctl.toNat) 3 len.toNat).setScrWord b.prodOff
    ((b.prod + 1) % 2 ^ 64)

/-- Some entry, accepted copy or publication of an operation is still to write its stamp (R232). -/
def State.copyOpLive (s : State) (op : Nat) : Bool :=
  s.rings.any (·.op == some op) || s.copies.any (·.op == some op) || s.pubs.any (·.op == some op)

/-- Count the operation of a copy when nothing of it is left. -/
def State.settleCopyOp (s : State) (blk : Nat) : Option Nat → State
  | some op => if s.copyOpLive op then s else s.finishOp blk op
  | none => s

/-- Every earlier access of lanes is performed (a release in every stream, R255, R263, R266, R267, R328). -/
def State.performedBefore (s : State) (b : Block) (ls : List Nat) (ord : Nat) : Bool :=
  s.accs.all fun a => a.blk != b.id || a.deferred || ord ≤ a.id || a.las.all fun x => x.done || !ls.contains x.lane

/-- COPY and COPYX (R255): every lane's entry is published in lane order, waiting where the ring is full; other
publishers of the block wait meanwhile. `PROD` is written as a synchronising store, after the lanes' earlier accesses. -/
def State.copyIssue (s : State) (i : Instr) (h : Head) (conv : Bool) (d ptr off words : Opd) : Out :=
  let src (b : Block) (l : Nat) : BitVec 128 := b.readPtr l ptr
  let o (b : Block) (l : Nat) : Nat := (b.read l .zext off).bits.toNat
  let ctl (b : Block) (l : Nat) : Word := copyCtl conv (b.read l .plain words).bits
  let len (b : Block) (l : Nat) : Word := (b.read l .plain (nextReg words)).bits
  s.engine i h (ptrSpecs ptr ++ [⟨off, .int64⟩, ⟨words, .raw⟩, ⟨nextReg words, .raw⟩]) d 1
    (fun b w => if w.src.all fun l => ctlHold (ctl b l) then none else some .cp)
    (fun b l => s.copyBad b l (src b l) (o b l) (ctl b l) (len b l) b.slots)
    (fun b w => (s.pubs.any fun p => p.blk == b.id) || w.src.any fun l => !s.performedBefore b (w.issuers b h l) s.nextId)
    (fun b w op s l =>
      match s.block? b.id with
      | none => .wait
      | some b' =>
        if 16 ≤ b'.prod - b'.cons then .wait
        else
          let r : RingRec := { blk := b.id, seq := b'.prod + 1, grp := l / 32,
                               op := if ctlHold (ctl b l) then none else op, pc := (b.lane l).pc,
                               lanes := w.issuers b h l, ord := s.nextId, slots := b'.slots }
          let b1 := b'.publish (copySrc (src b l) (o b l)) (ctl b l) (len b l)
          let s := s.keepImports b [src b l]
          .done ({ s.setBlock b1 with rings := s.rings ++ [r], nextId := s.nextId + 1 } : State).armMonitors (b'.prod + 1))
    (fun s b c w op done =>
      (s.issueFixed b c h w d 7 8 (done.map fun (l, v) => (l, LaneRes.ofReg ⟨BitVec.ofNat 64 v, .n64⟩))).settleCopyOp c.blk op)

def execCopy (h : Head) (d ptr off words : Opd) (s : State) : Out := s.copyIssue (.copy h d ptr off words) h false d ptr off words
def execCopyx (h : Head) (d ptr off words : Opd) (s : State) : Out := s.copyIssue (.copyx h d ptr off words) h true d ptr off words

/-- An instruction that delivers, under a pending tag, a value read at completion for each performing lane; `held` says what holds it
at issue beyond its tag. -/
def State.engLong (s : State) (i : Instr) (h : Head) (absent : Bool) (sps : List SrcSpec) (d : Opd) (tag : Nat)
    (bad : Block → Nat → Option Bad) (held : Block → Work → Bool) (body : Block → Work → LongBody) : Out :=
  s.issue i h fun b c =>
    let w := b.engWork c h
    if !w.acts then .next (s.pass b c h)
    else if absent then .next (s.trap b c h.scope .unitAbsent w.src)
    else
      s.gated b c i h w.src (w.recv.map (·.1)) (sps ++ needs h d) (dstCodes d 1) []
        (s.checked b c h (w.src.map fun l => (l, bad b l))
          (if held b w || (b.tagLanes h w).any fun l => s.tagBusy b l tag then .next (s.holdIssue c)
           else .next (s.issueLong b c h w d 1 tag (body b w) true [])))

/-- COPYW (R258). A 32-bit literal of a class-111 instruction is sign-extended (DESIGN CHOICE, log 101), as in BIN and BINRD. -/
def execCopyw (h : Head) (tag : BitVec 3) (d seq : Opd) (s : State) : Out :=
  s.engLong (.copyw h tag d seq) h false [⟨seq, .int64⟩] d tag.toNat (fun _ _ => none)
    (fun b w => s.logHeld b w.groups)
    (fun b w => .copyw (w.src.map fun l => (l, (b.read l .plain seq).bits)))

/-! ## Binning (R260, R264) -/

/-- The checks on a bin set's block pointer (R260). -/
def State.binBad (s : State) (b : Block) (l : Nat) (pv : BitVec 128) : Option Bad :=
  let p := ptrOf pv
  if p.space != spGlobal || !p.sync || p.scope < 3 then some ⟨10, .ptrBad, 256, p.base⟩
  else (s.ptrFail b l p 0 64 false [1, 2, 3, 5, 6]).map fun k => badPtr 1 k p.base

/-- BIN (R260): the command is sent to the die's engine. A 32-bit literal key is sign-extended (DESIGN CHOICE, log 101). -/
def execBin (h : Head) (op : BinOp) (ptr key item : Opd) (s : State) : Out :=
  s.issue (.bin h op ptr key item) h fun b c =>
    let w := b.engWork c h
    if !w.acts then .next (s.pass b c h)
    else if !s.hasUnit 3 then .next (s.trap b c h.scope .unitAbsent w.src)
    else
      s.gated b c (.bin h op ptr key item) h w.src [] (ptrSpecs ptr ++ [⟨key, .int64⟩, ⟨item, .raw⟩] ++ needs h .zero) [] []
        (s.checked b c h (w.src.map fun l => (l, s.binBad b l (b.readPtr l ptr)))
          (if b.ctrFull w.groups .bn || s.actionHeld b (w.groups.flatMap b.live) false || s.logHeld b w.groups ||
              w.src.any (fun l => s.engineHeld b (w.issuers b h l) (ptrOf (b.readPtr l ptr)).stream) then .next (s.holdIssue c)
           else
             let id := s.nextId
             let cmds := w.src.zipIdx.map fun (l, k) =>
               ({ id := id + 1 + k, blk := b.id, grp := l / 32, stamp := (s.die b.die).quiesce, pc := c.pc, kind := op,
                  ptr := b.readPtr l ptr, key := (b.read l .plain key).bits, item := (b.read l .plain item).bits, op := id,
                  lanes := w.issuers b h l, waits := none, refused := [] } : BinCmd)
             .next { s.pass (b.addOps w.groups id .bn) c h with
                     nextId := id + 1 + w.src.length, bins := s.bins ++ cmds }))

/-- BINRD (R264). A 32-bit literal index is sign-extended (DESIGN CHOICE, log 101). -/
def execBinrd (h : Head) (sel : BinSel) (tag : BitVec 3) (d ptr idx : Opd) (s : State) : Out :=
  s.engLong (.binrd h sel tag d ptr idx) h (!s.hasUnit 3) (ptrSpecs ptr ++ [⟨idx, .int64⟩]) d tag.toNat
    (fun b l => s.binBad b l (b.readPtr l ptr))
    (fun b w => s.logHeld b w.groups || s.actionHeld b (w.groups.flatMap b.live) false ||
      w.src.any fun l => s.engineHeld b (w.issuers b h l) (ptrOf (b.readPtr l ptr)).stream)
    (fun b w => .binrd sel (w.src.map fun l => (l, b.readPtr l ptr, (b.read l .plain idx).bits)))

/-! ## Send lists (R265, R266) -/

/-- A control block's fields. -/
structure SendCtl where
  ebase : Nat
  caplog : Nat
  lcscope : Nat
  iod : Nat
  lprod : Nat
  lcons : Nat
  ldone : Nat
  lerrs : Nat
  ok : Bool
deriving DecidableEq, Repr

/-- A control block read from its 64 bytes, with the checks of R266. -/
def sendCtlOf (bs : List Byte) : SendCtl :=
  let at_ (o n : Nat) : Nat := ofBytes ((bs.drop o).take n)
  let ls := at_ 9 1
  { ebase := at_ 0 8, caplog := at_ 8 1, lcscope := ls % 8, iod := at_ 10 1 % 2, lprod := at_ 0x10 8, lcons := at_ 0x18 8,
    ldone := at_ 0x20 8, lerrs := at_ 0x28 8,
    ok := at_ 0 8 % 32 == 0 && 4 ≤ at_ 8 1 && at_ 8 1 ≤ 16 && 1 ≤ ls && ls ≤ 5 && at_ 10 1 ≤ 1 && at_ 11 5 == 0 &&
          at_ 0x30 16 == 0 }

/-- A length word's reserved bits, and a patch handle without hold (R265, R266). -/
def sendLenBad (len : Word) : Bool :=
  bits len.toNat 62 50 != 0 || bits len.toNat 35 32 != 0 || (bits len.toNat 43 36 != 0 && !bit len.toNat 48)

/-- What a lane's SENDL fails on; `ls`: the lanes whose earlier accesses it follows. The control block is read once those are performed
and its line is at home. -/
def State.sendBad (s : State) (b : Block) (ls : List Nat) (l : Nat) (cb src : BitVec 128) (len : Word) : Option Bad :=
  let p := ptrOf cb
  if p.space != spGlobal || !p.sync then some ⟨10, .ptrBad, 256, p.base⟩
  else
    match s.ptrFail b l p 0 64 false [1, 2, 3, 5, 6] with
    | some k => some (badPtr 1 k p.base)
    | none =>
      match s.ptrFail b l (ptrOf src) 0 (bits len.toNat 31 0) false [1, 2, 5, 6] with
      | some k => some (badPtr 2 k (ptrOf src).base)
      | none =>
        if sendLenBad len then some ⟨500, .copyInvalid, 0, 0⟩
        else if !s.performedBefore b ls s.nextId || !(s.virtAway b.die p.base 64).isEmpty then some ⟨500, .copyInvalid, notYet, p.base⟩
        else
          match s.readVirt b.die p.base 64 with
          | some bs => if (sendCtlOf bs).ok then none else some ⟨500, .copyInvalid, 0, 0⟩
          | none => none

/-- SENDL and LAUNCH at issue (R235, R266, R267): the checks in each performing lane; an append for each, in lane order, counted on ST
together and performed by the events of the memory system. A lane's accesses that await replay hold it (R342). -/
def State.appendIssue (s : State) (i : Instr) (h : Head) (sps : List SrcSpec) (bad : Block → Work → Nat → Option Bad)
    (kind : Block → Nat → AppendKind) : Out :=
  s.issue i h fun b c =>
    let w := b.engWork c h
    if !w.acts then .next (s.pass b c h)
    else
      s.gated b c i h w.src [] (sps ++ needs h .zero) [] []
        (s.checked b c h (w.src.map fun l => (l, bad b w l))
          (let faulted (a : Access) : Bool := a.blk == b.id && !a.deferred &&
             a.las.any fun x => x.faulted && w.src.any fun l => (w.issuers b h l).contains x.lane
           if b.ctrFull w.groups .st || s.actionHeld b (w.groups.flatMap b.live) false || s.logHeld b w.groups ||
              s.accs.any faulted then .next (s.holdIssue c)
           else
             let id := s.nextId
             let as := w.src.zipIdx.map fun (l, k) =>
               ({ id := id + 1 + k, blk := b.id, grp := l / 32, die := b.die, pc := c.pc, kind := kind b l, lane := l,
                  issuers := w.issuers b h l, stamp := (s.die b.die).quiesce, op := id, waits := none, refused := [] } : Append)
             .next { s.pass (b.addOps w.groups id .st) c h with
                     nextId := id + 1 + w.src.length, appends := s.appends ++ as }))

/-- SENDL (R266). -/
def execSendl (h : Head) (ptr src words : Opd) (s : State) : Out :=
  let len (b : Block) (l : Nat) : Word := (b.read l .plain (nextReg words)).bits
  s.appendIssue (.sendl h ptr src words) h (ptrSpecs ptr ++ ptrSpecs src ++ [⟨words, .raw⟩, ⟨nextReg words, .raw⟩])
    (fun b w l => s.sendBad b (w.issuers b h l) l (b.readPtr l ptr) (b.readPtr l src) (len b l))
    (fun b l => .send (b.readPtr l ptr) (b.readPtr l src) (b.read l .plain words).bits (len b l))

/-! ## LAUNCH (R267, R371, R372) -/

/-- What a lane's LAUNCH fails on: the 8 bytes of `QTAIL` in the queue's block, the 128 bytes of the header. -/
def State.launchBad (s : State) (b : Block) (l : Nat) (q hdr : BitVec 128) : Option Bad :=
  let one (f : Nat) (pv : BitVec 128) (o z : Nat) : Option Bad :=
    let p := ptrOf pv
    if p.space != spGlobal || !p.sync then some ⟨10 * f, .ptrBad, f * 256, p.base + o⟩
    else (s.ptrFail b l p o z false [1, 2, 3, 5, 6]).map fun k => badPtr f k (p.base + o)
  one 1 q 8 8 <|> one 2 hdr 0 128

/-- LAUNCH (R267): SRCA names the queue's block, SRCB the header. -/
def execLaunch (h : Head) (q hdr : Opd) (s : State) : Out :=
  s.appendIssue (.launch h q hdr) h (ptrSpecs q ++ ptrSpecs hdr)
    (fun b _ l => s.launchBad b l (b.readPtr l q) (b.readPtr l hdr))
    (fun b l => .launch (ptrOf (b.readPtr l q)).base (ptrOf (b.readPtr l hdr)).base)

/-! ## RELEASE (R262, R263) -/

/-- A stamp word (R257). -/
def stampWord (bad : Option Nat) (seq : Nat) : Nat :=
  match bad with
  | some k => 2 ^ 63 + k % 2 ^ 15 * 2 ^ 48 + seq % 2 ^ 48
  | none => seq % 2 ^ 48

/-- An entry is not performed (R256, R262): its stamp receives the error bit, or it is discarded and logged. -/
def State.refuseEntry (s : State) (b : Block) (ctl : Word) (seq : Nat) : State :=
  if !b.hasRing || b.stampBad ctl then s.logOwn b.die 0x05 (BitVec.ofNat 64 b.ringOff) (BitVec.ofNat 64 seq)
  else s.storeScr b.id (ctlStamp ctl) 8 (stampWord (some 0x7FFF) seq)

def Copy.handle (c : Copy) : Nat := if c.st == .held then ctlPatch c.ctl else 0

/-- Copies in a channel's queue (R308): at most 4. -/
def State.chanCopies (s : State) (d core ch : Nat) : List Copy :=
  s.copies.filter fun c => c.die == d && c.core == core && ctlChan c.ctl == ch && (c.st == .queued || c.st == .active)

/-- Released copies enter their channel's queue while it has room, in the order of their releases (R308). -/
def State.settleChannel (s : State) (d core ch : Nat) : State :=
  (List.range 4).foldl (fun s _ =>
    if 4 ≤ (s.chanCopies d core ch).length then s
    else
      let waiting := s.copies.filterMap fun c =>
        match c.st with
        | .released n => if c.die == d && c.core == core && ctlChan c.ctl == ch then some (n, c) else none
        | _ => none
      match waiting.foldl (fun (best : Option (Nat × Copy)) x => match best with
          | some y => if y.1 < x.1 then best else some x
          | none => some x) none with
      | some (_, c) =>
        { s with copies := s.copies.filter (·.id != c.id) ++ [{ c with st := .queued, stamp := (s.die d).quiesce }] }
      | none => s) s

/-- Release one held copy: it is checked again (R262), in the lane that issued it or, for an entry of the block's own stores, in lane 0
(R256); it awaits room in its channel, or is not performed. It stands in the order of its group's operations from now on (log 86). -/
def State.releaseCopy (s : State) (c : Copy) : State :=
  match s.block? c.blk with
  | none => s
  | some b =>
    match s.copyBad b (c.lanes.headD 0) c.src 0 c.ctl c.len b.slots with
    | some x =>
      if x.holds then
        { s.want (s.importAway b.view ((ptrOf c.src).base / 2 ^ 52)) with
          copies := updWhere (·.id == c.id) (fun c => { c with st := .letGo }) s.copies }
      else { s.refuseEntry b c.ctl c.seq with copies := s.copies.filter (·.id != c.id) }
    | none =>
      ({ s with copies := updWhere (·.id == c.id) (fun c => { c with st := .released s.nextId, ord := s.nextId }) s.copies,
                nextId := s.nextId + 1 } : State).settleChannel c.die c.core (ctlChan c.ctl)

def Block.isSaved (b : Block) : Bool := match b.st with
  | .saved .. => true
  | _ => false

/-- Every lane of every group has exited (R143). -/
def Block.hasExited (b : Block) : Bool := b.lanes.all (·.exited)

/-! ## Entries of send lists that are held before their acceptance (R262, R263, R433) -/

/-- A counted operation of a block is still uncounted (R311). -/
def State.uncounted (s : State) (blk op : Nat) : Bool :=
  ((s.block? blk).map fun b => b.groups.any fun g => g.ops.any (·.id == op)).getD false

/-- An entry not yet accepted is held: from the return of its SENDL's ST count until a RELEASE reaches it. -/
def State.issHeld (s : State) (i : SendIss) : Bool :=
  bit i.len.toNat 48 && !i.reach.contains none && !s.uncounted i.blk i.op

/-- A patch or release reaches the held entries of a logical device that are appended and not yet accepted. -/
def State.reachLists (s : State) (d hd : Nat) (v : Option Nat) : List SendList :=
  updWhere (fun t => t.die == d) (fun t => { t with
    issuers := updWhere (fun i => s.issHeld i && bits i.len.toNat 43 36 == hd) (fun i => { i with reach := i.reach ++ [v] })
      t.issuers }) s.sendLists

/-- A length word under a patch (R265). -/
def sendPatched (len : Word) (v : Nat) : Word :=
  BitVec.ofNat 64 (len.toNat / 2 ^ 32 * 2 ^ 32 + min (v * 2 ^ bits len.toNat 47 44) (2 ^ 32 - 1))

/-! ## Readiness of launches (R385, R388) -/

/-- Not held, and every launch it is ordered after has finished. -/
def State.launchReady (s : State) (l : Launch) : Bool :=
  !l.held && l.after.all fun k => !s.launches.any (·.id == k)

/-- Note the cycle in which launches become ready. -/
def State.noteReady (s : State) : State :=
  { s with launches := s.launches.map fun l =>
      if l.readyAt.isNone && s.launchReady l then { l with readyAt := some s.cycle } else l }

/-- Let go the held commands of a logical device that name a handle; those of saved blocks at restore. -/
def State.releaseHandle (s : State) (d hd : Nat) : State :=
  if hd = 0 then s
  else
    let away (k : Nat) : Bool := ((s.block? k).map fun b => b.isSaved || b.hasExited).getD true
    let s1 := (s.copies.filter fun c => c.die == d && c.handle == hd && !away c.blk).foldl (·.releaseCopy ·) s
    let s2 : State := { s1 with
      sends := updWhere (fun e => e.die == d && e.held && bits e.len.toNat 43 36 == hd) (fun e => { e with held := false, stamp := (s.die d).quiesce }) s1.sends,
      sendLists := s1.reachLists d hd none,
      launches := updWhere (fun l => l.die == d && l.held && bits l.lres.toNat 43 36 == hd) (fun l => { l with held := false })
        s1.launches,
      reach := s1.reach ++ ((s.blocks.filter fun b => b.die == d && b.isSaved).map fun b => (⟨b.id, hd, none⟩ : Reach)) }
    s2.noteReady

/-! ## Patches (R262, R376 to R379) -/

/-- Width of field k, and the boundaries of a launch's shape (R377). -/
def shapeW (shape : Word) (k : Nat) : Nat := bits shape.toNat (6 * k + 5) (6 * k)
def shapeGB (shape : Word) : Nat := bits shape.toNat 38 36
def shapeBB (shape : Word) : Nat := bits shape.toNat 41 39
def shapeCB (shape : Word) : Nat := bits shape.toNat 44 42

/-- The boundary below the index fields. -/
def shapeTop (shape : Word) : Nat := if shapeCB shape = 0 then shapeBB shape else shapeCB shape

/-- One more than the last field of nonzero width. -/
def shapeEnd (shape : Word) : Nat :=
  (List.range 6).foldl (fun n k => if shapeW shape k = 0 then n else k + 1) 0

/-- Bits of the fields from boundary lo to boundary hi. -/
def shapeBits (shape : Word) (lo hi : Nat) : Nat :=
  ((List.range 6).filter fun k => lo ≤ k && k < hi).foldl (fun n k => n + shapeW shape k) 0

/-- The widths of the index fields, lowest first. -/
def idxWidths (shape : Word) : List Nat :=
  ((List.range 6).filter fun k => shapeTop shape ≤ k && k < shapeEnd shape).map (shapeW shape)

/-- The extents of a launch under a patch (R379). -/
def Launch.patchExtents (l : Launch) (v : Nat) : List Nat :=
  let p := l.pctl.toNat
  let k := bits p 1 0
  if bit p 8 then l.extents.set k (min ((v + 2 ^ bits p 7 3 - 1) / 2 ^ bits p 7 3) (2 ^ ((idxWidths l.shape).getD k 0))) else l.extents

/-- Write a patched launch's fields into its header in memory (R374, R376); where its page does not translate the header keeps what it
holds (DESIGN CHOICE, log 83). -/
def State.postPatch (s : State) (l : Launch) (v : Nat) : State :=
  let k := bits l.pctl.toNat 1 0
  let s1 := s.post l.die (l.hdr + 0x5C) (toBytes 4 (min v (2 ^ 32 - 1))) false
  if bit l.pctl.toNat 8 then s1.post l.die (l.hdr + 0x30 + 4 * k) (toBytes 4 ((l.patchExtents v).getD k 0)) false else s1

/-- A patch reaches the commands a logical device holds under a handle (R262, R265, R379): a copy's `ROWS`, a send entry's
`LEN`, a launch's `PVAL` and extent, there and in its header. -/
def State.patchHandle (s : State) (d hd v : Nat) : State :=
  let away (k : Nat) : Bool := ((s.block? k).map fun b => b.isSaved || b.hasExited).getD true
  let rows (len : Word) : Word := BitVec.ofNat 64 (len.toNat / 2 ^ 32 * 2 ^ 32 + min v 255 * 2 ^ 24 + len.toNat % 2 ^ 24)
  let mine (l : Launch) : Bool := l.die == d && l.held && bits l.lres.toNat 43 36 == hd
  if hd = 0 then s
  else
    { (s.launches.filter mine).foldl (fun s l => s.postPatch l v) s with
      copies := updWhere (fun c => c.die == d && c.handle == hd && !away c.blk) (fun c => { c with len := rows c.len }) s.copies,
      sends := updWhere (fun e => e.die == d && e.held && bits e.len.toNat 43 36 == hd) (fun e => { e with len := sendPatched e.len v })
        s.sends,
      sendLists := s.reachLists d hd (some v),
      launches := updWhere mine (fun l => { l with pval := min v (2 ^ 32 - 1), extents := l.patchExtents v }) s.launches,
      reach := s.reach ++ ((s.blocks.filter fun b => b.die == d && b.isSaved).map fun b => (⟨b.id, hd, some v⟩ : Reach)) }

/-- RELEASE (R263). -/
def execRelease (h : Head) (handle : Opd) (s : State) : Out :=
  s.engine (.release h handle) h [⟨handle, .int64⟩] .zero 0 (fun _ _ => some .bn)
    (fun b l => if 256 ≤ (b.read l .plain handle).bits.toNat then some ⟨500, .copyInvalid, 0, 0⟩ else none)
    (fun b w => w.src.any fun l => !s.performedBefore b (w.issuers b h l) s.nextId)
    (fun b _ _ s l => .done ((s.releaseAt b.coreKey 3).releaseHandle b.die (b.read l .plain handle).bits.toNat) 0)
    (engPass h)

end Sys2Proof.Machine
end

