-- ==== Sys2Proof/Machine/Message.lean ====
section
/-! DEFINITION. Fabric messages (R424, R425): the routing header, accepting a message, sending one, and the choice of a
direct group or a chord (R423, R426). -/

namespace Sys2Proof

/-! ## The routing header (R424) -/

def Msg.f (m : Msg) (hi lo : Nat) : Nat := Machine.bits m.hdr.toNat hi lo
def Msg.dest (m : Msg) : Nat := m.f 127 124
def Msg.ddie (m : Msg) : Nat := m.f 123 122
def Msg.src (m : Msg) : Nat := m.f 121 118
def Msg.sdie (m : Msg) : Nat := m.f 117 116
def Msg.type (m : Msg) : Nat := m.f 115 108
def Msg.tenant (m : Msg) : Nat := m.f 107 92
def Msg.seq (m : Msg) : Nat := m.f 91 44
def Msg.epoch (m : Msg) : Nat := m.f 31 24
def Msg.expidx (m : Msg) : Nat := m.f 23 12
def Msg.egen (m : Msg) : Nat := m.f 11 0

/-! ## The word beside the header (its layout is the model's own, log 8)

Requests: the offset in [51:0], one less than the bytes concerned in [58:52], the facet code in [62:59] (15: none), push mode
in [63]. Payload and write-back: the offset in [51:0], poison in [63]. Replies: the answered sequence number in [47:0], its
epoch in [55:48], poison in [63]. -/

def Msg.at_ (m : Msg) : Nat := Machine.bits m.off.toNat 51 0
def Msg.bytes (m : Msg) : Nat := Machine.bits m.off.toNat 58 52 + 1
def Msg.facet (m : Msg) : Nat := Machine.bits m.off.toNat 62 59
def Msg.mark (m : Msg) : Bool := m.off.getLsbD 63
def Msg.answers (m : Msg) : Nat := Machine.bits m.off.toNat 47 0
def Msg.answersIn (m : Msg) : Nat := Machine.bits m.off.toNat 55 48

end Sys2Proof

namespace Sys2Proof.Machine

/-- Type codes of R424. -/
def tRead : Nat := 0x01
def tReadShared : Nat := 0x02
def tOwn : Nat := 0x03
def tWriteBack : Nat := 0x04
def tInval : Nat := 0x05
def tAck : Nat := 0x06
def tData : Nat := 0x07
def tError : Nat := 0x08
def tPush : Nat := 0x09
def tRevoke : Nat := 0x0A
def tPayload : Nat := 0x10
def tStamp : Nat := 0x11
def tSync : Nat := 0x12
def tTime : Nat := 0x20

def msgTypes : List Nat := [1, 2, 3, 4, 5, 6, 7, 8, 9, 10, 0x10, 0x11, 0x12, 0x20]

/-- The header of a message of one device: destination and source by pod position and die. -/
def mkHdr (dest ddie src sdie type tenant seq units epoch expidx egen : Nat) : BitVec 128 :=
  BitVec.ofNat 128 (egen % 2 ^ 12 + expidx % 2 ^ 12 * 2 ^ 12 + epoch % 256 * 2 ^ 24 + units % 2 ^ 12 * 2 ^ 32 +
    seq % 2 ^ 48 * 2 ^ 44 + tenant % 2 ^ 16 * 2 ^ 92 + type % 256 * 2 ^ 108 + sdie % 4 * 2 ^ 116 + src % 16 * 2 ^ 118 +
    ddie % 4 * 2 ^ 122 + dest % 16 * 2 ^ 124)

/-! ## Peers and routes -/

def Peer.none : Peer := ⟨false, false, 0, 0, 0, 0, [], 0⟩
def State.peer (s : State) (p : Nat) : Peer := s.peers.getD p Peer.none
def State.modPeer (s : State) (p : Nat) (f : Peer → Peer) : State := { s with peers := s.peers.modify p f }

/-- Port group k is in service (R423, R445): enabled in KVMAP, up or retraining. -/
def State.groupUp (s : State) (k : Nat) : Bool :=
  ((s.kgs[k]?).map fun g => g.gstate == 1 || g.gstate == 2).getD false && ((s.kvmap[k]?).map fun e => e.getLsbD 7).getD false

/-- Some group in service faces a peer. -/
def State.faces (s : State) (p : Nat) : Bool :=
  (List.range 16).any fun k => s.groupUp k && ((s.kvmap[k]?).map fun e => e.toNat % 16 == p).getD false

/-- Package time, as IOD and dies keep it, in ns. -/
def State.now (s : State) : Nat := (s.die 0).time.toNat

/-- Bytes formed and still awaiting the links towards a hop. -/
def State.queued (s : State) (hop : Nat) : Nat :=
  ((s.outbox.filter (·.1 == hop)).map fun e => 16 + e.2.body.length).foldl (· + ·) 0

/-- The relay a chord takes (R426): fewest bytes queued, then the lowest pod position; peers that returned it are passed over. -/
def State.relay (s : State) (dest : Nat) (tried : List Nat) : Option Nat :=
  ((List.range 16).filter fun p => p != dest && p != s.pos && s.faces p && !(s.peer p).lost && !tried.contains p).foldl
    (fun best p => match best with
      | none => some p
      | some q => if s.queued p < s.queued q then some p else some q) none

/-- The next hop of a message: its destination, or a relay; none where there is neither. -/
def State.hop (s : State) (dest : Nat) : Option Nat := if s.faces dest then some dest else s.relay dest []

/-- The epoch that follows. -/
def nextEpoch (e : BitVec 8) : BitVec 8 := e + 1

/-- A peer ready to be sent one more message: before the number reaches 2^47 a new epoch begins (R425). -/
def Peer.room (p : Peer) : Peer := if p.seq + 1 < 2 ^ 47 then p else { p with epoch := nextEpoch p.epoch, seq := 0 }

/-- Form and send a message (R424, R426); none where the peer is lost or no route is left. -/
def State.sendMsg (s : State) (d dest ddie type tenant expidx egen : Nat) (off : Word) (body : List Byte) :
    State × Option Msg :=
  let p := (s.peer dest).room
  match (if p.lost || !s.hasUnit 5 then none else s.hop dest) with
  | none => (s, none)
  | some hop =>
    let m : Msg := { hdr := mkHdr dest ddie s.pos d type tenant (p.seq + 1) ((body.length + 15) / 16) p.epoch.toNat expidx egen,
                     off := off, body := body }
    (({ s with outbox := s.outbox ++ [(hop, m)] } : State).modPeer dest fun p => { p.room with seq := p.room.seq + 1 }, some m)

/-- The request that the message just sent makes: it left by the hop at which it stands in the outbox. -/
def State.ask (s : State) (m : Msg) (serves : ReqFor) (keep : Bool) : State :=
  { s with requests := s.requests ++
      [⟨m.seq, m.dest, BitVec.ofNat 8 m.epoch, serves, m, (s.die m.sdie).time, ((s.outbox.getLast?).map (·.1)).getD m.dest, keep⟩] }

def reqWord (off n facet : Nat) (push : Bool) : Word :=
  mkWord [(off % 2 ^ 52, 0), ((n - 1) % 128, 52), (facet % 16, 59), (if push then 1 else 0, 63)]


/-- The code of a narrowing pair (R93) by facet code and storage format code; 15 for none. -/
def facetPair (facet sfmt : Nat) : Nat := if 4 < facet || 2 < sfmt then 15 else 5 * sfmt + facet

/-- Answer a message: DEST and DDIE from its source. -/
def State.answer (s : State) (m : Msg) (type : Nat) (body : List Byte) (poison : Bool) : State :=
  (s.sendMsg m.ddie m.src m.sdie type 0 0 0
    (mkWord [(m.seq, 0), (m.epoch, 48), (if poison then 1 else 0, 63)]) body).1

/-- A peer as it stands once a message of its next epoch has come (R425). -/
def Peer.at_ (p : Peer) (m : Msg) : Peer :=
  if m.epoch == (nextEpoch p.rxEpoch).toNat then { p with rxEpoch := nextEpoch p.rxEpoch, rxHigh := 0, rxSeen := [] } else p

/-- Does a message pass the checks of R424 and R425 at this device? -/
def State.msgOk (s : State) (m : Msg) (type : Nat) : Bool :=
  let p := (s.peer m.src).at_ m
  m.type == type && m.f 43 32 ≤ 256 && m.dest == s.pos && s.dieMask.getLsbD m.ddie && m.epoch == p.rxEpoch.toNat &&
    (!s.hasUnit 4 || (!p.rxSeen.contains m.seq && p.rxHigh ≤ m.seq + 4096))

/-- Accept a message's sequence number; those too far below the highest need no memory. -/
def State.noteSeq (s : State) (m : Msg) : State :=
  s.modPeer m.src fun p =>
    let p := p.at_ m
    let high := max p.rxHigh m.seq
    { p with heard := s.podTime.toNat, rxHigh := high, rxSeen := (m.seq :: p.rxSeen).filter fun q => high ≤ q + 4096 }

/-! ## Time (R427) -/

/-- The device of lowest pod position in service, where it is not this one: it is asked directly or by a chord. -/
def State.master (s : State) : Option Nat := (List.range s.pos).find? fun p => !(s.peer p).lost

/-- A measured exchange with a device of pod time t: `BOUND` is what the device makes of its delays, no less than what the counters are seen
to differ by. -/
def State.measure (s : State) (t : Nat) : State :=
  let (b, s) := s.freeVal
  let gap := max t s.podTime.toNat - min t s.podTime.toNat
  { s with podSkew := BitVec.ofNat 16 (min (2 ^ 16 - 1) (max (b.toNat % 2 ^ 16) gap)) }

/-- A time exchange message: asking (0) or answering (1) with the pod time (log 8). -/
def timeBody (kind : Nat) (t : Word) : List Byte := [BitVec.ofNat 8 kind] ++ List.replicate 7 0 ++ toBytes 8 t.toNat

/-- One ns of correction, at most once in 10 µs: 100 parts per million. -/
def slew (t : Word) (k : Nat) : Word := if k != 0 && t.toNat % 10000 < 1000 then t + 1 else t

/-- The largest difference between two dies' package time counters. -/
def State.timeSpread (s : State) : Nat :=
  let ts := s.dies.map (·.time.toNat)
  ts.foldl max 0 - ts.foldl min (ts.headD 0)

/-- The time exchange: the counters named are slewed forward, the dies' bound is what is measured now, no less than what their
counters differ by, and the grandmaster is asked. -/
def State.timeSync (s : State) (pod pkg : List Nat) : State :=
  let (b1, s) := s.freeVal
  let s1 : State := { s with
    podTime := if s.joined && s.master.isSome then slew s.podTime (pod.headD 0) else s.podTime,
    dies := s.dies.mapIdx fun i d => { d with time := slew d.time (pkg.getD i 0) } }
  let s2 : State := { s1 with
    ptcSkew := BitVec.ofNat 16 (max (b1.toNat % 2 ^ 16) (min (2 ^ 16 - 1) s1.timeSpread)) }
  match s2.master with
  | some p => (s2.sendMsg 0 p 0 tTime 0 0 0 0 (timeBody 0 s2.podTime)).1
  | none => s2

/-! ## Requests that wait -/

/-- What a message is called among those that wait for leases. -/
def msgWho (m : Msg) : Nat := 2 ^ 60 + m.src * 2 ^ 48 + m.seq

/-- Why a request waits, beside the number of a fault: try again; the wait is over and the event is about to happen again. -/
def pwRetry : Nat := 2 ^ 40 + 1
def pwWoken : Nat := 2 ^ 40 + 2

/-- A request of a peer waits. -/
def State.deferMsg (s : State) (m : Msg) (why : Nat) : State := { s with peerWaits := s.peerWaits ++ [⟨m, m.ddie, why, (s.die m.ddie).quiesce⟩] }

/-- Discard a message and log it at its destination die. -/
def State.discardMsg (s : State) (d : Nat) (m : Msg) : State :=
  s.logError d 0x06 m.src m.off (BitVec.ofNat 64 (m.hdr.toNat / 2 ^ 64))

/-- Receive a message of a type: discard it, or accept it and act. -/
def State.receive (s : State) (m : Msg) (type : Nat) (k : State → Out) : Out :=
  let back (w : PeerWait) : Bool := w.msg == m && pwRetry ≤ w.frec
  if !s.hasUnit 5 then .next s
  else if s.peerWaits.any back then k { s with peerWaits := s.peerWaits.filter (!back ·) }
  else if !s.msgOk m type then .next (s.discardMsg m.ddie m)
  else k (s.noteSeq m)

end Sys2Proof.Machine
end

