-- ==== Sys2Proof/Machine/Faults.lean ====
section
/-! DEFINITION. What system software does to a fault record, and what follows for its waiters: service, refusal,
consumption (R353, R355, R397, R398, R465). -/

namespace Sys2Proof.Machine

/-- The context of a completed rendezvous. -/
def Block.rdvCtx (b : Block) (r : Rdv) : Ctx :=
  { blk := b.id, coh := r.id, grp := r.members.headD 0, lanes := r.members.flatMap b.live, pc := r.pc, len := r.len,
    wide := true, members := r.members, order := r.order }

/-- The context of a cohort at its instruction. -/
def Block.cohCtx (b : Block) (k : Cohort) (len : Nat) : Ctx :=
  { blk := b.id, coh := k.id, grp := k.grp, lanes := k.lanes, pc := k.pc, len := len, wide := false, members := [],
    order := [] }

/-! ## Pending refusals (R355, R465) -/

/-- Put a number into a rising list. -/
def insertNum (x : Nat) : List Nat → List Nat
  | [] => [x]
  | y :: r => if x < y then x :: y :: r else y :: insertNum x r

/-- The entries of a core's operand log in use (R352): accesses and HLDs that faulted, until they complete. -/
def State.logUsed (s : State) (core : Nat) : Nat :=
  let mine (blk : Nat) : Bool := ((s.block? blk).map (·.coreKey)) == some core
  (s.accs.filter fun a => a.logged && mine a.blk && !a.las.all (·.phase == .done)).length +
    (s.longs.filter fun o => o.logged && mine o.blk).length

/-- Faulted accesses and HLDs without an operand-log entry take free entries of their core's 64, in issue order (R352). -/
def State.fillLog (s : State) : State :=
  let new := (s.accs.filter fun a => a.faulted && !a.logged).map fun a => (a.id, a.blk)
  let hld := (s.longs.filter fun o => o.isHld && o.waits.isSome && !o.logged).map fun o => (o.id, o.blk)
  (((new ++ hld).map (·.1)).foldr insertNum []).foldl (fun t id =>
    match (new ++ hld).find? (·.1 == id) with
    | some (_, k) =>
      if t.logUsed (((t.block? k).map (·.coreKey)).getD 0) < 64 then
        { t with accs := updWhere (·.id == id) (fun a => { a with logged := true }) t.accs,
                 longs := updWhere (fun o => o.id == id && o.isHld) (fun o => { o with logged := true }) t.longs }
      else t
    | none => t) s

/-- Record the fault of an engine's operation: what it waits on. The page is kept for the error log (R465). -/
def State.engFault (s : State) (who d va kind : Nat) : State × Nat :=
  let r := s.recordFault d va kind
  ({ r.1 with waitVa := Sparse.put r.1.waitVa who va }, r.2)

/-- The page that an operation waits on, as the error log names it. -/
def State.waitPage (s : State) (who : Nat) : Word := BitVec.ofNat 64 ((Sparse.find? s.waitVa who).getD 0 / 2 ^ 16 * 2 ^ 16)

/-- What a send list waits under. -/
def listWho (addr : Nat) : Nat := 2 ^ 70 + addr

/-- Make ACCESS_REFUSED pending for a group, while it has a non-exited lane; refusals stand in issue order. -/
def State.makeRefused (s : State) (blk g : Nat) (r : Refused) : State :=
  s.modBlock blk fun b =>
    if (b.live g).isEmpty then b
    else b.modGroup g fun gr =>
      { gr with refusals := gr.refusals.filter (fun q => q.ord ≤ r.ord) ++ r :: gr.refusals.filter (fun q => r.ord < q.ord) }

/-- An engine operation ends at a refused page (R465): the page is logged, and ACCESS_REFUSED is made pending for its group. -/
def State.engineRefused (s : State) (who d blk g ord pc frec : Nat) : State :=
  (s.logOwn d 0x03 (s.waitPage who) (BitVec.ofNat 64 pc)).makeRefused blk g
    { ord := ord, pc := pc, lanes := (List.range 32).map (32 * g + ·), frec := frec, tag := 0xFF, dst := 0xFF }

/-! ## Waiters -/

/-- The 64 KiB pages of a record, as page numbers. -/
def FaultRec.pages (r : FaultRec) : List Nat :=
  ((List.range 64).filter (bit r.bitmap.toNat)).map (64 * r.block + ·)

def LaneAcc.waitsOn (x : LaneAcc) (r : Nat) : Bool := x.phase == .waits r

/-- A cohort waits on a record for a fetch, or for its TRET's read of the frame. -/
def Cohort.fetchesOn (k : Cohort) (r : Nat) : Bool := match k.stage with
  | .fetch q _ => q == r
  | _ => false

/-- A cohort waits for, or may take again, the fetch of its run's first instruction (R397). -/
def Block.unstarted (b : Block) (k : Cohort) : Bool :=
  k.pc == k.start && (k.lanes.all fun l => (b.lane l).run.count == 0) && match k.stage with
    | .fetch .. => true
    | .resume => true
    | _ => false

def clearWait (r : Nat) : Option Nat → Option Nat
  | some q => if q == r then none else some q
  | none => none

/-- Change what the lanes of an access wait on; those that wait no longer walk again. -/
def Access.mapWaits (f : Option Nat → Option Nat) (a : Access) : Access :=
  { a with las := a.las.map fun x =>
      match x.phase with
      | .waits q => match f (some q) with
        | some r => { x with phase := .waits r }
        | none => { x with phase := .walk }
      | _ => x }

/-- Change what cohorts and write-backs of a block wait on. -/
def Block.mapWaits (f : Option Nat → Option Nat) (b : Block) : Block :=
  { b with
    cohorts := b.cohorts.map fun k => match k.stage with
      | .fetch q n => match f (some q) with
        | some r => { k with stage := .fetch r n }
        | none => { k with stage := .resume }
      | _ => k,
    wbWaits := f b.wbWaits }

/-- Change what everything that waits on a fault waits on. -/
def State.mapWaits (s : State) (f : Option Nat → Option Nat) : State :=
  { s with
    accs := s.accs.map (·.mapWaits f),
    blocks := s.blocks.map (·.mapWaits f),
    longs := s.longs.map fun o => { o with waits := f o.waits },
    tileOps := s.tileOps.map fun t => { t with waits := f t.waits },
    copies := s.copies.map fun c => { c with waits := f c.waits },
    bins := s.bins.map fun c => { c with waits := f c.waits },
    appends := s.appends.map fun a => { a with waits := f a.waits },
    sends := s.sends.map fun e => { e with waits := f e.waits },
    sendLists := s.sendLists.map fun e => { e with waits := f e.waits },
    launches := s.launches.map fun l => { l with waits := f l.waits },
    dies := s.dies.map fun d => { d with queues := d.queues.map fun (k, q) => (k, { q with waits := f q.waits }) } }

/-- The event of a request that waited. -/
def reissue (m : Msg) : Instr :=
  match m.type with
  | 0x01 => .readRequest m
  | 0x02 => .readSharedLease m
  | 0x03 => .ownershipRequest m
  | 0x04 => .writeBack m
  | 0x10 => .sendListPayload m
  | 0x11 => .remoteStamp m
  | _ => .syncAccessAtHome m

/-- Let every waiter of a record go on: what was refused has been marked before. -/
def State.wakeWaiters (s : State) (r : Nat) : State :=
  let ws := s.peerWaits.filter (·.frec == r)
  { s.mapWaits (clearWait r) with
    agenda := s.agenda ++ ws.map (fun w => reissue w.msg),
    peerWaits := updWhere (·.frec == r) (fun w => { w with frec := pwWoken }) s.peerWaits }

/-- The faults of a die that wait for a record are recorded, in order, as far as a record is open for their block or free (R396). -/
def State.recordLate (s : State) (d : Nat) : State :=
  (s.lateFaults.filter (·.die == d)).foldl (fun s f =>
    let fs := (s.die d).faults
    if (fs.any fun e => e.2.st == 1 && e.2.block == f.va / 2 ^ 22) || (lowestFree (fs.map (·.1)) 256).isSome then
      let r := ({ s with lateFaults := s.lateFaults.filter (·.no != f.no) } : State).joinFault d f.va f.kind f.waiters
      let s1 := r.1.mapWaits fun w => if w == some f.no then some r.2 else w
      { s1 with peerWaits := updWhere (·.frec == f.no) (fun w => { w with frec := r.2 }) s1.peerWaits }
    else s) s

def State.freeRec (s : State) (d i : Nat) : State := s.setFaultRec d i FaultRec.free

/-- A record's pages are serviced (R353, R398): every waiter is replayed, and the record is free. -/
def State.serviceRec (s : State) (d i : Nat) : State := ((s.freeRec d i).wakeWaiters (d * 256 + i)).recordLate d

/-! ## Refusal -/

/-- The lanes of an access that wait on a record are refused (R353): stores are logged, ACCESS_REFUSED is made pending. An access through
a peer window has its error reply instead, and traps nothing (R213, R415). -/
def State.refuseAccess (s : State) (r : Nat) (a : Access) : State :=
  let mine := a.las.filter (·.waitsOn r)
  let ls := (mine.filter (!·.byWindow)).map (·.lane)
  if mine.isEmpty then s
  else
    let s1 := { s with accs := updWhere (·.id == a.id) (fun a =>
      { a with las := a.las.map fun x => if x.waitsOn r then { x with phase := .refused r } else x }) s.accs }
    let s2 := match a.isStore, mine with
      | true, x :: _ => s1.logOwn a.die 0x03 (BitVec.ofNat 64 x.addr) (BitVec.ofNat 64 a.pc)
      | _, _ => s1
    (ls.map (· / 32)).eraseDups.foldl (fun s g => s.makeRefused a.blk g
      { ord := a.id, pc := a.pc, lanes := ls.filter fun l => l / 32 == g, frec := r % 256, tag := a.tag % 8,
        dst := if a.isStore then 0xFF else (regCode? a.dst).getD 252 }) s2

/-- A cohort that waits on a refused record: its instruction fetch, or its TRET's read of the frame, raises ACCESS_REFUSED (R353,
R397). -/
def State.refuseCohort (s : State) (r : Nat) (blk : Nat) (k : Cohort) : State :=
  match s.block? blk with
  | none => s
  | some b =>
    s.raise b (b.cohCtx k 8) .lane .accessRefused k.lanes
      (fun _ => ⟨mkWord [(r % 256, 0), (0xFF, 8), (0xFF, 16)], 0, 0⟩) k.pc

/-- An HLD that waits on a refused record writes all ones to its H register (R213, R353), and ACCESS_REFUSED is made pending in each
member group. -/
def State.refuseHld (s : State) (r : Nat) (o : LongOp) : State :=
  let h := match o.body with
    | .hld h .. => h
    | _ => 0
  let s1 : State := { s with longs := updWhere (·.id == o.id) (fun o =>
    { o with body := .wrs, ready := true, waits := none, wrs := o.groups.map fun g => .hreg g h (BitVec.allOnes 512) }) s.longs }
  o.groups.foldl (fun s g => s.makeRefused o.blk g
    { ord := o.id, pc := o.pc, lanes := (List.range 32).map (32 * g + ·), frec := r % 256, tag := 0xFF, dst := 0xFF }) s1

/-- An operation returns its count once none of its appends is left (R232). -/
def State.settleAppend (s : State) (blk op : Nat) : State := if s.appends.any (·.op == op) then s else s.finishOp blk op

/-- SENDL and LAUNCH that wait on a refused record end (R465). -/
def State.refuseAppends (s : State) (d r : Nat) : State :=
  let mine := s.appends.filter (·.waits == some r)
  mine.foldl (fun s a => (s.engineRefused a.id d a.blk a.grp a.op a.pc (r % 256)).settleAppend a.blk a.op)
    { s with appends := s.appends.filter (·.waits != some r) }

/-- An accepted entry waits on a record for its list's control block or entry array. -/
def SendEnt.endsOn (e : SendEnt) (t : SendList) (r : Nat) : Bool :=
  e.ending && e.waits == some r && e.die == t.die && e.list == t.addr

/-- A send list that waits on a refused record, itself or to write the end of an accepted entry, is stopped (R465): every group with an
entry that it will not accept takes ACCESS_REFUSED once, at the place of its first such SENDL (DESIGN CHOICE, log 84). -/
def State.refuseList (s : State) (d r : Nat) (t : SendList) : State :=
  let s1 := if t.waits == some r then
      s.logOwn d 0x03 (s.waitPage (listWho t.addr)) (BitVec.ofNat 64 ((t.issuers.head?.map (·.pc)).getD 0))
    else s
  let firsts := t.issuers.foldl (fun (l : List SendIss) i => if l.any fun k => k.blk == i.blk && k.grp == i.grp then l else l ++ [i]) []
  firsts.foldl (fun s i => s.makeRefused i.blk i.grp
    { ord := i.op, pc := i.pc, lanes := (List.range 32).map (32 * i.grp + ·), frec := r % 256, tag := 0xFF, dst := 0xFF }) s1

/-- Mark the pages refused in every engine operation that waits, log its page and make ACCESS_REFUSED pending (R465). -/
def State.refuseEngines (s : State) (d r : Nat) (pages : List Nat) : State :=
  let k := r % 256
  let w (x : Option Nat) : Bool := x == some r
  let s1 := (s.tileOps.filter fun t => w t.waits).foldl (fun s t => s.engineRefused t.id d t.blk t.grp t.id t.pc k) s
  let s2 := (s.copies.filter fun t => w t.waits).foldl (fun s t => s.engineRefused t.id d t.blk t.grp t.ord t.pc k) s1
  let s3 := (s.bins.filter fun t => w t.waits).foldl (fun s t => s.engineRefused t.id d t.blk t.grp t.op t.pc k) s2
  let s4 := (s.sends.filter fun t => w t.waits).foldl (fun s t => match t.issuer with
    | some (b, g, pc, op) => s.engineRefused t.id d b g op pc k
    | none => s.logOwn d 0x03 (s.waitPage t.id) 0) s3
  let stops (t : SendList) : Bool := w t.waits || s.sends.any fun e => e.endsOn t r
  let s5 := (s.sendLists.filter stops).foldl (fun s t => s.refuseList d r t) s4
  let s6 := (s.blocks.filter fun b => w b.wbWaits).foldl (fun s b =>
    (s.logOwn d 0x03 (s.waitPage b.id) 0).modBlock b.id fun b => { b with wbRefused := b.wbRefused ++ pages }) s5
  let s7 := (s6.longs.filter fun t => w t.waits).foldl (fun s t =>
    if t.isHld then s.refuseHld r t else s.engineRefused t.id d t.blk (t.desig / 32) t.id t.pc k) s6
  let s7 := s7.refuseAppends d r
  { s7 with
    longs := updWhere (fun t => w t.waits) (fun t => { t with refused := t.refused ++ pages }) s7.longs,
    tileOps := updWhere (fun t => w t.waits) (fun t => { t with refused := t.refused ++ pages }) s7.tileOps,
    copies := updWhere (fun t => w t.waits) (fun t => { t with refused := t.refused ++ pages }) s7.copies,
    bins := updWhere (fun t => w t.waits) (fun t => { t with refused := t.refused ++ pages }) s7.bins,
    sends := updWhere (fun t => w t.waits) (fun t => { t with refused := t.refused ++ pages }) s7.sends,
    sendLists := updWhere stops (fun t => { t with stopped := true }) s7.sendLists,
    launches := updWhere (fun t => w t.waits) (fun t => { t with refused := t.refused ++ pages }) s7.launches,
    dies := s7.dies.map fun di => { di with queues := di.queues.map fun (k, q) =>
      (k, if w q.waits then { q with refused := q.refused ++ pages } else q) } }

/-- A peer's request that waited on a refused page receives an error reply (R415). -/
def State.refusePeers (s : State) (r : Nat) : State :=
  let ws := s.peerWaits.filter (·.frec == r)
  ws.foldl (fun s w => s.answer w.msg tError [] false)
    { s with peerWaits := s.peerWaits.filter (·.frec != r) }

/-- A record's pages are refused (R353, R397, R465): every waiter ends as its rule says, and the record is free. -/
def State.refuseRec (s : State) (d i : Nat) : State :=
  let r := d * 256 + i
  let pages := (s.faultRec d i).pages
  let s1 := s.accs.foldl (fun s a => s.refuseAccess r a) (s.freeRec d i)
  let s2 := s1.blocks.foldl (fun s b =>
    (b.cohorts.filter (·.fetchesOn r)).foldl (fun s k => s.refuseCohort r b.id k) s) s1
  (((s2.refuseEngines d r pages).refusePeers r).wakeWaiters r).recordLate d

/-- A command on a fault record (R389, R398): consume, serviced, refused; on a free record, or ignored, it is logged. -/
def State.faultCommand (s : State) (d i act : Nat) : State :=
  let rc := s.faultRec d i
  let ignore := s.logOwn d 0x09 (BitVec.ofNat 64 i) (BitVec.ofNat 64 act)
  if rc.st == 0 || act == 3 then ignore
  else if act == 0 then (if rc.st == 1 then s.setFaultRec d i { rc with st := 2 } else s)
  else if act == 1 then s.serviceRec d i
  else s.refuseRec d i

/-- FAULT_SIGNAL_DELAYED (R396): the microsecond since the last signal ends, and one signal is sent for every record
opened during it. -/
def execFaultSignalDelayed (die : Fin 4) (s : State) : Out :=
  let d := s.die die.val
  match d.msixDue, d.msixAt with
  | true, some t =>
    if d.time.toNat < t + 1000 then .next s
    else .next (s.modDie die.val fun d =>
      { d with msixDue := false, msixAt := some d.time.toNat, msix := d.msix ++ [1] })
  | _, _ => .next s

end Sys2Proof.Machine
end

