-- ==== Sys2Proof/Machine/MemEvents.lean ====
section
/-! DEFINITION. Events of the memory system: page walks and faults (R352, R393, R396), the performance of accesses (R210 to
R217, R321 to R337), scratchpad fills and write-backs (R297 to R300), WAITM's reads (R147). -/

namespace Sys2Proof.Machine

/-! ## Completing counted operations and drains -/

/-- A lane's access uses the translation it was placed by, until it is performed. -/
def LaneAcc.uses (x : LaneAcc) : Bool := match x.phase with
  | .placed _ | .sent _ _ => true
  | _ => false

/-- TLBX operations return their count once no lane that used a removed translation uses it any longer (R273). -/
def State.settleDrains (s : State) : State :=
  let done (d : Drain) : Bool := d.accs.all fun k => !s.accs.any fun a => a.id == k.1 && a.las.any fun x => x.lane == k.2 && x.uses
  (s.drains.filter done).foldl (fun t d => t.finishOp d.blk d.id) { s with drains := s.drains.filter (!done ·) }

/-! ## Translation -/

def sideOf (p : Ptr) : Side := if p.space == spHost then .host else .device

def AccKind.need : AccKind → Need
  | .load | .monitor => .read
  | .store => .write
  | .atom _ | .cas => .both

def AccKind.bit : AccKind → Nat
  | .load | .monitor => kLoad
  | .store => kStore
  | .atom _ | .cas => kAtomic

/-- What an export entry answers (R415). -/
inductive Exported where
  | ok (ps : List Place)
  | refused
  | fault (va kind : Nat)
  | wait
deriving DecidableEq, Repr

/-- Two ranges meet. -/
def meets (a n b m : Nat) : Bool := a < b + m && b < a + n

/-- A range that no peer or host may name: the save aperture and the frame area (R358). -/
def State.forbidden (s : State) (d va n : Nat) : Bool :=
  (match (s.die d).saveRange with
   | some (a, m) => meets va n a m
   | none => false) ||
  (bit (s.die d).tframe.toNat 0 && meets va n (bits (s.die d).tframe.toNat 63 31 * 2 ^ 31) (192 * 1024 * 8192))

/-- Check a request against an export entry of a logical device and translate it (R415): W permits atomics too (R413). -/
def State.exportPlaces (s : State) (d expidx tenant egen off n : Nat) (need : Need) : State × Exported :=
  let tb := (s.die d).exptab.toNat
  if !bit tb 0 then (s, .refused)
  else
    match s.spots d (bits tb 63 17 * 2 ^ 17 + 32 * expidx) 32 .read .either with
    | (s, .fault va k) => (s, .fault va k)
    | (s, .wait) => (s, .wait)
    | (s, .ok es) =>
     if !(s.away es).isEmpty then (s.want (s.away es), .wait)
     else
      let bs := s.readPlaces es
      let w0 := ofBytes (bs.take 8)
      let base := ofBytes ((bs.drop 8).take 8)
      let len := ofBytes ((bs.drop 16).take 8)
      let perm := match need with
        | .read | .fetch => bit w0 61
        | .write | .both => bit w0 62
      if !bit w0 63 || bits w0 11 0 != egen || bits w0 55 40 != tenant || len < off + n || !perm ||
         s.forbidden d (base + off) n then (s, .refused)
      else
        match s.spots d (base + off) n need .device with
        | (s, .fault va k) => (s, .fault va k)
        | (s, .wait) => (s, .wait)
        | (s, .ok ps) => (s, .ok ps)

/-- Where a lane's bytes lie, or the fault of its page on a die, or that a table's line must come home first. -/
inductive Resolved where
  | ok (ps : List Place)
  | fault (die va kind : Nat)
  | wait
deriving DecidableEq, Repr

/-- Resolve one lane's access, or an engine's, for a viewer of the block's logical device (R86, R302, R392, R413). -/
def State.resolve (s : State) (b : Block) (v : Nat) (kind : AccKind) (x : LaneAcc) : State × Resolved :=
  let p := ptrOf x.ptr
  let err := List.replicate x.size Place.err
  if p.space == spScratch then
    match s.rankBlock b p.home with
    | some q => (s, .ok ((List.range x.size).map fun k => .scr q.id (x.addr + k)))
    | none => (s, .ok err)
  else if p.space == spPeer then
    match s.import? v (p.base / 2 ^ 52) with
    | none => (s, .ok err)
    | some i =>
      let off := x.addr % 2 ^ 52
      if i.tpos == s.pos then
        match s.exportPlaces i.tdie i.expidx i.tenant i.egen off x.size kind.need with
        | (s, .ok ps) => (s, .ok ps)
        | (s, .refused) => (s.logOwn i.tdie 0x03 x.addr 0, .ok err)
        | (s, .fault va k) => (s, .fault i.tdie va k)
        | (s, .wait) => (s, .wait)
      else
        (s, .ok ((List.range x.size).map fun k => .peer i.tpos i.tdie i.expidx i.egen i.tenant (off + k)))
  else
    match s.spots v x.addr x.size kind.need (sideOf p) with
    | (s, .ok ps) => (s, .ok ps)
    | (s, .fault va k) => (s, .fault b.die va k)
    | (s, .wait) => (s, .wait)

/-- Record the fault of one lane: a page of the access counts once, a record gains one waiter from it (R352, R396). -/
def State.laneFault (s : State) (a : Access) (seen : List (Nat × Nat × Nat)) (d va kind : Nat) :
    State × Phase × List (Nat × Nat × Nat) :=
  match seen.find? fun e => e.1 == d && e.2.1 == va / 2 ^ 16 with
  | some e => (s, .waits e.2.2, seen)
  | none =>
    let joined := seen.any fun e => e.1 == d && e.2.1 / 64 == va / 2 ^ 22
    let r := s.joinFault d va (a.kind.bit + kind) (if joined then 0 else 1)
    (r.1, .waits r.2, seen ++ [(d, va / 2 ^ 16, r.2)])

/-- Walk every lane of an access that awaits translation. -/
def State.walkLanes (s : State) (b : Block) (a : Access) : List LaneAcc → List (Nat × Nat × Nat) → State × List LaneAcc
  | [], _ => (s, [])
  | x :: xs, seen =>
    if x.phase != .walk then let r := s.walkLanes b a xs seen; (r.1, x :: r.2)
    else
      match s.resolve b b.view a.kind x with
      | (s, .ok ps) => let r := s.walkLanes b a xs seen; (r.1, { x with phase := .placed ps } :: r.2)
      | (s, .wait) => let r := s.walkLanes b a xs seen; (r.1, x :: r.2)
      | (s, .fault d va k) =>
        let (s, ph, seen) := s.laneFault a seen d va k
        let r := s.walkLanes b a xs seen
        (r.1, { x with phase := ph } :: r.2)

def State.setAccess (s : State) (a : Access) : State := { s with accs := updWhere (·.id == a.id) (fun _ => a) s.accs }

/-- PAGE_WALK_COMPLETE (R393): an access's lanes are translated, or their faults recorded (R352, R396). -/
def execPageWalkComplete (id : Nat) (s : State) : Out :=
  match s.accs.find? (·.id == id) with
  | none => .next s
  | some a =>
    match s.block? a.blk with
    | none => .next s
    | some b => let r := s.walkLanes b a a.las []; .next (r.1.setAccess { a with las := r.2 }).fillLog

/-! ## What an access waits for at the home (R337, R412, R416, R418, R421, R422) -/

/-- The end of a lease granted now by a logical device, in units of 64 ns modulo 2^24 (R417). -/
def State.leaseEnd (s : State) (d : Nat) : Nat :=
  let ns := max 500 (min 64000 (bits (s.die d).leasectl.toNat 16 0))
  (s.podTime.toNat + ns + 63) / 64 % 2 ^ 24

/-! ### Lines of peers that this device holds (R416, R417) -/

/-- A count that saturates. -/
def satInc (w : Word) : Word := if w = BitVec.allOnes 64 then w else w + 1

/-- A copy still serves: under ordinary ownership, or until its lease's end less the bound on pod time (R417). -/
def State.serves (s : State) (r : RemoteLine) : Bool :=
  match r.lease with
  | none => true
  | some fin =>
    let d := (fin + 2 ^ 24 - (s.podTime.toNat + s.podSkew.toNat) / 64 % 2 ^ 24) % 2 ^ 24
    1 ≤ d && d < 2 ^ 23

/-- Two names of a peer's bytes are of one exported region. -/
def RemoteLine.of (r : RemoteLine) (d pos ddie exp gen tenant : Nat) : Bool :=
  r.die == d && r.pos == pos && r.ddie == ddie && r.expidx == exp && r.egen == gen && r.tenant == tenant

/-- The copy that a die holds of n bytes of a peer at an offset, for a load through a facet pair (15: none). A facet serves its own
format only (R94). -/
def State.copyFor (s : State) (d pos ddie exp gen tenant off n facet : Nat) : Option RemoteLine :=
  s.remotes.find? fun r => r.of d pos ddie exp gen tenant && r.off ≤ off && off + n ≤ r.off + r.bytes.length && s.serves r &&
    (r.facet == 15 || r.facet == facet)

/-- The die keeps nothing of what requests already sent to a peer will bring: its home may count the copy as gone. -/
def State.unkeep (s : State) (d pos : Nat) : State :=
  { s with requests := updWhere (fun q : Request => q.dest == pos && q.msg.sdie == d) (fun q => { q with keep := false }) s.requests }

/-- A die drops its copies of a line of a peer. -/
def State.dropCopies (s : State) (d pos line : Nat) : State :=
  ({ s with remotes := s.remotes.filter fun r => !(r.die == d && r.pos == pos && r.line == line) } : State).unkeep d pos

/-- A die gives up its copies of a line it holds exclusively and writes the stores back; `inval`: the invalidation to be acknowledged
once that is done. Without a route they are lost as a store is (R426). -/
def State.giveBack (s : State) (inval : Option Msg) (r : RemoteLine) : State :=
  let s1 := s.dropCopies r.die r.pos r.line
  match s1.sendMsg r.die r.pos r.ddie tWriteBack r.tenant r.expidx r.egen (reqWord r.off r.bytes.length 15 r.bad) r.bytes with
  | (s, none) => { s with fabDrop := satInc s.fabDrop }
  | (s, some m) =>
    s.ask m (.back inval) false

/-- A die gives up a line of a peer: it writes its stores back, or tells the home so by an acknowledgement that answers nothing and names
the line (its layout is the model's own, log 8). -/
def State.giveUp (s : State) (r : RemoteLine) : State :=
  if r.excl then s.giveBack none r
  else ((s.dropCopies r.die r.pos r.line).sendMsg r.die r.pos r.ddie tAck 0 0 0 0 (toBytes 16 r.line)).1

/-- Leased copies past their end are gone. -/
def State.purgeCopies (s : State) : State := { s with remotes := s.remotes.filter s.serves }

/-- A sleeping die wakes (R453). After a long sleep in D2 its slices hold no line of a peer any longer, and every lease that its directory
records has ended (R454). -/
def State.wake (s : State) (d : Nat) : State :=
  let di := s.die d
  if di.pwrState == 0 || di.pwrState == 3 then s
  else
    let long := di.pwrState == 2 && di.d2At.toNat + 536870912 ≤ s.podTime.toNat
    let s1 := s.modDie d fun di => { di with pwrState := 0 }
    if long then
      (s1.remotes.filter (·.die == d)).foldl (·.giveUp ·)
        { s1 with leases := s1.leases.filter fun e => s1.homeDie (128 * e.line) != d }
    else s1

/-- Ask a peer to give up a line it holds (R412, R416). Without a route it is asked again later; a lost peer holds nothing to wait for. -/
def State.askHolder (s : State) (h : Holder) : State :=
  let same (x : Holder) : Bool := x.line == h.line && x.pos == h.pos && x.die == h.die
  match s.sendMsg (s.homeDie (128 * h.line)) h.pos h.die tInval 0 0 0 (BitVec.ofNat 64 (128 * h.line)) [] with
  | (s, some m) => ({ s with holders := updWhere same (fun x => { x with asked := m.seq }) s.holders } : State).ask m (.recall h.line h.pos h.die) false
  | (s, none) => if (s.peer h.pos).lost then { s with holders := s.holders.filter (!same ·) } else s

/-- Revoke a lease (R417). -/
def State.revoke (s : State) (e : Lease) : State :=
  match s.sendMsg (s.homeDie (128 * e.line)) e.pos.toNat e.die tRevoke 0 0 0 (BitVec.ofNat 64 (128 * e.line)) [] with
  | (s, some m) =>
    let same (x : Lease) : Bool := x.line == e.line && x.pos == e.pos && x.die == e.die
    ({ s with leases := updWhere same (fun x => { x with asked := m.seq }) s.leases } : State).ask m (.recall e.line e.pos.toNat e.die) false
  | (s, none) => s

/-! ### Host lines (R420, R421) -/

/-- The I/O die through whose link a host line of 64 bytes goes: address bit 12. -/
def halfIod (l : Nat) : Nat := bits (64 * l) 12 12

def HalfSt.none : HalfSt := ⟨.i, 0⟩

/-- A half's state in the device's directory. -/
def State.half (s : State) (l : Nat) : HalfSt :=
  match s.hostDir.find? (·.line == l / 2) with
  | some e => if l % 2 = 0 then e.lo else e.hi
  | .none => HalfSt.none

/-- Set a half's state; a line neither of whose halves is held has no entry. -/
def State.setHalf (s : State) (l : Nat) (h : HalfSt) : State :=
  let e : HostDir := if l % 2 = 0 then ⟨l / 2, h, s.half (l + 1)⟩ else ⟨l / 2, s.half (l - 1), h⟩
  let rest := s.hostDir.filter (·.line != l / 2)
  { s with hostDir := if e.lo.st == .i && e.hi.st == .i then rest else rest ++ [e] }

/-- A half is dirty: this device alone has its newest bytes. -/
def HalfSt.dirty (h : HalfSt) : Bool := h.st == .m || h.st == .o

/-- A half goes back to the host by itself, poisoned where its line is (R420, R357). -/
def State.hostBack (s : State) (l : Nat) : State :=
  let ps := (List.range 64).map fun k => Place.host (64 * l + k)
  { s with hostOut := s.hostOut ++ [.hostWriteBack l (s.readPlaces ps) (ps.any s.badByte)] }

/-- A die gives up a half: written back first where that die owns it dirty (R421, R455). -/
def State.leaveHalf (s : State) (d l : Nat) : State :=
  match s.filter.find? (·.line == l) with
  | .none => s
  | some e =>
    if !e.dies.contains d then s
    else
      let x := s.half l
      let mine := x.dirty && x.owner == d
      let rest := e.dies.filter (· != d)
      let s1 := if mine then s.hostBack l else s
      ({ s1 with
        filter := if rest.isEmpty && !e.lost then s1.filter.filter (·.line != l) else updWhere (·.line == l) (fun e => { e with dies := rest }) s1.filter,
        sharers := s1.sharers.filter fun h => !(h.host && h.line == l / 2 && h.core / 192 == d) } : State).setHalf l
        (if rest.isEmpty then HalfSt.none else if x.owner == d then ⟨.s, rest.headD 0⟩ else x)

/-- Every die gives up a half. -/
def State.dropHalf (s : State) (l : Nat) : State :=
  (((s.filter.find? (·.line == l)).map (·.dies)).getD []).foldl (fun s d => s.leaveHalf d l) s

/-- A half's state once a die reads it, or owns it for a write (R420): a read alone makes it shared, whatever more the host would grant
(DESIGN CHOICE, log 113). -/
def HalfSt.taken (h : HalfSt) (d : Nat) (own : Bool) (others : List Nat) : HalfSt :=
  if own then ⟨if others.isEmpty then .m else .o, d⟩
  else match h.st with
    | .i => ⟨.s, d⟩
    | .e => if h.owner == d then h else ⟨.s, h.owner⟩
    | .m => if h.owner == d then h else ⟨.o, h.owner⟩
    | _ => h

/-- An I/O die's filter of 262,144 entries has room for one more: a full one puts out its oldest first, with its holders' copies (R421). -/
def State.filterRoom (s : State) (iod : Nat) : State :=
  let mine : List HostLine := s.filter.filter fun h => halfIod h.line == iod
  match mine with
  | [] => s
  | h :: _ =>
    if mine.length < 262144 then s
    else let t := s.dropHalf h.line; { t with filter := t.filter.filter (·.line != h.line) }

/-- A die takes a host line: it is asked of the host where the device does not have it so, and enters its I/O die's filter (R420, R421). -/
def State.enterFilter (s : State) (d : Nat) (own : Bool) (l : Nat) : State :=
  let x := s.half l
  let s1 : State := if x.st == .i || (own && x.st == .s) then { s with hostOut := s.hostOut ++ [.hostRequest l own] } else s
  match s1.filter.find? (·.line == l) with
  | some h =>
    ({ s1 with filter := updWhere (·.line == l) (fun h => { h with dies := insertLine d h.dies }) s1.filter } : State).setHalf l
      (x.taken d own (h.dies.filter (· != d)))
  | none => let s2 := s1.filterRoom (halfIod l); ({ s2 with filter := s2.filter ++ [⟨l, [d], false⟩] } : State).setHalf l (x.taken d own [])

/-- What a write of the dies' own is called among those that wait for leases. -/
def postedWho (no : Nat) : Nat := 2 ^ 74 + no

/-- What the write of a group's frame is called among them. -/
def frameWho (blk g : Nat) : Nat := 2 ^ 76 + 32 * blk + g

/-- The writers there are: those of them that wait for leases are still to be performed. -/
def State.writers (s : State) : List Nat :=
  s.accs.map (·.id) ++ s.copies.map (·.id) ++ s.bins.map (·.id) ++ (s.sends.filter (!·.done)).map (·.id) ++ s.appends.map (·.id) ++
  s.tileOps.map (·.id) ++ s.launches.map (·.id) ++ s.blocks.map (·.id) ++ s.sendLists.map (fun t => listWho t.addr) ++
  s.posted.map (fun p => postedWho p.no) ++ s.peerWaits.map (fun w => msgWho w.msg) ++
  (s.blocks.flatMap fun b => (b.groups.zipIdx.filter (·.1.raised.isSome)).map fun e => frameWho b.id e.2) ++
  s.hostWait.filterMap fun i => match i with
    | .hostWrite a _ => some (2 ^ 62 + a)
    | _ => none

/-- A writer that waits for leases on a line came to wait after another that still does: the stores of one line are performed in their
order (R418). -/
def State.leaseAhead (s : State) (who l : Nat) : Bool :=
  s.leaseWaits.any (·.acc == who) &&
    (s.leaseWaits.takeWhile (·.acc != who)).any fun w => w.line == l && s.writers.contains w.acc

/-- A writer waits for leases on these lines: it keeps the place it had. -/
def State.awaitLeases (s : State) (who : Nat) (lines : List Nat) : State :=
  let mine := s.leaseWaits.filter fun w => w.acc != who || lines.contains w.line
  { s with leaseWaits := mine ++ (lines.filter fun l => !mine.any fun w => w.acc == who && w.line == l).map fun l => ⟨l, who⟩ }

/-- May an access act on its places now? A store waits for the leases it would disturb; lines peers hold are invalidated
first, and the halves written that the host caches back-invalidated (R422); a die that takes a host line enters it in the filter. While DRAM
is in self-refresh after a thermal trip it serves no request (R452; log 112). -/
def State.letIn (s : State) (who d : Nat) (ps : List Place) (data : Option (List Byte)) : State × Bool :=
  let lines := ((ps.filterMap fun p => match p with
    | .dev a => some (a / 128)
    | _ => none).eraseDups)
  let hlines := ((ps.filterMap fun p => match p with
    | .host a => some (a / 64)
    | _ => none).eraseDups)
  let held := match data with
    | some bs => (s.leaseHolds who (ps.zip bs) ++ lines.filter (s.leaseAhead who)).eraseDups
    | none => []
  let away := s.holders.filter fun h => lines.contains h.line && (data.isSome || h.excl)
  let written := (ps.filterMap fun p => match p with
    | .dev a => some (a / 64)
    | _ => none).eraseDups
  let halves := if data.isNone then [] else s.hostHeld.filter written.contains
  let s := ((lines.map fun l => s.homeDie (128 * l)).eraseDups).foldl (·.wake ·) s
  if s.bootState == 3 && !lines.isEmpty then (s, false)
  else if !held.isEmpty then (s.awaitLeases who held, false)
  else if !away.isEmpty then
    ((away.filter (·.asked == 0)).foldl (·.askHolder ·) s, false)
  else if !halves.isEmpty then
    let new := halves.filter fun k => !s.hostAsked.contains k
    ({ s with hostAsked := s.hostAsked ++ new, hostOut := s.hostOut ++ new.map HostMsg.backInvalidate }, false)
  else
    let s := hlines.foldl (fun s l => s.enterFilter d data.isSome l) s
    (if data.isSome then { s with leaseWaits := s.leaseWaits.filter (fun w => w.acc != who) } else s, true)

/-- The bytes of a line as a facet holds them (R80, R418): each element rounded; the line itself at the storage format. A poisoned line's
are error bytes (R357). -/
def State.facetBytes (s : State) (line facet sfmt : Nat) : List Byte :=
  let bs := if s.dpoison.contains line then List.replicate 128 0xFF else s.lineBytes false line
  if facet == 7 then bs
  else
    let a := facetTag sfmt
    let f := facetTag facet
    (chunks (a.width / 8) bs (128 / (a.width / 8))).flatMap fun x => toBytes (f.width / 8) (convElem a f x).1

/-- Push new rounded values to push-mode holders whose lease had ended, with a fresh lease, each counted (R418, R440); a lost peer's lease has
ended for good (R461). -/
def State.pushLeases (s : State) (lines : List Nat) : State :=
  let hit (e : Lease) : Bool := e.ended && lines.contains e.line
  let s := { s with leases := s.leases.filter fun e => !(hit e && (s.peer e.pos.toNat).lost) }
  let s1 := (s.leases.filter hit).foldl (fun s e =>
    let d := s.homeDie (128 * e.line)
    ((s.modDie d fun di => { di with fpush := di.fpush + 1 }).sendMsg d e.pos.toNat e.die tPush 0 0 0
      (mkWord [(128 * e.line, 0), (if s.dpoison.contains e.line then 1 else 0, 63)])
      ([1] ++ toBytes 3 (s.leaseEnd d) ++ List.replicate 4 0 ++ toBytes 8 e.line ++ s.facetBytes e.line e.facet e.sfmt)).1) s
  { s1 with leases := s1.leases.map fun e =>
      if hit e then { e with ended := false, fin := s1.leaseEnd (s1.homeDie (128 * e.line)) } else e }

/-- A store performed by a core through a pointer of a scope, marking the lines of some of its places poisoned (R211): outside the
pointer's instance it is not yet published (R332). -/
def State.coreStore (s : State) (b : Block) (scope : Nat) (pv : List (Place × Byte)) (po : List Place) : State :=
  let us := s.unpubOf b.coreKey scope (placeLines (pv.map (·.1)))
  let t := (po.foldl (fun s p => s.setPoison p true) (s.storeBy (some b.coreKey) pv)).pushLeases ((devLines pv).map (·.1))
  { t with unpub := t.unpub ++ us }

/-! ## Backed scratchpad lines (R297 to R300) -/

/-- A backed line's bytes await a fill or a refill. -/
def Block.needsFill (b : Block) (line : Nat) : Bool :=
  (b.backing line).isSome &&
    match Sparse.find? b.lines line with
    | some l => l.stale
    | none => true

inductive Filled where
  | ok
  | wait
  | fault (va kind : Nat)
deriving DecidableEq, Repr

/-- Fill a line from its backing memory, a load at die scope: bytes whose dirty bit is clear take the memory's value (R297, R300). -/
def State.fillLine (s : State) (blk line : Nat) : State × Filled :=
  match s.block? blk with
  | none => (s, .ok)
  | some b =>
    match b.backing line with
    | none => (s, .ok)
    | some (_, va) =>
      match s.spots b.view va 128 .read .device with
      | (s, .fault va k) => (s, .fault va k)
      | (s, .wait) => (s, .wait)
      | (s, .ok ps) =>
       match s.letIn (2 ^ 61 + blk) b.die ps none with
       | (s, false) => (s, .wait)
       | (s, true) =>
        let dirty := ((Sparse.find? b.lines line).map (·.dirty)).getD 0
        let bad := ps.any s.badByte
        let bs := s.readPlaces ps
        let scr := (List.range 128).foldl (fun m k =>
          if dirty.getLsbD k then m else Sparse.set 0 m (128 * line + k) (bs.getD k 0)) b.scratch
        let back := match ps.head? with
          | some (.dev a) => a / 4096
          | _ => 2 ^ 64
        (s.setBlock { b with scratch := scr, lines := Sparse.put b.lines line ⟨false, dirty, back⟩,
                             scrPoison := if bad then insertLine line b.scrPoison else b.scrPoison }, .ok)

/-- The first backed line of some places that awaits a fill. -/
def State.unfilled (s : State) (ps : List Place) : Option (Nat × Nat) :=
  ps.findSome? fun p => match p with
    | .scr blk o => (s.block? blk).bind fun b => if b.needsFill (o / 128) then some (blk, o / 128) else none
    | _ => none

/-- Write back a dirty backed line: only its dirty bytes, as a store at die scope that leaves the block's own lines as
they are (R299, R300). Bytes on a refused page stay unwritten (R465). Of a poisoned line nothing is known to write: its backing line is
marked poisoned instead (R357; DESIGN CHOICE, log 97). -/
def State.writeBackLine (s : State) (b : Block) (line : Nat) : State × Filled :=
  match b.backing line, Sparse.find? b.lines line with
  | some (r, va), some l =>
    let clean (s : State) : State := s.modBlock b.id fun b => { b with lines := Sparse.put b.lines line { l with dirty := 0 } }
    if r.nowb || l.dirty = 0 then (s, .ok)
    else if b.wbRefused.contains (va / 2 ^ 16) then (clean s, .ok)
    else
      match s.spots b.view va 128 .write .device with
      | (s, .fault va k) => (s, .fault va k)
      | (s, .wait) => (s, .wait)
      | (s, .ok ps) =>
        let pv := (List.range 128).filterMap fun k =>
          if l.dirty.getLsbD k then (ps[k]?).map fun p => (p, Sparse.get 0 b.scratch (128 * line + k)) else none
        match s.letIn b.id b.die (pv.map (·.1)) (some (pv.map (·.2))) with
        | (s, false) => (s, .wait)
        | (s, true) =>
          let s1 := if b.scrPoison.contains line then (pv.take 1).foldl (fun s e => s.setPoison e.1 true) s else s.storeBytes pv
          (clean ((s1.pushLeases ((devLines pv).map (·.1))).modBlock b.id fun q => { q with lines := b.lines }), .ok)
  | _, _ => (s, .ok)

/-- SCRATCHPAD_WRITEBACK (R299): at any moment after a write. -/
def execScratchpadWriteback (blk line : Nat) (s : State) : Out :=
  match s.block? blk with
  | none => .next s
  | some b =>
    if b.wbWaits.isSome then .next s
    else
      match s.writeBackLine b line with
      | (s, .ok) | (s, .wait) => .next s
      | (s, .fault va k) =>
        let r := s.engFault blk b.die va (kEngine + k)
        .next (r.1.modBlock blk fun b => { b with wbWaits := some r.2, wbStamp := (s.die b.die).quiesce })

/-- Dirty backed lines still to be written back. -/
def Block.dirtyLines (b : Block) : List Nat :=
  (b.lines.filter fun (k, l) => l.dirty != 0 && !((b.backing k).map (·.1.nowb)).getD true).map (·.1)

/-! ## Loads, stores and atomics performed -/

/-- The facet code of a load through a pointer: its view's code, or 7. -/
def Ptr.facetCode (p : Ptr) : Nat := if p.facet then p.vfmt else 7

/-- Register lines with their home for a core: at a facet, or at the storage format (R79, R93, R94). -/
def State.shareAt (s : State) (b : Block) (p : Ptr) (facet : Bool) (ls : List (Bool × Nat)) : State :=
  let f := if facet then p.facetCode else 7
  ls.foldl (fun s l => s.share l.1 l.2 b.coreKey f (if f == 7 then 0 else p.sfmt) p.submode) s

/-- A line of this POLICY enters no L1 cache (R89); synchronising accesses ignore it. -/
def Ptr.skipsL1 (p : Ptr) : Bool := !p.sync && (p.policy == 1 || p.policy == 3)

/-- Register the lines a load reads; a load under format ANY converts nothing and takes no facet. -/
def State.shareLines (s : State) (b : Block) (p : Ptr) (any : Bool) (ps : List Place) : State :=
  if p.skipsL1 then s else s.shareAt b p (!any) (placeLines ps)

/-- The new value of an atomic's element and its flags (R214). -/
def atomNew (op : AOp) (f : MFmt) (w old x : Nat) : Nat × Flags :=
  let sg := match f with
    | .tag t => tagSigned t
    | _ => false
  let v (a : Nat) : Int := if sg then signed w a else (a : Int)
  match op with
  | .add => ((old + x) % 2 ^ w, 0)
  | .min => (if v x < v old then x else old, 0)
  | .max => (if v old < v x then x else old, 0)
  | .and => (old &&& x, 0)
  | .or => (old ||| x, 0)
  | .xor => (old ^^^ x, 0)
  | .xchg => (x, 0)
  | .fadd =>
    match f with
    | .tag t =>
      let vs := [inFloat t old, inFloat t x]
      let r := (vs.getD 0 .nan).add .rne (vs.getD 1 .nan)
      let d := outFloat t .rne r
      (d.1, d.2 ||| invalidFlag vs r)
    | _ => (x, 0)

/-- The bytes an atomic writes over the old bytes, none for a failed comparison. -/
def atomBytes (k : AccKind) (f : MFmt) (x : LaneAcc) (old : List Byte) : Option (List Byte) :=
  match k with
  | .atom op => some (toBytes x.size (atomNew op f (8 * x.size) (ofBytes old) (ofBytes x.data)).1)
  | .cas => if old == x.cmp then some x.data else none
  | _ => none

/-- Earlier accesses of the lane that wait on a fault keep what an access finds where it is performed (R324, R342). -/
def State.keepFor (s : State) (a : Access) (lane : Nat) (ps : List Place) : State :=
  let mine (e : Access) (y : LaneAcc) : Bool := e.blk == a.blk && e.id < a.id && y.lane == lane && y.faulted
  if !s.accs.any fun e => e.las.any (mine e) then s
  else
    let now := ps.map fun p => (p, s.readByte p, s.badByte p)
    { s with accs := s.accs.map fun e =>
        { e with las := updWhere (mine e) (fun y => { y with kept := y.kept ++ now.filter fun k => !y.kept.any (·.1 == k.1) }) e.las } }

/-- What an access finds at its places: what it has kept, or what stands there. -/
def LaneAcc.found (x : LaneAcc) (ps : List Place) (got : List Byte) (bad : List Bool) : List (Byte × Bool) :=
  (ps.zip (got.zip bad)).map fun e => ((x.kept.find? (·.1 == e.1)).map (·.2)).getD e.2

/-- What a store writes: nothing where later stores of the lane have been performed. -/
def LaneAcc.due {α : Type} (x : LaneAcc) (pv : List (Place × α)) : List (Place × α) := pv.filter fun e => !x.kept.any (·.1 == e.1)

/-- A handler's store to its frame's image of V0 to V3 counts as a write of them (R354). -/
def State.noteFrame (s : State) (a : Access) (x : LaneAcc) : State :=
  s.modBlock a.blk fun b => b.modGroup (x.lane / 32) fun g =>
    match g.frame with
    | none => g
    | some f =>
      let lo := f.base + 0xB00
      let hit := (List.range x.size).filterMap fun k =>
        if f.raised.lanes.contains x.lane && lo ≤ x.addr + k && x.addr + k < lo + 0x400 then some (x.addr + k - lo) else none
      { g with frame := some { f with
          written := f.written ++ hit.map fun o => (x.lane / 32 * 32 + o % 256 / 8, 1000 + o / 256) } }

/-- Perform one lane's access on this device's own places: a synchronising load acquires, such a store releases, an atomic does both
(R328), and what they publish is published first (R331, R332). -/
def State.performHere (s : State) (b : Block) (a : Access) (x : LaneAcc) (ps : List Place) : State × LaneAcc :=
  let p := ptrOf x.ptr
  let s := s.keepFor a x.lane ps
  let bad := ps.map s.badByte
  match a.kind with
  | .load | .monitor =>
    let (s, got) := if p.sync then (s.acquireAt b.coreKey, s.readPlaces ps) else s.weakRead b.coreKey ps
    let r := x.found ps got bad
    (s.shareLines b p (a.fmt == .any) ps, { x with phase := .done, got := r.map (·.1), bad := r.map (·.2) })
  | .store =>
    let s := if p.sync then s.releaseAt b.coreKey p.scope else s
    ((s.coreStore b p.scope (x.due (ps.zip x.data)) ((x.due (ps.zip x.poison)).filterMap fun e => if e.2 then some e.1 else none)).noteFrame a x,
     { x with phase := .done })
  | k =>
    let r := x.found ps (s.readPlaces ps) bad
    let s := (s.acquireAt b.coreKey).releaseAt b.coreKey p.scope
    let x1 := { x with phase := .done, got := r.map (·.1), bad := r.map (·.2) }
    if r.any (·.2) then (s, x1)
    else
      match atomBytes k a.fmt x (r.map (·.1)) with
      | some bs => ((s.coreStore b p.scope (x.due (ps.zip bs)) []).noteFrame a x, x1)
      | none => (s.shareLines b p (a.fmt == .any) ps, x1)

/-- A lane's access completes with an error (R213, R353): a load or atomic reads the error value where a line has not answered, a store
writes nothing. -/
def LaneAcc.error (x : LaneAcc) : LaneAcc :=
  let n := x.size - x.got.length
  { x with phase := .done, got := x.got ++ List.replicate n 0xFF, bad := x.bad ++ List.replicate n true }

/-! ## Accesses to a peer (R416, R426, R435) -/

/-- The body of a synchronising access sent to the home (its layout is the model's own, log 8): kind, format, size, poison, then
the data and the comparison value. -/
def syncBody (k : AccKind) (f : MFmt) (n : Nat) (data cmp : List Byte) (poison : Bool) : List Byte :=
  let kc : Nat := match k with
    | .load | .monitor => 0
    | .store => 1
    | .cas => 2
    | .atom .add => 3 | .atom .min => 4 | .atom .max => 5 | .atom .and => 6 | .atom .or => 7 | .atom .xor => 8
    | .atom .xchg => 9 | .atom .fadd => 10
  let fc : Nat := match f with
    | .tag t => tagCode t
    | _ => 12
  let pad (l : List Byte) : List Byte := l ++ List.replicate (roundUp l.length 16 - l.length) 0
  [BitVec.ofNat 8 kc, BitVec.ofNat 8 fc, BitVec.ofNat 8 n, if poison then 1 else 0] ++ List.replicate 12 0 ++ pad data ++ pad cmp

/-- A store to a peer is dropped (R426, R435): counted, and the group's path to it is broken for what was issued after it. -/
def State.dropStore (s : State) (blk grp pos id : Nat) : State :=
  { s.modBlock blk fun b => b.modGroup grp fun g =>
      if g.broken.any (·.pos == BitVec.ofNat 4 pos) then
        { g with broken := updWhere (·.pos == BitVec.ofNat 4 pos) (fun q => { q with since := min q.since id }) g.broken }
      else { g with broken := g.broken ++ [⟨BitVec.ofNat 4 pos, id, []⟩] }
    with fabDrop := satInc s.fabDrop }

/-- A group's path to a peer is broken for an access (R435). -/
def Group.brokenFor (g : Group) (pos id : Nat) : Bool := g.broken.any fun q => q.pos == BitVec.ofNat 4 pos && q.since < id

/-- A load or atomic on a broken path completes a lane with the error value; once it is complete it ends the break, if it is the first. -/
def State.markBreak (s : State) (a : Access) (pos : Nat) (x : LaneAcc) : State :=
  if a.kind == .store then s
  else s.modBlock a.blk fun b => b.modGroup (x.lane / 32) fun g =>
    { g with broken := updWhere (·.pos == BitVec.ofNat 4 pos) (fun q => { q with enders := q.enders ++ [a.id] }) g.broken }

/-- A load or atomic has completed in some lanes: a break of their groups that it was to end ends (R435). -/
def State.endBreak (s : State) (a : Access) (lanes : List Nat) : State :=
  s.modBlock a.blk fun b => (homesOf lanes).foldl (fun b g => b.modGroup g fun gr =>
    { gr with broken := gr.broken.filter fun q => !q.enders.contains a.id }) b

def State.lostLane (s : State) (a : Access) (pos : Nat) (x : LaneAcc) : State × LaneAcc :=
  if a.kind == .store then (s.dropStore a.blk (x.lane / 32) pos a.id, { x with phase := .done }) else (s, x.error)

/-- The next bytes of a lane's access: it is done, or walks on to its next line. -/
def LaneAcc.more (x : LaneAcc) (bs : List Byte) (poison : Bool) : LaneAcc :=
  let got := x.got ++ bs
  { x with got := got, bad := x.bad ++ List.replicate bs.length poison, phase := if x.size ≤ got.length then .done else .walk }

/-- Bytes written over those of a line held exclusively. -/
def RemoteLine.store (r : RemoteLine) (off : Nat) (bs : List Byte) (poison : Bool) : RemoteLine :=
  let k := off - r.off
  { r with bytes := r.bytes.take k ++ bs ++ r.bytes.drop (k + bs.length), bad := r.bad || poison }

/-- The facet pair that a read of a peer's line asks for (R93); a load under format ANY converts nothing and takes no facet. -/
def Ptr.facetAsked (p : Ptr) (any : Bool) : Nat :=
  if p.cls == clShared && p.scope == 5 && p.facet && !any then facetPair p.vfmt p.sfmt else 15

/-- Ask the home of a peer's line: for a copy (leased for a read-shared load of pod scope), for ownership, or to perform a synchronising
access or atomic there (R333, R416); a release publishes what its core stored in this device (R328, R332). A line of POLICY home stays in
its home's slice alone (R89). -/
def State.askPeer (s : State) (b : Block) (a : Access) (x : LaneAcc) (pos die exp gen tenant o n : Nat) (sync : Bool) : State × LaneAcc :=
  let p := ptrOf x.ptr
  let k := x.got.length
  let (type, body) :=
    if sync then (tSync, syncBody a.kind a.fmt n ((x.data.drop k).take n) x.cmp (((x.poison.drop k).take n).any (·)))
    else if a.kind == .store then (tOwn, [])
    else (if p.cls == clShared && p.scope == 5 then tReadShared else tRead, [])
  let facet := p.facetAsked (a.fmt == .any)
  match s.sendMsg b.die pos die type tenant exp gen (reqWord o n facet (p.submode && facet != 15)) body with
  | (s, none) => s.lostLane a pos x
  | (s, some m) =>
    let s := if sync && x.releases a.kind then s.releaseAt b.coreKey 6 else s
    (s.ask m (.lane a.id x.lane) (!sync && a.kind != .monitor && p.policy != 3),
      { x with phase := .sent m.seq ((List.range x.size).map fun j => .peer pos die exp gen tenant (o - k + j)) })

/-- The next line of a lane's access to a peer: from the die's slice where it holds the bytes, else by a request to the home. -/
def State.performPeer (s : State) (b : Block) (a : Access) (x : LaneAcc) (pos die exp gen tenant off : Nat) : State × LaneAcc :=
  let p := ptrOf x.ptr
  let k := x.got.length
  let o := off + k
  let n := min (x.size - k) (128 - o % 128)
  if (b.group (x.lane / 32)).brokenFor pos a.id then (s.markBreak a pos x).lostLane a pos x
  else if (s.peer pos).lost then s.lostLane a pos x
  else
    let sync := p.sync || (a.kind != .load && a.kind != .store && a.kind != .monitor)
    let held := if sync || a.kind == .monitor then none
      else s.copyFor b.die pos die exp gen tenant o n (if a.kind == .load then p.facetAsked (a.fmt == .any) else 16)
    let bs := (x.data.drop k).take n
    let po := ((x.poison.drop k).take n).any (·)
    match a.kind, held with
    | .load, some r => (s, x.more ((r.bytes.drop (o - r.off)).take n) r.bad)
    | .store, some r =>
      if r.excl then ({ s with remotes := updWhere (· == r) (·.store o bs po) s.remotes }, x.more (List.replicate n 0) false)
      else s.askPeer b a x pos die exp gen tenant o n sync
    | _, _ => s.askPeer b a x pos die exp gen tenant o n sync

/-! ## Which accesses may be performed (R212, R324 to R328) -/

/-- An earlier operand-log entry of one of the groups is being replayed (R353). -/
def State.replayBefore (s : State) (blk id : Nat) (gs : List Nat) : Bool :=
  (s.accs.any fun e => e.blk == blk && e.id < id && e.logged && !e.deferred && gs.any e.groups.contains &&
    e.las.any fun y => match y.phase with
      | .walk => true
      | .placed _ => true
      | _ => false) ||
  s.longs.any fun o => o.blk == blk && o.id < id && o.isHld && o.waits.isNone && !o.deferred && gs.any o.groups.contains

/-- An earlier access of the lane must be performed first, a lower lane of the same store on the same bytes, or, at a replay, an
earlier entry of the log. -/
def State.laneHeld (s : State) (a : Access) (x : LaneAcc) : Bool :=
  (a.logged && s.replayBefore a.blk a.id a.groups) ||
  (s.accs.any fun e => e.blk == a.blk && e.id < a.id && !e.deferred &&
    e.las.any fun y => y.lane == x.lane && !y.done &&
      match s.block? a.blk with
      | some b => s.precedes b e.kind y a.kind x
      | none => mustPrecede e.kind y a.kind x) ||
  (a.kind == .store && a.las.any fun y => y.lane < x.lane && !y.done && y.overlaps a.kind a.kind x)

/-- Perform one lane's access if it may be. -/
def State.performLane (s : State) (b : Block) (a : Access) (x : LaneAcc) : State × LaneAcc :=
  match x.phase with
  | .refused _ => (s, x.error)
  | .placed ps =>
    if s.laneHeld a x || (s.unfilled ps).isSome then (s, x)
    else
      match ps.head? with
      | some (.peer pos die exp gen tenant off) => s.performPeer b a x pos die exp gen tenant off
      | some .err =>
        if a.kind != .store then (s, x.error)
        else
          (if (ptrOf x.ptr).space == spPeer then s.logOwn b.die 0x03 (BitVec.ofNat 64 x.addr) (BitVec.ofNat 64 a.pc) else s,
           { x with phase := .done })
      | _ =>
        let data := match a.kind with
          | .load | .monitor => none
          | .store => some x.data
          | k => atomBytes k a.fmt x (s.readPlaces ps)
        match s.letIn a.id b.die ps data with
        | (s, false) => (s, x)
        | (s, true) => s.performHere b a x ps
  | _ => (s, x)

/-! ## Results of loads and atomics -/

/-- The bytes of register k of a load or of an atomic's old value. -/
def Access.regBytesOf (a : Access) (p : Ptr) : Nat :=
  if a.fmt == .any then 8 else viewBytes ((fmtOf p.sfmt).getD .any) ((fmtOf p.vfmt).getD .any) 1

/-- The registers a lane's completed access delivers (R210, R213 to R215). -/
def Access.result (a : Access) (x : LaneAcc) : LaneRes :=
  let p := ptrOf x.ptr
  let poison : Reg := ⟨BitVec.allOnes 64, .poison⟩
  match a.kind with
  | .load =>
    let n := a.regBytesOf p
    let sf := if a.fmt == .any then MFmt.any else (fmtOf p.sfmt).getD .any
    let vf := if a.fmt == .any then MFmt.any else (fmtOf p.vfmt).getD .any
    ⟨(List.range a.regs).map fun k =>
      if ((x.bad.drop (n * k)).take n).any (·) then poison
      else ⟨loadReg sf vf ((x.got.drop (n * k)).take n), loadTag vf k⟩, 0, none, none⟩
  | _ =>
    let fl := match a.kind with
      | .atom op => if x.bad.any (·) then 0 else (atomNew op a.fmt (8 * x.size) (ofBytes x.got) (ofBytes x.data)).2
      | _ => 0
    ⟨(List.range a.regs).map fun k =>
      if x.bad.any (·) then poison
      else ⟨BitVec.ofNat 64 (ofBytes ((x.got.drop (8 * k)).take 8)), loadTag a.fmt k⟩, fl, none, none⟩

/-- An X register is affected as a whole: where some position's bytes are an error value, every position delivered is (R213). -/
def spoilX (d : Opd) (rs : List (Nat × LaneRes)) : List (Nat × LaneRes) :=
  let bad (k : Nat) : Bool := rs.any fun q => (q.2.outs.getD k Reg.zero).tag == .poison
  let spoil (r : LaneRes) : LaneRes :=
    { r with outs := r.outs.zipIdx.map fun (o, k) => if bad k then ⟨BitVec.allOnes 64, .poison⟩ else o }
  match d with
  | .x _ => rs.map fun (l, r) => (l, spoil r)
  | _ => rs

/-- The writes of a completed access (R136, R216). -/
def Access.writes (a : Access) (b : Block) : List Wr :=
  let w : Work := { src := a.las.map (·.lane), recv := a.recv, pos := a.pos, groups := a.groups, desig := a.desig, acts := true }
  let rs := a.las.map fun x => (x.lane, a.result x)
  w.regWrites b a.dst (spoilX a.dst rs) ++ w.flagWrites rs

/-! ## WAITM's reads (R147) -/

def waitRel (r : WRel) (w m c : Nat) : Bool :=
  match r with
  | .eq => m == c
  | .ne => m != c
  | .geu => c ≤ m
  | .ltu => m < c
  | .ges => signed w c ≤ signed w m
  | .lts => signed w m < signed w c

/-- Lanes held at a monitor may begin their next run. -/
def Block.freeWaitm (b : Block) (mon : Nat) (p : Nat → Bool) : Block :=
  b.modLanes p fun _ ln => match ln.st with
    | .between n m (.waitm k) => if k == mon then { ln with st := .between n m .ready } else ln
    | _ => ln

/-- Lanes stand again at an instruction they have issued, which traps only now: their cohorts, at a wide scope the rendezvous they arrived
at, and the context of its issue. -/
def State.standAt (s : State) (b : Block) (sc : Scope) (members on : List Nat) (pc len : Nat) (i : Instr) : State × Block × Ctx :=
  let wide := sc != .lane
  let gs := homesOf on
  let k0 := s.nextId
  let ks : List Cohort := gs.zipIdx.map fun (g, n) =>
    { id := k0 + 1 + n, grp := g, lanes := on.filter fun l => l / 32 == g, pc := pc, start := pc,
      stage := if wide then .rdv k0 else .held, wait := s.cycle, nextIssue := s.cycle + 1, promoted := false,
      fetched := some (pc, .instr i len) }
  let stall := ((Instr.fields i).map fun e => e.1.stall.toNat).getD 0
  let b1 := (b.modLanes (fun l => on.contains l) fun l ln =>
    { ln with st := .running (((ks.find? fun k => k.lanes.contains l).map (·.id)).getD 0), pc := pc,
              run := { ln.run with count := ln.run.count - 1, dist := ln.run.dist - (if ln.pc == pc then 0 else 1 + stall) } })
  let r : Rdv := { id := k0, scope := sc, pc := pc, instr := i, len := len, members := members,
                   arrived := ks.map (·.id), order := members, fired := true, nextIssue := 0 }
  let b2 := { b1 with cohorts := b1.cohorts.filter (fun k => !k.lanes.any on.contains) ++ ks,
                      rdvs := if wide then b1.rdvs ++ [r] else b1.rdvs }
  ({ s with nextId := k0 + 1 + ks.length }, b2,
   { blk := b.id, coh := if wide then k0 else ((ks.map (·.id)).headD 0), grp := gs.headD 0, lanes := on,
     pc := pc, len := len, wide := wide, members := if wide then members else [], order := members })

/-- A read of the monitored line gave the error value: the WAITM traps with POISON_USE, precise, at the WAITM (R147). -/
def State.waitmError (s : State) (b : Block) (m : Monitor) (ls : List Nat) (addr : Nat → Nat) : State :=
  let on := if m.scope != .lane then m.members.flatMap b.live else ls
  let (s1, b2, c) := s.standAt b m.scope m.members on m.pc m.len m.instr
  let s2 := { s1 with monitors := updWhere (fun q : Monitor => q.id == m.id)
                        (fun q => { q with lanes := q.lanes.filter fun e => !on.contains e.1 }) s1.monitors }
  s2.raise b2 c m.scope .poisonUse ls (fun l => ⟨0, BitVec.ofNat 64 (addr l), 0⟩) 0

/-- The reads of a monitor's access are done: satisfied lanes go on, the others await a further read. -/
def State.waitmDone (s : State) (b : Block) (a : Access) (m : Monitor) : State :=
  let w := if m.dword then 64 else 32
  let val (x : LaneAcc) : Nat := ofBytes x.got
  let sat (x : LaneAcc) : Bool := !x.bad.any (·) &&
    match m.lanes.find? (·.1 == x.lane) with
    | some (_, _, c) => waitRel m.rel w (val x) (c.toNat % 2 ^ w)
    | none => true
  let ok := (a.las.filter sat).map (·.lane)
  let err := a.las.filter fun x => x.bad.any (·)
  let left := m.lanes.filter fun e => !ok.contains e.1
  let b1 := b.freeWaitm m.id (if m.scope == .lane then ok.contains else fun l => !ok.isEmpty && m.members.contains (l / 32))
  let m1 := { m with lanes := left, readAt := (s.die b.die).time.toNat, armed := false }
  let s1 := { s.setBlock b1 with
    accs := s.accs.filter (·.id != a.id),
    monitors := if left.isEmpty then s.monitors.filter (·.id != m.id) else updWhere (·.id == m.id) (fun _ => m1) s.monitors }
  match err with
  | [] => s1
  | x :: _ => (s1.waitmError b1 m1 (err.map (·.lane)) fun l => ((err.find? (·.lane == l)).getD x).addr) |> fun t =>
      { t with monitors := t.monitors.filter fun q => q.id != m.id || !q.lanes.isEmpty }

/-- WAITM_REREAD (R147): a further read after a coherence message or 4 µs. -/
def execWaitmReread (id : Nat) (s : State) : Out :=
  match s.monitors.find? (·.id == id) with
  | none => .next s
  | some m =>
    match s.block? m.blk with
    | none => .next s
    | some b =>
      if s.accs.any (·.id == id) || m.lanes.isEmpty then .next s
      else
        let z := if m.dword then 8 else 4
        let las := m.lanes.map fun (l, pv, _) => { (s.laneAcc b ⟨.load, .any, 1, z⟩ l pv 0 .zero).1 with size := z }
        let a : Access :=
          { id := id, blk := b.id, grp := m.members.headD 0, die := b.die, stamp := (s.die b.die).quiesce, pc := m.pc,
            kind := .monitor, fmt := .any, regs := 1, width := z, scope := m.scope, dst := .zero, tag := 0, logged := false,
            deferred := false, las := las, recv := [], pos := [], groups := m.members, desig := (las.map (·.lane)).headD 0 }
        .next { s with accs := s.accs ++ [a],
                       monitors := updWhere (·.id == id) (fun m => { m with armed := false }) s.monitors }

/-! ## ACCESS_PERFORMED -/

/-- Act on an access all of whose lanes are done: a store is counted, a monitor compares, a load or atomic's result is
ready under its tag. -/
def State.finishAccess (s : State) (a : Access) : State :=
  match s.block? a.blk with
  | none => { s with accs := s.accs.filter (·.id != a.id) }
  | some b =>
    match a.kind with
    | .store => ({ s with accs := s.accs.filter (·.id != a.id) } : State).finishOp a.blk a.id
    | .monitor =>
      match s.monitors.find? (·.id == a.id) with
      | some m => s.waitmDone b a m
      | none => { s with accs := s.accs.filter (·.id != a.id) }
    | _ => { s.endBreak a (a.las.map (·.lane)) with longs := updWhere (·.id == a.id) (fun o => { o with ready := true, wrs := a.writes b }) s.longs }

/-- A load or atomic of lane scope some of whose lanes await replay: its tag completes in the others (R36, R40, R352). They go on as
an operation of their own, whose result is ready. -/
def State.splitDone (s : State) (a : Access) : State :=
  match s.block? a.blk, s.longs.find? (·.id == a.id) with
  | some b, some o =>
    let dn := (a.las.filter (·.done)).map (·.lane)
    if a.scope != .lane || dn.isEmpty || !a.las.all fun x => x.done || x.faulted then s
    else
      let part (p : Nat → Bool) (a : Access) : Access :=
        { a with las := a.las.filter fun x => p x.lane, recv := a.recv.filter fun e => p e.2 }
      let cut (p : Nat → Bool) (o : LongOp) : LongOp :=
        { o with lanes := o.lanes.filter p, recv := o.recv.filter fun e => p e.2 }
      let own : LongOp := { cut dn.contains o with id := s.nextId, body := .wrs, ready := true, wrs := (part dn.contains a).writes b }
      { s.endBreak a dn with
        nextId := s.nextId + 1,
        longs := updWhere (·.id == a.id) (cut fun l => !dn.contains l) s.longs ++ [own],
        accs := updWhere (·.id == a.id) (part fun l => !dn.contains l) s.accs }
  | _, _ => s

/-- SCRATCHPAD_FILL (R297): fill a backed line; a fault belongs to the accesses that touch the line. -/
def execScratchpadFill (blk line : Nat) (s : State) : Out :=
  match s.block? blk with
  | none => .next s
  | some b =>
    if !b.needsFill line then .next s
    else
      match s.fillLine blk line with
      | (s, .ok) | (s, .wait) => .next s
      | (s, .fault va k) =>
        let on (x : LaneAcc) : Bool := match x.phase with
          | .placed ps => s.unfilled ps == some (blk, line)
          | _ => false
        .next (s.accs.foldl (fun s a =>
          if a.las.any on then
            let (s, ph, _) := s.laneFault a [] b.die va k
            let a1 := { a with las := a.las.map fun x => if on x then { x with phase := ph } else x }
            ((s.setAccess a1).splitDone a1).settleDrains
          else s) s).fillLog

/-- Put a lane's access back and finish the access when every lane is done. -/
def State.afterLane (s : State) (id : Nat) : State :=
  match s.accs.find? (·.id == id) with
  | none => s
  | some a => if a.las.all (·.done) then ((s.finishAccess a).settleDrains).fillLog else (s.splitDone a).settleDrains

def State.setLane (s : State) (id : Nat) (x : LaneAcc) : State :=
  { s with accs := updWhere (·.id == id) (fun a => { a with las := updWhere (fun y : LaneAcc => y.lane == x.lane) (fun _ => x) a.las }) s.accs }

/-- Perform the lanes of an access in an order. -/
def State.performLanes (s : State) (id : Nat) : List Nat → State
  | [] => s
  | l :: ls =>
    let s1 := match s.accs.find? (·.id == id) with
      | none => s
      | some a =>
        match s.block? a.blk, a.las.find? (fun x : LaneAcc => x.lane == l) with
        | some b, some x => let r := s.performLane b a x; r.1.setLane id r.2
        | _, _ => s
    s1.performLanes id ls

/-! ## Appends (R235, R266, R267, R372) -/

/-- An append waits: on a fault, for an earlier one of its instruction (R232) or of the lanes it follows, or for their earlier accesses
(a release in every stream). -/
def State.appendHeld (s : State) (b : Block) (a : Append) : Bool :=
  a.waits.isSome || (s.appends.any fun e => e.id < a.id && e.blk == a.blk && (e.op == a.op || e.issuers.any a.issuers.contains)) ||
    !s.performedBefore b a.issuers a.op

/-- An append ends: what its core stored is published with it, a LAUNCH being a release at package scope (R328, R332). -/
def State.endAppend (s : State) (a : Append) : State :=
  let core := ((s.block? a.blk).map (·.coreKey)).getD 0
  (({ s with appends := s.appends.filter (·.id != a.id) } : State).releaseAt core 4).settleAppend a.blk a.op

/-- The places of an append's access to virtual memory, then what follows; a fault is recorded and the append stays outstanding. -/
def State.appendAt (s : State) (a : Append) (va n : Nat) (need : Need) (side : Side) (k : State → List Place → State) : State :=
  match s.spots a.die va n need side with
  | (s, .ok ps) => k s ps
  | (s, .wait) => s
  | (s, .fault va kind) =>
    let r := s.engFault a.id a.die va (kEngine + kind)
    { r.1 with appends := updWhere (·.id == a.id) (fun a => { a with waits := some r.2 }) r.1.appends }

/-- Writes made together once all of them may be; otherwise the append is tried again. -/
def State.appendPut (s : State) (a : Append) (ws : List (List Place × List Byte)) (k : State → State) : State :=
  let ps := ws.flatMap (·.1)
  let bs := ws.flatMap (·.2)
  match s.letIn a.id a.die ps (some bs) with
  | (s, false) => s
  | (s, true) => k ((s.storeBytes (ps.zip bs)).pushLeases ((devLines (ps.zip bs)).map (·.1)))

/-- Read for an append: bytes as the home gives them, once it may. -/
def State.appendGet (s : State) (a : Append) (ps : List Place) (k : State → List Byte → State) : State :=
  match s.letIn a.id a.die ps none with
  | (s, false) => s
  | (s, true) => k s (s.readPlaces ps)

/-- SENDL's append (R266): the entry, then `LPROD`; it waits while the list is full. A control block that has become invalid since the
checks at issue takes the entry as its fields place it, and the entry fails at its acceptance; one whose line has become poisoned gives no
`LPROD`: nothing is appended, and the error log says so (DESIGN CHOICE, log 85). -/
def State.appendEntry (s : State) (a : Append) (cb src : BitVec 128) (dst len : Word) : State :=
  let at_ := (ptrOf cb).base
  s.appendAt a at_ 64 .both .device fun s ps => s.appendGet a ps fun s bs =>
    let sc := sendCtlOf bs
    if ps.any s.badByte then (s.endAppend a).logOwn a.die 0x05 (BitVec.ofNat 64 at_) (BitVec.ofNat 64 a.pc)
    else if 2 ^ sc.caplog ≤ sc.lprod - sc.lcons then s
    else
      s.appendAt a ((sc.ebase + 32 * (sc.lprod % 2 ^ sc.caplog)) % 2 ^ 64) 32 .write .either fun s es =>
        s.appendPut a [(es, toBytes 16 src.toNat ++ toBytes 8 dst.toNat ++ toBytes 8 len.toNat),
            ((ps.drop 0x10).take 8, toBytes 8 ((sc.lprod + 1) % 2 ^ 64))] fun s =>
          let iss : SendIss := ⟨sc.lprod + 1, a.blk, a.grp, a.pc, a.op, len, []⟩
          let mine (t : SendList) : Bool := t.die == a.die && t.addr == at_
          let lists :=
            if s.sendLists.any mine then updWhere mine (fun t => { t with issuers := t.issuers ++ [iss] }) s.sendLists
            else s.sendLists ++ [⟨a.die, cb, at_, false, none, a.stamp, [iss]⟩]
          ({ s with sendLists := lists } : State).endAppend a

/-- LAUNCH's append (R267, R372), one atomic action: `NEXT` zeroed, `QTAIL` exchanged, the old link written. -/
def State.appendHeader (s : State) (a : Append) (q hdr : Nat) : State :=
  s.appendAt a hdr 8 .write .device fun s hs => s.appendAt a (q + 8) 8 .both .device fun s qs =>
    s.appendGet a qs fun s old =>
      s.appendAt a (ofBytes old) 8 .write .device fun s os =>
        s.appendPut a [(hs, toBytes 8 0), (qs, toBytes 8 hdr), (os, toBytes 8 hdr)] (·.endAppend a)

/-- Perform an append if it may be. -/
def State.performAppend (s : State) (a : Append) : State :=
  match s.block? a.blk with
  | none => s.endAppend a
  | some b =>
    if s.appendHeld b a then s
    else
      match a.kind with
      | .send cb src dst len => s.appendEntry a cb src dst len
      | .launch q hdr => s.appendHeader a q hdr

/-! ## Writes of the die's own (R370, R374, R382, R396) -/

/-- Perform the writes of the dies' own in order, as far as their lines let them in. One whose page does not translate is skipped,
and logged where the rule says so. -/
def State.settlePosted (s : State) : List Posted → State
  | [] => s
  | p :: ps =>
    let d := p.view % 4
    let gone (s : State) : State := { s with posted := s.posted.filter (·.no != p.no) }
    match s.spots p.view p.va p.bytes.length .write .either with
    | (s, .fault va _) =>
      (if p.logged then (gone s).logOwn d 0x09 (BitVec.ofNat 64 va) 0 else gone s).settlePosted ps
    | (s, .wait) => s
    | (s, .ok pl) =>
      match s.letIn (postedWho p.no) d pl (some p.bytes) with
      | (s, false) => s
      | (s, true) =>
        (gone ((s.storeBytes (pl.zip p.bytes)).pushLeases ((devLines (pl.zip p.bytes)).map (·.1)))).settlePosted ps

/-- ACCESS_PERFORMED (R321): the lanes of an access whose turn it is are performed: those named first, then the rest in
lane order (R212, R214); or an append is performed. -/
def execAccessPerformed (id : Nat) (order : List Nat) (s : State) : Out :=
  match s.accs.find? (·.id == id) with
  | none =>
    match s.appends.find? (·.id == id) with
    | some a => .next (s.performAppend a)
    | none => .next s
  | some a =>
    if a.las.all (·.done) then .next s
    else
      let first := if a.kind == .store then [] else order
      .next ((s.performLanes id (first ++ (a.las.map (·.lane)).filter fun l => !first.contains l)).afterLane id)

end Sys2Proof.Machine
end

