-- ==== Sys2Proof/Machine/EngineIO.lean ====
section
/-! DEFINITION. How engine operations read and write memory through a pointer: translation, refused pages, backed lines,
lines of peers, and what they wait for (R235, R338, R465). -/

namespace Sys2Proof.Machine

/-- What one read or write of an engine gives: its value, a wait (with the state as it has moved on), or a fault. -/
inductive EngRes (α : Type) where
  | ok (s : State) (x : α)
  | wait (s : State)
  | fault (s : State) (die va kind : Nat)

def EngRes.bind {α β : Type} (r : EngRes α) (f : State → α → EngRes β) : EngRes β :=
  match r with
  | .ok s x => f s x
  | .wait s => .wait s
  | .fault s d va k => .fault s d va k

/-- Do something for each of a list of numbers, in order. -/
def engEach {α : Type} (f : State → Nat → EngRes α) : State → List Nat → EngRes (List α)
  | s, [] => .ok s []
  | s, k :: ks => (f s k).bind fun s x => (engEach f s ks).bind fun s xs => .ok s (x :: xs)

/-- Earlier accesses of the issuing lanes that a command follows (R338): those of its stream and every synchronising one. -/
def State.engWaits (s : State) (blk ord stream : Nat) (lanes : List Nat) : Bool :=
  s.accs.any fun a => a.blk == blk && a.id < ord && !a.deferred &&
    a.las.any fun x => !x.done && lanes.contains x.lane && ((ptrOf x.ptr).sync || (ptrOf x.ptr).stream == stream)

/-- A line of a peer for an engine operation: asked for once, then its reply; `keep`: what it brings may stay in the die's slice. -/
def State.engPeer (s : State) (d who pos die type tenant exp gen n key : Nat) (word : Word) (body : List Byte) (keep : Bool) :
    EngRes (List Byte × Bool) :=
  match s.engLines.find? fun e => e.op == who && e.pos == pos && e.off == key with
  | some e =>
    match e.got with
    | some r => .ok s r
    | none => .wait s
  | none =>
    match s.sendMsg d pos die type tenant exp gen word body with
    | (s, none) => .ok s (List.replicate n 0xFF, true)
    | (s, some m) =>
      .wait (({ s with engLines := s.engLines ++ [⟨who, pos, key, none⟩] } : State).ask m (.eng who pos key) keep)

/-- Forget the peer lines of an engine operation. -/
def State.dropLines (s : State) (who : Nat) : State := { s with engLines := s.engLines.filter (·.op != who) }

/-- The peer parameters of places, with the offsets they cover. -/
def peerOf : List Place → Option (Nat × Nat × Nat × Nat × Nat × Nat)
  | .peer pos die exp gen tenant off :: _ => some (pos, die, exp, gen, tenant, off)
  | _ => none

/-- Bytes of one line of a peer for an engine operation, from the die's slice where it holds them (R416). -/
def State.engPiece (s : State) (d who pos die tenant exp gen a z : Nat) : EngRes (List Byte × Bool) :=
  match s.engLines.any (fun e => e.op == who && e.pos == pos && e.off == a), s.copyFor d pos die exp gen tenant a z 15 with
  | false, some r => .ok s ((r.bytes.drop (a - r.off)).take z, r.bad)
  | _, _ => s.engPeer d who pos die tRead tenant exp gen z a (reqWord a z 15 false) [] true

/-- Bytes of one line of a peer are written by an engine operation: into the die's slice, which takes the line exclusively, or, where the
home keeps it, by writing them back at once (R416). False while the slice has still to take them. -/
def State.engOwn (s : State) (d who pos die tenant exp gen a z : Nat) (data : List Byte) (poison : Bool) : EngRes Bool :=
  match s.copyFor d pos die exp gen tenant a z 15 with
  | some r => if r.excl then .ok s false else ask s
  | none => ask s
where
  ask (s : State) : EngRes Bool :=
    (s.engPeer d who pos die tOwn tenant exp gen z (2 ^ 60 + a) (reqWord a z 15 false) [] true).bind fun s r =>
      if r.2 then .ok s true
      else
        (s.engPeer d who pos die tWriteBack tenant exp gen z (2 ^ 61 + a) (reqWord a z 15 poison) data false).bind fun s _ => .ok s true

/-- Read places for an engine operation: bytes, and which of them are errors or poisoned. -/
def State.engFetch (s : State) (who d : Nat) (ps : List Place) : EngRes (List Byte × List Bool) :=
  match peerOf ps with
  | some (pos, die, exp, gen, tenant, off) =>
    let n := ps.length
    (engEach (fun s k =>
        let a := max off (128 * k)
        s.engPiece d who pos die tenant exp gen a (min (off + n) (128 * (k + 1)) - a)) s
        ((List.range ((off + n - 1) / 128 - off / 128 + 1)).map (off / 128 + ·))).bind fun s ls =>
      .ok s (ls.flatMap (·.1), ls.flatMap fun l => List.replicate l.1.length l.2)
  | none =>
    match s.letIn who d ps none with
    | (s, false) => .wait s
    | (s, true) => .ok s (s.readPlaces ps, ps.map s.badByte)

/-- Make ready a write of places for an engine operation: of a peer's, the slice holds every line, or the bytes have been written back. -/
def State.engPrepare (s : State) (who d : Nat) (ps : List Place) (data : List Byte) (poison : Bool) : EngRes Unit :=
  match peerOf ps with
  | some (pos, die, exp, gen, tenant, off) =>
    let n := ps.length
    (engEach (fun s k =>
        let a := max off (128 * k)
        let z := min (off + n) (128 * (k + 1)) - a
        s.engOwn d who pos die tenant exp gen a z ((data.drop (a - off)).take z) poison) s
        ((List.range ((off + n - 1) / 128 - off / 128 + 1)).map (off / 128 + ·))).bind fun s _ => .ok s ()
  | none =>
    match s.letIn who d ps (some data) with
    | (s, false) => .wait s
    | (s, true) => .ok s ()

/-- Carry out a write made ready before. -/
def State.engCommit (s : State) (ps : List Place) (data : List Byte) (poison : Bool) : State :=
  match peerOf ps with
  | some (pos, die, exp, gen, tenant, off) =>
    let mine (r : RemoteLine) : Bool := r.excl && r.pos == pos && r.ddie == die && r.expidx == exp && r.egen == gen && r.tenant == tenant
    { s with remotes := updWhere mine (fun r =>
        let a := max off r.off
        let z := min (off + ps.length) (r.off + r.bytes.length)
        if a < z then r.store a ((data.drop (a - off)).take (z - a)) poison else r) s.remotes }
  | none =>
    let s1 := (s.storeBytes (ps.zip data)).pushLeases ((devLines (ps.zip data)).map (·.1))
    if poison then ps.foldl (fun s p => s.setPoison p true) s1 else s1

/-- The places of n bytes at an offset of a pointer for an engine operation; none where the page is refused, and none in the save aperture,
which no pointer reaches (R98; what an engine does there is the model's choice, log 99). -/
def State.engPlaces (s : State) (b : Block) (refused : List Nat) (kind : AccKind) (pv : BitVec 128) (o n : Nat) :
    EngRes (Option (List Place)) :=
  let x : LaneAcc := { lane := 0, ptr := pv, addr := s.addrOf b (ptrOf pv) o, size := n, data := [], cmp := [], poison := [],
                       phase := .walk, got := [], bad := [] }
  if s.check6 b (ptrOf pv) o n then .ok s none
  else
  match s.resolve b b.die kind x with
  | (s, .fault d va k) => if refused.contains (va / 2 ^ 16) then .ok s none else .fault s d va (kEngine + k)
  | (s, .wait) => .wait s
  | (s, .ok ps) =>
    match s.unfilled ps with
    | none => .ok s (some ps)
    | some (blk, line) =>
      match s.fillLine blk line with
      | (s, .ok) | (s, .wait) => .wait s
      | (s, .fault va k) => if refused.contains (va / 2 ^ 16) then .ok s none else .fault s b.die va (kEngine + k)

/-- Read n bytes at an offset of a pointer; a refused page, or the save aperture, gives error bytes. -/
def State.engRead (s : State) (b : Block) (who : Nat) (refused : List Nat) (pv : BitVec 128) (o n : Nat) :
    EngRes (List Byte × List Bool) :=
  if n = 0 then .ok s ([], [])
  else
    (s.engPlaces b refused .load pv o n).bind fun s ps =>
      match ps with
      | none => .ok s (List.replicate n 0xFF, List.replicate n true)
      | some ps => s.engFetch who b.die ps

/-- Make ready a write of bytes at an offset of a pointer: the places, none on a refused page. -/
def State.engReady (s : State) (b : Block) (who : Nat) (refused : List Nat) (pv : BitVec 128) (o : Nat) (data : List Byte)
    (poison : Bool) : EngRes (Option (List Place)) :=
  if data.isEmpty then .ok s none
  else
    (s.engPlaces b refused .store pv o data.length).bind fun s ps =>
      match ps with
      | none => .ok s none
      | some ps => (s.engPrepare who b.die ps data poison).bind fun s _ => .ok s (some ps)

/-! ## HLD (R249, R250) -/

/-- What reading a shape descriptor gives. -/
inductive Descr where
  | ok (x : BitVec 512)
  | stale
  | wait
  | fault (va kind : Nat)
deriving DecidableEq, Repr

/-- The virtual address of a handle's descriptor; none where the table is not in use or has no such slot (R249, R250). -/
def State.descrAddr (s : State) (d v : Nat) : Option Nat :=
  let tb := (s.die d).shtab.toNat
  let lg := bits tb 4 0
  if !bit tb 5 || 20 < lg || 2 ^ lg ≤ bits v 31 12 then none else some (bits tb 63 12 * 2 ^ 12 + 64 * bits v 31 12)

/-- Read the descriptor that a handle names. The bytes of a poisoned line are all ones, as R213 has it, and their generation is not
compared (DESIGN CHOICE, log 32). -/
def State.descriptor (s : State) (b : Block) (who v : Nat) : State × Descr :=
  match s.descrAddr b.die v with
  | none => (s, .stale)
  | some va =>
    match s.spots b.view va 64 .read .device with
    | (s, .fault va k) => (s, .fault va k)
    | (s, .wait) => (s, .wait)
    | (s, .ok ps) =>
      match s.letIn who b.die ps none with
      | (s, false) => (s, .wait)
      | (s, true) =>
        let s := ((placeLines ps).foldl (fun s l => s.share l.1 l.2 b.coreKey 7 0 false) s).acquireAt b.coreKey
        let x : BitVec 512 := BitVec.ofNat 512 (ofBytes (s.readPlaces ps))
        if ps.any s.badByte then (s, .ok (BitVec.allOnes 512))
        else if shGet x 13 != bits v 11 0 || shGet x 13 == 4095 then (s, .stale)
        else (s, .ok x)

/-- An earlier access of the member lanes that HLD's acquire at die scope follows: one that faulted (R342), and one that is not yet
performed and acquires, synchronises at this die or covers bytes of the descriptor (R324, R328, R330). -/
def State.hldFollows (s : State) (b : Block) (gs : List Nat) (va : Nat) : Bool :=
  let y : LaneAcc := { lane := 0, ptr := ({ ptrOf 0 with space := spGlobal } : Ptr).pack, addr := va, size := 64, data := [],
                       cmp := [], poison := [], phase := .walk, got := [], bad := [] }
  s.accs.any fun a => a.blk == b.id && !a.deferred && a.las.any fun x => gs.contains (x.lane / 32) && !x.done &&
    (x.faulted || x.acquires a.kind || x.overlaps a.kind .load y || ((ptrOf x.ptr).sync && s.scopeInst b (ptrOf x.ptr) == (3, b.die)))

/-- HLD is outstanding: counted on LD, its H register in flight in every member group. -/
def State.hldIssue (s : State) (b : Block) (c : Ctx) (h : Head) (w : Work) (hr : Fin 16) (body : LongBody) (wrs : List Wr)
    (frec : Option Nat) : State :=
  let id := s.nextId
  let b1 := w.groups.foldl (fun b g => b.modGroup g fun gr => { gr with hPend := gr.hPend ++ [hr.val] }) (b.addOps w.groups id .ld)
  let o : LongOp := { id := id, blk := b.id, die := b.die, tag := 8, lanes := [], codes := [], dst := .zero, recv := [], pos := [],
                      groups := w.groups, desig := w.desig, scope := h.scope, stamp := (s.die b.die).quiesce, pc := c.pc, body := body,
                      ready := true, wrs := wrs, shown := [], drop := [], waits := frec, logged := false, deferred := false, refused := [] }
  { s.pass b1 c h with nextId := id + 1, longs := s.longs ++ [o] }

/-- HLD (R249, R250): reads the descriptor as an acquire at die scope. A stale handle traps; a translation fault is recorded, the HLD
takes an entry of the operand log and its group keeps issuing (R289, R352). -/
def execHld (h : Head) (hr : Fin 16) (handle : Opd) (s : State) : Out :=
  s.onceIssue (.hld h hr handle) h false [⟨handle, .int64⟩] .zero 0 fun b c w =>
    let v := b.num w handle
    if b.hBusy w.groups hr || b.ctrFull w.groups .ld || s.actionHeld b (w.groups.flatMap b.live) true || s.logHeld b w.groups ||
       ((s.descrAddr b.die v).map (s.hldFollows b w.groups)).getD false then .next (s.holdIssue c)
    else
      match s.descriptor b s.nextId v with
      | (s, .stale) => .next (s.trap b c h.scope .staleHandle [w.desig])
      | (s, .wait) => .next (s.holdIssue c)
      | (s, .ok x) => .next (s.hldIssue b c h w hr .wrs (w.groups.map fun g => .hreg g hr.val x) none)
      | (s, .fault va k) =>
        let r := s.recordFault b.die va (kLoad + k)
        .next (r.1.hldIssue b c h w hr (.hld hr.val (BitVec.ofNat 64 v) (.hld h hr handle) c.len) [] (some r.2)).fillLog

/-- Replay an HLD whose pages are serviced (R250, R353): its descriptor is read, or STALE_HANDLE is raised: at set or block scope in every
member, which stand held at the HLD (R289), else at the next instruction of its group (log 32). -/
def State.replayHld (s : State) (o : LongOp) (hr : Nat) (handle : Word) (i : Instr) (len : Nat) : State :=
  let mine (q : LongOp) : Bool := q.id == o.id
  match s.block? o.blk with
  | none => { s with longs := s.longs.filter (!mine ·) }
  | some b =>
    if s.replayBefore o.blk o.id o.groups then s
    else
      match s.descriptor b o.id handle.toNat with
      | (s, .wait) => s
      | (s, .fault va k) =>
        let r := s.recordFault b.die va (kLoad + k)
        { r.1 with longs := updWhere mine (fun q => { q with waits := some r.2 }) r.1.longs }
      | (s, .ok x) =>
        { s with longs := updWhere mine (fun q => { q with body := .wrs, wrs := o.groups.map fun g => .hreg g hr x }) s.longs }
      | (s, .stale) =>
        let free (b : Block) : Block := o.groups.foldl (fun b g => b.modGroup g fun gr => { gr with hPend := gr.hPend.erase hr }) b
        let raise (b : Block) : Block := b.modGroup (o.desig / 32) fun gr => { gr with due := gr.due ++ [(o.desig, .staleHandle)] }
        let s1 : State := { s with longs := s.longs.filter (!mine ·) }
        if o.scope == .set || o.scope == .block then
          let s2 := ((s1.modBlock o.blk free).finishOp o.blk o.id).fillLog
          match s2.block? o.blk with
          | none => s2
          | some b =>
            let (s3, b3, c) := s2.standAt b o.scope o.groups (o.groups.flatMap b.live) o.pc len i
            s3.trap b3 c o.scope .staleHandle [o.desig]
        else ((s1.modBlock o.blk fun b => raise (free b)).finishOp o.blk o.id).fillLog

end Sys2Proof.Machine
end

