-- ==== Sys2Proof/Machine/Actions.lean ====
section
/-! DEFINITION. Memory actions (R224 to R226): what PWIDEN, PNARROW, SUBSCR and UPGR do to the lines of their ranges, here and at peers. -/

namespace Sys2Proof.Machine

/-! ## Memory actions (R224 to R226) -/

/-- The lines of a range of a pointer that this package is home to; bytes that do not translate are skipped (R225). -/
def State.rangeLines (s : State) (b : Block) (pv : BitVec 128) (o n : Nat) : List (Bool × Nat) :=
  let p := ptrOf pv
  if n = 0 || p.space == spScratch then []
  else
    let a := s.addrOf b p o
    (((List.range ((a + n - 1) / 128 - a / 128 + 1)).filterMap fun k =>
      let x : LaneAcc := { lane := 0, ptr := pv, addr := max a ((a / 128 + k) * 128), size := 1, data := [], cmp := [], poison := [],
                           phase := .walk, got := [], bad := [] }
      match (s.resolve b b.view .load x).2 with
      | .ok [.dev y] => some (false, y / 128)
      | .ok [.host y] => some (true, y / 128)
      | _ => none)).eraseDups

/-- Is a core within the scope instance of a pointer (R320)? -/
def State.coreWithin (s : State) (b : Block) (p : Ptr) (core : Nat) : Bool :=
  match p.scope with
  | 0 | 1 => core == b.die * 192 + p.home
  | 2 => core / 192 * 48 + core % 192 / 4 == p.home
  | 3 => core / 192 == p.home
  | _ => p.scope == 5 || p.home == s.pos

/-- Ask for the copies of some lines that peers hold to be given up. -/
def State.recall (s : State) (lines : List Nat) : State × Bool :=
  let ls := s.leases.filter fun e => lines.contains e.line && !e.ended
  let hs := s.holders.filter fun h => lines.contains h.line
  let s1 := (ls.filter (·.asked == 0)).foldl (·.revoke ·) s
  ((hs.filter (·.asked == 0)).foldl (·.askHolder ·) s1, ls.isEmpty && hs.isEmpty)

/-- Ask the host for each half of some lines that it caches; true once it caches none. -/
def State.recallHost (s : State) (lines : List Nat) : State × Bool :=
  let halves := s.hostHeld.filter fun k => lines.contains (k / 2)
  let new := halves.filter fun k => !s.hostAsked.contains k
  ({ s with hostAsked := s.hostAsked ++ new, hostOut := s.hostOut ++ new.map HostMsg.backInvalidate }, halves.isEmpty)

/-- Bytes of a range that lie at a peer, line by line: the peer and its die, how the bytes are named there, their offset and count. -/
structure PeerPiece where
  pos : Nat
  die : Nat
  exp : Nat
  gen : Nat
  tenant : Nat
  off : Nat
  n : Nat

def State.peerPieces (s : State) (b : Block) (pv : BitVec 128) (o n : Nat) : List PeerPiece :=
  let p := ptrOf pv
  if n = 0 || p.space != spPeer then []
  else
    let a := s.addrOf b p o
    (List.range ((a + n - 1) / 128 - a / 128 + 1)).filterMap fun k =>
      let lo := max a ((a / 128 + k) * 128)
      let x : LaneAcc := { lane := 0, ptr := pv, addr := lo, size := 1, data := [], cmp := [], poison := [],
                           phase := .walk, got := [], bad := [] }
      match (s.resolve b b.view .load x).2 with
      | .ok [.peer pos die exp gen tenant off] => some ⟨pos, die, exp, gen, tenant, off, min (a + n) ((a / 128 + k + 1) * 128) - lo⟩
      | _ => none

/-- Act on each piece; true when every one is complete. -/
def State.eachPiece (s : State) (f : State → PeerPiece → State × Bool) (ps : List PeerPiece) : State × Bool :=
  ps.foldl (fun (acc : State × Bool) q => let r := f acc.1 q; (r.1, acc.2 && r.2)) (s, true)

def EngRes.closes {α : Type} : EngRes α → State × Bool
  | .ok s _ => (s, true)
  | .wait s => (s, false)
  | .fault s _ _ _ => (s, true)

/-- SUBSCR of a peer's bytes: a copy is fetched into the die's slice, as a load through the pointer asks for it (R93, R94, R225). -/
def State.fetchPiece (s : State) (b : Block) (who : Nat) (p : Ptr) (q : PeerPiece) : State × Bool :=
  let facet := p.facetAsked false
  if (s.copyFor b.die q.pos q.die q.exp q.gen q.tenant q.off q.n facet).isSome || p.policy == 3 then (s, true)
  else
    (s.engPeer b.die who q.pos q.die (if p.cls == clShared && p.scope == 5 then tReadShared else tRead) q.tenant q.exp q.gen q.n q.off
      (reqWord q.off q.n facet (p.submode && facet != 15)) [] true).closes

/-- UPGR of a peer's bytes: the facets that the die holds of them are fetched anew at the storage format (R94, R226). -/
def State.upgradePiece (s : State) (b : Block) (who : Nat) (q : PeerPiece) : State × Bool :=
  let mine (r : RemoteLine) : Bool := r.of b.die q.pos q.die q.exp q.gen q.tenant && r.facet != 15 && meets r.off r.bytes.length q.off q.n
  (s.remotes.filter mine).foldl (fun (acc : State × Bool) r =>
    match acc.1.engPeer b.die who r.pos r.ddie tReadShared r.tenant r.expidx r.egen r.bytes.length r.off
        (reqWord r.off r.bytes.length 15 false) [] true with
    | .ok t _ => ({ t with remotes := t.remotes.filter (· != r) }, acc.2)
    | .wait t => (t, false)
    | .fault t _ _ _ => (t, acc.2)) (s, true)

/-- PNARROW of a peer's bytes: the die takes their line exclusively, which every other holder gives up and every lease on it outlasts no
longer (R224, R416). -/
def State.narrowPiece (s : State) (b : Block) (who : Nat) (q : PeerPiece) : State × Bool :=
  let key := 2 ^ 60 + q.off
  match s.copyFor b.die q.pos q.die q.exp q.gen q.tenant q.off q.n 15 with
  | some r => if r.excl then (s, true) else ask key
  | none => ask key
where
  ask (key : Nat) : State × Bool :=
    match s.engPeer b.die who q.pos q.die tOwn q.tenant q.exp q.gen q.n key (reqWord q.off q.n 15 false) [] true with
    | .ok t r => if r.2 then (t, true)
      else ({ t with engLines := t.engLines.filter fun e => !(e.op == who && e.pos == q.pos && e.off == key) }, false)
    | .wait t => (t, false)
    | .fault t _ _ _ => (t, true)

/-- PNARROW over one range: dirty copies are written back, and those outside the new instance invalidated: other cores' and dies', facets
of device lines counted, the host's and other devices' (R224, R440). -/
def State.narrowRange (s : State) (b : Block) (who : Nat) (old : BitVec 128) (o n : Nat) (new : BitVec 128) : State × Bool :=
  let p := ptrOf new
  let bare := s.sharers.isEmpty && s.leases.isEmpty && s.holders.isEmpty && s.filter.isEmpty && s.unpub.isEmpty && s.hostHeld.isEmpty
  let lines := if bare then [] else s.rangeLines b old o n
  let s := s.publishLines lines
  let gone (h : Sharer) : Bool := lines.contains (h.host, h.line) && !s.coreWithin b p h.core
  let lost := s.sharers.filter fun h => gone h && h.facet != 7 && !h.host
  let s1 := lost.foldl (fun s h => s.modDie (s.homeDie (128 * h.line)) fun d => { d with finvl := d.finvl + 1 }) s
  let s2 := { s1 with sharers := s1.sharers.filter (!gone ·) }
  let s3 := if 3 < p.scope then s2 else
    ((lines.filter (·.1)).flatMap fun l => [2 * l.2, 2 * l.2 + 1]).foldl (fun s h =>
      ([0, 1, 2, 3].filter (· != b.die)).foldl (fun s d => s.leaveHalf d h) s) s2
  if p.scope == 5 then (s3, true)
  else
    let dev := (lines.filter fun l => !l.1).map (·.2)
    let r1 := s3.recall dev
    let r2 := if p.scope ≤ 3 then r1.1.recallHost dev else (r1.1, true)
    let r3 := r2.1.eachPiece (fun s q => s.narrowPiece b who q) (s.peerPieces b old o n)
    (r3.1, r1.2 && r2.2 && r3.2)

/-- PWIDEN to pod scope over lines of a peer: what this device still holds of stores there goes to their home (R224). -/
def State.widenRange (s : State) (b : Block) (old : BitVec 128) (o n : Nat) (new : BitVec 128) : State × Bool :=
  let p := ptrOf old
  match if p.space == spPeer && (ptrOf new).scope == 5 then s.import? b.view (p.base / 2 ^ 52) else none with
  | none => (s, true)
  | some i =>
    let at_ := p.base % 2 ^ 52 + o
    let mine (r : RemoteLine) : Bool := r.excl && r.pos == i.tpos && r.ddie == i.tdie && r.expidx == i.expidx &&
      meets r.off r.bytes.length at_ n
    let back (q : Request) : Bool := q.dest == i.tpos && match q.serves with
      | .back _ => true
      | _ => false
    let rs := s.remotes.filter mine
    (rs.foldl (·.giveBack none ·) s, rs.isEmpty && !s.requests.any back)

/-- SUBSCR over one range: its lines are registered for the core, those of host memory enter the filter, those of peers the die's slice
(R225, R421). -/
def State.subscrRange (s : State) (b : Block) (who : Nat) (pv : BitVec 128) (o n : Nat) : State × Bool :=
  let lines := s.rangeLines b pv o n
  let s1 := ((lines.filter (·.1)).flatMap fun l => [2 * l.2, 2 * l.2 + 1]).foldl (fun s h => s.enterFilter b.die false h) s
  (s1.shareAt b (ptrOf pv) true lines).eachPiece (fun s q => s.fetchPiece b who (ptrOf pv) q) (s.peerPieces b pv o n)

/-- UPGR over one range (R226). -/
def State.upgrRange (s : State) (b : Block) (who : Nat) (pv : BitVec 128) (o n : Nat) : State × Bool :=
  let lines := s.rangeLines b pv o n
  ({ s with sharers := updWhere (fun h => h.core == b.coreKey && lines.contains (h.host, h.line)) (fun h => { h with facet := 7 }) s.sharers } :
    State).eachPiece (fun s q => s.upgradePiece b who q) (s.peerPieces b pv o n)

/-- One range of an action; false while something of it is still out. -/
def State.actRange (s : State) (b : Block) (k : ActKind) (who : Nat) (r : BitVec 128 × Nat × Nat × BitVec 128) : State × Bool :=
  let (old, o, n, new) := r
  match k with
  | .widen => (s.publishLines (s.rangeLines b old o n)).widenRange b old o n new
  | .narrow => s.narrowRange b who old o n new
  | .subscr => s.subscrRange b who old o n
  | .upgr => s.upgrRange b who old o n

/-- An action may begin: earlier accesses of its lanes are performed, for widening and narrowing (R224). -/
def State.actionReady (s : State) (t : Action) : Bool :=
  !(t.kind == .widen || t.kind == .narrow) ||
    s.accs.all fun a => a.blk != t.blk || t.id < a.id || a.las.all fun x => x.done || !t.lanes.contains x.lane

/-- MEMORY_ACTION_CLOSE (R224, R226): the action's effect is complete and its count returns. -/
def execMemoryActionClose (id : Nat) (s : State) : Out :=
  match s.actions.find? (·.id == id) with
  | none => .next s
  | some t =>
    match s.block? t.blk with
    | none => .next s
    | some b =>
      if !s.actionReady t then .next s
      else
        let r := t.ranges.foldl (fun (acc : State × Bool) e => let q := acc.1.actRange b t.kind id e; (q.1, acc.2 && q.2)) (s, true)
        if r.2 then .next ((({ r.1 with actions := r.1.actions.filter (·.id != id) } : State).finishOp t.blk id).dropLines id)
        else .next r.1

end Sys2Proof.Machine
end

