-- ==== Sys2Proof/Machine/Convert.lean ====
section
/-! DEFINITION. Class 100: conversions between formats, block codes and scales (R183 to R193). -/

namespace Sys2Proof.Machine

/-! ## One value -/

/-- The value of an element, an integer or a float; subnormals kept (R72). -/
def elemVal (t : Tag) (x : Nat) : Val := if t.isInt then Val.ofInt (num t x) else (FF.ofTag t).value x

/-- CVT and CVTF8 of one element (R69 to R71, R186, R187). -/
def cvtElem (sf df : Tag) (rm : RM) (sat : Bool) (draw x : Nat) : Deliv :=
  if df.isInt then
    (if sf.isInt then narrow df sat (num sf x)
     else toIntDeliv (tagSigned df) df.width rm draw ((FF.ofTag sf).value x))
  else (FF.ofTag df).deliver rm sat draw (elemVal sf x)

/-- The 6-bit formats. -/
def FF.ofE : EFmt → FF
  | .tag t => FF.ofTag t
  | .e3m2 => .e3m2
  | .e2m3 => .e2m3
  | .b4 => .e2m1

/-- The code magnitudes of a block type in eighths (R62); type 0 is not listed here. -/
def codeMags (t : Nat) : List Nat :=
  if t = 1 then [0, 4, 8, 12, 16, 24, 32, 48]
  else if t = 2 then [0, 1, 2, 4, 8, 16, 32, 64]
  else [0, 8, 16, 24, 32, 48, 64, 96]

/-- code_value(t, c) × 2^(e − 31) (R62). -/
def codeVal (t e c : Nat) : Val :=
  if t = 0 then
    let i := signed 4 c
    .fin (i < 0) i.natAbs ((e : Int) - 31)
  else .fin (bit c 3) ((codeMags t).getD (c % 8) 0) ((e : Int) - 34)

/-- The magnitude, in eighths, that would follow the largest of a block type: the next binade's first (DEDUCED from R70's unbounded
grid, log 76). -/
def codeNext (t : Nat) : Nat := if t = 1 then 64 else 128

/-- Round a magnitude m·2^x, in eighths, to a magnitude index (R189): the index, inexact, clamped. A magnitude is beyond range when
it rounds past the largest (R70, R463). -/
def codeRound (t : Nat) (rm : RM) (neg : Bool) (m : Nat) (x : Int) (draw : Nat) : Nat × Bool × Bool :=
  let n := if 0 ≤ x then m * 2 ^ x.toNat else m
  let d := if 0 ≤ x then 1 else 2 ^ (-x).toNat
  let g := codeMags t
  if codeNext t * d ≤ n then (7, true, true)
  else
    let k := ((List.range 8).filter fun k => g.getD k 0 * d ≤ n).length - 1
    let lo := g.getD k 0 * d
    if n = lo then (k, false, false)
    else
      let up := stepsAway rm neg k (n - lo) (g.getD (k + 1) (codeNext t) * d - lo) draw
      if up && k == 7 then (7, true, true) else (k + (if up then 1 else 0), true, false)

/-- PACK4 of one value (R189). -/
def pack4Elem (sb : Nat) (rm : RM) (draw : Nat) : Val → Deliv
  | .nan => (0, Flags.nv)
  | .inf neg =>
    (if bits sb 7 6 = 0 then (if neg then 8 else 7) else (if neg then 15 else 7), Flags.ovf)
  | .fin neg m ex =>
    let t := bits sb 7 6
    let x := ex - ((bits sb 5 0 : Nat) - 31 : Int)
    if t = 0 then
      let (k, ix) := roundInt rm neg m x draw
      let i : Int := if neg then -(k : Int) else k
      let j := clamp (-8) 7 i
      (wrap 4 j, if i != j then Flags.ovf ||| Flags.inx else if ix then Flags.inx else 0)
    else
      let (k, ix, cl) := codeRound t rm neg m (x + 3) draw
      ((if neg then 8 else 0) + k, if cl then Flags.ovf ||| Flags.inx else if ix then Flags.inx else 0)

/-- The least e from 0 to 63 with |a| ≤ M·2^(e − 31), and the flags (R191). -/
def scaleExp (ty : Nat) : Val → Nat × Flags
  | .nan => (63, Flags.nv)
  | .inf _ => (63, Flags.ovf)
  | .fin _ m x =>
    let big := [7, 6, 8, 12].getD ty 7
    match (List.range 64).find? fun (e : Nat) =>
      let y := x - ((e : Int) - 31)
      m * 2 ^ y.toNat ≤ big * 2 ^ (-y).toNat with
    | some e => (e, 0)
    | none => (63, Flags.ovf)

/-! ## Draws (R68, R172) -/

/-- k draws of a generator: the draws and the state after. -/
def draws : Nat → Word → List Nat × Word
  | 0, g => ([], g)
  | k + 1, g =>
    let g1 := Config.rngNext g
    let r := draws k g1
    ((Config.rngDraw g1).toNat :: r.1, r.2)

/-- The draws of a lane for k results, and the state to write back: none outside SR. -/
def Lane.draw (ln : Lane) (rm : RM) (k : Nat) : List Nat × Option Word :=
  if rm == .sr then let r := draws k ln.rng; (r.1, some r.2) else (List.replicate k 0, none)

/-! ## Part merge (R185) -/

/-- Convert the part: ns source values of width sw at A, nd result positions of width dw over the old contents of C. -/
def mergePart (sw ns dw nd part : Nat) (a c : Word) (ds : List Nat) (f : Nat → Nat → Deliv) : Nat × Flags :=
  if ns < nd then
    let rs := (List.range ns).map fun k => f (ds.getD k 0) (elem sw a k)
    (packNat dw ((List.range nd).map fun j =>
      if ns * part ≤ j && j < ns * part + ns then (rs.getD (j - ns * part) (0, 0)).1 else elem dw c j), orFlags rs)
  else
    let rs := (List.range nd).map fun k => f (ds.getD k 0) (elem sw a (nd * part + k))
    (packNat dw (rs.map (·.1)), orFlags rs)

/-- The result of a conversion in a lane (R185): the part converted value by value, with the lane's draws and the lane's scale
source, over C's old contents. -/
def cvtRes (rm : RM) (part : Nat) (a b c : Opd) (al cl : LitAs) (sw ns dw nd : Nat) (tag : Tag) (f : Nat → Nat → Nat → Deliv)
    (bl : Block) (l : Nat) : LaneRes :=
  let dr := (bl.lane l).draw rm (min ns nd)
  let r := mergePart sw ns dw nd part (bl.read l al a).bits (bl.read l cl c).bits dr.1 (f (bl.read l .plain b).bits.toNat)
  ⟨[⟨BitVec.ofNat 64 r.1, tag⟩], r.2, none, dr.2⟩

/-- A conversion instruction: the checks of its sources, then its result. -/
def State.convert (s : State) (i : Instr) (h : Head) (rm : RM) (part : Nat) (d a b c : Opd) (ac bc cc : SrcSpec)
    (al cl : LitAs) (sw ns dw nd : Nat) (tag : Tag) (f : Nat → Nat → Nat → Deliv) : Out :=
  s.alu i h [ac, bc, cc] [] d 1 7 6 fun bl _ l => cvtRes rm part a b c al cl sw ns dw nd tag f bl l

/-- CVT (R186). -/
def execCvt (h : Head) (sf df : Tag) (rm : RM) (sat : Bool) (part : BitVec 2) (d a c : Opd) (s : State) : Out :=
  s.convert (.cvt h sf df rm sat part d a c) h rm part.toNat d a .zero c ⟨a, .fmt sf⟩ ⟨.zero, .raw⟩ ⟨c, .fmt df⟩
    (.as sf) (.as df) sf.width sf.count df.width df.count df fun _ r x => cvtElem sf df rm sat r x

/-- CVTF8 (R187). -/
def execCvtf8 (h : Head) (sf df : Tag) (rm : RM) (sat : Bool) (part : BitVec 2) (d a c : Opd) (s : State) : Out :=
  s.convert (.cvtf8 h sf df rm sat part d a c) h rm part.toNat d a .zero c ⟨a, .fmt sf⟩ ⟨.zero, .raw⟩ ⟨c, .fmt df⟩
    (.as sf) (.as df) sf.width sf.count df.width df.count df fun _ r x => cvtElem sf df rm sat r x

/-- PACK6 (R188): bits [63:48] of D are zero (R61). -/
def execPack6 (h : Head) (sf : Tag) (df : EFmt) (rm : RM) (part : BitVec 2) (d a c : Opd) (s : State) : Out :=
  s.convert (.pack6 h sf df rm part d a c) h rm part.toNat d a .zero c ⟨a, .fmt sf⟩ ⟨.zero, .raw⟩ ⟨c, .pack⟩
    (.as sf) (.as .n64) sf.width sf.count 6 8 .n64 fun _ r x => (FF.ofE df).deliver rm true r ((FF.ofTag sf).value x)

/-- PACK4 (R189). -/
def execPack4 (h : Head) (sf : Tag) (rm : RM) (part : BitVec 2) (o : O4) (s : State) : Out :=
  s.convert (.pack4 h sf rm part o) h rm part.toNat o.d o.a o.b o.c ⟨o.a, .fmt sf⟩ ⟨o.b, .scale⟩ ⟨o.c, .pack⟩
    (.as sf) (.as .n64) sf.width sf.count 4 16 .n64 fun sb r x => pack4Elem (sb % 256) rm r ((FF.ofTag sf).value x)

/-- UNPK (R190). -/
def execUnpk (h : Head) (sf : EFmt) (df : Tag) (rm : RM) (part : BitVec 2) (o : O3) (s : State) : Out :=
  let b4 := sf == .b4
  s.convert (.unpk h sf df rm part o) h rm part.toNat o.d o.a o.b .zero ⟨o.a, .pack⟩ ⟨o.b, .scale⟩ ⟨.zero, .raw⟩
    (.as .n64) .plain (if b4 then 4 else 6) sf.count df.width df.count df fun sb r x =>
      if b4 then (FF.ofTag df).deliver rm true r (codeVal (bits sb 7 6) (bits sb 5 0) x)
      else (FF.ofTag df).deliver rm false r ((FF.ofE sf).value x)

/-- SCLC (R191): the scale byte in all eight bytes. -/
def execSclc (h : Head) (sf : Tag) (ty : BitVec 2) (o : O2) (s : State) : Out :=
  s.alu (.sclc h sf ty o) h [⟨o.a, .fmt sf⟩] [] o.d 1 7 6 fun b _ l =>
    let r := scaleExp ty.toNat ((FF.ofTag sf).value (elem sf.width (b.read l (.as sf) o.a).bits 0))
    ⟨[⟨splat 8 8 (ty.toNat * 64 + r.1), .n8⟩], r.2, none, none⟩

/-! ## AMAX (R192) -/

/-- The lanes of the span that lane l lies in. -/
def spanLanes (sf : Tag) (sp : Span) (l : Nat) : List Nat :=
  let g := l / 32 * 32
  match sp with
  | .ln => [l]
  | .grp => (List.range 32).map (g + ·)
  | .blk => let k := 32 / sf.count; (List.range k).map (g + l % 32 / k * k + ·)

/-- The largest magnitude of encodings, the canonical NaN where one is a NaN. -/
def maxMag (f : FF) (xs : List Nat) : Nat :=
  if xs.any fun x => (f.value x).isNan then f.nanBits else (xs.map (· % 2 ^ (f.width - 1))).foldl max 0

/-- AMAX (R192): only active lanes contribute; at group scope or wider every non-exited lane of the home group does, and checks 4 to 7 of R46
are made in each of them (DESIGN CHOICE, log 102). -/
def execAmax (h : Head) (sf : Tag) (span : Span) (o : O2) (s : State) : Out :=
  s.issue (.amax h sf span o) h fun b c =>
    let w := b.work c h
    if !w.acts then .next (s.pass b c h)
    else
      let act (l : Nat) : Bool := if c.wide then !(b.lane l).exited else w.src.contains l
      let src := ((w.src.flatMap fun l => spanLanes sf span l).eraseDups).filter act
      s.gated b c (.amax h sf span o) h src (w.recv.map (·.1)) (⟨o.a, .fmt sf⟩ :: needs h o.d) (dstCodes o.d 1) []
        (let res (l : Nat) : LaneRes :=
           LaneRes.ofReg ⟨splat sf.width sf.count (maxMag (FF.ofTag sf)
             (((spanLanes sf span l).filter act).flatMap fun m => b.elems m sf o.a)), sf⟩
         .next (s.issueFixed b c h w o.d 7 8 (w.src.map fun l => (l, res l))))

end Sys2Proof.Machine
end

