-- ==== Sys2Proof/Machine/TileEvents.lean ====
section
/-! DEFINITION. Events of the tile store and the matrix engine: tile transfers, TZERO and TWIN performed, released slots
returned, passes granted and written (R75 to R78, R237, R239 to R247, R306, R307, R314 to R319, R356). -/

namespace Sys2Proof.Machine

/-! ## Slot contents -/

/-- Byte b of row r, and scale k of row r. -/
def OpSlot.byte (o : OpSlot) (r b : Nat) : Byte := Sparse.get 0 o.bytes (96 * r + b)
def OpSlot.scale (o : OpSlot) (r k : Nat) : Byte := Sparse.get 0 o.scales (6 * r + k)
def OpSlot.row (o : OpSlot) (r : Nat) : List Byte := (List.range 96).map (o.byte r)

/-- Write a whole row: bytes, scales, poison. -/
def OpSlot.setRow (o : OpSlot) (r : Nat) (bs sc : List Byte) (bad : Bool) : OpSlot :=
  { bytes := Sparse.setList 0 o.bytes (96 * r) ((List.range 96).map fun k => bs.getD k 0),
    scales := Sparse.setList 0 o.scales (6 * r) ((List.range 6).map fun k => sc.getD k 0),
    poison := if bad then o.poison ||| BitVec.ofNat 32 (2 ^ r) else o.poison &&& ~~~ BitVec.ofNat 32 (2 ^ r) }

def CSlot.elem (c : CSlot) (i j : Nat) : BitVec 36 := Sparse.get 0 c.el (16 * i + j)
def CSlot.setElem (c : CSlot) (i j : Nat) (v : BitVec 36) : CSlot := { c with el := Sparse.set 0 c.el (16 * i + j) v }
def CSlot.setPoison (c : CSlot) (i : Nat) (on : Bool) : CSlot :=
  { c with poison := if on then c.poison ||| BitVec.ofNat 32 (2 ^ i) else c.poison &&& ~~~ BitVec.ofNat 32 (2 ^ i) }

/-- Row r of a slot or window by its physical slots (R306). -/
def TileStore.winRow (t : TileStore) (phys : List Nat) (r : Nat) : OpSlot × Nat := (t.op (phys.getD (r / 32) 0), r % 32)

def TileStore.modOp (t : TileStore) (p : Nat) (f : OpSlot → OpSlot) : TileStore := t.setOp p (f (t.op p))

/-! ## Tile-store errors (R356) -/

/-- Poisoned rows found in a slot: TSTORE_ERR becomes pending for a block, or its count rises. -/
def State.tstoreErr (s : State) (blk slot rows : Nat) (remote : Bool) (rank : Nat) : State :=
  if rows = 0 then s
  else s.modBlock blk fun b =>
    match b.tsErr with
    | some e => { b with tsErr := some { e with rows := min 65535 (e.rows + rows) } }
    | none =>
      let gone := if remote then ((s.rankBlock b rank).map fun q => (Sparse.find? q.slots slot).isNone).getD true
        else (Sparse.find? b.slots slot).isNone
      { b with tsErr := some ⟨slot, min 65535 rows, gone, remote, rank⟩ }

/-- A WAITC on MM that waits is a point where a pending tile-store error is raised (R355): the lanes that issued the earliest such WAITC
together stand at it again, as the handler cohort. A group with an open trap is passed over. -/
def State.wakeWaitc (s : State) (blk : Nat) : State :=
  match s.block? blk with
  | none => s
  | some b =>
    let open_ (l : Nat) : Bool :=
      let g := b.group (l / 32)
      g.raised.isSome || g.frame.isSome || g.heldBy.isSome
    let waiting : List (Nat × Scope × Nat) := (List.range b.lanes.length).filterMap fun l =>
      match (b.lane l).st with
      | .between _ _ (.waitc .mm n iss sc) => if n < (b.group (l / 32)).count .mm && !open_ l then some (iss, sc, l) else none
      | _ => none
    match b.tsErr, waiting with
    | some e, w :: ws =>
      let (iss, sc, l0) := ws.foldl (fun m x => if x.1 < m.1 then x else m) w
      let ls := ((w :: ws).filter (·.1 == iss)).map (·.2.2)
      let pc := (b.lane l0).pc
      let (id, s) := s.fresh
      let k : Cohort := { id := id, grp := l0 / 32, lanes := ls, pc := pc, start := (b.lane l0).run.start, stage := .held,
                          wait := s.cycle, nextIssue := s.cycle + 1, promoted := false, fetched := none }
      let b1 := ({ b with cohorts := b.cohorts ++ [k], tsErr := none } : Block).modLanes (fun l => ls.contains l) fun _ ln =>
        { ln with st := .running id, run := { ln.run with count := ln.run.count - 1 } }
      s.raise b1 (b1.cohCtx k 8) sc .tstoreErr [] (fun _ => ⟨e.detail, 0, 0⟩) 0
    | _, _ => s

/-! ## Order between operations on a slot (R237) -/

/-- A ring entry names operand slots as a destination. -/
def RingRec.hits (b : Block) (ps : List Nat) (r : RingRec) : Bool :=
  let ctl : Word := BitVec.ofNat 64 (b.scrWord (b.ringOff + 32 * ((r.seq - 1) % 16) + 16))
  ctlSlot ctl && match Sparse.find? r.slots (ctlDoff ctl) with
    | some e => e.physList.any ps.contains
    | none => false

/-- An earlier copy of one of the groups into one of the slots is not complete. A held copy takes its place in the order when it is
released (DESIGN CHOICE, log 86). No pass and no TWIN waits for a copy: a pass may find old bytes (R237, R310, R315). -/
def State.copyBefore (s : State) (b : Block) (gs : List Nat) (id : Nat) (ps : List Nat) : Bool :=
  let of_ (ls : List Nat) : Bool := ls.any fun l => gs.contains (l / 32)
  let held (r : RingRec) : Bool := ctlHold (BitVec.ofNat 64 (b.scrWord (b.ringOff + 32 * ((r.seq - 1) % 16) + 16)))
  (s.copies.any fun c => c.blk == b.id && c.ord < id && c.st != .held && of_ c.lanes && c.dslots.any ps.contains) ||
    s.rings.any fun r => r.blk == b.id && r.ord < id && of_ r.lanes && !held r && r.hits b ps

/-- An earlier tile or matrix operation of one of the groups on one of the slots is still to complete. -/
def State.slotBefore (s : State) (b : Block) (gs : List Nat) (id : Nat) (isC : Bool) (ps : List Nat) : Bool :=
  (s.tileOps.any fun t => t.blk == b.id && t.groups.any gs.contains && t.id < id && t.isC == isC && t.phys.any ps.contains) ||
  ((s.quarters ++ s.passes.flatMap (·.quarters)).any fun q => q.blk == b.id && gs.contains q.grp && q.id < id &&
    (if isC then ps.contains q.cPhys else q.aPhys.any ps.contains || ps.contains q.bPhys))

/-! ## Transfers -/

/-- Bytes a TLD reads for row r, and its scale bytes. -/
def State.tldRow (s : State) (b : Block) (t : TileOp) (f : EFmt) (h : BitVec 512) (r : Nat) : EngRes (List Byte × List Byte × Bool) :=
  let len := if t.isC then 64 else shGet h 2
  (s.engRead b t.id t.refused t.ptr (t.off + r * shGet h 0) len).bind fun s (bs, bad) =>
    if f == .b4 then
      (s.engRead b t.id t.refused t.ptr (t.off + shGet h 3 + r * shGet h 4) (shGet h 2 / 16)).bind fun s (sc, bad2) =>
        .ok s (bs, sc, bad.any (·) || bad2.any (·))
    else .ok s (bs, [], bad.any (·))

/-- Fill the slots of a TLD from its rows (R240): rows beyond ROWS are zero and sound. -/
def tldFill (t : TileStore) (op : TileOp) (f : EFmt) (rows : List (List Byte × List Byte × Bool)) : TileStore :=
  if op.isC then
    let p := op.phys.headD 0
    let el (x : Nat) : BitVec 36 :=
      if f == .tag .fp32 then BitVec.ofNat 36 (FF.fp36.roundTo .rne (FF.fp32.value x)) else BitVec.ofInt 36 (signed 32 x)
    let c := (List.range 32).foldl (fun (c : CSlot) r =>
      let (bs, _, bad) := rows.getD r ([], [], false)
      ((List.range 16).foldl (fun c j => c.setElem r j (el (ofBytes ((bs.drop (4 * j)).take 4)))) c).setPoison r bad) CSlot.zero
    t.setC p c
  else
    (List.range (32 * op.phys.length)).foldl (fun t r =>
      let (bs, sc, bad) := rows.getD r ([], [], false)
      t.modOp (op.phys.getD (r / 32) 0) fun o => o.setRow (r % 32) bs sc bad) t

/-- One row as TST writes it: its bytes and whether it is poisoned (R241). -/
def tstRow (t : TileStore) (op : TileOp) (h : BitVec 512) (r : Nat) : List Byte × Bool :=
  if op.isC then
    let c := t.c (op.phys.headD 0)
    ((List.range 16).flatMap fun j => toBytes 8 (c.elem r j).toNat, c.poison.getLsbD r)
  else
    let (o, k) := t.winRow op.phys r
    ((o.row k).take (shGet h 2), o.poison.getLsbD k)

/-- One element drained (R78): its bits and flags. -/
def drainElem (f : Tag) (marked satm : Bool) (x : BitVec 36) : Nat × Flags :=
  if f == .i32 then
    let v := satInt true 32 x.toInt
    (wrap 32 v, if satm || v != x.toInt then Flags.sat else 0)
  else
    let v := FF.fp36.value x.toNat
    let d := (FF.ofTag f).deliver .rne true 0 v
    if marked || v.isNan then ((FF.ofTag f).nanBits, 0)
    else if f == .bf16 && d.1 % 2 ^ 15 != 0 && d.1 % 2 ^ 15 < 2 ^ 7 then (d.1 / 2 ^ 15 * 2 ^ 15, Flags.unf ||| Flags.inx)
    else if f == .fp32 && d.1 % 2 ^ 31 != 0 && d.1 % 2 ^ 31 < 2 ^ 23 then (d.1 / 2 ^ 31 * 2 ^ 31, Flags.unf ||| Flags.inx)
    else d

/-- One row as TDRAIN writes it. -/
def drainRow (t : TileStore) (op : TileOp) (f : Tag) (r : Nat) : List Byte × Flags × Bool :=
  let c := t.c (op.phys.headD 0)
  let es := (List.range 16).map fun j => drainElem f (c.rowm.getLsbD r || c.colm.getLsbD j) c.satm (c.elem r j)
  (es.flatMap fun e => toBytes (f.width / 8) e.1, es.foldl (fun g e => g ||| e.2) 0, c.poison.getLsbD r)

/-- A tile operation ends: its MM count returns in every member group. -/
def State.endTileOp (s : State) (t : TileOp) : State :=
  ({ s.dropLines t.id with tileOps := s.tileOps.filter (·.id != t.id) } : State).finishOp t.blk t.op

/-- Write rows to memory once every row is ready (R241, R247); rows on a refused page are not written. -/
def State.storeRows (s : State) (b : Block) (t : TileOp) (rows : List (List Byte × Bool)) (h : BitVec 512) : EngRes Unit :=
  let at_ (r : Nat) : Nat := t.off + r * shGet h 0
  let data (r : Nat) : List Byte × Bool :=
    let x := rows.getD r ([], false)
    (if x.2 then List.replicate x.1.length 0xFF else x.1, x.2)
  (engEach (fun s r => s.engReady b t.id t.refused t.ptr (at_ r) (data r).1 (data r).2) s (List.range rows.length)).bind
    fun s places =>
      .ok ((places.zipIdx).foldl (fun s (ps, r) => match ps with
        | some ps => s.engCommit ps (data r).1 (data r).2
        | none => s) s) ()

/-- Carry out a tile operation's effect (R240 to R244, R247). -/
def State.tileEffect (s : State) (b : Block) (t : TileOp) : EngRes Unit :=
  let st := s.store b.cluster
  match t.kind with
  | .tld f h =>
    (engEach (fun s r => s.tldRow b t f h r) s (List.range (shGet h 1))).bind fun s rows =>
      .ok (s.setStore b.cluster (tldFill (s.store b.cluster) t f rows)) ()
  | .tst h =>
    let rows := (List.range (shGet h 1)).map (tstRow st t h)
    (s.storeRows b t rows h).bind fun s _ =>
      .ok ((s.tstoreErr t.blk t.slot (rows.filter (·.2)).length false 0).wakeWaitc t.blk) ()
  | .tdrain f h =>
    let tag := match f with
      | .tag x => x
      | _ => .fp32
    let rows := (List.range (shGet h 1)).map (drainRow st t tag)
    (s.storeRows b t (rows.map fun r => (r.1, r.2.2)) h).bind fun s _ =>
      let fl := rows.foldl (fun g r => g ||| r.2.1) 0
      let s1 := s.modBlock t.blk fun b => b.modLanes (· == t.flagLane) fun _ ln => { ln with flags := ln.flags ||| fl }
      .ok ((s1.tstoreErr t.blk t.slot (rows.filter (·.2.2)).length false 0).wakeWaitc t.blk) ()
  | .tzero =>
    let st' := if t.isC then st.setC (t.phys.headD 0) CSlot.zero else t.phys.foldl (fun st p => st.setOp p OpSlot.zero) st
    .ok (s.setStore b.cluster st') ()
  | .twin _ | .trel => .ok s ()

/-- The stream of a tile operation's pointer. -/
def TileOp.stream (t : TileOp) : Nat := (ptrOf t.ptr).stream

def TileOp.lanes (t : TileOp) : List Nat := t.groups.flatMap fun g => (List.range 32).map (32 * g + ·)

/-- A transfer of slot rows follows the copies into them. -/
def TileOp.afterCopies (t : TileOp) : Bool := match t.kind with
  | .twin _ | .trel => false
  | _ => !t.isC

/-- May a tile operation go on? -/
def State.tileReady (s : State) (b : Block) (t : TileOp) : Bool :=
  t.waits.isNone && !s.slotBefore b t.groups t.id t.isC t.phys && !(t.afterCopies && s.copyBefore b t.groups t.id t.phys) &&
    !s.engWaits t.blk t.id t.stream t.lanes

/-- TILE_TRANSFER_COMPLETE (R311): a TLD, TST, TDRAIN, TZERO or TWIN takes effect and its MM count returns. A translation
fault is recorded and the operation waits (R235). -/
def execTileTransferComplete (id : Nat) (s : State) : Out :=
  match s.tileOps.find? (·.id == id) with
  | none => .next s
  | some t =>
    match s.block? t.blk with
    | none => .next s
    | some b =>
      if t.kind == .trel || !s.tileReady b t then .next s
      else
        match s.tileEffect b t with
        | .ok s _ => .next (s.endTileOp t)
        | .wait s => .next s
        | .fault s d va k =>
          let r := s.engFault id d va k
          .next { r.1 with tileOps := updWhere (·.id == id) (fun t => { t with waits := some r.2 }) r.1.tileOps }

/-! ## Released slots (R239) -/

/-- Every operation on the slots that issued before the release has completed: tile and matrix operations, copies accepted
and ring entries published. -/
def State.releaseReady (s : State) (t : TileOp) : Bool :=
  !(s.tileOps.any fun u => u.id < t.id && u.isC == t.isC && u.phys.any t.phys.contains &&
      ((s.block? u.blk).map (·.cluster)) == ((s.block? t.blk).map (·.cluster))) &&
  !((s.quarters ++ s.passes.flatMap (·.quarters)).any fun q => q.id < t.id && some q.cluster == ((s.block? t.blk).map (·.cluster)) &&
      (if t.isC then t.phys.contains q.cPhys else q.aPhys.any t.phys.contains || t.phys.contains q.bPhys)) &&
  (t.isC || (!(s.copies.any fun c => c.blk == t.blk && c.ord < t.id && c.dslots.any t.phys.contains) &&
    match s.block? t.blk with
    | some b => !(s.rings.any fun r => r.blk == t.blk && r.ord < t.id && r.hits b t.phys)
    | none => true))

/-- Return physical slots to a cluster's pool, their contents gone. -/
def State.freeSlots (s : State) (cluster : Nat) (isC : Bool) (ps : List Nat) : State :=
  let t := s.store cluster
  s.setStore cluster
    (if isC then ps.foldl (fun t p => t.setC p CSlot.zero) { t with cUsed := t.cUsed.filter fun p => !ps.contains p }
     else ps.foldl (fun t p => t.setOp p OpSlot.zero) { t with opUsed := t.opUsed.filter fun p => !ps.contains p })

/-- SLOT_RETURN (R239): released physical slots return to the pool, and TREL's MM count returns. -/
def execSlotReturn (id : Nat) (s : State) : Out :=
  match s.tileOps.find? (·.id == id) with
  | none => .next s
  | some t =>
    match s.block? t.blk with
    | none => .next s
    | some b =>
      if t.kind != .trel || !s.releaseReady t then .next s
      else .next ((s.freeSlots b.cluster t.isC t.phys).endTileOp t)

/-! ## The arithmetic of a pass (R74 to R77, R245) -/

/-- Elements of an operand row in a format: an exact value, or none for a NaN or infinity encoding (R75, R77). -/
def rowElems (f : EFmt) (o : OpSlot) (r : Nat) : List (Option Val) :=
  let bs := o.row r
  match f with
  | .b4 => (List.range 192).map fun k =>
      let c := (bs.getD (k / 2) 0).toNat / 16 ^ (k % 2) % 16
      let sc := (o.scale r (k / 32)).toNat
      some (codeVal (sc / 64) (sc % 64) c)
  | .tag t =>
    if t == .i8 || t == .n8 then bs.map fun x => some (Val.ofInt (num t x.toNat))
    else (chunks (t.width / 8) bs (96 / (t.width / 8))).map fun x =>
      match (FF.ofTag t).value x with
      | .fin n m e => some (.fin n m e)
      | _ => none
  | _ => []

/-- A zero row: every byte and scale 0. -/
def zeroElems (f : EFmt) : List (Option Val) := rowElems f OpSlot.zero 0

/-- The A row of C row i (R245): none for the zero row. -/
def arow (cfg : Option WinCfg) (rows ty tx i : Nat) : Option Nat :=
  match cfg with
  | none => some i
  | some w =>
    let t := w.baserow + i / w.ow * w.sy * w.iw + i % w.ow * w.sx + ty * w.dy * w.iw + tx * w.dx
    if t < rows then some t else none

/-- The product of two operand elements; a special element makes it +0 (R75). -/
def passProduct (a b : Option Val) : Val :=
  match a, b with
  | some x, some y => x.mul y
  | _, _ => .fin false 0 0

/-- floor(log2) of a nonzero finite value. -/
def floorLog2 : Val → Int
  | .fin _ m e => (Nat.log2 m : Int) + e
  | _ => 0

/-- Truncate a finite value's magnitude to a multiple of 2^q: the multiple as a signed integer, and whether exact. -/
def truncTo (q : Int) : Val → Int × Bool
  | .fin n m e =>
    let k := if q ≤ e then m * 2 ^ (e - q).toNat else m / 2 ^ (q - e).toNat
    let exact := q ≤ e || m % 2 ^ (q - e).toNat == 0
    (if n then -(k : Int) else k, exact)
  | _ => (0, true)

/-- One float element of a pass (R75, R76). -/
def floatPass (c : BitVec 36) (ps : List Val) : BitVec 36 :=
  match FF.fp36.value c.toNat with
  | .nan => BitVec.ofNat 36 FF.fp36.nanBits
  | .inf _ => c
  | cv =>
    let nz := ps.filter (!·.isZero)
    let top := nz.foldl (fun (e : Option Int) p => match e with
      | none => some (floorLog2 p)
      | some x => some (max x (floorLog2 p))) none
    let (u, sticky) : Val × Bool := match top with
      | none => (cv, false)
      | some e =>
        let q := e - 47
        let ts := nz.map (truncTo q)
        let t := ts.foldl (fun a x => a + x.1) 0
        (cv.add .rne (.fin (t < 0) t.natAbs q), ts.any (!·.2))
    match u, top with
    | .fin n m x, some e =>
      if m = 0 then BitVec.ofNat 36 (zeroOf c ps)
      else if sticky then
        BitVec.ofNat 36 (FF.fp36.roundTo .rne ((Val.fin n m x).add .rne (.fin n 1 (e - 49))))
      else BitVec.ofNat 36 (FF.fp36.roundTo .rne (.fin n m x))
    | .fin n m x, none => if m = 0 then BitVec.ofNat 36 (zeroOf c ps) else BitVec.ofNat 36 (FF.fp36.roundTo .rne (.fin n m x))
    | _, _ => c
where
  /-- −0 when C was −0 and every product was a zero of negative sign; else +0 (R76). -/
  zeroOf (c : BitVec 36) (ps : List Val) : Nat :=
    if c.toNat = FF.fp36.signBit true && ps.all (fun p => p.isZero && p.neg?) then FF.fp36.signBit true else 0

/-- One integer element of a pass (R76): the element and whether the clamp applied. -/
def intPass (c : BitVec 36) (ps : List Val) : BitVec 36 × Bool :=
  let v (p : Val) : Int := match p with
    | .fin n m e => let k : Int := (m * 2 ^ e.toNat : Nat); if n then -k else k
    | _ => 0
  let t := c.toInt + ps.foldl (fun a p => a + v p) 0
  let r := satInt true 36 t
  (BitVec.ofInt 36 r, r != t)

def EFmt.isIntPass (f : EFmt) : Bool := f == .tag .i8 || f == .tag .n8

/-- The A row of C row i in a quarter's operand slots. -/
def Quarter.aRow (t : TileStore) (q : Quarter) (i : Nat) : Option (OpSlot × Nat) :=
  (arow q.aCfg (32 * q.aPhys.length) q.ty q.tx i).map fun r => t.winRow q.aPhys r

/-- The rows of B that a quarter reads. -/
def Quarter.bRows (q : Quarter) : List Nat := (List.range 16).map fun j => 16 * (if q.bh then 1 else 0) + j

/-- The C rows of a quarter. -/
def Quarter.cRows (q : Quarter) : List Nat := (List.range 8).map fun k => 8 * q.q + k

/-- The poisoned rows that a quarter reads of A, B and C, an operand's by physical slot and row (R356). -/
def Quarter.poisoned (t : TileStore) (q : Quarter) : List Nat × List Nat × List Nat :=
  let aBad (i : Nat) : Option Nat :=
    (arow q.aCfg (32 * q.aPhys.length) q.ty q.tx i).bind fun r =>
      let (o, k) := t.winRow q.aPhys r
      if o.poison.getLsbD k then some (32 * q.aPhys.getD (r / 32) 0 + k) else none
  ((q.cRows.filterMap aBad).eraseDups, (q.bRows.filter (t.op q.bPhys).poison.getLsbD).map (32 * q.bPhys + ·),
   (q.cRows.filter (t.c q.cPhys).poison.getLsbD).map (32 * q.cPhys + ·))

/-- The effect of one quarter on its C slot (R245). -/
def quarterPass (t : TileStore) (q : Quarter) : CSlot :=
  let bslot := t.op q.bPhys
  let bs := q.bRows.map fun r => rowElems q.fmt bslot r
  let bBad := q.bRows.any bslot.poison.getLsbD
  let aBad (i : Nat) : Bool := match q.aRow t i with
    | some (o, k) => o.poison.getLsbD k
    | none => false
  let colMarks := maskOf (bs.map fun col => col.any (·.isNone))
  let c1 := q.cRows.foldl (fun (c : CSlot) i =>
    let ae := match q.aRow t i with
      | some (o, k) => rowElems q.fmt o k
      | none => zeroElems q.fmt
    let c2 := (List.range 16).foldl (fun (c : CSlot) j =>
      let ps := List.zipWith passProduct ae (bs.getD j [])
      if EFmt.isIntPass q.fmt then
        let r := intPass (c.elem i j) ps
        { c.setElem i j r.1 with satm := c.satm || r.2 }
      else c.setElem i j (floatPass (c.elem i j) ps)) c
    let c3 := if ae.any (·.isNone) then { c2 with rowm := c2.rowm ||| BitVec.ofNat 32 (2 ^ i) } else c2
    if aBad i || bBad then c3.setPoison i true else c3) (t.c q.cPhys)
  { c1 with colm := c1.colm ||| BitVec.ofNat 16 colMarks }

/-! ## Grant (R315 to R318) -/

/-- The C elements two quarters write meet. -/
def Quarter.sameC (a b : Quarter) : Bool := a.cluster == b.cluster && a.cPhys == b.cPhys && a.q == b.q

/-- Two entries name a slot in common. -/
def Quarter.sharesSlot (f e : Quarter) : Bool :=
  f.cPhys == e.cPhys || (f.bPhys :: f.aPhys).any (e.bPhys :: e.aPhys).contains

/-- An entry is eligible (R237, R315): no earlier operation of its group on one of its slots is left that has neither completed nor
been granted, and no earlier entry of its group that writes one of its C elements. -/
def State.eligible (s : State) (e : Quarter) : Bool :=
  let slots := e.aPhys ++ [e.bPhys]
  !(s.tileOps.any fun t => t.blk == e.blk && t.groups.contains e.grp && t.id < e.op && t.kind != .trel &&
      (if t.isC then t.phys.contains e.cPhys else t.phys.any slots.contains)) &&
  !(s.quarters.any fun f => f.blk == e.blk && f.grp == e.grp && f.op < e.op && f.sharesSlot e) &&
  !(s.quarters.any fun f => f.blk == e.blk && f.grp == e.grp && f.id < e.id && f.bound != e.bound && f.sameC e)

/-- The bound set of an entry. -/
def State.boundSet (s : State) (e : Quarter) : List Quarter := s.quarters.filter (·.bound == e.bound)

def State.setEligible (s : State) (e : Quarter) : Bool := (s.boundSet e).all s.eligible

/-- The core among 0 to 3 of the cluster of an entry, counted after the last young grant's core. -/
def coreTurn (last : Nat) (e : Quarter) : Nat := (e.core % 4 + 3 - last % 4) % 4

/-- Lexicographic comparison of keys. -/
def lexLt : List Nat → List Nat → Bool
  | [], _ => false
  | _ :: _, [] => false
  | a :: as, b :: bs => a < b || (a == b && lexLt as bs)

def minBy (key : Quarter → List Nat) : List Quarter → Option Quarter
  | [] => none
  | q :: qs => match minBy key qs with
    | none => some q
    | some r => if lexLt (key r) (key q) then some r else some q

/-- The lead entry of a cluster (R316). Before any young grant the turn is core 0's (DESIGN CHOICE, log 107). -/
def State.lead (s : State) (cl : Nat) : Option Quarter :=
  let es := s.quarters.filter fun q => q.cluster == cl && s.setEligible q
  let last := Sparse.get 3 s.lastGrant cl
  let old := es.filter fun q => q.entered + 512 ≤ s.cycle
  match minBy (fun q => [q.entered, coreTurn last q, q.id]) old with
  | some q => some q
  | none =>
    let top := (es.map (·.prio)).foldl max 0
    minBy (fun q => [coreTurn last q, q.entered, q.id]) (es.filter (·.prio == top))

/-- Fuse further bound sets into a pass, oldest first, while it holds at most 4 quarters (R317). -/
def State.fuse (s : State) (lead : Quarter) : List Quarter → List Quarter → List Quarter
  | p, [] => p
  | p, q :: qs =>
    let set := s.boundSet q
    let ok := !p.any (·.bound == q.bound) && q.bPhys == lead.bPhys && q.bh == lead.bh && q.fmt == lead.fmt &&
      set.all (fun x => !p.any (·.sameC x)) && p.length + set.length ≤ 4
    s.fuse lead (if ok then p ++ set else p) qs

/-- Sort candidates by age. -/
def insertAge (q : Quarter) : List Quarter → List Quarter
  | [] => [q]
  | r :: rs => if lexLt [q.entered, q.id] [r.entered, r.id] then q :: r :: rs else r :: insertAge q rs

/-- MATRIX_GRANT (R316, R317): the arbiter of a cluster grants one pass. -/
def execMatrixGrant (cluster : Nat) (s : State) : Out :=
  match s.lead cluster with
  | none => .next s
  | some l =>
    let cands := (s.quarters.filter fun q => q.cluster == cluster && q.bound != l.bound && s.setEligible q).foldr insertAge []
    let p := s.fuse l (s.boundSet l) cands
    let young := s.cycle < l.entered + 512
    .next { s with
      quarters := s.quarters.filter fun q => !p.any (·.id == q.id),
      passes := s.passes ++ [⟨s.nextId, cluster, s.cycle, p⟩],
      lastGrant := if young then Sparse.put s.lastGrant cluster (l.core % 4) else s.lastGrant,
      nextId := s.nextId + 1 }

/-! ## Pass writes (R245, R311, R319, R356) -/

/-- Report the poisoned rows that one operation's quarters of a pass read, each row once (R356): the slot first found in the order A, B,
C. The issuing block hears of every row, the owner of a REMOTE slot of the rows of that slot. -/
def State.reportPoison (s : State) (t : TileStore) (qs : List Quarter) : State :=
  match qs with
  | [] => s
  | q0 :: _ =>
    let rs := qs.map fun q => (q, q.poisoned t)
    let rankOf (blk : Nat) : Nat := ((s.block? blk).map (·.rank)).getD 0
    let as : List (Nat × Nat × Bool × List Nat) := rs.map fun (q, a, _, _) => (q.aOwn, q.aLocal, q.aRemote, a)
    let bs : List (Nat × Nat × Bool × List Nat) := rs.map fun (q, _, b, _) => (q.bOwn, q.bLocal, q.bRemote, b)
    let cs : List (Nat × Nat × Bool × List Nat) := rs.map fun (q, _, _, c) => (q.blk, q.cLocal, false, c)
    let rows (l : List (Nat × Nat × Bool × List Nat)) : Nat := (l.flatMap (·.2.2.2)).eraseDups.length
    let first (l : List (Nat × Nat × Bool × List Nat)) : Option (Nat × Nat × Bool × List Nat) := l.find? (!·.2.2.2.isEmpty)
    let s1 := match first (as ++ bs ++ cs) with
      | some (own, slot, rem, _) => s.tstoreErr q0.blk slot (rows (as ++ bs) + rows cs) rem (if rem then rankOf own else 0)
      | none => s
    let owners := (((as ++ bs).filter fun e => e.1 != q0.blk && !e.2.2.2.isEmpty).map (·.1)).eraseDups
    let s2 := owners.foldl (fun s o =>
      let mine := (as ++ bs).filter (·.1 == o)
      match first mine with
      | some (_, slot, _, _) => s.tstoreErr o slot (rows mine) false 0
      | none => s) s1
    (q0.blk :: owners).foldl (·.wakeWaitc ·) s2

/-- One quarter's write. -/
def State.writeQuarter (s : State) (q : Quarter) : State :=
  let t := s.store q.cluster
  s.setStore q.cluster (t.setC q.cPhys (quarterPass t q))

/-- An MMQ or MMS is complete in a group when none of its quarters is left. -/
def State.settleMatrix (s : State) (q : Quarter) : State :=
  if (s.quarters ++ s.passes.flatMap (·.quarters)).any (·.op == q.op) then s else s.finishOp q.blk q.op

/-- MATRIX_PASS_WRITE (R245): a granted pass writes its C rows; passes of a cluster write in the order of their grants. -/
def execMatrixPassWrite (id : Nat) (s : State) : Out :=
  match s.passes.find? (·.id == id) with
  | none => .next s
  | some p =>
    if s.passes.any fun r => r.cluster == p.cluster && r.id < p.id then .next s
    else
      let t := s.store p.cluster
      let s0 := p.quarters.foldl (·.writeQuarter ·) s
      let s1 := ((p.quarters.map (·.op)).eraseDups).foldl (fun s o => s.reportPoison t (p.quarters.filter (·.op == o))) s0
      let s2 := { s1 with passes := s1.passes.filter (·.id != id) }
      .next (p.quarters.foldl (·.settleMatrix ·) s2)

end Sys2Proof.Machine
end

