-- ==== Sys2Proof/Machine/CopyEvents.lean ====
section
/-! DEFINITION. The copy channels: accepting ring entries (R256, R308), delivering copies and writing their stamps (R257,
R309, R465), and patches (R262). -/

namespace Sys2Proof.Machine

/-! ## Acceptance (R256, R308) -/

/-- The source pointer, control and length words of ring entry `seq`. -/
def Block.ringEntry (b : Block) (seq : Nat) : BitVec 128 × Word × Word :=
  let e := b.ringOff + 32 * ((seq - 1) % 16)
  let w (k : Nat) : Nat := b.scrWord (e + 8 * k)
  (BitVec.ofNat 128 (w 0 + 2 ^ 64 * w 1), BitVec.ofNat 64 (w 2), BitVec.ofNat 64 (w 3))

/-- A block has a published entry that its channel can take now. -/
def State.acceptable (s : State) (b : Block) : Bool :=
  b.hasRing && b.cons < b.prod && !b.isSaved &&
    let ctl := (b.ringEntry (b.cons + 1)).2.1
    ctlHold ctl ||
      ((s.chanCopies b.die b.core (ctlChan ctl)).length < 4 &&
        !(s.copies.any fun c => c.die == b.die && c.core == b.core && ctlChan c.ctl == ctlChan ctl &&
          match c.st with
          | .released _ => true
          | .letGo => true
          | _ => false))

/-- Put a block into a list in order of residence. -/
def insertBlock (x : Block) : List Block → List Block
  | [] => [x]
  | y :: r => if x.resides < y.resides then x :: y :: r else y :: insertBlock x r

/-- The block whose ring the core accepts from next: round-robin in order of residence (R308), from the one after the last. -/
def State.acceptNext (s : State) (d core : Nat) : Option Nat :=
  let bs := (s.blocks.filter fun b => b.die == d && b.core == core && !b.isSaved).foldr insertBlock []
  let last := Sparse.get 0 s.coreRing (d * 192 + core)
  let after := (bs.filter fun b => last ≤ b.resides) ++ bs.filter fun b => b.resides < last
  (after.find? s.acceptable).map (·.id)

/-- COPY_ACCEPT (R256): the core accepts a block's next ring entry and advances `CONS`. An entry the block published by its
own stores is checked now; one that fails is not performed. -/
def execCopyAccept (blk : Nat) (s : State) : Out :=
  match s.block? blk with
  | none => .next s
  | some b =>
    if s.acceptNext b.die b.core != some blk then .next s
    else
      let seq := b.cons + 1
      let (src, ctl, len) := b.ringEntry seq
      let rec_ : RingRec := (s.rings.find? fun r => r.blk == blk && r.seq == seq).getD
        { blk := blk, seq := seq, grp := 0, op := none, pc := 0, lanes := [], ord := 0, slots := b.slots }
      let own := rec_.lanes.isEmpty
      let bad := if own then s.copyBad b 0 src 0 ctl len rec_.slots else none
      let s1 := ({ s with rings := s.rings.filter (fun r => r.blk != blk || r.seq != seq),
                          coreRing := Sparse.put s.coreRing (b.die * 192 + b.core) (b.resides + 1) } : State).storeScr
        blk b.consOff 8 seq
      let unclaimed := ctlHold ctl && ctlSlot ctl &&
        (Sparse.find? b.slots (ctlDoff ctl)).map (·.physList) != (Sparse.find? rec_.slots (ctlDoff ctl)).map (·.physList)
      if (bad.map Bad.holds).getD false then .next (s.want (s.importAway b.view ((ptrOf src).base / 2 ^ 52)))
      else if bad.isSome then .next (s1.refuseEntry b ctl seq)
      else if unclaimed then .next s1
      else
        let phys := if ctlSlot ctl then ((Sparse.find? rec_.slots (ctlDoff ctl)).map (·.physList)).getD [] else []
        .next { s1 with
          nextId := s1.nextId + 1,
          copies := s1.copies ++
            [{ id := s1.nextId, blk := blk, die := b.die, core := b.core, grp := rec_.grp, pc := rec_.pc, op := rec_.op,
               lanes := rec_.lanes, ord := rec_.ord, stamp := (s.die b.die).quiesce, seq := seq, src := src, ctl := ctl,
               len := len, dslots := phys, st := if ctlHold ctl then .held else .queued, wp := 0, bad := none,
               waits := none, refused := [] }] }

/-! ## Delivery (R257, R309, R465) -/

/-- The command a channel performs now: the first of its queue. -/
def State.copyTurn (s : State) (c : Copy) : Bool :=
  ((s.chanCopies c.die c.core (ctlChan c.ctl)).head?.map (·.id)) == some c.id && c.waits.isNone

/-- Destination bytes of a copy. -/
def Copy.total (c : Copy) : Nat := lenRows c.len * lenRow c.len

/-- The bytes delivered by one step: as far as the end of the n-th destination line from the write pointer. -/
def Copy.chunkEnd (c : Copy) (n : Nat) : Nat :=
  let first := if ctlSlot c.ctl then 0 else ctlDoff c.ctl
  min c.total ((first + c.wp) / 128 * 128 + 128 * n - first)

/-- Source reads of a byte range, split at page boundaries. -/
def pieces (base : Nat) : Nat → Nat → Nat → List (Nat × Nat)
  | 0, _, _ => []
  | fuel + 1, o, n =>
    if n = 0 then []
    else
      let k := min n (2 ^ 16 - (base + o) % 2 ^ 16)
      (o, k) :: pieces base fuel (o + k) (n - k)

/-- Read source bytes with the bytes of each page on their own, so that a refused page spoils only its bytes. -/
def State.copyFetch (s : State) (b : Block) (c : Copy) (o n : Nat) : EngRes (List Byte × List Bool) :=
  let ps := pieces (ptrOf c.src).base (n / 2 ^ 16 + 2) o n
  (engEach (fun s k => let p := ps.getD k (0, 0); s.engRead b c.id c.refused c.src p.1 p.2) s (List.range ps.length)).bind
    fun s xs => .ok s (xs.flatMap (·.1), xs.flatMap (·.2))

/-- Destination bytes [a, z) of row r: copied, or converted element by element (R92, R255). -/
def State.copyRowPart (s : State) (b : Block) (c : Copy) (r a z : Nat) : EngRes (List Byte × List Bool) :=
  let p := ptrOf c.src
  let at_ := r * lenStride c.len
  if !ctlConv c.ctl then s.copyFetch b c (at_ + a) (z - a)
  else
    let sf := (fmtOf p.sfmt).getD .any
    let vf := (fmtOf p.vfmt).getD .any
    let sw := storeWidth sf
    let vw := storeWidth vf
    let e0 := a / vw
    let e1 := (z + vw - 1) / vw
    (s.copyFetch b c (at_ + e0 * sw) ((e1 - e0) * sw)).bind fun s (bs, bad) =>
      let el (k : Nat) : List Byte :=
        let x := ofBytes ((bs.drop (sw * k)).take sw)
        toBytes vw (match sf, vf with
          | .tag s, .tag v => (convElem s v x).1
          | _, _ => x)
      let out := (List.range (e1 - e0)).flatMap el
      let ob := (List.range (e1 - e0)).flatMap fun k => List.replicate vw (((bad.drop (sw * k)).take sw).any (·))
      .ok s ((out.drop (a - e0 * vw)).take (z - a), (ob.drop (a - e0 * vw)).take (z - a))

/-- Destination bytes [a, z) of the whole copy, row by row. -/
def State.copyPart (s : State) (b : Block) (c : Copy) (a z : Nat) : EngRes (List Byte × List Bool) :=
  let n := lenRow c.len
  if n = 0 || z ≤ a then .ok s ([], [])
  else
    let r0 := a / n
    let r1 := (z - 1) / n
    (engEach (fun s r => s.copyRowPart b c r (max a (r * n) - r * n) (min z ((r + 1) * n) - r * n)) s
      ((List.range (r1 + 1 - r0)).map (r0 + ·))).bind fun s xs => .ok s (xs.flatMap (·.1), xs.flatMap (·.2))

/-- Make the backed destination lines of a scratchpad range ready; the lines whose backing page is refused. -/
def State.copyRoom (s : State) (b : Block) (c : Copy) (lo hi : Nat) : EngRes (List Nat) :=
  let lines := ((List.range ((hi + 127) / 128 - lo / 128)).map (lo / 128 + ·)).filter b.needsFill
  (engEach (fun s l =>
      match s.fillLine b.id l with
      | (s, .ok) => .ok s []
      | (s, .wait) => .wait s
      | (s, .fault va k) => if c.refused.contains (va / 2 ^ 16) then .ok s [l] else .fault s b.die va (kEngine + k)) s lines).bind
    fun s xs => .ok s xs.flatten

/-- Deliver destination bytes to scratchpad: lines that receive bad bytes become poisoned, other wholly covered lines sound. -/
def State.deliverScr (s : State) (b : Block) (c : Copy) (bytes : List Byte) (bad : List Bool) (skip : List Nat) : State :=
  let o := ctlDoff c.ctl + c.wp
  let pv := ((List.range bytes.length).filter fun k => !skip.contains ((o + k) / 128)).map fun k =>
    (Place.scr b.id (o + k), bytes.getD k 0)
  let hurt := ((List.range bytes.length).filter fun k => bad.getD k false && !skip.contains ((o + k) / 128)).map fun k => (o + k) / 128
  hurt.eraseDups.foldl (fun s l => s.setPoison (.scr b.id (128 * l)) true) (s.storeBytes pv)

/-- Deliver destination bytes to slot rows: rows that receive bad bytes are poisoned (R257, R307). -/
def State.deliverSlot (s : State) (b : Block) (c : Copy) (bytes : List Byte) (bad : List Bool) : State :=
  let t := (List.range bytes.length).foldl (fun t k =>
    let i := c.wp + k
    t.modOp (c.dslots.getD (i / 96 / 32) 0) fun o =>
      { o with bytes := Sparse.set 0 o.bytes (96 * (i / 96 % 32) + i % 96) (bytes.getD k 0),
               poison := if bad.getD k false then o.poison ||| BitVec.ofNat 32 (2 ^ (i / 96 % 32)) else o.poison })
    (s.store b.cluster)
  s.setStore b.cluster t

/-- The first destination line affected, in 128-byte units from the first destination byte (R257). -/
def Copy.firstBad (c : Copy) (bad : List Bool) (skip : List Nat) : Option Nat :=
  match c.bad with
  | some k => some k
  | none =>
    ((List.range bad.length).find? fun k => bad.getD k false || skip.contains ((ctlDoff c.ctl + c.wp + k) / 128)).map fun k =>
      min ((c.wp + k) / 128) 0x7FFE

/-- A command ends: its stamp is written as a release, its count returns, and the channel's queue moves on. -/
def State.stampCopy (s : State) (b : Block) (c : Copy) (skip : Bool) : State :=
  let s1 := if skip then s else s.storeScr b.id (ctlStamp c.ctl) 8 (stampWord c.bad c.seq)
  (({ s1.dropLines c.id with copies := s1.copies.filter (·.id != c.id) } : State).settleCopyOp c.blk c.op).settleChannel
    c.die c.core (ctlChan c.ctl)

/-- What one step of a copy that delivers up to the n-th line works with: where it ends, the bytes, which of them are bad, the refused
destination lines, the refused stamp line. -/
def State.copyStep (s : State) (b : Block) (c : Copy) (n : Nat) : EngRes (Nat × List Byte × List Bool × List Nat × List Nat) :=
  let z := c.chunkEnd n
  let st := ctlStamp c.ctl
  let lo := ctlDoff c.ctl + c.wp
  let hi := if ctlSlot c.ctl then lo else ctlDoff c.ctl + z
  (s.copyPart b c c.wp z).bind fun s (bytes, bad) =>
    (s.copyRoom b c lo hi).bind fun s skip =>
      (if z = c.total then s.copyRoom b c st (st + 8) else .ok s []).bind fun s noStamp => .ok s (z, bytes, bad, skip, noStamp)

/-- COPY_STAMP (R257, R309): the first command of a channel delivers its next bytes, and with its last byte writes its stamp. A
translation fault is recorded and stops the channel at the faulting line (R235, R309). A copy into a slot follows the earlier operations
of its group on the slot (R237). -/
def execCopyStamp (id : Nat) (s : State) : Out :=
  match s.copies.find? (·.id == id) with
  | none => .next s
  | some c =>
    match s.block? c.blk with
    | none => .next s
    | some b =>
      if !s.copyTurn c || s.engWaits c.blk c.ord (ctlStream c.ctl) c.lanes ||
         s.slotBefore b (homesOf c.lanes) c.ord false c.dslots || s.copyBefore b (homesOf c.lanes) c.ord c.dslots then .next s
      else
        let upd (s : State) (f : Copy → Copy) : State := { s with copies := updWhere (·.id == id) f s.copies }
        let r := match s.copyStep b c 32 with
          | .fault s .. => s.copyStep b c 1
          | r => r
        match r with
        | .wait s => .next (upd s fun c => { c with st := .active })
        | .fault s d va k =>
          let r := s.engFault id d va k
          .next (upd r.1 fun c => { c with st := .active, waits := some r.2 })
        | .ok s (z, bytes, bad, skip, noStamp) =>
          let s1 := if ctlSlot c.ctl then s.deliverSlot b c bytes bad else s.deliverScr b c bytes bad skip
          let c1 := { c with st := .active, wp := z, bad := c.firstBad bad skip }
          if z = c.total then .next (s1.stampCopy b c1 (!noStamp.isEmpty))
          else .next (upd s1 fun _ => c1)

/-! ## Patches -/

/-- PATCH (R262): a patch of a logical device arrives. -/
def execPatch (die : Fin 4) (handle : BitVec 8) (value : Nat) (s : State) : Out :=
  .next (s.patchHandle die.val handle.toNat value)

end Sys2Proof.Machine
end

