-- ==== Sys2Proof/Machine/BinEvents.lean ====
section
/-! DEFINITION. The binning engine of a die (R259 to R261, R264, R465). -/

namespace Sys2Proof.Machine

/-- A field of n bytes at an offset. -/
def fieldAt (bs : List Byte) (o n : Nat) : Nat := ofBytes ((bs.drop o).take n)

/-- Bytes as an engine reads them: an error or poisoned byte gives 0xFF (R357). -/
def sound (r : List Byte × List Bool) : List Byte := (r.1.zip r.2).map fun (x, bad) => if bad then 0xFF else x

/-- The fields of a bin set block's header (R259). -/
structure BinHdr where
  ndest : Nat
  cscope : Nat
  autorel : Nat
  ovfpatch : Nat
  expect : Nat
  ovfoff : Nat
  ovfcap : Nat
  st : Nat
  total : Nat
  ovfcount : Nat
  drops : Nat
  late : Nat
  clean : Bool
deriving DecidableEq, Repr

def binHdr (bs : List Byte) : BinHdr :=
  { ndest := fieldAt bs 0 1, cscope := fieldAt bs 1 1, autorel := fieldAt bs 2 1 % 2, ovfpatch := fieldAt bs 3 1,
    expect := fieldAt bs 4 4, ovfoff := fieldAt bs 8 4, ovfcap := fieldAt bs 12 4, st := fieldAt bs 0x10 8,
    total := fieldAt bs 0x18 4, ovfcount := fieldAt bs 0x1C 4, drops := fieldAt bs 0x20 4, late := fieldAt bs 0x24 4,
    clean := fieldAt bs 0x28 24 == 0 }

/-- The engine's fields of a header, as bytes at offset 0x10. -/
def BinHdr.bytes (h : BinHdr) : List Byte :=
  toBytes 8 h.st ++ toBytes 4 h.total ++ toBytes 4 h.ovfcount ++ toBytes 4 h.drops ++ toBytes 4 h.late

/-- One destination entry: BOFF, CAP, COUNT, PATCH, and whether its reserved bits are zero. -/
def binEnt (bs : List Byte) (d : Nat) : Nat × Nat × Nat × Nat × Bool :=
  (fieldAt bs (16 * d) 4, fieldAt bs (16 * d + 4) 4, fieldAt bs (16 * d + 8) 4, fieldAt bs (16 * d + 12) 1,
    fieldAt bs (16 * d + 13) 3 == 0)

/-- What a command does once its writes are ready: its writes by block offset, then the state's own change. -/
structure BinPlan where
  writes : List (Nat × List Byte)
  after : State → State

def BinCmd.addr (c : BinCmd) : Nat := (ptrOf c.ptr).base

/-- The engine's room of a die. -/
def State.binRoom (s : State) (d : Nat) : List Nat := Sparse.get [] s.binOpen d

def State.setBinRoom (s : State) (d : Nat) (l : List Nat) : State := { s with binOpen := Sparse.set [] s.binOpen d l }

/-- Log a command the engine ignores (R260, R458). -/
def State.binLog (s : State) (d : Nat) (c : BinCmd) : State := s.logOwn d 0x05 (BitVec.ofNat 64 c.addr) 0

/-- Read part of the block. -/
def State.binRead (s : State) (b : Block) (c : BinCmd) (o n : Nat) : EngRes (List Byte × List Bool) :=
  s.engRead b c.id c.refused c.ptr o n

/-- The patches and releases of a close and the end of its engine room (R261 steps 2 to 4): `cs` are the counts. -/
def State.binClosing (s : State) (d : Nat) (c : BinCmd) (h : BinHdr) (pairs : List (Nat × Nat)) : State :=
  let ps := pairs.filter (·.1 != 0)
  let s1 := ps.foldl (fun s p => s.patchHandle d p.1 p.2) s
  let s2 := if h.autorel = 1 then ps.foldl (fun s p => s.releaseHandle d p.1) s1 else s1
  s2.setBinRoom d ((s2.binRoom d).filter (· != c.addr))

/-- Does a range of the block meet a refused page (R465)? -/
def BinCmd.onRefused (c : BinCmd) (o n : Nat) : Bool :=
  c.refused.contains ((c.addr + o) / 2 ^ 16) || c.refused.contains ((c.addr + o + n - 1) / 2 ^ 16)

/-- Every handle of a set with its count: the bins ascending, those whose entry no refused page holds, then the overflow list. -/
def closePairs (c : BinCmd) (h : BinHdr) (ents : List Byte) (upd : Nat × Nat) (ovf : Nat) : List (Nat × Nat) :=
  (((List.range h.ndest).filter fun d => !c.onRefused (64 + 16 * d) 16).map fun d =>
    let (_, _, n, p, _) := binEnt ents d
    (p, if upd.1 == d then upd.2 else n)) ++ [(h.ovfpatch, ovf)]

/-- `.OPEN` (R260). -/
def State.planOpen (s : State) (b : Block) (c : BinCmd) : EngRes BinPlan :=
  (s.binRead b c 0 64).bind fun s r =>
    let h := binHdr (sound r)
    if h.st = 1 then .ok s ⟨[], fun s => s.binLog b.die c⟩
    else
      let lim := (ptrOf c.ptr).limit
      let ok := !r.2.any (·) && c.addr % 64 == 0 && 1 ≤ h.ndest && h.ndest ≤ 64 && 1 ≤ h.cscope && h.cscope ≤ 5 &&
        h.ovfoff % 16 == 0 && h.clean && 64 + 16 * h.ndest ≤ lim && (h.ovfcap == 0 || h.ovfoff + 16 * h.ovfcap ≤ lim)
      let refuse (st : Nat) : BinPlan :=
        ⟨[(0x10, toBytes 8 st)], fun s => s.setBinRoom b.die ((s.binRoom b.die).filter (· != c.addr))⟩
      if !ok then .ok s (refuse 3)
      else
        (s.binRead b c 64 (16 * h.ndest)).bind fun s e =>
          let ents := sound e
          let good := !e.2.any (·) && (List.range h.ndest).all fun d =>
            let (boff, cap, _, _, z) := binEnt ents d
            z && boff % 8 == 0 && (cap == 0 || boff + 8 * cap ≤ lim)
          if !good then .ok s (refuse 3)
          else if !(s.binRoom b.die).contains c.addr && 16 ≤ (s.binRoom b.die).length then .ok s (refuse 4)
          else
            .ok s ⟨((List.range h.ndest).map fun d => (0x48 + 16 * d, toBytes 4 0)) ++
                [(0x10, ({ h with st := 1, total := 0, ovfcount := 0, drops := 0, late := 0 } : BinHdr).bytes)],
              fun s => s.setBinRoom b.die ((s.binRoom b.die).filter (· != c.addr) ++ [c.addr])⟩

/-- `.CLOSE` (R260, R261). -/
def State.planClose (s : State) (b : Block) (c : BinCmd) : EngRes BinPlan :=
  (s.binRead b c 0 64).bind fun s r =>
    let h := binHdr (sound r)
    if h.st = 2 then .ok s ⟨[], id⟩
    else if h.st != 1 then .ok s ⟨[], fun s => s.binLog b.die c⟩
    else
      (s.binRead b c 64 (16 * h.ndest)).bind fun s e =>
        .ok s ⟨[(0x10, toBytes 8 2)],
          fun s => s.binClosing b.die c h (closePairs c h (sound e) (64, 0) h.ovfcount)⟩

/-- `.ITEM` (R260): placed, overflowed or dropped; the set closes when its total reaches EXPECT. An item whose bin's entry lies on a refused
page is dropped (R465), and one whose place lies in the save aperture (R98; log 99). -/
def State.planItem (s : State) (b : Block) (c : BinCmd) : EngRes BinPlan :=
  (s.binRead b c 0 64).bind fun s r =>
    let h := binHdr (sound r)
    if h.st = 2 then .ok s ⟨[(0x10, ({ h with late := h.late + 1 } : BinHdr).bytes)], id⟩
    else if h.st != 1 then .ok s ⟨[], fun s => s.binLog b.die c⟩
    else
      (s.binRead b c 64 (16 * h.ndest)).bind fun s e =>
        let ents := sound e
        let key := c.key.toNat
        let d := bits key 5 0
        let (boff, cap, n, _, _) := binEnt ents d
        let o := boff + 8 * n
        let v := h.ovfoff + 16 * h.ovfcount
        let total := (h.total + 1) % 2 ^ 32
        let drop : List (Nat × List Byte) × BinHdr × Nat := ([], { h with total := total, drops := h.drops + 1 }, n)
        let (ws, h1, n1) :=
          if h.ndest ≤ d || bits key 63 16 != 0 || bit key 14 || bits key 7 6 != 0 || c.onRefused (64 + 16 * d) 16 then drop
          else if n < cap then
            if c.onRefused o 8 || s.check6 b (ptrOf c.ptr) o 8 then drop
            else ([(o, toBytes 8 c.item.toNat), (0x48 + 16 * d, toBytes 4 (n + 1))], { h with total := total }, n + 1)
          else if h.ovfcount < h.ovfcap then
            if c.onRefused v 16 || s.check6 b (ptrOf c.ptr) v 16 then drop
            else ([(v, toBytes 8 c.item.toNat ++ toBytes 8 key)], { h with total := total, ovfcount := h.ovfcount + 1 }, n)
          else drop
        if h.expect != 0 && total = h.expect then
          .ok s ⟨ws ++ [(0x10, ({ h1 with st := 2 } : BinHdr).bytes)],
            fun s => s.binClosing b.die c h (closePairs c h ents (d, n1) h1.ovfcount)⟩
        else .ok s ⟨ws ++ [(0x10, h1.bytes)], id⟩

/-- The command a die's engine performs next: the first it received. -/
def State.binNext (s : State) (d : Nat) : Option BinCmd :=
  s.bins.find? fun c => ((s.block? c.blk).map (·.die)) == some d

/-- A command ends; its BN count returns with the last command of its instruction (R232, R260). -/
def State.endBin (s : State) (c : BinCmd) : State :=
  let s1 : State := { s with bins := s.bins.filter (·.id != c.id) }
  if s1.bins.any (·.op == c.op) then s1 else s1.finishOp c.blk c.op

/-- Perform the next command of a die's engine when it is of a kind (R260): its reads, its writes made ready together, then
all of it at once. A translation fault is recorded and the engine waits; on a refused page the command ends (R465). -/
def State.binPerform (s : State) (d : Nat) (kind : BinOp) (plan : State → Block → BinCmd → EngRes BinPlan) : Out :=
  match s.binNext d with
  | none => .next s
  | some c =>
    match s.block? c.blk with
    | none => .next s
    | some b =>
      if c.kind != kind || c.waits.isSome || s.engWaits c.blk c.op (ptrOf c.ptr).stream c.lanes then .next s
      else if c.onRefused 0 64 || (kind != .item && !c.refused.isEmpty) then .next (s.endBin c)
      else
        let r := (plan s b c).bind fun s p =>
          (engEach (fun s k =>
              let w := p.writes.getD k (0, [])
              (s.engReady b c.id c.refused c.ptr w.1 w.2 false).bind fun s ps => .ok s (ps, w.2)) s
            (List.range p.writes.length)).bind fun s ws => .ok s (ws, p.after)
        match r with
        | .wait s => .next s
        | .fault s d va k =>
          let r := s.engFault c.id d va k
          .next { r.1 with bins := updWhere (·.id == c.id) (fun c => { c with waits := some r.2 }) r.1.bins }
        | .ok s (ws, after) =>
          let s1 := ws.foldl (fun s w => match w.1 with
            | some ps => s.engCommit ps w.2 false
            | none => s) s
          .next ((after s1).endBin c)

/-- BIN_OPEN_PERFORM, BIN_ITEM_PERFORM, BIN_CLOSE_PERFORM (R260, R261). -/
def execBinOpenPerform (die : Fin 4) (s : State) : Out := s.binPerform die.val .open_ State.planOpen
def execBinItemPerform (die : Fin 4) (s : State) : Out := s.binPerform die.val .item State.planItem
def execBinClosePerform (die : Fin 4) (s : State) : Out := s.binPerform die.val .close State.planClose

/-! ## BINRD (R264) -/

/-- Offset and bytes of the value BINRD reads. -/
def binField (sel : BinSel) (idx : Nat) : Nat × Nat :=
  match sel with
  | .state => (0x10, 8)
  | .total => (0x18, 4)
  | .ovf => (0x1C, 4)
  | .count => (0x48 + 16 * (idx % 64), 4)

end Sys2Proof.Machine
end

