-- ==== Sys2Proof/Machine/CrossLane.lean ====
section
/-! DEFINITION. Class 101: cross-lane instructions (R195 to R207). -/

namespace Sys2Proof.Machine

/-! ## The lanes that take part, and the elements of a home group -/

/-- The work of a cross-lane instruction (R195): each active lane for itself; after a rendezvous every non-exited lane
of the members. -/
def Block.crossWork (b : Block) (c : Ctx) (h : Head) : Work :=
  if h.scope == .lane then laneWork (c.lanes.filter fun l => (b.lane l).on h) c.grp
  else
    let ls := c.members.flatMap b.live
    let d := (b.designated c.members).getD 0
    { src := ls, recv := ls.map fun l => (l, l), pos := (List.range 32).map fun p => (p, d), groups := c.members,
      desig := d, acts := (b.lane d).on h && (b.designated c.members).isSome }

def dWidth : Option Tag → Nat
  | some t => t.width
  | none => 64
def dCount : Option Tag → Nat
  | some t => t.count
  | none => 1
def dAs : Option Tag → LitAs
  | some t => .as t
  | none => .plain
def dChk : Option Tag → Chk
  | some t => .fmt t
  | none => .raw

/-- The unsigned integer format of a width. -/
def natTag (w : Nat) : Tag := if w = 8 then .n8 else if w = 16 then .n16 else if w = 32 then .n32 else .n64

/-- The check of an index source (R198). -/
def idxChk (f : Option Tag) : Chk := match f with
  | some t => .fmt (natTag t.width)
  | none => .int64

/-- The format an index or shift source is delivered in (R107, R198): the integer format of the width. -/
def idxAs : Option Tag → LitAs
  | some t => .as (natTag t.width)
  | none => .plain

/-- Lanes of a sub-group (R116). -/
def subWidth : Width → Nat
  | .w32 => 32 | .w2 => 2 | .w4 => 4 | .w8 => 8 | .w16 => 16

/-- Element i of home group g: its bits and its register's tag. -/
def Block.cell (b : Block) (f : Option Tag) (o : Opd) (g i : Nat) : Nat × Tag :=
  let r := b.read (32 * g + i / dCount f) (dAs f) o
  (elem (dWidth f) r.bits (i % dCount f), r.tag.getD .n64)

/-- The index value element i of B names, unsigned. -/
def Block.index (b : Block) (f : Option Tag) (o : Opd) (g i : Nat) : Nat :=
  elem (dWidth f) (b.read (32 * g + i / dCount f) (match f with
    | some t => .as (natTag t.width)
    | none => .plain) o).bits (i % dCount f)

/-- A result from its elements: the format's tag, or the first element's where the format is the whole register. -/
def cells (f : Option Tag) (xs : List (Nat × Tag)) : LaneRes :=
  LaneRes.ofReg ⟨packElems (dWidth f) (xs.map (·.1)), f.getD ((xs.map (·.2)).headD .n64)⟩

/-- AN INSTRUCTION ON THE LANES OF A HOME GROUP (R195, R196): `reads` gives the (lane, operand) pairs a lane reads
besides its own, whose results in flight hold or trap the lane; `f` the result of an active lane. A fixed-latency result still due in
another lane is waited for, whatever CTL.STALLCHK: R196 speaks of pending tags alone (DESIGN CHOICE, log 29). -/
def State.cross (s : State) (i : Instr) (h : Head) (sps : List SrcSpec) (d : Opd) (pd lat : Nat)
    (reads : Block → Nat → List (Nat × Opd)) (f : Block → (Nat → Bool) → Nat → LaneRes) : Out :=
  s.issue i h fun b c =>
    let w := b.crossWork c h
    if !w.acts then .next (s.pass b c h)
    else
      let codes := dstCodes d 1 ++ (if pd < 7 then [256 + pd] else [])
      let far (l : Nat) : List (Nat × Nat) := (reads b l).filterMap fun (m, o) => (regCode? o).map fun k => (m, k)
      s.gated b c i h w.src (w.recv.map (·.1)) sps codes []
        (s.onGate b c h
          ((failing .stallShort w.src fun l => b.stallchk l && (far l).any fun (m, k) => s.longBusy b m k).getD
            (if w.src.any fun l => (far l).any fun (m, k) => s.longBusy b m k || s.fixedBusy b m k then .hold else .pass))
          (.next (s.issueFixed b c h w d pd lat (w.src.map fun l => (l, f b (fun m => w.src.contains m) l)))))

/-- The elements of lane l: the index in the group, the first index of its sub-group and the local index, for each
sub-element. -/
def laneElems (f : Option Tag) (w : Width) (l : Nat) : List (Nat × Nat × Nat) :=
  let n := dCount f
  let e := subWidth w * n
  (List.range n).map fun s => let i := l % 32 * n + s; (i, i / e * e, i % e)

/-! ## Shuffles and slides -/

/-- The source element SHUF names, none for the lane's own (R199). -/
def shufIndex (v : ShufVar) (e b : Nat) : Option Nat :=
  if b < e then some b
  else match v with
    | .wrap => some (b % e)
    | .clamp => some (e - 1)
    | .own => none

/-- SHUF (R199). -/
def execShuf (h : Head) (f : Option Tag) (w : Width) (var : ShufVar) (pd : BitVec 3) (o : O3) (s : State) : Out :=
  let n := dCount f
  let e := subWidth w * n
  s.cross (.shuf h f w var pd o) h [⟨o.a, dChk f⟩, ⟨o.b, idxChk f⟩] o.d pd.toNat 8
    (fun b l => (laneElems f w l).filterMap fun (i, base, _) =>
      (shufIndex var e (b.index f o.b (l / 32) i)).map fun k => (l / 32 * 32 + (base + k) / n, o.a))
    fun b act l =>
      let g := l / 32
      let rs := (laneElems f w l).map fun (i, base, _) =>
        match shufIndex var e (b.index f o.b g i) with
        | some k => if act (32 * g + (base + k) / n) then (b.cell f o.a g (base + k), true) else (b.cell f o.a g i, false)
        | none => (b.cell f o.a g i, false)
      { cells f (rs.map (·.1)) with pd := some (rs.all (·.2)) }

/-- The shift of SLIDE (R200). -/
def slideBy (e : Nat) (b : Word) : Int := clamp (-(e : Int)) e (signed 16 (bits b.toNat 15 0))

/-- The element SLIDE takes for local index j: from A or from C, at a local index. -/
def slideFrom (e j : Nat) (k : Int) : Bool × Nat :=
  let t := (j : Int) + k
  if t < 0 then (false, (t + e).toNat) else if t < e then (true, t.toNat) else (false, (t - e).toNat)

/-- SLIDE (R200): elements move within each sub-group, the vacated places come from C. A 32-bit literal B stands in every
sub-element of FMT's width (R107, R198). -/
def execSlide (h : Head) (f : Option Tag) (w : Width) (o : O4) (s : State) : Out :=
  let n := dCount f
  let e := subWidth w * n
  let from_ (b : Block) (l : Nat) : List (Bool × Nat) :=
    let k := slideBy e (b.read l (idxAs f) o.b).bits
    (laneElems f w l).map fun (_, base, j) => let r := slideFrom e j k; (r.1, base + r.2)
  s.cross (.slide h f w o) h [⟨o.a, dChk f⟩, ⟨o.b, .raw⟩, ⟨o.c, dChk f⟩] o.d 7 8
    (fun b l => (from_ b l).map fun (x, i) => (l / 32 * 32 + i / n, if x then o.a else o.c))
    fun b act l =>
      let g := l / 32
      cells f ((from_ b l).map fun (x, i) =>
        if act (32 * g + i / n) then (if x then b.cell f o.a g i else ((b.cell f o.c g i).1, .n64)) else (0, .n64))

/-- BCAST (R201); a literal B is delivered as for SLIDE. -/
def execBcast (h : Head) (f : Option Tag) (w : Width) (o : O3) (s : State) : Out :=
  let n := dCount f
  let e := subWidth w * n
  let at_ (b : Block) (l : Nat) : Nat := (laneElems f w l).headD (0, 0, 0) |>.2.1 + bits (b.read l (idxAs f) o.b).bits.toNat 15 0 % e
  s.cross (.bcast h f w o) h [⟨o.a, dChk f⟩, ⟨o.b, .raw⟩] o.d 7 8
    (fun b l => [(l / 32 * 32 + at_ b l / n, o.a)])
    fun b act l =>
      let i := at_ b l
      cells f (List.replicate n (if act (l / 32 * 32 + i / n) then b.cell f o.a (l / 32) i else (0, .n64)))

/-- PERM (R202): each element is pushed; the highest source index prevails; C where nothing arrives. -/
def execPerm (h : Head) (f : Option Tag) (w : Width) (o : O4) (s : State) : Out :=
  let n := dCount f
  let e := subWidth w * n
  s.cross (.perm h f w o) h [⟨o.a, dChk f⟩, ⟨o.b, idxChk f⟩, ⟨o.c, dChk f⟩] o.d 7 8 (fun _ _ => []) fun b act l =>
    let g := l / 32
    cells f ((laneElems f w l).map fun (i, base, j) =>
      let srcs := (List.range e).filter fun k => act (32 * g + (base + k) / n) && b.index f o.b g (base + k) % e == j
      match srcs.getLast? with
      | some k => b.cell f o.a g (base + k)
      | none => ((b.cell f o.c g i).1, .n64))

/-! ## Votes and matches -/

/-- The home lanes of lane l's sub-group, as block lanes. -/
def subLanes (w : Width) (l : Nat) : List Nat :=
  let g := subWidth w
  (List.range g).map fun k => l / 32 * 32 + l % 32 / g * g + k

/-- A lane mask of lanes (R203). -/
def maskWord (ls : List Nat) : Word := (laneMask ls).setWidth 64

/-- VOTE (R203). -/
def execVote (h : Head) (w : Width) (var : VoteVar) (pd : BitVec 3) (o : O2) (s : State) : Out :=
  s.cross (.vote h w var pd o) h [⟨o.a, .raw⟩] o.d pd.toNat 8 (fun _ _ => []) fun b act l =>
    let ls := (subLanes w l).filter act
    let v (m : Nat) : Word := (b.read m .plain o.a).bits
    let one (p : Bool) : LaneRes := ⟨[⟨if p then 1 else 0, .n64⟩], 0, some p, none⟩
    match var with
    | .all => one (ls.all fun m => v m != 0)
    | .any => one (ls.any fun m => v m != 0)
    | .uni => one (ls.all fun m => v m == v l)
    | .ballot =>
      let m := maskWord (ls.filter fun m => v m != 0)
      ⟨[⟨m, .n64⟩], 0, some (m != 0), none⟩

/-- Equality of two elements under MATCH (R204). -/
def matchEq (f : Option Tag) (val : Bool) (x y : Nat) : Bool :=
  match f with
  | some t =>
    if val && (t.isFloat) then
      let a := (FF.ofTag t).value x
      let c := (FF.ofTag t).value y
      (a.isNan && c.isNan) || a.cmp c == some .eq
    else x == y
  | none => x == y

/-- MATCH (R204): the lowest lane of each class receives 1 in the predicate. -/
def execMatch (h : Head) (f : Option Tag) (w : Width) (val : Bool) (pd : BitVec 3) (o : O2) (s : State) : Out :=
  s.cross (.match_ h f w val pd o) h [⟨o.a, dChk f⟩] o.d pd.toNat 8 (fun _ _ => []) fun b act l =>
    let es (m : Nat) : List Nat := (laneElems f w m).map fun (i, _, _) => (b.cell f o.a (m / 32) i).1
    let ls := (subLanes w l).filter fun m => act m && ((es m).zip (es l)).all fun (x, y) => matchEq f val x y
    ⟨[⟨maskWord ls, .n64⟩], 0, some (ls.head? == some l), none⟩

/-- The key field of a lane under a field description (R205): length 0 stands for the whole key. -/
def Block.keyField (b : Block) (t : Tag) (s1 : Bool) (a : Opd) (m : Nat) (desc : Nat) : Nat :=
  let x := elem t.width (b.read m (.as t) a).bits (if s1 then 1 else 0)
  let len := bits desc 15 8
  if len = 0 then x else bitField t x (bits desc 7 0) len

/-- The active lanes of a lane's sub-group whose key field equals its own, by its own description. -/
def Block.sameKey (b : Block) (act : Nat → Bool) (t : Tag) (w : Width) (s1 : Bool) (o : O3) (l : Nat) : List Nat :=
  let desc := elem t.width (b.read l (.as t) o.b).bits 0
  (subLanes w l).filter fun m => act m && b.keyField t s1 o.a m desc == b.keyField t s1 o.a l desc

/-- EQMASK (R205). -/
def execEqmask (h : Head) (f : Tag) (w : Width) (s1 : Bool) (pd : BitVec 3) (o : O3) (s : State) : Out :=
  s.cross (.eqmask h f w s1 pd o) h [⟨o.a, .fmt f⟩, ⟨o.b, idxChk (some f)⟩] o.d pd.toNat 8 (fun _ _ => []) fun b act l =>
    let ls := b.sameKey act f w s1 o l
    ⟨[⟨maskWord ls, .n64⟩], 0, some (ls.head? == some l), none⟩

/-- RANK (R205). -/
def execRank (h : Head) (f : Tag) (w : Width) (s1 : Bool) (pd : BitVec 3) (o : O3) (s : State) : Out :=
  s.cross (.rank h f w s1 pd o) h [⟨o.a, .fmt f⟩, ⟨o.b, idxChk (some f)⟩] o.d pd.toNat 8 (fun _ _ => []) fun b act l =>
    let ls := b.sameKey act f w s1 o l
    ⟨[⟨BitVec.ofNat 64 (ls.filter (· < l)).length, .n64⟩], 0, some (ls.getLast? == some l), none⟩

/-! ## Reductions and scans -/

/-- One combination of two elements (R206), with its flags. -/
def combine (f : Option Tag) (op : RedOp) (x y : Nat × Flags) : Nat × Flags :=
  let fl := x.2 ||| y.2
  let w := dWidth f
  let a := x.1
  let c := y.1
  match op with
  | .and => (a &&& c, fl)
  | .or => (a ||| c, fl)
  | .xor => (a ^^^ c, fl)
  | .add =>
    match f with
    | some t =>
      if t.isInt then ((a + c) % 2 ^ w, fl)
      else
        let vs := [inFloat t a, inFloat t c]
        let v := (inFloat t a).add .rne (inFloat t c)
        let r := outFloat t .rne v
        (r.1, fl ||| r.2 ||| invalidFlag vs v)
    | none => ((a + c) % 2 ^ w, fl)
  | .min | .max =>
    match f with
    | some t =>
      if t.isInt then
        (if (decide (num t a ≤ num t c)) == (op == .min) then a else c, fl)
      else ((outFloat t .rne (minMaxVal (op == .max) (inFloat t a) (inFloat t c))).1, fl)
    | none => (a, fl)

/-- The identity of an operation (R206). -/
def identityOf (f : Option Tag) (op : RedOp) : Nat :=
  let w := dWidth f
  let flt := match f with
    | some t => !t.isInt
    | none => false
  let ff := FF.ofTag (f.getD .n64)
  let sg := match f with
    | some t => tagSigned t
    | none => false
  match op with
  | .add => if flt then 2 ^ (w - 1) else 0
  | .min => if flt then ff.infBits false else wrap w (intMax sg w)
  | .max => if flt then ff.infBits true else wrap w (intMin sg w)
  | .and => 2 ^ w - 1
  | .or | .xor => 0

/-- One level of the pairwise tree. -/
def pairUp (g : (Nat × Flags) → (Nat × Flags) → Nat × Flags) : List (Nat × Flags) → List (Nat × Flags)
  | x :: y :: r => g x y :: pairUp g r
  | l => l

/-- The fixed pairwise tree (R207), with fuel for its levels. -/
def treeOf (g : (Nat × Flags) → (Nat × Flags) → Nat × Flags) : Nat → List (Nat × Flags) → Nat × Flags
  | 0, l => l.headD (0, 0)
  | n + 1, l => treeOf g n (pairUp g l)

/-- Inclusive prefixes from the first element upward. -/
def prefixes (g : (Nat × Flags) → (Nat × Flags) → Nat × Flags) : List (Nat × Flags) → List (Nat × Flags)
  | [] => []
  | x :: r => scanOn x r
where
  scanOn (a : Nat × Flags) : List (Nat × Flags) → List (Nat × Flags)
    | [] => [a]
    | y :: r => a :: scanOn (g a y) r

/-- The elements of one home group from index `base`, an exited lane's as the identity. -/
def Block.spanElems (b : Block) (f : Option Tag) (op : RedOp) (o : Opd) (g base e : Nat) : List (Nat × Flags) :=
  (List.range e).map fun k =>
    if (b.lane (32 * g + (base + k) / dCount f)).exited then (identityOf f op, 0) else ((b.cell f o g (base + k)).1, 0)

/-- A total in every sub-element. -/
def totalRes (f : Option Tag) (r : Nat × Flags) : LaneRes :=
  ⟨[⟨splat (dWidth f) (dCount f) r.1, f.getD .n64⟩], r.2, none, none⟩

/-- The prefixes of a span, exclusive or inclusive. -/
def spanScan (f : Option Tag) (op : RedOp) (excl : Bool) (es : List (Nat × Flags)) : List (Nat × Flags) :=
  let ps := prefixes (combine f op) es
  if excl then (identityOf f op, 0) :: ps.dropLast else ps

/-- A lane's own prefixes as its result. -/
def prefixRes (f : Option Tag) (ps : List (Nat × Flags)) : LaneRes :=
  ⟨[⟨packElems (dWidth f) (ps.map (·.1)), f.getD .n64⟩], orFlags ps, none, none⟩

/-- A set- or block-scope reduction or scan under its pending tag (R207). The flags of a float operation are set in every live lane of
the members, also where the destination is a K or X register that no lane receives (DESIGN CHOICE, log 78). -/
def State.crossLong (s : State) (i : Instr) (h : Head) (a d : Opd) (chk : Chk) (tag : Nat) (f : Block → Ctx → Nat → LaneRes) : Out :=
  s.issue i h fun b c =>
    let w := b.crossWork c h
    if !w.acts then .next (s.pass b c h)
    else
      s.gated b c i h w.src (w.recv.map (·.1)) (⟨a, chk⟩ :: needs h d) (dstCodes d 1) []
        (if (b.tagLanes h w).any fun l => s.tagBusy b l tag then .next (s.holdIssue c)
         else
           let rs := w.src.map fun l => (l, f b c l)
           .next (s.issueLong b c h w d 1 tag .wrs true (w.regWrites b d rs ++ w.flagWrites rs)))

/-- The total of set- or block-scope REDUX: member totals combined in arrival order (R207). -/
def Block.wideTotal (b : Block) (c : Ctx) (f : Option Tag) (op : RedOp) (a : Opd) : Nat × Flags :=
  let ms := c.order ++ c.members.filter fun g => !c.order.contains g
  let e := 32 * dCount f
  match ms.map fun g => treeOf (combine f op) 8 (b.spanElems f op a g 0 e) with
  | [] => (identityOf f op, 0)
  | t :: ts => ts.foldl (combine f op) t

/-- REDUX (R206, R207). -/
def execRedux (h : Head) (f : Option Tag) (w : Width) (op : RedOp) (pt : BitVec 3) (o : O2) (s : State) : Out :=
  if h.scope == .group || h.scope == .lane then
    s.cross (.redux h f w op pt o) h [⟨o.a, dChk f⟩] o.d 7 12 (fun _ _ => []) fun b _ l =>
      let e := subWidth w * dCount f
      totalRes f (treeOf (combine f op) 8 (b.spanElems f op o.a (l / 32) (l % 32 * dCount f / e * e) e))
  else s.crossLong (.redux h f w op pt o) h o.a o.d (dChk f) pt.toNat fun b c _ => totalRes f (b.wideTotal c f op o.a)

/-- SCAN (R206, R207). -/
def execScan (h : Head) (f : Option Tag) (w : Width) (op : RedOp) (excl : Bool) (pt : BitVec 3) (o : O2) (s : State) : Out :=
  let n := dCount f
  if h.scope == .group || h.scope == .lane then
    s.cross (.scan h f w op excl pt o) h [⟨o.a, dChk f⟩] o.d 7 12 (fun _ _ => []) fun b _ l =>
      let e := subWidth w * n
      let base := l % 32 * n / e * e
      prefixRes f (((spanScan f op excl (b.spanElems f op o.a (l / 32) base e)).drop (l % 32 * n - base)).take n)
  else s.crossLong (.scan h f w op excl pt o) h o.a o.d (dChk f) pt.toNat fun b c l =>
    let es := c.members.flatMap fun g => b.spanElems f op o.a g 0 (32 * n)
    let at_ := c.members.findIdx (· == l / 32) * 32 * n + l % 32 * n
    prefixRes f (((spanScan f op excl es).drop at_).take n)

end Sys2Proof.Machine
end

