-- ==== Sys2Proof/Machine/Fetch.lean ====
section
/-! DEFINITION. Fetching and decoding at a cohort's address (R28, R125, R344, R397), filling slots and picking
(R47 to R50), and the state in which a given instruction is fetched next. -/

namespace Sys2Proof.Machine

/-- What a fetch finds: an instruction and its length; one that decoding refuses, with its length and scope field; a fault; a line still to
be given up by a peer. -/
inductive Fetched where
  | instr (i : Instr) (len : Nat)
  | illegal (len : Nat) (sc : Scope)
  | fault (va kind : Nat)
  | wait
deriving DecidableEq, Repr

/-- What has been fetched before. -/
def Code.fetched : Code → Fetched
  | .instr i n => .instr i n
  | .illegal n sc => .illegal n sc

def Code.len : Code → Nat
  | .instr _ n => n
  | .illegal n _ => n

/-- The scope of a scope field's code (R103). -/
def codeScope : Nat → Scope
  | 0 => .lane
  | 1 => .group
  | 2 => .set
  | _ => .block

/-- The scope field of an instruction's base word (R103). -/
def scopeField (bs : List Byte) : Scope := codeScope (bits (ofBytes (bs.take 8)) 54 53)

/-- The scope of an instruction. -/
def Instr.scopeOf (i : Instr) : Scope := codeScope (((Instr.fields i).map fun e => e.1.scope.toNat).getD 0)

/-- Fetch and decode, reading further words only while the instruction needs them (R104): read-shared reads at package scope, whose lines
the core's instruction cache is a sharer of (R344). -/
def State.fetchTry (s : State) (b : Block) (pc : Nat) (last : List Byte) : List Nat → State × Fetched
  | [] => (s, .illegal 24 (scopeField last))
  | n :: ns =>
    match s.spots b.view pc n .fetch .either with
    | (s, .fault va k) => (s, .fault va (kFetch + k))
    | (s, .wait) => (s, .wait)
    | (s, .ok ps) =>
      match s.letIn (2 ^ 73 + b.id) b.die ps none with
      | (s, false) => (s, .wait)
      | (s, true) =>
        let s := (placeLines ps).foldl (fun s l => s.share l.1 l.2 b.coreKey 7 0 false) s
        let bs := s.readPlaces ps
        match decodeBytes bs with
        | .ok (i, w) => (s, .instr i (4 * w))
        | .error .short => s.fetchTry b pc bs ns
        | .error _ => (s, .illegal (4 * refusedLength (wordsOfBytes bs)) (scopeField bs))

/-- Fetch the instruction at an address for a core. -/
def State.fetch (s : State) (b : Block) (pc : Nat) : State × Fetched := s.fetchTry b pc [] [8, 12, 16, 20, 24]

/-- Does the instruction name a V register the kernel has not allocated (R18, R142)? -/
def overAlloc (vregs : Nat) (i : Instr) : Bool :=
  let above (c : Nat) : Bool := c < 192 && vregs ≤ c
  match i with
  | .call _ _ _ link => above link.val
  | .br .. | .brc .. | .chkpt .. | .plop .. => false
  | .runend .. | .exit .. | .yield .. | .bar .. | .waitc .. => false
  | .brx _ a _ | .ret _ a _ | .regroup _ a _ => above ((regCode? a).getD 252)
  | .waitm _ _ _ a b _ => above ((regCode? a).getD 252) || above ((regCode? b).getD 252)
  | _ =>
    match i.fields with
    | some (g, _) => above g.dst.toNat || above g.a.toNat || above g.b.toNat || above g.c.toNat
    | none => false

/-- The unit class of an instruction (R48): 0 control, 1 integer, 2 float, 3 cross-lane, 4 memory, 5 engine and system;
9 for a wide scope, compatible with nothing. -/
def unitClass (i : Instr) : Nat :=
  match i.fields with
  | none => 9
  | some (g, _) =>
    if g.scope != 0 then 9
    else match g.class_.toNat with
      | 0 => 0
      | 1 | 2 => 1
      | 3 | 4 => 2
      | 5 => 3
      | 6 => 4
      | _ => 5

def compatible (a b : Nat) : Bool := a != 9 && b != 9 && (a == b || a == 0 || b == 0)

/-! ## Slots (R49) -/

/-- A lane between runs whose awaits and pending terminator let it proceed. -/
def State.laneReady (s : State) (b : Block) (l : Nat) : Bool :=
  match (b.lane l).st with
  | .between _ m hold =>
    s.awaitDone b l m &&
      match hold with
      | .ready | .yielded => true
      | .waitc k n _ _ => (b.group (l / 32)).count k ≤ n
      | .regroup _ => !(b.group (l / 32)).ctl.getLsbD 7 || !s.longs.any fun o => o.blk == b.id && o.lanes.contains l
      | _ => false
  | _ => false

def Lane.start? (l : Lane) : Nat := match l.st with
  | .between a _ _ => a
  | _ => 0

def Lane.yielding (l : Lane) : Bool := match l.st with
  | .between _ _ .yielded => true
  | _ => false

/-- A candidate for a slot: ready lanes at one run start, or a cohort resuming. -/
structure Cand where
  start : Nat
  lanes : List Nat
  since : Nat
  coh : Option Nat
deriving DecidableEq, Repr

/-- Is the first candidate better (R49): promoted, the longest wait first; then more lanes; then the lower address? -/
def Cand.better (cycle : Nat) (a c : Cand) : Bool :=
  let pa := a.since + 64 ≤ cycle
  let pc := c.since + 64 ≤ cycle
  if pa && pc && a.since != c.since then a.since < c.since
  else if pa && !pc then true
  else if pc && !pa then false
  else if a.lanes.length != c.lanes.length then c.lanes.length < a.lanes.length
  else a.start < c.start

def bestCand (cycle : Nat) : List Cand → Option Cand
  | [] => none
  | c :: cs =>
    match bestCand cycle cs with
    | none => some c
    | some d => if d.better cycle c then some d else some c

/-- A cohort stands in a slot of its group. -/
def Cohort.slotted (k : Cohort) : Bool := match k.stage with
  | .slot _ => true
  | _ => false

/-- May a lane run, as its home group stands: never while a trap is raised or another member's trap holds the group
(R289), and only the handler's lanes while a frame is open (R351)? -/
def Block.mayRun (b : Block) (l : Nat) : Bool :=
  let gr := b.group (l / 32)
  gr.heldBy.isNone && match gr.frame, gr.raised with
  | some f, _ => f.raised.lanes.contains l
  | none, some _ => false
  | none, none => true

/-- The handler cohorts of different groups stay apart. -/
def Block.family (b : Block) (l : Nat) : Nat := if (b.group (l / 32)).frame.isSome then l / 32 + 1 else 0

/-- Candidates of a hardware group; lanes that yielded count only where no other run start has ready lanes, or when promoted (R144, R50).
The wait of a run start is that of the lane that has waited longest (DESIGN CHOICE, log 88). No run starts once a pre-emption window has
ended. -/
def State.cands (s : State) (b : Block) (g : Nat) : List Cand :=
  let open_ := b.st == .running || match b.st with | .window e => e != 0 | _ => false
  let resuming := (b.cohorts.filter fun k => k.grp == g && k.stage == .resume && k.lanes.all b.mayRun && (open_ || !b.unstarted k)).map
    fun k => (⟨k.start, k.lanes, k.wait, some k.id⟩ : Cand)
  let ready := if open_ then
      (List.range b.lanes.length).filter fun l => (b.lane l).phys / 32 == g && b.mayRun l && s.laneReady b l
    else []
  let others := resuming.map (·.start) ++ (ready.filter fun l => !(b.lane l).yielding).map fun l => (b.lane l).start?
  let counts (l : Nat) : Bool := !(b.lane l).yielding || (b.lane l).since + 64 ≤ s.cycle || others.all (· == (b.lane l).start?)
  let key (l : Nat) : Nat × Nat := ((b.lane l).start?, b.family l)
  let ls := ready.filter counts
  resuming ++ ((ls.map key).eraseDups).map fun a =>
    let m := ls.filter fun l => key l == a
    ⟨a.1, m, (m.map fun l => (b.lane l).since).foldl min s.cycle, none⟩

/-- A lane begins a run (R28, R29): Q and Y void, no producers. -/
def Lane.begin (l : Lane) (coh start : Nat) : Lane :=
  { l with st := .running coh, pc := start, void := 0x3FF, run := ⟨start, 0, 0, []⟩ }

/-- Put a candidate into a slot. -/
def State.seat (s : State) (b : Block) (g : Nat) (n : Fin 2) (c : Cand) : State × Block :=
  match c.coh with
  | some id =>
    (s, { b with cohorts := updWhere (·.id == id) (fun k => { k with stage := .slot n }) b.cohorts })
  | none =>
    let (id, s) := s.fresh
    let k : Cohort := { id := id, grp := g, lanes := c.lanes, pc := c.start, start := c.start, stage := .slot n,
                        wait := c.since, nextIssue := s.cycle, promoted := decide (c.since + 64 ≤ s.cycle), fetched := none }
    let b1 := { b with cohorts := b.cohorts ++ [k] }
    (s, b1.modLanes (fun l => c.lanes.contains l) fun _ ln => ln.begin id c.start)

def Block.slotFree (b : Block) (g : Nat) (n : Fin 2) : Bool :=
  !b.cohorts.any fun k => k.grp == g && k.stage == .slot n

/-- Lanes that yielded and were passed over are ready at the next fill (R144). -/
def Block.ageYields (b : Block) (g : Nat) : Block :=
  b.modLanes (fun _ => true) fun _ ln =>
    match ln.st with
    | .between a m .yielded => if ln.phys / 32 == g then { ln with st := .between a m .ready } else ln
    | _ => ln

/-- Fill the free slots of a group, slot A first (R49). Slots filled in one cycle are two fills: lanes that yielded and were passed over for
slot A count as ready for slot B (DESIGN CHOICE, log 89). -/
def State.fillSlots (s : State) (b : Block) (g : Nat) : State × Block :=
  let one (p : State × Block) (n : Fin 2) : State × Block :=
    if p.2.slotFree g n then
      match bestCand p.1.cycle (p.1.cands p.2 g) with
      | some c => let r := p.1.seat p.2 g n c; (r.1.setBlock r.2, r.2.ageYields g)
      | none => p
    else p
  let r := one (one (s, b) 0) 1
  (r.1.setBlock r.2, r.2)

/-! ## The pick (R47) -/

/-- The groups of a partition that are resident, as block and group. -/
def State.partGroups (s : State) (d core part : Nat) : List (Nat × Nat) :=
  s.blocks.flatMap fun b =>
    if b.die == d && b.core == core && (b.st == .running || match b.st with | .window _ => true | _ => false) then
      (b.groups.zipIdx.filter fun (g, _) => g.part == part).map fun (_, i) => (b.id, i)
    else []

/-- The partition's number. -/
def partKey (d core part : Nat) : Nat := (d * 192 + core) * 4 + part

/-- The unit class of the instruction a cohort issues next, as it has been or would be fetched (R344). -/
def State.nextClass (s : State) (b : Block) (k : Cohort) : Nat :=
  match k.fetched.filter (·.1 == k.pc) with
  | some (_, .instr i _) => unitClass i
  | some _ => 9
  | none => match (s.fetch b k.pc).2 with
    | .instr i _ => unitClass i
    | _ => 9

/-- An access of a long-latency instruction of set or block scope that is still to be made, or awaits its replay (R289). -/
def LongOp.holds (o : LongOp) : Bool :=
  (o.scope == .set || o.scope == .block) && (o.waits.isSome || match o.body with
    | .hld .. => true
    | .binrd .. => true
    | _ => false)

/-- A member of a set- or block-scope access that is being translated or awaits its replay stays held at the instruction
(R289). -/
def State.wideHeld (s : State) (b : Block) (k : Cohort) : Bool :=
  (s.accs.any fun a => a.blk == b.id && (a.scope == .set || a.scope == .block) &&
    (k.lanes.any fun l => a.groups.contains (l / 32)) &&
    a.las.any fun x => match x.phase with
      | .walk => true
      | .waits _ => true
      | .placed ps => a.logged || (s.unfilled ps).isSome
      | p => a.logged && p != .done) ||
  s.longs.any fun o => o.blk == b.id && o.holds && k.lanes.any fun l => o.groups.contains (l / 32)

/-- A cohort's wait has reached 64 cycles (R50). -/
def State.promo (s : State) (k : Cohort) : Bool := k.promoted || k.wait + 64 ≤ s.cycle

/-- The cohorts a picked group issues: both slots when compatible, else the promoted or the larger, slot A on a tie. -/
def State.pickCohorts (s : State) (b : Block) (g : Nat) : List Cohort :=
  let can := b.cohorts.filter fun k => k.grp == g && k.nextIssue ≤ s.cycle && !s.wideHeld b k &&
      k.lanes.all fun l => (b.group (l / 32)).heldBy.isNone
  match can.find? (·.stage == .slot 0), can.find? (·.stage == .slot 1) with
  | some x, some y =>
    if compatible (s.nextClass b x) (s.nextClass b y) then [x, y]
    else if s.promo y && !s.promo x then [y]
    else if s.promo x && !s.promo y then [x]
    else if x.lanes.length < y.lanes.length then [y] else [x]
  | some x, none => [x]
  | none, some y => [y]
  | none, none => []

/-- Rotate a list so that it begins after position n. -/
def rotate {α : Type} (l : List α) (n : Nat) : List α := l.drop n ++ l.take n

/-! ## What the machine turns to by itself -/

/-- Every partition that holds a resident group. -/
def State.partitions (s : State) : List (Nat × Nat × Nat) :=
  ((s.blocks.filter fun b => b.st == .running || match b.st with | .window _ => true | _ => false).flatMap fun b =>
    b.groups.map fun g => (b.die, b.core, g.part)).eraseDups

/-- Every lane that a rendezvous requires has arrived and none is suspended (R283). -/
def Block.rdvFull (b : Block) (r : Rdv) : Bool :=
  !r.arrived.isEmpty && (Block.required r).all fun l => b.arrivedAt r l && !b.suspended l

/-- A complete rendezvous whose instruction does not yet wait for a pick. -/
def Block.rdvReady (b : Block) (r : Rdv) : Bool := !r.fired && b.rdvFull r

/-- A completed rendezvous that a group's partition may issue: the group is that of the designated lane (R47; DESIGN CHOICE, log 90). -/
def State.pickRdv (s : State) (b : Block) (g : Nat) : Option Rdv :=
  b.rdvs.find? fun r => r.fired && r.nextIssue ≤ s.cycle && ((b.designated r.members).map (· / 32)) == some g && b.rdvFull r

/-! ## A state in which a given instruction is fetched next -/

/-- The block of `withFetchWord`: one group of 32 lanes, 192 V registers, on core 0 of CD0, one cohort in slot A. -/
def fetchBlock (pc : Nat) : Block :=
  let ln (m : Nat) : Lane :=
    { regs := [], void := 0x3FF, p := 0, flags := 0, rng := 0, wid := BitVec.ofNat 64 m, winCore := 0, winLane := m,
      pc := pc, run := ⟨pc, 0, 0, []⟩, st := .running 0, phys := m, since := 0 }
  { id := 0, resides := 0, die := 0, core := 0, launch := 0, rank := 0, bcluster := 0, vregs := 192, setMax := 4,
    lanes := (List.range 32).map ln,
    groups := [{ k := List.replicate 16 0, h := List.replicate 16 0, hPend := [], ctl := 0, ops := [], sysMode := true,
                 sysLaunch := true, raised := none, frame := none, refusals := [], broken := [], part := 0,
                 pslot := 0, heldBy := none, due := [] }],
    cohorts := [{ id := 0, grp := 0, lanes := List.range 32, pc := pc, start := pc, stage := .slot 0, wait := 0,
                  nextIssue := 0, promoted := false, fetched := none }],
    rdvs := [], sets := [], scrBase := 0, scrSize := 1024, scratch := [], scrPoison := [], regions := [], lines := [], slots := [],
    wbWaits := none, wbStamp := 0, wbRefused := [], tsErr := none, ctxOps := [], ctxCs := [], st := .running }

/-- One table entry as bytes. -/
def pteBytes (a : Nat) (e : Nat) : List (Nat × Byte) := (toBytes 8 e).zipIdx.map fun (v, k) => (a + k, v)

/-- Page tables that map the 64 KiB page at virtual 0x10000 to physical 0x10000 with R, W and X: tables at 0x40000,
0x48000, 0x50000 and 0x58000. -/
def fetchTables : List (Nat × Byte) :=
  pteBytes 0x40000 0x48001 ++ pteBytes 0x48000 0x50001 ++ pteBytes 0x50000 0x58001 ++ pteBytes 0x58008 0x1001F

/-- Store an instruction's bytes where the next step fetches: its block is placed and picked, its page is mapped. -/
def State.placeFetch (s : State) (code : List Byte) : State :=
  { s.modDie 0 fun d => { d with ptroot := 0x40001 } with
    dmem := Memory.writeN (fetchTables.foldl (fun m e => Memory.write m e.1 e.2) s.dmem) 0x10000 code,
    blocks := fetchBlock 0x10000 :: s.blocks.filter (·.id != 0), port := [.cohort 0 0], cur := none, agenda := [],
    nextId := max s.nextId 1 }

end Sys2Proof.Machine
end

