-- ==== Sys2Proof/Machine/SendEvents.lean ====
section
/-! DEFINITION. The transfer engines: accepting send-list entries, sending their payload and stamp, and completing them in
order (R265, R428, R429, R465). -/

namespace Sys2Proof.Machine

/-- A block that no lane runs in, on a die: the context of an engine whose issuer has gone. -/
def Block.idle (d : Nat) : Block :=
  { id := 0, resides := 0, die := d, core := 0, launch := 0, rank := 0, bcluster := 0, vregs := 0, setMax := 0, lanes := [], groups := [],
    cohorts := [], rdvs := [], sets := [], scrBase := 0, scrSize := 0, scratch := [], scrPoison := [], regions := [], lines := [],
    slots := [], wbWaits := none, wbStamp := 0, wbRefused := [], tsErr := none,
    ctxOps := [], ctxCs := [], st := .retained }

/-- The places of an engine's access to virtual memory; none where its page is refused. -/
def State.engSpots (s : State) (d : Nat) (refused : List Nat) (va n : Nat) (need : Need) (side : Side) :
    EngRes (Option (List Place)) :=
  match s.spots d va n need side with
  | (s, .fault va k) => if refused.contains (va / 2 ^ 16) then .ok s none else .fault s d va (kEngine + k)
  | (s, .wait) => .wait s
  | (s, .ok ps) => .ok s (some ps)

/-- Write bytes of virtual memory for an engine at once; nothing on a refused page. -/
def State.engPut (s : State) (who d : Nat) (refused : List Nat) (va : Nat) (data : List Byte) (side : Side) : EngRes Unit :=
  (s.engSpots d refused va data.length .write side).bind fun s ps =>
    match ps with
    | none => .ok s ()
    | some ps => (s.engPrepare who d ps data false).bind fun s _ => .ok (s.engCommit ps data false) ()

/-! ## Acceptance (R265, R266, R428) -/

/-- The import slot of a destination word, where it serves a send (R414, R429). -/
def State.sendTarget (s : State) (d : Nat) (dst len : Word) : Option Import :=
  match s.import? d (bits dst.toNat 63 52) with
  | some i => if i.kind == 1 || (i.kind == 2 && !bit len.toNat 49) then some i else none
  | none => none

/-- Entries of a list in flight: accepted and not complete. -/
def State.inFlight (s : State) (t : SendList) : Nat :=
  (s.sends.filter fun e => e.die == t.die && e.list == t.addr && !e.done).length

def SendEnt.payload (e : SendEnt) : Nat := bits e.len.toNat 31 0
def SendEnt.stampAt (e : SendEnt) : Nat := bits e.dst.toNat 51 0 + roundUp e.payload 8

/-- An entry that cannot be carried out: no such slot, no fabric, a lost peer, a range beyond the import or the source. -/
def State.sendFails (s : State) (e : SendEnt) : Bool :=
  match s.sendTarget e.die e.dst e.len with
  | none => true
  | some i =>
    !s.hasUnit 5 || (i.kind == 1 && i.tpos != s.pos && (s.peer i.tpos).lost) || (ptrOf e.src).limit < e.payload ||
      (i.kind == 1 && i.len < (if bit e.len.toNat 49 then e.stampAt + 8 else bits e.dst.toNat 51 0 + e.payload))

def State.modList (s : State) (t : SendList) (f : SendList → SendList) : State :=
  { s with sendLists := updWhere (fun u => u.die == t.die && u.addr == t.addr) f s.sendLists }

/-- What the engine reads to accept a list's next entry: the control block's places, the entry, its number, and whether the control block
passes its checks. Nothing is accepted while the control block's line is poisoned (DESIGN CHOICE, log 87). -/
def State.nextEntry (s : State) (t : SendList) : EngRes (Option (List Place × List Byte × Nat × Bool)) :=
  let get (s : State) (va n : Nat) (need : Need) (side : Side) : EngRes (List Place × List Byte × List Bool) :=
    match s.spots t.die va n need side with
    | (s, .fault va k) => .fault s t.die va (kEngine + k)
    | (s, .wait) => .wait s
    | (s, .ok ps) => (s.engFetch (listWho t.addr) t.die ps).bind fun s r => .ok s (ps, r.1, r.2)
  (get s t.addr 64 .both .device).bind fun s (ps, bs, bad) =>
    let sc := sendCtlOf bs
    if bad.any (·) || sc.lprod ≤ sc.lcons then .ok s none
    else
      (get s ((sc.ebase + 32 * (sc.lcons % 2 ^ sc.caplog)) % 2 ^ 64) 32 .read .either).bind fun s (_, es, eb) =>
        .ok s (some (ps, es, sc.lcons + 1, sc.ok && !eb.any (·)))

/-- SEND_ENTRY_ACCEPT (R428): the transfer engine takes a list's next entry and advances `LCONS`. -/
def execSendEntryAccept (die : Fin 4) (list : Word) (s : State) : Out :=
  let d := die.val
  match s.sendLists.find? fun t => t.die == d && t.addr == list.toNat with
  | none => .next s
  | some t =>
    if t.stopped || t.waits.isSome || 64 ≤ s.inFlight t then .next s
    else
      match s.nextEntry t with
      | .wait s => .next s
      | .fault s d va k =>
        let r := s.engFault (listWho t.addr) d va k
        .next (r.1.modList t fun t => { t with waits := some r.2, stamp := (s.die d).quiesce })
      | .ok s none => .next s
      | .ok s (some (ps, bs, seq, good)) =>
       let away := s.importAway d (fieldAt bs 16 8 / 2 ^ 52)
       if !away.isEmpty then .next (s.want away)
       else
        match s.letIn (listWho t.addr) d (ps.drop 0x18 |>.take 8) (some (toBytes 8 seq)) with
        | (s, false) => .next s
        | (s, true) =>
          let iss := t.issuers.find? fun i : SendIss => i.seq == seq
          let reach := (iss.map fun i => i.reach).getD []
          let len : Word := reach.foldl (fun w v => match v with
            | some v => sendPatched w v
            | none => w) (BitVec.ofNat 64 (fieldAt bs 24 8))
          let e : SendEnt :=
            { id := s.nextId, die := d, stamp := (s.die d).quiesce, list := t.addr, seq := seq,
              issuer := iss.map fun i => (i.blk, i.grp, i.pc, i.op),
              src := BitVec.ofNat 128 (fieldAt bs 0 16), dst := BitVec.ofNat 64 (fieldAt bs 16 8), len := len,
              held := good && bit len.toNat 48 && !reach.contains none, failed := !good, bad := none, sent := 0, acks := [], stamping := false,
              ending := false, done := false, waits := none, refused := [] }
          let e1 := { e with failed := e.failed || s.sendFails { e with len := len &&& ~~~ 0xFFFFFFFF#64 } }
          let s1 := s.engCommit (ps.drop 0x18 |>.take 8) (toBytes 8 seq) false
          .next (({ s1 with nextId := s1.nextId + 1, sends := s1.sends ++ [{ e1 with held := e1.held && !e1.failed }] } : State).modList
            t fun t => { t with issuers := t.issuers.filter fun i => i.seq != seq })

/-! ## Sending (R265, R428) -/

/-- Read the next payload message: at most to the next 4 KiB boundary of the destination, and wholly poisoned or wholly
sound. -/
def State.sendChunk (s : State) (e : SendEnt) : EngRes (List Byte × Bool) :=
  let b := ((e.issuer.bind fun i => s.block? i.1)).getD (Block.idle e.die)
  let o := bits e.dst.toNat 51 0 + e.sent
  let n := min (e.payload - e.sent) (4096 - o % 4096)
  let ps := pieces (ptrOf e.src).base 2 e.sent n
  (engEach (fun s k => let p := ps.getD k (0, 0); s.engRead b e.id e.refused e.src p.1 p.2) s (List.range ps.length)).bind
    fun s xs =>
      let bytes := xs.flatMap (·.1)
      let bad := xs.flatMap (·.2)
      let first := bad.headD false
      let k := (bad.takeWhile (· == first)).length
      .ok s (bytes.take k, first)

/-- A destination on this very device: written through the export table (R415); none where it is refused. -/
def State.sendHere (s : State) (e : SendEnt) (i : Import) (off : Nat) (data : List Byte) (poison : Bool) : EngRes Bool :=
  match s.exportPlaces i.tdie i.expidx i.tenant i.egen off data.length .write with
  | (s, .refused) => .ok (s.logOwn i.tdie 0x03 (BitVec.ofNat 64 off) 0) false
  | (s, .fault va k) => if e.refused.contains (va / 2 ^ 16) then .ok s false else .fault s i.tdie va (kEngine + k)
  | (s, .wait) => .wait s
  | (s, .ok ps) => (s.engPrepare e.id i.tdie ps data poison).bind fun s _ => .ok (s.engCommit ps data poison) true

/-- Send bytes to an entry's destination: here, or as a message that awaits its acknowledgement; false where it is lost. -/
def State.sendBytes (s : State) (e : SendEnt) (i : Import) (type off : Nat) (data : List Byte) (poison : Bool) : EngRes Bool :=
  if i.tpos == s.pos then s.sendHere e i off data poison
  else
    match s.sendMsg e.die i.tpos i.tdie type i.tenant i.expidx i.egen
        (BitVec.ofNat 64 (off + (if poison then 2 ^ 63 else 0))) data with
    | (s, none) => .ok s false
    | (s, some m) =>
      .ok (s.ask m (if type == tStamp then .stamp e.id else .send e.id off) false) true

/-- Messages of an entry that await acknowledgement. -/
def State.sendOpen (s : State) (e : SendEnt) : Bool :=
  s.requests.any fun r => match r.serves with
    | .send k _ => k == e.id
    | .stamp k => k == e.id
    | _ => false

def State.setSend (s : State) (e : SendEnt) : State := { s with sends := updWhere (·.id == e.id) (fun _ => e) s.sends }

/-- Places of an entry's list; none on a refused page, and none that does not translate once the list is stopped (R465). -/
def State.listSpots (s : State) (e : SendEnt) (va n : Nat) (side : Side) : EngRes (Option (List Place)) :=
  match s.engSpots e.die e.refused va n .both side with
  | .fault s d va k => if s.sendLists.any fun t => t.die == e.die && t.addr == e.list && t.stopped then .ok s none else .fault s d va k
  | r => r

/-- Write bytes of an entry's list as a release. -/
def State.listPut (s : State) (e : SendEnt) (ps : List Place) (v : List Byte) : EngRes Unit :=
  (s.engPrepare e.id e.die ps v false).bind fun s _ => .ok (s.engCommit ps v false) ()

/-- A payload message for a scale-out endpoint leaves by the port and under the handle of its import slot (R429). -/
def State.toEndpoint (s : State) (e : SendEnt) (i : Import) (data : List Byte) (poison : Bool) : State :=
  { s with hostOut := s.hostOut ++ [.endpoint (bits i.w2.toNat 2 2) (bits i.w2.toNat 1 0) i.w3 e.id e.sent data poison] }

/-- An entry whose payload has left for an endpoint and whose last byte is still to be acknowledged there (R429). -/
def State.awaitsEndpoint (s : State) (e : SendEnt) : Bool :=
  0 < e.payload && e.payload ≤ e.sent && !e.failed && !e.ending && e.refused.isEmpty &&
    ((s.sendTarget e.die e.dst e.len).map (·.kind == 2)).getD false

/-- Write an entry's end: the patched `LEN` of a held entry (R434), `LERR` and `LERRS` where it failed or its source was
poisoned, then `LDONE` past every entry that has completed in order (R265). -/
def State.endSend (s : State) (e : SendEnt) : EngRes Unit :=
  let err := e.failed || e.bad.isSome
  let e := { e with ending := true }
  ((s.setSend e).listSpots e e.list 64 .device).bind fun s ps =>
    match ps with
    | none => .ok (s.setSend { e with done := true }) ()
    | some ps =>
      (s.engFetch e.id e.die ps).bind fun s (bs, _) =>
      let sc := sendCtlOf bs
      let slot := (sc.ebase + 32 * ((e.seq - 1) % 2 ^ sc.caplog) + 24) % 2 ^ 64
      (if err || bit e.len.toNat 48 then
          (s.listSpots e slot 8 .either).bind fun s es =>
            match es with
            | none => .ok s ()
            | some es =>
              (s.engFetch e.id e.die es).bind fun s (ob, _) =>
                let w := if bit e.len.toNat 48 then ofBytes ob / 2 ^ 32 * 2 ^ 32 + e.payload else ofBytes ob
                s.listPut e es (toBytes 8 (if err then w % 2 ^ 63 + 2 ^ 63 else w))
        else .ok s ()).bind fun s _ =>
        let mine := s.sends.filter fun x => x.die == e.die && x.list == e.list
        let top := mine.foldl (fun n _ => if mine.any fun x => x.seq == n + 1 && (x.done || x.id == e.id) then n + 1 else n) sc.ldone
        let lerrs := if err then sc.lerrs + 1 else sc.lerrs
        (s.listPut e (ps.drop 0x20 |>.take 16) (toBytes 8 top ++ toBytes 8 lerrs)).bind fun s3 _ =>
          .ok { s3.setSend { e with done := true } with
            sends := (s3.setSend { e with done := true }).sends.filter fun x => !(x.die == e.die && x.list == e.list && x.seq ≤ top) } ()

/-- One move of an entry: fail it, send its next payload message, send its stamp once every message is acknowledged, or end
it. -/
def State.sendMove (s : State) (e : SendEnt) : EngRes Unit :=
  let fail := e.failed || !e.refused.isEmpty || (!e.stamping && s.sendFails e)
  let away := s.importAway e.die (bits e.dst.toNat 63 52)
  let slot := s.sendTarget e.die e.dst e.len
  if e.ending then s.endSend e
  else if !away.isEmpty then .wait (s.want away)
  else
  match slot with
  | none => if s.sendOpen e then .wait s else s.endSend { e with failed := true }
  | some i =>
    if !fail && e.sent < e.payload then
      (s.sendChunk e).bind fun s (data, poison) =>
        (if i.kind == 2 then .ok (s.toEndpoint e i data poison) true
         else s.sendBytes e i tPayload (bits e.dst.toNat 51 0 + e.sent) data poison).bind fun s ok =>
          if ok then
            .ok (s.setSend { e with sent := e.sent + data.length,
                                    bad := e.bad <|> (if poison then some (min (e.sent / 128) 0x7FFE) else none) }) ()
          else .ok (s.setSend { e with failed := true }) ()
    else if s.sendOpen e then .wait s
    else if bit e.len.toNat 49 && !e.stamping then
      (s.sendBytes e i tStamp e.stampAt (toBytes 8 (stampWord (if fail then some 0x7FFF else e.bad) e.seq)) false).bind
        fun s ok => .ok (s.setSend { e with failed := fail || !ok, stamping := true }) ()
    else s.endSend { e with failed := fail }

/-- SEND_ENTRY_COMPLETE (R265): an accepted entry that is not held moves on, and in the end completes or fails. Where the payload has left
for a scale-out endpoint the event is that endpoint's acknowledgement of the last byte (R429). -/
def execSendEntryComplete (id : Nat) (s : State) : Out :=
  match s.sends.find? (·.id == id) with
  | none => .next s
  | some e =>
    if e.held || e.done || e.waits.isSome then .next s
    else
      match s.sendMove e with
      | .ok s _ => .next (s.dropLines id)
      | .wait s => .next s
      | .fault s d va k =>
        let r := s.engFault id d va k
        .next { r.1 with sends := updWhere (·.id == id) (fun e => { e with waits := some r.2 }) r.1.sends }

end Sys2Proof.Machine
end

