-- ==== Sys2Proof/Machine/LaunchEvents.lean ====
section
/-! DEFINITION. The front end: launch queues, reading and checking headers, dependences, placing blocks, releasing exited
blocks, ending launches (R276 to R281, R293, R298, R303, R306, R370 to R388). -/

namespace Sys2Proof.Machine

/-! ## Queues (R370, R371, R375) -/

def setAt (l : List Nat) (k v : Nat) : List Nat := l.set k v

/-- The address of a queue's block. -/
def qBase (v : Word) : Nat := bits v.toNat 63 7 * 2 ^ 7

/-- A write of a die's own, performed at once where its line lets it in. -/
def State.put (s : State) (d va : Nat) (bs : List Byte) : State :=
  let s1 := s.post d va bs false
  s1.settlePosted s1.posted

/-- Write a queue's two counts to its block where that translates. -/
def State.putCounts (s : State) (d base nread nref : Nat) : State := s.put d (base + 0x10) (toBytes 8 nread ++ toBytes 8 nref)

/-- Tear a queue down: its unread headers stay unread, its held launches are discarded (R375). -/
def State.teardown (s : State) (d n : Nat) : State :=
  { s.modDie d fun di => { di with queues := Sparse.erase di.queues n } with
    launches := s.launches.filter fun l => !(l.die == d && l.queue == n && l.held) }.noteReady

/-- Write QCTL n (R370): teardown when the queue was enabled, then enabling when EN is 1. -/
def State.writeQctl (s : State) (d n : Nat) (v : Word) : State :=
  let w := v &&& ~~~ 0x7C#64
  let s1 := if (Sparse.find? (s.die d).queues n).isSome then s.teardown d n else s
  let s2 := s1.modDie d fun di => { di with qctl := Sparse.set 0 di.qctl n w }
  if bit w.toNat 0 && s.inService d then
    (s2.modDie d fun di => { di with queues := Sparse.put di.queues n ⟨qBase w, 0, 0, none, 0, []⟩ }).putCounts d (qBase w) 0 0
  else s2

/-- QUEUE_ENABLE (R370): EN is written 1. The registers of a die out of service ignore writes (R6, R450). -/
def execQueueEnable (die : Fin 4) (queue : Fin 32) (value : Word) (s : State) : Out :=
  .next (if s.inService die.val then (s.wake die.val).writeQctl die.val queue.val (value ||| 1#64) else s)

/-- QUEUE_TEARDOWN (R375): EN is written 0. -/
def execQueueTeardown (die : Fin 4) (queue : Fin 32) (s : State) : Out :=
  .next (if s.inService die.val then (s.wake die.val).writeQctl die.val queue.val (Sparse.get 0 (s.die die.val).qctl queue.val &&& ~~~ 1#64) else s)

/-! ## Headers (R376 to R382) -/

/-- The fields of a header (R376). -/
structure Header where
  code : Nat
  args : Word
  ext : Nat
  shape : Word
  lres : Word
  extents : List Nat
  cword : Nat
  cseq : Word
  cctl : Nat
  pctl : Word
  pval : Nat
  rest : Nat
deriving DecidableEq, Repr

def headerOf (bs : List Byte) : Header :=
  let w (o n : Nat) : Nat := fieldAt bs o n
  { code := w 8 8, args := BitVec.ofNat 64 (w 0x10 8), ext := w 0x18 8, shape := BitVec.ofNat 64 (w 0x20 8),
    lres := BitVec.ofNat 64 (w 0x28 8), extents := (List.range 4).map fun k => w (0x30 + 4 * k) 4, cword := w 0x40 8,
    cseq := BitVec.ofNat 64 (w 0x48 8), cctl := w 0x50 8, pctl := BitVec.ofNat 64 (w 0x58 4), pval := w 0x5C 4,
    rest := w 0x60 32 }

def resVregs (r : Word) : Nat := bits r.toNat 7 0
def resScr (r : Word) : Nat := 1024 * bits r.toNat 16 8
def resSlots (r : Word) : Nat := bits r.toNat 26 17
def resSets (r : Word) : Nat := bits r.toNat 29 27
def resPrio (r : Word) : Nat := bits r.toNat 32 30
def resRegroup (r : Word) : Bool := bit r.toNat 33
def resSysm (r : Word) : Bool := bit r.toNat 34
def resHold (r : Word) : Bool := bit r.toNat 35
def resPatch (r : Word) : Nat := bits r.toNat 43 36
def resNrd (r : Word) : Nat := bits r.toNat 47 44
def resNwr (r : Word) : Nat := bits r.toNat 51 48
def resNrgn (r : Word) : Nat := bits r.toNat 54 52

/-- V registers allocated per lane (R17). -/
def allocVregs (r : Word) : Nat := max 8 (roundUp (resVregs r) 8)

/-- Groups per block, ranks per cluster, lanes per group (R277). -/
def shapeGroups (shape : Word) : Nat := 2 ^ shapeBits shape (shapeGB shape) (shapeBB shape)
def shapeRanks (shape : Word) : Nat := if shapeCB shape = 0 then 1 else 2 ^ shapeBits shape (shapeBB shape) (shapeCB shape)
def shapeLanes (shape : Word) : Nat := 2 ^ shapeBits shape 0 (shapeGB shape)

/-- The fields and boundaries keep R132 and R276. -/
def shapeOk (shape : Word) : Bool :=
  let g := shapeGB shape
  let b := shapeBB shape
  let c := shapeCB shape
  bits shape.toNat 63 45 == 0 && (g == 1 || g == 2) && shapeBits shape 0 g ≤ 5 && g < b && shapeBits shape g b ≤ 5 &&
    (c == 0 || (b < c && shapeBits shape b c ≤ 4)) && max b c < shapeEnd shape && shapeBits shape 0 6 ≤ 64

/-- The extents keep R377. -/
def extentsOk (shape : Word) (ex : List Nat) : Bool :=
  let ws := idxWidths shape
  ((List.range 4).all fun k => if k < ws.length then ex.getD k 0 ≤ 2 ^ ws.getD k 0 else ex.getD k 0 == 0)

/-- Pool rows of a block (R17). -/
def blockRows (shape lres : Word) : Nat := shapeGroups shape * allocVregs lres + 32 * resSets lres

/-- A block, or a cluster whole, fits an empty core or hardware cluster (R17, R279, R280, R293, R306, R382); more than 256 KiB of
scratchpad or 512 slots fit none (DEDUCED, log 108). -/
def placeable (shape lres : Word) : Bool :=
  let rows := blockRows shape lres
  let per := min (min (2048 / rows) (32 / shapeGroups shape)) (min 4 (if resScr lres = 0 then 4 else 2 ^ 18 / resScr lres))
  rows ≤ 2048 && shapeGroups shape ≤ 32 && resScr lres ≤ 2 ^ 18 && shapeRanks shape ≤ 4 * per &&
    shapeRanks shape * resSlots lres ≤ 512

/-- What the front end checks in the header alone (R382). -/
def headerOk (h : Header) (sysok : Bool) : Bool :=
  let r := h.lres
  h.rest == 0 && bits r.toNat 63 55 == 0 && bits h.cctl 63 3 == 0 && bits h.pctl.toNat 31 9 == 0 && !bit h.pctl.toNat 2 &&
    h.code % 4 == 0 && h.cword % 8 == 0 && h.ext % 64 == 0 &&
    (h.ext != 0 || (resNrd r == 0 && resNwr r == 0 && resNrgn r == 0)) &&
    3 ≤ h.cctl && h.cctl ≤ 5 && shapeOk h.shape && extentsOk h.shape h.extents &&
    1 ≤ resVregs r && resVregs r ≤ 192 && resSets r ≤ 4 && resNrd r ≤ 8 && resNwr r ≤ 8 && resNrgn r ≤ 4 &&
    (!resSysm r || sysok) && (resPatch r == 0 || resHold r) && placeable h.shape r

/-- Ranges of the extension (R380). -/
def rangesOf (bs : List Byte) (n : Nat) : List (Nat × Nat) :=
  (List.range n).map fun k => (fieldAt bs (16 * k) 8, fieldAt bs (16 * k + 8) 8)

def rangesOk (l : List (Nat × Nat)) : Bool := l.all fun r => 1 ≤ r.2 && r.2 ≤ 2 ^ 40

/-- A region descriptor (R298): none when it is not valid. -/
def regionOf (w0 w1 : Nat) : Option Region :=
  if bit w1 63 then some ⟨w0, bits w1 35 24, bits w1 17 0, bit w1 62⟩ else none

/-- The valid regions keep R298 in an allocation of `scr` bytes. -/
def State.regionsOk (s : State) (d : Nat) (scr : Nat) (ds : List (Nat × Nat)) : Bool :=
  let rs := ds.filterMap fun (a, b) => regionOf a b
  (ds.all fun (a, b) => !bit b 63 || (a % 4096 == 0 && bits b 61 36 == 0 && bits b 23 18 == 0 && bits b 17 0 % 128 == 0 &&
      1 ≤ bits b 35 24 && bits b 35 24 ≤ 64)) &&
    (rs.all fun r => r.soff + 4096 * r.len4k + 576 ≤ scr && r.backing + 4096 * r.len4k ≤ 2 ^ 64 &&
      match (s.die d).saveRange with
      | some (a, n) => !meets r.backing (4096 * r.len4k) a n
      | none => true) &&
    (rs.zipIdx.all fun (r, i) => rs.zipIdx.all fun (q, j) =>
      i == j || !meets r.soff (4096 * r.len4k) q.soff (4096 * q.len4k))

/-! ## Dependences (R383) -/

/-- Two ranges meet in a granule of 256 bytes. -/
def granMeet (x y : Nat × Nat) : Bool :=
  x.1 / 256 ≤ (y.1 + y.2 - 1) / 256 && y.1 / 256 ≤ (x.1 + x.2 - 1) / 256

def anyMeet (l m : List (Nat × Nat)) : Bool := l.any fun x => m.any (granMeet x)

/-- Is a newly read launch ordered after an unfinished one? -/
def ordered (o : Launch) (reads writes : List (Nat × Nat)) : Bool :=
  anyMeet o.writes reads || anyMeet o.reads writes || anyMeet o.writes writes

/-! ## HEADER_READ (R373, R382) -/

/-- Is there something to read at the link a queue watches? Not where it reads zero, or lies in a poisoned line; a line that a peer
holds exclusively is to be taken back first (R373). -/
def State.unread (s : State) (d : Nat) (q : Queue) : Bool :=
  q.waits.isNone &&
    match s.spots d q.link 8 .read .device with
    | (s, .ok ps) => (ofBytes (s.readPlaces ps) != 0 && !ps.any s.badByte) ||
        s.holders.any fun h => h.excl && (placeLines ps).contains (false, h.line)
    | (_, .fault va _) => !q.refused.contains (va / 2 ^ 16)
    | (_, .wait) => true

/-- The front end of a die acts (R274, R446, R452): the die is in service, its logical device not halted, the device not stopped. -/
def State.frontUp (s : State) (d : Nat) : Bool := s.inService d && !(s.die d).halted && s.bootState == 0

/-- The queue a front end serves next: round-robin by number among those with an unread header. -/
def State.queueTurn (s : State) (d : Nat) : Option Nat :=
  let qs := (s.die d).queues
  let last := s.qturn.getD d 0
  (((qs.filter fun q => last ≤ q.1) ++ qs.filter fun q => q.1 < last).find? fun q => s.unread d q.2).map (·.1)

/-- What reading a header gives. -/
inductive HeaderRead where
  | none_
  | lost (hdr : Nat)
  | got (hdr : Nat) (h : Header) (ext : Option (List (Nat × Nat) × List (Nat × Nat) × List (Nat × Nat)))

/-- Who reads a queue. -/
def queueWho (d n : Nat) : Nat := 2 ^ 71 + 32 * d + n

/-- Read bytes for the front end; none on a refused page, all ones in a poisoned line. -/
def State.frontRead (s : State) (who d : Nat) (q : Queue) (va n : Nat) : EngRes (Option (List Byte)) :=
  (s.engSpots d q.refused va n .read .device).bind fun s ps =>
    match ps with
    | none => .ok s none
    | some ps => (s.engFetch who d ps).bind fun s r => .ok s (some (sound r))

/-- Read a queue's next header and its extension; a refused page ends the reading (R382). -/
def State.readHeader (s : State) (d n : Nat) (q : Queue) : EngRes HeaderRead :=
  let get (s : State) (va z : Nat) := s.frontRead (queueWho d n) d q va z
  (get s q.link 8).bind fun s l =>
    let hdr := ofBytes (l.getD [])
    if hdr = 0 || hdr = 2 ^ 64 - 1 then .ok s .none_
    else
        (get s hdr 128).bind fun s hp =>
          match hp with
          | none => .ok s (.lost hdr)
          | some hp =>
            let h := headerOf hp
            let part (s : State) (o n : Nat) : EngRes (Option (List (Nat × Nat))) :=
              (get s (h.ext + o) (16 * n)).bind fun s ps => .ok s (ps.map fun bs => rangesOf bs n)
            if h.ext = 0 || h.ext % 64 != 0 || 8 < resNrd h.lres || 8 < resNwr h.lres || 4 < resNrgn h.lres then
              .ok s (.got hdr h (some ([], [], [])))
            else
              (part s 0 (resNrd h.lres)).bind fun s rd => (part s 0x80 (resNwr h.lres)).bind fun s wr =>
                (part s 0x100 (resNrgn h.lres)).bind fun s rg =>
                  .ok s (.got hdr h (match rd, wr, rg with
                    | some a, some b, some c => some (a, b, c)
                    | _, _, _ => none))

/-- Refuse a header (R382): it is counted and logged, and all ones go to its completion word where that can be translated. -/
def State.refuseHeader (s : State) (d hdr : Nat) (cword : Option Nat) : State :=
  let s1 := s.logOwn d 0x04 (BitVec.ofNat 64 hdr) 0
  match cword with
  | some va => s1.put d va (List.replicate 8 0xFF)
  | none => s1

/-- HEADER_READ (R373, R376 to R383): the store of a link wakes the die (R453), and the front end reads a queue's next header, refuses it or enters its launch. -/
def execHeaderRead (die : Fin 4) (queue : Fin 32) (s : State) : Out :=
  let d := die.val
  let n := queue.val
  let s := if s.frontUp d && s.queueTurn d == some n then s.wake d else s
  match Sparse.find? (s.die d).queues n with
  | none => .next s
  | some q =>
    if !s.frontUp d || s.queueTurn d != some n || 1024 ≤ (s.launches.filter (·.die == d)).length then .next s
    else
      let qv := Sparse.get 0 (s.die d).qctl n
      let setQ (s : State) (q : Queue) : State := s.modDie d fun di => { di with queues := Sparse.put di.queues n q }
      match s.readHeader d n q with
      | .wait s => .next s
      | .fault s d' va k =>
        let r := s.engFault (queueWho d n) d' va k
        .next (setQ r.1 { q with waits := some r.2, stamp := (s.die d).quiesce })
      | .ok s .none_ => .next s
      | .ok s (.lost hdr) =>
        let q1 := { q with link := hdr, nref := q.nref + 1 }
        .next (((setQ s q1).putCounts d (qBase qv) q1.nread q1.nref).refuseHeader d hdr none)
      | .ok s (.got hdr h ext) =>
        let r := h.lres
        let (rd, wr, rg) := ext.getD ([], [], [])
        let good := headerOk h (bit qv.toNat 1) && ext.isSome && rangesOk rd && rangesOk wr &&
          s.regionsOk d (resScr r) rg
        let q1 := { q with link := hdr, nread := q.nread + 1, nref := q.nref + (if good then 0 else 1) }
        let s1 := { ((setQ s q1).putCounts d (qBase qv) q1.nread q1.nref) with qturn := setAt s.qturn d (n + 1) }
        if !good then .next (s1.refuseHeader d hdr (some h.cword))
        else
          let l : Launch :=
            { id := s1.nextId, die := d, queue := n, hdr := hdr, code := h.code, args := h.args, shape := h.shape, lres := r,
              extents := h.extents, cword := h.cword, cseq := h.cseq, cscope := h.cctl, pctl := h.pctl, pval := h.pval,
              reads := rd, writes := wr, regions := rg.filterMap fun (a, b) => regionOf a b, stamp := 0,
              after := (s1.launches.filter fun o => o.die == d && ordered o rd wr).map (·.id), held := resHold r,
              suspended := false, placed := 0, live := [], readyAt := none, aged := false, waits := none, refused := [] }
          .next ({ s1 with nextId := s1.nextId + 1, launches := s1.launches ++ [l] } : State).noteReady

/-! ## Room on a core (R17, R279, R293, R306) -/

/-- Blocks that hold registers and partition room on a core. -/
def State.residents (s : State) (d core : Nat) : List Block :=
  s.blocks.filter fun b => b.die == d && b.core == core && !b.isSaved

def State.freeRows (s : State) (d core : Nat) : Nat :=
  2048 - ((s.residents d core).map fun b => if b.st == .retained then 0 else b.groups.length * b.vregs + 32 * b.setMax).foldl (· + ·) 0

/-- Free group places of a partition. -/
def State.freePlaces (s : State) (d core part : Nat) : List Nat :=
  let used := (s.residents d core).flatMap fun b =>
    if b.st == .retained then [] else (b.groups.filter (·.part == part)).map (·.pslot)
  (List.range 8).filter fun k => !used.contains k

/-- The places of n groups: each on the partition with the most free places. -/
def State.placesFor (s : State) (d core : Nat) : Nat → List (List Nat) → Option (List (Nat × Nat))
  | 0, _ => some []
  | n + 1, free =>
    let best := (List.range 4).foldl (fun b p => if (free.getD b []).length < (free.getD p []).length then p else b) 0
    match free.getD best [] with
    | [] => none
    | k :: ks => (s.placesFor d core n (free.set best ks)).map fun r => (best, k) :: r

/-- The lowest base at which an allocation fits. -/
def State.scrFit (s : State) (d core size : Nat) : Option Nat :=
  let held := ((s.residents d core).filter fun b => b.scrSize != 0).map fun b => (b.scrBase, b.scrSize)
  ((List.range 257).map (1024 * ·)).find? fun a =>
    a + size ≤ 2 ^ 18 && (size = 0 || held.all fun h => !meets a size h.1 h.2)

/-- Operand slots free in the cluster of a core. -/
def State.freeOps (s : State) (d core : Nat) : Nat := 512 - (s.store (d * 48 + core / 4)).opUsed.length

/-- The group places and scratchpad base a block takes on a core, where it fits. -/
def State.coreFit (s : State) (d core ngroups rows scr slots : Nat) : Option (List (Nat × Nat) × Nat) :=
  if s.freeRows d core < rows || s.freeOps d core < slots then none
  else
    match s.placesFor d core ngroups ((List.range 4).map (s.freePlaces d core)), s.scrFit d core scr with
    | some ps, some a => some (ps, a)
    | _, _ => none

/-- The core with the most free rows among those that fit, the lowest on a tie. -/
def State.bestCore (s : State) (d : Nat) (cores : List Nat) (ngroups rows scr slots : Nat) : Option Nat :=
  (cores.filter fun c => (s.coreFit d c ngroups rows scr slots).isSome).foldl
    (fun best c => match best with
      | none => some c
      | some b => if s.freeRows d b < s.freeRows d c then some c else some b) none

/-! ## Starting a block (R23, R95, R193, R278, R294, R381) -/

/-- Window identities of the lanes of blocks that have started and not exited (R95). -/
def State.windows (s : State) (d : Nat) : List (Nat × Nat) :=
  (s.blocks.filter fun b => b.die == d && !b.hasExited).flatMap fun b => b.lanes.map fun l => (l.winCore, l.winLane)

/-- The identity for a lane: its core and resident position when free, else any free one, of which the model takes the lowest (DESIGN
CHOICE, log 100). -/
def pickWindow (used : List (Nat × Nat)) (core pos : Nat) : Nat × Nat :=
  if !used.contains (core, pos) then (core, pos)
  else
    match (List.range (192 * 1024)).find? fun k => !used.contains (k / 1024, k % 1024) with
    | some k => (k / 1024, k % 1024)
    | none => (core, pos)

/-- Identities for a list of resident positions. -/
def pickWindows (core : Nat) : List (Nat × Nat) → List Nat → List (Nat × Nat)
  | _, [] => []
  | used, p :: ps => let w := pickWindow used core p; w :: pickWindows core (w :: used) ps

/-- The value of the index fields of a launch's unit n, shifted to their places. -/
def unitWid (shape : Word) (extents : List Nat) (n : Nat) : Nat :=
  let ws := idxWidths shape
  let base := shapeBits shape 0 (shapeTop shape)
  ((List.range ws.length).foldl (fun (acc : Nat × Nat × Nat) k =>
    let e := extents.getD k 1
    (acc.1 + acc.2.1 % e * 2 ^ acc.2.2, acc.2.1 / e, acc.2.2 + ws.getD k 0)) (0, n, base)).1

/-- Start a block of a launch on a core at given places; its accesses follow the front end's acquires (R344, R383). -/
def State.startBlock (s : State) (l : Launch) (unit rank core bcl : Nat) (places : List (Nat × Nat)) (base : Nat) : State :=
  let d := l.die
  let di := s.die d
  let nl := shapeLanes l.shape
  let ng := shapeGroups l.shape
  let id := s.nextId
  let wins := pickWindows core (s.windows d) (places.flatMap fun p => (List.range 32).map fun m => (p.1 * 8 + p.2) * 32 + m)
  let seed : Word := if di.defseed = 0 then 0x9E3779B97F4A7C15#64 else di.defseed
  let lane (k : Nat) : Lane :=
    let wid : Word := BitVec.ofNat 64 (k % 32 + k / 32 * 2 ^ shapeBits l.shape 0 (shapeGB l.shape) +
      rank * 2 ^ shapeBits l.shape 0 (shapeBB l.shape) + unitWid l.shape l.extents unit)
    let w := wins.getD k (0, 0)
    { regs := [], void := 0x3FF, p := 0, flags := 0, rng := Config.seedMix seed wid, wid := wid, winCore := w.1, winLane := w.2,
      pc := l.code, run := ⟨l.code, 0, 0, []⟩, st := if k % 32 < nl then .between l.code 0 .ready else .exited, phys := k,
      since := s.cycle }
  let ctl : Word := mkWord [(if di.defctl.getLsbD 0 then 1 else 0, 0), (resPrio l.lres, 4), (if resRegroup l.lres then 1 else 0, 7)]
  let grp (p : Nat × Nat) : Group :=
    { k := [l.args, BitVec.ofNat 64 l.pval] ++ List.replicate 14 0, h := List.replicate 16 0, hPend := [], ctl := ctl, ops := [],
      sysMode := resSysm l.lres, sysLaunch := resSysm l.lres, raised := none, frame := none, refusals := [], broken := [],
      part := p.1, pslot := p.2, heldBy := none, due := [] }
  let b : Block :=
    { id := id, resides := id, die := d, core := core, launch := l.id, rank := rank, bcluster := bcl, vregs := allocVregs l.lres,
      setMax := resSets l.lres, lanes := (List.range (32 * ng)).map lane, groups := places.map grp, cohorts := [], rdvs := [],
      sets := [], scrBase := base, scrSize := resScr l.lres, scratch := [], scrPoison := [], regions := l.regions, lines := [],
      slots := [], wbWaits := none, wbStamp := 0, wbRefused := [], tsErr := none, ctxOps := [], ctxCs := [], st := .running }
  let s1 : State := { s with nextId := id + 1, blocks := s.blocks ++ [b] }
  let r := (List.range (resSlots l.lres)).foldl (fun (acc : State × Block) _ =>
    match acc.1.claimOp acc.2 1 with
    | some (_, s, b) => (s, b)
    | none => acc) (s1, b)
  ({ r.1.setBlock r.2 with
    launches := updWhere (·.id == l.id) (fun l => { l with live := l.live ++ [id] }) s1.launches } : State).acquireAt b.coreKey

/-- Place one block of a unit on the best of some cores, while its lanes find window identities free (R95). -/
def State.placeOn (s : State) (l : Launch) (unit rank bcl : Nat) (cores : List Nat) : Option State :=
  let ng := shapeGroups l.shape
  let rows := blockRows l.shape l.lres
  if 192 * 1024 < (s.windows l.die).length + 32 * ng then none
  else match s.bestCore l.die cores ng rows (resScr l.lres) (resSlots l.lres) with
  | none => none
  | some c => (s.coreFit l.die c ng rows (resScr l.lres) (resSlots l.lres)).map fun f => s.startBlock l unit rank c bcl f.1 f.2

/-- Place a block cluster on the cores of one hardware cluster, at most 4 blocks on a core (R280). -/
def State.placeCluster (s : State) (l : Launch) (unit cl : Nat) : Option State :=
  let cores := (List.range 4).map (4 * cl + ·)
  let bcl := s.nextId
  (List.range (shapeRanks l.shape)).foldl (fun (acc : Option State) r =>
    acc.bind fun s => s.placeOn l unit r bcl
      (cores.filter fun c => (s.blocks.filter fun b => b.bcluster == bcl && b.die == l.die && b.core == c).length < 4)) (some s)

/-- The next unit of a launch: a block on the die's best core, or a cluster in the hardware cluster with the most free rows. -/
def State.placeUnit (s : State) (l : Launch) : Option State :=
  if shapeCB l.shape = 0 then s.placeOn l l.placed 0 s.nextId (List.range 192)
  else
    let rows (cl : Nat) : Nat := ((List.range 4).map fun k => s.freeRows l.die (4 * cl + k)).foldl (· + ·) 0
    let fits := (List.range 48).filter fun cl => (s.placeCluster l l.placed cl).isSome
    (fits.foldl (fun (best : Option Nat) cl => match best with
      | none => some cl
      | some b => if rows b < rows cl then some cl else some b) none).bind fun cl => s.placeCluster l l.placed cl

/-! ## The order of placing (R385, R386) -/

/-- The units of a launch. -/
def Launch.total (l : Launch) : Nat := ((List.range (idxWidths l.shape).length).map fun k => l.extents.getD k 0).foldl (· * ·) 1

/-- Launches whose next unit may be placed. -/
def State.placeReady (s : State) (d : Nat) : List Launch :=
  s.launches.filter fun l => l.die == d && !l.suspended && s.launchReady l && l.placed < l.total &&
    !(s.blocks.any fun b => b.launch == l.id && b.isSaved)

def Launch.prio (l : Launch) : Nat := if l.aged then 8 else resPrio l.lres

/-- In the order of R385: the higher priority first, then the one read earlier. -/
def byPrio (ls : List Launch) : List Launch := (List.range 9).reverse.flatMap fun p => ls.filter (·.prio == p)

/-- LAUNCH_AGED (R386): a launch whose next block has waited 65,536 cycles. -/
def execLaunchAged (id : Nat) (s : State) : Out :=
  match s.launches.find? (·.id == id) with
  | none => .next s
  | some l =>
    match l.readyAt with
    | some t =>
      if s.launchReady l && l.placed < l.total && t + 65536 ≤ s.cycle then
        .next { s with launches := updWhere (·.id == id) (fun l => { l with aged := true }) s.launches }
      else .next s
    | none => .next s

/-! ## BLOCK_RELEASE (R143, R303) -/

/-- Every counter of a block reads zero and its ring is done: nothing published stands unaccepted or, unless held, unstamped. -/
def State.blockDone (s : State) (b : Block) : Bool :=
  b.hasExited && (b.groups.all fun g => g.ops.isEmpty) && (!b.hasRing || b.prod ≤ b.cons) &&
    (s.copies.all fun c => c.blk != b.id || c.st == .held) &&
    !((s.quarters ++ s.passes.flatMap (·.quarters)).any fun q => q.blk == b.id || q.aOwn == b.id || q.bOwn == b.id)

/-- Other members of a block's cluster that have not exited. -/
def State.clusterLive (s : State) (b : Block) : Bool :=
  s.blocks.any fun q => q.id != b.id && q.die == b.die && q.bcluster == b.bcluster && q.st != .retained

/-- The blocks whose storage goes with this one. -/
def State.clusterKept (s : State) (b : Block) : List Block :=
  s.blocks.filter fun q => q.id != b.id && q.die == b.die && q.bcluster == b.bcluster && q.st == .retained

/-- Return the slots a block still claims. -/
def State.returnSlots (s : State) (b : Block) : State :=
  let ops := b.slots.filterMap fun (k, e) => if k < 512 then some e.phys else none
  let cs := b.slots.filterMap fun (k, e) => if 512 ≤ k then some e.phys else none
  (s.freeSlots b.cluster false ops).freeSlots b.cluster true cs

/-- Forget what is in flight to registers of a block that is gone; what its core stored is published (R332). -/
def State.forget (s : State) (blk : Nat) : State :=
  { s with unpub := s.unpub.filter fun u => !((s.block? blk).map fun b => u.cores.contains b.coreKey).getD false,
           fixed := s.fixed.filter (·.blk != blk), longs := s.longs.filter (·.blk != blk),
           accs := s.accs.filter (·.blk != blk), monitors := s.monitors.filter (·.blk != blk),
           rings := s.rings.filter (·.blk != blk), copies := s.copies.filter (·.blk != blk),
           pubs := s.pubs.filter (·.blk != blk), appends := s.appends.filter (·.blk != blk), reach := s.reach.filter (·.blk != blk) }

/-- BLOCK_RELEASE (R143, R299, R303): an exited block writes back its dirty backed lines, then frees its storage; a member of
a block cluster keeps its scratchpad until the last member goes. -/
def execBlockRelease (blk : Nat) (s : State) : Out :=
  match s.block? blk with
  | none => .next s
  | some b =>
    if b.st == .retained || b.isSaved || !s.blockDone b then .next s
    else
      let last := !s.clusterLive b
      let dirty := (b :: (if last then s.clusterKept b else [])).find? fun q => !q.dirtyLines.isEmpty
      match dirty with
      | some q =>
        if q.wbWaits.isSome then .next s
        else
          match s.writeBackLine q (q.dirtyLines.headD 0) with
          | (s, .ok) | (s, .wait) => .next s
          | (s, .fault va k) =>
            let r := s.engFault q.id q.die va (kEngine + k)
            .next (r.1.modBlock q.id fun q => { q with wbWaits := some r.2, wbStamp := (s.die q.die).quiesce })
      | none =>
        let hdr := ((s.launches.find? fun l : Launch => l.id == b.launch).map fun l : Launch => l.hdr).getD 0
        let s1 := match b.tsErr with
          | some e => s.logOwn b.die 0x08 (BitVec.ofNat 64 hdr) (BitVec.ofNat 64 e.slot)
          | none => s
        let s2 := (((b.slots.map (·.1)).foldl (·.slotGone b ·) s1).returnSlots b).forget blk
        if last then
          let gone := blk :: (s.clusterKept b).map (·.id)
          .next { s2 with
            blocks := s2.blocks.filter fun q => !gone.contains q.id,
            launches := updWhere (·.id == b.launch) (fun l => { l with live := l.live.filter fun k => !gone.contains k }) s2.launches }
        else
          .next (s2.setBlock { b with lanes := [], groups := [], cohorts := [], rdvs := [], sets := [], slots := [],
                                      tsErr := none, st := .retained })

/-! ## LAUNCH_END (R387) -/

/-- LAUNCH_END (R387): every block has gone; every store is published, which takes the lines of the write ranges and
may take others (DESIGN CHOICE, log 111); `CSEQ` is written to `CWORD`, and the launch is finished. Where the host link, or a lost peer
that held the line, stands in the way, or the page is refused, the header is logged. -/
def execLaunchEnd (id : Nat) (s : State) : Out :=
  match s.launches.find? (·.id == id) with
  | none => .next s
  | some l =>
    if !s.launchReady l || l.placed < l.total || !l.live.isEmpty || l.waits.isSome then .next s
    else
      let done (s : State) : State := ({ s with launches := s.launches.filter (·.id != id) } : State).noteReady
      match s.engSpots l.die l.refused l.cword 8 .write .either with
      | .wait s => .next s
      | .fault s d va k =>
        let r := s.engFault id d va k
        .next { r.1 with launches := updWhere (·.id == id) (fun l => { l with waits := some r.2, stamp := (s.die l.die).quiesce }) r.1.launches }
      | .ok s ps =>
        let lost := match ps with
          | none => true
          | some ps => (ps.any fun p => match p with
              | .host a => !s.hostLinks.getLsbD (bits a 12 12)
              | _ => false) ||
            s.holders.any fun h => h.excl && (s.peer h.pos).lost && (placeLines ps).contains (false, h.line)
        if lost then .next (done (s.logOwn l.die 0x04 (BitVec.ofNat 64 l.hdr) 0))
        else
          match s.engPrepare id l.die (ps.getD []) (toBytes 8 l.cseq.toNat) false with
          | .ok s _ => .next (done ((s.publish fun _ => true).engCommit (ps.getD []) (toBytes 8 l.cseq.toNat) false))
          | .wait s => .next s
          | _ => .next s

end Sys2Proof.Machine
end

