-- ==== Sys2Proof/Machine/Preempt.lean ====
section
/-! DEFINITION. Pre-emption and contexts (R401 to R409, R149, R290, R313), and the quiescence counter (R399). -/

namespace Sys2Proof.Machine

/-! ## Requests (R402, R403) -/

/-- Cycles of a microsecond at 1.75 GHz (R46). -/
def usCycles : Nat := 1750

/-- A pre-emption request reaches the running blocks of some launches; without a save aperture they run to their end (R406). -/
def State.requestSave (s : State) (d : Nat) (which : Launch → Bool) (window : Nat) : State :=
  if ((s.die d).saveRange).isNone then s
  else
    let ids := (s.launches.filter fun l => l.die == d && which l).map (·.id)
    let hit (b : Block) : Bool := b.die == d && ids.contains b.launch && b.st == .running
    { s with blocks := updWhere hit (fun b => { b with st := .window window }) s.blocks }

/-- Does a command name a launch? -/
def named (hdr : Nat) (all : Bool) (l : Launch) : Bool := all || l.hdr / 128 == hdr / 128

def State.suspend (s : State) (d hdr : Nat) (all : Bool) : State :=
  let us := (s.die d).prewin.toNat % 2 ^ 32
  let s1 : State := { s with launches := updWhere (fun l => l.die == d && named hdr all l) (fun l => { l with suspended := true }) s.launches }
  s1.requestSave d (named hdr all) (if us = 0 then 0 else s.cycle + us * usCycles)

/-- Parked lanes go on at the instruction after their CHKPT. -/
def Block.unpark (b : Block) : Block :=
  b.modLanes (fun _ => true) fun _ ln =>
    match ln.st with
    | .between a m (.parked _) => { ln with st := .between a m .ready }
    | _ => ln

/-- The members of a block's cluster, itself among them. -/
def State.clusterOf (s : State) (b : Block) : List Block :=
  s.blocks.filter fun q => q.die == b.die && q.bcluster == b.bcluster

/-- Some member of a block's cluster is saved: the cluster is saved and restored whole (R402). -/
def State.clusterSaved (s : State) (b : Block) : Bool :=
  (s.clusterOf b).any (·.isSaved)

/-- The suspension of launches is lifted; blocks not yet saved run on, unless the logical device is halted or their cluster's save has
begun. -/
def State.resume (s : State) (d : Nat) (which : Launch → Bool) : State :=
  let ids := (s.launches.filter fun l => l.die == d && which l).map (·.id)
  { s with
    launches := updWhere (fun l => ids.contains l.id) (fun l => { l with suspended := false }) s.launches,
    blocks := updWhere (fun b => b.die == d && ids.contains b.launch && b.preempting && !(s.die d).halted && !s.clusterSaved b)
      (fun b => { b.unpark with st := .running }) s.blocks }

/-- PREQ_SUSPEND and PREQ_RESUME (R389, R402): a management command wakes its die (R453). -/
def execPreqSuspend (die : Fin 4) (hdr : Word) (all : Bool) (s : State) : Out := .next ((s.wake die.val).suspend die.val hdr.toNat all)
def execPreqResume (die : Fin 4) (hdr : Word) (all : Bool) (s : State) : Out := .next ((s.wake die.val).resume die.val (named hdr.toNat all))

/-! ## Stopping (R403) -/

def Lane.isParked (l : Lane) : Bool := match l.st with
  | .exited => true
  | .between _ _ (.parked _) => true
  | _ => false

/-- Every group has parked. -/
def Block.allParked (b : Block) : Bool := b.lanes.all (·.isParked)

/-- A lane stands at a run boundary, counting the holds of R149 and R290, lanes that wait before a run whose first instruction could not be
fetched (R397), and lanes held outside an open frame, of their own group or of another member's (R289, R351); in a halted logical device
also a lane whose trap is not taken (R274, R347). -/
def Block.atBoundary (b : Block) (halted : Bool) (ln : Lane) : Bool :=
  match ln.st with
  | .exited => true
  | .between _ _ _ => true
  | .running k => b.cohorts.any fun c => c.id == k &&
      (b.unstarted c || c.lanes.any (fun l => (b.group (l / 32)).heldBy.isSome) || match c.stage with
        | .rdv _ => true
        | .held => halted || ((b.group (c.lanes.headD 0 / 32)).frame.map fun f => !c.lanes.any f.raised.lanes.contains).getD false
        | _ => false)

/-- Cohorts that wait before their run's first instruction end: their lanes stand at the run's start. -/
def Block.unstart (b : Block) : Block :=
  let ks := b.cohorts.filter b.unstarted
  { b.modLanes (fun _ => true) fun _ ln => match ln.st with
      | .running n => match ks.find? (·.id == n) with
        | some k => { ln with st := .between k.start 0 .ready }
        | none => ln
      | _ => ln with
    cohorts := b.cohorts.filter (!b.unstarted ·) }

/-- PREEMPT_WINDOW_END (R403): groups not yet parked stop at their next run boundary, and the save becomes a full one. -/
def execPreemptWindowEnd (blk : Nat) (s : State) : Out :=
  match s.block? blk with
  | none => .next s
  | some b =>
    match b.st with
    | .window e => if e != 0 && e ≤ s.cycle && !b.allParked then .next (s.setBlock { b with st := .window 0 }) else .next s
    | _ => .next s

/-- A block has stopped: every group parked, or the window has ended and every lane stands at a run boundary. A retained
member of a cluster stops with the others. -/
def State.stopped (s : State) (b : Block) : Bool :=
  match b.st with
  | .window e => b.allParked || (e = 0 && b.lanes.all (b.atBoundary (s.die b.die).halted))
  | .saved .. => true
  | .retained => s.blocks.any fun q => q.die == b.die && q.bcluster == b.bcluster && (q.preempting || q.isSaved)
  | .running => false

/-! ## Live-range tables (R401) -/

/-- What a save keeps beyond what it always keeps. -/
structure Keep where
  vs : List (Nat × Nat)
  scr : List (Nat × Nat)
  slots : List (Nat × Nat)
deriving DecidableEq, Repr

/-- One table entry of a block; none where it breaks R401. -/
def keepEntry (b : Block) (e : Nat) (k : Keep) : Option Keep :=
  match bits e 63 62 with
  | 0 =>
    let f := bits e 7 0
    let l := bits e 15 8
    if bits e 61 16 == 0 && f ≤ l && l < b.vregs then some { k with vs := k.vs ++ [(f, l)] } else none
  | 1 =>
    let o := bits e 17 0
    let n := bits e 50 32
    if bits e 61 51 == 0 && bits e 31 18 == 0 && o + n ≤ b.scrSize then some { k with scr := k.scr ++ [(o, n)] } else none
  | 2 =>
    let f := bits e 9 0
    let l := bits e 25 16
    if bits e 61 26 == 0 && bits e 15 10 == 0 && f ≤ l &&
        ((List.range (l + 1 - f)).all fun j => (Sparse.find? b.slots (f + j)).isSome) then
      some { k with slots := k.slots ++ [(f, l)] }
    else none
  | _ => none

/-- The lines that must come home before a table is read (R412). -/
def State.tableAway (s : State) (b : Block) (a : Nat) : List Nat :=
  s.virtAway b.die a 8 ++ match s.readVirt b.die a 8 with
    | some hd => if 2 ^ 16 ≤ ofBytes hd then [] else s.virtAway b.die (a + 8) (8 * ofBytes hd)
    | none => []

/-- Read a table; none where it cannot be read or breaks R401. -/
def State.readTable (s : State) (b : Block) (a : Nat) : Option Keep :=
  match s.readVirt b.die a 8 with
  | none => none
  | some hd =>
    let n := ofBytes hd
    if 2 ^ 16 ≤ n then none
    else
      match s.readVirt b.die (a + 8) (8 * n) with
      | none => none
      | some bs => (chunks 8 bs n).foldl (fun k e => k.bind (keepEntry b e)) (some ⟨[], [], []⟩)

/-- The tables at which lanes parked. -/
def Block.tables (b : Block) : List Nat :=
  (b.lanes.filterMap fun ln => match ln.st with
    | .between _ _ (.parked t) => some t
    | _ => none).eraseDups

def inRanges (r : List (Nat × Nat)) (k : Nat) : Bool := r.any fun p => p.1 ≤ k && k ≤ p.2

/-! ## What a save keeps (R405) -/

/-- A lane as it is saved: registers the save lists, Q and Y only at a rendezvous; lanes held at WAITC or WAITM stand at
their instruction again (R408). -/
def saveLane (full atRdv : Bool) (keep : Nat → Option Keep) (ln : Lane) : Lane :=
  let mine (c : Nat) : Bool := full || match ln.st with
    | .between _ _ (.parked t) => ((keep t).map fun k => inRanges k.vs c).getD false
    | _ => false
  { ln with
    regs := ln.regs.filter fun e => if e.1 < 192 then mine e.1 else atRdv,
    void := if atRdv then ln.void else 0x3FF,
    st := match ln.st with
      | .between _ m (.waitc ..) => .between ln.pc m .ready
      | .between _ m (.waitm _) => .between ln.pc m .ready
      | .between a m (.parked _) => .between a m .ready
      | st => st }

/-- A lane is held at a rendezvous (state 2 of R408). -/
def Block.inRdv (b : Block) (ln : Lane) : Bool :=
  match ln.st with
  | .running k => b.cohorts.any fun c => c.id == k && match c.stage with
    | .rdv _ => true
    | _ => false
  | _ => false

/-- A save keeps a byte of the allocation: all of them in a full save, else the top 576 and the listed ranges (R405). -/
def Block.keeps (b : Block) (full : Bool) (scr : List (Nat × Nat)) (o : Nat) : Bool :=
  full || b.scrSize ≤ o + 576 || scr.any fun r => r.1 ≤ o && o < r.1 + r.2

/-- The pieces of the scratchpad image: every byte kept, zero or not, of the lines that are not backed. -/
def Block.scrImage (b : Block) (full : Bool) (scr : List (Nat × Nat)) : List (Nat × List Byte) :=
  (List.range (b.scrSize / 128)).flatMap fun k =>
    let os := (List.range 128).map (128 * k + ·)
    if (b.backing k).isSome then []
    else if os.all (b.keeps full scr) then [(0xD8000 + 128 * k, os.map b.scrByte)]
    else (os.filter (b.keeps full scr)).map fun o => (0xD8000 + o, [b.scrByte o])

/-- A block as its context holds it. -/
def State.saveBlock (s : State) (b : Block) (full : Bool) (tables : List (Nat × Keep)) (slot : Nat) : Block :=
  let keep (t : Nat) : Option Keep := (tables.find? (·.1 == t)).map (·.2)
  let scr := tables.flatMap (·.2.scr)
  let slots := tables.flatMap (·.2.slots)
  let kept (o : Nat) : Bool := b.keeps full scr o
  let t := s.store b.cluster
  let backed (o : Nat) : Bool := (b.backing (o / 128)).isSome
  { b with
    lanes := b.lanes.map fun ln => saveLane full (b.inRdv ln) keep ln,
    scratch := b.scratch.filter fun e => kept e.1 && !backed e.1,
    scrPoison := b.scrPoison.filter fun l => !backed (128 * l) && (List.range 128).any fun k => kept (128 * l + k),
    lines := [],
    cohorts := b.cohorts.map fun k => match k.stage with
      | .slot _ => { k with stage := .resume }
      | _ => k,
    ctxOps := b.slots.filterMap fun (k, e) =>
      if k < 512 && (full || inRanges slots k) then some (k, t.op e.phys) else none,
    ctxCs := b.slots.filterMap fun (k, e) => if 512 ≤ k then some (k, t.c e.phys) else none,
    st := .saved slot full }

/-! ## The context slot (R407, R408) -/

def ctxBase (ap slot : Nat) : Nat := ap + slot * 2 ^ 22

def laneCode (b : Block) (l : Nat) (ln : Lane) : Nat :=
  let outside := (b.group (l / 32)).heldBy.isSome || ((b.group (l / 32)).frame.map fun f => !f.raised.lanes.contains l).getD false
  match ln.st with
  | .exited => 7
  | .between _ _ (.parked _) => 1
  | .between _ _ (.waitc ..) => 3
  | .between _ _ (.waitm _) => 3
  | .running _ => if b.inRdv ln then 2 else 4
  | _ => if outside then 4 else 0

def laneResume (ln : Lane) : Nat :=
  match ln.st with
  | .between _ _ (.waitc ..) => ln.pc
  | .between _ _ (.waitm _) => ln.pc
  | .between a _ _ => a
  | _ => ln.pc

/-- A lane record. -/
def laneRecord (b : Block) (l : Nat) (ln : Lane) : List Byte :=
  let reg (k : Nat) : Reg := Sparse.get Reg.zero ln.regs (192 + k)
  toBytes 8 (laneResume ln) ++ toBytes 8 (laneCode b l ln + ln.p.toNat * 2 ^ 8) ++ toBytes 8 ln.flags.toNat ++
    toBytes 8 ln.rng.toNat ++ toBytes 8 (ln.winLane + ln.winCore * 2 ^ 10) ++
    toBytes 8 (packNat 4 ((List.range 10).map fun k => tagCode (reg k).tag) + ln.void.toNat * 2 ^ 40) ++
    List.replicate 16 0 ++ (List.range 10).flatMap fun k => toBytes 8 (reg k).bits.toNat

/-- A group record: the rendezvous word holds the address of the open rendezvous the group stands at, the mode word system
mode (log 8). -/
def groupRecord (b : Block) (g : Nat) (gr : Group) : List Byte :=
  let at_ := ((b.rdvs.find? fun r => r.order.contains g).map (·.pc)).getD 0
  (gr.k.flatMap fun k => toBytes 8 k.toNat) ++ (gr.h.flatMap fun h => toBytes 64 h.toNat) ++ toBytes 8 gr.ctl.toNat ++
    toBytes 8 at_ ++ toBytes 8 ((if gr.sysMode then 1 else 0) + (if gr.frame.isSome then 2 else 0))

def setRecord (b : Block) (n : Nat) : List Byte :=
  match b.sets.find? (·.no == n) with
  | some t =>
    toBytes 8 (maskOf ((List.range 32).map t.members.contains)) ++ toBytes 8 1 ++
      toBytes 8 (((b.rdvs.find? fun r => r.scope == .set && r.members == t.members).map (·.pc)).getD 0) ++ List.replicate 40 0
  | none => List.replicate 64 0

/-- The slot-table entry of a local index. -/
def slotRecord (b : Block) (t : TileStore) (k : Nat) : Nat :=
  match Sparse.find? b.slots k with
  | none => 0
  | some e =>
    let pois := if k < 512 then (t.op e.phys).poison.toNat else (t.c e.phys).poison.toNat
    let win := match e.cfg with
      | some w => (w.dy - 1) * 2 ^ 30 + (w.dx - 1) * 2 ^ 28 + (w.sy - 1) * 2 ^ 26 + (w.sx - 1) * 2 ^ 24 + (w.ow - 1) * 2 ^ 19 +
          (w.iw - 1) * 2 ^ 12 + w.baserow * 2 ^ 5 + 2 ^ 4
      | none => 0
    pois * 2 ^ 32 + win + (if 1 < e.count then (e.count - 1) * 4 + 2 else 0) + 1

/-- Rows of a saved slot: a poisoned row as 0xFF. -/
def opRecord (o : OpSlot) : List Byte :=
  ((List.range 32).flatMap fun r => if o.poison.getLsbD r then List.replicate 96 0xFF else o.row r) ++
    ((List.range 32).flatMap fun r => (List.range 6).map fun k => if o.poison.getLsbD r then 0xFF else o.scale r k)

def cRecord (c : CSlot) : List Byte :=
  ((List.range 32).flatMap fun r => if c.poison.getLsbD r then List.replicate 128 0xFF
      else (List.range 16).flatMap fun j => toBytes 8 (c.elem r j).toNat) ++ toBytes 8 c.flagWord.toNat

/-- The image of a saved block: (offset, bytes), CXSTATE saving first and saved last. -/
def State.image (s : State) (b q : Block) (full : Bool) (scr : List (Nat × Nat)) (vs : Nat → List Nat) : List (Nat × List Byte) :=
  let vr := b.vregs
  let ng := b.groups.length
  let t := s.store b.cluster
  let lane (l : Nat) : Lane := q.lane l
  let vrow (g v : Nat) : List Byte := (List.range 32).flatMap fun m =>
    toBytes 8 (if (vs (32 * g + m)).contains v then (Sparse.get Reg.zero (lane (32 * g + m)).regs v).bits.toNat else 0)
  let vtags (g v : Nat) : List Byte := toBytes 16 (packNat 4 ((List.range 32).map fun m =>
    tagCode (if (vs (32 * g + m)).contains v then (Sparse.get Reg.zero (lane (32 * g + m)).regs v).tag else .n64)))
  let held := maskOf ((List.range 16).map fun k => s.copies.any fun c => c.blk == b.id && c.st == .held && (c.seq - 1) % 16 == k)
  let hdr := ((s.launches.find? fun l : Launch => l.id == b.launch).map fun l : Launch => l.hdr).getD 0
  [(0, toBytes 8 1), (8, toBytes 8 hdr), (0x10, toBytes 8 (b.lane 0).wid.toNat), (0x18, toBytes 8 (s.die b.die).time.toNat),
   (0x20, toBytes 8 (ng + vr * 2 ^ 16 + held * 2 ^ 32)), (0x28, List.replicate 4056 0)] ++
  ((List.range (32 * ng)).map fun l => (0x1000 + 8192 * (l / 32) + 256 * (l % 32), laneRecord b l { b.lane l with regs := (lane l).regs, void := (lane l).void })) ++
  ((List.range ng).map fun g => (0x41000 + 1536 * g, groupRecord b g (b.group g))) ++
  ((List.range 4).map fun n => (0x4D000 + 64 * n, setRecord b n)) ++
  ((List.range ng).flatMap fun g => (List.range vr).flatMap fun v =>
    if (List.range 32).any fun m => (vs (32 * g + m)).contains v then
      [(0x50000 + 256 * (vr * g + v), vrow g v), (0xD0000 + 16 * (vr * g + v), vtags g v)] else []) ++
  (b.sets.flatMap fun t => (List.range 32).flatMap fun i =>
    let row := vr * ng + 32 * t.no + i
    [(0x50000 + 256 * row, (List.range 32).flatMap fun p => toBytes 8 (Sparse.get 0 t.x (32 * i + p)).toNat),
     (0xD0000 + 16 * row, toBytes 16 (packNat 4 (List.replicate 32 (tagCode (Sparse.get .n64 t.xtag i)))))]) ++
  b.scrImage full scr ++
  ((List.range 768).map fun k => (0x118000 + 8 * k, toBytes 8 (slotRecord b t k))) ++
  (q.ctxOps.map fun e => (0x11A000 + 3264 * e.1, opRecord e.2)) ++
  (q.ctxCs.map fun e => (0x2B2000 + 4160 * (e.1 - 512), cRecord e.2)) ++
  [(0, toBytes 8 (2 + (if full then 2 ^ 8 else 0)))]

/-! ## BLOCK_SAVE (R404 to R406) -/

/-- Nothing of a block is under way but held copies (R235, R313, R343, R404), nor a trap still to be taken, unless the logical device is
halted. -/
def State.settled (s : State) (b : Block) : Bool :=
  (b.groups.all fun g => g.ops.isEmpty && (g.raised.isNone || (s.die b.die).halted)) && (s.longs.all fun o => o.blk != b.id) && (s.fixed.all fun f => f.blk != b.id) &&
    (s.accs.all fun a => a.blk != b.id) && (s.copies.all fun c => c.blk != b.id || c.st == .held) &&
    (!b.hasRing || b.prod ≤ b.cons) && !(s.pubs.any (·.blk == b.id)) &&
    !((s.quarters ++ s.passes.flatMap (·.quarters)).any fun q => q.aOwn == b.id || q.bOwn == b.id)

/-- The lowest free context slot of the save aperture; slot 0 is the front end's. -/
def State.freeSlot (s : State) (d n : Nat) : Option Nat :=
  let used := (s.blocks.filter (·.die == d)).filterMap fun b => match b.st with
    | .saved k _ => some k
    | _ => none
  ((List.range (n / 2 ^ 22)).drop 1).find? fun k => !used.contains k

/-- Write the pieces of an image, in order. -/
def State.putImage (s : State) (d base : Nat) (refused : List Nat) : List (Nat × List Byte) → EngRes Unit
  | [] => .ok s ()
  | (o, bs) :: r => (s.engPut (2 ^ 72 + base) d refused (base + o) bs .either).bind fun s _ => s.putImage d base refused r

/-- BLOCK_SAVE (R404, R405): a stopped block whose accesses have drained writes back its dirty lines, then its context, and
gives up its core. -/
def execBlockSave (blk : Nat) (s : State) : Out :=
  match (s.block? blk).map (·.unstart) with
  | none => .next s
  | some b =>
    let all := s.clusterOf b
    let go := (b.preempting || b.st == .retained) && !b.isSaved && b.wbWaits.isNone &&
      (b.st == .retained || !b.hasExited) && all.all fun q => (q.hasExited || s.stopped q) && (q.isSaved || s.settled q)
    match if go then (s.die b.die).saveRange else none with
    | none => .next s
    | some (ap, n) =>
      let wait (d va k : Nat) (s : State) : Out :=
        let r := s.engFault blk d va k
        .next (r.1.modBlock blk fun b => { b with wbWaits := some r.2, wbStamp := (s.die b.die).quiesce })
      match b.dirtyLines with
      | line :: _ =>
        match s.writeBackLine b line with
        | (s, .ok) | (s, .wait) => .next s
        | (s, .fault va k) => wait b.die va (kEngine + k) s
      | [] =>
        match s.freeSlot b.die n with
        | none => .next s
        | some slot =>
          let away := b.tables.flatMap (s.tableAway b)
          if !away.isEmpty then .next (s.want away)
          else
          let ended := b.st == .window 0 || b.st == .retained
          let read := b.tables.map fun a => (a, s.readTable b a)
          let broken := read.filter (·.2.isNone)
          let full := ended || !broken.isEmpty
          let tables := read.filterMap fun (a, k) => k.map fun k => (a, k)
          let s1 := broken.foldl (fun s e => s.logOwn b.die 0x08 (BitVec.ofNat 64 e.1) 0) s
          let q := s1.saveBlock b full tables slot
          let vs (l : Nat) : List Nat :=
            if full then List.range b.vregs
            else match (b.lane l).st with
              | .between _ _ (.parked t) =>
                ((tables.find? (·.1 == t)).map fun e => (List.range b.vregs).filter (inRanges e.2.vs)).getD []
              | _ => []
          match s1.putImage b.die (ctxBase ap slot) b.wbRefused (s1.image b q full (tables.flatMap (·.2.scr)) vs) with
          | .ok s2 _ =>
            let gone (m : Monitor) : Bool := m.blk == blk
            let s3 := ((s2.returnSlots b).setBlock q).publish fun u => u.cores.contains b.coreKey
            .next { s3 with monitors := s3.monitors.filter (!gone ·), accs := s3.accs.filter (·.blk != blk) }
          | .wait s => .next s
          | .fault _ d va k => wait d va k s

/-! ## BLOCK_RESTORE (R409, R262) -/

/-- Claim physical slots for a restored block's local indices and put their contents back. -/
def State.rebind (s : State) (b : Block) : Option (State × Block) :=
  (b.slots.filter fun e => e.2.count != 0).foldl (fun acc (k, e) =>
    acc.bind fun (s, b) =>
      let t := s.store b.cluster
      if k < 512 then
        (if e.count = 1 then t.pickOp else t.pickWin e.count).map fun p =>
          let js := List.range e.count
          let t1 := js.foldl (fun t j => t.setOp (p + j) ((Sparse.find? b.ctxOps (k + j)).getD OpSlot.zero))
            { t with opUsed := js.foldl (fun u j => insertLine (p + j) u) t.opUsed }
          (s.setStore b.cluster t1,
           { b with slots := js.foldl (fun m j => match Sparse.find? m (k + j) with
               | some x => Sparse.put m (k + j) { x with phys := p + j }
               | none => m) b.slots })
      else
        t.pickC.map fun p =>
          (s.setStore b.cluster ({ t with cUsed := insertLine p t.cUsed }.setC p ((Sparse.find? b.ctxCs k).getD CSlot.zero)),
           { b with slots := Sparse.put b.slots k { e with phys := p } })) (some (s, b))

/-- Cohorts as they go on after a halt or a restore: a handler's that was held at a trap of its own issues that instruction again. -/
def Block.release (b : Block) : Block :=
  let again (k : Cohort) : Bool := k.stage == .held &&
    let g := b.group (k.lanes.headD 0 / 32)
    g.raised.isNone && (g.frame.map fun f => k.lanes.any f.raised.lanes.contains).getD false
  { b with cohorts := b.cohorts.map fun k => { k with fetched := none, stage := if again k then .resume else k.stage } }

/-- Put a saved block back on a core, where it fits; its lanes stand at their home places, and the slots of its held copies are those its
local indices name now (R262). -/
def State.seatSaved (s : State) (b : Block) (core : Nat) : Option State :=
  match s.coreFit b.die core b.groups.length (b.groups.length * b.vregs + 32 * b.setMax) b.scrSize 0 with
  | none => none
  | some (places, base) =>
    let groups := b.groups.zipIdx.map fun (g, i) =>
      let p := places.getD i (0, 0)
      { g with part := p.1, pslot := p.2 }
    let b1 : Block := { b with resides := s.nextId, core := core, scrBase := base, groups := groups,
                               lanes := b.lanes.mapIdx fun i ln => { ln with phys := i },
                               st := if b.groups.isEmpty then .retained else .running }
    (s.rebind b1).map fun (s, q) =>
      let moved (p : Nat) : Nat := (((b.slots.find? fun e => e.1 < 512 && e.2.phys == p).bind fun e =>
        Sparse.find? q.slots e.1).map (·.phys)).getD p
      let s1 := s.setBlock { q.release with ctxOps := [], ctxCs := [] }
      { s1 with nextId := s.nextId + 1,
                copies := updWhere (·.blk == b.id) (fun c => { c with core := core, dslots := c.dslots.map moved }) s1.copies }

/-- Apply the patches and releases that reached a block while it was saved, in their order (R262). -/
def State.applyReach (s : State) (blk : Nat) : State :=
  let rs := s.reach.filter (·.blk == blk)
  let s1 : State := { s with reach := s.reach.filter (·.blk != blk) }
  rs.foldl (fun s r =>
    match r.value with
    | some v =>
      let rows (c : Copy) : Copy :=
        { c with len := BitVec.ofNat 64 (c.len.toNat / 2 ^ 32 * 2 ^ 32 + min v 255 * 2 ^ 24 + c.len.toNat % 2 ^ 24) }
      { s with copies := updWhere (fun c => c.blk == blk && c.handle == r.handle) rows s.copies }
    | none => (s.copies.filter fun c => c.blk == blk && c.handle == r.handle).foldl (·.releaseCopy ·) s) s1

/-- Discard a launch with its blocks, saved and running (R7, R409, R456). -/
def State.discardLaunch (s : State) (id : Nat) : State :=
  let bs := s.blocks.filter fun b : Block => b.launch == id
  let s1 := bs.foldl (fun s b => (if b.isSaved then s else s.returnSlots b).forget b.id) s
  ({ s1 with blocks := s1.blocks.filter fun b : Block => b.launch != id,
             launches := s1.launches.filter fun l : Launch => l.id != id } : State).noteReady

/-- Seat every member of a saved cluster on the cores of one hardware cluster. -/
def State.seatAll (s : State) (bs : List Block) (core : Nat) : Option State :=
  match bs with
  | [b] => s.seatSaved b core
  | _ =>
    bs.foldl (fun acc b => acc.bind fun s =>
      (((List.range 4).map fun k => core / 4 * 4 + k).filter fun c =>
        (bs.filter fun q => (s.block? q.id).map (fun x => !x.isSaved && x.core == c) == some true).length < 4).findSome? fun c =>
          s.seatSaved b c) (some s)

/-- The core a saved block goes back to, of those where it and its cluster fit: the one, or the hardware cluster, with the most
free rows, the lowest on a tie (R385, R409). -/
def State.restoreCore (s : State) (b : Block) : Option Nat :=
  let all := (s.clusterOf b).filter (·.isSaved)
  let rows (c : Nat) : Nat :=
    match all with
    | [_] => s.freeRows b.die c
    | _ => ((List.range 4).map fun k => s.freeRows b.die (c / 4 * 4 + k)).foldl (· + ·) 0
  ((List.range 192).filter fun c => (s.seatAll all c).isSome).foldl
    (fun best c => match best with
      | none => some c
      | some x => if rows x < rows c then some c else some x) none

/-- What the front end does next: it puts a saved block back, or places a launch's next unit. -/
inductive FrontAct where
  | restore (blk : Nat)
  | place (s : State) (l : Launch)

/-- Try launches in order (R385, R409): a launch's saved blocks before its unplaced ones; an aged one that does not fit ends the search
(R386). -/
def State.frontTry (s : State) : List Launch → Option FrontAct
  | [] => none
  | l :: ls =>
    let saved := s.blocks.filter fun b => b.launch == l.id && b.isSaved && (s.clusterOf b).all (·.isSaved)
    let act := match saved.find? fun b => (s.restoreCore b).isSome with
      | some b => some (.restore b.id)
      | none => if saved.isEmpty && (s.placeReady l.die).any (·.id == l.id) then (s.placeUnit l).map fun s' => .place s' l else none
    match act with
    | some x => some x
    | none => if l.aged then none else s.frontTry ls

/-- What the front end of a die does next. -/
def State.frontNext (s : State) (d : Nat) : Option FrontAct :=
  if !s.frontUp d || (s.die d).pwrState != 0 then none
  else s.frontTry (byPrio (s.launches.filter fun l => l.die == d && !l.suspended &&
    (s.placeReady d).any (·.id == l.id) || s.blocks.any fun b => b.launch == l.id && b.isSaved && l.die == d && !l.suspended))

/-- BLOCK_PLACE (R385): the next unit of the best ready launch that fits is placed. -/
def execBlockPlace (die : Fin 4) (s : State) : Out :=
  match s.frontNext die.val with
  | some (.place s' l) =>
    let more (l : Launch) : Launch := { l with placed := l.placed + 1, readyAt := some s.cycle, aged := false }
    .next { s' with launches := updWhere (·.id == l.id) more s'.launches }
  | _ => .next s

/-- BLOCK_RESTORE (R409): a resumed launch's saved block, or cluster, is put back on a core with room when its turn has come (R385). A
context slot that does not read saved is refused and logged, and its launch discarded. -/
def execBlockRestore (blk core : Nat) (s : State) : Out :=
  match s.block? blk with
  | none => .next s
  | some b =>
    let turn := match s.frontNext b.die with
      | some (.restore k) => (s.clusterOf b).any (·.id == k)
      | _ => false
    match b.st, (s.die b.die).saveRange with
    | .saved slot _, some (ap, _) =>
      let all := (s.clusterOf b).filter (·.isSaved)
      if !turn || 192 ≤ core || !(s.clusterOf b).all (fun q => q.isSaved) then .next s
      else
        let away := all.flatMap fun q => match q.st with
          | .saved k _ => s.virtAway b.die (ctxBase ap k) 8
          | _ => []
        let ok (q : Block) : Bool := match q.st with
          | .saved k _ => ((s.readVirtWord b.die (ctxBase ap k)).map fun w => bits w.toNat 1 0 == 2).getD false
          | _ => true
        if !away.isEmpty then .next (s.want away)
        else if !all.all ok then
          .next ((s.logOwn b.die 0x08 (BitVec.ofNat 64 (ctxBase ap slot)) 0).discardLaunch b.launch)
        else
          match s.seatAll all core with
          | none => .next s
          | some s1 =>
            let s2 := all.foldl (fun s q => match q.st with
              | .saved k _ => s.put b.die (ctxBase ap k) (toBytes 8 0)
              | _ => s) s1
            .next (all.foldl (fun s q => s.applyReach q.id) s2)
    | _, _ => .next s

/-! ## Quiescence (R399) -/

/-- QUIESCENCE_TICK: every 1,024 cycles the counter advances. -/
def execQuiescenceTick (die : Fin 4) (s : State) : Out :=
  let q := (s.die die.val).quiesce
  if s.cycle < 1024 * (q + 1) then .next s
  else .next (s.modDie die.val fun d => { d with quiesce := d.quiesce + 1 })

end Sys2Proof.Machine
end

