-- ==== Sys2Proof/Machine/System.lean ====
section
/-! DEFINITION. The system instructions (R268 to R274) and the writes of a logical device's registers, shared by SWR and the
host (R96, R97, R249, R269, R346, R370, R389, R410). -/

namespace Sys2Proof.Machine

/-- PRIVILEGE comes before every other check of the class (R233, R234). -/
def badPriv : Bad := ⟨0, .privilege, 0, 0⟩

/-- A lane's group is in system mode. -/
def Block.sys (b : Block) (l : Nat) : Bool := (b.group (l / 32)).sysMode

/-- A system instruction with an immediate effect: the checks of R46 and R234, then its action. -/
def State.sysIssue (s : State) (i : Instr) (h : Head) (sps : List SrcSpec) (bad : Block → Nat → Option Bad)
    (k : Block → Ctx → Work → Out) : Out :=
  s.issue i h fun b c =>
    let w := b.engWork c h
    if !w.acts then .next (s.pass b c h)
    else s.gated b c i h w.src [] (sps ++ needs h .zero) [] [] (s.checked b c h (w.src.map fun l => (l, bad b l)) (k b c w))

/-! ## Registers of a logical device -/

/-- Write a register of a logical device; reserved bits are dropped (R8). FLTSVC and PREQ take a command. IMPTAB, EXPTAB and LEASECTL
are taken as registers that a part without the fabric has too: the spec does not say which registers R6 means (DESIGN CHOICE,
log 91). -/
def State.writeLd (s : State) (d : Nat) (r : SysReg) (v : Word) : State :=
  let n := v.toNat
  match r with
  | .privap => s.modDie d fun di => { di with privap := v &&& 0xFFFFFFFFFF00001F#64 }
  | .saveap => s.modDie d fun di => { di with saveap := v &&& 0xFFFFFFFFFF00003F#64 }
  | .shtab => s.modDie d fun di => { di with shtab := v &&& 0xFFFFFFFFFFFFF03F#64 }
  | .defctl => s.modDie d fun di => { di with defctl := v &&& 1#64 }
  | .defseed => s.modDie d fun di => { di with defseed := v }
  | .tvec => s.modDie d fun di => { di with tvec := v &&& 0xFFFFFFFFFFFFFFFD#64 }
  | .tframe => s.modDie d fun di => { di with tframe := v &&& 0xFFFFFFFF80000001#64 }
  | .ptroot => s.modDie d fun di => { di with ptroot := v &&& 0xFFFFFFFFFFFF8001#64 }
  | .fltbase => s.modDie d fun di => { di with fltbase := v &&& 0xFFFFFFFFFFFFE001#64 }
  | .prewin => s.modDie d fun di => { di with prewin := v &&& 0xFFFFFFFF#64 }
  | .imptab => s.modDie d fun di => { di with imptab := v &&& 0xFFFFFFFFFFFE0001#64 }
  | .exptab => s.modDie d fun di => { di with exptab := v &&& 0xFFFFFFFFFFFE0001#64 }
  | .lease => s.modDie d fun di => { di with leasectl := v &&& 0x1FFFF#64 }
  | .fltsvc => s.faultCommand d (bits n 7 0) (bits n 9 8)
  | .preq =>
    match bits n 1 0 with
    | 1 => s.suspend d n (bit n 2)
    | 2 => s.resume d (named n (bit n 2))
    | _ => s
  | .q k => s.writeQctl d k.val v
  | .seed | .ctl => s

/-- A lane's write of a register (R269): its own generator, its group's CTL, or a register of its logical device. -/
def State.swrLane (s : State) (b : Block) (l : Nat) (r : SysReg) (v : Word) : State :=
  match r with
  | .seed => s.modBlock b.id fun b => b.modLanes (· == l) fun _ ln => { ln with rng := if v = 0 then 0x9E3779B97F4A7C15#64 else v }
  | .ctl => s.modBlock b.id fun b => b.modGroup (l / 32) fun g => { g with ctl := (g.ctl &&& ~~~ 1#64) ||| (v &&& 1#64) }
  | r => s.writeLd b.die r v

/-- SWR (R269): a store operation whose write is made at issue; its count returns in the order of issue (R311). -/
def execSwr (h : Head) (r : SysReg) (value : Opd) (s : State) : Out :=
  s.sysIssue (.swr h r value) h [⟨value, .raw⟩] (fun b l => if r == .seed || b.sys l then none else some badPriv)
    fun b c w =>
      if b.ctrFull w.groups .st then .next (s.holdIssue c)
      else
        let op := s.nextId
        let s0 : State := { s.setBlock (b.addOps w.groups op .st) with nextId := op + 1 }
        let s1 := (w.src.foldl (fun s l => s.swrLane b l r (b.read l .plain value).bits) s0).finishOp c.blk op
        match s1.block? c.blk with
        | some b => .next (s1.pass b c h)
        | none => .next s1

/-! ## TIME, FLTRD, QSC (R270 to R272) -/

/-- TIME. -/
def execTime (h : Head) (pkg : Bool) (tag : BitVec 3) (d : Opd) (s : State) : Out :=
  s.engLong (.time h pkg tag d) h false [] d tag.toNat (fun _ _ => none) (fun _ _ => false) (fun _ _ => .time pkg)

/-- FLTRD. -/
def execFltrd (h : Head) (word : BitVec 2) (cons : Bool) (tag : BitVec 3) (d idx : Opd) (s : State) : Out :=
  s.engLong (.fltrd h word cons tag d idx) h false [⟨idx, .int64⟩] d tag.toNat
    (fun b l => if b.sys l then none else some badPriv) (fun _ _ => false)
    (fun b w => .fltrd word cons (w.src.map fun l => (l, (b.read l .plain idx).bits)))

/-- QSC. -/
def execQsc (h : Head) (done : Bool) (tag : BitVec 3) (d : Opd) (s : State) : Out :=
  s.engLong (.qsc h done tag d) h false [] d tag.toNat (fun b l => if b.sys l then none else some badPriv)
    (fun _ _ => false) (fun _ _ => .qsc done)

/-! ## TLBX (R273) and quiescence (R272, R399) -/

def pgBytes : PgSize → Nat
  | .p64k => 2 ^ 16
  | .p4m => 2 ^ 22
  | .p1g => 2 ^ 30

/-- A pointer of a viewer of this package reaches an export of a logical device on it (R415). -/
def State.aims (s : State) (v d : Nat) (pv : BitVec 128) : Bool :=
  (ptrOf pv).space == spPeer &&
    match s.import? v ((ptrOf pv).base / 2 ^ 52) with
    | some i => i.tpos == s.pos && i.tdie == d
    | none => false

/-- Does a lane's access use translations of a logical device: its own, or those of an export of that device? -/
def State.usesLd (s : State) (a : Access) (d : Nat) (x : LaneAcc) : Bool :=
  a.die == d || s.aims (((s.block? a.blk).map (·.view)).getD a.die) d x.ptr

/-- The stamps of one die's waits that no lane made: its blocks' write-backs and fetches, its front end's headers and completion words, its
own writes, its peers' requests. -/
def State.waitStamps (s : State) (d : Nat) : List Nat :=
  ((s.blocks.filter (·.die == d)).flatMap fun b =>
    (if b.wbWaits.isSome then [b.wbStamp] else []) ++ b.cohorts.filterMap fun k => match k.stage with
      | .fetch _ n => some n
      | _ => none) ++
  ((s.die d).queues.filter fun q => q.2.waits.isSome).map (fun q => q.2.stamp) ++
  (s.launches.filter fun l : Launch => l.die == d && l.waits.isSome).map (·.stamp) ++
  (s.posted.filter fun p : Posted => p.view % 4 == d).map (·.stamp) ++
  (s.peerWaits.filter (·.die == d)).map (·.stamp)

/-- The least stamp of what uses translations of a die's logical device and has not completed, and the counter (R272, R399): accesses of
lanes, engine operations, loads of shape and bin data, sends and appends, of this die or of another through an export of it, and what
waits. -/
def State.quiesced (s : State) (d : Nat) : Nat :=
  let on (blk : Nat) (pv : BitVec 128) : Bool :=
    match s.block? blk with
    | some b => b.die == d || s.aims b.die d pv
    | none => false
  let stamps :=
    ((s.accs.filter fun a => a.las.any fun x => !x.done && s.usesLd a d x).map (·.stamp)) ++
    ((s.longs.filter fun o => match o.body with
      | .binrd _ reqs => o.die == d || reqs.any fun q => s.aims o.die d q.2.1
      | .hld .. => o.die == d
      | _ => false).map (·.stamp)) ++
    ((s.tileOps.filter fun t => on t.blk t.ptr).map (·.stamp)) ++
    ((s.copies.filter fun c => (c.die == d || s.aims c.die d c.src) && (c.st == .queued || c.st == .active)).map (·.stamp)) ++
    ((s.bins.filter fun c => on c.blk c.ptr).map (·.stamp)) ++
    ((s.appends.filter fun a => a.die == d).map (·.stamp)) ++
    ((s.sendLists.filter fun t => t.die == d && t.waits.isSome).map (·.stamp)) ++
    ((s.sends.filter fun e => !e.held && !e.done && (e.die == d || s.aims e.die d e.src ||
      ((s.sendTarget e.die e.dst e.len).map fun i => i.tpos == s.pos && i.tdie == d) == some true)).map (·.stamp)) ++
    s.waitStamps d
  stamps.foldl min (s.die d).quiesce

/-- A lane's access uses a translation of a die's logical device that is being removed: of its own range, or, through an export, one that the
die's engines held. -/
def State.usesGone (s : State) (d : Nat) (gone : List TlbEnt) (ranges : List (Nat × Nat)) (all : Bool) (a : Access) (x : LaneAcc) : Bool :=
  let sp := (ptrOf x.ptr).space
  let hits (lo hi : Nat) : Bool := x.addr < hi && lo < x.addr + x.size
  x.uses && sp != spScratch &&
    (if sp == spPeer then s.aims (((s.block? a.blk).map (·.view)).getD a.die) d x.ptr && gone.any (·.holder == d)
     else a.die == d && (all || ranges.any (fun r => hits r.1 r.2) || gone.any fun t => hits t.va (t.va + t.size)))

/-- Remove the translations of some ranges of a logical device on every core and engine, and wait for the lanes' accesses under way that use
one. -/
def State.dropTlb (s : State) (b : Block) (op : Nat) (ranges : List (Nat × Nat)) (all : Bool) : State :=
  let gone (t : TlbEnt) : Bool := t.holder % 4 == b.die && (all || ranges.any fun r => t.va < r.2 && r.1 < t.va + t.size)
  let used := s.accs.flatMap fun a => (a.las.filter (s.usesGone b.die (s.tlb.filter gone) ranges all a)).map fun x => (a.id, x.lane)
  let s1 : State := { s with tlb := s.tlb.filter (!gone ·), drains := s.drains ++ [⟨op, b.id, used⟩] }
  s1.settleDrains

/-- TLBX. A 32-bit literal of a class-111 instruction is sign-extended (DESIGN CHOICE, log 101). -/
def execTlbx (h : Head) (size : PgSize) (all : Bool) (va count : Opd) (s : State) : Out :=
  let lo (b : Block) (l : Nat) : Nat := (b.read l .plain va).bits.toNat
  let n (b : Block) (l : Nat) : Nat := (b.read l .plain count).bits.toNat
  s.sysIssue (.tlbx h size all va count) h (if all then [] else [⟨va, .int64⟩, ⟨count, .int64⟩])
    (fun b l =>
      if !b.sys l then some badPriv
      else if !all && (lo b l % pgBytes size != 0 || n b l == 0 || 65536 < n b l) then some (badAlign (lo b l))
      else none)
    fun b c w =>
      if b.ctrFull w.groups .st then .next (s.holdIssue c)
      else
        let op := s.nextId
        let s1 : State := { s.setBlock (b.addOps w.groups op .st) with nextId := op + 1 }
        let s2 := s1.dropTlb b op (w.src.map fun l => (lo b l, lo b l + n b l * pgBytes size)) all
        match s2.block? c.blk with
        | some b => .next (s2.pass b c h)
        | none => .next s2

/-! ## TRAP, TRET, HALT (R268, R274, R354) -/

/-- TRAP. -/
def execTrap (h : Head) (code : Opd) (s : State) : Out :=
  s.sysIssue (.trap h code) h [⟨code, .int64⟩] (fun _ _ => none) fun b c w =>
    .next (s.raise b c h.scope .userTrap w.src (fun l => ⟨0, 0, (b.read l .plain code).bits.setWidth 16⟩) 0)

/-- The terminators (R28). -/
def isTerm : Instr → Bool
  | .runend .. | .br .. | .brc .. | .brx .. | .call .. | .ret .. | .exit .. | .yield .. | .bar .. | .waitc .. | .waitm ..
  | .regroup .. | .chkpt .. | .tret .. => true
  | _ => false

/-- The stall field of an instruction (R103). -/
def Instr.stallOf (i : Instr) : Nat := ((Instr.fields i).map fun e => e.1.stall.toNat).getD 0

/-- The handler's stores, atomics and fixed results that TRET waits for (R354): not those its frame lists. -/
def State.tretHeld (s : State) (b : Block) (f : Frame) : Bool :=
  let ls := f.raised.lanes
  (s.accs.any fun a => a.blk == b.id && !f.deferred.contains a.id && a.kind != .load && a.kind != .monitor &&
    a.las.any fun x => !x.done && ls.contains x.lane) ||
  s.fixed.any fun f => f.blk == b.id && f.wrs.any fun w =>
    match w with
    | .reg l _ _ | .ycap l _ | .flags l _ | .pred l _ _ | .rng l _ => ls.contains l
    | _ => false

/-- TRET: the frame is read, and where its action skips an instruction, that instruction for its length. A pending TSTORE_ERR is then
raised at a WAITC that waits (R355). -/
def execTret (h : Head) (s : State) : Out :=
  s.issue (.tret h) h fun b c =>
    let on := b.acting c h
    let g := c.lanes.headD (32 * c.grp) / 32
    let f? := ((b.group g).frame).filter fun f => on.all f.raised.lanes.contains
    if on.isEmpty then .next (s.endRun b c 0 (fun _ => c.pc + c.len) (fun _ => .ready))
    else
      s.gated b c (.tret h) h on [] [] [] [] <|
      match f?, (b.group g).sysMode with
      | some f, true =>
        if s.tretHeld b f then .next (s.holdIssue c)
        else
          match s.spots b.view f.base 0x1200 .read .either with
          | (s, .fault va k) => .next (s.waitFault c va (kLoad + k))
          | (s, .wait) => .next (s.holdIssue c)
          | (s, .ok ps) =>
           if !(s.away ps).isEmpty then .next ((s.want (s.away ps)).holdIssue c)
           else
            let img := s.readPlaces ps
            let at_ (o n : Nat) : Nat := ofBytes ((img.drop o).take n)
            if at_ 0x38 8 % 4 == 2 && at_ 0x40 8 % 4 != 0 then .next (s.trap b c h.scope .illegal on)
            else
              let back (s : State) (n stall : Nat) (term : Bool) : Out := .next ((s.returnTrap b g f img n stall term).wakeWaitc b.id)
              if at_ 0x38 8 % 4 != 1 then back s 8 0 false
              else
                match ((f.raised.fetched.filter (·.1 == f.raised.pc)).map fun e => (s, e.2.fetched)).getD (s.fetch b f.raised.pc) with
                | (s, .fault va k) => .next (s.waitFault c va k)
                | (s, .wait) => .next (s.holdIssue c)
                | (s, .illegal n _) => back s n 0 false
                | (s, .instr i n) => back s n (Instr.stallOf i) (isTerm i)
      | _, _ => .next (s.trap b c h.scope .privilege on)

/-- HALT: the logical device halts; the issuing lanes stand at a run boundary after it. -/
def execHalt (h : Head) (s : State) : Out :=
  s.sysIssue (.halt h) h [] (fun b l => if b.sys l then none else some badPriv) fun b c w =>
    let on := if c.wide then c.lanes else w.src
    let rest := c.lanes.filter fun l => !on.contains l
    let s1 :=
      if rest.isEmpty then s.endRun b c 0 (fun _ => c.pc + c.len) (fun _ => .ready)
      else
        let b1 := ({ b with cohorts := updWhere (·.id == c.coh) (fun k => { k with lanes := rest }) b.cohorts } : Block).modLanes
          (fun l => on.contains l) fun _ ln => { ln with st := .between (c.pc + c.len) 0 .ready, since := s.cycle }
        s.pass b1 { c with lanes := rest } h
    .next (s1.haltDevice b.die)

end Sys2Proof.Machine
end

