-- ==== Sys2Proof/Machine/IssueEvents.lean ====
section
/-! DEFINITION. Events of an issue partition and of results: picking and promotion (R47 to R51), lane exchanges (R52 to R55,
R148, R281), fixed results (R30, R34), pending tags (R36, R258, R264, R270 to R272), rendezvous (R283), trap entry (R348). -/

namespace Sys2Proof.Machine

/-! ## Time -/

/-- Whole nanoseconds of a cycle count at 1.75 GHz (R10). -/
def nsOf (cycle : Nat) : Nat := cycle * 4 / 7

/-- Some group that faces a hop is up and not stalled. -/
def State.flows (s : State) (hop : Nat) : Bool :=
  (List.range 16).any fun k => s.groupUp k && ((s.kgs[k]?).map (·.gstate == 1)).getD false &&
    ((s.kvmap[k]?).map fun e => e.toNat % 16 == hop).getD false

/-- The waits of the lanes between runs that are not ready begin at the cycle that follows (R50). -/
def State.restartWaits (s : State) (b : Block) : Block :=
  b.modLanes (fun _ => true) fun l ln => match ln.st with
    | .between .. => if s.laneReady b l then ln else { ln with since := s.cycle + 1 }
    | _ => ln

/-- What asks for the lines of tables that dies await. -/
def wantedWho : Nat := 2 ^ 75

/-- The lines that a die of this device awaits at home are asked for, and those that have come are awaited no longer (R412, R453). -/
def State.fetchWanted (s : State) : List Nat → State
  | [] => s
  | l :: ls =>
    match s.letIn wantedWho (s.homeDie (128 * l)) [.dev (128 * l)] none with
    | (s, false) => s.fetchWanted ls
    | (s, true) => ({ s with wanted := s.wanted.filter (· != l) } : State).fetchWanted ls

/-- Copies that were let go while a table's line was away are checked now, and released copies enter their queues (R262, R308). -/
def State.settleCopies (s : State) : State :=
  let s1 := (s.copies.filter (·.st == .letGo)).foldl (·.releaseCopy ·) s
  (s1.copies.filter fun c => match c.st with
    | .released _ => true
    | _ => false).foldl (fun s c => s.settleChannel c.die c.core (ctlChan c.ctl)) s1

/-- A cycle passes: the time counters advance at their nominal rate and are compared every µs, 1,750 cycles (R427), the links take
the messages formed, the dies' own writes are performed, a partition that exchanged lanes may do so again after 8 cycles (R52). -/
def State.tick (s : State) : State :=
  let dn : Word := BitVec.ofNat 64 (nsOf (s.cycle + 1) - nsOf s.cycle)
  let s1 : State := { s with
    outbox := s.outbox.filter fun e => !s.flows e.1, wire := s.wire ++ s.outbox.filter fun e => s.flows e.1,
    blocks := s.blocks.map s.restartWaits, picked := [], exchanged := if (s.cycle + 1) % 8 == 0 then [] else s.exchanged,
    cycle := s.cycle + 1, podTime := s.podTime + dn, dies := s.dies.map fun d => { d with time := d.time + dn } }
  let s2 := if s1.cycle % 1750 = 0 then s1.timeSync [] [] else s1
  ((s2.purgeCopies.fetchWanted s2.wanted).settlePosted s2.posted).settleCopies

/-! ## ISSUE_PICK (R47) -/

/-- The groups of a partition in the order of their places. -/
def State.partOrder (s : State) (d core part : Nat) : List (Nat × Nat × Nat) :=
  let gs := (s.partGroups d core part).map fun (k, g) => ((((s.block? k).map fun b => (b.group g).pslot)).getD 0, k, g)
  (List.range 8).flatMap fun p => gs.filter (·.1 == p)

/-- Fill the free slots of every group of a partition. -/
def State.fillPart (s : State) (d core part : Nat) : State :=
  (s.partGroups d core part).foldl (fun s (k, g) =>
    match s.block? k with
    | some b => (s.fillSlots b g).1
    | none => s) s

/-- What a pick takes from a group: cohorts of its slots, or a completed rendezvous. -/
inductive Taken where
  | cohorts (ks : List Cohort)
  | rdv (r : Rdv)

/-- What a group may issue now. -/
def State.issuable (s : State) (b : Block) (g : Nat) : Option Taken :=
  match s.pickRdv b g with
  | some r => some (.rdv r)
  | none => match s.pickCohorts b g with
    | [] => none
    | ks => some (.cohorts ks)

/-- The group picked, with its place: the first issuable one after the group picked last. -/
def State.pickGroup (s : State) (d core part : Nat) : Option (Nat × Nat × Taken) :=
  let last := Sparse.get 0 s.rr (partKey d core part)
  let all := s.partOrder d core part
  ((all.filter fun e => last ≤ e.1) ++ all.filter fun e => e.1 < last).findSome? fun (p, k, g) =>
    ((s.block? k).bind fun b => s.issuable b g).map fun x => (p, k, x)

/-- A partition fills its slots and puts what it picked to issue. -/
def State.pickPart (s : State) (d core part : Nat) : State :=
  let s1 := s.fillPart d core part
  match s1.pickGroup d core part with
  | some (p, k, .cohorts ks) =>
    { s1 with port := s1.port ++ (ks.map fun c => PortEnt.cohort k c.id) ++ [.picked d core part p k (ks.map fun c => (c.id, c.pc))] }
  | some (p, k, .rdv r) => { s1 with port := s1.port ++ [.rdv k r.id, .picked d core part p k [(r.id, r.pc)]] }
  | none => s1

/-- What was picked was held: the cohort stands in its slot where it stood, or the rendezvous waits. -/
def State.stillHeld (s : State) (blk : Nat) (e : Nat × Nat) : Bool :=
  ((s.block? blk).map fun b => (b.cohorts.any fun k => k.id == e.1 && k.pc == e.2 && k.slotted) ||
    b.rdvs.any fun r => r.id == e.1 && r.fired && s.cycle < r.nextIssue).getD false

/-- The end of a pick: where the scoreboard held every cohort of it, none of them was issuable and the partition picks again;
otherwise the group is the one it last issued from (R47). -/
def State.settlePick (s : State) (d core part place blk : Nat) (cohs : List (Nat × Nat)) : State :=
  if cohs.all (s.stillHeld blk) then s.pickPart d core part
  else { s with rr := Sparse.set 0 s.rr (partKey d core part) (place + 1) }

/-- ISSUE_PICK: one in each cycle. -/
def execIssuePick (die core part : Nat) (s : State) : Out :=
  let key := partKey die core part
  if s.picked.contains key then .next s else .next (({ s with picked := s.picked ++ [key] } : State).pickPart die core part)

/-- COHORT_PROMOTE (R50): a cohort in a slot whose wait reaches 64 cycles. -/
def execCohortPromote (blk coh : Nat) (s : State) : Out :=
  let due (k : Cohort) : Bool := k.id == coh && k.wait + 64 ≤ s.cycle && k.slotted
  .next (s.modBlock blk fun b => { b with cohorts := updWhere due (fun k => { k with promoted := true }) b.cohorts })

/-! ## Exchanges of lanes (R52, R53, R55, R148) -/

/-- A lane is movable (R52): between runs, or held at a rendezvous whose instruction does not yet wait for a pick. -/
def Block.movable (b : Block) (l : Nat) : Bool :=
  match (b.lane l).st with
  | .exited => false
  | .between _ _ _ => true
  | .running k => b.cohorts.any fun c => c.id == k && match c.stage with
    | .rdv n => !b.rdvs.any fun r => r.id == n && r.fired
    | _ => false

/-- No long-latency result addressed to a lane is still to be written. -/
def State.longFree (s : State) (b : Block) (l : Nat) : Bool := !s.longs.any fun o => o.blk == b.id && o.lanes.contains l

/-- REGROUP lets a lane change its position, and an exited lane gives its place up. -/
def Block.loose (b : Block) (l : Nat) : Bool :=
  match (b.lane l).st with
  | .exited => true
  | .between _ _ (.regroup _) => true
  | _ => false

/-- The number of the partition that a group stands in. -/
def Block.partOf (b : Block) (g : Nat) : Nat := partKey b.die b.core (b.group g).part

/-- Two lanes change places. -/
def Block.swapLanes (b : Block) (x y : Nat) : Block :=
  let px := (b.lane x).phys
  let py := (b.lane y).phys
  b.modLanes (fun l => l == x || l == y) fun l ln => { ln with phys := if l == x then py else px }

/-- May a partition exchange two lanes now? It makes one exchange in 8 cycles (R52). -/
def State.mayExchange (s : State) (b : Block) (x y : Nat) : Bool :=
  let px := (b.lane x).phys
  let py := (b.lane y).phys
  s.cycle % 8 == 0 && x != y && x < b.lanes.length && y < b.lanes.length &&
    ((b.group (x / 32)).ctl.getLsbD 7) && ((b.group (y / 32)).ctl.getLsbD 7) &&
    (b.group (px / 32)).part == (b.group (py / 32)).part && !s.exchanged.contains (b.partOf (px / 32)) &&
    ((px % 32 == py % 32 && b.movable x && b.movable y) || (b.loose x && b.loose y && s.longFree b x && s.longFree b y))

/-- REGROUP_EXCHANGE. -/
def execRegroupExchange (blk laneA laneB : Nat) (s : State) : Out :=
  match s.block? blk with
  | none => .next s
  | some b =>
    .next (if s.mayExchange b laneA laneB then
        { s.setBlock (b.swapLanes laneA laneB) with exchanged := s.exchanged ++ [b.partOf ((b.lane laneA).phys / 32)] }
      else s)

/-- Return a lane to its home row, once that may be done (R54, R281); an exited lane is displaced at once, and goes home so too. -/
def State.sendHome (s : State) (b : Block) (l : Nat) : Block :=
  let p := (b.lane l).phys
  if p == l then b
  else
    match (List.range b.lanes.length).find? fun m => (b.lane m).phys == l with
    | none => b
    | some m =>
      if (b.movable l || (b.lane l).exited) && (b.movable m || (b.lane m).exited) &&
          (p % 32 == l % 32 || (s.longFree b l && s.longFree b m)) then b.swapLanes l m else b

/-- RENDEZVOUS_COMPLETE (R281, R283): the members' lanes return home; then the instruction waits for its partition's pick (R47). -/
def execRendezvousComplete (blk rdv : Nat) (s : State) : Out :=
  match s.block? blk with
  | none => .next s
  | some b =>
    match b.rdvs.find? (·.id == rdv) with
    | none => .next s
    | some r =>
      if !b.rdvReady r then .next s
      else
        let b1 := (Block.required r).foldl (fun b l => s.sendHome b l) b
        if (Block.required r).all fun l => (b1.lane l).phys == l then
          .next (s.setBlock { b1 with rdvs := updWhere (·.id == rdv) (fun r => { r with fired := true }) b1.rdvs })
        else .next (s.setBlock b1)

/-! ## FIXED_RESULT_WRITE (R30, R34) -/

/-- Two writes have the same target: a register, a lane's Y registers, a predicate, a generator. Flags only gather. -/
def Wr.clash : Wr → Wr → Bool
  | .reg l c _, .reg m d _ => l == m && c == d
  | .ycap l _, .ycap m _ => l == m
  | .pred l p _, .pred m q _ => l == m && p == q
  | .rng l _, .rng m _ => l == m
  | .kreg g k _, .kreg h j _ => g == h && k == j
  | .xpos n x p _, .xpos m y q _ => n == m && x == y && p == q
  | .xtag n x _, .xtag m y _ => n == m && x == y
  | .hreg g h _, .hreg j k _ => g == j && h == k
  | _, _ => false

/-- A write of a result waits for an earlier one with the same target. -/
def State.wrWaits (s : State) (f : FixedRes) (w : Wr) : Bool := s.fixed.any fun g => g.blk == f.blk && g.id < f.id && g.wrs.any w.clash

/-- The writes of a result that may be made: each is its own, so one that waits holds back no other. -/
def State.fixedNow (s : State) (f : FixedRes) : List Wr := f.wrs.filter fun w => !s.wrWaits f w

/-- Some of a result may be written: its latency has passed, and not every write of it waits. -/
def State.fixedDue (s : State) (f : FixedRes) : Bool := f.ready ≤ s.cycle && (f.wrs.isEmpty || !(s.fixedNow f).isEmpty)

/-- FIXED_RESULT_WRITE. -/
def execFixedResultWrite (id : Nat) (s : State) : Out :=
  match s.fixed.find? (·.id == id) with
  | none => .next s
  | some f =>
    if !s.fixedDue f then .next s
    else
      let left := f.wrs.filter (s.wrWaits f)
      .next { s.modBlock f.blk (·.applyAll (s.fixedNow f)) with
        fixed := if left.isEmpty then s.fixed.filter (·.id != id) else updWhere (·.id == id) (fun f => { f with wrs := left }) s.fixed }

/-! ## PENDING_TAG_COMPLETE (R36 to R40) -/

/-- What COPYW reads of a command (R258). -/
def State.copyState (s : State) (b : Block) (seq : Nat) : Word :=
  if seq = 0 then BitVec.allOnes 64
  else if !b.hasRing || b.prod < seq || b.cons < seq then 0
  else
    match s.copies.find? fun c => c.blk == b.id && c.seq == seq with
    | some c => match c.st with
      | .queued | .active => BitVec.ofNat 64 c.wp
      | _ => 0
    | none => BitVec.allOnes 64

/-- One lane of FLTRD (R271, R398). -/
def State.readFault (s : State) (d : Nat) (word : BitVec 2) (cons : Bool) (idx : Nat) : State × Word :=
  if 256 ≤ idx then (s, BitVec.allOnes 64)
  else
    let r := s.faultRec d idx
    if cons then (if r.st == 1 then s.faultCommand d idx 0 else s, r.word 0) else (s, r.word word.toNat)

def State.readFaults (s : State) (d : Nat) (word : BitVec 2) (cons : Bool) : List (Nat × Word) → State × List (Nat × Reg)
  | [] => (s, [])
  | (l, i) :: r =>
    let (s1, v) := s.readFault d word cons i.toNat
    let (s2, vs) := s1.readFaults d word cons r
    (s2, (l, ⟨v, .n64⟩) :: vs)

/-- One lane of BINRD: an error or poisoned value is POISON. -/
def State.readBin (s : State) (b : Block) (o : LongOp) (sel : BinSel) (r : Nat × BitVec 128 × Word) : EngRes (Nat × Reg) :=
  let f := binField sel r.2.2.toNat
  (s.engRead b o.id o.refused r.2.1 f.1 f.2).bind fun s x =>
    .ok s (r.1, if x.2.any (·) then ⟨BitVec.allOnes 64, .poison⟩ else ⟨BitVec.ofNat 64 (ofBytes x.1), .n64⟩)

/-- The work a long-latency result is delivered by. -/
def LongOp.work (o : LongOp) : Work :=
  { src := o.recv.map (·.2), recv := o.recv, pos := o.pos, groups := o.groups, desig := o.desig, acts := true }

/-- A QSC is read after the earlier ones of its lanes and while no die's counter is behind, so that what .DONE gives never exceeds a later
.CUR and never decreases (R272). -/
def State.qscWaits (s : State) (o : LongOp) : Bool :=
  ((List.range 4).any fun d => 1024 * ((s.die d).quiesce + 1) ≤ s.cycle) ||
    s.longs.any fun q => q.blk == o.blk && q.id < o.id && q.lanes.any o.lanes.contains && match q.body with
      | .qsc _ => true
      | _ => false

/-- What a pending tag delivers: its registers, read now where the instruction reads at completion. -/
def State.longValue (s : State) (b : Block) (o : LongOp) : EngRes (List Wr) :=
  let give (s : State) (vs : List (Nat × Reg)) : EngRes (List Wr) :=
    .ok s (o.work.regWrites b o.dst (spoilX o.dst (vs.map fun (l, r) => (l, LaneRes.ofReg r))))
  let same (s : State) (v : Word) : EngRes (List Wr) :=
    give s (((o.desig :: o.recv.map (·.2) ++ o.pos.map (·.2)).eraseDups).map fun l => (l, ⟨v, .n64⟩))
  match o.body with
  | .wrs | .access | .hld .. => .ok s o.wrs
  | .copyw seq => give s (seq.map fun (l, n) => (l, ⟨s.copyState b n.toNat, .n64⟩))
  | .binrd sel reqs =>
    if reqs.any fun r => s.engWaits o.blk o.id (ptrOf r.2.1).stream o.lanes then .wait s
    else
      (engEach (fun s k => s.readBin b o sel (reqs.getD k (0, 0, 0))) s (List.range reqs.length)).bind give
  | .fltrd word cons idx => let (s1, vs) := s.readFaults o.die word cons idx; give s1 vs
  | .qsc done =>
    if s.qscWaits o then .wait s else same s (BitVec.ofNat 64 (if done then s.quiesced o.die else (s.die o.die).quiesce))
  | .time pkg => same s (if pkg || !s.hasUnit 5 || !s.joined then (s.die o.die).time else s.podTime)

/-- Writes whose register the trap handler wrote are dropped (R354). -/
def LongOp.kept (o : LongOp) (w : Wr) : Bool :=
  match w with
  | .reg l c _ => !o.drop.contains (l, c)
  | .kreg g k _ => !o.drop.any fun e => e.1 / 32 == g && e.2 == 234 + k
  | .xpos _ x _ _ | .xtag _ x _ => !o.drop.any (·.2 == 202 + x)
  | .hreg g h _ => !o.drop.contains (32 * g, 400 + h)
  | _ => true

/-- An earlier instruction's fixed-latency result for a register of the destination is still to be written: it comes first. -/
def State.fixedBefore (s : State) (b : Block) (o : LongOp) : Bool :=
  s.fixed.any fun f => f.blk == o.blk && f.id < o.id && f.wrs.any fun w => o.lanes.any fun l => o.codes.any fun c => w.touches b l c

/-- PENDING_TAG_COMPLETE: the result is written, its tag completes, its count returns; a result shown to a trap handler as POISON waits for
TRET (R348). An HLD that awaited a fault record is replayed. -/
def execPendingTagComplete (id : Nat) (s : State) : Out :=
  match s.longs.find? (·.id == id) with
  | none => .next s
  | some o =>
    match s.block? o.blk with
    | none => .next { s with longs := s.longs.filter (·.id != id) }
    | some b =>
      if !o.ready || o.waits.isSome || !o.shown.isEmpty || o.deferred || s.fixedBefore b o || (s.accs.any fun a => a.id == id && a.deferred) then .next s
      else if let .hld hr handle i len := o.body then .next (s.replayHld o hr handle i len)
      else
        match s.longValue b o with
        | .wait s => .next s
        | .fault s d va k =>
          let r := s.engFault id d va k
          .next { r.1 with longs := updWhere (·.id == id) (fun o => { o with waits := some r.2 }) r.1.longs }
        | .ok s ws =>
          let s1 : State := { s.modBlock o.blk (·.applyAll (ws.filter o.kept)) with
            longs := s.longs.filter (·.id != id), accs := s.accs.filter (·.id != id) }
          .next ((((s1.dropLines id).finishOp o.blk id).settleDrains).fillLog.settleExit o.blk)

/-! ## TRAP_ENTRY (R348) -/

/-- TRAP_ENTRY: everything the handler cohort issued earlier is performed or waits on a fault record. A halted logical device
enters no handler: the trap stays raised until it resumes (R274, R347), and so it does in a block saved meanwhile. -/
def execTrapEntry (blk grp : Nat) (s : State) : Out :=
  match s.block? blk with
  | none => .next s
  | some b =>
    match (b.group grp).raised with
    | none => .next s
    | some r =>
      let di := s.die b.die
      if di.halted || b.isSaved || !s.drained b r.lanes then .next s
      else if !bit di.tvec.toNat 0 || !bit di.tframe.toNat 0 then .next (s.enterTrap blk grp)
      else
        match s.spots b.die (s.frameBase b grp) 8192 .write .either with
        | (s1, .ok ps) =>
          let ws := ps.zip (s1.frameImage b grp r)
          match s1.letIn (frameWho blk grp) b.die (ws.map (·.1)) (some (ws.map (·.2))) with
          | (s, false) => .next s
          | (s, true) => .next ((s.enterTrap blk grp).pushLeases ((devLines ws).map (·.1)))
        | _ => .next (s.enterTrap blk grp)

end Sys2Proof.Machine
end

