-- ==== Sys2Proof/Machine/Fabric.lean ====
section
/-! DEFINITION. Fabric messages as they arrive, at the home and at the requester (R333, R337, R412 to R418, R424 to R429, R435),
leases, time, chords and lost peers (R426, R427, R461, R462). -/

namespace Sys2Proof.Machine

/-! ## At the home: checks and places (R415) -/

def needKind : Need → Nat
  | .read | .fetch => kLoad
  | .write => kStore
  | .both => kAtomic

/-- The device lines of some places. -/
def linesOf (ps : List Place) : List Nat :=
  (ps.filterMap fun p => match p with
    | .dev a => some (a / 128)
    | _ => none).eraseDups

/-- Check an arriving request against its export entry and translate it; a refusal is logged and answered, a fault recorded
and waited on. -/
def State.serve (s : State) (m : Msg) (need : Need) (n : Nat) (k : State → List Place → Out) : Out :=
  match (s.wake m.ddie).exportPlaces m.ddie m.expidx m.tenant m.egen m.at_ n need with
  | (s, .refused) => .next ((s.logError m.ddie 0x03 m.src (BitVec.ofNat 64 m.at_) 0).answer m tError [] false)
  | (s, .fault va kind) =>
    let r := s.recordFault m.ddie va (needKind need + kind)
    .next (r.1.deferMsg m r.2)
  | (s, .wait) => .next (s.deferMsg m pwRetry)
  | (s, .ok ps) => k s ps

/-- The sender of a message, a die of a device, is recorded as a holder of one of some lines. -/
def Holder.ofMsg (h : Holder) (lines : List Nat) (m : Msg) : Bool := lines.contains h.line && h.pos == m.src && h.die == m.sdie

/-- The requester becomes a holder of some lines (R412). -/
def State.addHolder (s : State) (lines : List Nat) (m : Msg) (excl : Bool) : State :=
  { s with holders := (s.holders.filter fun h => !h.ofMsg lines m) ++ lines.map fun l => (⟨l, m.src, m.sdie, excl, 0⟩ : Holder) }

/-- Act on places once nothing stands in the way; otherwise the request is tried again. -/
def State.admitMsg (s : State) (m : Msg) (ps : List Place) (data : Option (List Byte)) (k : State → Out) : Out :=
  match s.letIn (msgWho m) m.ddie ps data with
  | (s, true) => k s
  | (s, false) => .next (s.deferMsg m pwRetry)

/-- The same for a message by which its sender gives up copies of its own that a test names: they stand in no one's way. -/
def State.admitOwn (s : State) (m : Msg) (ps : List Place) (data : Option (List Byte)) (own : Holder → Bool) (k : State → Out) : Out :=
  let mine (h : Holder) : Bool := h.ofMsg (linesOf ps) m && own h
  match ({ s with holders := s.holders.filter (!mine ·) } : State).letIn (msgWho m) m.ddie ps data with
  | (t, true) => k t
  | (t, false) => .next (({ t with holders := t.holders ++ s.holders.filter mine } : State).deferMsg m pwRetry)

/-- Bytes as a reply carries them, and whether they are poisoned (R357). -/
def State.replyBytes (s : State) (ps : List Place) : List Byte × Bool :=
  if ps.any s.badByte then (List.replicate ps.length 0xFF, true) else (s.readPlaces ps, false)

def State.answerData (s : State) (m : Msg) (ps : List Place) (more : List Byte) : State :=
  let r := s.replyBytes ps
  s.answer m tData (r.1 ++ more) r.2

/-- A store at the home on behalf of another device. -/
def State.peerStore (s : State) (ps : List Place) (data : List Byte) (poison : Bool) : State :=
  let s1 := (s.storeBytes (ps.zip data)).pushLeases ((devLines (ps.zip data)).map (·.1))
  if poison then ps.foldl (fun s p => s.setPoison p true) s1 else s1

def State.acknowledge (s : State) (m : Msg) : State := s.answer m tAck [] false

/-! ## At the home: requests -/

/-- How a reply lets its bytes be kept: not at all, under a lease, under ordinary ownership, or exclusively. -/
inductive Grant where
  | none | leased | shared | excl
deriving DecidableEq, Repr

/-- The last unit of a data reply (log 8): the grant, the lease field, the facet pair registered, and the home's name of the line. -/
def grantUnit (g : Grant) (fin facet : Nat) (ps : List Place) : List Byte :=
  let code : Nat := match g with
    | .none => 0
    | .leased => 1
    | .shared => 2
    | .excl => 3
  [BitVec.ofNat 8 code] ++ toBytes 3 fin ++ toBytes 4 facet ++ toBytes 8 ((linesOf ps).headD 0)

def padTo16 (n : Nat) : List Byte := List.replicate (roundUp n 16 - n) 0

/-- What follows the bytes of a data reply. -/
def grantTail (g : Grant) (fin facet : Nat) (ps : List Place) : List Byte := padTo16 ps.length ++ grantUnit g fin facet ps

/-- READ_REQUEST (R412, R416, R424): the requester becomes a holder under ordinary ownership. -/
def execReadRequest (m : Msg) (s : State) : Out :=
  s.receive m tRead fun s => s.serve m .read m.bytes fun s ps => s.admitMsg m ps none fun s =>
    .next ((s.addHolder (linesOf ps) m false).answerData m ps (grantTail .shared 0 15 ps))

/-- The facet and storage format a lease is recorded with (R94): a holder of the line in another format holds it at the storage format. -/
def State.leaseFormat (s : State) (m : Msg) (line : Nat) : Nat × Nat :=
  let sf := m.facet / 5
  let other := s.leases.any fun e =>
    e.line == line && e.pos.toNat == m.src && e.die == m.sdie && !e.ended && e.facet != m.facet % 5
  if m.facet == 15 || other || s.formatClash false line sf then (7, 0) else (m.facet % 5, sf)

/-- READ_SHARED_LEASE (R337, R416, R417, R462): the old value, with a lease unless a store waits on the line or the device is
leaving its pod. -/
def execReadSharedLease (m : Msg) (s : State) : Out :=
  s.receive m tReadShared fun s => s.serve m .read m.bytes fun s ps => s.admitMsg m ps none fun s =>
    let lines := linesOf ps
    let plain := s.quiescing || s.leaseWaits.any fun w => lines.contains w.line
    let line := lines.headD 0
    let fin := s.leaseEnd (s.homeDie (128 * line))
    let kept := if (s.leaseFormat m line).1 == 7 then 15 else m.facet
    let grant (l : Nat) : Lease :=
      let f := s.leaseFormat m l
      { line := l, pos := BitVec.ofNat 4 m.src, die := m.sdie, fin := fin, facet := f.1, sfmt := f.2, push := m.mark && f.1 != 7, ended := false,
        asked := 0 }
    let s1 : State := if plain then s else
      { s with leases := (s.leases.filter fun e : Lease => !(lines.contains e.line && e.pos.toNat == m.src && e.die == m.sdie)) ++ lines.map grant }
    .next (s1.answerData m ps (grantTail (if plain then .none else .leased) fin kept ps))

/-- OWNERSHIP_REQUEST (R337, R412, R416, R418): granted once every other holder has given the line up. While leases on it last the home
keeps the line: the requester writes its bytes back at once, and the home judges whom they disturb. -/
def execOwnershipRequest (m : Msg) (s : State) : Out :=
  s.receive m tOwn fun s => s.serve m .write m.bytes fun s ps =>
    let lines := linesOf ps
    let live := s.leases.filter fun e : Lease => lines.contains e.line && !e.ended
    s.admitOwn m ps (some (s.readPlaces ps)) (!·.excl) fun s =>
      if live.isEmpty then .next ((s.addHolder lines m true).answerData m ps (grantTail .excl 0 15 ps))
      else .next (s.answerData m ps (grantTail .none 0 15 ps))

/-- Write a message's bytes at the home and acknowledge it. -/
def State.writeMsg (s : State) (m : Msg) (n : Nat) (poison : Bool) : Out :=
  s.serve m .write n fun s ps => s.admitMsg m ps (some (m.body.take n)) fun s =>
    .next ((s.peerStore ps (m.body.take n) poison).acknowledge m)

/-- WRITE_BACK (R416): the sender gives the line up. -/
def execWriteBack (m : Msg) (s : State) : Out :=
  s.receive m tWriteBack fun s => s.serve m .write m.body.length fun s ps => s.admitOwn m ps (some m.body) (fun _ => true) fun s =>
    .next ((s.peerStore ps m.body m.mark).acknowledge m)

/-- SEND_LIST_PAYLOAD (R265, R415, R428): a poisoned line is written as a poisoned line. -/
def execSendListPayload (m : Msg) (s : State) : Out := s.receive m tPayload fun s => s.writeMsg m m.body.length m.mark

/-- REMOTE_STAMP (R265): a synchronising store of pod scope, after the payload. -/
def execRemoteStamp (m : Msg) (s : State) : Out := s.receive m tStamp fun s => s.writeMsg m m.body.length false

/-- The access a synchronising message asks for. -/
structure SyncReq where
  kind : AccKind
  fmt : MFmt
  n : Nat
  poison : Bool
  data : List Byte
  cmp : List Byte
deriving DecidableEq, Repr

def syncKind : Nat → AccKind
  | 0 => .load | 1 => .store | 2 => .cas | 3 => .atom .add | 4 => .atom .min | 5 => .atom .max | 6 => .atom .and | 7 => .atom .or
  | 8 => .atom .xor | 9 => .atom .xchg | _ => .atom .fadd

def syncReq (bs : List Byte) : SyncReq :=
  let b (k : Nat) : Nat := (bs.getD k 0).toNat
  let n := b 2
  { kind := syncKind (b 0), fmt := .tag (tagOf (b 1)), n := n, poison := b 3 != 0, data := (bs.drop 16).take n,
    cmp := (bs.drop (16 + roundUp n 16)).take n }

/-- SYNC_ACCESS_AT_HOME (R333): a load, store or atomic of pod scope performed at the home; the old value goes back. One that acquires
forces what this device's cores have stored to be published, since their instances do not contain the peer (R331). -/
def execSyncAccessAtHome (m : Msg) (s : State) : Out :=
  s.receive m tSync fun s =>
    let q := syncReq m.body
    s.serve m q.kind.need q.n fun s ps =>
      let x : LaneAcc := { lane := 0, ptr := 0, addr := m.at_, size := q.n, data := q.data, cmp := q.cmp, poison := [],
                           phase := .placed ps, got := [], bad := [] }
      let bad := ps.any s.badByte
      let new := match q.kind with
        | .load | .monitor => none
        | .store => some q.data
        | k => if bad then none else atomBytes k q.fmt x (s.readPlaces ps)
      s.admitMsg m ps new fun s =>
        let s := if q.kind == .store then s else s.publish fun _ => true
        let reply := s.replyBytes ps
        match new with
        | none => .next (s.answer m tData reply.1 reply.2)
        | some bs =>
          let s1 := s.peerStore ps bs q.poison
          .next (if q.kind == .store then s1.acknowledge m else s1.answer m tData reply.1 reply.2)

/-! ## At a holder (R416 to R418) -/

/-- The home asks for a line back: stores to it are written back first, then the message is acknowledged. -/
def State.yieldLine (s : State) (m : Msg) : State :=
  let s := s.wake m.ddie
  let line := m.at_ / 128
  match s.remotes.find? fun r => r.die == m.ddie && r.pos == m.src && r.line == line && r.excl with
  | some r => s.giveBack (some m) r
  | none => (s.dropCopies m.ddie m.src line).acknowledge m

/-- INVALIDATION and REVOCATION. -/
def execInvalidation (m : Msg) (s : State) : Out := s.receive m tInval fun s => .next (s.yieldLine m)
def execRevocation (m : Msg) (s : State) : Out := s.receive m tRevoke fun s => .next (s.yieldLine m)

/-- A facet copy's bytes with the rounded values of a push: what follows the grant unit is the line in the facet format (R418), or a
poisoned line. -/
def RemoteLine.pushed (r : RemoteLine) (fin : Nat) (bad : Bool) (vals : List Byte) : RemoteLine :=
  let a := facetTag (r.facet / 5)
  let f := facetTag (r.facet % 5)
  let bs := (chunks (f.width / 8) vals (128 / (a.width / 8))).flatMap fun x => toBytes (a.width / 8) (convElem f a x).1
  { r with bytes := (bs.drop (r.off % 128)).take r.bytes.length, lease := some fin, bad := bad }

/-- PUSH: the copies of the line held as a facet take the new values and the fresh lease. -/
def execPush (m : Msg) (s : State) : Out :=
  s.receive m tPush fun s =>
    let s := s.wake m.ddie
    let mine (r : RemoteLine) : Bool := r.die == m.ddie && r.pos == m.src && r.line == m.at_ / 128 && r.facet != 15
    .next (({ s with remotes := updWhere mine (·.pushed (ofBytes ((m.body.drop 1).take 3)) m.mark (m.body.drop 16)) s.remotes } : State).acknowledge m)

/-! ## At the requester -/

/-- The request a reply answers. -/
def State.requestOf (s : State) (m : Msg) : Option Request :=
  s.requests.find? fun r => r.dest == m.src && r.seq == m.answers && r.epoch.toNat == m.answersIn

def State.dropRequest (s : State) (r : Request) : State :=
  { s with requests := s.requests.filter fun q => !(q.dest == r.dest && q.seq == r.seq && q.epoch == r.epoch) }

/-- A lane's access awaits the reply to a request. -/
def LaneAcc.sentAs (x : LaneAcc) (req : Nat) : Bool := match x.phase with
  | .sent q _ => q == req
  | _ => false

/-- Act on the lane of an access that a request serves. -/
def State.servedLane (s : State) (r : Request) (acc lane : Nat) (f : State → Access → LaneAcc → State × LaneAcc) : State :=
  match s.accs.find? (·.id == acc) with
  | none => s
  | some a =>
    match a.las.find? fun x : LaneAcc => x.lane == lane && x.sentAs r.seq with
    | none => s
    | some x => let q := f s a x; (q.1.setLane acc q.2).afterLane acc

/-- A line of an engine operation has come. -/
def State.engGot (s : State) (who pos off : Nat) (r : List Byte × Bool) : State :=
  { s with engLines := updWhere (fun e => e.op == who && e.pos == pos && e.off == off) (fun e => { e with got := some r }) s.engLines }

/-- The copy that a data reply brings, where it may be kept. -/
def copyOf (r : Request) (m : Msg) : Option RemoteLine :=
  let n := r.msg.bytes
  let u := (m.body.drop (roundUp n 16)).take 16
  let code := (u.getD 0 0).toNat
  if !r.keep || m.mark || code = 0 || 3 < code then none
  else some { die := r.msg.sdie, pos := r.dest, ddie := r.msg.ddie, expidx := r.msg.expidx, tenant := r.msg.tenant, egen := r.msg.egen,
              off := r.msg.at_, bytes := m.body.take n, line := ofBytes (u.drop 8), facet := if code = 1 then ofBytes ((u.drop 4).take 4) else 15,
              lease := if code = 1 then some (ofBytes ((u.drop 1).take 3)) else none, excl := code == 3, bad := false }

/-- The die's slice holds a copy: an exclusive one replaces those it had of the line, any other those of the same bytes or in another
format (R94). -/
def State.holdCopy (s : State) (r : RemoteLine) : State :=
  let same (q : RemoteLine) : Bool := q.die == r.die && q.pos == r.pos && q.line == r.line && (r.excl || q.off == r.off || q.facet != r.facet)
  { s with remotes := s.remotes.filter (!same ·) ++ [r] }

/-- The reply to an engine operation's request has come: what it brings is kept where it may be, and ownership then needs no more. -/
def State.engCame (s : State) (r : Request) (m : Msg) (who pos off : Nat) : State :=
  match copyOf r m with
  | some c =>
    let s1 := s.holdCopy c
    if r.msg.type == tOwn then { s1 with engLines := s1.engLines.filter fun e => !(e.op == who && e.pos == pos && e.off == off) }
    else s1.engGot who pos off (m.body.take r.msg.bytes, m.mark)
  | none => s.engGot who pos off (m.body.take r.msg.bytes, if r.msg.type == tOwn then false else m.mark)

/-- Ownership for a store has come: the slice holds the line with the bytes stored. Where the home has asked for the line meanwhile, they
are written back at once. -/
def State.ownGot (s : State) (r : Request) (m : Msg) (a : Access) (x : LaneAcc) : State × LaneAcc :=
  let k := x.got.length
  let n := r.msg.bytes
  let bs := (x.data.drop k).take n
  let po := ((x.poison.drop k).take n).any (·)
  match copyOf r m with
  | some c => (s.holdCopy (c.store c.off bs po), x.more (List.replicate n 0) false)
  | none =>
    match s.sendMsg r.msg.sdie r.dest r.msg.ddie tWriteBack r.msg.tenant r.msg.expidx r.msg.egen (reqWord r.msg.at_ n 15 po) bs with
    | (s, none) => s.lostLane a r.dest x
    | (s, some w) =>
      (s.ask w r.serves false, { x with phase := .sent w.seq (x.places.getD []) })

/-- A holder's or leaseholder's answer to the home is lost: it is asked again (R412, R426). -/
def State.unasked (s : State) (line pos die : Nat) : State :=
  { s with holders := updWhere (fun h : Holder => h.line == line && h.pos == pos && h.die == die) (fun h => { h with asked := 0 }) s.holders,
           leases := updWhere (fun e : Lease => e.line == line && e.pos.toNat == pos && e.die == die) (fun e => { e with asked := 0 }) s.leases }

/-- A request completes as a lost message does (R426): loads and atomics by the error value, stores dropped and counted, a send
entry failed. -/
def State.loseRequest (s : State) (r : Request) : State :=
  let s := s.dropRequest r
  match r.serves with
  | .lane acc lane => s.servedLane r acc lane fun s a x => s.lostLane a r.dest x
  | .eng op pos off =>
    let s1 := s.engGot op pos off (List.replicate r.msg.bytes 0xFF, true)
    if r.msg.type == tOwn || r.msg.type == tWriteBack then { s1 with fabDrop := satInc s1.fabDrop } else s1
  | .back _ => { s with fabDrop := satInc s.fabDrop }
  | .recall line pos die => s.unasked line pos die
  | .send k _ | .stamp k => { s with sends := updWhere (·.id == k) (fun e => { e with failed := true }) s.sends }

/-- An acknowledgement of a message this device sent as a home, or one that answers none and names a line: the peer has given the
line up; a facet copy so revoked counts as invalidated (R440). -/
def State.homeAck (s : State) (m : Msg) : State :=
  let up (line pos die asked : Nat) : Bool :=
    if m.answers = 0 then pos == m.src && die == m.sdie && line == ofBytes m.body else pos == m.src && asked == m.answers
  let revoked := s.leases.filter fun e : Lease => m.answers != 0 && up e.line e.pos.toNat e.die e.asked && e.facet != 7
  let s := revoked.foldl (fun s e => s.modDie (s.homeDie (128 * e.line)) fun d => { d with finvl := d.finvl + 1 }) s
  { s with holders := s.holders.filter fun h : Holder => !up h.line h.pos h.die h.asked,
           leases := s.leases.filter fun e : Lease => !up e.line e.pos.toNat e.die e.asked }

/-- Lines written back: the invalidation that asked for them is acknowledged. -/
def State.backDone (s : State) (inval : Option Msg) : State :=
  match inval with
  | some m => s.acknowledge m
  | none => s

/-- ACKNOWLEDGEMENT. -/
def execAcknowledgement (m : Msg) (s : State) : Out :=
  s.receive m tAck fun s =>
    match s.requestOf m with
    | none => .next (s.homeAck m)
    | some r =>
      let s := s.dropRequest r
      .next (match r.serves with
        | .lane acc lane => s.servedLane r acc lane fun s _ x => (s, x.more (List.replicate r.msg.bytes 0) false)
        | .eng op pos off => s.engGot op pos off ([], false)
        | .back inval => s.backDone inval
        | .recall .. => s.homeAck m
        | .send _ _ | .stamp _ => s)

/-- DATA_REPLY: bytes for a load or atomic, or ownership for a store. -/
def execDataReply (m : Msg) (s : State) : Out :=
  s.receive m tData fun s =>
    match s.requestOf m with
    | none => .next s
    | some r =>
      let s := s.dropRequest r
      let n := r.msg.bytes
      .next (match r.serves with
        | .lane acc lane => s.servedLane r acc lane fun s a x =>
            if r.msg.type == tOwn then s.ownGot r m a x
            else
              let s := if r.msg.type == tSync then s.acquireAt (((s.block? a.blk).map (·.coreKey)).getD 0) else s
              (((copyOf r m).map s.holdCopy).getD s, x.more (m.body.take n) m.mark)
        | .eng op pos off => s.engCame r m op pos off
        | .back _ | .recall .. | .send _ _ | .stamp _ => s)

/-- ERROR_REPLY (R213, R415): a load or atomic completes with the error value, a store is logged, an entry fails. -/
def execErrorReply (m : Msg) (s : State) : Out :=
  s.receive m tError fun s =>
    match s.requestOf m with
    | none => .next s
    | some r =>
      let s := s.dropRequest r
      let d := r.msg.sdie
      .next (match r.serves with
        | .lane acc lane => s.servedLane r acc lane fun s a x =>
            if a.kind == .store then (s.logOwn d 0x03 (BitVec.ofNat 64 x.addr) (BitVec.ofNat 64 a.pc), { x with phase := .done })
            else (s, x.error)
        | .eng op pos off =>
          (if r.msg.type == tOwn || r.msg.type == tWriteBack then s.logOwn d 0x03 r.msg.off 0 else s).engGot op pos off (List.replicate r.msg.bytes 0xFF, true)
        | .back inval => (s.logOwn d 0x03 r.msg.off 0).backDone inval
        | .recall line pos die => s.unasked line pos die
        | .send k _ | .stamp k => { s with sends := updWhere (·.id == k) (fun e => { e with failed := true }) s.sends })

/-! ## Leases (R417, R418) -/

/-- A lease has ended by its home's own pod time. -/
def State.leaseOver (s : State) (e : Lease) : Bool :=
  let t := (s.podTime.toNat - s.podSkew.toNat) / 64 % 2 ^ 24
  let d := (e.fin + 2 ^ 24 - t) % 2 ^ 24
  !(1 ≤ d && d < 2 ^ 23)

/-- LEASE_EXPIRE: a push-mode holder of a line that a store waits on is remembered, to be sent the new values; not a lost one (R461). -/
def execLeaseExpire (line : Nat) (pos : BitVec 4) (s : State) : Out :=
  let hit (e : Lease) : Bool := e.line == line && e.pos == pos && s.leaseOver e
  let keep (e : Lease) : Bool := e.push && !(s.peer pos.toNat).lost && s.leaseWaits.any fun w => w.line == line
  .next { s with leases := (s.leases.filter fun e => !(hit e && !keep e)).map fun e =>
    (if hit e then { e with ended := true } else e) }

/-! ## Time (R427, R449) -/

/-- A device joins pod time, at no less than what TIME.POD has read so far (R427, R449); one that has joined only slews. -/
def State.joinAt (s : State) (t : Nat) : State :=
  if s.joined then s
  else { s with joined := true, podTime := BitVec.ofNat 64 (max ((s.dies.map (·.time.toNat)).foldl max s.podTime.toNat) t) }

/-- TIME_EXCHANGE: a question is answered with this device's pod time; the grandmaster's answer lets a device join, never
stepping back behind what TIME.POD read before. The grandmaster is joined with the first device that asks it. Each exchange measures the
bound. -/
def execTimeExchange (m : Msg) (s : State) : Out :=
  s.receive m tTime fun s =>
    let t := ofBytes ((m.body.drop 8).take 8)
    if m.body.getD 0 0 = 0 then
      let s := if s.master.isSome then s else (s.joinAt 0).measure t
      .next (s.answer m tTime (timeBody 1 s.podTime) false)
    else if s.master != some m.src then .next s
    else .next ((s.joinAt t).measure t)

/-- TIME_SYNC_TICK (R427): the exchange of every µs, with the slews its operands name. -/
def execTimeSyncTick (pod pkg : List Nat) (s : State) : Out := .next (s.timeSync pod pkg)

/-! ## Discards, chords, lost messages (R424 to R426) -/

/-- FABRIC_MESSAGE_DISCARD: bad type, a reserved bit, a failed tag. -/
def execFabricMessageDiscard (die : Fin 4) (m : Msg) (s : State) : Out :=
  .next (if s.hasUnit 5 then s.discardMsg die.val m else s)

/-- A lane's access that a request serves is on a broken path, being later than the store dropped (R435). -/
def State.onBroken (s : State) (r : Request) : Option (Access × LaneAcc) :=
  match r.serves with
  | .lane acc lane =>
    (s.accs.find? (·.id == acc)).bind fun a => (a.las.find? fun x : LaneAcc => x.lane == lane && x.sentAs r.seq).bind fun x =>
      if ((s.block? a.blk).map fun b => (b.group (lane / 32)).brokenFor r.dest a.id) == some true then some (a, x) else none
  | _ => none

/-- Messages of accesses on a broken path that have not left yet are not sent: they complete as lost, and the first load or atomic among
them ends the break (R435). -/
def State.dropBroken (s : State) : State :=
  let hit := s.requests.filter fun r => (s.outbox.any fun e => e.2 == r.msg) && (s.onBroken r).isSome
  hit.foldl (fun s r => ((s.onBroken r).map fun q => s.markBreak q.1 r.dest q.2).getD s |>.loseRequest r)
    { s with outbox := s.outbox.filter fun e => !hit.any fun r => r.msg == e.2 }

/-- A message of this device that finds no route completes as lost. -/
def State.loseMsg (s : State) (m : Msg) : State :=
  match s.requests.find? fun r => r.dest == m.dest && r.seq == m.seq && r.epoch.toNat == m.epoch with
  | some r => s.loseRequest r
  | none => s

/-- Send a message of this device again, over its destination's groups or a relay not tried. -/
def State.reroute (s : State) (m : Msg) (tried : List Nat) : State :=
  match (if s.faces m.dest then some m.dest else s.relay m.dest tried) with
  | some hop =>
    let mine (r : Request) : Bool := r.dest == m.dest && r.seq == m.seq && r.epoch.toNat == m.epoch
    { s with outbox := s.outbox ++ [(hop, m)], requests := updWhere mine (fun r => { r with hop := hop }) s.requests }
  | none => s.loseMsg m

/-- A message of this device that still waits for a relay, or for a peer no group faces any longer. -/
def State.onChord (s : State) (e : Nat × Msg) : Bool :=
  (e.1 != e.2.dest || !s.faces e.1) && e.2.src == s.pos && e.2.dest != s.pos

/-- CHORD_REVIEW: such messages choose again. -/
def execChordReview (s : State) : Out :=
  .next (((s.outbox.filter s.onChord).map (·.2)).foldl (fun s m => s.reroute m []) { s with outbox := s.outbox.filter (!s.onChord ·) })

/-- CHORD_RELAY: forwarded by DEST alone, or returned to its source. -/
def execChordRelay (m : Msg) (s : State) : Out :=
  if !s.hasUnit 5 || m.dest == s.pos || m.src == s.pos then .next s
  else .next { s with outbox := s.outbox ++ [(if s.faces m.dest then m.dest else m.src, m)] }

/-- CHORD_RETURN: the source chooses again among the relays that have not returned the message. -/
def execChordReturn (m : Msg) (s : State) : Out :=
  if !s.hasUnit 5 || m.src != s.pos then .next s
  else .next (s.reroute m (((s.outbox ++ s.wire).filter (·.2 == m)).map (·.1)))

/-- REQUEST_TIMEOUT: 1 ms without a reply. A request is named by destination × 2^48 + sequence number. -/
def execRequestTimeout (id : Nat) (s : State) : Out :=
  match s.requests.find? fun r => r.dest == id / 2 ^ 48 && r.seq == id % 2 ^ 48 with
  | none => .next s
  | some r => .next (if r.sentAt.toNat + 1000000 ≤ (s.die r.msg.sdie).time.toNat then (s.loseRequest r).dropBroken else s)

/-- PAIR_KEY_EPOCH (R425): the source's next epoch towards a peer. -/
def execPairKeyEpoch (pos : BitVec 4) (s : State) : Out :=
  .next (if s.hasUnit 4 && s.hasUnit 5 then s.modPeer pos.toNat fun p => { p with epoch := nextEpoch p.epoch, seq := 0 } else s)

/-! ## Peers lost, leaving and returning (R461, R462) -/

/-- Every request to a peer that a test names completes as lost. -/
def State.loseRequests (s : State) (hit : Request → Bool) : State := ((s.requests.filter hit).foldl (·.loseRequest ·) s).dropBroken

/-- This device is the grandmaster while no lower pod position is in service (R410, R427). -/
def State.settleMaster (s : State) : State :=
  let gm := (List.range s.pos).all fun p => (s.peer p).lost
  { s with podpos := if gm then s.podpos ||| 0x100#64 else s.podpos &&& ~~~ 0x100#64 }

/-- This device holds no line of a peer any longer: stores not written back are discarded, and logged (R461). -/
def State.discardLines (s : State) (pos : Nat) : State :=
  let s1 := (s.remotes.filter fun r => r.pos == pos && r.excl).foldl
    (fun s r => s.logError r.die 0x0A pos (BitVec.ofNat 64 r.off) 0) s
  { s1 with remotes := s1.remotes.filter (·.pos != pos) }

/-- A peer is lost (R461). What it held exclusively stays on record until it returns: such a line is still to be taken back by whoever
writes it, which a lost peer never answers, and a completion word there is not written (R387). -/
def State.losePeer (s : State) (pos : Nat) : State :=
  let s1 := ((s.modPeer pos fun p => { p with lost := true }).discardLines pos).loseRequests fun r => r.dest == pos
  ({ s1 with holders := s1.holders.filter fun h => h.pos != pos || h.excl } : State).settleMaster

/-- A peer holds nothing of this device's lines any longer. -/
def State.freeHolder (s : State) (pos : Nat) : State := { s with holders := s.holders.filter (·.pos != pos) }

/-- Every group that faces a peer is lost, and nothing has come from it by chord for 2 µs (R461). -/
def State.silent (s : State) (pos : Nat) : Bool :=
  s.hasUnit 5 && !s.faces pos && !(s.peer pos).lost && decide ((s.peer pos).heard + 2000 ≤ s.podTime.toNat)

/-- PEER_LOST. -/
def execPeerLost (pos : BitVec 4) (s : State) : Out :=
  .next (if s.silent pos.toNat then s.losePeer pos.toNat else s)

/-- DEPARTURE_MESSAGE: the peer is lost with nothing outstanding; it has acknowledged its leases. -/
def execDepartureMessage (pos : BitVec 4) (s : State) : Out :=
  if !s.hasUnit 5 then .next s
  else
    let s1 := ((s.modPeer pos.toNat fun p => { p with departed := true }).losePeer pos.toNat).freeHolder pos.toNat
    .next { s1 with leases := s1.leases.filter fun e => e.pos != pos }

/-- LINK_BRING_UP (R423, R425, R461): the peer's groups are trained, its pair key is of a new epoch, KVMAP names it. -/
def execLinkBringUp (pos : BitVec 4) (groups : List (Fin 16)) (s : State) : Out :=
  if !s.hasUnit 5 then .next s
  else
    let on (k : Nat) : Bool := groups.any (·.val == k)
    .next (({ s with
      kgs := s.kgs.mapIdx fun k g => if on k then { g with gstate := 1, up := 0xFF, spare := false, failing := [], resumedAt := s.now } else g,
      kvmap := s.kvmap.mapIdx fun k e => if on k then BitVec.ofNat 8 (128 + pos.toNat) else e,
      peers := s.peers.modify pos.toNat fun p =>
        { lost := false, departed := false, seq := 0, epoch := nextEpoch p.epoch, rxEpoch := nextEpoch p.rxEpoch, rxHigh := 0,
          rxSeen := [], heard := s.podTime.toNat } } : State).freeHolder pos.toNat).settleMaster

end Sys2Proof.Machine
end

