-- ==== Sys2Proof/Machine/HostEvents.lean ====
section
/-! DEFINITION. What the host and the management function do (R334, R358, R410, R419 to R422, R445, R448, R456, R462), and starts
(R446, R447, R449, R450, R455). -/

namespace Sys2Proof.Machine

/-! ## Host memory accesses (R334, R358, R422) -/

def accPlaces (a n : Nat) : List Place := (List.range n).map fun k => .dev (a + k)

/-- The 64-byte halves of a range. -/
def halvesOf (a n : Nat) : List Nat := if n = 0 then [] else (List.range ((a + n - 1) / 64 - a / 64 + 1)).map (a / 64 + ·)

/-- The physical pages of a virtual range of a logical device hold an address. -/
def State.inPages (s : State) (d va n a : Nat) : Bool :=
  (List.range (n / 2 ^ 16)).any fun k =>
    match (s.translate d (va + 2 ^ 16 * k) .read .device).2 with
    | .ok (.dev x) => x / 2 ^ 16 == a / 2 ^ 16
    | _ => false

/-- The host may not reach the save aperture or the frame area of a logical device, nor an address the device does not have. -/
def State.hostRefused (s : State) (a n : Nat) : Bool :=
  s.capacity < a + n || (List.range 4).any fun d =>
    (match (s.die d).saveRange with
     | some (va, m) => s.inPages d va m a || s.inPages d va m (a + n - 1)
     | none => false) ||
    (bit (s.die d).tframe.toNat 0 &&
      (let va := bits (s.die d).tframe.toNat 63 31 * 2 ^ 31
       s.inPages d va (192 * 1024 * 8192) a || s.inPages d va (192 * 1024 * 8192) (a + n - 1)))

def State.hostAbort (s : State) (a : Nat) : State :=
  { s.logError (s.homeDie a) 0x03 s.pos (BitVec.ofNat 64 a) 0 with hostOut := s.hostOut ++ [.abort a] }

/-- A host access that waits, for it to be tried again: one tried again keeps its place. -/
def State.deferHost (s : State) (i : Instr) : State :=
  if s.hostTurn then { s with hostTurn := false } else { s with hostWait := s.hostWait ++ [i] }

/-- A host access is over: one tried again leaves the line of those that wait. -/
def State.endHost (s : State) : State :=
  { s with hostTurn := false, hostWait := if s.hostTurn then s.hostWait.drop 1 else s.hostWait }

/-- An earlier write of the host waits: a release that comes before this one (R334). -/
def State.hostBehind (s : State) : Bool := !s.hostTurn && s.hostWait.any fun i => match i with
  | .hostWrite .. => true
  | _ => false

/-- HOST_READ (R334, R422): an acquire at package scope; the home records the halves the host may cache. -/
def execHostRead (addr n : Nat) (s : State) : Out :=
  if s.hostRefused addr n then .next (s.endHost.hostAbort addr)
  else
    let ps := accPlaces addr n
    match s.letIn (2 ^ 63 + addr) (s.homeDie addr) ps none with
    | (s, false) => .next (s.deferHost (.hostRead addr n))
    | (s, true) =>
      let r := s.replyBytes ps
      .next { s.endHost.publish (fun _ => true) with
        hostHeld := (halvesOf addr n).foldl (fun l h => insertLine h l) s.hostHeld,
        hostOut := s.hostOut ++ [.data addr r.1 r.2] }

/-- HOST_WRITE (R334, R337, R341, R422): a release at package scope, performed once the leases it would disturb have ended, and after the
earlier ones. -/
def execHostWrite (addr : Nat) (body : List Byte) (s : State) : Out :=
  let n := body.length
  if s.hostRefused addr n then .next (s.endHost.hostAbort addr)
  else if s.hostBehind then .next (s.deferHost (.hostWrite addr body))
  else
    let ps := accPlaces addr n
    let own := halvesOf addr n
    let mine := s.hostHeld.filter own.contains
    match ({ s with hostHeld := s.hostHeld.filter fun h => !own.contains h } : State).letIn (2 ^ 62 + addr) (s.homeDie addr) ps (some body) with
    | (s, false) => .next (({ s with hostHeld := mine.foldl (fun l h => insertLine h l) s.hostHeld } : State).deferHost (.hostWrite addr body))
    | (s, true) =>
      let s1 := s.peerStore ps body false
      .next { s1.endHost with hostHeld := mine.foldl (fun l h => insertLine h l) s1.hostHeld, hostOut := s1.hostOut ++ [.written addr] }

/-- BACK_INVALIDATE_RESPONSE (R422): the host has given up a half. -/
def execBackInvalidateResponse (line : Nat) (s : State) : Out :=
  .next { s with hostHeld := s.hostHeld.filter (· != line), hostAsked := s.hostAsked.filter (· != line) }

/-- Every die gives up the host lines a test names, those held dirty being written back (R421, R455). -/
def State.dropHalves (s : State) (gone : Nat → Bool) : State := ((s.filter.map (·.line)).filter gone).foldl (·.dropHalf ·) s

/-- Host lines leave the filter with nothing written back: no die holds them, and no core is a sharer of them, any longer (R461). -/
def State.unfilter (s : State) (gone : Nat → Bool) : State :=
  { ((s.filter.map (·.line)).filter gone).foldl (fun s l => s.setHalf l HalfSt.none) s with
    filter := s.filter.filter fun h => !gone h.line, sharers := s.sharers.filter fun h => !(h.host && (gone (2 * h.line) || gone (2 * h.line + 1))) }

/-- A half's state once a snoop that shares it has been answered (R420, R421). -/
def HalfSt.snooped (h : HalfSt) : HalfSt := if h.st == .i then h else { h with st := .s }

/-- HOST_SNOOP (R420, R421): the filter of a link answers with the line where a die holds it dirty, and gives it up as the snoop
requires; one that takes ownership disturbs every sharer of the line (R80). A line whose modified bytes a reset lost is answered with
poisoned data, and stays lost (R455). -/
def execHostSnoop (iod : Fin 2) (line : Nat) (kind : SnoopKind) (s : State) : Out :=
  if halfIod line != iod.val then .next s
  else
    match s.filter.find? (·.line == line) with
    | none => .next { s with hostOut := s.hostOut ++ [.snoopReply line none false] }
    | some h =>
      let ps := (List.range 64).map fun k => Place.host (64 * line + k)
      let dirty := (s.half line).dirty || h.lost
      let bad := ps.any s.badByte
      let body := if dirty then some (if bad then List.replicate 64 0xFF else s.readPlaces ps) else none
      let s1 := match kind with
        | .own => if h.lost then s else s.unfilter (· == line)
        | .share => s.setHalf line (s.half line).snooped
      .next { s1 with hostOut := s1.hostOut ++ [.snoopReply line body (dirty && bad)] }

/-- What an SPDM answer says: the digests kept for the session and the fused security versions, as bytes that the identity key signs (the
layout is the model's own, log 8). -/
def spdmBytes (digests : List (BitVec 512)) (versions : List Nat) : List Byte :=
  digests.flatMap (fun d => toBytes 64 d.toNat) ++ versions.flatMap (toBytes 8)

/-- SPDM_MEASUREMENT (R448). -/
def execSpdmMeasurement (s : State) : Out :=
  .next { s with hostOut := s.hostOut ++ [.measurement s.digests s.fuseMin (Config.identitySign (spdmBytes s.digests s.fuseMin))] }

/-! ## Resetting and resuming a logical device (R455, R456) -/

/-- A logical device with no resident block and no unfinished launch. -/
def State.idleDie (s : State) (d : Nat) : Bool :=
  !(s.blocks.any fun b => b.die == d && !b.isSaved) && !(s.launches.any fun l : Launch => l.die == d)

/-- A die's host lines are written back and it leaves the filter (R455). -/
def State.dropHostLines (s : State) (d : Nat) : State := (s.filter.map (·.line)).foldl (fun s l => s.leaveHalf d l) s

/-- Registers, queues, fault records and contexts of a logical device at their reset values; its memory, log, counters, power
and time stand. -/
def Die.resetLd (d : Die) : Die :=
  { Die.reset with
    log := d.log, logNext := d.logNext, logLost := d.logLost, quiesce := d.quiesce, time := d.time, msix := d.msix,
    fcomp := d.fcomp, fkeep := d.fkeep, finvl := d.finvl, fpush := d.fpush, pwrTarget := d.pwrTarget, pwrState := d.pwrState,
    d2At := d.d2At, temp := d.temp, power := d.power, throt := d.throt, throttled := d.throttled }

/-- Everything a logical device runs is discarded. -/
def State.clearLd (s : State) (d : Nat) : State :=
  let s1 := (s.blocks.filter (·.die == d)).foldl (fun s b => (if b.isSaved then s else s.returnSlots b).forget b.id) s
  { s1 with
    blocks := s1.blocks.filter (·.die != d), launches := s1.launches.filter (fun l : Launch => l.die != d),
    bins := s1.bins.filter fun c => (s1.block? c.blk).isSome && ((s1.block? c.blk).map (·.die)) != some d,
    tileOps := s1.tileOps.filter fun t => ((s1.block? t.blk).map (·.die)) != some d,
    quarters := s1.quarters.filter fun q => q.cluster / 48 != d, passes := s1.passes.filter fun p => p.cluster / 48 != d,
    actions := s1.actions.filter fun t => ((s1.block? t.blk).map (·.die)) != some d,
    drains := s1.drains.filter fun t => ((s1.block? t.blk).map (·.die)) != some d,
    stores := s1.stores.filter fun e => e.1 / 48 != d, binOpen := Sparse.set [] s1.binOpen d [],
    sendLists := s1.sendLists.filter (·.die != d), sends := s1.sends.filter (·.die != d),
    tlb := s1.tlb.filter (·.holder % 4 != d), imports := s1.imports.filter (·.holder % 4 != d),
    lateFaults := s1.lateFaults.filter (·.die != d), posted := s1.posted.filter (·.view % 4 != d),
    appends := s1.appends.filter (·.die != d),
    peerWaits := s1.peerWaits.filter (·.die != d), port := [], cur := none }

def State.resetLd (s : State) (d : Nat) : State := ((s.dropHostLines d).clearLd d).modDie d Die.resetLd

/-- A halted logical device goes on (R274): the blocks of its launches that are not suspended, a handler's cohort held at a trap issuing
its instruction again. -/
def State.unhalt (s : State) (d : Nat) : State :=
  let s1 := (s.modDie d fun di => { di with halted := false }).resume d fun l => !l.suspended
  { s1 with blocks := updWhere (fun b => b.die == d && b.st == .running) Block.release s1.blocks }

/-- A management command to a die (R453, R456). After a thermal trip a halted logical device stays so: only a start leaves that state (R452). -/
def State.mgmtLd (s : State) (d cmd : Nat) : State :=
  let s := s.wake d
  let di := s.die d
  if cmd == 1 then
    if di.halted then
      if s.bootState == 0 then s.unhalt d else s
    else if s.idleDie d then s
    else s.logOwn d 0x09 0 (BitVec.ofNat 64 cmd)
  else if cmd == 2 then
    if di.halted || s.idleDie d then
      (s.resetLd d).modDie d fun r => { r with halted := di.halted && s.bootState != 0 }
    else s.logOwn d 0x09 0 (BitVec.ofNat 64 cmd)
  else s

/-- LD_RESUME and LD_RESET. -/
def execLdResume (die : Fin 4) (s : State) : Out := .next (if s.inService die.val then s.mgmtLd die.val 1 else s)
def execLdReset (die : Fin 4) (s : State) : Out := .next (if s.inService die.val then s.mgmtLd die.val 2 else s)

/-! ## Leaving the pod (R462) -/

/-- A transfer engine finds no further entry in a list it knows. -/
def State.listEmpty (s : State) (t : SendList) : Bool :=
  t.stopped || match s.nextEntry t with
    | .ok _ none => true
    | _ => false

/-- GO begins the removal; once every block is saved, or has run to its exit where there is no save aperture (R406), the device gives up the
lines it holds of its peers and of the host, and it leaves when those are written back and its send lists have drained: each peer is then
told, by a departure message of which the spec gives no more (log 58). -/
def State.quiesceGo (s : State) : State :=
  let s1 := if s.quiescing then s
    else { (List.range 4).foldl (fun s d => s.suspend d 0 true) s with quiescing := true, quiesceDone := false }
  let saved := s1.blocks.all (·.isSaved)
  let s2 := if saved then s1.remotes.foldl (·.giveUp ·) s1 else s1
  let backs := s2.requests.any fun q => match q.serves with
    | .back _ => true
    | _ => false
  if saved && !backs && s2.sends.all (·.done) && s2.sendLists.all s2.listEmpty && !s2.quiesceDone then
    { s2.dropHalves fun _ => true with quiesceDone := true, left := (List.range 16).filter fun p => p != s2.pos && !(s2.peer p).lost }
  else s2

/-- QUIESCE. -/
def execQuiesce (s : State) : Out := .next s.quiesceGo

/-! ## Starts (R446, R447, R449, R450, R455) -/

/-- The dies of a mask, rising. -/
def diesOf (mask : BitVec 4) : List Nat := (List.range 4).filter fun k => mask.getLsbD k

/-- The interleave table with some dies in service: entries 32·half onwards (R450). -/
def ivtabOf (mask : BitVec 4) (half : Nat) : Word :=
  let ds := diesOf mask
  BitVec.ofNat 64 (packNat 2 ((List.range 32).map fun h => ds.getD ((32 * half + h) % max ds.length 1) 0))

/-- Every register of every logical device at reset, nothing under way, not joined to a pod; pair-key epochs, host memory and numbering go on,
and over a warm start the facet counters, the error log and the count of dropped stores (DEDUCED, log 55). What the steps of the start have
set stands. -/
def State.start (s : State) (b : Boot) : State :=
  let r := State.reset
  { r with
    capStep := s.capStep, capGrade := s.capGrade, dieMask := s.dieMask, ivtab0 := s.ivtab0, ivtab1 := s.ivtab1,
    images := s.images, digests := s.digests, fuseKey := s.fuseKey, fuseMin := s.fuseMin, coeffs := s.coeffs,
    dies := s.dies.zipIdx.map fun (d, k) =>
      let d1 : Die := if b.warm then
          { Die.reset with log := d.log, logNext := d.logNext, logLost := d.logLost, fcomp := d.fcomp, fkeep := d.fkeep, finvl := d.finvl,
                           fpush := d.fpush }
        else Die.reset
      { d1 with time := d.time, pwrState := if s.dieMask.getLsbD k || s.fusedOff == 0 then 0 else 3 },
    bootStep := s.bootStep, fusedOff := s.fusedOff, warm := b.warm, bootState := s.bootState, fabDrop := if b.warm then s.fabDrop else 0,
    peers := s.peers.map fun p => { Peer.none with lost := true, epoch := p.epoch, rxEpoch := p.rxEpoch },
    dmem := s.dmem, dpoison := s.dpoison, hmem := s.hmem, hpoison := s.hpoison, filter := s.filter.filter (·.lost),
    hostLinks := s.hostLinks, hostOut := s.hostOut, wire := s.wire, nextId := s.nextId, free := s.free }

/-- An image verifies (R447): its signature over the header and the body checks against its public key, whose digest is fused; the body's
digest matches; its security version is at least the fused minimum. -/
def State.verifies (s : State) (k : Nat) (i : Image) : Bool :=
  Config.pssVerify i.key (i.header ++ i.body) i.sig && Config.sha512 i.key == s.fuseKey && Config.sha512 i.body == i.digest &&
    decide (s.fuseMin.getD k 0 ≤ i.version)

/-- Image k passes step 1 or 2 of a start: verified, or, at a warm start, compared first with the measurement retained (R446). -/
def State.imageOk (s : State) (warm : Bool) (k : Nat) : Bool :=
  match s.images[k]? with
  | none => false
  | some i => (warm && s.digests[k]? == some (Config.sha512 i.body)) || s.verifies k i

/-- Images are measured: their digests are kept for the session (R448). -/
def State.measured (s : State) (ks : List Nat) : State :=
  { s with digests := (List.range 3).map fun k =>
      if ks.contains k then ((s.images[k]?).map fun i => Config.sha512 i.body).getD 0 else s.digests.getD k 0 }

/-- Training keeps a stored coefficient that passes its check, at a warm start; every other is searched anew: a free value (R446). -/
def State.train (s : State) (warm : Bool) (lo n : Nat) : State :=
  { s with
    coeffs := (List.range 148).map fun k =>
      if lo ≤ k && k < lo + n && !(warm && (Config.freeWord (s.free + 2 * k)).getLsbD 0) then Config.freeWord (s.free + 2 * k + 1)
      else s.coeffs.getD k 0,
    free := s.free + 296 }

/-- A start stops at step 1 or 2: no die comes into service, and only the management function is presented (R447). -/
def State.startFails (s : State) (b : Boot) : State :=
  ({ s with bootState := 2, dieMask := 0, fusedOff := 0 } : State).start b

/-- The next step of a start (R446). Before the first, the logical devices have stopped; their contexts are discarded and their host lines
written back (R455). -/
def State.startStep (s : State) (b : Boot) : State :=
  let done (s : State) (k : Nat) : State := { s with bootStep := BitVec.ofNat 8 k }
  match s.bootStep.toNat + 1 with
  | 1 =>
    let s1 := (List.range 4).foldl (fun s d => (s.dropHostLines d).clearLd d) s
    if s1.imageOk b.warm 0 then done (s1.measured [0]) 1 else s1.startFails b
  | 2 => if s.imageOk b.warm 1 && s.imageOk b.warm 2 then done (s.measured [1, 2]) 2 else s.startFails b
  | 3 => done { s with dieMask := b.dies, fusedOff := ~~~ b.dies } 3
  | 4 => done (s.train b.warm 0 4) 4
  | 5 => done (if b.warm && b.sref && b.dies == b.was then s else { s with dmem := [], dpoison := [] }) 5
  | 6 => done { s with ivtab0 := ivtabOf b.dies 0, ivtab1 := ivtabOf b.dies 1 } 6
  | 7 => done (s.train b.warm 4 144) 7
  | 8 => done s 8
  | 9 => done { s with dies := s.dies.map fun d => { d with time := 0 }, podTime := 0, joined := false, podSkew := 0xFFFF } 9
  | _ => (done { s with bootState := 0 } 10).start b

/-- A block has stopped for a start: at a run boundary, or at a fault that waits, with its lines written back as far as they translate. -/
def State.stoppedFor (s : State) (b : Block) : Bool :=
  b.isSaved || ((b.dirtyLines.isEmpty || b.wbWaits.isSome) &&
    (s.accs.all fun a => a.blk != b.id || a.las.all fun x => x.done || x.faulted) &&
    (s.stopped b || b.st == .retained || (s.accs.any fun a => a.blk == b.id && a.faulted) || b.cohorts.any fun k => match k.stage with
      | .fetch .. => true
      | _ => false))

/-- The next step of a start may be made. -/
def State.startReady (s : State) : Bool := s.bootState == 1 && (s.bootStep != 0 || s.blocks.all s.stoppedFor)

/-- A start begins: every logical device is halted first (R274, R446). -/
def State.startBegins (s : State) (b : Boot) (images : List Image) : State :=
  { (List.range 4).foldl (fun s d => s.haltDevice d) s with
    bootState := 1, bootStep := 0, warm := b.warm, boot := some b, images := images, quiescing := false }

/-- COLD_START and WARM_START: the start of these operands begins, or, where it is the one under way, makes its next step once it can; the
machine turns to the steps by itself (log 7). -/
def State.startEvent (s : State) (warm sref : Bool) (dies : BitVec 4) (images : List Image) : State :=
  match s.boot with
  | some b =>
    if s.bootState == 1 && b.warm == warm && b.sref == sref && b.dies == dies && s.images == images then
      (if s.startReady then s.startStep b else s)
    else s.startBegins ⟨warm, sref, dies, s.dieMask⟩ images
  | none => s.startBegins ⟨warm, sref, dies, s.dieMask⟩ images

/-- A start by BOOTCTL (R445, R446): which dies will pass their self-test is a free value (log 5); the images are those of the boot memory. -/
def State.bootCommand (s : State) (warm sref : Bool) : State :=
  let (w, s) := s.freeVal
  s.startBegins ⟨warm, sref, w.setWidth 4, s.dieMask⟩ s.images

/-- COLD_START: every line of memory is scrubbed to zero. -/
def execColdStart (dies : BitVec 4) (images : List Image) (s : State) : Out := .next (s.startEvent false false dies images)

/-- WARM_START: memory is kept where it stayed in self-refresh and the dies are the same. -/
def execWarmStart (dies : BitVec 4) (sref : Bool) (images : List Image) (s : State) : Out := .next (s.startEvent true sref dies images)

/-- The event by which the machine makes the next step of a start under way. -/
def State.startNext (s : State) : List Instr :=
  match if s.startReady then s.boot else none with
  | some b => [if b.warm then .warmStart b.dies b.sref s.images else .coldStart b.dies s.images]
  | none => []

/-! ## Register writes (R8, R410, R445) -/

/-- FAB_DROP_CLEAR. -/
def execFabDropClear (s : State) : Out := .next (if s.hasUnit 5 then { s with fabDrop := 0 } else s)

/-- The register of a logical device at an offset of its BAR 0 (R96, R97, R249, R346, R370, R389, R410). -/
def bar0Reg (off : Nat) : Option SysReg :=
  match off with
  | 0x40 => some .privap | 0x48 => some .saveap | 0x50 => some .shtab | 0x58 => some .tvec | 0x60 => some .tframe
  | 0x68 => some .ptroot | 0x70 => some .fltsvc | 0x78 => some .fltbase | 0x80 => some .preq | 0x88 => some .prewin
  | 0x90 => some .imptab | 0x98 => some .exptab | 0xA0 => some .lease
  | _ => if 0x100 ≤ off && off < 0x200 && off % 8 == 0 then some (.q (Fin.ofNat 32 ((off - 0x100) / 8))) else none

/-- A power target is named (R453): a management command, which wakes the die. -/
def State.pwrTarget (s : State) (d : Nat) (t : BitVec 2) : State :=
  (s.wake d).modDie d fun di => if t == 3 then di else { di with pwrTarget := t }

/-- KVMAP's byte k without its reserved bits. -/
def kvByte (v : Word) (k : Nat) : BitVec 8 := BitVec.ofNat 8 (bits v.toNat (8 * k + 7) (8 * k)) &&& 0x8F#8

/-- Write KVMAP0 or KVMAP1 (R410, R423): a group whose EN is 0 is not in service. -/
def State.writeKvmap (s : State) (half : Nat) (v : Word) : State :=
  { s with
    kvmap := s.kvmap.mapIdx fun k e => if k / 8 == half then kvByte v (k % 8) else e,
    kgs := s.kgs.mapIdx fun k g => if k / 8 == half && !(kvByte v (k % 8)).getLsbD 7 then { g with gstate := 3, up := 0 } else g }

/-- A register of the management function (R410, R445). -/
def State.writeMgmt (s : State) (off : Nat) (v : Word) : State :=
  let n := v.toNat
  match off with
  | 0x10 =>
    let keep := if s.hasUnit 5 then 0xFF#64 else 0xF0#64
    let s1 : State := { s with podpos := (s.podpos &&& 0x100#64) ||| (v &&& keep) }
    if s.hasUnit 5 then s1.settleMaster else s1
  | 0x30 => if s.hasUnit 5 then s.writeKvmap 0 v else s
  | 0x38 => if s.hasUnit 5 then s.writeKvmap 1 v else s
  | 0x300 =>
    if bits n 1 0 = 1 then s.bootCommand true (bit n 8) else if bits n 1 0 = 2 then s.bootCommand false false else s
  | 0x310 => { s with retwin := v &&& 0x3FF#64 }
  | 0x318 => { s with scrubctl := v &&& 0xFF#64 }
  | 0x320 => if v == 0 && s.hasUnit 5 then { s with fabDrop := 0 } else s
  | 0x328 => { s with pwrcap := v &&& 0xFFFF#64 }
  | 0x330 => if bit n 0 then s.quiesceGo else s
  | _ =>
    if 0x340 ≤ off && off < 0x360 && off % 8 == 0 then
      (if s.inService ((off - 0x340) / 8) then s.mgmtLd ((off - 0x340) / 8) (bits n 1 0) else s)
    else if 0x360 ≤ off && off < 0x380 && off % 8 == 0 then
      (if s.inService ((off - 0x360) / 8) then s.pwrTarget ((off - 0x360) / 8) (BitVec.ofNat 2 (bits n 1 0)) else s)
    else s

/-! ## Register reads (R2, R6, R8, R410, R440, R445)

No event of the table reads a register: these say what the host finds there. -/

/-- A register of a logical device as the host reads it: a command register reads zero, every other what it holds (DESIGN CHOICE, log 92). -/
def Die.readReg (d : Die) : SysReg → Word
  | .privap => d.privap | .saveap => d.saveap | .shtab => d.shtab | .defctl => d.defctl | .defseed => d.defseed
  | .tvec => d.tvec | .tframe => d.tframe | .ptroot => d.ptroot | .fltbase => d.fltbase | .prewin => d.prewin
  | .imptab => d.imptab | .exptab => d.exptab | .lease => d.leasectl
  | .q n => Sparse.get 0 d.qctl n.val
  | .fltsvc | .preq | .seed | .ctl => 0

/-- BAR 0 of a logical device's physical function; zero for a die out of service (R450). -/
def State.readBar0 (s : State) (d off : Nat) : Word :=
  if !s.inService d then 0
  else if off == 8 then s.cap d
  else ((bar0Reg off).map (s.die d).readReg).getD 0

/-- A word of a die's error log: entry k mod 256 at 32·k. -/
def State.readLog (s : State) (d off : Nat) : Word :=
  match Sparse.find? (s.die d).log (off / 32 % 256), off / 8 % 4 with
  | some e, 0 => e.w0
  | some e, 1 => e.w1
  | some e, 2 => e.w2
  | some e, _ => e.w3
  | none, _ => 0

/-- KVSTAT of a port group. -/
def PortGroup.word (g : PortGroup) : Word :=
  mkWord [(g.retrains.toNat, 24), (g.up.toNat, 9), (if g.spare then 1 else 0, 8), (g.gstate.toNat, 0)]

/-- The management function's registers; those of the fabric read zero on a part without it. -/
def State.readMgmt (s : State) (off : Nat) : Word :=
  let fab (v : Word) : Word := if s.hasUnit 5 then v else 0
  let at_ (base : Nat) : Option Nat := if base ≤ off && off < base + 32 && off % 8 == 0 then some ((off - base) / 8) else none
  let facets (n k : Nat) : Word := let d := s.die n; [d.fcomp, d.fkeep, d.finvl, d.fpush].getD k 0
  let kv (half : Nat) : Word := fab (BitVec.ofNat 64 (packNat 8 (((s.kvmap.drop (8 * half)).take 8).map (·.toNat))))
  let package : List (Nat × Word) :=
    [(0x10, s.podpos), (0x20, s.ivtab0), (0x28, s.ivtab1), (0x30, kv 0), (0x38, kv 1), (0x40, s.podSkew.setWidth 64),
     (0x48, s.ptcSkew.setWidth 64),
     (0x308, mkWord [(s.bootStep.toNat, 56), (s.fusedOff.toNat, 8), (if s.warm then 1 else 0, 4), (s.bootState.toNat, 0)]),
     (0x310, s.retwin), (0x318, s.scrubctl), (0x320, fab s.fabDrop), (0x328, s.pwrcap),
     (0x330, if s.quiesceDone then 2 ^ 63 else 0)]
  match package.find? (·.1 == off) with
  | some e => e.2
  | none =>
    match at_ 0x360, at_ 0x380, at_ 0x3A0 with
    | some n, _, _ => mkWord [((s.die n).pwrState.toNat, 4), ((s.die n).pwrTarget.toNat, 0)]
    | _, some n, _ => mkWord [((s.die n).throt.toNat, 32), ((s.die n).temp.toNat, 16), ((s.die n).power.toNat, 0)]
    | _, _, some n => mkWord [((s.die n).logLost % 2 ^ 32, 32), ((s.die n).logNext % 2 ^ 32, 0)]
    | none, none, none =>
      if 0x200 ≤ off && off < 0x280 && off % 8 == 0 then facets ((off - 0x200) / 32) ((off - 0x200) / 8 % 4)
      else if 0x400 ≤ off && off < 0x480 && off % 8 == 0 then fab (((s.kgs[(off - 0x400) / 8]?).map (·.word)).getD 0)
      else if 0x1000 ≤ off && off < 0x9000 && off % 8 == 0 then s.readLog ((off - 0x1000) / 0x2000) ((off - 0x1000) % 0x2000)
      else 0

/-- What the host reads at an offset of a function's BAR 0. -/
def State.readReg (s : State) (port : RegPort) (off : Nat) : Word :=
  match port with
  | .bar0 die => s.readBar0 die.val off
  | .mgmt => s.readMgmt off

/-- REGISTER_WRITE: any other offset, a read-only register, or a unit that is absent ignores the write (R2, R6, R8). -/
def execRegisterWrite (port : RegPort) (off : Nat) (value : Word) (s : State) : Out :=
  match port with
  | .bar0 die =>
    match bar0Reg off with
    | some r => .next (if s.inService die.val then (s.wake die.val).writeLd die.val r value else s)
    | none => .next s
  | .mgmt => .next (s.writeMgmt off value)

/-! ## FLTSVC (R389, R398) -/

/-- A host's write of a command: it wakes the die (R453); a die out of service has no such register (R6, R450). -/
def State.faultEvent (s : State) (d i act : Nat) : State :=
  if s.inService d then (s.wake d).faultCommand d i act else s

/-- FLTSVC writes as events of the host (R389, R398). -/
def execFltsvcConsume (die : Fin 4) (idx : BitVec 8) (s : State) : Out := .next (s.faultEvent die.val idx.toNat 0)
def execFltsvcServiced (die : Fin 4) (idx : BitVec 8) (s : State) : Out := .next (s.faultEvent die.val idx.toNat 1)
def execFltsvcRefused (die : Fin 4) (idx : BitVec 8) (s : State) : Out := .next (s.faultEvent die.val idx.toNat 2)
def execFltsvcIgnored (die : Fin 4) (idx : BitVec 8) (s : State) : Out := .next (s.faultEvent die.val idx.toNat 3)

end Sys2Proof.Machine
end

