-- ==== Sys2Proof/Machine/Power.lean ====
section
/-! DEFINITION. Power states, throttling, telemetry, memory errors and scrubbing (R451 to R458). -/

namespace Sys2Proof.Machine

/-- PWR_TARGET_D0, PWR_TARGET_D1, PWR_TARGET_D2 (R445, R453). -/
def execPwrTargetD0 (die : Fin 4) (s : State) : Out := .next (if s.inService die.val then s.pwrTarget die.val 0 else s)
def execPwrTargetD1 (die : Fin 4) (s : State) : Out := .next (if s.inService die.val then s.pwrTarget die.val 1 else s)
def execPwrTargetD2 (die : Fin 4) (s : State) : Out := .next (if s.inService die.val then s.pwrTarget die.val 2 else s)

/-- POWER_STATE_ENTER (R453 to R455): an idle die whose target permits it goes to sleep; before D2 its host lines are written
back, and the slices note the pod time. -/
def execPowerStateEnter (die : Fin 4) (s : State) : Out :=
  let d := die.val
  let di := s.die d
  if !s.inService d || !s.idleDie d || di.pwrState.toNat ≥ di.pwrTarget.toNat then .next s
  else if di.pwrTarget == 2 then
    .next ((s.dropHostLines d).modDie d fun di => { di with pwrState := 2, d2At := s.podTime })
  else .next (s.modDie d fun di => { di with pwrState := di.pwrTarget })

/-- DIE_WAKE (R453, R454). -/
def execDieWake (die : Fin 4) (s : State) : Out := .next (s.wake die.val)

/-- THERMAL_THROTTLE (R452): the junction has reached 105 °C. -/
def execThermalThrottle (die : Fin 4) (s : State) : Out :=
  .next (s.modDie die.val fun d => { d with throttled := true, throt := d.throt + 1 })

/-- THERMAL_TRIP (R452): every logical device halts, host lines are written back, DRAM goes into self-refresh, where it serves no request
(log 112), and only a start leaves the state. -/
def execThermalTrip (die : Fin 4) (s : State) : Out :=
  let s1 := (List.range 4).foldl (fun s d => s.haltDevice d) (s.logOwn die.val 0x0A 0 0)
  .next { s1.dropHalves fun _ => true with bootState := 3 }

/-- The package power cap in force: below 1,200 W it acts as 1,200, above 3,200 as 3,200 (R445). -/
def State.powerCap (s : State) : Nat := max 1200 (min 3200 (bits s.pwrcap.toNat 15 0))

/-- The compute dies alone draw more than the cap, by their telemetry in 0.125 W. -/
def State.overCap (s : State) : Bool := decide (8 * s.powerCap < (s.dies.map (·.power.toNat)).foldl (· + ·) 0)

/-- PWRTEL_UPDATE (R445): what the sensors give, every 1 ms. Clocks stay slow for the cap while the dies draw more than it. -/
def execPwrtelUpdate (die : Fin 4) (temp power : BitVec 16) (s : State) : Out :=
  let s1 := s.modDie die.val fun d =>
    { d with temp := temp, power := power, throttled := d.throttled && decide (1680 ≤ temp.toInt) }
  .next { s1 with capThrottled := s1.overCap }

/-- POWER_CAP_THROTTLE (R451): clocks slow; no result changes. -/
def execPowerCapThrottle (s : State) : Out := .next { s with capThrottled := true }

/-- PATROL_SCRUB (R457): the scrub writes back stored values unchanged; errors it meets are MEMORY_ERROR events. -/
def execPatrolScrub (die : Fin 4) (s : State) : Out :=
  let _ := die
  .next s

/-- Poison the place an uncorrectable error hits (R307, R357). -/
def State.poisonAt (s : State) : ErrPlace → State
  | .device l => s.setPoison (.dev (128 * l)) true
  | .host l => s.setPoison (.host (128 * l)) true
  | .scratch k l => s.setPoison (.scr k (128 * l)) true
  | .opRow c k r =>
    let t := s.store c
    s.setStore c (t.setOp k { t.op k with poison := (t.op k).poison ||| BitVec.ofNat 32 (2 ^ (r % 32)) })
  | .cRow c k r =>
    let t := s.store c
    s.setStore c (t.setC k { t.c k with poison := (t.c k).poison ||| BitVec.ofNat 32 (2 ^ (r % 32)) })

/-- The address an error is logged with. -/
def errAddr : ErrPlace → Nat
  | .device l | .host l | .scratch _ l => 128 * l
  | .opRow _ k r | .cRow _ k r => 64 * k + r

/-- MEMORY_ERROR (R457, R458): a correctable error is logged; an uncorrectable one poisons its line or row too. -/
def execMemoryError (die : Fin 4) (uncorrectable : Bool) (place : ErrPlace) (s : State) : Out :=
  let a : Word := BitVec.ofNat 64 (errAddr place)
  .next (if uncorrectable then (s.poisonAt place).logOwn die.val 0x02 a 0 else s.logOwn die.val 0x01 a 0)

/-- A die that resets without control loses a host line it holds, which is logged: modified bytes are lost, a clean line is no longer held
there (R455). -/
def State.loseHalf (s : State) (d l : Nat) : State :=
  let x := s.half l
  let s := s.logOwn d 0x0A (BitVec.ofNat 64 (64 * l)) 0
  if x.dirty && x.owner == d then
    ({ s with filter := updWhere (·.line == l) (fun h => { h with dies := h.dies.filter (· != d), lost := true }) s.filter,
              sharers := s.sharers.filter fun h => !(h.host && h.line == l / 2 && h.core / 192 == d) } : State).setHalf l HalfSt.none
  else s.leaveHalf d l

/-- SUPPLY_RESET (R455): a die resets without control. Its modified host lines are answered poisoned, its clean ones as not held,
and each is logged; what its slices held of peers' lines is lost. -/
def execSupplyReset (die : Fin 4) (s : State) : Out :=
  let d := die.val
  let s1 := (s.filter.filter fun h => h.dies.contains d).foldl (fun s h => s.loseHalf d h.line) s
  let s2 := (s1.clearLd d).modDie d Die.resetLd
  .next { s2 with remotes := s2.remotes.filter (·.die != d) }

end Sys2Proof.Machine
end

