-- ==== Sys2Proof/Machine/Links.lean ====
section
/-! DEFINITION. Ports, retraining, lost groups and host links (R426, R459 to R461). -/

namespace Sys2Proof.Machine

def PortGroup.off : PortGroup := ⟨0, 0, false, 3, [], 0, 0⟩
def State.kg (s : State) (k : Nat) : PortGroup := s.kgs.getD k PortGroup.off
def State.modKg (s : State) (k : Nat) (f : PortGroup → PortGroup) : State := { s with kgs := s.kgs.modify k f }

def downPort (up : BitVec 9) (p : Nat) : BitVec 9 := up &&& ~~~ BitVec.ofNat 9 (2 ^ p)

/-- The retrain window in ns (R445). -/
def State.window (s : State) : Nat := 1000 * max 10 (min 500 (bits s.retwin.toNat 9 0))

/-- A message that waits for a hop no group faces any longer: this device's own is sent another way, one it relays goes back to
its source (R426). -/
def State.turnBack (s : State) (m : Msg) : State :=
  if m.src == s.pos then s.reroute m [] else { s with outbox := s.outbox ++ [(m.src, m)] }

/-- A group is lost (R426, R460): what was sent on the last group towards a peer and not answered is lost; what still waits is
sent another way, but for what a dropped store has broken the path of (R435). -/
def State.loseGroup (s : State) (k : Nat) : State :=
  let s0 := s.modKg k fun g => { g with gstate := 0, up := 0, failing := [] }
  let peer := ((s.kvmap[k]?).map fun e => e.toNat % 16).getD 0
  if s0.faces peer then s0
  else
    let s1 := s0.modPeer peer fun p => { p with heard := s.podTime.toNat }
    let waiting := (s1.outbox.filter (·.1 == peer)).map (·.2)
    let held (r : Request) : Bool := waiting.contains r.msg
    let s2 := s1.loseRequests fun r => r.hop == peer && !held r
    let left := (s2.outbox.filter (·.1 == peer)).map (·.2)
    left.foldl (·.turnBack ·) { s2 with outbox := s2.outbox.filter (·.1 != peer) }

/-- A group with no port left is lost; with ports it carries on. -/
def State.settleGroup (s : State) (k : Nat) : State := if (s.kg k).up == 0 then s.loseGroup k else s

/-- A group stalls its traffic and retrains for a port. -/
def State.retrain (s : State) (k p : Nat) : State :=
  s.modKg k fun g => { g with gstate := 2, failing := [p], stallAt := s.now }

/-- A further port of a group that retrains is failing. -/
def PortGroup.joins (g : PortGroup) (p : Nat) : PortGroup := if g.failing.contains p then g else { g with failing := g.failing ++ [p] }

/-- Port p of a group that is up carries data. -/
def State.carries (s : State) (k p : Nat) : Bool := s.hasUnit 5 && (s.kg k).gstate == 1 && (s.kg k).up.getLsbD p

/-- PORT_FAILING (R459): one that fails while its group already retrains joins the retraining, whose window runs on. -/
def execPortFailing (kg : Fin 16) (port : Fin 9) (s : State) : Out :=
  .next (if s.carries kg.val port.val then s.retrain kg.val port.val
    else if s.hasUnit 5 && (s.kg kg.val).gstate == 2 && (s.kg kg.val).up.getLsbD port.val then s.modKg kg.val (·.joins port.val) else s)

/-- The retrain window of a group has passed. -/
def State.windowOver (s : State) (k : Nat) : Bool := (s.kg k).gstate == 2 && decide ((s.kg k).stallAt + s.window ≤ s.now)

/-- A group resumes: both counts of 2 µs start afresh (R460). -/
def PortGroup.resumes (g : PortGroup) (now : Nat) : PortGroup := { g with gstate := 1, failing := [], resumedAt := now }

/-- RETRAIN_COMPLETE (R459), within the window: the spare, where it is unused, has replaced the first failing port, and the others work
again; the group resumes. -/
def execRetrainComplete (kg : Fin 16) (s : State) : Out :=
  let g := s.kg kg.val
  if g.gstate != 2 || s.windowOver kg.val then .next s
  else
    let n : BitVec 8 := if g.retrains = 255 then 255 else g.retrains + 1
    let back (g : PortGroup) (ps : List Nat) : PortGroup := { g with up := ps.foldl (fun u p => u ||| BitVec.ofNat 9 (2 ^ p)) g.up }
    .next (s.modKg kg.val fun g =>
      let g1 : PortGroup := { g.resumes s.now with retrains := n }
      if g.spare then back g1 g.failing
      else match g.failing with
        | [] => g1
        | p :: ps => back { g1 with spare := true, up := downPort g.up p ||| 0x100#9 } ps)

/-- RETRAIN_WINDOW_END (R459): the failing ports are declared down, and the group resumes on its remaining ports or is lost. -/
def execRetrainWindowEnd (kg : Fin 16) (s : State) : Out :=
  if !s.windowOver kg.val then .next s
  else .next ((s.modKg kg.val fun g => { g.resumes s.now with up := g.failing.foldl downPort g.up }).settleGroup kg.val)

/-- A port is declared down (R460): traffic moves to the other ports, and an unused spare replaces it by a retrain. -/
def State.portDown (s : State) (k p : Nat) : State :=
  let s1 := (s.modKg k fun g => { g with up := downPort g.up p }).settleGroup k
  if (s1.kg k).gstate == 1 && !(s1.kg k).spare then s1.retrain k p else s1

/-- PORT_SIGNAL_LOSS (R460): while a group retrains it is lost only when all its ports have lost their signal. -/
def execPortSignalLoss (kg : Fin 16) (port : Fin 9) (s : State) : Out :=
  if !s.hasUnit 5 then .next s
  else if s.carries kg.val port.val then .next (s.portDown kg.val port.val)
  else if (s.kg kg.val).gstate == 2 then
    .next ((s.modKg kg.val fun g => { g with up := downPort g.up port.val }).settleGroup kg.val)
  else .next s

/-- PORT_SILENCE_TIMEOUT (R460): 2 µs without a flit on one port, or on every port of a group that is not retraining, counted from when
the group last resumed. -/
def execPortSilenceTimeout (kg : Fin 16) (port : Option (Fin 9)) (s : State) : Out :=
  if !s.hasUnit 5 || (s.kg kg.val).gstate != 1 || s.now < (s.kg kg.val).resumedAt + 2000 then .next s
  else
    match port with
    | some p => .next (if s.carries kg.val p.val then s.portDown kg.val p.val else s)
    | none => .next (s.loseGroup kg.val)

/-- HOST_LINK_DROP (R461): accesses through the link complete with the error value; the lines held through it are dropped and
logged. -/
def execHostLinkDrop (iod : Fin 2) (s : State) : Out :=
  let mine := s.filter.filter fun h => halfIod h.line == iod.val
  let s1 := mine.foldl (fun s h => s.logOwn (h.dies.headD 0) 0x0A (BitVec.ofNat 64 (64 * h.line)) 0) s
  .next { s1.unfilter fun l => halfIod l == iod.val with hostLinks := s1.hostLinks &&& ~~~ BitVec.ofNat 2 (2 ^ iod.val) }

end Sys2Proof.Machine
end

