-- ==== Sys2Proof/Machine/Dispatch.lean ====
section
/-! DEFINITION. One arm per instruction: a direct call of its meaning. -/

namespace Sys2Proof.Machine

def exec (i : Instr) (s : State) : Host.Outcome State Fault Refusal :=
  match i with
  | .runend h await => Sys2Proof.Machine.execRunend h await s
  | .br h off await => Sys2Proof.Machine.execBr h off await s
  | .brc h off await cneg cpred => Sys2Proof.Machine.execBrc h off await cneg cpred s
  | .brx h a await => Sys2Proof.Machine.execBrx h a await s
  | .call h off await link => Sys2Proof.Machine.execCall h off await link s
  | .ret h a await => Sys2Proof.Machine.execRet h a await s
  | .exit h await => Sys2Proof.Machine.execExit h await s
  | .yield h await => Sys2Proof.Machine.execYield h await s
  | .bar h await => Sys2Proof.Machine.execBar h await s
  | .waitc h ctr thresh await => Sys2Proof.Machine.execWaitc h ctr thresh await s
  | .waitm h rel dword ptr cmp await => Sys2Proof.Machine.execWaitm h rel dword ptr cmp await s
  | .regroup h a await => Sys2Proof.Machine.execRegroup h a await s
  | .chkpt h off await => Sys2Proof.Machine.execChkpt h off await s
  | .setd h setno diss a => Sys2Proof.Machine.execSetd h setno diss a s
  | .nop h => Sys2Proof.Machine.execNop h s
  | .iadd h f sat o => Sys2Proof.Machine.execIadd h f sat o s
  | .isub h f sat o => Sys2Proof.Machine.execIsub h f sat o s
  | .iaddc h f cin pd o => Sys2Proof.Machine.execIaddc h f cin pd o s
  | .imul h f sat o => Sys2Proof.Machine.execImul h f sat o s
  | .imulh h f o => Sys2Proof.Machine.execImulh h f o s
  | .imad h f sat o => Sys2Proof.Machine.execImad h f sat o s
  | .imadw h f hi sat o => Sys2Proof.Machine.execImadw h f hi sat o s
  | .imin h f o => Sys2Proof.Machine.execImin h f o s
  | .imax h f o => Sys2Proof.Machine.execImax h f o s
  | .iabs h f sat o => Sys2Proof.Machine.execIabs h f sat o s
  | .ineg h f sat o => Sys2Proof.Machine.execIneg h f sat o s
  | .icmp h f rel pd a b => Sys2Proof.Machine.execIcmp h f rel pd a b s
  | .sel h p o => Sys2Proof.Machine.execSel h p o s
  | .mov h f o => Sys2Proof.Machine.execMov h f o s
  | .movk h o => Sys2Proof.Machine.execMovk h o s
  | .srd h r clr d => Sys2Proof.Machine.execSrd h r clr d s
  | .shl h f sat o => Sys2Proof.Machine.execShl h f sat o s
  | .shr h f o => Sys2Proof.Machine.execShr h f o s
  | .sar h f o => Sys2Proof.Machine.execSar h f o s
  | .rol h f o => Sys2Proof.Machine.execRol h f o s
  | .popc h f o => Sys2Proof.Machine.execPopc h f o s
  | .clz h f o => Sys2Proof.Machine.execClz h f o s
  | .ctz h f o => Sys2Proof.Machine.execCtz h f o s
  | .brev h f o => Sys2Proof.Machine.execBrev h f o s
  | .bfx h f o => Sys2Proof.Machine.execBfx h f o s
  | .bfi h f o => Sys2Proof.Machine.execBfi h f o s
  | .plop h lut pd a b c => Sys2Proof.Machine.execPlop h lut pd a b c s
  | .and h o => Sys2Proof.Machine.execAnd h o s
  | .or h o => Sys2Proof.Machine.execOr h o s
  | .xor h o => Sys2Proof.Machine.execXor h o s
  | .andn h o => Sys2Proof.Machine.execAndn h o s
  | .prmb h o => Sys2Proof.Machine.execPrmb h o s
  | .iaddPacked h f sat o => Sys2Proof.Machine.execIaddPacked h f sat o s
  | .isubPacked h f sat o => Sys2Proof.Machine.execIsubPacked h f sat o s
  | .iminPacked h f o => Sys2Proof.Machine.execIminPacked h f o s
  | .imaxPacked h f o => Sys2Proof.Machine.execImaxPacked h f o s
  | .imac2 h o => Sys2Proof.Machine.execImac2 h o s
  | .idot4 h f sat o => Sys2Proof.Machine.execIdot4 h f sat o s
  | .shrr h f o => Sys2Proof.Machine.execShrr h f o s
  | .isat h f o => Sys2Proof.Machine.execIsat h f o s
  | .fadd h f rm o => Sys2Proof.Machine.execFadd h f rm o s
  | .fsub h f rm o => Sys2Proof.Machine.execFsub h f rm o s
  | .fmul h f rm o => Sys2Proof.Machine.execFmul h f rm o s
  | .ffma h f rm o => Sys2Proof.Machine.execFfma h f rm o s
  | .fmin h f o => Sys2Proof.Machine.execFmin h f o s
  | .fmax h f o => Sys2Proof.Machine.execFmax h f o s
  | .fabs h f o => Sys2Proof.Machine.execFabs h f o s
  | .fneg h f o => Sys2Proof.Machine.execFneg h f o s
  | .fcmp h f rel pd a b => Sys2Proof.Machine.execFcmp h f rel pd a b s
  | .fclass h f selV o => Sys2Proof.Machine.execFclass h f selV o s
  | .frnd h f rm o => Sys2Proof.Machine.execFrnd h f rm o s
  | .fdot2 h rm o => Sys2Proof.Machine.execFdot2 h rm o s
  | .frcp h f rm tag o => Sys2Proof.Machine.execFrcp h f rm tag o s
  | .frsq h f rm tag o => Sys2Proof.Machine.execFrsq h f rm tag o s
  | .fsqrt h f rm tag o => Sys2Proof.Machine.execFsqrt h f rm tag o s
  | .fexp2 h f rm tag o => Sys2Proof.Machine.execFexp2 h f rm tag o s
  | .flog2 h f rm tag o => Sys2Proof.Machine.execFlog2 h f rm tag o s
  | .fsin h f rm tag o => Sys2Proof.Machine.execFsin h f rm tag o s
  | .fcos h f rm tag o => Sys2Proof.Machine.execFcos h f rm tag o s
  | .ftanh h f rm tag o => Sys2Proof.Machine.execFtanh h f rm tag o s
  | .cvt h sf df rm sat part d a c => Sys2Proof.Machine.execCvt h sf df rm sat part d a c s
  | .cvtf8 h sf df rm sat part d a c => Sys2Proof.Machine.execCvtf8 h sf df rm sat part d a c s
  | .pack6 h sf df rm part d a c => Sys2Proof.Machine.execPack6 h sf df rm part d a c s
  | .pack4 h sf rm part o => Sys2Proof.Machine.execPack4 h sf rm part o s
  | .unpk h sf df rm part o => Sys2Proof.Machine.execUnpk h sf df rm part o s
  | .sclc h sf ty o => Sys2Proof.Machine.execSclc h sf ty o s
  | .amax h sf span o => Sys2Proof.Machine.execAmax h sf span o s
  | .shuf h f w var pd o => Sys2Proof.Machine.execShuf h f w var pd o s
  | .slide h f w o => Sys2Proof.Machine.execSlide h f w o s
  | .bcast h f w o => Sys2Proof.Machine.execBcast h f w o s
  | .perm h f w o => Sys2Proof.Machine.execPerm h f w o s
  | .vote h w var pd o => Sys2Proof.Machine.execVote h w var pd o s
  | .match_ h f w val pd o => Sys2Proof.Machine.execMatch h f w val pd o s
  | .eqmask h f w s1 pd o => Sys2Proof.Machine.execEqmask h f w s1 pd o s
  | .rank h f w s1 pd o => Sys2Proof.Machine.execRank h f w s1 pd o s
  | .redux h f w op pt o => Sys2Proof.Machine.execRedux h f w op pt o s
  | .scan h f w op excl pt o => Sys2Proof.Machine.execScan h f w op excl pt o s
  | .ld h f n tag d ptr off => Sys2Proof.Machine.execLd h f n tag d ptr off s
  | .st h f n ptr off data => Sys2Proof.Machine.execSt h f n ptr off data s
  | .atom h f op tag d ptr off c => Sys2Proof.Machine.execAtom h f op tag d ptr off c s
  | .cas h f pair tag d ptr off e => Sys2Proof.Machine.execCas h f pair tag d ptr off e s
  | .pmake h priv o => Sys2Proof.Machine.execPmake h priv o s
  | .psub h o => Sys2Proof.Machine.execPsub h o s
  | .pget h fld o => Sys2Proof.Machine.execPget h fld o s
  | .pchk h stV o => Sys2Proof.Machine.execPchk h stV o s
  | .pwiden h nscope nclass o => Sys2Proof.Machine.execPwiden h nscope nclass o s
  | .pnarrow h nscope nclass o => Sys2Proof.Machine.execPnarrow h nscope nclass o s
  | .subscr h a b c => Sys2Proof.Machine.execSubscr h a b c s
  | .upgr h a b c => Sys2Proof.Machine.execUpgr h a b c s
  | .tagq h o => Sys2Proof.Machine.execTagq h o s
  | .tclaim h kind d count => Sys2Proof.Machine.execTclaim h kind d count s
  | .trel h slot => Sys2Proof.Machine.execTrel h slot s
  | .tld h f hr ptr off slot => Sys2Proof.Machine.execTld h f hr ptr off slot s
  | .tst h hr ptr off slot => Sys2Proof.Machine.execTst h hr ptr off slot s
  | .tzero h slot => Sys2Proof.Machine.execTzero h slot s
  | .mmq h f ty tx bh a b c => Sys2Proof.Machine.execMmq h f ty tx bh a b c s
  | .mms h f ty tx bh a b c => Sys2Proof.Machine.execMms h f ty tx bh a b c s
  | .tdrain h f hr ptr off slot => Sys2Proof.Machine.execTdrain h f hr ptr off slot s
  | .twin h hr slot => Sys2Proof.Machine.execTwin h hr slot s
  | .tflag h d slot => Sys2Proof.Machine.execTflag h d slot s
  | .hld h hr handle => Sys2Proof.Machine.execHld h hr handle s
  | .hset h hr fld value => Sys2Proof.Machine.execHset h hr fld value s
  | .hget h hr tag d fld => Sys2Proof.Machine.execHget h hr tag d fld s
  | .copy h d ptr off words => Sys2Proof.Machine.execCopy h d ptr off words s
  | .copyw h tag d seq => Sys2Proof.Machine.execCopyw h tag d seq s
  | .copyx h d ptr off words => Sys2Proof.Machine.execCopyx h d ptr off words s
  | .bin h op ptr key item => Sys2Proof.Machine.execBin h op ptr key item s
  | .binrd h selV tag d ptr idx => Sys2Proof.Machine.execBinrd h selV tag d ptr idx s
  | .sendl h ptr src words => Sys2Proof.Machine.execSendl h ptr src words s
  | .launch h q hdr => Sys2Proof.Machine.execLaunch h q hdr s
  | .release h handle => Sys2Proof.Machine.execRelease h handle s
  | .trap h code => Sys2Proof.Machine.execTrap h code s
  | .tret h => Sys2Proof.Machine.execTret h s
  | .swr h r value => Sys2Proof.Machine.execSwr h r value s
  | .time h pkg tag d => Sys2Proof.Machine.execTime h pkg tag d s
  | .fltrd h word cons tag d idx => Sys2Proof.Machine.execFltrd h word cons tag d idx s
  | .qsc h done tag d => Sys2Proof.Machine.execQsc h done tag d s
  | .tlbx h size all va count => Sys2Proof.Machine.execTlbx h size all va count s
  | .halt h => Sys2Proof.Machine.execHalt h s
  | .issuePick die core part => Sys2Proof.Machine.execIssuePick die core part s
  | .cohortPromote blk coh => Sys2Proof.Machine.execCohortPromote blk coh s
  | .regroupExchange blk laneA laneB => Sys2Proof.Machine.execRegroupExchange blk laneA laneB s
  | .fixedResultWrite id => Sys2Proof.Machine.execFixedResultWrite id s
  | .pendingTagComplete id => Sys2Proof.Machine.execPendingTagComplete id s
  | .rendezvousComplete blk rdv => Sys2Proof.Machine.execRendezvousComplete blk rdv s
  | .trapEntry blk grp => Sys2Proof.Machine.execTrapEntry blk grp s
  | .accessPerformed id order => Sys2Proof.Machine.execAccessPerformed id order s
  | .waitmReread id => Sys2Proof.Machine.execWaitmReread id s
  | .blockRelease blk => Sys2Proof.Machine.execBlockRelease blk s
  | .scratchpadFill blk line => Sys2Proof.Machine.execScratchpadFill blk line s
  | .scratchpadWriteback blk line => Sys2Proof.Machine.execScratchpadWriteback blk line s
  | .memoryActionClose id => Sys2Proof.Machine.execMemoryActionClose id s
  | .slotReturn id => Sys2Proof.Machine.execSlotReturn id s
  | .copyAccept blk => Sys2Proof.Machine.execCopyAccept blk s
  | .copyStamp id => Sys2Proof.Machine.execCopyStamp id s
  | .patch die handle value => Sys2Proof.Machine.execPatch die handle value s
  | .matrixGrant cluster => Sys2Proof.Machine.execMatrixGrant cluster s
  | .matrixPassWrite id => Sys2Proof.Machine.execMatrixPassWrite id s
  | .tileTransferComplete id => Sys2Proof.Machine.execTileTransferComplete id s
  | .binOpenPerform die => Sys2Proof.Machine.execBinOpenPerform die s
  | .binItemPerform die => Sys2Proof.Machine.execBinItemPerform die s
  | .binClosePerform die => Sys2Proof.Machine.execBinClosePerform die s
  | .sendEntryAccept die list => Sys2Proof.Machine.execSendEntryAccept die list s
  | .sendEntryComplete id => Sys2Proof.Machine.execSendEntryComplete id s
  | .headerRead die queue => Sys2Proof.Machine.execHeaderRead die queue s
  | .blockPlace die => Sys2Proof.Machine.execBlockPlace die s
  | .launchAged id => Sys2Proof.Machine.execLaunchAged id s
  | .launchEnd id => Sys2Proof.Machine.execLaunchEnd id s
  | .queueEnable die queue value => Sys2Proof.Machine.execQueueEnable die queue value s
  | .queueTeardown die queue => Sys2Proof.Machine.execQueueTeardown die queue s
  | .pageWalkComplete id => Sys2Proof.Machine.execPageWalkComplete id s
  | .faultSignalDelayed die => Sys2Proof.Machine.execFaultSignalDelayed die s
  | .quiescenceTick die => Sys2Proof.Machine.execQuiescenceTick die s
  | .fltsvcConsume die idx => Sys2Proof.Machine.execFltsvcConsume die idx s
  | .fltsvcServiced die idx => Sys2Proof.Machine.execFltsvcServiced die idx s
  | .fltsvcRefused die idx => Sys2Proof.Machine.execFltsvcRefused die idx s
  | .fltsvcIgnored die idx => Sys2Proof.Machine.execFltsvcIgnored die idx s
  | .preqSuspend die hdr all => Sys2Proof.Machine.execPreqSuspend die hdr all s
  | .preqResume die hdr all => Sys2Proof.Machine.execPreqResume die hdr all s
  | .preemptWindowEnd blk => Sys2Proof.Machine.execPreemptWindowEnd blk s
  | .blockSave blk => Sys2Proof.Machine.execBlockSave blk s
  | .blockRestore blk core => Sys2Proof.Machine.execBlockRestore blk core s
  | .readRequest m => Sys2Proof.Machine.execReadRequest m s
  | .readSharedLease m => Sys2Proof.Machine.execReadSharedLease m s
  | .ownershipRequest m => Sys2Proof.Machine.execOwnershipRequest m s
  | .writeBack m => Sys2Proof.Machine.execWriteBack m s
  | .invalidation m => Sys2Proof.Machine.execInvalidation m s
  | .acknowledgement m => Sys2Proof.Machine.execAcknowledgement m s
  | .dataReply m => Sys2Proof.Machine.execDataReply m s
  | .errorReply m => Sys2Proof.Machine.execErrorReply m s
  | .push m => Sys2Proof.Machine.execPush m s
  | .revocation m => Sys2Proof.Machine.execRevocation m s
  | .sendListPayload m => Sys2Proof.Machine.execSendListPayload m s
  | .remoteStamp m => Sys2Proof.Machine.execRemoteStamp m s
  | .syncAccessAtHome m => Sys2Proof.Machine.execSyncAccessAtHome m s
  | .timeExchange m => Sys2Proof.Machine.execTimeExchange m s
  | .fabricMessageDiscard die m => Sys2Proof.Machine.execFabricMessageDiscard die m s
  | .chordReview => Sys2Proof.Machine.execChordReview s
  | .requestTimeout id => Sys2Proof.Machine.execRequestTimeout id s
  | .leaseExpire line pos => Sys2Proof.Machine.execLeaseExpire line pos s
  | .timeSyncTick pod pkg => Sys2Proof.Machine.execTimeSyncTick pod pkg s
  | .hostRead addr n => Sys2Proof.Machine.execHostRead addr n s
  | .hostWrite addr body => Sys2Proof.Machine.execHostWrite addr body s
  | .hostSnoop iod line kind => Sys2Proof.Machine.execHostSnoop iod line kind s
  | .backInvalidateResponse line => Sys2Proof.Machine.execBackInvalidateResponse line s
  | .spdmMeasurement => Sys2Proof.Machine.execSpdmMeasurement s
  | .coldStart dies images => Sys2Proof.Machine.execColdStart dies images s
  | .warmStart dies sref images => Sys2Proof.Machine.execWarmStart dies sref images s
  | .fabDropClear => Sys2Proof.Machine.execFabDropClear s
  | .quiesce => Sys2Proof.Machine.execQuiesce s
  | .ldResume die => Sys2Proof.Machine.execLdResume die s
  | .ldReset die => Sys2Proof.Machine.execLdReset die s
  | .pwrTargetD0 die => Sys2Proof.Machine.execPwrTargetD0 die s
  | .pwrTargetD1 die => Sys2Proof.Machine.execPwrTargetD1 die s
  | .pwrTargetD2 die => Sys2Proof.Machine.execPwrTargetD2 die s
  | .powerStateEnter die => Sys2Proof.Machine.execPowerStateEnter die s
  | .dieWake die => Sys2Proof.Machine.execDieWake die s
  | .thermalThrottle die => Sys2Proof.Machine.execThermalThrottle die s
  | .thermalTrip die => Sys2Proof.Machine.execThermalTrip die s
  | .pwrtelUpdate die temp power => Sys2Proof.Machine.execPwrtelUpdate die temp power s
  | .patrolScrub die => Sys2Proof.Machine.execPatrolScrub die s
  | .memoryError die uncorrectable place => Sys2Proof.Machine.execMemoryError die uncorrectable place s
  | .portFailing kg port => Sys2Proof.Machine.execPortFailing kg port s
  | .retrainComplete kg => Sys2Proof.Machine.execRetrainComplete kg s
  | .retrainWindowEnd kg => Sys2Proof.Machine.execRetrainWindowEnd kg s
  | .portSignalLoss kg port => Sys2Proof.Machine.execPortSignalLoss kg port s
  | .portSilenceTimeout kg port => Sys2Proof.Machine.execPortSilenceTimeout kg port s
  | .peerLost pos => Sys2Proof.Machine.execPeerLost pos s
  | .hostLinkDrop iod => Sys2Proof.Machine.execHostLinkDrop iod s
  | .supplyReset die => Sys2Proof.Machine.execSupplyReset die s
  | .registerWrite port off value => Sys2Proof.Machine.execRegisterWrite port off value s
  | .linkBringUp pos groups => Sys2Proof.Machine.execLinkBringUp pos groups s
  | .departureMessage pos => Sys2Proof.Machine.execDepartureMessage pos s
  | .chordRelay m => Sys2Proof.Machine.execChordRelay m s
  | .chordReturn m => Sys2Proof.Machine.execChordReturn m s
  | .pairKeyEpoch pos => Sys2Proof.Machine.execPairKeyEpoch pos s
  | .powerCapThrottle => Sys2Proof.Machine.execPowerCapThrottle s

end Sys2Proof.Machine
end

