-- ==== Sys2Proof/Machine/Own.lean ====
section
/-! DEFINITION. What the machine turns to by itself between the events that come from outside: a due result, an engine's, a
front end's or the memory system's next event, an issue partition's pick, or the end of the cycle. The order is the model's own
(log 9): the spec leaves it open. -/

namespace Sys2Proof.Machine

/-- The dies. -/
def allDies : List (Fin 4) := [0, 1, 2, 3]

/-- Results, walks and accesses that may go on. -/
def State.memReady (s : State) : List Instr :=
  let walks (a : Access) : Bool := !a.deferred && a.las.any fun x => x.phase == .walk
  let moves (a : Access) : Bool := !a.deferred && a.las.any fun x => match x.phase with
    | .placed _ => true
    | .refused _ => true
    | _ => false
  let fills := s.accs.filterMap fun a => a.las.findSome? fun x => match x.phase with
    | .placed ps => (s.unfilled ps).map fun f => Instr.scratchpadFill f.1 f.2
    | _ => none
  ((s.accs.filter walks).map fun a => .pageWalkComplete a.id) ++
  ((s.accs.filter moves).map fun a => .accessPerformed a.id []) ++ fills ++
  ((s.longs.filter fun o => o.ready && o.waits.isNone && o.shown.isEmpty && !o.deferred).map fun o => .pendingTagComplete o.id) ++
  ((s.appends.filter fun a => a.waits.isNone).map fun a => .accessPerformed a.id []) ++
  (s.actions.map fun t => .memoryActionClose t.id) ++
  ((s.monitors.filter fun m => (m.armed || m.readAt + 4000 ≤ (((s.block? m.blk).map fun b => (s.die b.die).time.toNat)).getD 0) &&
    !s.accs.any (·.id == m.id)).map fun m => .waitmReread m.id)

/-- What the groups of the resident blocks may go on with. -/
def State.blockReady (s : State) : List Instr :=
  s.blocks.flatMap fun b =>
    ((b.rdvs.filter b.rdvReady).map fun r => .rendezvousComplete b.id r.id) ++
    ((b.groups.zipIdx.filter fun (g, _) => !(s.die b.die).halted && !b.isSaved && (g.raised.map fun r => s.drained b r.lanes).getD false).map
      fun (_, i) => .trapEntry b.id i) ++
    ((b.cohorts.filter fun k => !k.promoted && k.wait + 64 ≤ s.cycle && k.slotted).map fun k => .cohortPromote b.id k.id) ++
    (match b.st with
      | .window e => (if e != 0 && e ≤ s.cycle then [.preemptWindowEnd b.id] else []) ++
          (if s.stopped b && s.settled b then [.blockSave b.id] else [])
      | .saved .. => match s.frontNext b.die with
        | some (.restore k) => if k == b.id then ((s.restoreCore b).map fun c => [Instr.blockRestore b.id c]).getD [] else []
        | _ => []
      | .retained => if s.stopped b then [.blockSave b.id] else []
      | .running => []) ++
    (if b.st != .retained && s.blockDone b then [.blockRelease b.id] else []) ++
    (if s.acceptable b then [.copyAccept b.id] else []) ++
    (b.dirtyLines.map fun l => .scratchpadWriteback b.id l)

/-- What the engines may go on with. -/
def State.engineReady (s : State) : List Instr :=
  ((s.copies.filter s.copyTurn).map fun c => .copyStamp c.id) ++
  (s.tileOps.map fun t => if t.kind == .trel then .slotReturn t.id else .tileTransferComplete t.id) ++
  (((s.quarters.map (·.cluster)).eraseDups).map fun c => .matrixGrant c) ++
  (s.passes.map fun p => .matrixPassWrite p.id) ++
  (allDies.filterMap fun d => (s.binNext d.val).map fun c => match c.kind with
    | .open_ => .binOpenPerform d
    | .item => .binItemPerform d
    | .close => .binClosePerform d) ++
  ((s.sendLists.filter fun t => !t.stopped && t.waits.isNone).map fun t => .sendEntryAccept (Fin.ofNat 4 t.die) (BitVec.ofNat 64 t.addr)) ++
  ((s.sends.filter fun e => !e.held && !e.done && e.waits.isNone && !s.awaitsEndpoint e).map fun e => .sendEntryComplete e.id)

/-- What the front ends, the counters, the fabric and the power management may go on with. -/
def State.dieReady (s : State) : List Instr :=
  (allDies.flatMap fun d =>
    (if s.frontUp d.val then ((s.queueTurn d.val).map fun q => Instr.headerRead d (Fin.ofNat 32 q)).toList else []) ++
    (match s.frontNext d.val with
      | some (.place ..) => [.blockPlace d]
      | _ => []) ++
    (if 1024 * ((s.die d.val).quiesce + 1) ≤ s.cycle then [.quiescenceTick d] else []) ++
    (if (s.die d.val).msixDue then [.faultSignalDelayed d] else []) ++
    (if s.inService d.val && s.idleDie d.val && (s.die d.val).pwrState.toNat < (s.die d.val).pwrTarget.toNat then
      [.powerStateEnter d] else [])) ++
  ((s.launches.filter fun l : Launch => s.launchReady l && l.placed < l.total && !l.aged &&
    (l.readyAt.map fun t => decide (t + 65536 ≤ s.cycle)).getD false).map fun l => .launchAged l.id) ++
  ((s.launches.filter fun l : Launch => s.launchReady l && l.total ≤ l.placed && l.live.isEmpty && l.waits.isNone).map fun l => .launchEnd l.id) ++
  ((s.leases.filter fun e => !e.ended && s.leaseOver e).map fun e => .leaseExpire e.line e.pos) ++
  ((s.requests.filter fun r => r.sentAt.toNat + 1000000 ≤ (s.die r.msg.sdie).time.toNat).map fun r => .requestTimeout (r.dest * 2 ^ 48 + r.seq)) ++
  ((s.peers.zipIdx.filter fun (p, _) => 2 ^ 46 ≤ p.seq).map fun (_, k) => .pairKeyEpoch (BitVec.ofNat 4 k)) ++
  (if s.cycle % 1750 = 0 && s.outbox.any s.onChord then [.chordReview] else []) ++
  (((List.range 16).filter s.silent).map fun k => .peerLost (BitVec.ofNat 4 k)) ++
  (if s.quiescing && !s.quiesceDone then [.quiesce] else []) ++
  ((List.finRange 16).filter fun k => s.windowOver k.val).map (fun k => .retrainWindowEnd k) ++ s.startNext ++
  ((s.peerWaits.filter (·.frec == pwRetry)).map fun w => reissue w.msg)

def State.ready (s : State) : List Instr := s.memReady ++ s.blockReady ++ s.engineReady ++ s.dieReady

/-- The partitions pick in turn, each once; after the last of them the cycle ends. -/
def State.ownPick (s : State) : State × Option Instr :=
  match s.partitions.find? fun e => !s.picked.contains (partKey e.1 e.2.1 e.2.2) with
  | some (d, c, p) => (s, some (.issuePick d c p))
  | none => (s.tick, none)

/-- The machine's own next event: due results first; then events and picks in turn. -/
def State.own (s : State) : State × Option Instr :=
  match s.fixed.find? s.fixedDue with
  | some f => (s, some (.fixedResultWrite f.id))
  | none =>
    let t : State := { s with turn := s.turn + 1 }
    if s.turn % 2 = 0 then
      let es := s.ready
      match es[s.turn / 2 % (es.length + 1)]?, s.hostWait with
      | some i, _ => (t, some i)
      | none, i :: _ => ({ t with hostTurn := true }, some i)
      | none, [] => (t, none)
    else let r := s.ownPick; ({ r.1 with turn := s.turn + 1 }, r.2)

/-! ## The instruction a picked cohort stands at -/

/-- A cohort has an instruction to execute, or its turn ends otherwise. -/
inductive Issued where
  | run (i : Instr) (c : Ctx) (s : State)
  | stop (o : Out)

/-- A trap that a replay found for one of a cohort's home groups, which may take it now (R250, R266). -/
def Block.dueOf (b : Block) (k : Cohort) : Option (Nat × Nat × Trap) :=
  (homesOf k.lanes).findSome? fun g =>
    let gr := b.group g
    if gr.raised.isSome || gr.frame.isSome || gr.heldBy.isSome then none
    else gr.due.head?.map fun e => (g, e.1, e.2)

/-- A cohort of a block keeps what it has fetched. -/
def Block.keepCode (b : Block) (k : Cohort) (code : Code) : Block :=
  { b with cohorts := updWhere (·.id == k.id) (fun k => { k with fetched := some (k.pc, code) }) b.cohorts }

/-- What comes before an instruction is executed: a trap that a replay found, then RUN_LONG for a 25th instruction, then ILLEGAL where
decoding refuses it or it names a register that is not allocated (R28, R46, R125). -/
def State.decodeTrap (s : State) (b : Block) (k : Cohort) (code : Code) (sc : Scope) (illegal : Bool) : Option State :=
  let b := b.keepCode k code
  let c := b.cohCtx k code.len
  match b.dueOf k with
  | some (g, l, t) => some (s.trap (b.modGroup g fun gr => { gr with due := gr.due.drop 1 }) c sc t [l])
  | none =>
    if k.lanes.any fun l => 24 ≤ (b.lane l).run.count then some (s.trap b c sc .runLong k.lanes)
    else if illegal then some (s.trap b c sc .illegal k.lanes)
    else none

/-- The instruction at a cohort's address: as it has been fetched, or fetched now (R344). -/
def State.fetchOnce (s : State) (b : Block) (k : Cohort) : State × Fetched :=
  match k.fetched.filter (·.1 == k.pc) with
  | some (_, e) => (s, e.fetched)
  | none => s.fetch b k.pc

/-- A cohort keeps the instruction fetched. -/
def State.keepFetched (s : State) (b : Block) (k : Cohort) (i : Instr) (len : Nat) : State :=
  s.modBlock b.id fun b => b.keepCode k (.instr i len)

/-- Fetch, decode and check the instruction a cohort stands at (R28, R46, R125, R397). -/
def State.issueOf (s : State) (b : Block) (k : Cohort) : Issued :=
  match s.fetchOnce b k with
  | (s, .fault va kind) =>
    let r := s.recordFault b.die va kind
    .stop (.next (r.1.modBlock b.id fun b =>
      { b with cohorts := updWhere (·.id == k.id) (fun k => { k with stage := .fetch r.2 (s.die b.die).quiesce }) b.cohorts }))
  | (s, .wait) => .stop (.next (s.holdIssue (b.cohCtx k 8)))
  | (s, .illegal len sc) => .stop (.next ((s.decodeTrap b k (.illegal len sc) sc true).getD s))
  | (s, .instr i len) =>
    match s.decodeTrap b k (.instr i len) (Instr.scopeOf i) (overAlloc b.vregs i) with
    | some s => .stop (.next s)
    | none => .run i (b.cohCtx k len) (s.keepFetched b k i len)

end Sys2Proof.Machine
end

