-- ==== Sys2Proof/Machine/Step.lean ====
section
/-! DEFINITION. One step: a picked cohort or completed rendezvous executes its instruction, a pick ends; else the next event of the
agenda happens; else the machine's own next event. -/

namespace Sys2Proof.Machine

/-- Execute the instruction a cohort stands at (R28, R46, R125, R397): a fetch fault makes the cohort wait, a decode
failure traps with ILLEGAL, a 25th instruction with RUN_LONG. -/
def State.stepCohort (s : State) (b : Block) (k : Cohort) : Out :=
  match s.issueOf b k with
  | .stop o => o
  | .run i c s => exec i { s with cur := some c }

/-- One step of the machine. -/
def step (s : State) : Host.Outcome State Fault Refusal :=
  match s.port with
  | .cohort blk coh :: rest =>
    let s := { s with port := rest }
    match s.block? blk with
    | none => .next s
    | some b =>
      match b.cohorts.find? (·.id == coh) with
      | none => .next s
      | some k => s.stepCohort b k
  | .rdv blk rdv :: rest =>
    let s := { s with port := rest }
    match s.block? blk with
    | none => .next s
    | some b =>
      match b.rdvs.find? (·.id == rdv) with
      | none => .next s
      | some r => exec r.instr { s with cur := some (b.rdvCtx r) }
  | .picked d core part place blk cohs :: rest => .next (({ s with port := rest } : State).settlePick d core part place blk cohs)
  | [] =>
    match s.agenda with
    | e :: rest => exec e { s with agenda := rest }
    | [] =>
      match s.own with
      | (s, some e) => exec e s
      | (s, none) => .next s

/-- s with an instruction stored where step fetches next, its block placed and picked. -/
def State.withFetchWord (s : State) (nbits w : Nat) : State := s.placeFetch (bytesOfWords (tableWords nbits w))

end Sys2Proof.Machine
end

