-- ==== Sys2Proof/Safety.lean ====
section
/-! DEFINITION. The terms the statements are made in: an instruction that the core lets issue, what a step leaves unchanged,
and the invariant of memory. -/

namespace Sys2Proof.Machine

/-! ## The invariant -/

/-- Device memory and host memory are in canonical form. -/
def State.Inv (s : State) : Prop := Memory.wf s.dmem = true ∧ Memory.wf s.hmem = true

/-- A place that holds a byte: device memory within the capacity, or another space; its line is not poisoned. -/
structure State.Sound (s : State) (q : Place) : Prop where
  clean : s.badByte q = false
  inside : ∀ a, q = .dev a → a < s.capacity

/-! ## What a step leaves unchanged -/

/-- Device and host memory with their poison, every die's registers, the tile stores, the launches, translations and directories
are the same. -/
structure State.SameOutside (s t : State) : Prop where
  dmem : t.dmem = s.dmem
  hmem : t.hmem = s.hmem
  dpoison : t.dpoison = s.dpoison
  hpoison : t.hpoison = s.hpoison
  dies : t.dies = s.dies
  stores : t.stores = s.stores
  launches : t.launches = s.launches
  tlb : t.tlb = s.tlb
  sharers : t.sharers = s.sharers
  leases : t.leases = s.leases
  podTime : t.podTime = s.podTime

/-- Every lane's V, Q and Y registers and predicates, every group's K and H registers, CTL and mode, the X registers, the
scratchpad and the slot table are the same. -/
structure Block.SameFiles (b b' : Block) : Prop where
  regs : ∀ l, (b'.lane l).regs = (b.lane l).regs
  preds : ∀ l, (b'.lane l).p = (b.lane l).p
  kregs : ∀ g, (b'.group g).k = (b.group g).k
  hregs : ∀ g, (b'.group g).h = (b.group g).h
  ctl : ∀ g, (b'.group g).ctl = (b.group g).ctl
  mode : ∀ g, (b'.group g).sysMode = (b.group g).sysMode
  sets : b'.sets = b.sets
  scratch : b'.scratch = b.scratch
  scrPoison : b'.scrPoison = b.scrPoison
  slots : b'.slots = b.slots

/-- THE FRAME OF AN ISSUE: nothing outside the issuing block changes, every other block is the same, and in the issuing block
the register files are: only the lanes of `flagged` may gain flags, only those of `drawn` move their generators. -/
structure IssueFrame (s t : State) (b : Block) (flagged drawn : List Nat) : Prop where
  out : s.SameOutside t
  others : ∀ k, k ≠ b.id → t.block? k = s.block? k
  own : ∃ b', t.block? b.id = some b' ∧ b.SameFiles b' ∧
    (∀ l, l ∉ flagged → (b'.lane l).flags = (b.lane l).flags) ∧ ∀ l, l ∉ drawn → (b'.lane l).rng = (b.lane l).rng

/-- INSTRUCTION i GOES ON TO t with the frame of an issue: no register, flag or generator changes yet, no slot and no byte of memory. -/
def Runs (i : Instr) (s t : State) (b : Block) : Prop := exec i s = .next t ∧ IssueFrame s t b [] []

/-- Every lane's registers, predicates, flags and generator, every group's K and H registers, CTL and mode, and the X registers are the
same. -/
structure Block.SameRegs (b b' : Block) : Prop where
  regs : ∀ l, (b'.lane l).regs = (b.lane l).regs
  preds : ∀ l, (b'.lane l).p = (b.lane l).p
  flags : ∀ l, (b'.lane l).flags = (b.lane l).flags
  rng : ∀ l, (b'.lane l).rng = (b.lane l).rng
  kregs : ∀ g, (b'.group g).k = (b.group g).k
  hregs : ∀ g, (b'.group g).h = (b.group g).h
  ctl : ∀ g, (b'.group g).ctl = (b.group g).ctl
  mode : ∀ g, (b'.group g).sysMode = (b.group g).sysMode
  sets : b'.sets = b.sets

/-- THE FRAME OF A COMMAND that acts on tables of the core or of the die: device and host memory with their poison are the same, and so
are the registers of every block. -/
structure RegsFrame (s t : State) : Prop where
  dmem : t.dmem = s.dmem
  hmem : t.hmem = s.hmem
  dpoison : t.dpoison = s.dpoison
  hpoison : t.hpoison = s.hpoison
  blocks : ∀ k b, s.block? k = some b → ∃ b', t.block? k = some b' ∧ b.SameRegs b'

/-- INSTRUCTION i GOES ON TO t with the frame of a command. -/
def Commands (i : Instr) (s t : State) : Prop := exec i s = .next t ∧ RegsFrame s t

/-! ## An instruction the core lets issue -/

/-- The instruction of head h is issuing: a resident block's cohort stands at it, its rendezvous is complete where its scope
is wider than a lane, and its guard predicate can be read (R35, R283). -/
structure Issuing (s : State) (b : Block) (c : Ctx) (h : Head) : Prop where
  cur : s.cur = some c
  blk : s.block? c.blk = some b
  arrived : h.scope = .lane ∨ c.wide = true
  guard : s.guardGate b (b.guardLanes c) h = .pass

/-- Checks 3 to 7 of R46 let the instruction go on: some lane acts, no source traps, nothing read or written is in flight. -/
structure Clear (s : State) (b : Block) (h : Head) (w : Work) (sps : List SrcSpec) (d : Opd) (n pd : Nat)
    (preds : List Nat) : Prop where
  acts : w.acts = true
  gate : s.gate b w.src (w.recv.map (·.1)) (sps ++ needs h d) (dstCodes d n ++ if pd < 7 then [256 + pd] else []) preds = .pass

/-- INSTRUCTION i COMPLETES WITH A FIXED LATENCY: wherever it issues and no check stops it, the machine goes on, its results
`res` due for d (and predicate pd) after `lat` cycles. -/
def CompletesFixed (i : Instr) (h : Head) (sps : List SrcSpec) (preds : List Nat) (d : Opd) (n pd lat : Nat)
    (res : Block → Nat → LaneRes) : Prop :=
  ∀ (s : State) (b : Block) (c : Ctx), Issuing s b c h → Clear s b h (b.work c h) sps d n pd preds →
    exec i s = .next (s.issueFixed b c h (b.work c h) d pd lat ((b.work c h).src.map fun l => (l, res b l)))

/-- Checks 3 to 7 for an instruction without a predicate destination. -/
structure ClearPlain (s : State) (b : Block) (w : Work) (src recv : List Nat) (sps : List SrcSpec) (codes : List Nat)
    (preds : List Nat) : Prop where
  acts : w.acts = true
  gate : s.gate b src recv sps codes preds = .pass

/-- INSTRUCTION i COMPLETES UNDER A PENDING TAG: the tag is free in its lanes, and it goes in flight with the writes that its
completion will make. -/
def CompletesTagged (i : Instr) (h : Head) (sps : List SrcSpec) (d : Opd) (tag : Nat) (res : Block → Nat → LaneRes) : Prop :=
  ∀ (s : State) (b : Block) (c : Ctx), Issuing s b c h → Clear s b h (b.work c h) sps d 1 7 [] →
    (∀ l ∈ b.tagLanes h (b.work c h), s.tagBusy b l tag = false) →
    exec i s = .next (s.issueLong b c h (b.work c h) d 1 tag .wrs true
      ((b.work c h).regWrites b d ((b.work c h).src.map fun l => (l, res b l)) ++
        (b.work c h).flagWrites ((b.work c h).src.map fun l => (l, res b l))))

/-- A cross-lane instruction on the lanes of a home group completes: no check on its own sources stops it, and no result is
in flight for a register of another lane that it reads (`reads`); the result of each active lane is due after `lat` cycles. -/
def CompletesCross (i : Instr) (h : Head) (sps : List SrcSpec) (d : Opd) (pd lat : Nat) (reads : Block → Nat → List (Nat × Opd))
    (res : Block → (Nat → Bool) → Nat → LaneRes) : Prop :=
  ∀ (s : State) (b : Block) (c : Ctx), Issuing s b c h →
    let w := b.crossWork c h
    ClearPlain s b w w.src (w.recv.map (·.1)) sps (dstCodes d 1 ++ if pd < 7 then [256 + pd] else []) [] →
    (∀ l ∈ w.src, ∀ m o k, (m, o) ∈ reads b l → regCode? o = some k → s.longBusy b m k = false ∧ s.fixedBusy b m k = false) →
    Runs i s (s.issueFixed b c h w d pd lat (w.src.map fun l => (l, res b (fun m => w.src.contains m) l))) b

/-- What holds back no access of these lanes: room on the counter, no memory action or replay before it, a free tag. -/
structure AccessFree (s : State) (b : Block) (h : Head) (w : Work) (m : MemOp) (tag : Nat) (ctr : Ctr) (las : List LaneAcc) :
    Prop where
  room : b.ctrFull w.groups ctr = false
  act : s.actionHeld b w.src m.isLoad = false
  log : s.logHeld b w.groups = false
  replay : s.replayHeld b m.kind las = false
  tag : m.isStore = true ∨ ∀ l ∈ b.tagLanes h w, s.tagBusy b l tag = false

/-- A memory instruction completes: its pointers pass the checks of R99 and R209 in every lane, nothing holds it, and its access
is outstanding, counted on its class, with each lane's address, size and data fixed at issue. -/
def CompletesAccess (i : Instr) (h : Head) (m : MemOp) (d : Opd) (tag : Nat) (ptr off data : Opd) (dsps : List SrcSpec)
    (ctr : Ctr) : Prop :=
  ∀ (s : State) (b : Block) (c : Ctx), Issuing s b c h →
    let w := b.work c h
    let at_ (l : Nat) : BitVec 128 × Nat := (b.readPtr l ptr, (b.read l .zext off).bits.toNat)
    let las := w.src.map fun l => s.laneAcc b m l (at_ l).1 (at_ l).2 data
    ClearPlain s b w w.src (if m.isStore then [] else w.recv.map (·.1)) (ptrSpecs ptr ++ [⟨off, .int64⟩] ++ dsps ++ needs h d)
      (if m.isStore then [] else dstCodes d m.regs) [] →
    (∀ l ∈ w.src, s.memBad b m l (at_ l).1 (at_ l).2 = none) →
    AccessFree s b h w m tag ctr (las.map (·.1)) →
    let a := accOf s b c h w m d tag (las.map (·.1))
    let b1 := b.addOps w.groups a.id ctr
    let s1 := s.keepImports b (w.src.map fun l => (at_ l).1)
    exec i s = .next
      (if m.isStore then
        { s1.pass (b1.modLanes (fun l => w.src.contains l) fun l ln =>
            { ln with flags := ln.flags ||| (((las.find? (·.1.lane == l)).map (·.2)).getD 0) }) c h with
          nextId := s1.nextId + 1, accs := s1.accs ++ [a] }
      else { s1.issueLong b1 c h w d m.regs tag .access false [] with accs := s1.accs ++ [a] })

/-- Checks 3 to 7 let an instruction of class 111 go on that acts once for its members (R232): its work is `w`. -/
structure OnceClear (s : State) (b : Block) (c : Ctx) (h : Head) (sps : List SrcSpec) (d : Opd) (n : Nat) (w : Work) : Prop where
  work : w = (b.work c h).once b
  acts : w.acts = true
  gate : s.gate b w.src (w.recv.map (·.1)) (sps ++ needs h d) (dstCodes d n) [] = .pass

/-- An engine command that is carried out at issue completes: no check stops it, its counter has room, nothing holds it, and the
commands of its performing lanes, made in lane order, are all done (`engRun` answers true); `fin` follows. -/
def CompletesEngine (i : Instr) (h : Head) (sps : List SrcSpec) (d : Opd) (n : Nat) (ctr : Block → Work → Option Ctr)
    (bad : State → Block → Nat → Option Bad) (held : State → Block → Work → Bool)
    (f : Block → Work → Option Nat → State → Nat → EngStep)
    (fin : State → Block → Ctx → Work → Option Nat → List (Nat × Nat) → State) : Prop :=
  ∀ (s : State) (b : Block) (c : Ctx), Issuing s b c h →
    let w := b.engWork c h
    let op := (ctr b w).map fun _ => s.nextId
    let s1 := match ctr b w with
      | some k => { s.setBlock (b.addOps w.groups s.nextId k) with nextId := s.nextId + 1 }
      | none => s
    ClearPlain s b w w.src (w.recv.map (·.1)) (sps ++ needs h d) (dstCodes d n) [] →
    (∀ l ∈ w.src, bad s b l = none) → (∀ p ∈ s.pubs, ¬(p.blk = c.blk ∧ p.coh = c.coh)) →
    (∀ k, ctr b w = some k → b.ctrFull w.groups k = false) → s.actionHeld b (w.groups.flatMap b.live) false = false →
    s.logHeld b w.groups = false → held s b w = false →
    ∀ s2 done b2, engRun (f b w op) s1 w.src [] = (s2, done, true) → s2.block? c.blk = some b2 →
      Commands i s (fin (s2.clearPub c) b2 c w op done)

/-- SENDL or LAUNCH completes: no check stops it, its counter has room, nothing holds it; an append for each of its performing lanes is
outstanding, in lane order, and the operation is counted once (R232, R266, R267). -/
def CompletesAppend (i : Instr) (h : Head) (sps : List SrcSpec) (bad : State → Block → Work → Nat → Option Bad)
    (kind : Block → Nat → AppendKind) : Prop :=
  ∀ (s : State) (b : Block) (c : Ctx), Issuing s b c h →
    let w := b.engWork c h
    ClearPlain s b w w.src [] (sps ++ needs h .zero) [] [] → (∀ l ∈ w.src, bad s b w l = none) →
    b.ctrFull w.groups .st = false → s.actionHeld b (w.groups.flatMap b.live) false = false → s.logHeld b w.groups = false →
    (∀ a ∈ s.accs, a.blk = b.id → a.deferred = true ∨
      ∀ x ∈ a.las, x.faulted = true → ∀ l ∈ w.src, (w.issuers b h l).contains x.lane = false) →
    Runs i s
      { s.pass (b.addOps w.groups s.nextId .st) c h with
        nextId := s.nextId + 1 + w.src.length,
        appends := s.appends ++ w.src.zipIdx.map fun (l, k) =>
          { id := s.nextId + 1 + k, blk := b.id, grp := l / 32, die := b.die, pc := c.pc, kind := kind b l, lane := l,
            issuers := w.issuers b h l, stamp := (s.die b.die).quiesce, op := s.nextId, waits := none, refused := [] } } b

/-- R260, R261: the first command of a die's engine is performed, all of its writes together, and ends. -/
def BinPerforms (i : Instr) (die : Fin 4) (kind : BinOp) (plan : State → Block → BinCmd → EngRes BinPlan) : Prop :=
  ∀ (s : State) (c : BinCmd) (b : Block) (s1 s2 : State) (p : BinPlan) (ws : List (Option (List Place) × List Byte)),
    s.binNext die.val = some c → s.block? c.blk = some b → c.kind = kind → c.waits = none →
    s.engWaits c.blk c.op (ptrOf c.ptr).stream c.lanes = false → c.onRefused 0 64 = false → kind = .item ∨ c.refused = [] → plan s b c = .ok s1 p →
    engEach (fun s k =>
      (s.engReady b c.id c.refused c.ptr (p.writes.getD k (0, [])).1 (p.writes.getD k (0, [])).2 false).bind fun s ps =>
        .ok s (ps, (p.writes.getD k (0, [])).2)) s1 (List.range p.writes.length) = .ok s2 ws →
    exec i s = .next ((p.after (ws.foldl (fun s w => match w.1 with
      | some ps => s.engCommit ps w.2 false
      | none => s) s2)).endBin c)

/-! ## Events -/

/-- An event names entry x of one of the tables by its number, and its block is there. -/
def State.Found {α : Type} (s : State) (l : List α) (key : α → Nat) (id : Nat) (x : α) (blk : Nat) (b : Block) : Prop :=
  l.find? (fun y => key y == id) = some x ∧ s.block? blk = some b

/-- A fabric message of a type arrives and is accepted: the die has a fabric port, the message does not come back from a wait, and
it passes the checks of R424 and R425. -/
structure Received (s : State) (m : Msg) (type : Nat) : Prop where
  fabric : s.hasUnit 5 = true
  first : s.peerWaits.any (fun w => w.msg == m && decide (pwRetry ≤ w.frec)) = false
  ok : s.msgOk m type = true

/-- The home has translated an accepted request through its export entry, at the places ps, and nothing stands in its way. -/
structure Admitted (s : State) (m : Msg) (need : Need) (n : Nat) (ps : List Place) (data : State → Option (List Byte)) (t : State) :
    Prop where
  home : ∃ s1, ((s.noteSeq m).wake m.ddie).exportPlaces m.ddie m.expidx m.tenant m.egen m.at_ n need = (s1, .ok ps) ∧
    s1.letIn (msgWho m) m.ddie ps (data s1) = (t, true)

/-! ## Fetching -/

/-- The n bytes at an address are fetched for a block's core: translated with X permission at the places ps, let in by whoever holds
their lines, and its core recorded as a sharer of them (R344, R397). -/
structure State.Fetches (s : State) (b : Block) (pc n : Nat) (u : State) (ps : List Place) : Prop where
  read : ∃ s1 s2, s.spots b.view pc n .fetch .either = (s1, .ok ps) ∧ s1.letIn (2 ^ 73 + b.id) b.die ps none = (s2, true) ∧
    u = (placeLines ps).foldl (fun s l => s.share l.1 l.2 b.coreKey 7 0 false) s2

/-- The cohort that issues stands at an instruction it has to fetch, and takes no trap before decoding it (R28, R46). -/
structure Fetching (s : State) (blk coh : Nat) (rest : List PortEnt) (b : Block) (k : Cohort) : Prop where
  port : s.port = .cohort blk coh :: rest
  blk : s.block? blk = some b
  coh : b.cohorts.find? (·.id == coh) = some k
  new : ∀ e, k.fetched = some e → e.1 ≠ k.pc
  due : b.dueOf k = none
  count : ∀ l ∈ k.lanes, (b.lane l).run.count < 24

/-! ## Reset values -/

/-- The registers of a logical device hold their reset values (R96, R97, R193, R249, R346, R370, R389, R410): no queue is in service and
no fault is recorded. -/
structure Die.AtReset (d : Die) : Prop where
  private_ : d.privap = 0
  save : d.saveap = 0
  shapes : d.shtab = 0
  defaults : d.defctl = 0 ∧ d.defseed = 0
  traps : d.tvec = 0 ∧ d.tframe = 0
  pages : d.ptroot = 0 ∧ d.fltbase = 0 ∧ d.faults = []
  preempt : d.prewin = 200
  fabric : d.imptab = 0 ∧ d.exptab = 0 ∧ d.leasectl = 4000
  queues : (∀ n, Sparse.get 0 d.qctl n = 0) ∧ d.queues = []

/-! ## Results -/

/-- An elementwise integer result (R153): the exact integer `t k` of each sub-element, wrapped or saturated, tagged with the
format; SAT where a saturation changed one. -/
def Elementwise (f : Tag) (sat : Bool) (t : Nat → Int) (r : LaneRes) : Prop :=
  (∃ d, r.outs = [⟨d, f⟩] ∧ ∀ k, k < f.count →
    elem f.width d k = wrap f.width (if sat then satInt (tagSigned f) f.width (t k) else t k)) ∧
  r.flags = if sat && (List.range f.count).any fun k => satInt (tagSigned f) f.width (t k) != t k then Flags.sat else 0

/-- The opcodes R121 assigns. -/
def opcodeAssigned (n : Nat) : Bool :=
  [(1, 15), (64, 90), (128, 132), (136, 143), (192, 203), (208, 215), (256, 262), (320, 329), (384, 387), (392, 397),
    (400, 402), (448, 460), (464, 466), (468, 472), (480, 487)].any fun r => r.1 ≤ n && n ≤ r.2

/-- The writes of a result that change a lane, applied to it in order. -/
def Lane.written (ln : Lane) (l : Nat) (ws : List Wr) : Lane :=
  ws.foldl (fun ln w => match w with
    | .reg k c r => if k = l then ln.setReg c r else ln
    | .ycap k r => if k = l then ln.capture r else ln
    | .flags k f => if k = l then { ln with flags := ln.flags ||| f } else ln
    | .pred k p v => if k = l then ln.setPred p v else ln
    | .rng k v => if k = l then { ln with rng := v } else ln
    | _ => ln) ln

/-- A write names lane l's register c: itself, or Y0 and Y1 by a capture. -/
def Wr.names (l c : Nat) : Wr → Bool
  | .reg k e _ => k == l && e == c
  | .ycap k _ => k == l && (c == 200 || c == 201)
  | _ => false

end Sys2Proof.Machine
end

