-- ==== Sys2Proof/Certificates/Slice0/Obligations.lean ====
section
/-! DEFINITION. The statements about the machine. -/

open Sys2Proof Sys2Proof.Machine

/-! ## Classes 001 and 010: integer instructions -/

/-- R30, R34, R153 to R158, R161, R162: every integer instruction of class 001 that no check stops issues, and its result for
each lane is due after the 4 cycles of R34 (6 for the multiplications). Covers IADD, ISUB, IADDC, IMUL, IMULH, IMAD, IMADW (R155), IMIN,
IMAX, IABS, INEG, ICMP, SEL, MOV, SHL, SHR, SAR, ROL, POPC, CLZ, CTZ, BREV, BFX, BFI, PLOP. -/
def Obligations.IntegerInstructionsComplete : Prop :=
  (∀ h f sat o, CompletesFixed (.iadd h f sat o) h [⟨o.a, .fmt f⟩, ⟨o.b, .fmt f⟩] [] o.d 1 7 4
    fun b l => elemwise2 b f sat o (· + ·) l) ∧
  (∀ h f sat o, CompletesFixed (.isub h f sat o) h [⟨o.a, .fmt f⟩, ⟨o.b, .fmt f⟩] [] o.d 1 7 4
    fun b l => elemwise2 b f sat o (· - ·) l) ∧
  (∀ h f cin pd o, CompletesFixed (.iaddc h f cin pd o) h [⟨o.a, .fmt f⟩, ⟨o.b, .fmt f⟩]
      (if cin == 7 then [] else [cin.toNat]) o.d 1 pd.toNat 4
    fun b l =>
      let t := (b.read l (.as f) o.a).bits.toNat + (b.read l (.as f) o.b).bits.toNat +
        (if (b.lane l).pval cin.toNat then 1 else 0)
      ⟨[⟨BitVec.ofNat 64 t, f⟩], 0, some (decide (2 ^ 64 ≤ t)), none⟩) ∧
  (∀ h f sat o, CompletesFixed (.imul h f sat o) h [⟨o.a, .fmt f⟩, ⟨o.b, .fmt f⟩] [] o.d 1 7 6
    fun b l => elemwise2 b f sat o (· * ·) l) ∧
  (∀ h f o, CompletesFixed (.imulh h f o) h [⟨o.a, .fmt f⟩, ⟨o.b, .fmt f⟩] [] o.d 1 7 6
    fun b l => elemwise2 b f false o (fun x y => x * y / (2 ^ f.width : Nat)) l) ∧
  (∀ h f sat o, CompletesFixed (.imad h f sat o) h [⟨o.a, .fmt f⟩, ⟨o.b, .fmt f⟩, ⟨o.c, .fmt f⟩] [] o.d 1 7 6
    fun b l => delivered f f (((b.elems l f o.a).zip (b.elems l f o.b)).zip (b.elems l f o.c) |>.map fun ((x, y), z) =>
      narrow f sat (num f x * num f y + num f z))) ∧
  (∀ h f hi sat o, CompletesFixed (.imadw h f hi sat o) h
      [⟨o.a, .fmt f⟩, ⟨o.b, .fmt f⟩, ⟨o.c, .fmt (if f == .i32 then .i64 else .n64)⟩] [] o.d 1 7 6
    fun b l =>
      let wt : Tag := if f == .i32 then .i64 else .n64
      let k := if hi then 1 else 0
      delivered wt wt [narrow wt sat (num f (elem 32 (b.read l (.as f) o.a).bits k) * num f (elem 32 (b.read l (.as f) o.b).bits k) +
        num wt (b.read l (.as wt) o.c).bits.toNat)]) ∧
  (∀ h f o, CompletesFixed (.imin h f o) h [⟨o.a, .fmt f⟩, ⟨o.b, .fmt f⟩] [] o.d 1 7 4
    fun b l => elemwise2 b f false o min l) ∧
  (∀ h f o, CompletesFixed (.imax h f o) h [⟨o.a, .fmt f⟩, ⟨o.b, .fmt f⟩] [] o.d 1 7 4
    fun b l => elemwise2 b f false o max l) ∧
  (∀ h f sat o, CompletesFixed (.iabs h f sat o) h [⟨o.a, .fmt f⟩] [] o.d 1 7 4
    fun b l => delivered f f ((b.elems l f o.a).map fun x => narrow f sat (num f x).natAbs)) ∧
  (∀ h f sat o, CompletesFixed (.ineg h f sat o) h [⟨o.a, .fmt f⟩] [] o.d 1 7 4
    fun b l => delivered f f ((b.elems l f o.a).map fun x => narrow f sat (-(num f x)))) ∧
  (∀ h f rel pd x y, CompletesFixed (.icmp h f rel pd x y) h [⟨x, .fmt f⟩, ⟨y, .fmt f⟩] [] .zero 0 pd.toNat 4
    fun b l => ⟨[], 0, some (IRel.holds rel (num f (elem f.width (b.read l (.as f) x).bits 0))
      (num f (elem f.width (b.read l (.as f) y).bits 0))), none⟩) ∧
  (∀ h p o, CompletesFixed (.sel h p o) h [⟨o.a, .raw⟩, ⟨o.b, .raw⟩] (if p == 7 then [] else [p.toNat]) o.d 1 7 4
    fun b l =>
      let x := b.read l .plain (if (b.lane l).pval p.toNat then o.a else o.b)
      LaneRes.ofReg ⟨x.bits, x.tag.getD .n64⟩) ∧
  (∀ h o, CompletesFixed (.mov h none o) h [⟨o.a, .raw⟩] [] o.d 1 7 4
    fun b l => let x := b.read l .plain o.a; LaneRes.ofReg ⟨x.bits, x.tag.getD .n64⟩) ∧
  (∀ h t o, CompletesFixed (.mov h (some t) o) h [⟨o.a, .raw⟩] [] o.d 1 7 4
    fun b l => LaneRes.ofReg ⟨(b.read l (.as t) o.a).bits, t⟩) ∧
  (∀ h f sat o, CompletesFixed (.shl h f sat o) h [⟨o.a, .fmt f⟩, ⟨o.b, .fmt f⟩] [] o.d 1 7 4
    fun b l => delivered f f ((b.elems l f o.a).zip (b.elems l f o.b) |>.map fun (x, k) =>
      if sat then narrow f true (num f x * (2 ^ min k 128 : Nat)) else (if f.width ≤ k then 0 else x * 2 ^ k % 2 ^ f.width, 0))) ∧
  (∀ h f o, CompletesFixed (.shr h f o) h [⟨o.a, .fmt f⟩, ⟨o.b, .fmt f⟩] [] o.d 1 7 4
    fun b l => delivered f f ((b.elems l f o.a).zip (b.elems l f o.b) |>.map fun (x, k) =>
      (if f.width ≤ k then 0 else x / 2 ^ k, 0))) ∧
  (∀ h f o, CompletesFixed (.sar h f o) h [⟨o.a, .fmt f⟩, ⟨o.b, .fmt f⟩] [] o.d 1 7 4
    fun b l => delivered f f ((b.elems l f o.a).zip (b.elems l f o.b) |>.map fun (x, k) =>
      (wrap f.width (signed f.width x / (2 ^ min k f.width : Nat)), 0))) ∧
  (∀ h f o, CompletesFixed (.rol h f o) h [⟨o.a, .fmt f⟩, ⟨o.b, .fmt f⟩] [] o.d 1 7 4
    fun b l => delivered f f ((b.elems l f o.a).zip (b.elems l f o.b) |>.map fun (x, k) =>
      ((x * 2 ^ (k % f.width) + x / 2 ^ (f.width - k % f.width)) % 2 ^ f.width, 0))) ∧
  (∀ h f o, CompletesFixed (.popc h f o) h [⟨o.a, .fmt f⟩] [] o.d 1 7 4
    fun b l => delivered f f ((b.elems l f o.a).map fun x => (popcount f.width x, 0))) ∧
  (∀ h f o, CompletesFixed (.clz h f o) h [⟨o.a, .fmt f⟩] [] o.d 1 7 4
    fun b l => delivered f f ((b.elems l f o.a).map fun x => (clz f.width x, 0))) ∧
  (∀ h f o, CompletesFixed (.ctz h f o) h [⟨o.a, .fmt f⟩] [] o.d 1 7 4
    fun b l => delivered f f ((b.elems l f o.a).map fun x => (ctz f.width x, 0))) ∧
  (∀ h f o, CompletesFixed (.brev h f o) h [⟨o.a, .fmt f⟩] [] o.d 1 7 4
    fun b l => delivered f f ((b.elems l f o.a).map fun x => (brev f.width x, 0))) ∧
  (∀ h f o, CompletesFixed (.bfx h f o) h [⟨o.a, .fmt f⟩, ⟨o.b, .fmt f⟩] [] o.d 1 7 4
    fun b l => delivered f f ((b.elems l f o.a).zip (b.elems l f o.b) |>.map fun (x, y) =>
      (bitField f x (bits y 7 0) (bits y 15 8), 0))) ∧
  (∀ h f o, CompletesFixed (.bfi h f o) h [⟨o.a, .fmt f⟩, ⟨o.b, .fmt f⟩, ⟨o.c, .fmt f⟩] [] o.d 1 7 4
    fun b l => delivered f f (((b.elems l f o.a).zip (b.elems l f o.b)).zip (b.elems l f o.c) |>.map fun ((x, y), z) =>
      (insertField f.width x y z, 0))) ∧
  (∀ h lut pd x y z, CompletesFixed (.plop h lut pd x y z) h [] (([x, y, z].filter (· != 7)).map (·.toNat)) .zero 0 pd.toNat 4
    fun b l =>
      let v (p : BitVec 3) : Nat := if (b.lane l).pval p.toNat then 1 else 0
      ⟨[], 0, some (lut.getLsbD (4 * v x + 2 * v y + v z)), none⟩)

/-- R25, R34, R164 to R169: every instruction of class 010 that no check stops issues, its result due after the 4 cycles of R34
(6 for IMAC2, IDOT4, SHRR and ISAT). Covers AND, OR, XOR, ANDN, PRMB, the packed IADD, ISUB, IMIN and IMAX, IMAC2, IDOT4, SHRR, ISAT.
The tag of a raw result whose A is a literal or a special value is the model's choice (log 26). -/
def Obligations.PackedInstructionsComplete : Prop :=
  (∀ h o, CompletesFixed (.and h o) h [⟨o.a, .raw⟩, ⟨o.b, .raw⟩] [] o.d 1 7 4
    fun b l => LaneRes.ofReg ⟨(b.read l .plain o.a).bits &&& (b.read l .plain o.b).bits,
      commonTag [(o.a, b.read l .plain o.a), (o.b, b.read l .plain o.b)]⟩) ∧
  (∀ h o, CompletesFixed (.or h o) h [⟨o.a, .raw⟩, ⟨o.b, .raw⟩] [] o.d 1 7 4
    fun b l => LaneRes.ofReg ⟨(b.read l .plain o.a).bits ||| (b.read l .plain o.b).bits,
      commonTag [(o.a, b.read l .plain o.a), (o.b, b.read l .plain o.b)]⟩) ∧
  (∀ h o, CompletesFixed (.xor h o) h [⟨o.a, .raw⟩, ⟨o.b, .raw⟩] [] o.d 1 7 4
    fun b l => LaneRes.ofReg ⟨(b.read l .plain o.a).bits ^^^ (b.read l .plain o.b).bits,
      commonTag [(o.a, b.read l .plain o.a), (o.b, b.read l .plain o.b)]⟩) ∧
  (∀ h o, CompletesFixed (.andn h o) h [⟨o.a, .raw⟩, ⟨o.b, .raw⟩] [] o.d 1 7 4
    fun b l => LaneRes.ofReg ⟨(b.read l .plain o.a).bits &&& ~~~ (b.read l .plain o.b).bits,
      commonTag [(o.a, b.read l .plain o.a), (o.b, b.read l .plain o.b)]⟩) ∧
  (∀ h o, CompletesFixed (.prmb h o) h [⟨o.a, .raw⟩, ⟨o.b, .raw⟩, ⟨o.c, .raw⟩] [] o.d 1 7 4
    fun b l => LaneRes.ofReg ⟨packElems 8 ((List.range 8).map fun k =>
        let n := elem 4 (b.read l .plain o.b).bits k
        if n < 8 then elem 8 (b.read l .plain o.a).bits n else elem 8 (b.read l .plain o.c).bits (n - 8)),
      commonTag [(o.a, b.read l .plain o.a), (o.c, b.read l .plain o.c)]⟩) ∧
  (∀ h f sat o, CompletesFixed (.iaddPacked h f sat o) h [⟨o.a, .fmt f⟩, ⟨o.b, .fmt f⟩] [] o.d 1 7 4
    fun b l => elemwise2 b f sat o (· + ·) l) ∧
  (∀ h f sat o, CompletesFixed (.isubPacked h f sat o) h [⟨o.a, .fmt f⟩, ⟨o.b, .fmt f⟩] [] o.d 1 7 4
    fun b l => elemwise2 b f sat o (· - ·) l) ∧
  (∀ h f o, CompletesFixed (.iminPacked h f o) h [⟨o.a, .fmt f⟩, ⟨o.b, .fmt f⟩] [] o.d 1 7 4
    fun b l => elemwise2 b f false o min l) ∧
  (∀ h f o, CompletesFixed (.imaxPacked h f o) h [⟨o.a, .fmt f⟩, ⟨o.b, .fmt f⟩] [] o.d 1 7 4
    fun b l => elemwise2 b f false o max l) ∧
  (∀ h o, CompletesFixed (.imac2 h o) h [⟨o.a, .fmt .i16⟩, ⟨o.b, .fmt .i16⟩, ⟨o.c, .fmt .i32⟩] [] o.d 1 7 6
    fun b l =>
      let x := (b.read l (.as .i16) o.a).bits
      let y := (b.read l (.as .i16) o.b).bits
      let z := (b.read l (.as .i32) o.c).bits
      delivered .i32 .i32 ((List.range 2).map fun j =>
        narrow .i32 true (signed 32 (elem 32 z j) + signed 16 (elem 16 x (2 * j)) * signed 16 (elem 16 y (2 * j)) +
          signed 16 (elem 16 x (2 * j + 1)) * signed 16 (elem 16 y (2 * j + 1))))) ∧
  (∀ h f sat o, CompletesFixed (.idot4 h f sat o) h
      [⟨o.a, .fmt f⟩, ⟨o.b, .fmt f⟩, ⟨o.c, .fmt (if f == .i8 then .i32 else .n32)⟩] [] o.d 1 7 6
    fun b l =>
      let t : Tag := if f == .i8 then .i32 else .n32
      let x := (b.read l (.as f) o.a).bits
      let y := (b.read l (.as f) o.b).bits
      delivered t t ((List.range 2).map fun j =>
        narrow t sat ((List.range 4).foldl (fun a k => a + num f (elem 8 x (4 * j + k)) * num f (elem 8 y (4 * j + k)))
          (num t (elem 32 (b.read l (.as t) o.c).bits j))))) ∧
  (∀ h f o, CompletesFixed (.shrr h f o) h [⟨o.a, .fmt f⟩, ⟨o.b, .fmt f⟩, ⟨o.c, .fmt f⟩] [] o.d 1 7 6
    fun b l =>
      let k := (b.read l (.as f) o.c).bits.toNat % 64
      delivered (halfTag f) (halfTag f) ((b.elems l f o.a ++ b.elems l f o.b).map fun x =>
        narrow (halfTag f) true (if k = 0 then num f x else (num f x + (2 ^ (k - 1) : Nat)) / (2 ^ k : Nat)))) ∧
  (∀ h f o, CompletesFixed (.isat h f o) h [⟨o.a, .fmt f⟩, ⟨o.b, .fmt f⟩] [] o.d 1 7 6
    fun b l =>
      let m := (b.read l (.as f) o.b).bits.toNat % 64
      delivered f f ((b.elems l f o.a).map fun x =>
        let k := if m = 0 then 0 else if f.width ≤ m then num f x else satInt (tagSigned f) m (num f x)
        (wrap f.width k, if k != num f x then Flags.sat else 0)))

/-- R34, R159, R160: MOVK writes the K register of every member group with the value that A holds in the home lane B names, and
SRD the special register of each lane read, cleared in the same action in the clearing form; both are due after 4 cycles, and until
then no register, flag (but those SRD clears) or byte of memory changes. -/
def Obligations.MovkAndSrdComplete : Prop :=
  (∀ h o (s : State) (b : Block) (c : Ctx), Issuing s b c h →
    let w := (b.work c h).once b
    let l := s.movkLane b w.desig o.b
    ClearPlain s b w [w.desig] (w.recv.map (·.1)) ([⟨o.b, .raw⟩] ++ needs h o.d) (dstCodes o.d 1) [] →
    s.gate (b.inRun c l) [l] [] [⟨o.a, .raw⟩] [] [] = .pass →
    Runs (.movk h o) s (s.issueFixed b c h w o.d 7 4
      [(w.desig, LaneRes.ofReg ⟨(b.read l .plain o.a).bits, .n64⟩)]) b) ∧
  (∀ h r clr d (s : State) (b : Block) (c : Ctx), Issuing s b c h →
    let w := b.work c h
    ClearPlain s b w w.src (w.recv.map (·.1)) (needs h d) (dstCodes d 1) [] →
    let t := s.issueFixed
      (if clr then b.modLanes (fun l => w.src.contains l) fun _ ln => { ln with flags := 0 } else b) c h w d 7 4
      (w.src.map fun l => (l, LaneRes.ofReg ⟨s.special b l r, .n64⟩))
    exec (.srd h r clr d) s = .next t ∧ IssueFrame s t b (if clr then w.src else []) [])

/-! ## Class 011: float instructions -/

/-- R34, R175 to R181: every float instruction of fixed latency that no check stops issues, its result due after the 6 cycles of
R34. Covers FADD, FSUB, FMUL, FFMA, FMIN, FMAX, FABS, FNEG, FCMP, FCLASS, FRND, FDOT2. -/
def Obligations.FloatInstructionsComplete : Prop :=
  (∀ h f rm o, CompletesFixed (.fadd h f rm o) h [⟨o.a, .fmt f⟩, ⟨o.b, .fmt f⟩] [] o.d 1 7 6
    (fltRes f rm [o.a, o.b] fun vs => (vs.getD 0 .nan).add rm (vs.getD 1 .nan))) ∧
  (∀ h f rm o, CompletesFixed (.fsub h f rm o) h [⟨o.a, .fmt f⟩, ⟨o.b, .fmt f⟩] [] o.d 1 7 6
    (fltRes f rm [o.a, o.b] fun vs => (vs.getD 0 .nan).add rm (vs.getD 1 .nan).negate)) ∧
  (∀ h f rm o, CompletesFixed (.fmul h f rm o) h [⟨o.a, .fmt f⟩, ⟨o.b, .fmt f⟩] [] o.d 1 7 6
    (fltRes f rm [o.a, o.b] fun vs => (vs.getD 0 .nan).mul (vs.getD 1 .nan))) ∧
  (∀ h f rm o, CompletesFixed (.ffma h f rm o) h [⟨o.a, .fmt f⟩, ⟨o.b, .fmt f⟩, ⟨o.c, .fmt f⟩] [] o.d 1 7 6
    (fltRes f rm [o.a, o.b, o.c] fun vs => ((vs.getD 0 .nan).mul (vs.getD 1 .nan)).add rm (vs.getD 2 .nan))) ∧
  (∀ h f o, CompletesFixed (.fmin h f o) h [⟨o.a, .fmt f⟩, ⟨o.b, .fmt f⟩] [] o.d 1 7 6
    fun b l => delivered f f ((b.elems l f o.a).zip (b.elems l f o.b) |>.map fun (x, y) =>
      ((outFloat f .rne (minMaxVal false (inFloat f x) (inFloat f y))).1, 0))) ∧
  (∀ h f o, CompletesFixed (.fmax h f o) h [⟨o.a, .fmt f⟩, ⟨o.b, .fmt f⟩] [] o.d 1 7 6
    fun b l => delivered f f ((b.elems l f o.a).zip (b.elems l f o.b) |>.map fun (x, y) =>
      ((outFloat f .rne (minMaxVal true (inFloat f x) (inFloat f y))).1, 0))) ∧
  (∀ h f o, CompletesFixed (.fabs h f o) h [⟨o.a, .fmt f⟩] [] o.d 1 7 6
    fun b l => delivered f f ((b.elems l f o.a).map fun x => (x % 2 ^ (f.width - 1), 0))) ∧
  (∀ h f o, CompletesFixed (.fneg h f o) h [⟨o.a, .fmt f⟩] [] o.d 1 7 6
    fun b l => delivered f f ((b.elems l f o.a).map fun x => (x ^^^ 2 ^ (f.width - 1), 0))) ∧
  (∀ h f rel pd x y, CompletesFixed (.fcmp h f rel pd x y) h [⟨x, .fmt f⟩, ⟨y, .fmt f⟩] [] .zero 0 pd.toNat 6
    fun b l => ⟨[], 0, some (FRel.holds rel (inFloat f (elem f.width (b.read l (.as f) x).bits 0))
      (inFloat f (elem f.width (b.read l (.as f) y).bits 0))), none⟩) ∧
  (∀ h f sel o, CompletesFixed (.fclass h f sel o) h [⟨o.a, .fmt f⟩] [] o.d 1 7 6
    fun b l => delivered f (if f == .fp32 then .n32 else .n16) ((b.elems l f o.a).map fun x => (classOf (FF.ofTag f) sel x, 0))) ∧
  (∀ h f rm o, CompletesFixed (.frnd h f rm o) h [⟨o.a, .fmt f⟩] [] o.d 1 7 6
    fun b l => delivered f f ((b.elems l f o.a).map fun x => ((outFloat f .rne ((inFloat f x).integral rm)).1, 0))) ∧
  (∀ h rm o, CompletesFixed (.fdot2 h rm o) h [⟨o.a, .fmt .bf16⟩, ⟨o.b, .fmt .bf16⟩, ⟨o.c, .fmt .fp32⟩] [] o.d 1 7 6
    fun b l => delivered .fp32 .fp32 ((List.range 2).map fun j =>
      let x (k : Nat) : Val := inFloat .bf16 (elem 16 (b.read l (.as .bf16) o.a).bits k)
      let y (k : Nat) : Val := inFloat .bf16 (elem 16 (b.read l (.as .bf16) o.b).bits k)
      let z := FF.fp32.value (elem 32 (b.read l (.as .fp32) o.c).bits j)
      let v := execFdot2.dotVal rm z ((x (2 * j)).mul (y (2 * j))) ((x (2 * j + 1)).mul (y (2 * j + 1)))
      let r := outFloat .fp32 rm v
      (r.1, r.2 ||| invalidFlag [x (2 * j), y (2 * j), x (2 * j + 1), y (2 * j + 1), z] v)))

/-- R36, R37, R182: a special function that no check stops goes in flight under its pending tag when the tag is free. Covers
FRCP, FRSQ, FSQRT, FEXP2, FLOG2, FSIN, FCOS, FTANH. The functions' values within the spec's error bounds are the model's
own (log 6). -/
def Obligations.SpecialFunctionsComplete : Prop :=
  ∀ (h : Head) (f : Tag) (rm : RM) (tg : BitVec 3) (o : O2),
    let res (fn : SpecialFn) (b : Block) (l : Nat) : LaneRes :=
      delivered f f ((b.elems l f o.a).map fun x =>
        let v := specialVal fn (inFloat f x)
        let r := outFloat f rm v.1
        (r.1, r.2 ||| v.2))
    let done (i : Instr) (fn : SpecialFn) : Prop := CompletesTagged i h [⟨o.a, .fmt f⟩] o.d tg.toNat (res fn)
    done (.frcp h f rm tg o) .rcp ∧ done (.frsq h f rm tg o) .rsq ∧ done (.fsqrt h f rm tg o) .sqrt ∧
      done (.fexp2 h f rm tg o) .exp2 ∧ done (.flog2 h f rm tg o) .log2 ∧ done (.fsin h f rm tg o) .sin ∧
      done (.fcos h f rm tg o) .cos ∧ done (.ftanh h f rm tg o) .tanh

/-! ## Class 100: conversions -/

/-- R34, R185 to R192: every conversion that no check stops issues, its result due after the 6 cycles of R34 (8 for AMAX). Covers
CVT, CVTF8, PACK6, PACK4, UNPK, SCLC, AMAX; AMAX changes no register, flag or byte of memory until its result is written. The model's own
choices in it: the point from which a magnitude counts as past the largest (logs 27, 76), the range of an integer format judged of the
rounded value (log 103), and AMAX's checks made in every lane of the span that acts (log 102). -/
def Obligations.ConversionsComplete : Prop :=
  (∀ h sf df rm sat part d a c, CompletesFixed (.cvt h sf df rm sat part d a c) h
    [⟨a, .fmt sf⟩, ⟨.zero, .raw⟩, ⟨c, .fmt df⟩] [] d 1 7 6
    (cvtRes rm part.toNat a .zero c (.as sf) (.as df) sf.width sf.count df.width df.count df
      fun _ r x => cvtElem sf df rm sat r x)) ∧
  (∀ h sf df rm sat part d a c, CompletesFixed (.cvtf8 h sf df rm sat part d a c) h
    [⟨a, .fmt sf⟩, ⟨.zero, .raw⟩, ⟨c, .fmt df⟩] [] d 1 7 6
    (cvtRes rm part.toNat a .zero c (.as sf) (.as df) sf.width sf.count df.width df.count df
      fun _ r x => cvtElem sf df rm sat r x)) ∧
  (∀ h sf df rm part d a c, CompletesFixed (.pack6 h sf df rm part d a c) h
    [⟨a, .fmt sf⟩, ⟨.zero, .raw⟩, ⟨c, .pack⟩] [] d 1 7 6
    (cvtRes rm part.toNat a .zero c (.as sf) (.as .n64) sf.width sf.count 6 8 .n64
      fun _ r x => (FF.ofE df).deliver rm true r ((FF.ofTag sf).value x))) ∧
  (∀ h sf rm part o, CompletesFixed (.pack4 h sf rm part o) h
    [⟨o.a, .fmt sf⟩, ⟨o.b, .scale⟩, ⟨o.c, .pack⟩] [] o.d 1 7 6
    (cvtRes rm part.toNat o.a o.b o.c (.as sf) (.as .n64) sf.width sf.count 4 16 .n64
      fun sb r x => pack4Elem (sb % 256) rm r ((FF.ofTag sf).value x))) ∧
  (∀ h sf df rm part o, CompletesFixed (.unpk h sf df rm part o) h
    [⟨o.a, .pack⟩, ⟨o.b, .scale⟩, ⟨.zero, .raw⟩] [] o.d 1 7 6
    (cvtRes rm part.toNat o.a o.b .zero (.as .n64) .plain (if sf == .b4 then 4 else 6) sf.count df.width df.count df
      fun sb r x =>
        if sf == .b4 then (FF.ofTag df).deliver rm true r (codeVal (bits sb 7 6) (bits sb 5 0) x)
        else (FF.ofTag df).deliver rm false r ((FF.ofE sf).value x))) ∧
  (∀ h sf ty o, CompletesFixed (.sclc h sf ty o) h [⟨o.a, .fmt sf⟩] [] o.d 1 7 6
    fun b l =>
      let r := scaleExp ty.toNat ((FF.ofTag sf).value (elem sf.width (b.read l (.as sf) o.a).bits 0))
      ⟨[⟨splat 8 8 (ty.toNat * 64 + r.1), .n8⟩], r.2, none, none⟩) ∧
  (∀ h sf span o (s : State) (b : Block) (c : Ctx), Issuing s b c h →
    let w := b.work c h
    let act (l : Nat) : Bool := if c.wide then !(b.lane l).exited else w.src.contains l
    let src := ((w.src.flatMap fun l => spanLanes sf span l).eraseDups).filter act
    ClearPlain s b w src (w.recv.map (·.1)) ([⟨o.a, .fmt sf⟩] ++ needs h o.d) (dstCodes o.d 1) [] →
    Runs (.amax h sf span o) s (s.issueFixed b c h w o.d 7 8 (w.src.map fun l =>
      (l, LaneRes.ofReg ⟨splat sf.width sf.count (maxMag (FF.ofTag sf)
        (((spanLanes sf span l).filter act).flatMap fun m => b.elems m sf o.a)), sf⟩))) b)

/-! ## Class 101: cross-lane instructions -/

/-- R34, R199 to R207: every cross-lane instruction of lane or group scope that no check stops issues, its result due after the
8 cycles of R34 (12 for REDUX and SCAN); until then no register, flag or byte of memory changes. Covers SHUF, SLIDE, BCAST, PERM, VOTE,
MATCH, EQMASK, RANK, and REDUX and SCAN at group scope. The tag of a 64-bit result and the flags of SCAN are the model's choice (log 28),
and so is the wait for a register of another lane in flight (log 29). -/
def Obligations.CrossLaneInstructionsComplete : Prop :=
  (∀ h f w var pd o, CompletesCross (.shuf h f w var pd o) h [⟨o.a, dChk f⟩, ⟨o.b, idxChk f⟩] o.d pd.toNat 8
    (fun b l => (laneElems f w l).filterMap fun (i, base, _) =>
      (shufIndex var (subWidth w * dCount f) (b.index f o.b (l / 32) i)).map fun k =>
        (l / 32 * 32 + (base + k) / dCount f, o.a))
    fun b act l =>
      let rs := (laneElems f w l).map fun (i, base, _) =>
        match shufIndex var (subWidth w * dCount f) (b.index f o.b (l / 32) i) with
        | some k => if act (32 * (l / 32) + (base + k) / dCount f) then (b.cell f o.a (l / 32) (base + k), true)
                    else (b.cell f o.a (l / 32) i, false)
        | none => (b.cell f o.a (l / 32) i, false)
      { cells f (rs.map (·.1)) with pd := some (rs.all (·.2)) }) ∧
  (∀ h f w o,
    let from_ (b : Block) (l : Nat) : List (Bool × Nat) :=
      (laneElems f w l).map fun (_, base, j) =>
        let r := slideFrom (subWidth w * dCount f) j (slideBy (subWidth w * dCount f) (b.read l (idxAs f) o.b).bits)
        (r.1, base + r.2)
    CompletesCross (.slide h f w o) h [⟨o.a, dChk f⟩, ⟨o.b, .raw⟩, ⟨o.c, dChk f⟩] o.d 7 8
      (fun b l => (from_ b l).map fun (x, i) => (l / 32 * 32 + i / dCount f, if x then o.a else o.c))
      fun b act l => cells f ((from_ b l).map fun (x, i) =>
        if act (32 * (l / 32) + i / dCount f) then
          (if x then b.cell f o.a (l / 32) i else ((b.cell f o.c (l / 32) i).1, .n64))
        else (0, .n64))) ∧
  (∀ h f w o,
    let at_ (b : Block) (l : Nat) : Nat :=
      (laneElems f w l).headD (0, 0, 0) |>.2.1 + bits (b.read l (idxAs f) o.b).bits.toNat 15 0 % (subWidth w * dCount f)
    CompletesCross (.bcast h f w o) h [⟨o.a, dChk f⟩, ⟨o.b, .raw⟩] o.d 7 8
      (fun b l => [(l / 32 * 32 + at_ b l / dCount f, o.a)])
      fun b act l => cells f (List.replicate (dCount f)
        (if act (l / 32 * 32 + at_ b l / dCount f) then b.cell f o.a (l / 32) (at_ b l) else (0, .n64)))) ∧
  (∀ h f w o, CompletesCross (.perm h f w o) h [⟨o.a, dChk f⟩, ⟨o.b, idxChk f⟩, ⟨o.c, dChk f⟩] o.d 7 8 (fun _ _ => [])
    fun b act l => cells f ((laneElems f w l).map fun (i, base, j) =>
      match ((List.range (subWidth w * dCount f)).filter fun k =>
          act (32 * (l / 32) + (base + k) / dCount f) && b.index f o.b (l / 32) (base + k) % (subWidth w * dCount f) == j).getLast? with
      | some k => b.cell f o.a (l / 32) (base + k)
      | none => ((b.cell f o.c (l / 32) i).1, .n64))) ∧
  (∀ h w var pd o, CompletesCross (.vote h w var pd o) h [⟨o.a, .raw⟩] o.d pd.toNat 8 (fun _ _ => [])
    fun b act l =>
      let ls := (subLanes w l).filter act
      let v (m : Nat) : Word := (b.read m .plain o.a).bits
      let one (p : Bool) : LaneRes := ⟨[⟨if p then 1 else 0, .n64⟩], 0, some p, none⟩
      match var with
      | .all => one (ls.all fun m => v m != 0)
      | .any => one (ls.any fun m => v m != 0)
      | .uni => one (ls.all fun m => v m == v l)
      | .ballot => ⟨[⟨maskWord (ls.filter fun m => v m != 0), .n64⟩], 0, some (maskWord (ls.filter fun m => v m != 0) != 0), none⟩) ∧
  (∀ h f w val pd o, CompletesCross (.match_ h f w val pd o) h [⟨o.a, dChk f⟩] o.d pd.toNat 8 (fun _ _ => [])
    fun b act l =>
      let es (m : Nat) : List Nat := (laneElems f w m).map fun (i, _, _) => (b.cell f o.a (m / 32) i).1
      let ls := (subLanes w l).filter fun m => act m && ((es m).zip (es l)).all fun (x, y) => matchEq f val x y
      ⟨[⟨maskWord ls, .n64⟩], 0, some (ls.head? == some l), none⟩) ∧
  (∀ h f w s1 pd o, CompletesCross (.eqmask h f w s1 pd o) h [⟨o.a, .fmt f⟩, ⟨o.b, idxChk (some f)⟩] o.d pd.toNat 8 (fun _ _ => [])
    fun b act l => ⟨[⟨maskWord (b.sameKey act f w s1 o l), .n64⟩], 0, some ((b.sameKey act f w s1 o l).head? == some l), none⟩) ∧
  (∀ h f w s1 pd o, CompletesCross (.rank h f w s1 pd o) h [⟨o.a, .fmt f⟩, ⟨o.b, idxChk (some f)⟩] o.d pd.toNat 8 (fun _ _ => [])
    fun b act l => ⟨[⟨BitVec.ofNat 64 ((b.sameKey act f w s1 o l).filter (· < l)).length, .n64⟩], 0,
      some ((b.sameKey act f w s1 o l).getLast? == some l), none⟩) ∧
  (∀ h f w op pt o, h.scope = .group → CompletesCross (.redux h f w op pt o) h [⟨o.a, dChk f⟩] o.d 7 12 (fun _ _ => [])
    fun b _ l => totalRes f (treeOf (combine f op) 8 (b.spanElems f op o.a (l / 32)
      (l % 32 * dCount f / (subWidth w * dCount f) * (subWidth w * dCount f)) (subWidth w * dCount f)))) ∧
  (∀ h f w op excl pt o, h.scope = .group → CompletesCross (.scan h f w op excl pt o) h [⟨o.a, dChk f⟩] o.d 7 12 (fun _ _ => [])
    fun b _ l =>
      let e := subWidth w * dCount f
      let base := l % 32 * dCount f / e * e
      prefixRes f (((spanScan f op excl (b.spanElems f op o.a (l / 32) base e)).drop (l % 32 * dCount f - base)).take (dCount f)))

/-- R206, R207: REDUX and SCAN at set and block scope go in flight under their pending tag when it is free; REDUX delivers the
member totals combined in the order the groups arrived, SCAN each lane's prefix over the members in rank order; until then no register,
flag or byte of memory changes. Which lanes take the flags of a REDUX to K or X is the model's choice (log 78), and so is which flags a lane
of a SCAN takes (log 28). -/
def Obligations.WideReductionsComplete : Prop :=
  ∀ (h : Head) (f : Option Tag) (w : Width) (op : RedOp) (excl : Bool) (pt : BitVec 3) (o : O2) (s : State) (b : Block) (c : Ctx),
    h.scope = .set ∨ h.scope = .block → Issuing s b c h →
    ClearPlain s b (b.crossWork c h) (b.crossWork c h).src ((b.crossWork c h).recv.map (·.1)) ([⟨o.a, dChk f⟩] ++ needs h o.d)
      (dstCodes o.d 1) [] →
    (∀ l ∈ b.tagLanes h (b.crossWork c h), s.tagBusy b l pt.toNat = false) →
    let goes (i : Instr) (res : Nat → LaneRes) : Prop :=
      let rs := (b.crossWork c h).src.map fun l => (l, res l)
      Runs i s (s.issueLong b c h (b.crossWork c h) o.d 1 pt.toNat .wrs true
        ((b.crossWork c h).regWrites b o.d rs ++ (b.crossWork c h).flagWrites rs)) b
    goes (.redux h f w op pt o) (fun _ => totalRes f (b.wideTotal c f op o.a)) ∧
    goes (.scan h f w op excl pt o) fun l =>
      prefixRes f (((spanScan f op excl (c.members.flatMap fun g => b.spanElems f op o.a g 0 (32 * dCount f))).drop
        (c.members.findIdx (· == l / 32) * 32 * dCount f + l % 32 * dCount f)).take (dCount f))

/-! ## Class 000: control -/

/-- R137, R140 to R146, R148, R149: every terminator of class 000 that no check stops and for which no imprecise trap is due
ends the run of its lanes: an acting lane goes on at the target, waits, yields, parks or exits as the instruction
says, a lane its predicate switches off at the following instruction; no register, flag or byte of memory changes. Covers RUNEND, BR, BRC,
BRX, CALL, RET, EXIT, YIELD, BAR, WAITC, REGROUP, CHKPT. That CALL's link comes after 4 cycles and that Y does not capture it is the
model's choice (log 16). -/
def Obligations.TerminatorsComplete : Prop :=
  ∀ (h : Head) (await : BitVec 8) (s : State) (b : Block) (c : Ctx), Issuing s b c h → b.dueRefusal c = none →
    let on := b.acting c h
    s.gate b on [] (needs h .zero) [] [] = .pass →
    let ends (i : Instr) (next : Nat → Nat) (hold : Nat → Hold) : Prop := Runs i s (s.endRun b c await next hold) b
    let after : Nat → Nat := fun _ => c.pc + c.len
    ends (.runend h await) after (fun _ => .ready) ∧
    (∀ off, ends (.br h off await) (fun l => if on.contains l then targetOf c.pc off else c.pc + c.len) fun _ => .ready) ∧
    (∀ off cneg cpred, s.gate b on on [] [] (if cpred == 7 then [] else [cpred.toNat]) = .pass →
      ends (.brc h off await cneg cpred)
        (fun l => if on.contains l && ((b.lane l).pval cpred.toNat != cneg) then targetOf c.pc off else c.pc + c.len)
        fun _ => .ready) ∧
    (∀ a, s.gate b on [] [⟨a, .int64⟩] [] [] = .pass →
      (∀ l ∈ on, (b.read l .plain a).bits.toNat % 4 = 0) →
      let goal : Nat → Nat := fun l => if on.contains l then (b.read l .plain a).bits.toNat else c.pc + c.len
      ends (.brx h a await) goal (fun _ => .ready) ∧ ends (.ret h a await) goal fun _ => .ready) ∧
    (∀ off link, s.gate b [] on [] [Fin.val link] [] = .pass →
      let t := s.endRun b c await (fun l => if on.contains l then targetOf c.pc off else c.pc + c.len) fun _ => .ready
      Runs (.call h off await link) s { t with
        nextId := t.nextId + 1,
        fixed := t.fixed ++ [⟨t.nextId, b.id, s.cycle + 4,
          on.map fun l => .reg l link.val ⟨BitVec.ofNat 64 (c.pc + 8), .n64⟩⟩] } b) ∧
    ends (.exit h await) after (fun l => if on.contains l then .exiting else .ready) ∧
    ends (.yield h await) after (fun l => if on.contains l then .yielded else .ready) ∧
    (s.barDone b c.members = true → b.tsErr = none → ends (.bar h await) after fun _ => .ready) ∧
    (∀ ctr n, b.tsErr = none → ends (.waitc h ctr n await) after fun l => if on.contains l then .waitc ctr n.toNat c.coh h.scope else .ready) ∧
    (∀ a, s.gate b on [] [⟨a, .raw⟩] [] [] = .pass → ends (.regroup h a await) after
      fun l => if on.contains l then .regroup ((b.read l .plain a).bits.toNat % 2 ^ 16) else .ready) ∧
    (∀ off, targetOf c.pc off % 8 = 0 → ends (.chkpt h off await) after
      fun l => if on.contains l && b.parking then .parked (targetOf c.pc off) else .ready)

/-- R150, R151: NOP and a SETD that no check stops pass: SETD adds the set with the members its mask names, or removes the set
where no result is in flight to it. -/
def Obligations.SetdAndNopComplete : Prop :=
  ∀ (h : Head) (s : State) (b : Block) (c : Ctx), Issuing s b c h →
    ((b.work c h).acts = false ∨ s.gate b (b.work c h).src [] (needs h .zero) [] [] = .pass →
      exec (.nop h) s = .next (s.pass b c h)) ∧
    ∀ (n : BitVec 2) (a : Opd),
      let w := b.work c h
      ClearPlain s b w [w.desig] [] [⟨a, .raw⟩] [] [] →
      (let ms := (List.range 32).filter (bit (b.read w.desig .plain a).bits.toNat)
       b.setOk n.toNat ms = true →
        exec (.setd h n false a) s = .next (s.pass { b with sets := b.sets ++ [⟨n.toNat, ms, [], []⟩] } c h)) ∧
      (∀ t, b.sets.find? (·.no == n.toNat) = some t → s.setBusy b t = false →
        exec (.setd h n true a) s = .next (s.pass { b with sets := b.sets.filter (·.no != n.toNat) } c h))

/-! ## Class 110: memory and pointers -/

/-- R210, R211, R214, R215, R311, R147: LD, ST, ATOM and CAS complete. WAITM, where some lane acts and no check stops it, ends the
run with its acting lanes held at a new monitor, whose first read (of the designated lane after a rendezvous) is outstanding; it changes no
register, flag or byte of memory. A 32-bit literal offset is zero-extended by R107. -/
def Obligations.MemoryInstructionsComplete : Prop :=
  (∀ h f n tg d ptr off, CompletesAccess (.ld h f n tg d ptr off) h ⟨.load, f, nregCount n, 8⟩ d tg.toNat ptr off .zero [] .ld) ∧
  (∀ h f n ptr off data, CompletesAccess (.st h f n ptr off data) h ⟨.store, f, nregCount n, 8⟩ .zero 0 ptr off data
    (dataSpecs f data (nregCount n) true) .st) ∧
  (∀ h f op tg d ptr off x, CompletesAccess (.atom h f op tg d ptr off x) h ⟨.atom op, f, 1, atomWidth f false⟩ d tg.toNat
    ptr off x (dataSpecs f x 1 false) .at_) ∧
  (∀ h f pr tg d ptr off e, CompletesAccess (.cas h f pr tg d ptr off e) h
    ⟨.cas, f, if pr then 2 else 1, atomWidth f pr⟩ d tg.toNat ptr off e (dataSpecs f e (if pr then 4 else 2) false) .at_) ∧
  ∀ (h : Head) (rel : WRel) (dword : Bool) (ptr cmp : Opd) (await : BitVec 8) (s : State) (b : Block) (c : Ctx),
    Issuing s b c h → b.dueRefusal c = none →
    let on := b.acting c h
    let desig := (b.designated c.members).getD 0
    let src := if c.wide then [desig] else on
    let z := if dword then 8 else 4
    let m : MemOp := ⟨.load, .any, 1, z⟩
    let las := src.map fun l => { (s.laneAcc b m l (b.readPtr l ptr) 0 .zero).1 with size := z }
    let w : Work := { src := src, recv := [], pos := [], groups := if c.wide then c.members else homesOf on,
                      desig := if c.wide then desig else on.headD 0, acts := true }
    on ≠ [] →
    s.gate b src [] (ptrSpecs ptr ++ [⟨cmp, .raw⟩] ++ needs h .zero) [] [] = .pass →
    (∀ l ∈ src, s.ptrFail b l (ptrOf (b.readPtr l ptr)) 0 z false [1, 2, 4, 5, 6] = none ∧
      (ptrOf (b.readPtr l ptr)).base % z = 0) →
    s.actionHeld b src true = false → s.logHeld b w.groups = false → s.replayHeld b .monitor las = false →
    let a := accOf s b c h w ⟨.monitor, .any, 1, z⟩ .zero 0 las
    let mon : Monitor :=
      { id := a.id, blk := b.id, pc := c.pc, len := c.len, instr := .waitm h rel dword ptr cmp await, scope := h.scope,
        members := if c.wide then c.members else homesOf c.lanes, rel := rel, dword := dword,
        lanes := src.map fun l => (l, b.readPtr l ptr, (b.read l .plain cmp).bits), readAt := (s.die b.die).time.toNat,
        armed := false }
    let s1 := s.keepImports b (src.map fun l => b.readPtr l ptr)
    Runs (.waitm h rel dword ptr cmp await) s
      { s1.endRun b c await (fun _ => c.pc + c.len) (fun l => if on.contains l then .waitm a.id else .ready) with
        nextId := a.id + 1, accs := s1.accs ++ [a], monitors := s1.monitors ++ [mon] } b

/-- R34, R219 to R222, R227: PMAKE, PSUB, PGET, PCHK and TAGQ issue with latency 4; PSUB where the new extent is no larger; PSUB
and PCHK change no register, flag or byte of memory until their result is written. That a 32-bit literal byte count of PCHK is
zero-extended is the model's choice (log 80). -/
def Obligations.PointerInstructionsComplete : Prop :=
  (∀ h priv o, CompletesFixed (.pmake h priv o) h [⟨o.a, .raw⟩, ⟨o.b, .raw⟩] [] o.d 2 7 4
    fun b l =>
      let lo := (b.read l .plain o.a).bits
      let hi := (b.read l .plain o.b).bits
      ptrRes (if priv then
        ({ ptrOf (hi ++ lo) with
             base := (b.lane l).winLane * 2 ^ 54 + lo.toNat % 2 ^ 54, home := (b.lane l).winCore, space := spPrivate,
             cls := clPrivate, scope := 0 } : Ptr).pack
        else hi ++ lo)) ∧
  (∀ h o (s : State) (b : Block) (c : Ctx), Issuing s b c h →
    let w := b.work c h
    let n (l : Nat) : Nat := bits (b.read l .plain o.b).bits.toNat 31 0
    ClearPlain s b w w.src (w.recv.map (·.1)) (ptrSpecs o.a ++ [⟨o.b, .int64⟩] ++ needs h o.d) (dstCodes o.d 2) [] →
    (∀ l ∈ w.src, n l ≤ (ptrOf (b.readPtr l o.a)).extent) →
    Runs (.psub h o) s (s.issueFixed b c h w o.d 7 4
      (w.src.map fun l => (l, ptrRes { ptrOf (b.readPtr l o.a) with extent := n l }.pack))) b) ∧
  (∀ h fld o, CompletesFixed (.pget h fld o) h (ptrSpecs o.a) [] o.d 1 7 4
    fun b l => LaneRes.ofReg ⟨BitVec.ofNat 64 (ptrFieldOf (ptrOf (b.readPtr l o.a)) fld), .n64⟩) ∧
  (∀ h st o (s : State) (b : Block) (c : Ctx), Issuing s b c h →
    let fail (l : Nat) : Option Nat := s.ptrFail b l (ptrOf (b.readPtr l o.a)) (b.read l .zext o.b).bits.toNat
      (b.read l .zext o.c).bits.toNat false (if st then [1, 2, 3, 5, 6] else [1, 2, 5, 6])
    Clear s b h (b.work c h) (ptrSpecs o.a ++ [⟨o.b, .int64⟩, ⟨o.c, .int64⟩]) o.d 1 7 [] →
    (∀ l ∈ (b.work c h).src, fail l ≠ some notYet) →
    Runs (.pchk h st o) s (s.issueFixed b c h (b.work c h) o.d 7 4 ((b.work c h).src.map fun l =>
      (l, LaneRes.ofReg ⟨BitVec.ofNat 64 (pchkCode (fail l)), .n64⟩))) b) ∧
  (∀ h o, CompletesFixed (.tagq h o) h [⟨o.a, .noPoison⟩] [] o.d 1 7 4
    fun b l => LaneRes.ofReg ⟨BitVec.ofNat 64 (((b.read l .plain o.a).tag.map tagCode).getD 12), .n64⟩)

/-- R223 to R226: PWIDEN and PNARROW deliver the new pointer after 4 cycles and, where it differs, open a memory action counted
on ST; SUBSCR and UPGR open one counted on LD; none changes a register, flag or byte of memory at issue. That a 32-bit literal byte count of
SUBSCR and UPGR is zero-extended (log 80) and that scope and class both unchanged give D equal to A in every space (log 81) are the
model's choices. -/
def Obligations.PointerActionsComplete : Prop :=
  (∀ (widen : Bool) (h : Head) (ns : BitVec 3) (nc : BitVec 2) (o : O2) (s : State) (b : Block) (c : Ctx), Issuing s b c h →
    let w := b.work c h
    let pt (l : Nat) : Ptr := ptrOf (b.readPtr l o.a)
    let new (l : Nat) : Option Ptr := s.rescope b widen (pt l) ns.toNat nc.toNat
    let rs := w.src.map fun l => (l, ptrRes (((new l).getD (pt l)).pack))
    let acts := w.src.filter fun l => new l != some (pt l)
    let i : Instr := if widen then .pwiden h ns nc o else .pnarrow h ns nc o
    ClearPlain s b w w.src (w.recv.map (·.1)) (ptrSpecs o.a ++ needs h o.d) (dstCodes o.d 2) [] →
    (∀ l ∈ w.src, s.ptrFail b l (pt l) 0 (pt l).limit false [1, 2, 6] = none ∧ (new l).isSome = true) →
    (acts = [] → Runs i s (s.issueFixed b c h w o.d 7 4 rs) b) ∧
    (acts ≠ [] → b.ctrFull w.groups .st = false → s.actionHeld b w.src false = false → s.logHeld b w.groups = false →
      let act : Action :=
        { id := s.nextId, blk := b.id, kind := if widen then .widen else .narrow,
          lanes := if h.scope == .lane then acts else w.groups.flatMap b.live,
          ranges := acts.map fun l => (b.readPtr l o.a, 0, (pt l).limit, ((new l).getD (pt l)).pack) }
      let s1 := s.keepImports b (acts.map fun l => b.readPtr l o.a)
      Runs i s (({ s1 with nextId := s.nextId + 1, actions := s1.actions ++ [act] } : State).issueFixed
        (b.addOps w.groups s.nextId .st) c h w o.d 7 4 rs) b)) ∧
  (∀ (upgr : Bool) (h : Head) (x o n : Opd) (s : State) (b : Block) (c : Ctx), Issuing s b c h →
    let w := b.work c h
    let off (l : Nat) : Nat := (b.read l .zext o).bits.toNat
    let len (l : Nat) : Nat := min 65536 (b.read l .zext n).bits.toNat
    ClearPlain s b w w.src [] (ptrSpecs x ++ [⟨o, .int64⟩, ⟨n, .int64⟩] ++ needs h .zero) [] [] →
    (∀ l ∈ w.src, s.ptrFail b l (ptrOf (b.readPtr l x)) (off l) (len l) false [1, 2, 5, 6] = none) →
    b.ctrFull w.groups .ld = false → s.actionHeld b w.src upgr = false → s.logHeld b w.groups = false →
    let act : Action :=
      { id := s.nextId, blk := b.id, kind := if upgr then .upgr else .subscr,
        lanes := if h.scope == .lane then w.src else w.groups.flatMap b.live,
        ranges := w.src.map fun l => (b.readPtr l x, off l, len l, b.readPtr l x) }
    let s1 := s.keepImports b (w.src.map fun l => b.readPtr l x)
    Runs (if upgr then .upgr h x o n else .subscr h x o n) s
      { s1.pass (b.addOps w.groups s.nextId .ld) c h with nextId := s.nextId + 1, actions := s1.actions ++ [act] } b)

/-! ## Class 111: tile store, matrix engine, shapes -/

/-- R238, R239, R242, R243: TCLAIM claims the slots it picks, or reads all ones where there is no room; TREL frees the local
indices at issue; TZERO is in flight on its slot; TFLAG reads the marks once its groups' earlier operations on the slot are
done; none changes a register or byte of memory at issue. Covers TCLAIM, TREL, TZERO, TFLAG. Which free slots TCLAIM picks is the model's
choice (log 106). -/
def Obligations.SlotInstructionsComplete : Prop :=
  ∀ (h : Head) (s : State) (b : Block) (c : Ctx) (w : Work), Issuing s b c h →
    (∀ kind d count, OnceClear s b c h [⟨count, .int64⟩] d 1 w →
      (kind = .win → 2 ≤ b.num w count ∧ b.num w count ≤ 4) → s.logFull b w.groups = false →
      let r := match kind with
        | .op => s.claimOp b 1
        | .win => s.claimOp b (b.num w count)
        | .c => s.claimC b
      (∀ a s1 b1, r = some (a, s1, b1) → Commands (.tclaim h kind d count) s
        (s1.issueFixed b1 c h w d 7 8 [(w.desig, LaneRes.ofReg ⟨BitVec.ofNat 64 a, .n64⟩)])) ∧
      (r = none → Runs (.tclaim h kind d count) s
        (s.issueFixed b c h w d 7 8 [(w.desig, LaneRes.ofReg ⟨BitVec.allOnes 64, .n64⟩)]) b)) ∧
    (∀ slot r, OnceClear s b c h [⟨slot, .int64⟩] .zero 0 w → s.slotRef b (b.num w slot) .any false = some r →
      s.tileHeld b w none = false →
      Runs (.tzero h slot) s (s.tileIssue b c h w .tzero 0 0 r) b ∧
      let b1 := { b with slots := Sparse.clear b.slots r.loc (r.loc + r.ent.count) }
      Commands (.trel h slot) s
        { (s.tileIssue b1 c h w .trel 0 0 r).slotGone b1 r.loc with
          copies := s.copies.filter fun k =>
            !(k.blk == b.id && k.st == .held && r.loc < 512 && k.dslots.any r.ent.physList.contains) }) ∧
    (∀ d slot r, OnceClear s b c h [⟨slot, .int64⟩] d 1 w → s.slotRef b (b.num w slot) .c false = some r →
      s.logFull b w.groups = false → (∀ g ∈ w.groups, s.slotBusy b g true r.ent.physList = false) →
      Runs (.tflag h d slot) s (s.issueFixed b c h w d 7 8
        [(w.desig, LaneRes.ofReg ⟨((s.store b.cluster).c r.ent.phys).flagWord, .n64⟩)]) b)

/-- R240, R241, R247: TLD, TST and TDRAIN are in flight on their slot, with the shape their H register holds at issue, where the
pointer, alignment, shape and slot checks of R234 find nothing; no register, flag or byte of memory changes at issue. -/
def Obligations.TileTransfersComplete : Prop :=
  ∀ (h : Head) (hr : Fin 16) (ptr off slot : Opd) (s : State) (b : Block) (c : Ctx) (w : Work), Issuing s b c h →
    OnceClear s b c h (ptrSpecs ptr ++ [⟨off, .int64⟩, ⟨slot, .int64⟩]) .zero 0 w → b.hBusy [w.desig / 32] hr = false →
    let sh := b.hreg w hr
    let o := (b.read w.desig .zext off).bits.toNat
    let v := b.num w slot
    let pv := b.readPtr w.desig ptr
    let p := ptrOf pv
    let rows := shGet sh 1
    let rb := shGet sh 2
    s.tileHeld b w (some p.stream) = false →
    (∀ f r, (f = .b4 → s.hasUnit 2 = true) → s.slotRef b v (if tileIsC f then .c else .opWin) false = some r →
      s.tileChecks b w.desig pv [1, 2, 4, 5, 6] (fmtOf p.vfmt != some (tilePtrFmt f) || p.sfmt != p.vfmt)
        (rowRange sh o (if tileIsC f then 64 else rb) ::
          (if f == .b4 then [(o + shGet sh 3, (rows - 1) * shGet sh 4 + rb / 16)] else []))
        (o % tileWidth f != 0 || shGet sh 0 % tileWidth f != 0)
        (shReserved sh || rows == 0 || slotRows (tileIsC f) (some r) < rows ||
          !(tileIsC f || match f with
            | .b4 => 16 ≤ rb && rb ≤ 96 && rb % 16 == 0
            | _ => tileWidth f ≤ rb && rb ≤ 96 && rb % tileWidth f == 0)) o (some r) = none →
      Runs (.tld h f hr ptr off slot) s (s.tileIssue b c h w (.tld f sh) pv o r) b) ∧
    (∀ r, s.slotRef b v .any false = some r →
      s.tileChecks b w.desig pv [1, 2, 3, 5, 6] false [rowRange sh o (if 512 ≤ bits v 9 0 then 128 else rb)]
        (decide (512 ≤ bits v 9 0) && (o % 8 != 0 || shGet sh 0 % 8 != 0))
        (shReserved sh || rows == 0 || slotRows (decide (512 ≤ bits v 9 0)) (some r) < rows ||
          (!decide (512 ≤ bits v 9 0) && (rb == 0 || 96 < rb))) o (some r) = none →
      Runs (.tst h hr ptr off slot) s (s.tileIssue b c h w (.tst sh) pv o r) b) ∧
    (∀ f r, s.slotRef b v .c false = some r →
      s.tileChecks b w.desig pv [1, 2, 3, 4, 5, 6] (fmtOf p.vfmt != some (tilePtrFmt f) || p.sfmt != p.vfmt)
        [rowRange sh o (16 * tileWidth f)] (o % tileWidth f != 0 || shGet sh 0 % tileWidth f != 0)
        (shReserved sh || rows == 0 || 32 < rows) o (some r) = none →
      Runs (.tdrain h f hr ptr off slot) s (s.tileIssue b c h w (.tdrain f sh) pv o r) b)

/-- R244 to R246, R314: TWIN configures its window; MMQ enters a quarter for every quarter of its lanes' home groups with a lane
that acts, and MMS four quarters for every member group, where the slots are right and the reservation table has room; no register, flag or
byte of memory changes at issue. -/
def Obligations.MatrixInstructionsComplete : Prop :=
  ∀ (h : Head) (s : State) (b : Block) (c : Ctx), Issuing s b c h →
    (∀ hr slot r w, OnceClear s b c h [⟨slot, .int64⟩] .zero 0 w → b.hBusy [w.desig / 32] hr = false →
      let sh := b.hreg w hr
      (winCfgOf sh).ok = true → shReserved sh = false → s.slotRef b (b.num w slot) .win false = some r →
      (winCfgOf sh).baserow < 32 * r.ent.count → s.tileHeld b w none = false →
      Commands (.twin h hr slot) s (s.tileIssue
        { b with slots := Sparse.put b.slots r.loc { r.ent with cfg := some (winCfgOf sh) } } c h w (.twin sh) 0 0 r)) ∧
    (∀ f ty tx bh x y z, (f = .b4 → s.hasUnit 2 = true) →
      let w := b.work c h
      let val (l : Nat) (o : Opd) : Nat := (b.read l .plain o).bits.toNat
      (let gs := if h.scope == .lane then homesOf w.src else [w.desig / 32]
       let quarter (g q : Nat) : List Nat := (List.range 8).map fun k => 32 * g + 8 * q + k
       let srcs : List (Nat × Nat × Nat) := gs.flatMap fun g => (List.range 4).filterMap fun q =>
         if h.scope == .lane then ((quarter g q).find? w.src.contains).map fun l => (g, q, l)
         else if (quarter g q).any fun l => !(b.lane l).exited then some (g, q, w.desig) else none
       let ops (l : Nat) := s.mmOperands b (val l x) (val l y) (val l z) ty.toNat tx.toNat
       ClearPlain s b w w.src [] [⟨x, .int64⟩, ⟨y, .int64⟩, ⟨z, .int64⟩] [] [] →
       (∀ q ∈ srcs, (ops q.2.2).isSome = true) →
       exec (.mmq h f ty tx bh x y z) s = s.enterQuarters b c h f ty.toNat tx.toNat bh (h.scope != .lane)
         (srcs.filterMap fun (g, q, l) => (ops l).map fun r => (g, r, q)) gs) ∧
      (let gs := c.members.filter fun g => !(b.live g).isEmpty
       let low (g : Nat) : Nat := (b.live g).headD (32 * g)
       let ops (g : Nat) := s.mmOperands b (val (low g) x) (val w.desig y) (val (low g) z) ty.toNat tx.toNat
       ClearPlain s b w [w.desig] [] ([⟨y, .int64⟩] ++ needs h .zero) [] [] →
       s.gate b (gs.map low) [] [⟨x, .int64⟩] [] [] = .pass → s.gate b (gs.map low) [] [⟨z, .int64⟩] [] [] = .pass →
       (∀ g ∈ gs, (ops g).isSome = true) →
       exec (.mms h f ty tx bh x y z) s = s.enterQuarters b c h f ty.toNat tx.toNat bh true
         (gs.flatMap fun g => (List.range 4).filterMap fun q =>
           if (List.range 8).any fun k => !(b.lane (32 * g + 8 * q + k)).exited then (ops g).map fun r => (g, r, q) else none)
         gs)) ∧
    (∀ (f : EFmt) (ty tx : Nat) (bh bound : Bool) (es : List (Nat × (SlotRef × SlotRef × SlotRef) × Nat)) (gs : List Nat),
      (s.quarters.filter (·.cluster == b.cluster)).length + es.length ≤ 64 → b.ctrFull gs .mm = false →
      s.logHeld b gs = false → s.actionHeld b c.lanes false = false →
      let opOf (g : Nat) : Nat := s.nextId + gs.findIdx (· == g)
      let q0 := s.nextId + gs.length
      let t : State := { s.pass (gs.foldl (fun b g => b.modGroup g (·.addOp (opOf g) .mm)) b) c h with
        nextId := q0 + es.length,
        quarters := s.quarters ++ es.zipIdx.map fun ((g, r, q), k) =>
          quarterOf s b (q0 + k) (if bound then opOf g else q0 + k) g (opOf g) f r ty tx bh q }
      s.enterQuarters b c h f ty tx bh bound es gs = .next t ∧ IssueFrame s t b [] [])

/-- R249, R250, R252, R352: HLD has the descriptor's 64 bytes in flight to the H register of every member where the handle names a
descriptor of its generation, and where the descriptor's page does not translate it is outstanding on the fault's record while the
group goes on (R352); HSET has the field's new value due after 4 cycles; HGET goes in flight under its pending tag; none changes a register
or byte of memory at issue. That the table is read when HLD issues is the model's choice (log 32). -/
def Obligations.ShapeInstructionsComplete : Prop :=
  ∀ (h : Head) (hr : Fin 16) (s : State) (b : Block) (c : Ctx) (w : Work), Issuing s b c h →
    (∀ handle, OnceClear s b c h [⟨handle, .int64⟩] .zero 0 w →
      b.hBusy w.groups hr = false → b.ctrFull w.groups .ld = false → s.actionHeld b (w.groups.flatMap b.live) true = false →
      s.logHeld b w.groups = false →
      let v := b.num w handle
      let tb := (s.die b.die).shtab.toNat
      let va := bits tb 63 12 * 2 ^ 12 + 64 * bits v 31 12
      bit tb 5 = true → bits tb 4 0 ≤ 20 → bits v 31 12 < 2 ^ bits tb 4 0 → s.hldFollows b w.groups va = false →
      let issued (t : State) (body : LongBody) (wrs : List Wr) (frec : Option Nat) : State :=
        let b1 := w.groups.foldl (fun b g => b.modGroup g fun gr => { gr with hPend := gr.hPend ++ [hr.val] })
          (b.addOps w.groups t.nextId .ld)
        { t.pass b1 c h with
          nextId := t.nextId + 1,
          longs := t.longs ++
            [{ id := t.nextId, blk := b.id, die := b.die, tag := 8, lanes := [], codes := [], dst := .zero, recv := [], pos := [],
               groups := w.groups, desig := w.desig, scope := h.scope, stamp := (t.die b.die).quiesce, pc := c.pc, body := body,
               ready := true, wrs := wrs, shown := [], drop := [], waits := frec, logged := false, deferred := false,
               refused := [] }] }
      (∀ s1 s2 ps, s.spots b.view va 64 .read .device = (s1, .ok ps) → s1.letIn s.nextId b.die ps none = (s2, true) →
        let s3 := ((placeLines ps).foldl (fun s l => s.share l.1 l.2 b.coreKey 7 0 false) s2).acquireAt b.coreKey
        let x : BitVec 512 := BitVec.ofNat 512 (ofBytes (s3.readPlaces ps))
        ps.any s3.badByte = false → shGet x 13 = bits v 11 0 → shGet x 13 ≠ 4095 →
        Commands (.hld h hr handle) s (issued s3 .wrs (w.groups.map fun g => .hreg g hr.val x) none)) ∧
      (∀ s1 va1 k, s.spots b.view va 64 .read .device = (s1, .fault va1 k) →
        let r := s1.recordFault b.die va1 (kLoad + k)
        Commands (.hld h hr handle) s (issued r.1 (.hld hr.val (BitVec.ofNat 64 v) (.hld h hr handle) c.len) [] (some r.2)).fillLog)) ∧
    (∀ fld value, OnceClear s b c h [⟨fld, .int64⟩, ⟨value, .raw⟩] .zero 0 w → b.num w fld ≤ 12 →
      b.hBusy w.groups hr = false →
      Runs (.hset h hr fld value) s
        { s.pass (w.groups.foldl (fun b g => b.modGroup g fun gr => { gr with hPend := gr.hPend ++ [hr.val] }) b) c h with
          nextId := s.nextId + 1,
          fixed := s.fixed ++ [⟨s.nextId, b.id, s.cycle + 4, w.groups.map fun g =>
            .hreg g hr.val (shSet ((b.group g).h.getD hr.val 0) (b.num w fld) (b.num w value))⟩] } b) ∧
    (∀ tg d fld, OnceClear s b c h [⟨fld, .int64⟩] d 1 w → b.num w fld ≤ 13 → b.hBusy [w.desig / 32] hr = false →
      shReserved (b.hreg w hr) = false → (∀ l ∈ b.tagLanes h w, s.tagBusy b l (BitVec.toNat tg) = false) →
      Runs (.hget h hr tg d fld) s (s.issueLong b c h w d 1 tg.toNat .wrs true (w.regWrites b d
        [(w.desig, LaneRes.ofReg ⟨BitVec.ofNat 64 (shGet (b.hreg w hr) (b.num w fld)), .n64⟩)])) b)

/-! ## Class 111: engines and system -/

/-- R258, R264, R270 to R272: COPYW, BINRD, TIME, FLTRD and QSC go in flight under their pending tag, to be read at completion;
FLTRD and QSC in system mode, BINRD on a part with a binning engine; no register, flag or byte of memory changes at issue. The delivery of a
32-bit literal integer source of this class is the model's choice (log 101). -/
def Obligations.TaggedReadsComplete : Prop :=
  ∀ (h : Head) (tg : BitVec 3) (d : Opd) (s : State) (b : Block) (c : Ctx), Issuing s b c h →
    let w := b.engWork c h
    let clear (sps : List SrcSpec) : Prop := ClearPlain s b w w.src (w.recv.map (·.1)) (sps ++ needs h d) (dstCodes d 1) []
    let goes (i : Instr) (body : LongBody) : Prop := Runs i s (s.issueLong b c h w d 1 tg.toNat body true []) b
    (∀ l ∈ b.tagLanes h w, s.tagBusy b l tg.toNat = false) →
    (∀ seq, clear [⟨seq, .int64⟩] → s.logHeld b w.groups = false →
      goes (.copyw h tg d seq) (.copyw (w.src.map fun l => (l, (b.read l .plain seq).bits)))) ∧
    (∀ sel ptr idx, s.hasUnit 3 = true → clear (ptrSpecs ptr ++ [⟨idx, .int64⟩]) →
      (∀ l ∈ w.src, s.binBad b l (b.readPtr l ptr) = none) → s.logHeld b w.groups = false →
      s.actionHeld b (w.groups.flatMap b.live) false = false →
      (∀ l ∈ w.src, s.engineHeld b (w.issuers b h l) (ptrOf (b.readPtr l ptr)).stream = false) →
      goes (.binrd h sel tg d ptr idx) (.binrd sel (w.src.map fun l => (l, b.readPtr l ptr, (b.read l .plain idx).bits)))) ∧
    (∀ pkg, clear [] → goes (.time h pkg tg d) (.time pkg)) ∧
    (∀ word cons idx, clear [⟨idx, .int64⟩] → (∀ l ∈ w.src, b.sys l = true) →
      goes (.fltrd h word cons tg d idx) (.fltrd word cons (w.src.map fun l => (l, (b.read l .plain idx).bits)))) ∧
    (∀ done, clear [] → (∀ l ∈ w.src, b.sys l = true) → goes (.qsc h done tg d) (.qsc done))

/-- R260: a BIN that no check stops sends one command for each performing lane to the die's engine, counted on BN; no register, flag
or byte of memory changes at issue. The delivery of a 32-bit literal key is the model's choice (log 101). -/
def Obligations.BinCompletes : Prop :=
  ∀ (h : Head) (op : BinOp) (ptr key item : Opd) (s : State) (b : Block) (c : Ctx), Issuing s b c h → s.hasUnit 3 = true →
    let w := b.engWork c h
    ClearPlain s b w w.src [] (ptrSpecs ptr ++ [⟨key, .int64⟩, ⟨item, .raw⟩] ++ needs h .zero) [] [] →
    (∀ l ∈ w.src, s.binBad b l (b.readPtr l ptr) = none) →
    b.ctrFull w.groups .bn = false → s.actionHeld b (w.groups.flatMap b.live) false = false → s.logHeld b w.groups = false →
    (∀ l ∈ w.src, s.engineHeld b (w.issuers b h l) (ptrOf (b.readPtr l ptr)).stream = false) →
    let cmd (l k : Nat) : BinCmd :=
      { id := s.nextId + 1 + k, blk := b.id, grp := l / 32, stamp := (s.die b.die).quiesce, pc := c.pc, kind := op,
        ptr := b.readPtr l ptr, key := (b.read l .plain key).bits, item := (b.read l .plain item).bits, op := s.nextId,
        lanes := w.issuers b h l, waits := none, refused := [] }
    Runs (.bin h op ptr key item) s
      { s.pass (b.addOps w.groups s.nextId .bn) c h with
        nextId := s.nextId + 1 + w.src.length, bins := s.bins ++ w.src.zipIdx.map fun (l, k) => cmd l k } b

/-- R255, R263, R266, R267: COPY, COPYX, SENDL, LAUNCH and RELEASE complete: COPY and COPYX publish an entry for each lane once its
earlier accesses are performed (PROD is written as a synchronising store), and deliver its sequence number; SENDL and LAUNCH have an append
outstanding for each lane, counted on ST; RELEASE has released when its lanes go on. No register or byte of device memory changes at issue.
That SRCA of LAUNCH points to the queue's block is the model's reading (log 36). -/
def Obligations.EngineCommandsComplete : Prop :=
  (∀ (conv : Bool) h d ptr off words,
    let ctl (b : Block) (l : Nat) : Word := copyCtl conv (b.read l .plain words).bits
    let len (b : Block) (l : Nat) : Word := (b.read l .plain (nextReg words)).bits
    CompletesEngine (if conv then .copyx h d ptr off words else .copy h d ptr off words) h
      (ptrSpecs ptr ++ [⟨off, .int64⟩, ⟨words, .raw⟩, ⟨nextReg words, .raw⟩]) d 1
      (fun b w => if w.src.all fun l => ctlHold (ctl b l) then none else some .cp)
      (fun s b l => s.copyBad b l (b.readPtr l ptr) (b.read l .zext off).bits.toNat (ctl b l) (len b l) b.slots)
      (fun s b w => (s.pubs.any fun p => p.blk == b.id) ||
        w.src.any fun l => !s.performedBefore b (w.issuers b h l) s.nextId)
      (fun b w op s l =>
        match s.block? b.id with
        | none => .wait
        | some b' =>
          if 16 ≤ b'.prod - b'.cons then .wait
          else
            let r : RingRec := { blk := b.id, seq := b'.prod + 1, grp := l / 32,
                                 op := if ctlHold (ctl b l) then none else op, pc := (b.lane l).pc,
                                 lanes := w.issuers b h l, ord := s.nextId, slots := b'.slots }
            let b1 := b'.publish (copySrc (b.readPtr l ptr) (b.read l .zext off).bits.toNat) (ctl b l) (len b l)
            let s := s.keepImports b [b.readPtr l ptr]
            .done ({ s.setBlock b1 with rings := s.rings ++ [r], nextId := s.nextId + 1 } : State).armMonitors (b'.prod + 1))
      fun s b c w op done =>
        (s.issueFixed b c h w d 7 8 (done.map fun (l, v) => (l, LaneRes.ofReg ⟨BitVec.ofNat 64 v, .n64⟩))).settleCopyOp c.blk op) ∧
  (∀ h ptr src words,
    let len (b : Block) (l : Nat) : Word := (b.read l .plain (nextReg words)).bits
    CompletesAppend (.sendl h ptr src words) h (ptrSpecs ptr ++ ptrSpecs src ++ [⟨words, .raw⟩, ⟨nextReg words, .raw⟩])
      (fun s b w l => s.sendBad b (w.issuers b h l) l (b.readPtr l ptr) (b.readPtr l src) (len b l))
      fun b l => .send (b.readPtr l ptr) (b.readPtr l src) (b.read l .plain words).bits (len b l)) ∧
  (∀ h q hdr, CompletesAppend (.launch h q hdr) h (ptrSpecs q ++ ptrSpecs hdr)
      (fun s b _ l => s.launchBad b l (b.readPtr l q) (b.readPtr l hdr))
      fun b l => .launch (ptrOf (b.readPtr l q)).base (ptrOf (b.readPtr l hdr)).base) ∧
  (∀ h handle, CompletesEngine (.release h handle) h [⟨handle, .int64⟩] .zero 0 (fun _ _ => some .bn)
      (fun _ b l => if 256 ≤ (b.read l .plain handle).bits.toNat then some ⟨500, .copyInvalid, 0, 0⟩ else none)
      (fun s b w => w.src.any fun l => !s.performedBefore b (w.issuers b h l) s.nextId)
      (fun b _ _ s l => .done ((s.releaseAt b.coreKey 3).releaseHandle b.die (b.read l .plain handle).bits.toNat) 0) (engPass h))

/-- R268, R269, R273, R274: TRAP raises USER_TRAP with its code; SWR writes the register each lane names, in the order of the
lanes, and is counted on ST; TLBX removes the translations of its lanes' ranges; HALT, which every lane of the cohort issues, ends their run
and halts the logical device. SWR to SEED needs no privilege; the others but TRAP are for system mode. R354: TRET in system mode by the lanes
of an open frame, its image readable and everything the handler issued performed, returns from the trap as the frame's ACTION says: retry,
skip the faulting instruction, resume at TARGET (a multiple of 4), or exit. Where ST returns for SWR is the model's reading of R269 (log 67),
and that HALT's lanes stand after the HALT is the model's choice (log 45). -/
def Obligations.SystemInstructionsComplete : Prop :=
  ∀ (h : Head) (s : State) (b : Block) (c : Ctx), Issuing s b c h →
    let w := b.engWork c h
    (∀ code, ClearPlain s b w w.src [] ([⟨code, .int64⟩] ++ needs h .zero) [] [] →
      exec (.trap h code) s = .next
        (s.raise b c h.scope .userTrap w.src (fun l => ⟨0, 0, (b.read l .plain code).bits.setWidth 16⟩) 0)) ∧
    (∀ r value b2, ClearPlain s b w w.src [] ([⟨value, .raw⟩] ++ needs h .zero) [] [] → r = .seed ∨ (∀ l ∈ w.src, b.sys l = true) →
      b.ctrFull w.groups .st = false →
      let s0 : State := { s.setBlock (b.addOps w.groups s.nextId .st) with nextId := s.nextId + 1 }
      let s1 := (w.src.foldl (fun s l => s.swrLane b l r (b.read l .plain value).bits) s0).finishOp c.blk s.nextId
      s1.block? c.blk = some b2 → exec (.swr h r value) s = .next (s1.pass b2 c h) ∧
        ((∀ n, r ≠ .q n) → r ≠ .fltsvc → r ≠ .preq → r ≠ .seed → r ≠ .ctl → RegsFrame s (s1.pass b2 c h))) ∧
    (∀ size all va count b2,
      let lo (l : Nat) : Nat := (b.read l .plain va).bits.toNat
      let n (l : Nat) : Nat := (b.read l .plain count).bits.toNat
      ClearPlain s b w w.src [] ((if all then [] else [⟨va, .int64⟩, ⟨count, .int64⟩]) ++ needs h .zero) [] [] →
      (∀ l ∈ w.src, b.sys l = true ∧ (all = true ∨ (lo l % pgBytes size = 0 ∧ 0 < n l ∧ n l ≤ 65536))) →
      b.ctrFull w.groups .st = false →
      let s1 : State := { s.setBlock (b.addOps w.groups s.nextId .st) with nextId := s.nextId + 1 }
      let s2 := s1.dropTlb b s.nextId (w.src.map fun l => (lo l, lo l + n l * pgBytes size)) all
      s2.block? c.blk = some b2 → Commands (.tlbx h size all va count) s (s2.pass b2 c h)) ∧
    (ClearPlain s b w w.src [] ([] ++ needs h .zero) [] [] → (∀ l ∈ w.src, b.sys l = true) →
      (∀ l ∈ c.lanes, c.wide = true ∨ l ∈ w.src) →
      Commands (.halt h) s ((s.endRun b c 0 (fun _ => c.pc + c.len) fun _ => .ready).haltDevice b.die)) ∧
    (∀ (f : Frame) (s1 : State) (ps : List Place),
      let on := b.acting c h
      let g := c.lanes.headD (32 * c.grp) / 32
      let img := s1.readPlaces ps
      let at_ (o n : Nat) : Nat := ofBytes ((img.drop o).take n)
      on ≠ [] → (b.group g).frame = some f → (∀ l ∈ on, f.raised.lanes.contains l = true) → (b.group g).sysMode = true →
      s.tretHeld b f = false → s.spots b.view f.base 0x1200 .read .either = (s1, .ok ps) →
      s1.away ps = [] →
      (at_ 0x38 8 % 4 = 0 ∨ (at_ 0x38 8 % 4 = 2 ∧ at_ 0x40 8 % 4 = 0) ∨ at_ 0x38 8 % 4 = 3 →
        exec (.tret h) s = .next ((s1.returnTrap b g f img 8 0 false).wakeWaitc b.id)) ∧
      (at_ 0x38 8 % 4 = 1 → ∀ s2 i n,
        (∃ e, f.raised.fetched = some (f.raised.pc, e) ∧ s2 = s1 ∧ e.fetched = .instr i n) ∨
        ((∀ e, f.raised.fetched = some e → e.1 ≠ f.raised.pc) ∧ s1.fetch b f.raised.pc = (s2, .instr i n)) →
        exec (.tret h) s = .next ((s2.returnTrap b g f img n (Instr.stallOf i) (isTerm i)).wakeWaitc b.id)))

/-! ## Events: issue partitions, results, memory -/

/-- R47, R50, R52, R283, R347, R348: ISSUE_PICK, once a cycle for a partition, puts the picked group's cohorts, or its completed
rendezvous, to issue; COHORT_PROMOTE promotes a slot cohort whose wait reaches 64 cycles; REGROUP_EXCHANGE exchanges two lanes where the rules
allow it, and notes their partition; RENDEZVOUS_COMPLETE lets the instruction be picked once the lanes are home; TRAP_ENTRY enters the handler
once the cohort's earlier accesses are done, after the holders of the frame's lines have given way (log 51, the model's choice). -/
def Obligations.IssueEventsComplete : Prop :=
  ∀ s : State,
    (∀ d core part p k, s.picked.contains (partKey d core part) = false →
      let s1 := ({ s with picked := s.picked ++ [partKey d core part] } : State).fillPart d core part
      (∀ ks, s1.pickGroup d core part = some (p, k, .cohorts ks) → exec (.issuePick d core part) s = .next
        { s1 with port := s1.port ++ (ks.map fun c => PortEnt.cohort k c.id) ++ [.picked d core part p k (ks.map fun c => (c.id, c.pc))] }) ∧
      (∀ r, s1.pickGroup d core part = some (p, k, .rdv r) → exec (.issuePick d core part) s = .next
        { s1 with port := s1.port ++ [.rdv k r.id, .picked d core part p k [(r.id, r.pc)]] })) ∧
    (∀ blk coh, exec (.cohortPromote blk coh) s = .next (s.modBlock blk fun b => { b with
      cohorts := updWhere (fun k => k.id == coh && decide (k.wait + 64 ≤ s.cycle) && k.slotted)
        (fun k => { k with promoted := true }) b.cohorts })) ∧
    (∀ blk x y b, s.block? blk = some b → s.mayExchange b x y = true →
      exec (.regroupExchange blk x y) s = .next
        { s.setBlock (b.swapLanes x y) with exchanged := s.exchanged ++ [b.partOf ((b.lane x).phys / 32)] }) ∧
    (∀ blk n b r, s.Found b.rdvs (·.id) n r blk b → b.rdvReady r = true →
      let b1 := (Block.required r).foldl (fun b l => s.sendHome b l) b
      (∀ l ∈ Block.required r, (b1.lane l).phys = l) →
      exec (.rendezvousComplete blk n) s = .next
        (s.setBlock { b1 with rdvs := updWhere (·.id == n) (fun r => { r with fired := true }) b1.rdvs })) ∧
    (∀ blk g b r, s.block? blk = some b → (b.group g).raised = some r → (s.die b.die).halted = false → b.isSaved = false →
      s.drained b r.lanes = true →
      let on : Bool := bit (s.die b.die).tvec.toNat 0 && bit (s.die b.die).tframe.toNat 0
      (on = false → exec (.trapEntry blk g) s = .next (s.enterTrap blk g)) ∧
      (∀ s1 va k, s.spots b.die (s.frameBase b g) 8192 .write .either = (s1, .fault va k) →
        exec (.trapEntry blk g) s = .next (s.enterTrap blk g)) ∧
      ∀ s1 ps t, on = true → s.spots b.die (s.frameBase b g) 8192 .write .either = (s1, .ok ps) →
        let ws := ps.zip (s1.frameImage b g r)
        s1.letIn (frameWho blk g) b.die (ws.map (·.1)) (some (ws.map (·.2))) = (t, true) →
        exec (.trapEntry blk g) s = .next ((t.enterTrap blk g).pushLeases ((devLines ws).map (·.1))))

/-- R30, R36, R147, R212, R224: FIXED_RESULT_WRITE applies a due result's writes, but those that an earlier longer result to the
same register holds back; PENDING_TAG_COMPLETE applies a ready result's and frees its tag; WAITM_REREAD reads the monitored places again;
ACCESS_PERFORMED performs the lanes of an access; MEMORY_ACTION_CLOSE ends an action whose ranges are done; PAGE_WALK_COMPLETE translates the
lanes of an access. That results to one register are written in issue order is the model's choice (log 22). -/
def Obligations.ResultEventsComplete : Prop :=
  ∀ (s : State) (id : Nat),
    (∀ f, s.fixed.find? (·.id == id) = some f → s.fixedDue f = true →
      let waiting := f.wrs.filter (s.wrWaits f)
      exec (.fixedResultWrite id) s = .next
        { s.modBlock f.blk (fun b => b.applyAll (f.wrs.filter fun w => !s.wrWaits f w)) with
          fixed := if waiting = [] then s.fixed.filter (·.id != id)
            else updWhere (·.id == id) (fun f => { f with wrs := waiting }) s.fixed }) ∧
    (∀ o b, s.Found s.longs LongOp.id id o o.blk b → o.ready = true → o.waits = none →
      o.shown = [] → o.deferred = false → s.fixedBefore b o = false → s.accs.any (fun a => a.id == id && a.deferred) = false → (o.body = .wrs ∨ o.body = .access) →
      let s1 : State := { s.modBlock o.blk (fun b => b.applyAll (o.wrs.filter o.kept)) with
        longs := s.longs.filter (·.id != id), accs := s.accs.filter (·.id != id) }
      exec (.pendingTagComplete id) s = .next ((((s1.dropLines id).finishOp o.blk id).settleDrains).fillLog.settleExit o.blk)) ∧
    (∀ m b, s.Found s.monitors Monitor.id id m m.blk b → s.accs.any (·.id == id) = false → m.lanes ≠ [] →
      ∃ t a, exec (.waitmReread id) s = .next t ∧ t.accs = s.accs ++ [a] ∧ a.id = id ∧ a.kind = .monitor ∧
        a.las.map (·.lane) = m.lanes.map (·.1)) ∧
    (∀ a order, s.accs.find? (·.id == id) = some a → a.las.all (·.done) = false →
      let first := if a.kind = .store then [] else order
      exec (.accessPerformed id order) s = .next
        ((s.performLanes id (first ++ (a.las.map (·.lane)).filter fun l => !first.contains l)).afterLane id)) ∧
    (∀ t b s1, s.Found s.actions Action.id id t t.blk b → s.actionReady t = true →
      t.ranges.foldl (fun acc e => let q := acc.1.actRange b t.kind id e; (q.1, acc.2 && q.2)) (s, true) = (s1, true) →
      exec (.memoryActionClose id) s = .next
        ((({ s1 with actions := s1.actions.filter (·.id != id) } : State).finishOp t.blk id).dropLines id)) ∧
    (∀ a b s1 las, s.Found s.accs Access.id id a a.blk b → s.walkLanes b a a.las [] = (s1, las) →
      exec (.pageWalkComplete id) s = .next (s1.setAccess { a with las := las }).fillLog)

/-- R143, R239, R297, R299: SCRATCHPAD_FILL fills a backed line and SCRATCHPAD_WRITEBACK writes one back; SLOT_RETURN returns a
released slot to its pool; BLOCK_RELEASE frees an exited block's storage, or keeps its scratchpad for the rest of its cluster. -/
def Obligations.StorageEventsComplete : Prop :=
  ∀ (s : State) (blk : Nat) (b : Block), s.block? blk = some b →
    (∀ line s1 r, b.needsFill line = true → s.fillLine blk line = (s1, r) → r = .ok ∨ r = .wait →
      exec (.scratchpadFill blk line) s = .next s1) ∧
    (∀ line s1 r, b.wbWaits = none → s.writeBackLine b line = (s1, r) → r = .ok ∨ r = .wait →
      exec (.scratchpadWriteback blk line) s = .next s1) ∧
    (∀ id t, s.tileOps.find? (·.id == id) = some t → t.blk = blk → t.kind = .trel → s.releaseReady t = true →
      exec (.slotReturn id) s = .next ((s.freeSlots b.cluster t.isC t.phys).endTileOp t)) ∧
    (b.st ≠ .retained → b.isSaved = false → s.blockDone b = true → b.tsErr = none →
      (b :: s.clusterKept b).find? (fun q => !q.dirtyLines.isEmpty) = none →
      let s2 := (((b.slots.map (·.1)).foldl (·.slotGone b ·) s).returnSlots b).forget blk
      exec (.blockRelease blk) s = .next (if s.clusterLive b then
          s2.setBlock { b with lanes := [], groups := [], cohorts := [], rdvs := [], sets := [], slots := [],
                               tsErr := none, st := .retained }
        else
          { s2 with
            blocks := s2.blocks.filter fun q => !(blk :: (s.clusterKept b).map (·.id)).contains q.id,
            launches := updWhere (·.id == b.launch)
              (fun l => { l with live := l.live.filter fun k => !(blk :: (s.clusterKept b).map (·.id)).contains k })
              s2.launches }))

/-! ## Events: copies, tiles, the matrix engine, bins, send lists -/

/-- R256, R257, R262: COPY_ACCEPT enters the block's next published entry, held or queued on its channel; COPY_STAMP delivers the
next bytes of a channel's first command to scratchpad or slot, with the last of them its stamp, or moves its write pointer on; PATCH reaches
the held copies of its handle in resident blocks, whose ROWS it sets. That one COPY_STAMP moves 32 lines, or one where a fault follows, is the
model's choice (log 37). -/
def Obligations.CopyEventsComplete : Prop :=
  ∀ s : State,
    (∀ blk b r, s.block? blk = some b → s.acceptNext b.die b.core = some blk →
      s.rings.find? (fun r => r.blk == blk && r.seq == b.cons + 1) = some r → r.lanes ≠ [] →
      let e := b.ringEntry (b.cons + 1)
      let slot (m : Map SlotEnt) : Option (List Nat) := (Sparse.find? m (ctlDoff e.2.1)).map (·.physList)
      (ctlHold e.2.1 = true → ctlSlot e.2.1 = true → slot b.slots = slot r.slots) →
      ∃ t c, exec (.copyAccept blk) s = .next t ∧ c ∈ t.copies ∧ c.blk = blk ∧ c.seq = b.cons + 1 ∧ c.src = e.1 ∧
        c.ctl = e.2.1 ∧ c.len = e.2.2 ∧ c.op = r.op ∧ c.wp = 0 ∧ c.dslots = (if ctlSlot e.2.1 then (slot r.slots).getD [] else []) ∧
        c.st = (if ctlHold e.2.1 then .held else .queued)) ∧
    (∀ id c b s1 z bytes bad skip noStamp, s.Found s.copies Copy.id id c c.blk b → s.copyTurn c = true →
      s.engWaits c.blk c.ord (ctlStream c.ctl) c.lanes = false → s.slotBefore b (homesOf c.lanes) c.ord false c.dslots = false →
      s.copyBefore b (homesOf c.lanes) c.ord c.dslots = false →
      s.copyStep b c 32 = .ok s1 (z, bytes, bad, skip, noStamp) ∨
        (∃ s0 d va k, s.copyStep b c 32 = .fault s0 d va k ∧ s0.copyStep b c 1 = .ok s1 (z, bytes, bad, skip, noStamp)) →
      let s2 := if ctlSlot c.ctl then s1.deliverSlot b c bytes bad else s1.deliverScr b c bytes bad skip
      let c1 : Copy := { c with st := .active, wp := z, bad := c.firstBad bad skip }
      (z ≠ c.total → exec (.copyStamp id) s = .next { s2 with copies := updWhere (·.id == id) (fun _ => c1) s2.copies }) ∧
      (z = c.total → exec (.copyStamp id) s = .next (s2.stampCopy b c1 (!noStamp.isEmpty)))) ∧
    (∀ (die : Fin 4) (handle : BitVec 8) value, handle ≠ 0 →
      ∃ t, exec (.patch die handle value) s = .next t ∧
        ∀ c ∈ s.copies, c.die = die.val → c.handle = handle.toNat →
          (∀ b, s.block? c.blk = some b → b.isSaved = false ∧ b.hasExited = false) → (s.block? c.blk).isSome = true →
          let len := c.len.toNat / 2 ^ 32 * 2 ^ 32 + min value 255 * 2 ^ 24 + c.len.toNat % 2 ^ 24
          { c with len := BitVec.ofNat 64 len } ∈ t.copies)

/-- R240 to R245, R311, R316, R317: TILE_TRANSFER_COMPLETE has its operation's effect and returns its count; MATRIX_GRANT takes
the lead entry's pass out of the table; MATRIX_PASS_WRITE writes every quarter of a cluster's oldest pass. That quarters fuse when the
lead is granted, and that a pass is written as one event, is the model's reading (log 71). -/
def Obligations.MatrixEventsComplete : Prop :=
  ∀ s : State,
    (∀ id t b s1, s.Found s.tileOps TileOp.id id t t.blk b → t.kind ≠ .trel → s.tileReady b t = true →
      s.tileEffect b t = .ok s1 () → exec (.tileTransferComplete id) s = .next (s1.endTileOp t)) ∧
    (∀ cluster l, s.lead cluster = some l →
      let p := s.fuse l (s.boundSet l)
        ((s.quarters.filter fun q => q.cluster == cluster && q.bound != l.bound && s.setEligible q).foldr insertAge [])
      exec (.matrixGrant cluster) s = .next { s with
        quarters := s.quarters.filter fun q => !p.any (·.id == q.id),
        passes := s.passes ++ [⟨s.nextId, cluster, s.cycle, p⟩],
        lastGrant := if s.cycle < l.entered + 512 then Sparse.put s.lastGrant cluster (l.core % 4) else s.lastGrant,
        nextId := s.nextId + 1 }) ∧
    (∀ id p, s.passes.find? (·.id == id) = some p → (∀ r ∈ s.passes, r.cluster = p.cluster → p.id ≤ r.id) →
      let s1 := ((p.quarters.map (·.op)).eraseDups).foldl
        (fun u o => u.reportPoison (s.store p.cluster) (p.quarters.filter (·.op == o))) (p.quarters.foldl State.writeQuarter s)
      exec (.matrixPassWrite id) s = .next
        (p.quarters.foldl State.settleMatrix { s1 with passes := s1.passes.filter (·.id != id) }))

/-- R260, R261, R265, R428: BIN_OPEN_PERFORM, BIN_ITEM_PERFORM and BIN_CLOSE_PERFORM perform their engine's first command;
SEND_ENTRY_ACCEPT takes a list's entry at `LCONS`, which advances; SEND_ENTRY_COMPLETE moves an entry on. R267, R371, R372: ACCESS_PERFORMED
performs a LAUNCH's append, writing the header's link, the queue's tail and the old tail's link. That SRCA points to the queue's block, whose
tail stands at offset 8, is log 36 (DEDUCED); that the three words are written in one action and that an entry moves by one message a time
is the model's choice (log 37). -/
def Obligations.BinAndSendEventsComplete : Prop :=
  (∀ die, BinPerforms (.binOpenPerform die) die .open_ State.planOpen) ∧
  (∀ die, BinPerforms (.binItemPerform die) die .item State.planItem) ∧
  (∀ die, BinPerforms (.binClosePerform die) die .close State.planClose) ∧
  (∀ (s : State) (die : Fin 4) (list : Word) (t : SendList) (s1 s2 s3 s4 s5 : State) (ps es : List Place) (cb eb : List Byte)
      (bad ebad : List Bool),
    s.sendLists.find? (fun t => t.die == die.val && t.addr == list.toNat) = some t → t.stopped = false → t.waits = none →
    s.inFlight t < 64 → s.spots t.die t.addr 64 .both .device = (s1, .ok ps) →
    s1.engFetch (listWho t.addr) t.die ps = .ok s2 (cb, bad) → bad.any id = false →
    let sc := sendCtlOf cb
    sc.lcons < sc.lprod →
    s2.spots t.die ((sc.ebase + 32 * (sc.lcons % 2 ^ sc.caplog)) % 2 ^ 64) 32 .read .either = (s3, .ok es) →
    s3.engFetch (listWho t.addr) t.die es = .ok s4 (eb, ebad) →
    s4.importAway die.val (fieldAt eb 16 8 / 2 ^ 52) = [] →
    s4.letIn (listWho t.addr) die.val ((ps.drop 0x18).take 8) (some (toBytes 8 (sc.lcons + 1))) = (s5, true) →
    ∃ u e, exec (.sendEntryAccept die list) s = .next u ∧ e ∈ u.sends ∧ e.list = t.addr ∧ e.seq = sc.lcons + 1 ∧
      e.src = BitVec.ofNat 128 (fieldAt eb 0 16) ∧ e.dst = BitVec.ofNat 64 (fieldAt eb 16 8) ∧
      ((∀ i ∈ t.issuers, i.seq = sc.lcons + 1 → i.reach = []) → e.len = BitVec.ofNat 64 (fieldAt eb 24 8)) ∧
      e.sent = 0 ∧ e.done = false) ∧
  (∀ (s s1 : State) (id : Nat) (e : SendEnt), s.sends.find? (·.id == id) = some e → e.held = false → e.done = false →
    e.waits = none → s.sendMove e = .ok s1 () → exec (.sendEntryComplete id) s = .next (s1.dropLines id)) ∧
  (∀ (s s1 s2 s3 s4 s5 : State) (id : Nat) (order : List Nat) (a : Append) (b : Block) (q hdr : Nat) (hs qs os : List Place),
    s.accs.find? (·.id == id) = none → s.appends.find? (·.id == id) = some a → s.block? a.blk = some b →
    s.appendHeld b a = false → a.kind = .launch q hdr →
    s.spots a.die hdr 8 .write .device = (s1, .ok hs) → s1.spots a.die (q + 8) 8 .both .device = (s2, .ok qs) →
    s2.letIn a.id a.die qs none = (s3, true) →
    s3.spots a.die (ofBytes (s3.readPlaces qs)) 8 .write .device = (s4, .ok os) →
    let ws := hs.zip (toBytes 8 0) ++ qs.zip (toBytes 8 hdr) ++ os.zip (toBytes 8 hdr)
    s4.letIn a.id a.die (hs ++ qs ++ os) (some (toBytes 8 0 ++ toBytes 8 hdr ++ toBytes 8 hdr)) = (s5, true) →
    hs.length = 8 → qs.length = 8 → os.length = 8 →
    exec (.accessPerformed id order) s = .next (((s5.storeBytes ws).pushLeases ((devLines ws).map (·.1))).endAppend a))

/-! ## Events: front ends, faults, pre-emption -/

/-- R370, R373, R375, R385 to R387: QUEUE_ENABLE watches the queue's block with both counts 0, QUEUE_TEARDOWN takes the queue out of
service and discards its held launches; HEADER_READ enters a launch with its header's fields; BLOCK_PLACE places the next unit
of the first launch that fits; LAUNCH_AGED ages one that waited 65,536 cycles; LAUNCH_END writes `CSEQ` and ends the launch. The model's own
choices: the counts written 0 at enabling (log 41), the 65,536 cycles counted again from each placement and the place taken (log 44), and that
the end of a launch publishes every store (log 111). -/
def Obligations.FrontEndEventsComplete : Prop :=
  ∀ (s : State) (die : Fin 4),
    (∀ (queue : Fin 32) (v : Word), s.inService die.val = true → Sparse.find? (s.die die.val).queues queue.val = none →
      let w := (v ||| 1#64) &&& ~~~ 0x7C#64
      exec (.queueEnable die queue v) s = .next
        ((((s.wake die.val).modDie die.val fun d => { d with qctl := Sparse.set 0 d.qctl queue.val w }).modDie die.val fun d =>
          { d with queues := Sparse.put d.queues queue.val ⟨qBase w, 0, 0, none, 0, []⟩ }).putCounts die.val (qBase w) 0 0)) ∧
    (∀ (queue : Fin 32) q, s.inService die.val = true → Sparse.find? (s.die die.val).queues queue.val = some q →
      ∃ t, exec (.queueTeardown die queue) s = .next t ∧
        (∀ l ∈ t.launches, l.die = die.val → l.queue = queue.val → l.held = false) ∧
        Sparse.find? (t.die die.val).queues queue.val = none) ∧
    (∀ (queue : Fin 32) q s1 hdr h rd wr rg, s.frontUp die.val = true → s.queueTurn die.val = some queue.val →
      let s0 := s.wake die.val
      Sparse.find? (s0.die die.val).queues queue.val = some q → s0.frontUp die.val = true → s0.queueTurn die.val = some queue.val →
      (s0.launches.filter (·.die == die.val)).length < 1024 →
      s0.readHeader die.val queue.val q = .ok s1 (.got hdr h (some (rd, wr, rg))) →
      headerOk h (bit (Sparse.get 0 (s0.die die.val).qctl queue.val).toNat 1) = true → rangesOk rd = true → rangesOk wr = true →
      s1.regionsOk die.val (resScr h.lres) rg = true →
      ∃ t l, exec (.headerRead die queue) s = .next t ∧ l ∈ t.launches ∧ l.die = die.val ∧ l.queue = queue.val ∧ l.hdr = hdr ∧
        l.code = h.code ∧ l.args = h.args ∧ l.shape = h.shape ∧ l.lres = h.lres ∧ l.extents = h.extents ∧ l.cword = h.cword ∧
        l.cseq = h.cseq ∧ l.held = resHold h.lres ∧ l.placed = 0) ∧
    (∀ s1 l, s.frontNext die.val = some (.place s1 l) →
      let more (l : Launch) : Launch := { l with placed := l.placed + 1, readyAt := some s.cycle, aged := false }
      exec (.blockPlace die) s = .next { s1 with launches := updWhere (·.id == l.id) more s1.launches }) ∧
    (∀ id l t, s.launches.find? (·.id == id) = some l → l.readyAt = some t → s.launchReady l = true → l.placed < l.total →
      t + 65536 ≤ s.cycle → exec (.launchAged id) s = .next
        { s with launches := updWhere (·.id == id) (fun l => { l with aged := true }) s.launches }) ∧
    (∀ id l s1 s2 ps, s.launches.find? (·.id == id) = some l → s.launchReady l = true → l.total ≤ l.placed → l.live = [] →
      l.waits = none → s.engSpots l.die l.refused l.cword 8 .write .either = .ok s1 (some ps) →
      (∀ a, Place.host a ∈ ps → s1.hostLinks.getLsbD (Machine.bits a 12 12) = true) →
      (∀ h ∈ s1.holders, h.excl = true → (s1.peer h.pos).lost = true → (false, h.line) ∉ placeLines ps) →
      s1.engPrepare id l.die ps (toBytes 8 l.cseq.toNat) false = .ok s2 () →
      let s3 := (s2.publish fun _ => true).engCommit ps (toBytes 8 l.cseq.toNat) false
      exec (.launchEnd id) s = .next ({ s3 with launches := s3.launches.filter (·.id != id) } : State).noteReady)

/-- R6, R396, R398, R399, R450: a command on a fault record of a die in service consumes, services or refuses it, and an ignored one
is logged; on a die that is not it changes nothing; FAULT_SIGNAL_DELAYED sends one signal once a microsecond has passed; QUIESCENCE_TICK
advances the counter. -/
def Obligations.FaultEventsComplete : Prop :=
  ∀ (s : State) (die : Fin 4),
    (∀ idx : BitVec 8, s.inService die.val = true →
      let s0 := s.wake die.val
      ((s0.faultRec die.val idx.toNat).st = 1 → exec (.fltsvcConsume die idx) s = .next
        (s0.setFaultRec die.val idx.toNat { s0.faultRec die.val idx.toNat with st := 2 })) ∧
      ((s0.faultRec die.val idx.toNat).st ≠ 0 →
        exec (.fltsvcServiced die idx) s = .next
          (((s0.setFaultRec die.val idx.toNat FaultRec.free).wakeWaiters (die.val * 256 + idx.toNat)).recordLate die.val) ∧
        exec (.fltsvcRefused die idx) s = .next (s0.refuseRec die.val idx.toNat)) ∧
      exec (.fltsvcIgnored die idx) s = .next (s0.logOwn die.val 0x09 (BitVec.ofNat 64 idx.toNat) 3)) ∧
    (∀ idx : BitVec 8, s.inService die.val = false →
      exec (.fltsvcConsume die idx) s = .next s ∧ exec (.fltsvcServiced die idx) s = .next s ∧
      exec (.fltsvcRefused die idx) s = .next s ∧ exec (.fltsvcIgnored die idx) s = .next s) ∧
    (∀ t, (s.die die.val).msixDue = true → (s.die die.val).msixAt = some t → t + 1000 ≤ (s.die die.val).time.toNat →
      exec (.faultSignalDelayed die) s = .next (s.modDie die.val fun d =>
        { d with msixDue := false, msixAt := some d.time.toNat, msix := d.msix ++ [1] })) ∧
    (1024 * ((s.die die.val).quiesce + 1) ≤ s.cycle →
      exec (.quiescenceTick die) s = .next (s.modDie die.val fun d => { d with quiesce := d.quiesce + 1 }))

/-- R402 to R406, R409: PREQ_SUSPEND suspends the launches named and asks their running blocks to stop where a save aperture is
set (R406); PREQ_RESUME lifts it; PREEMPT_WINDOW_END makes the save a full one; BLOCK_SAVE saves a stopped, drained block; BLOCK_RESTORE
puts a saved block, or cluster, back. The model's own: a block not yet saved runs on at PREQ_RESUME and a restore reads the record kept
(log 45), the layouts of a context's records (log 8), 1,750 cycles to a microsecond (log 13). -/
def Obligations.PreemptionEventsComplete : Prop :=
  ∀ s : State,
    (∀ (die : Fin 4) (hdr : Word) all, ∃ t, exec (.preqSuspend die hdr all) s = .next t ∧
      (∀ l ∈ s.launches, l.die = die.val → named hdr.toNat all l = true → { l with suspended := true } ∈ t.launches) ∧
      ((s.die die.val).saveRange = none → t.blocks = s.blocks) ∧
      (∀ b ∈ s.blocks, ∀ l ∈ s.launches, (s.die die.val).saveRange.isSome = true → l.die = die.val →
        named hdr.toNat all l = true → b.die = die.val → b.launch = l.id → b.st = .running →
        let us := (s.die die.val).prewin.toNat % 2 ^ 32
        { b with st := .window (if us = 0 then 0 else s.cycle + us * 1750) } ∈ t.blocks)) ∧
    (∀ (die : Fin 4) (hdr : Word) all, ∃ t, exec (.preqResume die hdr all) s = .next t ∧
      (∀ l ∈ s.launches, l.die = die.val → named hdr.toNat all l = true → { l with suspended := false } ∈ t.launches) ∧
      (∀ b ∈ s.blocks, ∀ l ∈ s.launches, l.die = die.val → named hdr.toNat all l = true → b.die = die.val →
        b.launch = l.id → b.preempting = true → (s.die die.val).halted = false → s.clusterSaved b = false →
        { b.unpark with st := .running } ∈ t.blocks)) ∧
    (∀ blk b e, s.block? blk = some b → b.st = .window e → e ≠ 0 → e ≤ s.cycle → b.allParked = false →
      exec (.preemptWindowEnd blk) s = .next (s.setBlock { b with st := .window 0 })) ∧
    (∀ blk b0 ap n slot s1 (tables : List (Nat × Keep)), s.block? blk = some b0 →
      let b := b0.unstart
      b.preempting = true → b.isSaved = false →
      b.wbWaits = none → b.hasExited = false →
      (∀ q ∈ s.clusterOf b, (q.hasExited = true ∨ s.stopped q = true) ∧ (q.isSaved = true ∨ s.settled q = true)) →
      (s.die b.die).saveRange = some (ap, n) → b.dirtyLines = [] → s.freeSlot b.die n = some slot →
      (∀ a ∈ b.tables, s.tableAway b a = []) →
      (b.tables.map fun a => (a, s.readTable b a)) = tables.map (fun e => (e.1, some e.2)) →
      let full := b.st == .window 0
      let q := s.saveBlock b full tables slot
      let kept (l : Nat) : List Nat := match (b.lane l).st with
        | .between _ _ (.parked t) =>
          ((tables.find? (·.1 == t)).map fun e => (List.range b.vregs).filter (inRanges e.2.vs)).getD []
        | _ => []
      s.putImage b.die (ctxBase ap slot) b.wbRefused
        (s.image b q full (tables.flatMap (·.2.scr)) fun l => if full then List.range b.vregs else kept l) = .ok s1 () →
      let s2 := ((s1.returnSlots b).setBlock q).publish fun u => u.cores.contains b.coreKey
      exec (.blockSave blk) s = .next
        { s2 with monitors := s2.monitors.filter (fun m => !(m.blk == blk)), accs := s2.accs.filter (·.blk != blk) }) ∧
    (∀ blk core b slot full ap n k s1, s.block? blk = some b → b.st = .saved slot full → (s.die b.die).saveRange = some (ap, n) →
      s.frontNext b.die = some (.restore k) → (∃ q ∈ s.clusterOf b, q.id = k) → core < 192 →
      (∀ q ∈ s.clusterOf b, q.isSaved = true) →
      (∀ q ∈ s.clusterOf b, ∀ k f, q.st = .saved k f → s.virtAway b.die (ctxBase ap k) 8 = [] ∧ ∃ w, s.readVirtWord b.die (ctxBase ap k) = some w ∧
        Machine.bits w.toNat 1 0 = 2) →
      s.seatAll ((s.clusterOf b).filter (·.isSaved)) core = some s1 →
      ∃ t, exec (.blockRestore blk core) s = .next t ∧
        t = ((s.clusterOf b).filter (·.isSaved)).foldl (fun s q => s.applyReach q.id)
          (((s.clusterOf b).filter (·.isSaved)).foldl (fun s q => match q.st with
            | .saved k _ => s.put b.die (ctxBase ap k) (toBytes 8 0)
            | _ => s) s1))

/-! ## Events: the fabric -/

/-- R333, R337, R412, R415 to R417: at the home, READ_REQUEST and READ_SHARED_LEASE answer with the old value and enter the
requester as a holder or lessee, OWNERSHIP_REQUEST answers and makes it the owner where no lease is left, WRITE_BACK, SEND_LIST_PAYLOAD and
REMOTE_STAMP write their bytes, SYNC_ACCESS_AT_HOME performs a load, store or atomic. What is granted and kept is the model's choice where
the rules leave it to the holder (log 51), and so are the layouts that `grantTail` and `syncReq` name (log 8). -/
def Obligations.FabricRequestsComplete : Prop :=
  ∀ (s t : State) (m : Msg) (ps : List Place),
    (Received s m tRead → Admitted s m .read m.bytes ps (fun _ => none) t →
      ∃ u : State, exec (.readRequest m) s = .next (u.answerData m ps (grantTail .shared 0 15 ps)) ∧
        ∀ l ∈ linesOf ps, ⟨l, m.src, m.sdie, false, 0⟩ ∈ u.holders) ∧
    (Received s m tReadShared → Admitted s m .read m.bytes ps (fun _ => none) t →
      let line := (linesOf ps).headD 0
      let fin := t.leaseEnd (t.homeDie (128 * line))
      let kept := if (t.leaseFormat m line).1 = 7 then 15 else m.facet
      (t.quiescing = true ∨ t.leaseWaits.any (fun w => (linesOf ps).contains w.line) = true →
        exec (.readSharedLease m) s = .next
          (t.answerData m ps (grantTail .none fin kept ps))) ∧
      (t.quiescing = false → t.leaseWaits.any (fun w => (linesOf ps).contains w.line) = false →
        ∃ u : State, exec (.readSharedLease m) s = .next
            (u.answerData m ps (grantTail .leased fin kept ps)) ∧
          ∀ l ∈ linesOf ps, ∃ e ∈ u.leases, e.line = l ∧ e.pos = BitVec.ofNat 4 m.src ∧ e.die = m.sdie ∧ e.fin = fin ∧
            e.ended = false)) ∧
    (∀ s1, Received s m tOwn →
      ((s.noteSeq m).wake m.ddie).exportPlaces m.ddie m.expidx m.tenant m.egen m.at_ m.bytes .write = (s1, .ok ps) →
      let live := s1.leases.filter fun e : Lease => (linesOf ps).contains e.line && !e.ended
      ({ s1 with holders := s1.holders.filter fun h => !(h.ofMsg (linesOf ps) m && !h.excl) } : State).letIn (msgWho m) m.ddie ps
        (some (s1.readPlaces ps)) = (t, true) →
      (live = [] → ∃ u : State, exec (.ownershipRequest m) s = .next (u.answerData m ps (grantTail .excl 0 15 ps)) ∧
        ∀ l ∈ linesOf ps, ⟨l, m.src, m.sdie, true, 0⟩ ∈ u.holders) ∧
      (live ≠ [] → exec (.ownershipRequest m) s = .next (t.answerData m ps (grantTail .none 0 15 ps)))) ∧
    (∀ s1, Received s m tWriteBack →
      ((s.noteSeq m).wake m.ddie).exportPlaces m.ddie m.expidx m.tenant m.egen m.at_ m.body.length .write = (s1, .ok ps) →
      ({ s1 with holders := s1.holders.filter fun h => !(h.ofMsg (linesOf ps) m && true) } : State).letIn (msgWho m) m.ddie ps
        (some m.body) = (t, true) →
      exec (.writeBack m) s = .next ((t.peerStore ps m.body m.mark).acknowledge m)) ∧
    (Admitted s m .write m.body.length ps (fun _ => some m.body) t →
      (Received s m tPayload → exec (.sendListPayload m) s = .next ((t.peerStore ps m.body m.mark).acknowledge m)) ∧
      (Received s m tStamp → exec (.remoteStamp m) s = .next ((t.peerStore ps m.body false).acknowledge m))) ∧
    (Received s m tSync →
      let p := t.publish fun _ => true
      ((syncReq m.body).kind = .load → Admitted s m .read (syncReq m.body).n ps (fun _ => none) t →
        exec (.syncAccessAtHome m) s = .next (p.answer m tData (p.replyBytes ps).1 (p.replyBytes ps).2)) ∧
      ((syncReq m.body).kind = .store → Admitted s m .write (syncReq m.body).n ps (fun _ => some (syncReq m.body).data) t →
        exec (.syncAccessAtHome m) s = .next
          ((t.peerStore ps (syncReq m.body).data (syncReq m.body).poison).acknowledge m)) ∧
      (∀ op x bs, (syncReq m.body).kind = .atom op → x = (LaneAcc.mk 0 0 m.at_ (syncReq m.body).n (syncReq m.body).data
          (syncReq m.body).cmp [] (.placed ps) [] [] []) →
        Admitted s m .both (syncReq m.body).n ps
          (fun s1 => if ps.any s1.badByte then none else atomBytes (.atom op) (syncReq m.body).fmt x (s1.readPlaces ps)) t →
        (∀ s1, ((s.noteSeq m).wake m.ddie).exportPlaces m.ddie m.expidx m.tenant m.egen m.at_ (syncReq m.body).n .both =
          (s1, .ok ps) → ps.any s1.badByte = false ∧
            atomBytes (.atom op) (syncReq m.body).fmt x (s1.readPlaces ps) = some bs) →
        exec (.syncAccessAtHome m) s = .next
          ((p.peerStore ps bs (syncReq m.body).poison).answer m tData (p.replyBytes ps).1 (p.replyBytes ps).2)))

/-- R213, R416 to R418, R424 to R427: INVALIDATION and REVOCATION take the copies of the line, once stores to it are written back, and are
acknowledged; PUSH gives its facet copies the new values, and is acknowledged; a reply completes the request it answers;
a discarded message is logged; a timed-out request is lost; chords relay by DEST; TIME_EXCHANGE answers, and lets a device join;
TIME_SYNC_TICK slews; PAIR_KEY_EPOCH begins the next epoch; LEASE_EXPIRE ends a lease that has run out. The model's own choices: the step of a
slew (log 54), the layouts of a push and of `timeBody` (log 8), SEQ from 0 in a new epoch (log 50), what a holder keeps (log 51). -/
def Obligations.FabricRepliesComplete : Prop :=
  ∀ (s : State) (m : Msg),
    (let s1 := (s.noteSeq m).wake m.ddie
     let here (r : RemoteLine) : Bool := r.die == m.ddie && r.pos == m.src && r.line == m.at_ / 128
     (s1.remotes.any (fun r => here r && r.excl) = false →
       ∃ u : State, (Received s m tInval → exec (.invalidation m) s = .next (u.acknowledge m)) ∧
         (Received s m tRevoke → exec (.revocation m) s = .next (u.acknowledge m)) ∧
         u.remotes = s1.remotes.filter (!here ·) ∧
         ∀ q ∈ u.requests, q.dest = m.src → q.msg.sdie = m.ddie → q.keep = false) ∧
     (∀ r, s1.remotes.find? (fun r => here r && r.excl) = some r →
       (Received s m tInval → exec (.invalidation m) s = .next (s1.giveBack (some m) r)) ∧
       (Received s m tRevoke → exec (.revocation m) s = .next (s1.giveBack (some m) r))) ∧
     (Received s m tPush → exec (.push m) s = .next (({ s1 with
       remotes := updWhere (fun r => here r && r.facet != 15) (·.pushed (ofBytes ((m.body.drop 1).take 3)) m.mark (m.body.drop 16)) s1.remotes } : State).acknowledge
         m))) ∧
    (∀ r k off, (s.noteSeq m).requestOf m = some r →
      let s1 := (s.noteSeq m).dropRequest r
      (Received s m tAck → r.serves = .send k off → exec (.acknowledgement m) s = .next s1) ∧
      (Received s m tError → r.serves = .send k off → exec (.errorReply m) s = .next
        { s1 with sends := updWhere (·.id == k) (fun e => { e with failed := true }) s1.sends }) ∧
      (∀ op pos, Received s m tData → r.serves = .eng op pos off → r.msg.type ≠ tOwn →
        exec (.dataReply m) s = .next
          ((((copyOf r m).map s1.holdCopy).getD s1).engGot op pos off (m.body.take r.msg.bytes, m.mark))) ∧
      (∀ acc lane, Received s m tData → r.serves = .lane acc lane → r.msg.type ≠ tOwn →
        exec (.dataReply m) s = .next
          (s1.servedLane r acc lane fun s a x =>
            let s := if r.msg.type = tSync then s.acquireAt (((s.block? a.blk).map (·.coreKey)).getD 0) else s
            (((copyOf r m).map s.holdCopy).getD s, x.more (m.body.take r.msg.bytes) m.mark)))) ∧
    (∀ die : Fin 4, s.hasUnit 5 = true →
      exec (.fabricMessageDiscard die m) s = .next
        (s.logError die.val 0x06 m.src m.off (BitVec.ofNat 64 (m.hdr.toNat / 2 ^ 64)))) ∧
    (∀ r dest seq, s.requests.find? (fun r => r.dest == dest && r.seq == seq) = some r → seq < 2 ^ 48 →
      r.sentAt.toNat + 1000000 ≤ (s.die r.msg.sdie).time.toNat →
      exec (.requestTimeout (dest * 2 ^ 48 + seq)) s = .next (s.loseRequest r).dropBroken) ∧
    (s.hasUnit 5 = true → m.dest ≠ s.pos → m.src ≠ s.pos →
      exec (.chordRelay m) s = .next { s with outbox := s.outbox ++ [(if s.faces m.dest then m.dest else m.src, m)] }) ∧
    (s.hasUnit 5 = true → m.src = s.pos →
      exec (.chordReturn m) s = .next (s.reroute m (((s.outbox ++ s.wire).filter (·.2 == m)).map (·.1)))) ∧
    (let stale (e : Nat × Msg) : Bool := (e.1 != e.2.dest || !s.faces e.1) && e.2.src == s.pos && e.2.dest != s.pos
     exec .chordReview s = .next (((s.outbox.filter stale).map (·.2)).foldl (fun s m => s.reroute m [])
        { s with outbox := s.outbox.filter (!stale ·) })) ∧
    (Received s m tTime → m.body.getD 0 0 = 0 →
      ((s.noteSeq m).master ≠ none → exec (.timeExchange m) s = .next
        ((s.noteSeq m).answer m tTime (timeBody 1 (s.noteSeq m).podTime) false)) ∧
      ((s.noteSeq m).master = none → ∃ t : State, exec (.timeExchange m) s = .next (t.answer m tTime (timeBody 1 t.podTime) false) ∧
        t.joined = true ∧ s.podTime.toNat ≤ t.podTime.toNat)) ∧
    (Received s m tTime → m.body.getD 0 0 ≠ 0 → (s.noteSeq m).master = some m.src →
      let from_ := ofBytes ((m.body.drop 8).take 8)
      ∃ t, exec (.timeExchange m) s = .next t ∧ t.joined = true ∧
        min 65535 (max from_ t.podTime.toNat - min from_ t.podTime.toNat) ≤ t.podSkew.toNat ∧
        (s.joined = true → t.podTime = s.podTime) ∧
        (s.joined = false →
          (s.podTime.toNat ≤ t.podTime.toNat ∧ ∀ d ∈ s.dies, d.time.toNat ≤ t.podTime.toNat) ∧
          from_ % 2 ^ 64 ≤ t.podTime.toNat)) ∧
    (∀ pod pkg, ∃ t, exec (.timeSyncTick pod pkg) s = .next t ∧
      t.podTime = (if s.joined && s.master.isSome then slew s.podTime (pod.headD 0) else s.podTime) ∧
      t.dies = s.dies.mapIdx fun i d => { d with time := slew d.time (pkg.getD i 0) }) ∧
    (∀ pos : BitVec 4, s.hasUnit 4 = true → s.hasUnit 5 = true → exec (.pairKeyEpoch pos) s = .next
      (s.modPeer pos.toNat fun p => { p with epoch := nextEpoch p.epoch, seq := 0 })) ∧
    (∀ line (pos : BitVec 4), ∃ t, exec (.leaseExpire line pos) s = .next t ∧
      (∀ e ∈ s.leases, ¬ (e.line = line ∧ e.pos = pos) → e ∈ t.leases) ∧
      (∀ e ∈ t.leases, e.line = line → e.pos = pos → s.leaseOver e = true → e.ended = true))

/-! ## Events: the host, starts, power, links -/

/-- R2, R6, R334, R358, R410, R420 to R422, R445, R448: HOST_READ answers with the bytes (an error response where the host may not reach)
and records the halves held; HOST_WRITE stores its bytes; HOST_SNOOP answers from the filter, with poisoned data for a half that was lost;
BACK_INVALIDATE_RESPONSE, SPDM_MEASUREMENT, FAB_DROP_CLEAR and REGISTER_WRITE (management offsets of R445) do what their rules say; the host
reads CAP at BAR 0 offset 0x8 of a die in service, and zero from a die that is not and from the fabric registers of a part without the unit.
The model's own choices: a host write waits behind a waiting one (log 64), the halves a read records (log 52), reads of registers as functions
of the state (log 92), the bytes that the measurement signs (log 8). -/
def Obligations.HostEventsComplete : Prop :=
  ∀ s : State,
    (∀ addr n body, s.hostRefused addr n = true → n = body.length →
      let u : State := s.endHost
      let t : State := { u.logError (u.homeDie addr) 0x03 u.pos (BitVec.ofNat 64 addr) 0 with hostOut := u.hostOut ++ [.abort addr] }
      exec (.hostRead addr n) s = .next t ∧ exec (.hostWrite addr body) s = .next t) ∧
    (∀ addr n t, s.hostRefused addr n = false → s.letIn (2 ^ 63 + addr) (s.homeDie addr) (accPlaces addr n) none = (t, true) →
      exec (.hostRead addr n) s = .next { t.endHost.publish (fun _ => true) with
        hostHeld := (halvesOf addr n).foldl (fun l h => insertLine h l) t.hostHeld,
        hostOut := t.hostOut ++ [.data addr (t.replyBytes (accPlaces addr n)).1 (t.replyBytes (accPlaces addr n)).2] }) ∧
    (∀ addr body, s.hostRefused addr body.length = false → s.hostBehind = true →
      exec (.hostWrite addr body) s = .next (s.deferHost (.hostWrite addr body))) ∧
    (∀ addr body t, s.hostRefused addr body.length = false → s.hostBehind = false →
      let own := halvesOf addr body.length
      ({ s with hostHeld := s.hostHeld.filter fun h => !own.contains h } : State).letIn (2 ^ 62 + addr) (s.homeDie addr)
        (accPlaces addr body.length) (some body) = (t, true) →
      let u := t.peerStore (accPlaces addr body.length) body false
      exec (.hostWrite addr body) s = .next { u.endHost with
        hostHeld := (s.hostHeld.filter own.contains).foldl (fun l h => insertLine h l) u.hostHeld,
        hostOut := u.hostOut ++ [.written addr] }) ∧
    (∀ (iod : Fin 2) line kind, halfIod line = iod.val → s.filter.find? (·.line == line) = none →
      exec (.hostSnoop iod line kind) s = .next { s with hostOut := s.hostOut ++ [.snoopReply line none false] }) ∧
    (∀ (iod : Fin 2) line h, halfIod line = iod.val → s.filter.find? (·.line == line) = some h →
      let ps := (List.range 64).map fun k => Place.host (64 * line + k)
      (h.lost = false → (s.half line).dirty = true → ps.any s.badByte = false →
        ∃ t, exec (.hostSnoop iod line .own) s = .next t ∧
          t.hostOut = s.hostOut ++ [.snoopReply line (some (s.readPlaces ps)) false] ∧ (∀ h ∈ t.filter, h.line ≠ line) ∧
          t.half line = HalfSt.none ∧ ∀ h ∈ t.sharers, h.host = true → h.line ≠ line / 2) ∧
      (h.lost = true → ∀ kind, ∃ t, exec (.hostSnoop iod line kind) s = .next t ∧
        t.hostOut = s.hostOut ++ [.snoopReply line (some (List.replicate 64 0xFF)) true])) ∧
    (∀ line, exec (.backInvalidateResponse line) s = .next
      { s with hostHeld := s.hostHeld.filter (· != line), hostAsked := s.hostAsked.filter (· != line) }) ∧
    exec .spdmMeasurement s = .next { s with hostOut := s.hostOut ++
      [.measurement s.digests s.fuseMin (Config.identitySign (spdmBytes s.digests s.fuseMin))] } ∧
    (s.hasUnit 5 = true → exec .fabDropClear s = .next { s with fabDrop := 0 }) ∧
    (∀ (die : Fin 4) off v r, bar0Reg off = some r → s.inService die.val = true →
      exec (.registerWrite (.bar0 die) off v) s = .next ((s.wake die.val).writeLd die.val r v)) ∧
    (∀ v : Word, exec (.registerWrite .mgmt 0x310 v) s = .next { s with retwin := v &&& 0x3FF#64 } ∧
      exec (.registerWrite .mgmt 0x318 v) s = .next { s with scrubctl := v &&& 0xFF#64 } ∧
      exec (.registerWrite .mgmt 0x328 v) s = .next { s with pwrcap := v &&& 0xFFFF#64 } ∧
      exec (.registerWrite .mgmt 0x400 v) s = .next s) ∧
    (∀ die : Fin 4, (s.inService die.val = true → s.readReg (.bar0 die) 8 = s.cap die.val) ∧
      (s.inService die.val = false → ∀ off, s.readReg (.bar0 die) off = 0)) ∧
    (s.hasUnit 5 = false → ∀ off ∈ [0x30, 0x38, 0x320, 0x400, 0x478], s.readReg .mgmt off = 0)

/-- R6, R446, R447, R450, R453 to R456, R462: a start first halts the devices, and then takes its steps one by one: the first image of
the package and the images of steps 0 and 1 are verified and measured, the dies in service are fixed, memory is zeroed or, on a warm start
whose memory stayed in self-refresh with the same dies, kept; after step 10 every register of every logical device, RETWIN, SCRUBCTL, PWRCAP,
PODPOS, KVSTAT and KVMAP are at their reset values. A failed step leaves no die in service. LD_RESUME lets a halted device run, LD_RESET
puts its registers back; QUIESCE begins the removal; DIE_WAKE wakes a die. How a start is staged, DIEMASK 0 after a failed step and memory
kept there are the model's reading (log 7). -/
def Obligations.StartEventsComplete : Prop :=
  ∀ s : State,
    (∀ (warm sref : Bool) dies images,
      let i : Instr := if warm then .warmStart dies sref images else .coldStart dies images
      let mine (b : Boot) : Prop := b.warm = warm ∧ b.sref = (warm && sref) ∧ b.dies = dies
      (¬ (s.bootState = 1 ∧ s.images = images ∧ ∃ b, s.boot = some b ∧ mine b) →
        ∃ t, exec i s = .next t ∧ t.bootState = 1 ∧ t.bootStep = 0 ∧ t.warm = warm ∧ t.boot = some ⟨warm, warm && sref, dies, s.dieMask⟩ ∧
          t.images = images ∧ t.dmem = s.dmem ∧ ∀ k, k < 4 → k < s.dies.length → (t.die k).halted = true) ∧
      (∀ b, s.bootState = 1 → s.images = images → s.boot = some b → mine b → s.startReady = true →
        exec i s = .next (s.startStep b))) ∧
    (∀ b : Boot,
      let t := s.startStep b
      let fails : Prop := t.bootState = 2 ∧ t.dieMask = 0 ∧ t.blocks = [] ∧ t.bootStep = s.bootStep
      (s.bootStep = 0 → s.imageOk b.warm 0 = false → fails) ∧
      (s.bootStep = 1 → (s.imageOk b.warm 1 && s.imageOk b.warm 2) = false → fails) ∧
      (s.bootStep = 0 → s.imageOk b.warm 0 = true → t.bootStep = 1 ∧
        ∀ i, s.images[0]? = some i → t.digests[0]? = some (Config.sha512 i.body)) ∧
      (s.bootStep = 2 → t.bootStep = 3 ∧ t.dieMask = b.dies ∧ t.fusedOff = ~~~ b.dies) ∧
      (s.bootStep = 4 → t.bootStep = 5 ∧ t.dmem = if b.warm && b.sref && b.dies == b.was then s.dmem else []) ∧
      (s.bootStep = 5 → t.bootStep = 6 ∧ t.ivtab0 = ivtabOf b.dies 0 ∧ t.ivtab1 = ivtabOf b.dies 1) ∧
      (s.bootStep = 9 → t.bootStep = 10 ∧ t.bootState = 0 ∧ t.blocks = [] ∧ t.launches = [] ∧ t.dieMask = s.dieMask ∧ t.dmem = s.dmem ∧
        t.retwin = 50 ∧ t.scrubctl = 24 ∧ t.pwrcap = 3200 ∧ t.podpos = 0 ∧ (∀ g ∈ t.kgs, g.word = 3) ∧ (∀ e ∈ t.kvmap, e = 0) ∧
        ∀ k, (t.die k).AtReset ∧ (t.die k).halted = false)) ∧
    (∀ die : Fin 4, s.inService die.val = true →
      (((s.wake die.val).die die.val).halted = true → (s.wake die.val).bootState = 0 →
        exec (.ldResume die) s = .next ((s.wake die.val).unhalt die.val) ∧
          ((((s.wake die.val).unhalt die.val).die die.val).halted = false)) ∧
      (((s.wake die.val).die die.val).halted = true ∨ (s.wake die.val).idleDie die.val = true →
        ∃ t, exec (.ldReset die) s = .next t ∧ (t.die die.val).AtReset ∧
          (t.die die.val).halted = (((s.wake die.val).die die.val).halted && (s.wake die.val).bootState != 0) ∧
          (∀ b ∈ t.blocks, b.die ≠ die.val) ∧ ∀ l ∈ t.launches, l.die ≠ die.val) ∧
      (∀ t : BitVec 2, t ≠ 3 →
        let u := (s.wake die.val).modDie die.val fun d => { d with pwrTarget := t }
        (t = 0 → exec (.pwrTargetD0 die) s = .next u) ∧ (t = 1 → exec (.pwrTargetD1 die) s = .next u) ∧
          (t = 2 → exec (.pwrTargetD2 die) s = .next u))) ∧
    (∃ t, exec .quiesce s = .next t ∧ t.quiescing = true) ∧
    (∀ die : Fin 4, exec (.dieWake die) s = .next (s.wake die.val))

/-- R451 to R458: POWER_STATE_ENTER puts an idle die to sleep; throttles and the telemetry are recorded; THERMAL_TRIP halts every
device and empties the filter; MEMORY_ERROR logs, and poisons what cannot be corrected; SUPPLY_RESET puts every register of the die's device
at its reset value, ends its blocks and launches and drops its copies, and a half of the host's that the die had modified answers poisoned
from then on. That PATROL_SCRUB changes nothing, its errors being events of their own, is the model's reading (log 57). -/
def Obligations.PowerEventsComplete : Prop :=
  ∀ (s : State) (die : Fin 4),
    (s.inService die.val = true → s.idleDie die.val = true →
      (s.die die.val).pwrState.toNat < (s.die die.val).pwrTarget.toNat →
      ((s.die die.val).pwrTarget ≠ 2 → exec (.powerStateEnter die) s = .next
        (s.modDie die.val fun d => { d with pwrState := d.pwrTarget })) ∧
      ((s.die die.val).pwrTarget = 2 → exec (.powerStateEnter die) s = .next
        ((s.dropHostLines die.val).modDie die.val fun d => { d with pwrState := 2, d2At := s.podTime }))) ∧
    exec (.thermalThrottle die) s = .next (s.modDie die.val fun d => { d with throttled := true, throt := d.throt + 1 }) ∧
    (∃ t, exec (.thermalTrip die) s = .next t ∧ t.bootState = 3 ∧
      (∀ l h, t.filter.find? (·.line == l) = some h → h.dies = []) ∧ ∀ k, k < 4 → k < s.dies.length → (t.die k).halted = true) ∧
    (∀ temp power,
      let t := s.modDie die.val fun d => { d with temp := temp, power := power, throttled := d.throttled && decide (1680 ≤ temp.toInt) }
      exec (.pwrtelUpdate die temp power) s = .next { t with
        capThrottled := decide (8 * max 1200 (min 3200 (s.pwrcap.toNat % 2 ^ 16)) <
          (t.dies.map fun d => d.power.toNat).foldl (· + ·) 0) }) ∧
    exec .powerCapThrottle s = .next { s with capThrottled := true } ∧
    exec (.patrolScrub die) s = .next s ∧
    (∀ place, exec (.memoryError die false place) s = .next (s.logOwn die.val 0x01 (BitVec.ofNat 64 (errAddr place)) 0) ∧
      exec (.memoryError die true place) s = .next
        ((s.poisonAt place).logOwn die.val 0x02 (BitVec.ofNat 64 (errAddr place)) 0)) ∧
    (∃ t, exec (.supplyReset die) s = .next t ∧ (∀ b ∈ t.blocks, b.die ≠ die.val) ∧ (∀ l ∈ t.launches, l.die ≠ die.val) ∧
      (t.die die.val).AtReset ∧ (t.die die.val).halted = false ∧ (∀ r ∈ t.remotes, r.die ≠ die.val) ∧
      (∀ l h, t.filter.find? (·.line == l) = some h → die.val ∉ h.dies) ∧
      ∀ l h, s.filter.find? (·.line == l) = some h → die.val ∈ h.dies → (s.half l).dirty = true → (s.half l).owner = die.val →
        ∃ h, t.filter.find? (·.line == l) = some h ∧ h.lost = true)

/-- R459 to R462: a failing port stalls its group, which retrains; the retrain ends inside its window with the spare or the port
back, or at the window's end with the port down; ports, groups, peers and host links that are lost are out of service, and a bring-up puts a
peer back. That a signal lost while the group retrains takes the port down at once, the end of the window in package time, and
a second failing port joining the first are the model's choices (log 53). -/
def Obligations.LinkEventsComplete : Prop :=
  ∀ s : State,
    (∀ (kg : Fin 16) (port : Fin 9), s.hasUnit 5 = true → (s.kg kg.val).gstate = 1 →
      let quiet : Prop := (s.kg kg.val).resumedAt + 2000 ≤ s.now
      ((s.kg kg.val).up.getLsbD port.val = true →
        exec (.portFailing kg port) s = .next (s.modKg kg.val fun g =>
          { g with gstate := 2, failing := [port.val], stallAt := s.now }) ∧
        exec (.portSignalLoss kg port) s = .next (s.portDown kg.val port.val) ∧
        (quiet → exec (.portSilenceTimeout kg (some port)) s = .next (s.portDown kg.val port.val))) ∧
      (quiet → exec (.portSilenceTimeout kg none) s = .next (s.loseGroup kg.val)) ∧
      (¬ quiet → ∀ p, exec (.portSilenceTimeout kg p) s = .next s)) ∧
    (∀ (kg : Fin 16) (port : Fin 9), s.hasUnit 5 = true → (s.kg kg.val).gstate = 2 →
      exec (.portSignalLoss kg port) s = .next
        ((s.modKg kg.val fun g => { g with up := downPort g.up port.val }).settleGroup kg.val) ∧
      ((s.kg kg.val).up.getLsbD port.val = true → exec (.portFailing kg port) s = .next (s.modKg kg.val fun g =>
        if port.val ∈ g.failing then g else { g with failing := g.failing ++ [port.val] }))) ∧
    (∀ kg : Fin 16, (s.kg kg.val).gstate = 2 →
      let late : Prop := (s.kg kg.val).stallAt + s.window ≤ s.now
      let work (up : BitVec 9) (ps : List Nat) : BitVec 9 := ps.foldl (fun u p => u ||| BitVec.ofNat 9 (2 ^ p)) up
      (¬ late → ∀ p ps, (s.kg kg.val).failing = p :: ps →
        let n : BitVec 8 := if (s.kg kg.val).retrains = 255 then 255 else (s.kg kg.val).retrains + 1
        ∃ t, exec (.retrainComplete kg) s = .next t ∧ (kg.val < s.kgs.length → t.kg kg.val =
          let g := s.kg kg.val
          let g1 : PortGroup := { g with gstate := 1, failing := [], retrains := n, resumedAt := s.now }
          if g.spare then { g1 with up := work g.up (p :: ps) }
          else { g1 with spare := true, up := work (downPort g.up p ||| 0x100#9) ps })) ∧
      (late → exec (.retrainComplete kg) s = .next s ∧ exec (.retrainWindowEnd kg) s = .next ((s.modKg kg.val fun g =>
        { g with gstate := 1, failing := [], resumedAt := s.now, up := g.failing.foldl downPort g.up }).settleGroup kg.val))) ∧
    (∀ pos : BitVec 4, s.hasUnit 5 = true →
      (s.faces pos.toNat = false → (s.peer pos.toNat).lost = false → (s.peer pos.toNat).heard + 2000 ≤ s.podTime.toNat →
        exec (.peerLost pos) s = .next (s.losePeer pos.toNat)) ∧
      (∃ t, exec (.departureMessage pos) s = .next t ∧ ∀ e ∈ t.leases, e.pos ≠ pos) ∧
      (∀ groups, ∃ t, exec (.linkBringUp pos groups) s = .next t ∧
        (∀ k, k < s.kvmap.length → (∃ g ∈ groups, g.val = k) → t.kvmap[k]? = some (BitVec.ofNat 8 (128 + pos.toNat))) ∧
        (pos.toNat < s.peers.length → (t.peer pos.toNat).lost = false ∧ (t.peer pos.toNat).seq = 0))) ∧
    (∀ iod : Fin 2, ∃ t, exec (.hostLinkDrop iod) s = .next t ∧ t.hostLinks.getLsbD iod.val = false ∧
      ∀ h ∈ t.filter, halfIod h.line ≠ iod.val)

/-! ## Reset, encoding, stepping -/

/-- R45, R96, R97, R193, R249, R346, R370, R389, R410, R445, R446: what reset leaves: every register of every logical device at its reset
value (QCTLn with no queue in service, IMPTAB, EXPTAB and LEASECTL among them), PODPOS, KVMAP and the management registers of R445 at theirs,
device memory zero, nothing launched. -/
def Obligations.ResetStateValues : Prop :=
  let s := State.reset
  s.blocks = [] ∧ s.launches = [] ∧ s.port = [] ∧ s.cur = none ∧ (∀ a, a < s.capacity → s.readByte (.dev a) = 0) ∧
  s.podpos = 0 ∧ s.podSkew = 0xFFFF ∧ s.retwin = 50 ∧ s.scrubctl = 24 ∧ s.pwrcap = 3200 ∧ s.fabDrop = 0 ∧ (∀ e ∈ s.kvmap, e = 0) ∧
  (∀ g ∈ s.kgs, g.word = 3) ∧ ∀ d, d < 4 → (s.die d).AtReset ∧ (s.die d).halted = false

/-- The invariant holds at reset: both memories are in canonical form. -/
def Obligations.ResetKeepsMemoryForm : Prop := State.reset.Inv

/-- INVARIANT: every step from a state whose memories are in canonical form leads to such a state. -/
def Obligations.StepKeepsMemoryForm : Prop := ∀ s t : State, s.Inv → step s = .next t → t.Inv

/-- R103 to R106, R125: DECODING READS WHAT ENCODING WRITES, for every well-formed instruction and every operand. -/
def Obligations.DecodeReadsEncode : Prop := ∀ i : Instr, i.wf = true → decodeWords i.encode = .ok (i, i.length)

/-- R104, R108, R125: ENCODING WRITES WHAT DECODING READS: words that decode accepts are the encoding of a well-formed
instruction of 2 to 6 words, with every bit accounted for. -/
def Obligations.EncodeWritesDecode : Prop :=
  ∀ (ws : List (BitVec 32)) (i : Instr) (n : Nat), decodeWords ws = .ok (i, n) →
    i.wf = true ∧ n = i.length ∧ 2 ≤ n ∧ n ≤ 6 ∧ n ≤ ws.length ∧ i.encode = ws.take n

/-- The words the spec writes out decode to the instructions it writes them for (R125, R194, R208 and the worked cases of the
instruction chapters): LD.E4M3 with a 32-bit offset, BRC with an await mask, FFMA.FP32.RUP. -/
def Obligations.DecodedWords : Prop :=
  decodeWords [0x3EBF0C00, 0xC001C502, 0x40] =
    .ok (.ld ⟨.lane, 0, false, 7⟩ (.tag .e4m3) .one 0 (.v 20) (.v 8) (.lit32 0x40), 3) ∧
  decodeWords [0xFC024400, 0x0181FFFF] = .ok (.brc ⟨.lane, 0, false, 7⟩ 0xFFFFF0 0x09 false 1, 2) ∧
  decodeWords [0x01418100, 0x6195C781] = .ok (.ffma ⟨.lane, 5, false, 7⟩ .fp32 .rup ⟨.v 30, .v 4, .v 5, .v 6⟩, 2)

/-- R122: a reserved opcode is refused whatever the other bits and the words after it, and the cohort that reaches it traps with
ILLEGAL. -/
def Obligations.ReservedOpcodesTrap : Prop :=
  ∀ w0 w1 : BitVec 32, opcodeAssigned (w1.toNat / 2 ^ 23) = false →
    (∀ rest, decodeWords (w0 :: w1 :: rest) = .error .reservedOpcode) ∧
    ∀ (s u : State) (blk coh : Nat) (rest : List PortEnt) (b : Block) (k : Cohort) (ps : List Place),
      Fetching s blk coh rest b k → ({ s with port := rest } : State).Fetches b k.pc 8 u ps →
      wordsOfBytes (u.readPlaces ps) = [w0, w1] →
      let b1 := b.keepCode k (.illegal (4 * refusedLength [w0, w1]) (scopeField (u.readPlaces ps)))
      step s = .next (u.trap b1 (b1.cohCtx k (4 * refusedLength [w0, w1])) (scopeField (u.readPlaces ps)) .illegal k.lanes)

/-- R28, R104, R283, R344, R397: A STEP RUNS THE DECODED INSTRUCTION: the words at the PC of the cohort that issues are fetched with
X permission, as many as they need; the instruction they decode to is executed in that cohort's context; a 25th instruction of a run traps
with RUN_LONG; a completed rendezvous that is picked executes its instruction in its members' context; otherwise the next event of the agenda
happens, or the machine's own next event. The model's own choices: the words are kept while the cohort stands at them (log 24), the
partition picks again after a pick that the scoreboard held whole (log 66), the agenda comes before the machine's own events (logs 9, 15). -/
def Obligations.StepRunsDecoded : Prop :=
  ∀ s : State,
    (∀ b pc n ns last u ps, s.Fetches b pc n u ps →
      (∀ i w, decodeBytes (u.readPlaces ps) = .ok (i, w) → s.fetchTry b pc last (n :: ns) = (u, .instr i (4 * w))) ∧
      (decodeBytes (u.readPlaces ps) = .error .short →
        s.fetchTry b pc last (n :: ns) = u.fetchTry b pc (u.readPlaces ps) ns)) ∧
    (∀ blk coh rest b k i len s1, Fetching s blk coh rest b k →
      ({ s with port := rest } : State).fetchTry b k.pc [] [8, 12, 16, 20, 24] = (s1, .instr i len) → overAlloc b.vregs i = false →
      step s = exec i { s1.keepFetched b k i len with cur := some (b.cohCtx k len) }) ∧
    (∀ blk coh rest b k i len, s.port = .cohort blk coh :: rest → s.block? blk = some b →
      b.cohorts.find? (·.id == coh) = some k → k.fetched = some (k.pc, .instr i len) → b.dueOf k = none →
      let u : State := { s with port := rest }
      ((∃ l ∈ k.lanes, 24 ≤ (b.lane l).run.count) →
        step s = .next (u.trap (b.keepCode k (.instr i len)) ((b.keepCode k (.instr i len)).cohCtx k len) (Instr.scopeOf i) .runLong
          k.lanes)) ∧
      ((∀ l ∈ k.lanes, (b.lane l).run.count < 24) → overAlloc b.vregs i = false →
        step s = exec i { u.keepFetched b k i len with cur := some (b.cohCtx k len) })) ∧
    (∀ blk n rest b r, s.port = .rdv blk n :: rest → s.block? blk = some b → b.rdvs.find? (·.id == n) = some r →
      step s = exec r.instr { s with port := rest, cur := some (b.rdvCtx r) }) ∧
    (∀ d core part p blk cohs rest, s.port = .picked d core part p blk cohs :: rest →
      let u : State := { s with port := rest }
      step s = .next (if cohs.all (u.stillHeld blk) then u.pickPart d core part
        else { u with rr := Sparse.set 0 u.rr (partKey d core part) (p + 1) })) ∧
    (∀ e rest, s.port = [] → s.agenda = e :: rest → step s = exec e { s with agenda := rest }) ∧
    (∀ t e, s.port = [] → s.agenda = [] → s.own = (t, some e) → step s = exec e t)

/-! ## Memory -/

/-- R56, R411: a byte written is read back and every other byte reads as before, in device memory, host memory and a block's
scratchpad, at places within the capacity whose line is not poisoned; the canonical form is kept. -/
def Obligations.MemoryReadsBack : Prop :=
  ∀ (s : State) (v : Byte) (q : Place), s.Inv →
    (∀ a, a < s.capacity → (s.writeByte (.dev a) v).Inv ∧
      (s.Sound q → (s.writeByte (.dev a) v).readByte q = if q = .dev a then v else s.readByte q)) ∧
    (∀ a, s.hostLinks.getLsbD (bits a 12 12) = true → (s.writeByte (.host a) v).Inv ∧
      (s.Sound q → (s.writeByte (.host a) v).readByte q = if q = .host a then v else s.readByte q)) ∧
    (∀ blk o b, s.block? blk = some b → Sparse.wf 0 b.scratch = true → s.Sound q →
      (s.writeByte (.scr blk o) v).readByte q = if q = .scr blk o then v else s.readByte q)

/-- R217, R321: performing an access changes no byte of device or host memory outside the places its lanes were translated to,
and performing a load changes none at all and no scratchpad. -/
def Obligations.AccessPerformedFrame : Prop :=
  ∀ (s t : State) (id : Nat) (order : List Nat) (a : Access), s.accs.find? (·.id == id) = some a →
    exec (.accessPerformed id order) s = .next t →
    (a.kind = .load → t.dmem = s.dmem ∧ t.hmem = s.hmem ∧
      ∀ k, (t.block? k).map (·.scratch) = (s.block? k).map (·.scratch)) ∧
    (a.kind ≠ .monitor → s.Inv → ∀ k, (∀ x ∈ a.las, ∀ ps, x.phase = .placed ps → .dev k ∉ ps ∧ .host k ∉ ps) →
      Memory.read t.dmem k = Memory.read s.dmem k ∧ Memory.read t.hmem k = Memory.read s.hmem k)

/-- R211, R321: a store of one lane that nothing holds back is performed: each of its bytes stands at the place the lane's
address was translated to, and every other byte of device and host memory reads as before. -/
def Obligations.StoreWritesItsBytes : Prop :=
  ∀ (s s1 : State) (id : Nat) (order : List Nat) (a : Access) (b : Block) (x : LaneAcc) (ps : List Place),
    s.Inv → s.accs.find? (·.id == id) = some a → s.block? a.blk = some b → a.kind = .store → a.las = [x] → x.phase = .placed ps →
    s.laneHeld a x = false → s.unfilled ps = none →
    (∀ p ∈ ps, (∃ k, p = .dev k ∧ k < s.capacity) ∨ ∃ k, p = .host k ∧ s.hostLinks.getLsbD (bits k 12 12) = true) → ps.Nodup →
    s.letIn a.id b.die ps (some x.data) = (s1, true) →
    let later (p : Place) : Bool := x.kept.any (·.1 == p)
    ∃ t, exec (.accessPerformed id order) s = .next t ∧
      (∀ k v, (Place.dev k, v) ∈ ps.zip x.data → later (.dev k) = false → Memory.read t.dmem k = v) ∧
      (∀ k v, (Place.host k, v) ∈ ps.zip x.data → later (.host k) = false → Memory.read t.hmem k = v) ∧
      ∀ k, (.dev k ∉ ps ∨ later (.dev k) = true → Memory.read t.dmem k = Memory.read s.dmem k) ∧
        (.host k ∉ ps ∨ later (.host k) = true → Memory.read t.hmem k = Memory.read s.hmem k)

/-- R392: a translation whose leaf lacks the permission the access needs, or names the other memory than its space, faults with
the kind bits of what is wrong; so does one that ends in no leaf; with both right it does not fault. -/
def Obligations.TranslationPermissions : Prop :=
  ∀ (s : State) (d va : Nat) (need : Need) (side : Side),
    let r := (s.translate d va need side).2
    ((s.leafOf d va).2 = .absent → r = .fault kAbsent) ∧
    (∀ l, (s.leafOf d va).2 = .wait l → r = .wait) ∧
    ∀ e z, (s.leafOf d va).2 = .ok e z →
      let perm : Bool := match need with
        | .read => bit e 1
        | .write => bit e 2
        | .both => bit e 1 && bit e 2
        | .fetch => bit e 3
      let here : Bool := match side with
        | .device => !bit e 7
        | .host => bit e 7
        | .either => true
      let a := bits e 55 15 * 2 ^ 15 / z * z + va % z
      (perm = false ∨ here = false → r = .fault ((if perm then 0 else kPerm) + (if here then 0 else kSpace))) ∧
      (perm = true → here = true → r = .ok (if bit e 7 then .host a else .dev a))

/-! ## Frames -/

/-- R16, R34: THE FRAME of the instructions of fixed latency: until its result is written, an instruction that no check stops
leaves memory, every register, predicate, K, H and X register, CTL, the mode and the flags as they were; a conversion moves only
the generators of its own lanes. Covers the instructions of classes 001 to 100 but MOVK, SRD and AMAX, and PMAKE, PGET and TAGQ; those, and
classes 101, 110 and 111, have their frame in their completion statements. -/
def Obligations.RegisterInstructionsFrame : Prop :=
  ∀ (s t : State) (b : Block) (c : Ctx) (h : Head), Issuing s b c h →
    let w := b.work c h
    let runs (i : Instr) : Prop := exec i s = .next t
    let quiet : Prop := IssueFrame s t b [] []
    (∀ f sat rm o, Clear s b h w [⟨o.a, .fmt f⟩, ⟨o.b, .fmt f⟩] o.d 1 7 [] →
      runs (.iadd h f sat o) ∨ runs (.isub h f sat o) ∨ runs (.imul h f sat o) ∨ runs (.imulh h f o) ∨ runs (.imin h f o) ∨
      runs (.imax h f o) ∨ runs (.shl h f sat o) ∨ runs (.shr h f o) ∨ runs (.sar h f o) ∨ runs (.rol h f o) ∨
      runs (.bfx h f o) ∨ runs (.iaddPacked h f sat o) ∨ runs (.isubPacked h f sat o) ∨ runs (.iminPacked h f o) ∨
      runs (.imaxPacked h f o) ∨ runs (.fadd h f rm o) ∨ runs (.fsub h f rm o) ∨ runs (.fmul h f rm o) ∨ runs (.fmin h f o) ∨
      runs (.fmax h f o) → quiet) ∧
    (∀ f sat rm sel ty o, Clear s b h w [⟨o.a, .fmt f⟩] o.d 1 7 [] →
      runs (.iabs h f sat o) ∨ runs (.ineg h f sat o) ∨ runs (.popc h f o) ∨ runs (.clz h f o) ∨ runs (.ctz h f o) ∨
      runs (.brev h f o) ∨ runs (.fabs h f o) ∨ runs (.fneg h f o) ∨ runs (.fclass h f sel o) ∨ runs (.frnd h f rm o) ∨
      runs (.sclc h f ty o) → quiet) ∧
    (∀ f sat rm o, Clear s b h w [⟨o.a, .fmt f⟩, ⟨o.b, .fmt f⟩, ⟨o.c, .fmt f⟩] o.d 1 7 [] →
      runs (.imad h f sat o) ∨ runs (.bfi h f o) ∨ runs (.ffma h f rm o) → quiet) ∧
    (∀ f cin pd o, Clear s b h w [⟨o.a, .fmt f⟩, ⟨o.b, .fmt f⟩] o.d 1 (BitVec.toNat pd) (if cin == 7 then [] else [BitVec.toNat cin]) →
      runs (.iaddc h f cin pd o) → quiet) ∧
    (∀ f hi sat o, Clear s b h w [⟨o.a, .fmt f⟩, ⟨o.b, .fmt f⟩, ⟨o.c, .fmt (if f == .i32 then .i64 else .n64)⟩] o.d 1 7 [] →
      runs (.imadw h f hi sat o) → quiet) ∧
    (∀ f rel frel pd x y, Clear s b h w [⟨x, .fmt f⟩, ⟨y, .fmt f⟩] .zero 0 (BitVec.toNat pd) [] →
      runs (.icmp h f rel pd x y) ∨ runs (.fcmp h f frel pd x y) → quiet) ∧
    (∀ p o, Clear s b h w [⟨o.a, .raw⟩, ⟨o.b, .raw⟩] o.d 1 7 (if p == 7 then [] else [BitVec.toNat p]) → runs (.sel h p o) → quiet) ∧
    (∀ t' o, Clear s b h w [⟨o.a, .raw⟩] o.d 1 7 [] → runs (.mov h t' o) → quiet) ∧
    (∀ lut pd x y z, Clear s b h w [] .zero 0 (BitVec.toNat pd) (([x, y, z].filter (· != 7)).map BitVec.toNat) →
      runs (.plop h lut pd x y z) → quiet) ∧
    (∀ o, Clear s b h w [⟨o.a, .raw⟩, ⟨o.b, .raw⟩] o.d 1 7 [] →
      runs (.and h o) ∨ runs (.or h o) ∨ runs (.xor h o) ∨ runs (.andn h o) → quiet) ∧
    (∀ o, Clear s b h w [⟨o.a, .raw⟩, ⟨o.b, .raw⟩, ⟨o.c, .raw⟩] o.d 1 7 [] → runs (.prmb h o) → quiet) ∧
    (∀ o, Clear s b h w [⟨o.a, .fmt .i16⟩, ⟨o.b, .fmt .i16⟩, ⟨o.c, .fmt .i32⟩] o.d 1 7 [] → runs (.imac2 h o) → quiet) ∧
    (∀ f sat o, Clear s b h w [⟨o.a, .fmt f⟩, ⟨o.b, .fmt f⟩, ⟨o.c, .fmt (if f == .i8 then .i32 else .n32)⟩] o.d 1 7 [] →
      runs (.idot4 h f sat o) → quiet) ∧
    (∀ f o, Clear s b h w [⟨o.a, .fmt f⟩, ⟨o.b, .fmt f⟩, ⟨o.c, .fmt f⟩] o.d 1 7 [] → runs (.shrr h f o) → quiet) ∧
    (∀ f o, Clear s b h w [⟨o.a, .fmt f⟩, ⟨o.b, .fmt f⟩] o.d 1 7 [] → runs (.isat h f o) → quiet) ∧
    (∀ rm o, Clear s b h w [⟨o.a, .fmt .bf16⟩, ⟨o.b, .fmt .bf16⟩, ⟨o.c, .fmt .fp32⟩] o.d 1 7 [] → runs (.fdot2 h rm o) → quiet) ∧
    (∀ sf df rm sat part d a x, Clear s b h w [⟨a, .fmt sf⟩, ⟨.zero, .raw⟩, ⟨x, .fmt df⟩] d 1 7 [] →
      runs (.cvt h sf df rm sat part d a x) ∨ runs (.cvtf8 h sf df rm sat part d a x) → IssueFrame s t b [] w.src) ∧
    (∀ sf df rm part d a x, Clear s b h w [⟨a, .fmt sf⟩, ⟨.zero, .raw⟩, ⟨x, .pack⟩] d 1 7 [] →
      runs (.pack6 h sf df rm part d a x) → IssueFrame s t b [] w.src) ∧
    (∀ sf rm part o, Clear s b h w [⟨o.a, .fmt sf⟩, ⟨o.b, .scale⟩, ⟨o.c, .pack⟩] o.d 1 7 [] →
      runs (.pack4 h sf rm part o) → IssueFrame s t b [] w.src) ∧
    (∀ sf df rm part o, Clear s b h w [⟨o.a, .pack⟩, ⟨o.b, .scale⟩, ⟨.zero, .raw⟩] o.d 1 7 [] →
      runs (.unpk h sf df rm part o) → IssueFrame s t b [] w.src) ∧
    (∀ priv o, Clear s b h w [⟨o.a, .raw⟩, ⟨o.b, .raw⟩] o.d 2 7 [] → runs (.pmake h priv o) → quiet) ∧
    (∀ fld o, Clear s b h w (ptrSpecs o.a) o.d 1 7 [] → runs (.pget h fld o) → quiet) ∧
    (∀ o, Clear s b h w [⟨o.a, .noPoison⟩] o.d 1 7 [] → runs (.tagq h o) → quiet)

/-- R36, R137, R321: THE FRAME of loads, stores, atomics, special functions and terminators at issue: memory and every register,
predicate, K, H and X register, CTL and the mode are as they were; only a store's conversion sets flags, in the lanes that store.
Covers LD, ST, ATOM, CAS, FRCP, FRSQ, FSQRT, FEXP2, FLOG2, FSIN, FCOS, FTANH, RUNEND, BR, BRX, RET, EXIT, YIELD, REGROUP, NOP; the other
terminators have theirs in TerminatorsComplete and MemoryInstructionsComplete. -/
def Obligations.PendingAndControlFrame : Prop :=
  ∀ (s t : State) (b : Block) (c : Ctx) (h : Head), Issuing s b c h →
    let w := b.work c h
    let runs (i : Instr) : Prop := exec i s = .next t
    let quiet : Prop := IssueFrame s t b [] []
    let addr (ptr off : Opd) (l : Nat) : BitVec 128 × Nat := (b.readPtr l ptr, (b.read l .zext off).bits.toNat)
    let good (m : MemOp) (ptr off : Opd) : Prop := ∀ l ∈ w.src, s.memBad b m l (addr ptr off l).1 (addr ptr off l).2 = none
    let loads (ptr off : Opd) (dsps : List SrcSpec) (d : Opd) (n : Nat) : Prop :=
      ClearPlain s b w w.src (w.recv.map (·.1)) (ptrSpecs ptr ++ [⟨off, .int64⟩] ++ dsps ++ needs h d) (dstCodes d n) []
    (∀ f n tg d ptr off, loads ptr off [] d (nregCount n) → good ⟨.load, f, nregCount n, 8⟩ ptr off →
      runs (.ld h f n tg d ptr off) → quiet) ∧
    (∀ f op tg d ptr off x, loads ptr off (dataSpecs f x 1 false) d 1 → good ⟨.atom op, f, 1, atomWidth f false⟩ ptr off →
      runs (.atom h f op tg d ptr off x) → quiet) ∧
    (∀ f pr tg d ptr off e, loads ptr off (dataSpecs f e (if pr then 4 else 2) false) d (if pr then 2 else 1) →
      good ⟨.cas, f, if pr then 2 else 1, atomWidth f pr⟩ ptr off → runs (.cas h f pr tg d ptr off e) → quiet) ∧
    (∀ f n ptr off x, ClearPlain s b w w.src [] (ptrSpecs ptr ++ [⟨off, .int64⟩] ++ dataSpecs f x (nregCount n) true) [] [] →
      good ⟨.store, f, nregCount n, 8⟩ ptr off → runs (.st h f n ptr off x) → IssueFrame s t b w.src []) ∧
    (∀ f rm tg o, Clear s b h w [⟨o.a, .fmt f⟩] o.d 1 7 [] →
      runs (.frcp h f rm tg o) ∨ runs (.frsq h f rm tg o) ∨ runs (.fsqrt h f rm tg o) ∨ runs (.fexp2 h f rm tg o) ∨
      runs (.flog2 h f rm tg o) ∨ runs (.fsin h f rm tg o) ∨ runs (.fcos h f rm tg o) ∨ runs (.ftanh h f rm tg o) → quiet) ∧
    (b.dueRefusal c = none → ∀ await off a,
      (s.gate b (b.acting c h) [] (needs h .zero) [] [] = .pass → runs (.runend h await) ∨ runs (.br h off await) ∨ runs (.exit h await) ∨ runs (.yield h await) → quiet) ∧
      (s.gate b (b.acting c h) [] [⟨a, .int64⟩] [] [] = .pass → (∀ l ∈ b.acting c h, (b.read l .plain a).bits.toNat % 4 = 0) →
        runs (.brx h a await) ∨ runs (.ret h a await) → quiet) ∧
      (s.gate b (b.acting c h) [] [⟨a, .raw⟩] [] [] = .pass → runs (.regroup h a await) → quiet)) ∧
    (s.gate b w.src [] (needs h .zero) [] [] = .pass → runs (.nop h) → quiet)

/-- R30, R34: what the writing of a fixed-latency result changes: nothing outside its block, and in its block only the lanes,
groups and sets that the writes applied name. Each lane is as the writes that name it leave it, in their order; and in a lane whose register
list is canonical, a register that no write names reads as before, and the list stays canonical. Which writes wait for an earlier result is
the model's choice (log 22). -/
def Obligations.ResultWriteFrame : Prop :=
  ∀ (s t : State) (id : Nat) (f : FixedRes) (b : Block), s.fixed.find? (·.id == id) = some f → s.fixedDue f = true →
    s.block? f.blk = some b → exec (.fixedResultWrite id) s = .next t →
    let ws := f.wrs.filter fun w => !s.wrWaits f w
    s.SameOutside t ∧ (∀ k, k ≠ f.blk → t.block? k = s.block? k) ∧
    ∃ b', t.block? f.blk = some b' ∧ b'.scratch = b.scratch ∧ b'.slots = b.slots ∧ b'.cohorts = b.cohorts ∧
      (∀ l, l < b.lanes.length → b'.lane l = (b.lane l).written l ws) ∧
      (∀ l, l < b.lanes.length → Sparse.wf Reg.zero (b.lane l).regs = true → Sparse.wf Reg.zero (b'.lane l).regs = true ∧
        ∀ c, c < 202 → ws.any (Wr.names l c) = false → b'.readCode l c = b.readCode l c) ∧
      (∀ g, (ws.any fun w => match w with
          | .kreg k _ _ => k == g
          | .hreg k _ _ => k == g
          | _ => false) = false →
        (b'.group g).k = (b.group g).k ∧ (b'.group g).h = (b.group g).h ∧ (b'.group g).ctl = (b.group g).ctl) ∧
      ((ws.any fun w => match w with
          | .xpos .. => true
          | .xtag .. => true
          | _ => false) = false → b'.sets = b.sets)

/-! ## Results -/

/-- R153: the result of every elementwise integer instruction, sub-element by sub-element: the exact integer of the sources'
elements, wrapped modulo 2^w, or with SAT clamped to the format with the flag SAT set where that changed it. -/
def Obligations.IntegerElementResults : Prop :=
  ∀ (h : Head) (f : Tag) (sat : Bool) (x2 : O2) (o : O3) (o4 : O4) (s : State) (b : Block) (c : Ctx), f.isInt = true →
    Issuing s b c h →
    let w := b.work c h
    let el (l : Nat) (x : Opd) (k : Nat) : Int := num f (elem f.width (b.read l (.as f) x).bits k)
    let gives (i : Instr) (d : Opd) (sat : Bool) (lat : Nat) (t : Nat → Nat → Int) : Prop :=
      ∃ res : Nat → LaneRes, exec i s = .next (s.issueFixed b c h w d 7 lat (w.src.map fun l => (l, res l))) ∧
        ∀ l, Elementwise f sat (t l) (res l)
    (Clear s b h w [⟨o.a, .fmt f⟩, ⟨o.b, .fmt f⟩] o.d 1 7 [] →
      gives (.iadd h f sat o) o.d sat 4 (fun l k => el l o.a k + el l o.b k) ∧
      gives (.isub h f sat o) o.d sat 4 (fun l k => el l o.a k - el l o.b k) ∧
      gives (.imul h f sat o) o.d sat 6 (fun l k => el l o.a k * el l o.b k) ∧
      gives (.imulh h f o) o.d false 6 (fun l k => el l o.a k * el l o.b k / (2 ^ f.width : Nat)) ∧
      gives (.imin h f o) o.d false 4 (fun l k => min (el l o.a k) (el l o.b k)) ∧
      gives (.imax h f o) o.d false 4 (fun l k => max (el l o.a k) (el l o.b k))) ∧
    (Clear s b h w [⟨o4.a, .fmt f⟩, ⟨o4.b, .fmt f⟩, ⟨o4.c, .fmt f⟩] o4.d 1 7 [] →
      gives (.imad h f sat o4) o4.d sat 6 (fun l k => el l o4.a k * el l o4.b k + el l o4.c k)) ∧
    (Clear s b h w [⟨x2.a, .fmt f⟩] x2.d 1 7 [] →
      gives (.iabs h f sat x2) x2.d sat 4 (fun l k => (el l x2.a k).natAbs) ∧
      gives (.ineg h f sat x2) x2.d sat 4 (fun l k => -(el l x2.a k)))

/-- R60, R73, R175: a sub-element of FADD, FSUB, FMUL and FFMA with a NaN among its sources is the canonical NaN of the format,
and the flags of a lane are those of its sub-elements without a NaN source. -/
def Obligations.NanSourcesGiveCanonicalNan : Prop :=
  ∀ (h : Head) (f : Tag) (rm : RM) (o : O3) (o4 : O4) (s : State) (b : Block) (c : Ctx), f = .fp32 ∨ f = .bf16 →
    Issuing s b c h →
    let w := b.work c h
    let nan (l k : Nat) (xs : List Opd) : Prop := ∃ x ∈ xs, (FF.ofTag f).value (elem f.width (b.read l (.as f) x).bits k) = .nan
    let gives (i : Instr) (d : Opd) (xs : List Opd) (op : List Val → Val) : Prop :=
      ∃ res : Nat → LaneRes, exec i s = .next (s.issueFixed b c h w d 7 6 (w.src.map fun l => (l, res l))) ∧
        ∀ l, ∃ v, (res l).outs = [⟨v, f⟩] ∧
          (∀ k, k < f.count → nan l k xs → elem f.width v k = if f = .fp32 then 0x7FC00000 else 0x7FC0) ∧
          (res l).flags = (List.range f.count).foldl (fun fl k =>
            let vs := xs.map fun x => inFloat f (elem f.width (b.read l (.as f) x).bits k)
            if vs.any Val.isNan then fl else fl ||| ((outFloat f rm (op vs)).2 ||| invalidFlag vs (op vs))) 0
    (Clear s b h w [⟨o.a, .fmt f⟩, ⟨o.b, .fmt f⟩] o.d 1 7 [] →
      gives (.fadd h f rm o) o.d [o.a, o.b] (fun vs => (vs.getD 0 .nan).add rm (vs.getD 1 .nan)) ∧
      gives (.fsub h f rm o) o.d [o.a, o.b] (fun vs => (vs.getD 0 .nan).add rm (vs.getD 1 .nan).negate) ∧
      gives (.fmul h f rm o) o.d [o.a, o.b] (fun vs => (vs.getD 0 .nan).mul (vs.getD 1 .nan))) ∧
    (Clear s b h w [⟨o4.a, .fmt f⟩, ⟨o4.b, .fmt f⟩, ⟨o4.c, .fmt f⟩] o4.d 1 7 [] →
      gives (.ffma h f rm o4) o4.d [o4.a, o4.b, o4.c] fun vs => ((vs.getD 0 .nan).mul (vs.getD 1 .nan)).add rm (vs.getD 2 .nan))

/-- R58, R65, R66, R67: rounding leaves a value the format can hold as it is: every finite encoding's value is delivered as that
encoding, without a flag, in every mode, whatever the draw. -/
def Obligations.RepresentableValuesDeliverExactly : Prop :=
  ∀ f ∈ [FF.fp32, FF.bf16, FF.fp16, FF.e4m3, FF.e5m2, FF.e3m2, FF.e2m3], ∀ (rm : RM) (sat : Bool) (draw x : Nat),
    draw < 2 ^ 16 → x < 2 ^ f.width → (∃ n m e, f.value x = .fin n m e) → f.deliver rm sat draw (f.value x) = (x, 0)

/-- R34, R220: PSUB delivers the pointer with the new extent in the pointer's own unit, every other field as it was, where the extent is
no larger; where it is larger in some lane, it traps with EXTENT and writes nothing. That the check number in its DETAIL is a free value is
the model's choice (log 20). -/
def Obligations.PsubNarrows : Prop :=
  ∀ (h : Head) (o : O3) (s : State) (b : Block) (c : Ctx), Issuing s b c h →
    let w := b.work c h
    let n (l : Nat) : Nat := (b.read l .plain o.b).bits.toNat % 2 ^ 32
    let old (l : Nat) : BitVec 128 := b.readPtr l o.a
    ClearPlain s b w w.src (w.recv.map (·.1)) (ptrSpecs o.a ++ [⟨o.b, .int64⟩] ++ needs h o.d) (dstCodes o.d 2) [] →
    ((∀ l ∈ w.src, n l ≤ (old l).toNat / 2 ^ 64 % 2 ^ 32) →
      exec (.psub h o) s = .next (s.issueFixed b c h w o.d 7 4 (w.src.map fun l =>
        (l, ⟨[⟨(old l).setWidth 64, .ptrLo⟩,
              ⟨((old l).extractLsb' 96 32 ++ BitVec.ofNat 32 (n l) : BitVec 64), .ptrHi⟩], 0, none, none⟩)))) ∧
    (∀ l ls, w.src.filter (fun l => decide ((old l).toNat / 2 ^ 64 % 2 ^ 32 < n l)) = l :: ls →
      ∃ args : Nat → TrapArgs, exec (.psub h o) s = .next (s.raise b c h.scope .extent (l :: ls) args 0) ∧
        ∀ m ∈ l :: ls, args m = ⟨0, (old m).setWidth 64, 0⟩)

/-! ## Checks, traps, modes -/

/-- R41: an instruction of lane scope other than a terminator whose predicate reads false in every lane of its cohort changes
nothing: the cohort steps past it. -/
def Obligations.PredicatedOffPasses : Prop :=
  ∀ (i : Instr) (g : Base) (lits : List Opd) (h : Head) (s : State) (b : Block) (c : Ctx),
    i.fields = some (g, lits) → Head.ofBase g = some h → i.wf = true → isTerm i = false → h.scope = .lane →
    Issuing s b c h → (∀ l ∈ c.lanes, (b.lane l).on h = false) →
    exec i s = .next (s.pass b c h) ∧ IssueFrame s (s.pass b c h) b [] []

/-- R20, R24, R26, R29, R46, R99, R138, R209: the checks of an instruction come in their order, each naming the lanes that fail: with
nothing in flight, IADD in lanes that read a void register traps with VOID_OPERAND; else a POISON source with POISON_USE; else a wrong
tag with FORMAT_MISMATCH; BRX to an address that is no multiple of 4 traps with ALIGN in the lanes that would take it; and LD, ST, ATOM
and CAS trap with the first pointer check that fails in a lane, or with ALIGN, at BASE + offset, unless a check still waits for the tables.
That ADDR of BRX's ALIGN is the target is the model's choice (log 17). -/
def Obligations.IssueChecksTrap : Prop :=
  ∀ (h : Head) (f : Tag) (sat : Bool) (o : O3) (a : Opd) (await : BitVec 8) (s : State) (b : Block) (c : Ctx), Issuing s b c h →
    let w := b.work c h
    let sps : List SrcSpec := [⟨o.a, .fmt f⟩, ⟨o.b, .fmt f⟩] ++ needs h o.d
    let fails (p : Nat → SrcSpec → Bool) : List Nat := w.src.filter fun l => sps.any (p l)
    let traps (t : Trap) (ls : List Nat) : Prop := exec (.iadd h f sat o) s = .next (s.trap b c h.scope t ls)
    (w.acts = true → s.fixed = [] → s.longs = [] → fails (fun l sp => b.setFails l sp) = [] →
      (fails (fun l sp => b.voidFails l sp) ≠ [] → traps .voidOperand (fails fun l sp => b.voidFails l sp)) ∧
      (fails (fun l sp => b.voidFails l sp) = [] → fails (fun l sp => b.poisonFails l sp) ≠ [] →
        traps .poisonUse (fails fun l sp => b.poisonFails l sp)) ∧
      (fails (fun l sp => b.voidFails l sp) = [] → fails (fun l sp => b.poisonFails l sp) = [] → ∀ l ls,
        fails (fun l sp => b.tagFails l sp) = l :: ls → exec (.iadd h f sat o) s = .next (s.raise b c h.scope .formatMismatch (l :: ls)
          (fun _ => ⟨BitVec.ofNat 64 (256 * specField (.iadd h f sat o) sps (sps.findIdx (b.tagFails l))), 0, 0⟩) 0))) ∧
    (s.gate b (b.acting c h) [] [⟨a, .int64⟩] [] [] = .pass →
      ∀ l ls, (b.acting c h).filter (fun l => (b.read l .plain a).bits.toNat % 4 != 0) = l :: ls →
      exec (.brx h a await) s = .next (s.raise b c h.scope .align (l :: ls) (fun m => ⟨0, (b.read m .plain a).bits, 0⟩) 0)) ∧
    (∀ (ptr off data d : Opd) (mf : MFmt) (n : NReg) (tg : BitVec 3) (op : AOp) (pr : Bool),
      let at_ (l : Nat) : BitVec 128 × Nat := (b.readPtr l ptr, (b.read l .zext off).bits.toNat)
      let failed (i : Instr) (m : MemOp) : Prop := ∀ (x : Bad) (ls : List Nat),
        firstBad (w.src.map fun l => (l, s.memBad b m l (at_ l).1 (at_ l).2)) = some (x, ls) → x.holds = false →
        ∃ args : Nat → TrapArgs, exec i s = .next (s.raise b c h.scope x.trap ls args 0) ∧
          ∀ l ∈ ls, (args l).addr = BitVec.ofNat 64 ((ptrOf (at_ l).1).base + (at_ l).2)
      let gate (recv : List Nat) (dsps : List SrcSpec) (d : Opd) (codes : List Nat) : Prop :=
        w.acts = true ∧ s.gate b w.src recv (ptrSpecs ptr ++ [⟨off, .int64⟩] ++ dsps ++ needs h d) codes [] = .pass
      (gate (w.recv.map (·.1)) [] d (dstCodes d (nregCount n)) → failed (.ld h mf n tg d ptr off) ⟨.load, mf, nregCount n, 8⟩) ∧
      (gate [] (dataSpecs mf data (nregCount n) true) .zero [] → failed (.st h mf n ptr off data) ⟨.store, mf, nregCount n, 8⟩) ∧
      (gate (w.recv.map (·.1)) (dataSpecs mf data 1 false) d (dstCodes d 1) →
        failed (.atom h mf op tg d ptr off data) ⟨.atom op, mf, 1, atomWidth mf false⟩) ∧
      (gate (w.recv.map (·.1)) (dataSpecs mf data (if pr then 4 else 2) false) d (dstCodes d (if pr then 2 else 1)) →
        failed (.cas h mf pr tg d ptr off data) ⟨.cas, mf, if pr then 2 else 1, atomWidth mf pr⟩)) ∧
    ∀ (m : MemOp) (l : Nat) (pv : BitVec 128) (off : Nat),
      let first := s.ptrFail b l (ptrOf pv) off (m.size (ptrOf pv)) (m.fmtBad (ptrOf pv))
        (if m.isLoad then [1, 2, 4, 5, 6] else [1, 2, 3, 4, 5, 6])
      first ≠ some notYet → (s.memBad b m l pv off).map (·.trap) = match first with
        | some 2 => some .scopeHome
        | some 3 => some .writeRs
        | some 4 => some .formatMismatch
        | some 5 => some .extent
        | some _ => some .ptrBad
        | none => if (ptrOf pv).alignOff off % m.align (ptrOf pv) = 0 then none else some .align

/-- R233: FLTRD, QSC, TLBX, HALT and SWR to a register marked system trap with PRIVILEGE in a group that is in user mode, whatever
the operands hold; TRET does so too. -/
def Obligations.UserModePrivilege : Prop :=
  ∀ (h : Head) (s : State) (b : Block) (c : Ctx), Issuing s b c h →
    let w := b.engWork c h
    let user (ls : List Nat) : Prop := ∀ l ∈ ls, b.sys l = false
    let clear (recv : List Nat) (sps : List SrcSpec) (codes : List Nat) : Prop := s.gate b w.src recv sps codes [] = .pass
    let traps (i : Instr) : Prop := exec i s = .next (s.trap b c h.scope .privilege w.src)
    (w.acts = true → user w.src →
      (∀ word cons tg d idx, clear (w.recv.map (·.1)) ([⟨idx, .int64⟩] ++ needs h d) (dstCodes d 1) →
        traps (.fltrd h word cons tg d idx)) ∧
      (∀ done tg d, clear (w.recv.map (·.1)) (needs h d) (dstCodes d 1) → traps (.qsc h done tg d)) ∧
      (∀ z all va n, clear [] ((if all then [] else [⟨va, .int64⟩, ⟨n, .int64⟩]) ++ needs h .zero) [] → traps (.tlbx h z all va n)) ∧
      (clear [] (needs h .zero) [] → traps (.halt h)) ∧
      (∀ r v, r ≠ .seed → clear [] ([⟨v, .raw⟩] ++ needs h .zero) [] → traps (.swr h r v))) ∧
    (b.acting c h ≠ [] → (b.group (c.lanes.headD (32 * c.grp) / 32)).sysMode = false →
      exec (.tret h) s = .next (s.trap b c h.scope .privilege (b.acting c h)))

/-- R347 to R349: TAKING A TRAP: with a handler installed and a writable frame, the frame holds the trap's image of the trapped
lanes; the group is in system mode; each handler lane starts a run at TVEC.ENTRY with Q and Y void, the frame pointer in V0:V1,
CODE in V2 and PC in V3. Without a handler, or where the frame cannot be written, the logical device halts, memory stays as it was, and the
error log gains an entry of code 0x07 with the PC and the trap's code. -/
def Obligations.TrapEntry : Prop :=
  ∀ (s : State) (blk g : Nat) (b : Block) (r : Raised), s.block? blk = some b → (b.group g).raised = some r →
    let di := s.die b.die
    let t := s.enterTrap blk g
    (∀ s1 ps, bit di.tvec.toNat 0 = true → bit di.tframe.toNat 0 = true → g < b.groups.length →
      s.spots b.die (s.frameBase b g) 8192 .write .either = (s1, .ok ps) →
      (∃ b', t.block? blk = some b' ∧ (b'.group g).sysMode = true ∧ (b'.group g).raised = none ∧
        ((b'.group g).frame.map (·.raised)) = some r ∧
        ∀ l ∈ r.lanes, l < b.lanes.length → Sparse.wf Reg.zero (b.lane l).regs = true →
          let ln := b'.lane l
          let fp := framePtr b.die (s.frameBase b g)
          ln.pc = di.tvec.toNat / 4 * 4 ∧ ln.void = 0x3FF ∧ ln.run = ⟨di.tvec.toNat / 4 * 4, 0, 0, []⟩ ∧
          (b'.readCode l 0) = ⟨fp.setWidth 64, some .ptrLo⟩ ∧ (b'.readCode l 1) = ⟨fp.extractLsb' 64 64, some .ptrHi⟩ ∧
          (b'.readCode l 2) = ⟨r.codeWord (b.morePending g r.lanes), some .n64⟩ ∧ (b'.readCode l 3) = ⟨BitVec.ofNat 64 r.pc, some .n64⟩) ∧
      (s1.Inv → ps.Nodup → s1.waitingOf b r.lanes = [] →
        (∀ p ∈ ps, s1.Sound p ∧ ((∃ a, p = .dev a) ∨ ∃ a, p = .host a ∧ s1.hostLinks.getLsbD (bits a 12 12) = true)) →
        ps.length = 8192 →
        t.readPlaces (ps.take 0x1200) = frameBytes r (b.morePending g r.lanes) (fun m => (r.lanes.find? (· % 32 == m)).map b.lane) [])) ∧
    (bit di.tvec.toNat 0 = false ∨ bit di.tframe.toNat 0 = false ∨
        (∃ s1 va k, s.spots b.die (s.frameBase b g) 8192 .write .either = (s1, .fault va k)) → b.die < 4 → b.die < s.dies.length →
      (t.die b.die).halted = true ∧ t.dmem = s.dmem ∧ t.hmem = s.hmem ∧ (t.die b.die).logNext = di.logNext + 1 ∧
      ∃ e, Sparse.find? (t.die b.die).log (di.logNext % 256) = some e ∧ e.w0.toNat / 2 ^ 56 = 0x07 ∧ e.w1 = BitVec.ofNat 64 r.pc ∧
        e.w3 = BitVec.ofNat 64 (trapCode r.trap))

/-- R351: a trap that a cohort raises with lanes of its group's open frame halts the logical device, and the error log
gains an entry with both codes; the memory and the handler's registers stay as they were, and the cohort stands at its instruction. -/
def Obligations.TrapInHandlerHalts : Prop :=
  ∀ (s : State) (b : Block) (c : Ctx) (sc : Scope) (t : Trap) (fail : List Nat) (x : Nat → TrapArgs) (pc2 : Nat) (f : Frame) (g : Nat),
    s.block? c.blk = some b → c.wide = false → homesOf c.lanes = [g] → (b.group g).raised = none → (b.group g).frame = some f →
    (∃ l ∈ c.lanes, l ∈ f.raised.lanes) → b.die < s.dies.length → (s.die b.die).halted = false →
    let u := s.raise b c sc t fail x pc2
    (u.die b.die).halted = true ∧ u.dmem = s.dmem ∧ u.hmem = s.hmem ∧
      (u.die b.die).logNext = (s.die b.die).logNext + 1 ∧
      (Sparse.find? (u.die b.die).log ((s.die b.die).logNext % 256)).map (·.w3) =
        some (BitVec.ofNat 64 (trapCode t + 256 * trapCode f.raised.trap)) ∧
      ∃ b', u.block? c.blk = some b' ∧ b.SameFiles b' ∧ b'.cohorts = (b.standHeld c).cohorts
end

