-- ==== Sys2Proof/Laws/Decode.lean ====
section
/-! SUPPORT. Laws of the encoding: fields and words, literals, operand codes, heads; and what decode reads from a base word
whose fields and literals are known. -/

namespace Sys2Proof

theorem extract_hi {n m : Nat} (x : BitVec n) (y : BitVec m) (s l : Nat) (h : m ≤ s) :
    (x ++ y).extractLsb' s l = x.extractLsb' (s - m) l := by
  apply BitVec.eq_of_getLsbD_eq; intro i hi
  simp only [BitVec.getLsbD_extractLsb', BitVec.getLsbD_append]
  simp only [hi, decide_true, Bool.true_and]
  rw [if_neg (by omega)]; congr 1; omega
theorem extract_lo {n m : Nat} (x : BitVec n) (y : BitVec m) (s l : Nat) (h : s + l ≤ m) :
    (x ++ y).extractLsb' s l = y.extractLsb' s l := by
  apply BitVec.eq_of_getLsbD_eq; intro i hi
  simp only [BitVec.getLsbD_extractLsb', BitVec.getLsbD_append]
  simp only [hi, decide_true, Bool.true_and]
  rw [if_pos (by omega)]
theorem extract_all {n : Nat} (x : BitVec n) : x.extractLsb' 0 n = x := by
  apply BitVec.eq_of_getLsbD_eq; intro i hi
  simp [hi]
theorem word_of_halves (x : BitVec 64) : x.extractLsb' 32 32 ++ x.extractLsb' 0 32 = x := by
  apply BitVec.eq_of_getLsbD_eq; intro i hi
  simp only [BitVec.getLsbD_append, BitVec.getLsbD_extractLsb']
  split
  · simp [*]
  · have : i - 32 < 32 := by omega
    simp only [this, decide_true, Bool.true_and]; congr 1; omega

theorem ofWord_toWord (g : Base) : Base.ofWord g.toWord = g := by
  rcases g with ⟨op, sc, st, pn, pr, d, a, b, c, m⟩
  simp only [Base.ofWord, Base.toWord, Base.mk.injEq]
  refine ⟨?_, ?_, ?_, ?_, ?_, ?_, ?_, ?_, ?_, ?_⟩ <;>
    (repeat (first | rw [extract_hi _ _ _ _ (by decide)] | rw [extract_lo _ _ _ _ (by decide)])) <;> exact extract_all _

def Opd.lit : Opd → BitVec 64
  | .lit32 l => l.setWidth 64
  | .lit64 l => l
  | _ => 0

theorem takeLit_none (c : BitVec 8) (ws) (h1 : c ≠ 250#8) (h2 : c ≠ 251#8) : takeLit c ws = some (0, ws) := by
  simp only [takeLit, if_neg h1, if_neg h2]

theorem takeLit_code (o : Opd) (r : List (BitVec 32)) : takeLit o.code (o.words ++ r) = some (o.lit, r) := by
  cases o with
  | lit32 l => simp [takeLit, Opd.code, Opd.words, Opd.lit]
  | lit64 l => simp [takeLit, Opd.code, Opd.words, Opd.lit]; exact word_of_halves l
  | v n | q n | y n | x n | k n =>
    apply takeLit_none <;>
    · intro h; have := congrArg BitVec.toNat h; simp only [Opd.code, BitVec.toNat_ofNat] at this; omega
  | zero => rfl
  | lane => rfl

theorem ofCode_code (o : Opd) : Opd.ofCode o.code o.lit = some o := by
  cases o with
  | lit32 l => simp [Opd.ofCode, Opd.code, Opd.lit]
  | lit64 l => simp [Opd.ofCode, Opd.code, Opd.lit]
  | v n => have : n.val % 256 = n.val := by omega
           have h2 := n.isLt
           simp [Opd.ofCode, Opd.code, this, h2]
  | q n => have h2 := n.isLt
           have : (192 + n.val) % 256 = 192 + n.val := by omega
           have h3 : ¬ (192 + n.val < 192) := by omega
           simp [Opd.ofCode, Opd.code, this, h3]; omega
  | y n => have h2 := n.isLt
           have : (200 + n.val) % 256 = 200 + n.val := by omega
           have h3 : ¬ (200 + n.val < 192) := by omega
           have h4 : ¬ (200 + n.val < 200) := by omega
           simp [Opd.ofCode, Opd.code, this, h3, h4]; omega
  | x n => have h2 := n.isLt
           have : (202 + n.val) % 256 = 202 + n.val := by omega
           have h3 : ¬ (202 + n.val < 192) := by omega
           have h4 : ¬ (202 + n.val < 200) := by omega
           have h5 : ¬ (202 + n.val < 202) := by omega
           simp [Opd.ofCode, Opd.code, this, h3, h4, h5]; omega
  | k n => have h2 := n.isLt
           have : (234 + n.val) % 256 = 234 + n.val := by omega
           have h3 : ¬ (234 + n.val < 192) := by omega
           have h4 : ¬ (234 + n.val < 200) := by omega
           have h5 : ¬ (234 + n.val < 202) := by omega
           have h6 : ¬ (234 + n.val < 234) := by omega
           simp [Opd.ofCode, Opd.code, this, h3, h4, h5, h6]; omega
  | zero => rfl
  | lane => rfl

theorem ofCode_reg (o : Opd) (h : o.words = []) : Opd.ofCode o.code 0 = some o := by
  have := ofCode_code o
  cases o <;> first | exact this | simp [Opd.words] at h

theorem headOfBase (h : Head) (op mod d a b c) :
    Head.ofBase { h.base op mod with dst := d, a := a, b := b, c := c } = some h := by
  rcases h with ⟨sc, st, pn, pr⟩
  cases sc <;> cases pn <;> simp [Head.ofBase, Head.base, Scope.code, Scope.ofCode, flag]

theorem tag_code (t : Tag) : Tag.ofCode t.code = some t := by cases t <;> rfl

theorem decode_core (g : Base) (rest r1 r2 : List (BitVec 32)) (la lb lc : BitVec 64) (h : Head) (u : BitVec 4) (m : BitVec 14)
    (i : Instr) (nl : g.noLits = false) (na : g.awaits = false) (ha : takeLit g.a rest = some (la, r1))
    (hb : takeLit g.b r1 = some (lb, r2))
    (hc : takeLit g.c r2 = some (lc, []))
    (hh : Head.ofBase g = some h)
    (hr : rowOf g h (Opd.ofCode g.dst 0) (Opd.ofCode g.a la) (Opd.ofCode g.b lb) (Opd.ofCode g.c lc) = some ⟨u, m, some i⟩)
    (hs : g.assigned = true) (hu : g.unreadOk u m = true) (hw : i.wf = true) :
    decodeWords (g.toWord.extractLsb' 0 32 :: g.toWord.extractLsb' 32 32 :: rest) = .ok (i, 2 + rest.length) := by
  simp only [decodeWords, word_of_halves, ofWord_toWord, nl, na, hs, Bool.not_true, Bool.or_self, Bool.false_eq_true, if_false, ha, hb, hc, hh, hr, hu, hw, if_true, List.length_nil, Nat.sub_zero]

theorem flag_ofBool (b : Bool) : flag (BitVec.ofBool b) = b := by cases b <;> rfl
theorem class_of (op : BitVec 9) (sc st pn pr d a b c m) : (Base.mk op sc st pn pr d a b c m).class_ = op.extractLsb' 6 3 := rfl

end Sys2Proof
end

