-- ==== Sys2Proof/Laws/Fabric.lean ====
section
/-! SUPPORT. What sending a message and giving up a peer's line can change. -/

namespace Sys2Proof.Machine

/-- Sending a message changes the messages that leave and the numbers of its destination, and nothing else. -/
theorem State.sendMsg_eq (s : State) (d dest ddie type tenant expidx egen : Nat) (off : Word) (body : List Byte) :
    ∃ o p, (s.sendMsg d dest ddie type tenant expidx egen off body).1 = { s with outbox := o, peers := p } := by
  unfold State.sendMsg
  dsimp only
  split
  · exact ⟨s.outbox, s.peers, rfl⟩
  · exact ⟨_, _, rfl⟩

/-- Answering a message does the same. -/
theorem State.answer_eq (s : State) (m : Msg) (type : Nat) (body : List Byte) (poison : Bool) :
    ∃ o p, s.answer m type body poison = { s with outbox := o, peers := p } :=
  s.sendMsg_eq ..

/-- A die that gives a line back loses its copies, and may leave a request behind or count a dropped store. -/
theorem State.giveBack_eq (s : State) (inval : Option Msg) (r : RemoteLine) :
    ∃ o p q m f, s.giveBack inval r = { s with outbox := o, peers := p, requests := q, remotes := m, fabDrop := f } := by
  unfold State.giveBack
  dsimp only
  obtain ⟨o, p, e⟩ := (s.dropCopies r.die r.pos r.line).sendMsg_eq r.die r.pos r.ddie tWriteBack r.tenant r.expidx r.egen
    (reqWord r.off r.bytes.length 15 r.bad) r.bytes
  split <;> rename_i h <;> rw [h] at e <;> dsimp only at e <;> subst e <;> exact ⟨_, _, _, _, _, rfl⟩

/-- So does one that gives up a line, stored to or not. -/
theorem State.giveUp_eq (s : State) (r : RemoteLine) :
    ∃ o p q m f, s.giveUp r = { s with outbox := o, peers := p, requests := q, remotes := m, fabDrop := f } := by
  unfold State.giveUp
  split
  · exact s.giveBack_eq none r
  · obtain ⟨o, p, e⟩ := (s.dropCopies r.die r.pos r.line).sendMsg_eq r.die r.pos r.ddie tAck 0 0 0 0 (toBytes 16 r.line)
    rw [e]
    exact ⟨_, _, _, _, _, rfl⟩

end Sys2Proof.Machine
end

