-- ==== Sys2Proof/Laws/State.lean ====
section
/-! SUPPORT. What the updates of State do to each field: each changes its own field and leaves every other as it was. -/

namespace Sys2Proof.Machine

/-! ## setBlock -/

@[simp] theorem State.setBlock_dies (s : State) (b : Block) : (s.setBlock b).dies = s.dies := rfl
@[simp] theorem State.setBlock_capStep (s : State) (b : Block) : (s.setBlock b).capStep = s.capStep := rfl
@[simp] theorem State.setBlock_capGrade (s : State) (b : Block) : (s.setBlock b).capGrade = s.capGrade := rfl
@[simp] theorem State.setBlock_dieMask (s : State) (b : Block) : (s.setBlock b).dieMask = s.dieMask := rfl
@[simp] theorem State.setBlock_podpos (s : State) (b : Block) : (s.setBlock b).podpos = s.podpos := rfl
@[simp] theorem State.setBlock_ivtab0 (s : State) (b : Block) : (s.setBlock b).ivtab0 = s.ivtab0 := rfl
@[simp] theorem State.setBlock_ivtab1 (s : State) (b : Block) : (s.setBlock b).ivtab1 = s.ivtab1 := rfl
@[simp] theorem State.setBlock_kvmap (s : State) (b : Block) : (s.setBlock b).kvmap = s.kvmap := rfl
@[simp] theorem State.setBlock_podSkew (s : State) (b : Block) : (s.setBlock b).podSkew = s.podSkew := rfl
@[simp] theorem State.setBlock_ptcSkew (s : State) (b : Block) : (s.setBlock b).ptcSkew = s.ptcSkew := rfl
@[simp] theorem State.setBlock_joined (s : State) (b : Block) : (s.setBlock b).joined = s.joined := rfl
@[simp] theorem State.setBlock_podTime (s : State) (b : Block) : (s.setBlock b).podTime = s.podTime := rfl
@[simp] theorem State.setBlock_bootStep (s : State) (b : Block) : (s.setBlock b).bootStep = s.bootStep := rfl
@[simp] theorem State.setBlock_fusedOff (s : State) (b : Block) : (s.setBlock b).fusedOff = s.fusedOff := rfl
@[simp] theorem State.setBlock_warm (s : State) (b : Block) : (s.setBlock b).warm = s.warm := rfl
@[simp] theorem State.setBlock_bootState (s : State) (b : Block) : (s.setBlock b).bootState = s.bootState := rfl
@[simp] theorem State.setBlock_retwin (s : State) (b : Block) : (s.setBlock b).retwin = s.retwin := rfl
@[simp] theorem State.setBlock_scrubctl (s : State) (b : Block) : (s.setBlock b).scrubctl = s.scrubctl := rfl
@[simp] theorem State.setBlock_fabDrop (s : State) (b : Block) : (s.setBlock b).fabDrop = s.fabDrop := rfl
@[simp] theorem State.setBlock_pwrcap (s : State) (b : Block) : (s.setBlock b).pwrcap = s.pwrcap := rfl
@[simp] theorem State.setBlock_capThrottled (s : State) (b : Block) : (s.setBlock b).capThrottled = s.capThrottled := rfl
@[simp] theorem State.setBlock_quiesceDone (s : State) (b : Block) : (s.setBlock b).quiesceDone = s.quiesceDone := rfl
@[simp] theorem State.setBlock_quiescing (s : State) (b : Block) : (s.setBlock b).quiescing = s.quiescing := rfl
@[simp] theorem State.setBlock_kgs (s : State) (b : Block) : (s.setBlock b).kgs = s.kgs := rfl
@[simp] theorem State.setBlock_peers (s : State) (b : Block) : (s.setBlock b).peers = s.peers := rfl
@[simp] theorem State.setBlock_dmem (s : State) (b : Block) : (s.setBlock b).dmem = s.dmem := rfl
@[simp] theorem State.setBlock_hmem (s : State) (b : Block) : (s.setBlock b).hmem = s.hmem := rfl
@[simp] theorem State.setBlock_dpoison (s : State) (b : Block) : (s.setBlock b).dpoison = s.dpoison := rfl
@[simp] theorem State.setBlock_hpoison (s : State) (b : Block) : (s.setBlock b).hpoison = s.hpoison := rfl
@[simp] theorem State.setBlock_hostLinks (s : State) (b : Block) : (s.setBlock b).hostLinks = s.hostLinks := rfl
@[simp] theorem State.setBlock_hostHeld (s : State) (b : Block) : (s.setBlock b).hostHeld = s.hostHeld := rfl
@[simp] theorem State.setBlock_hostAsked (s : State) (b : Block) : (s.setBlock b).hostAsked = s.hostAsked := rfl
@[simp] theorem State.setBlock_filter (s : State) (b : Block) : (s.setBlock b).filter = s.filter := rfl
@[simp] theorem State.setBlock_leases (s : State) (b : Block) : (s.setBlock b).leases = s.leases := rfl
@[simp] theorem State.setBlock_leaseWaits (s : State) (b : Block) : (s.setBlock b).leaseWaits = s.leaseWaits := rfl
@[simp] theorem State.setBlock_holders (s : State) (b : Block) : (s.setBlock b).holders = s.holders := rfl
@[simp] theorem State.setBlock_sharers (s : State) (b : Block) : (s.setBlock b).sharers = s.sharers := rfl
@[simp] theorem State.setBlock_unpub (s : State) (b : Block) : (s.setBlock b).unpub = s.unpub := rfl
@[simp] theorem State.setBlock_remotes (s : State) (b : Block) : (s.setBlock b).remotes = s.remotes := rfl
@[simp] theorem State.setBlock_tlb (s : State) (b : Block) : (s.setBlock b).tlb = s.tlb := rfl
@[simp] theorem State.setBlock_imports (s : State) (b : Block) : (s.setBlock b).imports = s.imports := rfl
@[simp] theorem State.setBlock_lateFaults (s : State) (b : Block) : (s.setBlock b).lateFaults = s.lateFaults := rfl
@[simp] theorem State.setBlock_posted (s : State) (b : Block) : (s.setBlock b).posted = s.posted := rfl
@[simp] theorem State.setBlock_waitVa (s : State) (b : Block) : (s.setBlock b).waitVa = s.waitVa := rfl
@[simp] theorem State.setBlock_blocks (s : State) (b : Block) : (s.setBlock b).blocks = updWhere (·.id == b.id) (fun _ => b) s.blocks := rfl
@[simp] theorem State.setBlock_stores (s : State) (b : Block) : (s.setBlock b).stores = s.stores := rfl
@[simp] theorem State.setBlock_launches (s : State) (b : Block) : (s.setBlock b).launches = s.launches := rfl
@[simp] theorem State.setBlock_qturn (s : State) (b : Block) : (s.setBlock b).qturn = s.qturn := rfl
@[simp] theorem State.setBlock_fixed (s : State) (b : Block) : (s.setBlock b).fixed = s.fixed := rfl
@[simp] theorem State.setBlock_longs (s : State) (b : Block) : (s.setBlock b).longs = s.longs := rfl
@[simp] theorem State.setBlock_accs (s : State) (b : Block) : (s.setBlock b).accs = s.accs := rfl
@[simp] theorem State.setBlock_monitors (s : State) (b : Block) : (s.setBlock b).monitors = s.monitors := rfl
@[simp] theorem State.setBlock_actions (s : State) (b : Block) : (s.setBlock b).actions = s.actions := rfl
@[simp] theorem State.setBlock_tileOps (s : State) (b : Block) : (s.setBlock b).tileOps = s.tileOps := rfl
@[simp] theorem State.setBlock_quarters (s : State) (b : Block) : (s.setBlock b).quarters = s.quarters := rfl
@[simp] theorem State.setBlock_lastGrant (s : State) (b : Block) : (s.setBlock b).lastGrant = s.lastGrant := rfl
@[simp] theorem State.setBlock_passes (s : State) (b : Block) : (s.setBlock b).passes = s.passes := rfl
@[simp] theorem State.setBlock_rings (s : State) (b : Block) : (s.setBlock b).rings = s.rings := rfl
@[simp] theorem State.setBlock_copies (s : State) (b : Block) : (s.setBlock b).copies = s.copies := rfl
@[simp] theorem State.setBlock_coreRing (s : State) (b : Block) : (s.setBlock b).coreRing = s.coreRing := rfl
@[simp] theorem State.setBlock_bins (s : State) (b : Block) : (s.setBlock b).bins = s.bins := rfl
@[simp] theorem State.setBlock_binOpen (s : State) (b : Block) : (s.setBlock b).binOpen = s.binOpen := rfl
@[simp] theorem State.setBlock_sendLists (s : State) (b : Block) : (s.setBlock b).sendLists = s.sendLists := rfl
@[simp] theorem State.setBlock_sends (s : State) (b : Block) : (s.setBlock b).sends = s.sends := rfl
@[simp] theorem State.setBlock_pubs (s : State) (b : Block) : (s.setBlock b).pubs = s.pubs := rfl
@[simp] theorem State.setBlock_appends (s : State) (b : Block) : (s.setBlock b).appends = s.appends := rfl
@[simp] theorem State.setBlock_exchanged (s : State) (b : Block) : (s.setBlock b).exchanged = s.exchanged := rfl
@[simp] theorem State.setBlock_drains (s : State) (b : Block) : (s.setBlock b).drains = s.drains := rfl
@[simp] theorem State.setBlock_reach (s : State) (b : Block) : (s.setBlock b).reach = s.reach := rfl
@[simp] theorem State.setBlock_requests (s : State) (b : Block) : (s.setBlock b).requests = s.requests := rfl
@[simp] theorem State.setBlock_engLines (s : State) (b : Block) : (s.setBlock b).engLines = s.engLines := rfl
@[simp] theorem State.setBlock_peerWaits (s : State) (b : Block) : (s.setBlock b).peerWaits = s.peerWaits := rfl
@[simp] theorem State.setBlock_outbox (s : State) (b : Block) : (s.setBlock b).outbox = s.outbox := rfl
@[simp] theorem State.setBlock_wire (s : State) (b : Block) : (s.setBlock b).wire = s.wire := rfl
@[simp] theorem State.setBlock_hostWait (s : State) (b : Block) : (s.setBlock b).hostWait = s.hostWait := rfl
@[simp] theorem State.setBlock_hostTurn (s : State) (b : Block) : (s.setBlock b).hostTurn = s.hostTurn := rfl
@[simp] theorem State.setBlock_hostOut (s : State) (b : Block) : (s.setBlock b).hostOut = s.hostOut := rfl
@[simp] theorem State.setBlock_lanesUsed (s : State) (b : Block) : (s.setBlock b).lanesUsed = s.lanesUsed := rfl
@[simp] theorem State.setBlock_port (s : State) (b : Block) : (s.setBlock b).port = s.port := rfl
@[simp] theorem State.setBlock_cur (s : State) (b : Block) : (s.setBlock b).cur = s.cur := rfl
@[simp] theorem State.setBlock_agenda (s : State) (b : Block) : (s.setBlock b).agenda = s.agenda := rfl
@[simp] theorem State.setBlock_turn (s : State) (b : Block) : (s.setBlock b).turn = s.turn := rfl
@[simp] theorem State.setBlock_rr (s : State) (b : Block) : (s.setBlock b).rr = s.rr := rfl
@[simp] theorem State.setBlock_nextId (s : State) (b : Block) : (s.setBlock b).nextId = s.nextId := rfl
@[simp] theorem State.setBlock_cycle (s : State) (b : Block) : (s.setBlock b).cycle = s.cycle := rfl
@[simp] theorem State.setBlock_free (s : State) (b : Block) : (s.setBlock b).free = s.free := rfl
@[simp] theorem State.setBlock_boot (s : State) (b : Block) : (s.setBlock b).boot = s.boot := rfl
@[simp] theorem State.setBlock_images (s : State) (b : Block) : (s.setBlock b).images = s.images := rfl
@[simp] theorem State.setBlock_digests (s : State) (b : Block) : (s.setBlock b).digests = s.digests := rfl
@[simp] theorem State.setBlock_fuseKey (s : State) (b : Block) : (s.setBlock b).fuseKey = s.fuseKey := rfl
@[simp] theorem State.setBlock_fuseMin (s : State) (b : Block) : (s.setBlock b).fuseMin = s.fuseMin := rfl
@[simp] theorem State.setBlock_coeffs (s : State) (b : Block) : (s.setBlock b).coeffs = s.coeffs := rfl
@[simp] theorem State.setBlock_left (s : State) (b : Block) : (s.setBlock b).left = s.left := rfl
@[simp] theorem State.setBlock_hostDir (s : State) (b : Block) : (s.setBlock b).hostDir = s.hostDir := rfl
@[simp] theorem State.setBlock_wanted (s : State) (b : Block) : (s.setBlock b).wanted = s.wanted := rfl
@[simp] theorem State.setBlock_picked (s : State) (b : Block) : (s.setBlock b).picked = s.picked := rfl

/-! ## modBlock -/

@[simp] theorem State.modBlock_dies (s : State) (k : Nat) (f : Block → Block) : (s.modBlock k f).dies = s.dies := rfl
@[simp] theorem State.modBlock_capStep (s : State) (k : Nat) (f : Block → Block) : (s.modBlock k f).capStep = s.capStep := rfl
@[simp] theorem State.modBlock_capGrade (s : State) (k : Nat) (f : Block → Block) : (s.modBlock k f).capGrade = s.capGrade := rfl
@[simp] theorem State.modBlock_dieMask (s : State) (k : Nat) (f : Block → Block) : (s.modBlock k f).dieMask = s.dieMask := rfl
@[simp] theorem State.modBlock_podpos (s : State) (k : Nat) (f : Block → Block) : (s.modBlock k f).podpos = s.podpos := rfl
@[simp] theorem State.modBlock_ivtab0 (s : State) (k : Nat) (f : Block → Block) : (s.modBlock k f).ivtab0 = s.ivtab0 := rfl
@[simp] theorem State.modBlock_ivtab1 (s : State) (k : Nat) (f : Block → Block) : (s.modBlock k f).ivtab1 = s.ivtab1 := rfl
@[simp] theorem State.modBlock_kvmap (s : State) (k : Nat) (f : Block → Block) : (s.modBlock k f).kvmap = s.kvmap := rfl
@[simp] theorem State.modBlock_podSkew (s : State) (k : Nat) (f : Block → Block) : (s.modBlock k f).podSkew = s.podSkew := rfl
@[simp] theorem State.modBlock_ptcSkew (s : State) (k : Nat) (f : Block → Block) : (s.modBlock k f).ptcSkew = s.ptcSkew := rfl
@[simp] theorem State.modBlock_joined (s : State) (k : Nat) (f : Block → Block) : (s.modBlock k f).joined = s.joined := rfl
@[simp] theorem State.modBlock_podTime (s : State) (k : Nat) (f : Block → Block) : (s.modBlock k f).podTime = s.podTime := rfl
@[simp] theorem State.modBlock_bootStep (s : State) (k : Nat) (f : Block → Block) : (s.modBlock k f).bootStep = s.bootStep := rfl
@[simp] theorem State.modBlock_fusedOff (s : State) (k : Nat) (f : Block → Block) : (s.modBlock k f).fusedOff = s.fusedOff := rfl
@[simp] theorem State.modBlock_warm (s : State) (k : Nat) (f : Block → Block) : (s.modBlock k f).warm = s.warm := rfl
@[simp] theorem State.modBlock_bootState (s : State) (k : Nat) (f : Block → Block) : (s.modBlock k f).bootState = s.bootState := rfl
@[simp] theorem State.modBlock_retwin (s : State) (k : Nat) (f : Block → Block) : (s.modBlock k f).retwin = s.retwin := rfl
@[simp] theorem State.modBlock_scrubctl (s : State) (k : Nat) (f : Block → Block) : (s.modBlock k f).scrubctl = s.scrubctl := rfl
@[simp] theorem State.modBlock_fabDrop (s : State) (k : Nat) (f : Block → Block) : (s.modBlock k f).fabDrop = s.fabDrop := rfl
@[simp] theorem State.modBlock_pwrcap (s : State) (k : Nat) (f : Block → Block) : (s.modBlock k f).pwrcap = s.pwrcap := rfl
@[simp] theorem State.modBlock_capThrottled (s : State) (k : Nat) (f : Block → Block) : (s.modBlock k f).capThrottled = s.capThrottled := rfl
@[simp] theorem State.modBlock_quiesceDone (s : State) (k : Nat) (f : Block → Block) : (s.modBlock k f).quiesceDone = s.quiesceDone := rfl
@[simp] theorem State.modBlock_quiescing (s : State) (k : Nat) (f : Block → Block) : (s.modBlock k f).quiescing = s.quiescing := rfl
@[simp] theorem State.modBlock_kgs (s : State) (k : Nat) (f : Block → Block) : (s.modBlock k f).kgs = s.kgs := rfl
@[simp] theorem State.modBlock_peers (s : State) (k : Nat) (f : Block → Block) : (s.modBlock k f).peers = s.peers := rfl
@[simp] theorem State.modBlock_dmem (s : State) (k : Nat) (f : Block → Block) : (s.modBlock k f).dmem = s.dmem := rfl
@[simp] theorem State.modBlock_hmem (s : State) (k : Nat) (f : Block → Block) : (s.modBlock k f).hmem = s.hmem := rfl
@[simp] theorem State.modBlock_dpoison (s : State) (k : Nat) (f : Block → Block) : (s.modBlock k f).dpoison = s.dpoison := rfl
@[simp] theorem State.modBlock_hpoison (s : State) (k : Nat) (f : Block → Block) : (s.modBlock k f).hpoison = s.hpoison := rfl
@[simp] theorem State.modBlock_hostLinks (s : State) (k : Nat) (f : Block → Block) : (s.modBlock k f).hostLinks = s.hostLinks := rfl
@[simp] theorem State.modBlock_hostHeld (s : State) (k : Nat) (f : Block → Block) : (s.modBlock k f).hostHeld = s.hostHeld := rfl
@[simp] theorem State.modBlock_hostAsked (s : State) (k : Nat) (f : Block → Block) : (s.modBlock k f).hostAsked = s.hostAsked := rfl
@[simp] theorem State.modBlock_filter (s : State) (k : Nat) (f : Block → Block) : (s.modBlock k f).filter = s.filter := rfl
@[simp] theorem State.modBlock_leases (s : State) (k : Nat) (f : Block → Block) : (s.modBlock k f).leases = s.leases := rfl
@[simp] theorem State.modBlock_leaseWaits (s : State) (k : Nat) (f : Block → Block) : (s.modBlock k f).leaseWaits = s.leaseWaits := rfl
@[simp] theorem State.modBlock_holders (s : State) (k : Nat) (f : Block → Block) : (s.modBlock k f).holders = s.holders := rfl
@[simp] theorem State.modBlock_sharers (s : State) (k : Nat) (f : Block → Block) : (s.modBlock k f).sharers = s.sharers := rfl
@[simp] theorem State.modBlock_unpub (s : State) (k : Nat) (f : Block → Block) : (s.modBlock k f).unpub = s.unpub := rfl
@[simp] theorem State.modBlock_remotes (s : State) (k : Nat) (f : Block → Block) : (s.modBlock k f).remotes = s.remotes := rfl
@[simp] theorem State.modBlock_tlb (s : State) (k : Nat) (f : Block → Block) : (s.modBlock k f).tlb = s.tlb := rfl
@[simp] theorem State.modBlock_imports (s : State) (k : Nat) (f : Block → Block) : (s.modBlock k f).imports = s.imports := rfl
@[simp] theorem State.modBlock_lateFaults (s : State) (k : Nat) (f : Block → Block) : (s.modBlock k f).lateFaults = s.lateFaults := rfl
@[simp] theorem State.modBlock_posted (s : State) (k : Nat) (f : Block → Block) : (s.modBlock k f).posted = s.posted := rfl
@[simp] theorem State.modBlock_waitVa (s : State) (k : Nat) (f : Block → Block) : (s.modBlock k f).waitVa = s.waitVa := rfl
@[simp] theorem State.modBlock_blocks (s : State) (k : Nat) (f : Block → Block) : (s.modBlock k f).blocks = updWhere (·.id == k) f s.blocks := rfl
@[simp] theorem State.modBlock_stores (s : State) (k : Nat) (f : Block → Block) : (s.modBlock k f).stores = s.stores := rfl
@[simp] theorem State.modBlock_launches (s : State) (k : Nat) (f : Block → Block) : (s.modBlock k f).launches = s.launches := rfl
@[simp] theorem State.modBlock_qturn (s : State) (k : Nat) (f : Block → Block) : (s.modBlock k f).qturn = s.qturn := rfl
@[simp] theorem State.modBlock_fixed (s : State) (k : Nat) (f : Block → Block) : (s.modBlock k f).fixed = s.fixed := rfl
@[simp] theorem State.modBlock_longs (s : State) (k : Nat) (f : Block → Block) : (s.modBlock k f).longs = s.longs := rfl
@[simp] theorem State.modBlock_accs (s : State) (k : Nat) (f : Block → Block) : (s.modBlock k f).accs = s.accs := rfl
@[simp] theorem State.modBlock_monitors (s : State) (k : Nat) (f : Block → Block) : (s.modBlock k f).monitors = s.monitors := rfl
@[simp] theorem State.modBlock_actions (s : State) (k : Nat) (f : Block → Block) : (s.modBlock k f).actions = s.actions := rfl
@[simp] theorem State.modBlock_tileOps (s : State) (k : Nat) (f : Block → Block) : (s.modBlock k f).tileOps = s.tileOps := rfl
@[simp] theorem State.modBlock_quarters (s : State) (k : Nat) (f : Block → Block) : (s.modBlock k f).quarters = s.quarters := rfl
@[simp] theorem State.modBlock_lastGrant (s : State) (k : Nat) (f : Block → Block) : (s.modBlock k f).lastGrant = s.lastGrant := rfl
@[simp] theorem State.modBlock_passes (s : State) (k : Nat) (f : Block → Block) : (s.modBlock k f).passes = s.passes := rfl
@[simp] theorem State.modBlock_rings (s : State) (k : Nat) (f : Block → Block) : (s.modBlock k f).rings = s.rings := rfl
@[simp] theorem State.modBlock_copies (s : State) (k : Nat) (f : Block → Block) : (s.modBlock k f).copies = s.copies := rfl
@[simp] theorem State.modBlock_coreRing (s : State) (k : Nat) (f : Block → Block) : (s.modBlock k f).coreRing = s.coreRing := rfl
@[simp] theorem State.modBlock_bins (s : State) (k : Nat) (f : Block → Block) : (s.modBlock k f).bins = s.bins := rfl
@[simp] theorem State.modBlock_binOpen (s : State) (k : Nat) (f : Block → Block) : (s.modBlock k f).binOpen = s.binOpen := rfl
@[simp] theorem State.modBlock_sendLists (s : State) (k : Nat) (f : Block → Block) : (s.modBlock k f).sendLists = s.sendLists := rfl
@[simp] theorem State.modBlock_sends (s : State) (k : Nat) (f : Block → Block) : (s.modBlock k f).sends = s.sends := rfl
@[simp] theorem State.modBlock_pubs (s : State) (k : Nat) (f : Block → Block) : (s.modBlock k f).pubs = s.pubs := rfl
@[simp] theorem State.modBlock_appends (s : State) (k : Nat) (f : Block → Block) : (s.modBlock k f).appends = s.appends := rfl
@[simp] theorem State.modBlock_exchanged (s : State) (k : Nat) (f : Block → Block) : (s.modBlock k f).exchanged = s.exchanged := rfl
@[simp] theorem State.modBlock_drains (s : State) (k : Nat) (f : Block → Block) : (s.modBlock k f).drains = s.drains := rfl
@[simp] theorem State.modBlock_reach (s : State) (k : Nat) (f : Block → Block) : (s.modBlock k f).reach = s.reach := rfl
@[simp] theorem State.modBlock_requests (s : State) (k : Nat) (f : Block → Block) : (s.modBlock k f).requests = s.requests := rfl
@[simp] theorem State.modBlock_engLines (s : State) (k : Nat) (f : Block → Block) : (s.modBlock k f).engLines = s.engLines := rfl
@[simp] theorem State.modBlock_peerWaits (s : State) (k : Nat) (f : Block → Block) : (s.modBlock k f).peerWaits = s.peerWaits := rfl
@[simp] theorem State.modBlock_outbox (s : State) (k : Nat) (f : Block → Block) : (s.modBlock k f).outbox = s.outbox := rfl
@[simp] theorem State.modBlock_wire (s : State) (k : Nat) (f : Block → Block) : (s.modBlock k f).wire = s.wire := rfl
@[simp] theorem State.modBlock_hostWait (s : State) (k : Nat) (f : Block → Block) : (s.modBlock k f).hostWait = s.hostWait := rfl
@[simp] theorem State.modBlock_hostTurn (s : State) (k : Nat) (f : Block → Block) : (s.modBlock k f).hostTurn = s.hostTurn := rfl
@[simp] theorem State.modBlock_hostOut (s : State) (k : Nat) (f : Block → Block) : (s.modBlock k f).hostOut = s.hostOut := rfl
@[simp] theorem State.modBlock_lanesUsed (s : State) (k : Nat) (f : Block → Block) : (s.modBlock k f).lanesUsed = s.lanesUsed := rfl
@[simp] theorem State.modBlock_port (s : State) (k : Nat) (f : Block → Block) : (s.modBlock k f).port = s.port := rfl
@[simp] theorem State.modBlock_cur (s : State) (k : Nat) (f : Block → Block) : (s.modBlock k f).cur = s.cur := rfl
@[simp] theorem State.modBlock_agenda (s : State) (k : Nat) (f : Block → Block) : (s.modBlock k f).agenda = s.agenda := rfl
@[simp] theorem State.modBlock_turn (s : State) (k : Nat) (f : Block → Block) : (s.modBlock k f).turn = s.turn := rfl
@[simp] theorem State.modBlock_rr (s : State) (k : Nat) (f : Block → Block) : (s.modBlock k f).rr = s.rr := rfl
@[simp] theorem State.modBlock_nextId (s : State) (k : Nat) (f : Block → Block) : (s.modBlock k f).nextId = s.nextId := rfl
@[simp] theorem State.modBlock_cycle (s : State) (k : Nat) (f : Block → Block) : (s.modBlock k f).cycle = s.cycle := rfl
@[simp] theorem State.modBlock_free (s : State) (k : Nat) (f : Block → Block) : (s.modBlock k f).free = s.free := rfl
@[simp] theorem State.modBlock_boot (s : State) (k : Nat) (f : Block → Block) : (s.modBlock k f).boot = s.boot := rfl
@[simp] theorem State.modBlock_images (s : State) (k : Nat) (f : Block → Block) : (s.modBlock k f).images = s.images := rfl
@[simp] theorem State.modBlock_digests (s : State) (k : Nat) (f : Block → Block) : (s.modBlock k f).digests = s.digests := rfl
@[simp] theorem State.modBlock_fuseKey (s : State) (k : Nat) (f : Block → Block) : (s.modBlock k f).fuseKey = s.fuseKey := rfl
@[simp] theorem State.modBlock_fuseMin (s : State) (k : Nat) (f : Block → Block) : (s.modBlock k f).fuseMin = s.fuseMin := rfl
@[simp] theorem State.modBlock_coeffs (s : State) (k : Nat) (f : Block → Block) : (s.modBlock k f).coeffs = s.coeffs := rfl
@[simp] theorem State.modBlock_left (s : State) (k : Nat) (f : Block → Block) : (s.modBlock k f).left = s.left := rfl
@[simp] theorem State.modBlock_hostDir (s : State) (k : Nat) (f : Block → Block) : (s.modBlock k f).hostDir = s.hostDir := rfl
@[simp] theorem State.modBlock_wanted (s : State) (k : Nat) (f : Block → Block) : (s.modBlock k f).wanted = s.wanted := rfl
@[simp] theorem State.modBlock_picked (s : State) (k : Nat) (f : Block → Block) : (s.modBlock k f).picked = s.picked := rfl

/-! ## modDie -/

@[simp] theorem State.modDie_dies (s : State) (d : Nat) (f : Die → Die) : (s.modDie d f).dies = s.dies.modify d f := rfl
@[simp] theorem State.modDie_capStep (s : State) (d : Nat) (f : Die → Die) : (s.modDie d f).capStep = s.capStep := rfl
@[simp] theorem State.modDie_capGrade (s : State) (d : Nat) (f : Die → Die) : (s.modDie d f).capGrade = s.capGrade := rfl
@[simp] theorem State.modDie_dieMask (s : State) (d : Nat) (f : Die → Die) : (s.modDie d f).dieMask = s.dieMask := rfl
@[simp] theorem State.modDie_podpos (s : State) (d : Nat) (f : Die → Die) : (s.modDie d f).podpos = s.podpos := rfl
@[simp] theorem State.modDie_ivtab0 (s : State) (d : Nat) (f : Die → Die) : (s.modDie d f).ivtab0 = s.ivtab0 := rfl
@[simp] theorem State.modDie_ivtab1 (s : State) (d : Nat) (f : Die → Die) : (s.modDie d f).ivtab1 = s.ivtab1 := rfl
@[simp] theorem State.modDie_kvmap (s : State) (d : Nat) (f : Die → Die) : (s.modDie d f).kvmap = s.kvmap := rfl
@[simp] theorem State.modDie_podSkew (s : State) (d : Nat) (f : Die → Die) : (s.modDie d f).podSkew = s.podSkew := rfl
@[simp] theorem State.modDie_ptcSkew (s : State) (d : Nat) (f : Die → Die) : (s.modDie d f).ptcSkew = s.ptcSkew := rfl
@[simp] theorem State.modDie_joined (s : State) (d : Nat) (f : Die → Die) : (s.modDie d f).joined = s.joined := rfl
@[simp] theorem State.modDie_podTime (s : State) (d : Nat) (f : Die → Die) : (s.modDie d f).podTime = s.podTime := rfl
@[simp] theorem State.modDie_bootStep (s : State) (d : Nat) (f : Die → Die) : (s.modDie d f).bootStep = s.bootStep := rfl
@[simp] theorem State.modDie_fusedOff (s : State) (d : Nat) (f : Die → Die) : (s.modDie d f).fusedOff = s.fusedOff := rfl
@[simp] theorem State.modDie_warm (s : State) (d : Nat) (f : Die → Die) : (s.modDie d f).warm = s.warm := rfl
@[simp] theorem State.modDie_bootState (s : State) (d : Nat) (f : Die → Die) : (s.modDie d f).bootState = s.bootState := rfl
@[simp] theorem State.modDie_retwin (s : State) (d : Nat) (f : Die → Die) : (s.modDie d f).retwin = s.retwin := rfl
@[simp] theorem State.modDie_scrubctl (s : State) (d : Nat) (f : Die → Die) : (s.modDie d f).scrubctl = s.scrubctl := rfl
@[simp] theorem State.modDie_fabDrop (s : State) (d : Nat) (f : Die → Die) : (s.modDie d f).fabDrop = s.fabDrop := rfl
@[simp] theorem State.modDie_pwrcap (s : State) (d : Nat) (f : Die → Die) : (s.modDie d f).pwrcap = s.pwrcap := rfl
@[simp] theorem State.modDie_capThrottled (s : State) (d : Nat) (f : Die → Die) : (s.modDie d f).capThrottled = s.capThrottled := rfl
@[simp] theorem State.modDie_quiesceDone (s : State) (d : Nat) (f : Die → Die) : (s.modDie d f).quiesceDone = s.quiesceDone := rfl
@[simp] theorem State.modDie_quiescing (s : State) (d : Nat) (f : Die → Die) : (s.modDie d f).quiescing = s.quiescing := rfl
@[simp] theorem State.modDie_kgs (s : State) (d : Nat) (f : Die → Die) : (s.modDie d f).kgs = s.kgs := rfl
@[simp] theorem State.modDie_peers (s : State) (d : Nat) (f : Die → Die) : (s.modDie d f).peers = s.peers := rfl
@[simp] theorem State.modDie_dmem (s : State) (d : Nat) (f : Die → Die) : (s.modDie d f).dmem = s.dmem := rfl
@[simp] theorem State.modDie_hmem (s : State) (d : Nat) (f : Die → Die) : (s.modDie d f).hmem = s.hmem := rfl
@[simp] theorem State.modDie_dpoison (s : State) (d : Nat) (f : Die → Die) : (s.modDie d f).dpoison = s.dpoison := rfl
@[simp] theorem State.modDie_hpoison (s : State) (d : Nat) (f : Die → Die) : (s.modDie d f).hpoison = s.hpoison := rfl
@[simp] theorem State.modDie_hostLinks (s : State) (d : Nat) (f : Die → Die) : (s.modDie d f).hostLinks = s.hostLinks := rfl
@[simp] theorem State.modDie_hostHeld (s : State) (d : Nat) (f : Die → Die) : (s.modDie d f).hostHeld = s.hostHeld := rfl
@[simp] theorem State.modDie_hostAsked (s : State) (d : Nat) (f : Die → Die) : (s.modDie d f).hostAsked = s.hostAsked := rfl
@[simp] theorem State.modDie_filter (s : State) (d : Nat) (f : Die → Die) : (s.modDie d f).filter = s.filter := rfl
@[simp] theorem State.modDie_leases (s : State) (d : Nat) (f : Die → Die) : (s.modDie d f).leases = s.leases := rfl
@[simp] theorem State.modDie_leaseWaits (s : State) (d : Nat) (f : Die → Die) : (s.modDie d f).leaseWaits = s.leaseWaits := rfl
@[simp] theorem State.modDie_holders (s : State) (d : Nat) (f : Die → Die) : (s.modDie d f).holders = s.holders := rfl
@[simp] theorem State.modDie_sharers (s : State) (d : Nat) (f : Die → Die) : (s.modDie d f).sharers = s.sharers := rfl
@[simp] theorem State.modDie_unpub (s : State) (d : Nat) (f : Die → Die) : (s.modDie d f).unpub = s.unpub := rfl
@[simp] theorem State.modDie_remotes (s : State) (d : Nat) (f : Die → Die) : (s.modDie d f).remotes = s.remotes := rfl
@[simp] theorem State.modDie_tlb (s : State) (d : Nat) (f : Die → Die) : (s.modDie d f).tlb = s.tlb := rfl
@[simp] theorem State.modDie_imports (s : State) (d : Nat) (f : Die → Die) : (s.modDie d f).imports = s.imports := rfl
@[simp] theorem State.modDie_lateFaults (s : State) (d : Nat) (f : Die → Die) : (s.modDie d f).lateFaults = s.lateFaults := rfl
@[simp] theorem State.modDie_posted (s : State) (d : Nat) (f : Die → Die) : (s.modDie d f).posted = s.posted := rfl
@[simp] theorem State.modDie_waitVa (s : State) (d : Nat) (f : Die → Die) : (s.modDie d f).waitVa = s.waitVa := rfl
@[simp] theorem State.modDie_blocks (s : State) (d : Nat) (f : Die → Die) : (s.modDie d f).blocks = s.blocks := rfl
@[simp] theorem State.modDie_stores (s : State) (d : Nat) (f : Die → Die) : (s.modDie d f).stores = s.stores := rfl
@[simp] theorem State.modDie_launches (s : State) (d : Nat) (f : Die → Die) : (s.modDie d f).launches = s.launches := rfl
@[simp] theorem State.modDie_qturn (s : State) (d : Nat) (f : Die → Die) : (s.modDie d f).qturn = s.qturn := rfl
@[simp] theorem State.modDie_fixed (s : State) (d : Nat) (f : Die → Die) : (s.modDie d f).fixed = s.fixed := rfl
@[simp] theorem State.modDie_longs (s : State) (d : Nat) (f : Die → Die) : (s.modDie d f).longs = s.longs := rfl
@[simp] theorem State.modDie_accs (s : State) (d : Nat) (f : Die → Die) : (s.modDie d f).accs = s.accs := rfl
@[simp] theorem State.modDie_monitors (s : State) (d : Nat) (f : Die → Die) : (s.modDie d f).monitors = s.monitors := rfl
@[simp] theorem State.modDie_actions (s : State) (d : Nat) (f : Die → Die) : (s.modDie d f).actions = s.actions := rfl
@[simp] theorem State.modDie_tileOps (s : State) (d : Nat) (f : Die → Die) : (s.modDie d f).tileOps = s.tileOps := rfl
@[simp] theorem State.modDie_quarters (s : State) (d : Nat) (f : Die → Die) : (s.modDie d f).quarters = s.quarters := rfl
@[simp] theorem State.modDie_lastGrant (s : State) (d : Nat) (f : Die → Die) : (s.modDie d f).lastGrant = s.lastGrant := rfl
@[simp] theorem State.modDie_passes (s : State) (d : Nat) (f : Die → Die) : (s.modDie d f).passes = s.passes := rfl
@[simp] theorem State.modDie_rings (s : State) (d : Nat) (f : Die → Die) : (s.modDie d f).rings = s.rings := rfl
@[simp] theorem State.modDie_copies (s : State) (d : Nat) (f : Die → Die) : (s.modDie d f).copies = s.copies := rfl
@[simp] theorem State.modDie_coreRing (s : State) (d : Nat) (f : Die → Die) : (s.modDie d f).coreRing = s.coreRing := rfl
@[simp] theorem State.modDie_bins (s : State) (d : Nat) (f : Die → Die) : (s.modDie d f).bins = s.bins := rfl
@[simp] theorem State.modDie_binOpen (s : State) (d : Nat) (f : Die → Die) : (s.modDie d f).binOpen = s.binOpen := rfl
@[simp] theorem State.modDie_sendLists (s : State) (d : Nat) (f : Die → Die) : (s.modDie d f).sendLists = s.sendLists := rfl
@[simp] theorem State.modDie_sends (s : State) (d : Nat) (f : Die → Die) : (s.modDie d f).sends = s.sends := rfl
@[simp] theorem State.modDie_pubs (s : State) (d : Nat) (f : Die → Die) : (s.modDie d f).pubs = s.pubs := rfl
@[simp] theorem State.modDie_appends (s : State) (d : Nat) (f : Die → Die) : (s.modDie d f).appends = s.appends := rfl
@[simp] theorem State.modDie_exchanged (s : State) (d : Nat) (f : Die → Die) : (s.modDie d f).exchanged = s.exchanged := rfl
@[simp] theorem State.modDie_drains (s : State) (d : Nat) (f : Die → Die) : (s.modDie d f).drains = s.drains := rfl
@[simp] theorem State.modDie_reach (s : State) (d : Nat) (f : Die → Die) : (s.modDie d f).reach = s.reach := rfl
@[simp] theorem State.modDie_requests (s : State) (d : Nat) (f : Die → Die) : (s.modDie d f).requests = s.requests := rfl
@[simp] theorem State.modDie_engLines (s : State) (d : Nat) (f : Die → Die) : (s.modDie d f).engLines = s.engLines := rfl
@[simp] theorem State.modDie_peerWaits (s : State) (d : Nat) (f : Die → Die) : (s.modDie d f).peerWaits = s.peerWaits := rfl
@[simp] theorem State.modDie_outbox (s : State) (d : Nat) (f : Die → Die) : (s.modDie d f).outbox = s.outbox := rfl
@[simp] theorem State.modDie_wire (s : State) (d : Nat) (f : Die → Die) : (s.modDie d f).wire = s.wire := rfl
@[simp] theorem State.modDie_hostWait (s : State) (d : Nat) (f : Die → Die) : (s.modDie d f).hostWait = s.hostWait := rfl
@[simp] theorem State.modDie_hostTurn (s : State) (d : Nat) (f : Die → Die) : (s.modDie d f).hostTurn = s.hostTurn := rfl
@[simp] theorem State.modDie_hostOut (s : State) (d : Nat) (f : Die → Die) : (s.modDie d f).hostOut = s.hostOut := rfl
@[simp] theorem State.modDie_lanesUsed (s : State) (d : Nat) (f : Die → Die) : (s.modDie d f).lanesUsed = s.lanesUsed := rfl
@[simp] theorem State.modDie_port (s : State) (d : Nat) (f : Die → Die) : (s.modDie d f).port = s.port := rfl
@[simp] theorem State.modDie_cur (s : State) (d : Nat) (f : Die → Die) : (s.modDie d f).cur = s.cur := rfl
@[simp] theorem State.modDie_agenda (s : State) (d : Nat) (f : Die → Die) : (s.modDie d f).agenda = s.agenda := rfl
@[simp] theorem State.modDie_turn (s : State) (d : Nat) (f : Die → Die) : (s.modDie d f).turn = s.turn := rfl
@[simp] theorem State.modDie_rr (s : State) (d : Nat) (f : Die → Die) : (s.modDie d f).rr = s.rr := rfl
@[simp] theorem State.modDie_nextId (s : State) (d : Nat) (f : Die → Die) : (s.modDie d f).nextId = s.nextId := rfl
@[simp] theorem State.modDie_cycle (s : State) (d : Nat) (f : Die → Die) : (s.modDie d f).cycle = s.cycle := rfl
@[simp] theorem State.modDie_free (s : State) (d : Nat) (f : Die → Die) : (s.modDie d f).free = s.free := rfl
@[simp] theorem State.modDie_boot (s : State) (d : Nat) (f : Die → Die) : (s.modDie d f).boot = s.boot := rfl
@[simp] theorem State.modDie_images (s : State) (d : Nat) (f : Die → Die) : (s.modDie d f).images = s.images := rfl
@[simp] theorem State.modDie_digests (s : State) (d : Nat) (f : Die → Die) : (s.modDie d f).digests = s.digests := rfl
@[simp] theorem State.modDie_fuseKey (s : State) (d : Nat) (f : Die → Die) : (s.modDie d f).fuseKey = s.fuseKey := rfl
@[simp] theorem State.modDie_fuseMin (s : State) (d : Nat) (f : Die → Die) : (s.modDie d f).fuseMin = s.fuseMin := rfl
@[simp] theorem State.modDie_coeffs (s : State) (d : Nat) (f : Die → Die) : (s.modDie d f).coeffs = s.coeffs := rfl
@[simp] theorem State.modDie_left (s : State) (d : Nat) (f : Die → Die) : (s.modDie d f).left = s.left := rfl
@[simp] theorem State.modDie_hostDir (s : State) (d : Nat) (f : Die → Die) : (s.modDie d f).hostDir = s.hostDir := rfl
@[simp] theorem State.modDie_wanted (s : State) (d : Nat) (f : Die → Die) : (s.modDie d f).wanted = s.wanted := rfl
@[simp] theorem State.modDie_picked (s : State) (d : Nat) (f : Die → Die) : (s.modDie d f).picked = s.picked := rfl

/-! ## Identifiers and free values -/

@[simp] theorem State.fresh_fst (s : State) : s.fresh.1 = s.nextId := rfl
@[simp] theorem State.fresh_snd (s : State) : s.fresh.2 = { s with nextId := s.nextId + 1 } := rfl
@[simp] theorem State.freeVal_fst (s : State) : s.freeVal.1 = Config.freeWord s.free := rfl
@[simp] theorem State.freeVal_snd (s : State) : s.freeVal.2 = { s with free := s.free + 1 } := rfl

/-! ## Blocks by number -/

theorem updWhere_find {α : Type} (key : α → Nat) (k : Nat) (f : α → α) (hf : ∀ a, key a = k → key (f a) = k) (l : List α) :
    (updWhere (fun a => key a == k) f l).find? (fun a => key a == k) = (l.find? fun a => key a == k).map f := by
  induction l with
  | nil => rfl
  | cons a l ih =>
    simp only [updWhere, List.map_cons, List.find?_cons] at ih ⊢
    by_cases h : key a = k
    · simp [h, hf a h]
    · have : (key a == k) = false := by simpa using h
      simp only [this, Bool.false_eq_true, if_false]; exact ih

theorem updWhere_find_other {α : Type} (key : α → Nat) (k q : Nat) (f : α → α) (hf : ∀ a, key a = k → key (f a) = k) (h : q ≠ k)
    (l : List α) : (updWhere (fun a => key a == k) f l).find? (fun a => key a == q) = l.find? fun a => key a == q := by
  induction l with
  | nil => rfl
  | cons a l ih =>
    simp only [updWhere, List.map_cons, List.find?_cons] at ih ⊢
    by_cases e : key a = k
    · have e2 : (key (f a) == q) = false := by rw [hf a e]; simpa using Ne.symm h
      have e3 : (key a == q) = false := by rw [e]; simpa using Ne.symm h
      have e4 : (key a == k) = true := by simpa using e
      simp only [e4, if_true, e2, e3]; exact ih
    · have e4 : (key a == k) = false := by simpa using e
      simp only [e4, Bool.false_eq_true, if_false]
      cases key a == q with
      | true => rfl
      | false => exact ih

/-- A block is found under its own number. -/
theorem State.block?_id {s : State} {k : Nat} {b : Block} (h : s.block? k = some b) : b.id = k := by
  have := List.find?_some h; simpa using this

/-- The block put back is found; every other block is as it was. -/
theorem State.block?_setBlock {s : State} {k : Nat} {b : Block} (h : s.block? k = some b) (b' : Block) (e : b'.id = k) :
    (s.setBlock b').block? k = some b' := by
  subst e
  show (updWhere (fun a : Block => a.id == b'.id) (fun _ => b') s.blocks).find? (fun a => a.id == b'.id) = some b'
  rw [updWhere_find Block.id b'.id (fun _ => b') (fun _ _ => rfl) s.blocks]
  show (s.block? b'.id).map (fun _ => b') = some b'
  rw [h]; rfl

theorem State.block?_setBlock_other (s : State) (b : Block) (q : Nat) (h : q ≠ b.id) : (s.setBlock b).block? q = s.block? q :=
  updWhere_find_other Block.id b.id q (fun _ => b) (fun _ _ => rfl) h s.blocks

theorem State.block?_modBlock {s : State} {k : Nat} {b : Block} (h : s.block? k = some b) (f : Block → Block)
    (hf : ∀ x, (f x).id = x.id) : (s.modBlock k f).block? k = some (f b) := by
  show (updWhere (fun a : Block => a.id == k) f s.blocks).find? (fun a => a.id == k) = some (f b)
  rw [updWhere_find Block.id k f (fun a e => (hf a).trans e) s.blocks]
  show (s.block? k).map f = _
  rw [h]; rfl

theorem State.block?_modBlock_other (s : State) (k q : Nat) (f : Block → Block) (hf : ∀ x, (f x).id = x.id) (h : q ≠ k) :
    (s.modBlock k f).block? q = s.block? q :=
  updWhere_find_other Block.id k q f (fun a e => (hf a).trans e) h s.blocks

/-! ## Lanes and groups of a block -/

/-- A lane that the update leaves in some respect as it was. -/
theorem Block.lane_modLanes {β : Type} (b : Block) (p : Nat → Bool) (f : Nat → Lane → Lane) (g : Lane → β)
    (hf : ∀ l ln, p l = true → g (f l ln) = g ln) (l : Nat) : g ((b.modLanes p f).lane l) = g (b.lane l) := by
  simp only [Block.lane, Block.modLanes, List.getD_eq_getElem?_getD, List.getElem?_mapIdx]
  cases b.lanes[l]? with
  | none => rfl
  | some ln =>
    simp only [Option.map_some, Option.getD_some]
    cases h : p l with
    | true => simpa using hf l ln h
    | false => simp

theorem Block.lane_modLanes_in (b : Block) (p : Nat → Bool) (f : Nat → Lane → Lane) (l : Nat) (h : l < b.lanes.length) :
    (b.modLanes p f).lane l = if p l then f l (b.lane l) else b.lane l := by
  simp [Block.lane, Block.modLanes, List.getD_eq_getElem?_getD, List.getElem?_mapIdx, List.getElem?_eq_getElem h]

theorem Block.lanes_modLanes_length (b : Block) (p : Nat → Bool) (f : Nat → Lane → Lane) :
    (b.modLanes p f).lanes.length = b.lanes.length := by simp [Block.modLanes]

theorem Block.group_modGroup {β : Type} (b : Block) (g q : Nat) (f : Group → Group) (h : Group → β)
    (hf : ∀ x, h (f x) = h x) : h ((b.modGroup g f).group q) = h (b.group q) := by
  simp only [Block.group, Block.modGroup, List.getD_eq_getElem?_getD, List.getElem?_modify]
  cases b.groups[q]? with
  | none => rfl
  | some x =>
    by_cases e : g = q
    · simp [e, hf]
    · simp [e]

end Sys2Proof.Machine
end

