-- ==== Sys2Proof/Laws/Issue.lean ====
section
/-! SUPPORT. What the shared operations of an issue can do: pass, issueFixed, issueLong, endRun and holdIssue change nothing
outside the issuing block, and no register file in it. -/

namespace Sys2Proof.Machine

theorem State.SameOutside.rfl' (s : State) : s.SameOutside s := ⟨rfl, rfl, rfl, rfl, rfl, rfl, rfl, rfl, rfl, rfl, rfl⟩

theorem Block.SameFiles.rfl' (b : Block) : b.SameFiles b :=
  ⟨fun _ => rfl, fun _ => rfl, fun _ => rfl, fun _ => rfl, fun _ => rfl, fun _ => rfl, rfl, rfl, rfl, rfl⟩

theorem Block.SameFiles.trans {a b c : Block} (h : a.SameFiles b) (k : b.SameFiles c) : a.SameFiles c :=
  ⟨fun l => (k.regs l).trans (h.regs l), fun l => (k.preds l).trans (h.preds l), fun l => (k.kregs l).trans (h.kregs l),
   fun l => (k.hregs l).trans (h.hregs l), fun l => (k.ctl l).trans (h.ctl l), fun l => (k.mode l).trans (h.mode l),
   k.sets.trans h.sets, k.scratch.trans h.scratch, k.scrPoison.trans h.scrPoison, k.slots.trans h.slots⟩

/-- How a block changes in an operation that leaves its register files alone. -/
structure Block.Quiet (b b' : Block) (flagged drawn : List Nat) : Prop where
  files : b.SameFiles b'
  flags : ∀ l, l ∉ flagged → (b'.lane l).flags = (b.lane l).flags
  rng : ∀ l, l ∉ drawn → (b'.lane l).rng = (b.lane l).rng
  id : b'.id = b.id

theorem Block.Quiet.rfl' (b : Block) (fl dr : List Nat) : b.Quiet b fl dr :=
  ⟨.rfl' b, fun _ _ => rfl, fun _ _ => rfl, rfl⟩

theorem Block.Quiet.trans {a b c : Block} {fl dr : List Nat} (h : a.Quiet b fl dr) (k : b.Quiet c fl dr) : a.Quiet c fl dr :=
  ⟨h.files.trans k.files, fun l m => (k.flags l m).trans (h.flags l m), fun l m => (k.rng l m).trans (h.rng l m),
   k.id.trans h.id⟩

theorem Block.Quiet.mono {a b : Block} {fl dr fl' dr' : List Nat} (h : a.Quiet b fl dr) (hf : ∀ l ∈ fl, l ∈ fl')
    (hd : ∀ l ∈ dr, l ∈ dr') : a.Quiet b fl' dr' :=
  ⟨h.files, fun l m => h.flags l fun x => m (hf l x), fun l m => h.rng l fun x => m (hd l x), h.id⟩

/-- Lanes change in other respects than their files. -/
theorem Block.modLanes_quiet (b : Block) (p : Nat → Bool) (f : Nat → Lane → Lane) (hr : ∀ l ln, (f l ln).regs = ln.regs)
    (hp : ∀ l ln, (f l ln).p = ln.p) (hf : ∀ l ln, (f l ln).flags = ln.flags) (hg : ∀ l ln, (f l ln).rng = ln.rng)
    (fl dr : List Nat) : b.Quiet (b.modLanes p f) fl dr where
  files := {
    regs := b.lane_modLanes p f (·.regs) fun l ln _ => hr l ln
    preds := b.lane_modLanes p f (·.p) fun l ln _ => hp l ln
    kregs := fun _ => rfl, hregs := fun _ => rfl, ctl := fun _ => rfl, mode := fun _ => rfl
    sets := rfl, scratch := rfl, scrPoison := rfl, slots := rfl }
  flags l _ := b.lane_modLanes p f (·.flags) (fun l ln _ => hf l ln) l
  rng l _ := b.lane_modLanes p f (·.rng) (fun l ln _ => hg l ln) l
  id := rfl

/-- Cohorts and rendezvous are no files. -/
theorem Block.cohorts_quiet (b : Block) (cs : List Cohort) (rs : List Rdv) (fl dr : List Nat) :
    b.Quiet { b with cohorts := cs, rdvs := rs } fl dr :=
  ⟨⟨fun _ => rfl, fun _ => rfl, fun _ => rfl, fun _ => rfl, fun _ => rfl, fun _ => rfl, rfl, rfl, rfl, rfl⟩,
   fun _ _ => rfl, fun _ _ => rfl, rfl⟩

/-- Cohorts move and lanes follow them. -/
theorem Block.moved_quiet (b : Block) (cs : List Cohort) (rs : List Rdv) (p : Nat → Bool) (f : Nat → Lane → Lane)
    (hr : ∀ l ln, (f l ln).regs = ln.regs) (hp : ∀ l ln, (f l ln).p = ln.p) (hf : ∀ l ln, (f l ln).flags = ln.flags)
    (hg : ∀ l ln, (f l ln).rng = ln.rng) (fl dr : List Nat) :
    b.Quiet (({ b with cohorts := cs, rdvs := rs } : Block).modLanes p f) fl dr :=
  (b.cohorts_quiet cs rs fl dr).trans (Block.modLanes_quiet _ p f hr hp hf hg fl dr)

theorem Block.moveCohorts_quiet (b : Block) (c : Ctx) (sc : Scope) (st cy : Nat) (fl dr : List Nat) :
    b.Quiet (b.moveCohorts c sc st cy) fl dr := by
  unfold Block.moveCohorts
  split
  · exact b.cohorts_quiet _ _ _ _
  · refine Block.moved_quiet b _ _ _ _ ?_ ?_ ?_ ?_ fl dr <;> (intros; rfl)

theorem Block.advance_quiet (b : Block) (c : Ctx) (h : Head) (cy : Nat) (recv codes : List Nat) (caps : Nat) (ps : List Producer)
    (fl dr : List Nat) : b.Quiet (b.advance c h cy recv codes caps ps) fl dr := by
  unfold Block.advance
  refine (Block.modLanes_quiet b _ _ ?_ ?_ ?_ ?_ fl dr).trans (Block.moveCohorts_quiet _ _ _ _ _ fl dr) <;>
    · intro l ln
      simp only [Lane.step]
      split <;> rfl

theorem State.settleExit_frame {s : State} {b : Block} (h : s.block? b.id = some b) :
    IssueFrame s (s.settleExit b.id) b [] [] := by
  unfold State.settleExit
  rw [h]
  have q : ∀ rs : List Rdv, b.Quiet { b.modLanes (fun _ => true) fun l ln => match ln.st with
      | .between _ m .exiting => if s.awaitDone b l m then { ln with st := .exited } else ln
      | _ => ln with rdvs := rs } [] [] := fun rs => by
    refine (Block.modLanes_quiet b _ _ ?_ ?_ ?_ ?_ [] []).trans (Block.cohorts_quiet _ _ rs [] []) <;>
      · intro l ln
        split
        · split <;> rfl
        · rfl
  exact ⟨⟨rfl, rfl, rfl, rfl, rfl, rfl, rfl, rfl, rfl, rfl, rfl⟩, fun k hk => State.block?_setBlock_other s _ k hk,
    ⟨_, State.block?_setBlock h _ rfl, (q _).files, (q _).flags, (q _).rng⟩⟩

/-- A block put back, and the cursor, identifiers and results in flight changed: the frame of an issue. -/
theorem IssueFrame.of_setBlock {s t : State} {b b' : Block} {fl dr : List Nat} (h : s.block? b.id = some b)
    (q : b.Quiet b' fl dr) (e : t.blocks = (s.setBlock b').blocks) (o : s.SameOutside t) : IssueFrame s t b fl dr := by
  have e2 : ∀ k, t.block? k = (s.setBlock b').block? k := fun k => by simp only [State.block?, e]
  refine ⟨o, fun k hk => ?_, b', ?_, q.files, q.flags, q.rng⟩
  · rw [e2, State.block?_setBlock_other s b' k (by rw [q.id]; exact hk)]
  · rw [e2]; exact State.block?_setBlock h b' q.id

theorem IssueFrame.trans {s t u : State} {b b' : Block} {fl dr : List Nat} (h : IssueFrame s t b fl dr)
    (hb : t.block? b.id = some b') (e : b'.id = b.id) (k : IssueFrame t u b' fl dr) : IssueFrame s u b fl dr := by
  obtain ⟨o, oth, b1, hb1, q, f, r⟩ := h
  obtain ⟨o2, oth2, b2, hb2, q2, f2, r2⟩ := k
  rw [hb] at hb1; cases hb1
  rw [e] at hb2 oth2
  exact ⟨⟨o2.dmem.trans o.dmem, o2.hmem.trans o.hmem, o2.dpoison.trans o.dpoison, o2.hpoison.trans o.hpoison,
      o2.dies.trans o.dies, o2.stores.trans o.stores, o2.launches.trans o.launches, o2.tlb.trans o.tlb,
      o2.sharers.trans o.sharers, o2.leases.trans o.leases, o2.podTime.trans o.podTime⟩,
    fun k hk => (oth2 k hk).trans (oth k hk), b2, hb2, q.trans q2, fun l m => (f2 l m).trans (f l m),
    fun l m => (r2 l m).trans (r l m)⟩

theorem State.pass_frame {s : State} {b : Block} (h : s.block? b.id = some b) (c : Ctx) (hd : Head) :
    IssueFrame s (s.pass b c hd) b [] [] :=
  IssueFrame.of_setBlock h (b.advance_quiet c hd s.cycle [] [] 0 [] [] []) rfl ⟨rfl, rfl, rfl, rfl, rfl, rfl, rfl, rfl, rfl, rfl, rfl⟩

theorem State.issueLong_frame {s : State} {b : Block} (h : s.block? b.id = some b) (c : Ctx) (hd : Head) (w : Work) (d : Opd)
    (n tag : Nat) (body : LongBody) (ready : Bool) (ws : List Wr) :
    IssueFrame s (s.issueLong b c hd w d n tag body ready ws) b [] [] :=
  IssueFrame.of_setBlock h (b.advance_quiet c hd s.cycle [] [] 0 [] [] []) rfl ⟨rfl, rfl, rfl, rfl, rfl, rfl, rfl, rfl, rfl, rfl, rfl⟩

/-- A fixed-latency issue moves the generators of the lanes whose results drew from them, and nothing else. -/
theorem State.issueFixed_frame {s : State} {b : Block} (h : s.block? b.id = some b) (c : Ctx) (hd : Head) (w : Work) (d : Opd)
    (pd lat : Nat) (rs : List (Nat × LaneRes)) (dr : List Nat) (hr : ∀ l, l ∉ dr → (resOf rs l).rng = none ∨ l ∉ w.src) :
    IssueFrame s (s.issueFixed b c hd w d pd lat rs) b [] dr := by
  refine IssueFrame.of_setBlock h (Block.Quiet.trans ?_ (Block.advance_quiet _ c hd s.cycle _ _ _ _ [] dr)) rfl ⟨rfl, rfl, rfl, rfl, rfl, rfl, rfl, rfl, rfl, rfl, rfl⟩
  have key : ∀ {β : Type} (g : Lane → β), (∀ ln v, g { ln with rng := v } = g ln) → ∀ l,
      g ((b.modLanes (fun l => w.src.contains l) fun l ln => match (resOf rs l).rng with
        | some v => { ln with rng := v }
        | none => ln).lane l) = g (b.lane l) := fun g hg l =>
    b.lane_modLanes _ _ g (fun l ln _ => by split <;> simp [hg]) l
  refine ⟨⟨key _ fun _ _ => rfl, key _ fun _ _ => rfl, fun _ => rfl, fun _ => rfl, fun _ => rfl, fun _ => rfl, rfl, rfl, rfl,
    rfl⟩, fun l _ => key _ (fun _ _ => rfl) l, fun l hl => ?_, rfl⟩
  by_cases hm : l < b.lanes.length
  · rw [Block.lane_modLanes_in _ _ _ _ hm]
    rcases hr l hl with e | e
    · split
      · rw [e]
      · rfl
    · rw [if_neg (by simpa using e)]
  · have e1 : ∀ bb : Block, bb.lanes.length = b.lanes.length → bb.lane l = Lane.empty := fun bb hb => by
      simp [Block.lane, List.getD_eq_getElem?_getD, List.getElem?_eq_none (show bb.lanes.length ≤ l by omega)]
    rw [e1 _ (Block.lanes_modLanes_length _ _ _), e1 b rfl]

theorem State.holdIssue_frame {s : State} {b : Block} (h : s.block? b.id = some b) (c : Ctx) (hc : c.blk = b.id) :
    IssueFrame s (s.holdIssue c) b [] [] := by
  have q : ∀ x : Block, x.Quiet (if c.wide then { x with rdvs := updWhere (·.id == c.coh) (fun r => { r with nextIssue := s.cycle + 1 }) x.rdvs }
      else { x with cohorts := updWhere (·.id == c.coh) (fun k => { k with nextIssue := s.cycle + 1 }) x.cohorts }) [] [] := by
    intro x; split <;> exact x.cohorts_quiet _ _ _ _
  refine ⟨⟨rfl, rfl, rfl, rfl, rfl, rfl, rfl, rfl, rfl, rfl, rfl⟩,
    fun k hk => State.block?_modBlock_other s c.blk k _ (fun x => (q x).id) (by rw [hc]; exact hk), _, ?_,
    (q b).files, (q b).flags, (q b).rng⟩
  have e := State.block?_modBlock (s := s) (k := c.blk) (b := b) (by rw [hc]; exact h) _ (fun x => (q x).id)
  exact (congrArg (fun k => (s.holdIssue c).block? k) hc.symm).trans e

theorem IssueFrame.cur {s t : State} {b : Block} {fl dr : List Nat} (h : IssueFrame s t b fl dr) (c : Option Ctx) :
    IssueFrame s { t with cur := c } b fl dr :=
  ⟨⟨h.out.dmem, h.out.hmem, h.out.dpoison, h.out.hpoison, h.out.dies, h.out.stores, h.out.launches, h.out.tlb, h.out.sharers,
    h.out.leases, h.out.podTime⟩, h.others, h.own⟩

/-- A block put back whose files are the same, then settled. -/
theorem State.settled_frame {s : State} {b b' : Block} (h : s.block? b.id = some b) (q : b.Quiet b' [] []) :
    IssueFrame s { (s.setBlock b').settleExit b.id with cur := none } b [] [] := by
  have f1 : IssueFrame s (s.setBlock b') b [] [] :=
    IssueFrame.of_setBlock h q rfl ⟨rfl, rfl, rfl, rfl, rfl, rfl, rfl, rfl, rfl, rfl, rfl⟩
  have hb := State.block?_setBlock h b' q.id
  have hb' : (s.setBlock b').block? b'.id = some b' := by rw [q.id]; exact hb
  have f2 := State.settleExit_frame hb'
  rw [q.id] at f2
  exact (f1.trans hb q.id f2).cur none

theorem State.endRun_frame {s : State} {b : Block} (h : s.block? b.id = some b) (c : Ctx) (aw : BitVec 8) (next : Nat → Nat)
    (hold : Nat → Hold) : IssueFrame s (s.endRun b c aw next hold) b [] [] := by
  unfold State.endRun
  refine State.settled_frame h (Block.Quiet.trans (Block.modLanes_quiet b _ _ ?_ ?_ ?_ ?_ [] []) (Block.cohorts_quiet _ _ _ [] [])) <;>
    (intros; rfl)

/-! ## The frame every meaning is written in -/

/-- A guard that can be read is read by none too early (R35). -/
theorem State.guardShort_pass {s : State} {b : Block} {ls : List Nat} {h : Head} (hg : s.guardGate b ls h = .pass) :
    s.guardShort b ls h = [] := by
  unfold State.guardGate at hg
  split at hg
  · rename_i hp; unfold State.guardShort; rw [hp]; rfl
  · split at hg
    · assumption
    · cases hg

/-- Checks 3 to 7 let an instruction go on where none of them fails and its guard can be read. -/
theorem State.gated_eq {s : State} {b : Block} {c : Ctx} {i : Instr} {h : Head} {src recv : List Nat} {sps : List SrcSpec}
    {ws preds : List Nat} {k : Out} (hi : Issuing s b c h) (hg : s.gate b src recv sps ws preds = .pass) :
    s.gated b c i h src recv sps ws preds k = k := by
  simp [State.gated, State.gatedBy, hg, State.guardShort_pass hi.guard]

/-- An instruction that reads and writes no register passes checks 3 to 7. -/
@[simp] theorem State.gate_nil (s : State) (b : Block) (src : List Nat) : s.gate b src [] [] [] [] = .pass := by
  have e : src.filter (fun _ => false) = [] := List.filter_eq_nil_iff.2 fun _ _ h => Bool.noConfusion h
  simp [State.gate, codesOf, failing, failingSrc, State.busy, State.stallFails, e]

/-- A meaning runs in the issuing context where nothing holds it before its own checks. -/
theorem State.issue_eq {s : State} {b : Block} {c : Ctx} {i : Instr} {h : Head} {k : Block → Ctx → Out} (hi : Issuing s b c h) :
    s.issue i h k = k b c := by
  obtain ⟨h1, h2, h3, h4⟩ := hi
  have hw : (h.scope != Scope.lane && !c.wide) = false := by
    rcases h3 with h3 | h3 <;> simp [h3]
  unfold State.issue
  rw [h1]; dsimp only
  rw [h2]; dsimp only
  rw [hw, h4]; rfl

/-- An instruction of fixed latency that no check stops issues its results. -/
theorem State.alu_eq {s : State} {b : Block} {c : Ctx} {i : Instr} {h : Head} {sps : List SrcSpec} {preds : List Nat} {d : Opd}
    {n pd lat : Nat} {f : Block → Work → Nat → LaneRes} (hi : Issuing s b c h) (hc : Clear s b h (b.work c h) sps d n pd preds) :
    s.alu i h sps preds d n pd lat f =
      .next (s.issueFixed b c h (b.work c h) d pd lat ((b.work c h).src.map fun l => (l, f b (b.work c h) l))) := by
  unfold State.alu
  rw [State.issue_eq hi]
  simp [hc.acts, State.gated_eq hi hc.gate]

/-- A terminator for which no imprecise trap is due goes on. -/
theorem State.late_eq {s : State} {b : Block} {c : Ctx} {h : Head} {tst : Bool} {k : Out} (hd : b.dueRefusal c = none)
    (ht : tst = false ∨ b.tsErr = none) : s.late b c h tst k = k := by
  unfold State.late
  split
  · rfl
  · rw [hd]; dsimp only
    rcases ht with ht | ht
    · subst ht; rfl
    · rw [ht]; cases tst <;> rfl

/-- An instruction none of whose own checks fails goes on. -/
theorem State.checked_eq {s : State} {b : Block} {c : Ctx} {h : Head} {l : List (Nat × Option Bad)} {k : Out}
    (hb : ∀ p ∈ l, p.2 = none) : s.checked b c h l k = k := by
  have : firstBad l = none := by
    unfold firstBad
    have e : (l.filterMap fun (m, b) => b.map fun b => (m, b)) = [] := by
      simp only [List.filterMap_eq_nil_iff]
      intro p hp; have := hb p hp; rcases p with ⟨m, q⟩; simp only at this; subst this; rfl
    simp only [e]; rfl
  unfold State.checked
  rw [this]

/-- Keeping an import entry changes the entries held and nothing else (R414). -/
theorem State.keepImport_eq (s : State) (v n : Nat) : ∃ m, s.keepImport v n = { s with imports := m } := by
  unfold State.keepImport
  repeat' split
  all_goals first | exact ⟨_, rfl⟩ | exact ⟨s.imports, rfl⟩

/-- So does keeping those that an instruction's pointers use. -/
theorem State.keepImports_eq (s : State) (b : Block) (ps : List (BitVec 128)) :
    ∃ m, s.keepImports b ps = { s with imports := m } := by
  unfold State.keepImports
  generalize importSlots ps = l
  induction l generalizing s with
  | nil => exact ⟨s.imports, rfl⟩
  | cons n l ih =>
    obtain ⟨m, e⟩ := s.keepImport_eq b.view n
    obtain ⟨k, e2⟩ := ih (s.keepImport b.view n)
    exact ⟨k, by rw [List.foldl_cons, e2, e]⟩

end Sys2Proof.Machine
end

