-- ==== Sys2Proof/Laws/Memory.lean ====
section
/-! SUPPORT. Laws of sparse maps and of memory: the canonical form is kept, a write is read back, every other key is left
alone. -/

namespace Sys2Proof.Machine

/-! ## Sparse maps -/

theorem Sparse.wfFrom_mono {α : Type} [DecidableEq α] (d : α) (m : Map α) (lo hi : Nat) (h : lo ≤ hi)
    (w : Sparse.wfFrom d hi m = true) : Sparse.wfFrom d lo m = true := by
  cases m with
  | nil => rfl
  | cons e m =>
    obtain ⟨k, v⟩ := e
    simp only [Sparse.wfFrom, Bool.and_eq_true, decide_eq_true_eq] at w ⊢
    exact ⟨⟨Nat.le_trans h w.1.1, w.1.2⟩, w.2⟩

theorem Sparse.set_wfFrom {α : Type} [DecidableEq α] (d : α) (m : Map α) (lo k : Nat) (v : α) (hk : lo ≤ k)
    (w : Sparse.wfFrom d lo m = true) : Sparse.wfFrom d lo (Sparse.set d m k v) = true := by
  induction m generalizing lo with
  | nil =>
    simp only [Sparse.set]
    split
    · rfl
    · simp [Sparse.wfFrom, hk, *]
  | cons e m ih =>
    obtain ⟨k', v'⟩ := e
    simp only [Sparse.wfFrom, Bool.and_eq_true, decide_eq_true_eq, bne_iff_ne] at w
    obtain ⟨⟨h1, h2⟩, h3⟩ := w
    simp only [Sparse.set]
    split
    · split
      · simp only [Sparse.wfFrom, Bool.and_eq_true, decide_eq_true_eq, bne_iff_ne]; exact ⟨⟨h1, h2⟩, h3⟩
      · simp only [Sparse.wfFrom, Bool.and_eq_true, decide_eq_true_eq, bne_iff_ne]
        exact ⟨⟨hk, ‹_›⟩, ⟨by omega, h2⟩, h3⟩
    · split
      · split
        · exact Sparse.wfFrom_mono d m lo (k' + 1) (by omega) h3
        · subst k'
          simp only [Sparse.wfFrom, Bool.and_eq_true, decide_eq_true_eq, bne_iff_ne]
          exact ⟨⟨hk, ‹_›⟩, h3⟩
      · simp only [Sparse.wfFrom, Bool.and_eq_true, decide_eq_true_eq, bne_iff_ne]
        exact ⟨⟨h1, h2⟩, ih (k' + 1) (by omega) h3⟩

/-- A write keeps the canonical form. -/
theorem Sparse.set_wf {α : Type} [DecidableEq α] (d : α) (m : Map α) (k : Nat) (v : α) (w : Sparse.wf d m = true) :
    Sparse.wf d (Sparse.set d m k v) = true :=
  Sparse.set_wfFrom d m 0 k v (Nat.zero_le k) w

theorem Sparse.get_below {α : Type} [DecidableEq α] (d : α) (m : Map α) (lo k : Nat) (hk : k < lo)
    (w : Sparse.wfFrom d lo m = true) : Sparse.get d m k = d := by
  cases m with
  | nil => rfl
  | cons e m =>
    obtain ⟨k', v'⟩ := e
    simp only [Sparse.wfFrom, Bool.and_eq_true, decide_eq_true_eq] at w
    simp only [Sparse.get, if_neg (show ¬ k = k' by omega), if_pos (show k < k' by omega)]

theorem Sparse.get_setFrom {α : Type} [DecidableEq α] (d : α) (m : Map α) (lo k q : Nat) (v : α)
    (w : Sparse.wfFrom d lo m = true) :
    Sparse.get d (Sparse.set d m k v) q = if q = k then v else Sparse.get d m q := by
  induction m generalizing lo with
  | nil =>
    simp only [Sparse.set]
    by_cases hv : v = d
    · simp [hv, Sparse.get]
    · simp only [hv, if_false, Sparse.get]
      by_cases hq : q = k
      · simp [hq]
      · simp [hq]
  | cons e m ih =>
    obtain ⟨k', v'⟩ := e
    simp only [Sparse.wfFrom, Bool.and_eq_true, decide_eq_true_eq] at w
    obtain ⟨-, h3⟩ := w
    simp only [Sparse.set]
    by_cases hlt : k < k'
    · rw [if_pos hlt]
      by_cases hv : v = d
      · rw [if_pos hv]
        by_cases hq : q = k
        · subst q; simp [Sparse.get, show ¬ k = k' by omega, hlt, hv]
        · simp [hq]
      · rw [if_neg hv]
        by_cases hq : q = k
        · simp [Sparse.get, hq]
        · by_cases h2 : q < k
          · simp [Sparse.get, hq, h2, show ¬ q = k' by omega, show q < k' by omega]
          · simp [Sparse.get, hq, h2]
    · rw [if_neg hlt]
      by_cases he : k = k'
      · subst k'
        rw [if_pos rfl]
        by_cases hv : v = d
        · rw [if_pos hv]
          by_cases hq : q = k
          · subst q; rw [if_pos rfl, hv]; exact Sparse.get_below d m (k + 1) k (by omega) h3
          · rw [if_neg hq]
            by_cases h2 : q < k
            · simp only [Sparse.get, if_neg hq, if_pos h2]
              exact Sparse.get_below d m (k + 1) q (by omega) h3
            · simp [Sparse.get, hq, h2]
        · rw [if_neg hv]
          by_cases hq : q = k
          · simp [Sparse.get, hq]
          · simp [Sparse.get, hq]
      · rw [if_neg he]
        simp only [Sparse.get]
        by_cases hq : q = k'
        · simp [hq, show ¬ k' = k by omega]
        · simp only [if_neg hq]
          by_cases h2 : q < k'
          · simp [h2, show ¬ q = k by omega]
          · simp only [if_neg h2]; exact ih (k' + 1) h3

/-- Read after write, at the key and at every other key. -/
theorem Sparse.get_set {α : Type} [DecidableEq α] (d : α) (m : Map α) (k q : Nat) (v : α) (w : Sparse.wf d m = true) :
    Sparse.get d (Sparse.set d m k v) q = if q = k then v else Sparse.get d m q :=
  Sparse.get_setFrom d m 0 k q v w

/-- Consecutive writes keep the canonical form. -/
theorem Sparse.setList_wf {α : Type} [DecidableEq α] (d : α) (vs : List α) (m : Map α) (k : Nat) (w : Sparse.wf d m = true) :
    Sparse.wf d (Sparse.setList d m k vs) = true := by
  induction vs generalizing m k with
  | nil => exact w
  | cons v vs ih => exact ih _ _ (Sparse.set_wf d m k v w)

/-! ## Memory -/

theorem Memory.write_wf (m : List Host.Cell) (a : Nat) (v : Byte) (w : Memory.wf m = true) :
    Memory.wf (Memory.write m a v) = true := Sparse.set_wf memDefault m a v w

theorem Memory.writeN_wf (m : List Host.Cell) (a : Nat) (bs : List Byte) (w : Memory.wf m = true) :
    Memory.wf (Memory.writeN m a bs) = true := Sparse.setList_wf memDefault bs m a w

theorem Memory.read_write (m : List Host.Cell) (a q : Nat) (v : Byte) (w : Memory.wf m = true) :
    Memory.read (Memory.write m a v) q = if q = a then v else Memory.read m q := Sparse.get_set memDefault m a q v w

/-- Every write of a byte keeps both memories in canonical form. -/
theorem State.writeByte_inv (s : State) (p : Place) (v : Byte) (h : s.Inv) : (s.writeByte p v).Inv := by
  obtain ⟨h1, h2⟩ := h
  cases p with
  | dev a =>
    simp only [State.writeByte]
    split
    · exact ⟨h1, h2⟩
    · exact ⟨Memory.write_wf _ _ _ h1, h2⟩
  | host a =>
    simp only [State.writeByte]
    split
    · exact ⟨h1, Memory.write_wf _ _ _ h2⟩
    · exact ⟨h1, h2⟩
  | scr b o => exact ⟨h1, h2⟩
  | peer p d e g t o => exact ⟨h1, h2⟩
  | err => exact ⟨h1, h2⟩

/-- A list of byte writes keeps both memories in canonical form. -/
theorem State.writeBytes_inv (s : State) (pv : List (Place × Byte)) (h : s.Inv) : (s.writeBytes pv).Inv := by
  induction pv generalizing s with
  | nil => exact h
  | cons e r ih => exact ih _ (State.writeByte_inv s e.1 e.2 h)

/-- What an operation that leaves both memories as they were does to the invariant. -/
theorem State.Inv.of_same {s t : State} (h : s.Inv) (d : t.dmem = s.dmem) (m : t.hmem = s.hmem) : t.Inv := by
  obtain ⟨h1, h2⟩ := h
  exact ⟨d ▸ h1, m ▸ h2⟩

end Sys2Proof.Machine
end

