-- ==== Sys2Proof/Laws/PerInstr.lean ====
section
/-! SUPPORT. Facts about every instruction, one lemma a constructor. -/

namespace Sys2Proof.Laws

theorem words_length (o : Opd) : o.words.length ≤ if o.isLit then 2 else 0 := by cases o <;> simp [Opd.words, Opd.isLit]

/-- The literals of a list of operands take at most two words each (R106). -/
theorem literals_length (os : List Opd) : (os.flatMap Opd.words).length ≤ 2 * (os.filter Opd.isLit).length := by
  induction os with
  | nil => simp
  | cons o os ih =>
    have := words_length o
    rw [List.flatMap_cons, List.length_append, List.filter_cons]
    split <;> simp_all <;> omega

theorem encode_length {i : Instr} {g : Base} {os : List Opd} (hf : i.fields = some (g, os))
    (hl : (os.filter Opd.isLit).length ≤ 2) : 2 ≤ i.encode.length ∧ i.encode.length ≤ 6 := by
  have := literals_length os
  simp only [Instr.encode, hf, List.length_cons]
  omega

theorem encode_length_short {i : Instr} {g : Base} {os : List Opd} (hf : i.fields = some (g, os)) (hl : os.length ≤ 2) :
    2 ≤ i.encode.length ∧ i.encode.length ≤ 6 :=
  encode_length hf (Nat.le_trans (List.length_filter_le _ _) hl)

theorem pointer_literals {h : Head} {p a b : Opd} (hp : ptrOk h p = true) : ([p, a, b].filter Opd.isLit).length ≤ 2 := by
  have e : p.isLit = false := by cases p <;> first | rfl | exact absurd hp (by simp [ptrOk])
  rw [List.filter_cons, e]
  exact List.length_filter_le _ [a, b]

/-- FAMILY Encoded: the encoding of a well-formed instruction has 2 to 6 words (R104). -/
def Encoded.Statement (i : Instr) : Prop := i.wf = true → 2 ≤ i.encode.length ∧ i.encode.length ≤ 6

theorem Encoded.runend (h : Head) (await : BitVec 8) : Encoded.Statement (.runend h await) :=
  fun _ => encode_length_short (i := .runend h await) rfl (Nat.zero_le 2)
theorem Encoded.br (h : Head) (off : BitVec 24) (await : BitVec 8) : Encoded.Statement (.br h off await) :=
  fun _ => encode_length_short (i := .br h off await) rfl (Nat.zero_le 2)
theorem Encoded.brc (h : Head) (off : BitVec 24) (await : BitVec 8) (cneg : Bool) (cpred : BitVec 3) : Encoded.Statement (.brc h off await cneg cpred) :=
  fun _ => encode_length_short (i := .brc h off await cneg cpred) rfl (Nat.zero_le 2)
theorem Encoded.brx (h : Head) (a : Opd) (await : BitVec 8) : Encoded.Statement (.brx h a await) :=
  fun _ => encode_length_short (i := .brx h a await) rfl (Nat.le_succ 1)
theorem Encoded.call (h : Head) (off : BitVec 24) (await : BitVec 8) (link : Fin 192) : Encoded.Statement (.call h off await link) :=
  fun _ => encode_length_short (i := .call h off await link) rfl (Nat.zero_le 2)
theorem Encoded.ret (h : Head) (a : Opd) (await : BitVec 8) : Encoded.Statement (.ret h a await) :=
  fun _ => encode_length_short (i := .ret h a await) rfl (Nat.le_succ 1)
theorem Encoded.exit (h : Head) (await : BitVec 8) : Encoded.Statement (.exit h await) :=
  fun _ => encode_length_short (i := .exit h await) rfl (Nat.zero_le 2)
theorem Encoded.yield (h : Head) (await : BitVec 8) : Encoded.Statement (.yield h await) :=
  fun _ => encode_length_short (i := .yield h await) rfl (Nat.zero_le 2)
theorem Encoded.bar (h : Head) (await : BitVec 8) : Encoded.Statement (.bar h await) :=
  fun _ => encode_length_short (i := .bar h await) rfl (Nat.zero_le 2)
theorem Encoded.waitc (h : Head) (ctr : Ctr) (thresh : BitVec 6) (await : BitVec 8) : Encoded.Statement (.waitc h ctr thresh await) :=
  fun _ => encode_length_short (i := .waitc h ctr thresh await) rfl (Nat.zero_le 2)
theorem Encoded.waitm (h : Head) (rel : WRel) (dword : Bool) (ptr : Opd) (cmp : Opd) (await : BitVec 8) : Encoded.Statement (.waitm h rel dword ptr cmp await) :=
  fun _ => encode_length_short (i := .waitm h rel dword ptr cmp await) rfl (Nat.le_refl 2)
theorem Encoded.regroup (h : Head) (a : Opd) (await : BitVec 8) : Encoded.Statement (.regroup h a await) :=
  fun _ => encode_length_short (i := .regroup h a await) rfl (Nat.le_succ 1)
theorem Encoded.chkpt (h : Head) (off : BitVec 24) (await : BitVec 8) : Encoded.Statement (.chkpt h off await) :=
  fun _ => encode_length_short (i := .chkpt h off await) rfl (Nat.zero_le 2)
theorem Encoded.setd (h : Head) (setno : BitVec 2) (diss : Bool) (a : Opd) : Encoded.Statement (.setd h setno diss a) :=
  fun _ => encode_length_short (i := .setd h setno diss a) rfl (Nat.le_succ 1)
theorem Encoded.nop (h : Head) : Encoded.Statement (.nop h) :=
  fun _ => encode_length_short (i := .nop h) rfl (Nat.zero_le 2)
theorem Encoded.iadd (h : Head) (f : Tag) (sat : Bool) (o : O3) : Encoded.Statement (.iadd h f sat o) :=
  fun _ => encode_length_short (i := .iadd h f sat o) rfl (Nat.le_refl 2)
theorem Encoded.isub (h : Head) (f : Tag) (sat : Bool) (o : O3) : Encoded.Statement (.isub h f sat o) :=
  fun _ => encode_length_short (i := .isub h f sat o) rfl (Nat.le_refl 2)
theorem Encoded.iaddc (h : Head) (f : Tag) (cin : BitVec 3) (pd : BitVec 3) (o : O3) : Encoded.Statement (.iaddc h f cin pd o) :=
  fun _ => encode_length_short (i := .iaddc h f cin pd o) rfl (Nat.le_refl 2)
theorem Encoded.imul (h : Head) (f : Tag) (sat : Bool) (o : O3) : Encoded.Statement (.imul h f sat o) :=
  fun _ => encode_length_short (i := .imul h f sat o) rfl (Nat.le_refl 2)
theorem Encoded.imulh (h : Head) (f : Tag) (o : O3) : Encoded.Statement (.imulh h f o) :=
  fun _ => encode_length_short (i := .imulh h f o) rfl (Nat.le_refl 2)
theorem Encoded.imad (h : Head) (f : Tag) (sat : Bool) (o : O4) : Encoded.Statement (.imad h f sat o) :=
  fun ok => encode_length (i := .imad h f sat o) rfl (by
  simp only [Instr.wf, Bool.and_eq_true, litsOk, decide_eq_true_eq] at ok; exact ok.2)
theorem Encoded.imadw (h : Head) (f : Tag) (hi : Bool) (sat : Bool) (o : O4) : Encoded.Statement (.imadw h f hi sat o) :=
  fun ok => encode_length (i := .imadw h f hi sat o) rfl (by
  simp only [Instr.wf, Bool.and_eq_true, litsOk, decide_eq_true_eq] at ok; exact ok.2)
theorem Encoded.imin (h : Head) (f : Tag) (o : O3) : Encoded.Statement (.imin h f o) :=
  fun _ => encode_length_short (i := .imin h f o) rfl (Nat.le_refl 2)
theorem Encoded.imax (h : Head) (f : Tag) (o : O3) : Encoded.Statement (.imax h f o) :=
  fun _ => encode_length_short (i := .imax h f o) rfl (Nat.le_refl 2)
theorem Encoded.iabs (h : Head) (f : Tag) (sat : Bool) (o : O2) : Encoded.Statement (.iabs h f sat o) :=
  fun _ => encode_length_short (i := .iabs h f sat o) rfl (Nat.le_succ 1)
theorem Encoded.ineg (h : Head) (f : Tag) (sat : Bool) (o : O2) : Encoded.Statement (.ineg h f sat o) :=
  fun _ => encode_length_short (i := .ineg h f sat o) rfl (Nat.le_succ 1)
theorem Encoded.icmp (h : Head) (f : Tag) (rel : IRel) (pd : BitVec 3) (a b : Opd) : Encoded.Statement (.icmp h f rel pd a b) :=
  fun _ => encode_length_short (i := .icmp h f rel pd a b) rfl (Nat.le_refl 2)
theorem Encoded.sel (h : Head) (p : BitVec 3) (o : O3) : Encoded.Statement (.sel h p o) :=
  fun _ => encode_length_short (i := .sel h p o) rfl (Nat.le_refl 2)
theorem Encoded.mov (h : Head) (f : Option Tag) (o : O2) : Encoded.Statement (.mov h f o) :=
  fun _ => encode_length_short (i := .mov h f o) rfl (Nat.le_succ 1)
theorem Encoded.movk (h : Head) (o : O3) : Encoded.Statement (.movk h o) :=
  fun _ => encode_length_short (i := .movk h o) rfl (Nat.le_refl 2)
theorem Encoded.srd (h : Head) (r : SReg) (clr : Bool) (d : Opd) : Encoded.Statement (.srd h r clr d) :=
  fun _ => encode_length_short (i := .srd h r clr d) rfl (Nat.zero_le 2)
theorem Encoded.shl (h : Head) (f : Tag) (sat : Bool) (o : O3) : Encoded.Statement (.shl h f sat o) :=
  fun _ => encode_length_short (i := .shl h f sat o) rfl (Nat.le_refl 2)
theorem Encoded.shr (h : Head) (f : Tag) (o : O3) : Encoded.Statement (.shr h f o) :=
  fun _ => encode_length_short (i := .shr h f o) rfl (Nat.le_refl 2)
theorem Encoded.sar (h : Head) (f : Tag) (o : O3) : Encoded.Statement (.sar h f o) :=
  fun _ => encode_length_short (i := .sar h f o) rfl (Nat.le_refl 2)
theorem Encoded.rol (h : Head) (f : Tag) (o : O3) : Encoded.Statement (.rol h f o) :=
  fun _ => encode_length_short (i := .rol h f o) rfl (Nat.le_refl 2)
theorem Encoded.popc (h : Head) (f : Tag) (o : O2) : Encoded.Statement (.popc h f o) :=
  fun _ => encode_length_short (i := .popc h f o) rfl (Nat.le_succ 1)
theorem Encoded.clz (h : Head) (f : Tag) (o : O2) : Encoded.Statement (.clz h f o) :=
  fun _ => encode_length_short (i := .clz h f o) rfl (Nat.le_succ 1)
theorem Encoded.ctz (h : Head) (f : Tag) (o : O2) : Encoded.Statement (.ctz h f o) :=
  fun _ => encode_length_short (i := .ctz h f o) rfl (Nat.le_succ 1)
theorem Encoded.brev (h : Head) (f : Tag) (o : O2) : Encoded.Statement (.brev h f o) :=
  fun _ => encode_length_short (i := .brev h f o) rfl (Nat.le_succ 1)
theorem Encoded.bfx (h : Head) (f : Tag) (o : O3) : Encoded.Statement (.bfx h f o) :=
  fun _ => encode_length_short (i := .bfx h f o) rfl (Nat.le_refl 2)
theorem Encoded.bfi (h : Head) (f : Tag) (o : O4) : Encoded.Statement (.bfi h f o) :=
  fun ok => encode_length (i := .bfi h f o) rfl (by
  simp only [Instr.wf, Bool.and_eq_true, litsOk, decide_eq_true_eq] at ok; exact ok.2)
theorem Encoded.plop (h : Head) (lut : BitVec 8) (pd : BitVec 3) (a b c : BitVec 3) : Encoded.Statement (.plop h lut pd a b c) :=
  fun _ => encode_length_short (i := .plop h lut pd a b c) rfl (Nat.zero_le 2)
theorem Encoded.and (h : Head) (o : O3) : Encoded.Statement (.and h o) :=
  fun _ => encode_length_short (i := .and h o) rfl (Nat.le_refl 2)
theorem Encoded.or (h : Head) (o : O3) : Encoded.Statement (.or h o) :=
  fun _ => encode_length_short (i := .or h o) rfl (Nat.le_refl 2)
theorem Encoded.xor (h : Head) (o : O3) : Encoded.Statement (.xor h o) :=
  fun _ => encode_length_short (i := .xor h o) rfl (Nat.le_refl 2)
theorem Encoded.andn (h : Head) (o : O3) : Encoded.Statement (.andn h o) :=
  fun _ => encode_length_short (i := .andn h o) rfl (Nat.le_refl 2)
theorem Encoded.prmb (h : Head) (o : O4) : Encoded.Statement (.prmb h o) :=
  fun ok => encode_length (i := .prmb h o) rfl (by
  simp only [Instr.wf, Bool.and_eq_true, litsOk, decide_eq_true_eq] at ok; exact ok.2)
theorem Encoded.iaddPacked (h : Head) (f : Tag) (sat : Bool) (o : O3) : Encoded.Statement (.iaddPacked h f sat o) :=
  fun _ => encode_length_short (i := .iaddPacked h f sat o) rfl (Nat.le_refl 2)
theorem Encoded.isubPacked (h : Head) (f : Tag) (sat : Bool) (o : O3) : Encoded.Statement (.isubPacked h f sat o) :=
  fun _ => encode_length_short (i := .isubPacked h f sat o) rfl (Nat.le_refl 2)
theorem Encoded.iminPacked (h : Head) (f : Tag) (o : O3) : Encoded.Statement (.iminPacked h f o) :=
  fun _ => encode_length_short (i := .iminPacked h f o) rfl (Nat.le_refl 2)
theorem Encoded.imaxPacked (h : Head) (f : Tag) (o : O3) : Encoded.Statement (.imaxPacked h f o) :=
  fun _ => encode_length_short (i := .imaxPacked h f o) rfl (Nat.le_refl 2)
theorem Encoded.imac2 (h : Head) (o : O4) : Encoded.Statement (.imac2 h o) :=
  fun ok => encode_length (i := .imac2 h o) rfl (by
  simp only [Instr.wf, Bool.and_eq_true, litsOk, decide_eq_true_eq] at ok; exact ok.2)
theorem Encoded.idot4 (h : Head) (f : Tag) (sat : Bool) (o : O4) : Encoded.Statement (.idot4 h f sat o) :=
  fun ok => encode_length (i := .idot4 h f sat o) rfl (by
  simp only [Instr.wf, Bool.and_eq_true, litsOk, decide_eq_true_eq] at ok; exact ok.2)
theorem Encoded.shrr (h : Head) (f : Tag) (o : O4) : Encoded.Statement (.shrr h f o) :=
  fun ok => encode_length (i := .shrr h f o) rfl (by
  simp only [Instr.wf, Bool.and_eq_true, litsOk, decide_eq_true_eq] at ok; exact ok.2)
theorem Encoded.isat (h : Head) (f : Tag) (o : O3) : Encoded.Statement (.isat h f o) :=
  fun _ => encode_length_short (i := .isat h f o) rfl (Nat.le_refl 2)
theorem Encoded.fadd (h : Head) (f : Tag) (rm : RM) (o : O3) : Encoded.Statement (.fadd h f rm o) :=
  fun _ => encode_length_short (i := .fadd h f rm o) rfl (Nat.le_refl 2)
theorem Encoded.fsub (h : Head) (f : Tag) (rm : RM) (o : O3) : Encoded.Statement (.fsub h f rm o) :=
  fun _ => encode_length_short (i := .fsub h f rm o) rfl (Nat.le_refl 2)
theorem Encoded.fmul (h : Head) (f : Tag) (rm : RM) (o : O3) : Encoded.Statement (.fmul h f rm o) :=
  fun _ => encode_length_short (i := .fmul h f rm o) rfl (Nat.le_refl 2)
theorem Encoded.ffma (h : Head) (f : Tag) (rm : RM) (o : O4) : Encoded.Statement (.ffma h f rm o) :=
  fun ok => encode_length (i := .ffma h f rm o) rfl (by
  simp only [Instr.wf, Bool.and_eq_true, litsOk, decide_eq_true_eq] at ok; exact ok.2)
theorem Encoded.fmin (h : Head) (f : Tag) (o : O3) : Encoded.Statement (.fmin h f o) :=
  fun _ => encode_length_short (i := .fmin h f o) rfl (Nat.le_refl 2)
theorem Encoded.fmax (h : Head) (f : Tag) (o : O3) : Encoded.Statement (.fmax h f o) :=
  fun _ => encode_length_short (i := .fmax h f o) rfl (Nat.le_refl 2)
theorem Encoded.fabs (h : Head) (f : Tag) (o : O2) : Encoded.Statement (.fabs h f o) :=
  fun _ => encode_length_short (i := .fabs h f o) rfl (Nat.le_succ 1)
theorem Encoded.fneg (h : Head) (f : Tag) (o : O2) : Encoded.Statement (.fneg h f o) :=
  fun _ => encode_length_short (i := .fneg h f o) rfl (Nat.le_succ 1)
theorem Encoded.fcmp (h : Head) (f : Tag) (rel : FRel) (pd : BitVec 3) (a b : Opd) : Encoded.Statement (.fcmp h f rel pd a b) :=
  fun _ => encode_length_short (i := .fcmp h f rel pd a b) rfl (Nat.le_refl 2)
theorem Encoded.fclass (h : Head) (f : Tag) (sel : ClassSel) (o : O2) : Encoded.Statement (.fclass h f sel o) :=
  fun _ => encode_length_short (i := .fclass h f sel o) rfl (Nat.le_succ 1)
theorem Encoded.frnd (h : Head) (f : Tag) (rm : RM) (o : O2) : Encoded.Statement (.frnd h f rm o) :=
  fun _ => encode_length_short (i := .frnd h f rm o) rfl (Nat.le_succ 1)
theorem Encoded.fdot2 (h : Head) (rm : RM) (o : O4) : Encoded.Statement (.fdot2 h rm o) :=
  fun ok => encode_length (i := .fdot2 h rm o) rfl (by
  simp only [Instr.wf, Bool.and_eq_true, litsOk, decide_eq_true_eq] at ok; exact ok.2)
theorem Encoded.frcp (h : Head) (f : Tag) (rm : RM) (tag : BitVec 3) (o : O2) : Encoded.Statement (.frcp h f rm tag o) :=
  fun _ => encode_length_short (i := .frcp h f rm tag o) rfl (Nat.le_succ 1)
theorem Encoded.frsq (h : Head) (f : Tag) (rm : RM) (tag : BitVec 3) (o : O2) : Encoded.Statement (.frsq h f rm tag o) :=
  fun _ => encode_length_short (i := .frsq h f rm tag o) rfl (Nat.le_succ 1)
theorem Encoded.fsqrt (h : Head) (f : Tag) (rm : RM) (tag : BitVec 3) (o : O2) : Encoded.Statement (.fsqrt h f rm tag o) :=
  fun _ => encode_length_short (i := .fsqrt h f rm tag o) rfl (Nat.le_succ 1)
theorem Encoded.fexp2 (h : Head) (f : Tag) (rm : RM) (tag : BitVec 3) (o : O2) : Encoded.Statement (.fexp2 h f rm tag o) :=
  fun _ => encode_length_short (i := .fexp2 h f rm tag o) rfl (Nat.le_succ 1)
theorem Encoded.flog2 (h : Head) (f : Tag) (rm : RM) (tag : BitVec 3) (o : O2) : Encoded.Statement (.flog2 h f rm tag o) :=
  fun _ => encode_length_short (i := .flog2 h f rm tag o) rfl (Nat.le_succ 1)
theorem Encoded.fsin (h : Head) (f : Tag) (rm : RM) (tag : BitVec 3) (o : O2) : Encoded.Statement (.fsin h f rm tag o) :=
  fun _ => encode_length_short (i := .fsin h f rm tag o) rfl (Nat.le_succ 1)
theorem Encoded.fcos (h : Head) (f : Tag) (rm : RM) (tag : BitVec 3) (o : O2) : Encoded.Statement (.fcos h f rm tag o) :=
  fun _ => encode_length_short (i := .fcos h f rm tag o) rfl (Nat.le_succ 1)
theorem Encoded.ftanh (h : Head) (f : Tag) (rm : RM) (tag : BitVec 3) (o : O2) : Encoded.Statement (.ftanh h f rm tag o) :=
  fun _ => encode_length_short (i := .ftanh h f rm tag o) rfl (Nat.le_succ 1)
theorem Encoded.cvt (h : Head) (sf df : Tag) (rm : RM) (sat : Bool) (part : BitVec 2) (d a c : Opd) : Encoded.Statement (.cvt h sf df rm sat part d a c) :=
  fun _ => encode_length_short (i := .cvt h sf df rm sat part d a c) rfl (Nat.le_refl 2)
theorem Encoded.cvtf8 (h : Head) (sf df : Tag) (rm : RM) (sat : Bool) (part : BitVec 2) (d a c : Opd) : Encoded.Statement (.cvtf8 h sf df rm sat part d a c) :=
  fun _ => encode_length_short (i := .cvtf8 h sf df rm sat part d a c) rfl (Nat.le_refl 2)
theorem Encoded.pack6 (h : Head) (sf : Tag) (df : EFmt) (rm : RM) (part : BitVec 2) (d a c : Opd) : Encoded.Statement (.pack6 h sf df rm part d a c) :=
  fun _ => encode_length_short (i := .pack6 h sf df rm part d a c) rfl (Nat.le_refl 2)
theorem Encoded.pack4 (h : Head) (sf : Tag) (rm : RM) (part : BitVec 2) (o : O4) : Encoded.Statement (.pack4 h sf rm part o) :=
  fun ok => encode_length (i := .pack4 h sf rm part o) rfl (by
  simp only [Instr.wf, Bool.and_eq_true, litsOk, decide_eq_true_eq] at ok; exact ok.2)
theorem Encoded.unpk (h : Head) (sf : EFmt) (df : Tag) (rm : RM) (part : BitVec 2) (o : O3) : Encoded.Statement (.unpk h sf df rm part o) :=
  fun _ => encode_length_short (i := .unpk h sf df rm part o) rfl (Nat.le_refl 2)
theorem Encoded.sclc (h : Head) (sf : Tag) (ty : BitVec 2) (o : O2) : Encoded.Statement (.sclc h sf ty o) :=
  fun _ => encode_length_short (i := .sclc h sf ty o) rfl (Nat.le_succ 1)
theorem Encoded.amax (h : Head) (sf : Tag) (span : Span) (o : O2) : Encoded.Statement (.amax h sf span o) :=
  fun _ => encode_length_short (i := .amax h sf span o) rfl (Nat.le_succ 1)
theorem Encoded.shuf (h : Head) (f : Option Tag) (w : Width) (var : ShufVar) (pd : BitVec 3) (o : O3) : Encoded.Statement (.shuf h f w var pd o) :=
  fun _ => encode_length_short (i := .shuf h f w var pd o) rfl (Nat.le_refl 2)
theorem Encoded.slide (h : Head) (f : Option Tag) (w : Width) (o : O4) : Encoded.Statement (.slide h f w o) :=
  fun ok => encode_length (i := .slide h f w o) rfl (by
  simp only [Instr.wf, Bool.and_eq_true, litsOk, decide_eq_true_eq] at ok; exact ok.2)
theorem Encoded.bcast (h : Head) (f : Option Tag) (w : Width) (o : O3) : Encoded.Statement (.bcast h f w o) :=
  fun _ => encode_length_short (i := .bcast h f w o) rfl (Nat.le_refl 2)
theorem Encoded.perm (h : Head) (f : Option Tag) (w : Width) (o : O4) : Encoded.Statement (.perm h f w o) :=
  fun ok => encode_length (i := .perm h f w o) rfl (by
  simp only [Instr.wf, Bool.and_eq_true, litsOk, decide_eq_true_eq] at ok; exact ok.2)
theorem Encoded.vote (h : Head) (w : Width) (var : VoteVar) (pd : BitVec 3) (o : O2) : Encoded.Statement (.vote h w var pd o) :=
  fun _ => encode_length_short (i := .vote h w var pd o) rfl (Nat.le_succ 1)
theorem Encoded.match_ (h : Head) (f : Option Tag) (w : Width) (val : Bool) (pd : BitVec 3) (o : O2) : Encoded.Statement (.match_ h f w val pd o) :=
  fun _ => encode_length_short (i := .match_ h f w val pd o) rfl (Nat.le_succ 1)
theorem Encoded.eqmask (h : Head) (f : Tag) (w : Width) (s1 : Bool) (pd : BitVec 3) (o : O3) : Encoded.Statement (.eqmask h f w s1 pd o) :=
  fun _ => encode_length_short (i := .eqmask h f w s1 pd o) rfl (Nat.le_refl 2)
theorem Encoded.rank (h : Head) (f : Tag) (w : Width) (s1 : Bool) (pd : BitVec 3) (o : O3) : Encoded.Statement (.rank h f w s1 pd o) :=
  fun _ => encode_length_short (i := .rank h f w s1 pd o) rfl (Nat.le_refl 2)
theorem Encoded.redux (h : Head) (f : Option Tag) (w : Width) (op : RedOp) (pt : BitVec 3) (o : O2) : Encoded.Statement (.redux h f w op pt o) :=
  fun _ => encode_length_short (i := .redux h f w op pt o) rfl (Nat.le_succ 1)
theorem Encoded.scan (h : Head) (f : Option Tag) (w : Width) (op : RedOp) (excl : Bool) (pt : BitVec 3) (o : O2) : Encoded.Statement (.scan h f w op excl pt o) :=
  fun _ => encode_length_short (i := .scan h f w op excl pt o) rfl (Nat.le_succ 1)
theorem Encoded.ld (h : Head) (f : MFmt) (n : NReg) (tag : BitVec 3) (d ptr off : Opd) : Encoded.Statement (.ld h f n tag d ptr off) :=
  fun _ => encode_length_short (i := .ld h f n tag d ptr off) rfl (Nat.le_refl 2)
theorem Encoded.st (h : Head) (f : MFmt) (n : NReg) (ptr off data : Opd) : Encoded.Statement (.st h f n ptr off data) :=
  fun ok => encode_length (i := .st h f n ptr off data) rfl (pointer_literals (h := h) (by
  simp only [Instr.wf, Bool.and_eq_true] at ok; exact ok.1.1.2))
theorem Encoded.atom (h : Head) (f : MFmt) (op : AOp) (tag : BitVec 3) (d ptr off c : Opd) : Encoded.Statement (.atom h f op tag d ptr off c) :=
  fun ok => encode_length (i := .atom h f op tag d ptr off c) rfl (pointer_literals (h := h) (by
  simp only [Instr.wf, Bool.and_eq_true] at ok; exact ok.1.1.2))
theorem Encoded.cas (h : Head) (f : MFmt) (pair : Bool) (tag : BitVec 3) (d ptr off e : Opd) : Encoded.Statement (.cas h f pair tag d ptr off e) :=
  fun ok => encode_length (i := .cas h f pair tag d ptr off e) rfl (pointer_literals (h := h) (by
  simp only [Instr.wf, Bool.and_eq_true] at ok; exact ok.1.1))
theorem Encoded.pmake (h : Head) (priv : Bool) (o : O3) : Encoded.Statement (.pmake h priv o) :=
  fun _ => encode_length_short (i := .pmake h priv o) rfl (Nat.le_refl 2)
theorem Encoded.psub (h : Head) (o : O3) : Encoded.Statement (.psub h o) :=
  fun _ => encode_length_short (i := .psub h o) rfl (Nat.le_refl 2)
theorem Encoded.pget (h : Head) (fld : PField) (o : O2) : Encoded.Statement (.pget h fld o) :=
  fun _ => encode_length_short (i := .pget h fld o) rfl (Nat.le_succ 1)
theorem Encoded.pchk (h : Head) (st : Bool) (o : O4) : Encoded.Statement (.pchk h st o) :=
  fun ok => encode_length (i := .pchk h st o) rfl (pointer_literals (h := h) (by
  simp only [Instr.wf, Bool.and_eq_true] at ok; exact ok.2))
theorem Encoded.pwiden (h : Head) (nscope : BitVec 3) (nclass : BitVec 2) (o : O2) : Encoded.Statement (.pwiden h nscope nclass o) :=
  fun _ => encode_length_short (i := .pwiden h nscope nclass o) rfl (Nat.le_succ 1)
theorem Encoded.pnarrow (h : Head) (nscope : BitVec 3) (nclass : BitVec 2) (o : O2) : Encoded.Statement (.pnarrow h nscope nclass o) :=
  fun _ => encode_length_short (i := .pnarrow h nscope nclass o) rfl (Nat.le_succ 1)
theorem Encoded.subscr (h : Head) (a b c : Opd) : Encoded.Statement (.subscr h a b c) :=
  fun ok => encode_length (i := .subscr h a b c) rfl (pointer_literals (h := h) ok)
theorem Encoded.upgr (h : Head) (a b c : Opd) : Encoded.Statement (.upgr h a b c) :=
  fun ok => encode_length (i := .upgr h a b c) rfl (pointer_literals (h := h) ok)
theorem Encoded.tagq (h : Head) (o : O2) : Encoded.Statement (.tagq h o) :=
  fun _ => encode_length_short (i := .tagq h o) rfl (Nat.le_succ 1)
theorem Encoded.tclaim (h : Head) (kind : ClaimKind) (d count : Opd) : Encoded.Statement (.tclaim h kind d count) :=
  fun _ => encode_length_short (i := .tclaim h kind d count) rfl (Nat.le_succ 1)
theorem Encoded.trel (h : Head) (slot : Opd) : Encoded.Statement (.trel h slot) :=
  fun _ => encode_length_short (i := .trel h slot) rfl (Nat.le_succ 1)
theorem Encoded.tld (h : Head) (f : EFmt) (hr : Fin 16) (ptr off slot : Opd) : Encoded.Statement (.tld h f hr ptr off slot) :=
  fun ok => encode_length (i := .tld h f hr ptr off slot) rfl (pointer_literals (h := h) (by
  simp only [Instr.wf, Bool.and_eq_true] at ok; exact ok.1.2))
theorem Encoded.tst (h : Head) (hr : Fin 16) (ptr off slot : Opd) : Encoded.Statement (.tst h hr ptr off slot) :=
  fun ok => encode_length (i := .tst h hr ptr off slot) rfl (pointer_literals (h := h) (by
  simp only [Instr.wf, Bool.and_eq_true] at ok; exact ok.1.2))
theorem Encoded.tzero (h : Head) (slot : Opd) : Encoded.Statement (.tzero h slot) :=
  fun _ => encode_length_short (i := .tzero h slot) rfl (Nat.le_succ 1)
theorem Encoded.mmq (h : Head) (f : EFmt) (ty tx : BitVec 2) (bh : Bool) (a b c : Opd) : Encoded.Statement (.mmq h f ty tx bh a b c) :=
  fun ok => encode_length (i := .mmq h f ty tx bh a b c) rfl (by
  simp only [Instr.wf, Bool.and_eq_true, litsOk, decide_eq_true_eq] at ok; exact ok.2)
theorem Encoded.mms (h : Head) (f : EFmt) (ty tx : BitVec 2) (bh : Bool) (a b c : Opd) : Encoded.Statement (.mms h f ty tx bh a b c) :=
  fun ok => encode_length (i := .mms h f ty tx bh a b c) rfl (by
  simp only [Instr.wf, Bool.and_eq_true, litsOk, decide_eq_true_eq] at ok; exact ok.2)
theorem Encoded.tdrain (h : Head) (f : EFmt) (hr : Fin 16) (ptr off slot : Opd) : Encoded.Statement (.tdrain h f hr ptr off slot) :=
  fun ok => encode_length (i := .tdrain h f hr ptr off slot) rfl (pointer_literals (h := h) (by
  simp only [Instr.wf, Bool.and_eq_true] at ok; exact ok.1.2))
theorem Encoded.twin (h : Head) (hr : Fin 16) (slot : Opd) : Encoded.Statement (.twin h hr slot) :=
  fun _ => encode_length_short (i := .twin h hr slot) rfl (Nat.le_succ 1)
theorem Encoded.tflag (h : Head) (d slot : Opd) : Encoded.Statement (.tflag h d slot) :=
  fun _ => encode_length_short (i := .tflag h d slot) rfl (Nat.le_succ 1)
theorem Encoded.hld (h : Head) (hr : Fin 16) (handle : Opd) : Encoded.Statement (.hld h hr handle) :=
  fun _ => encode_length_short (i := .hld h hr handle) rfl (Nat.le_succ 1)
theorem Encoded.hset (h : Head) (hr : Fin 16) (fld value : Opd) : Encoded.Statement (.hset h hr fld value) :=
  fun _ => encode_length_short (i := .hset h hr fld value) rfl (Nat.le_refl 2)
theorem Encoded.hget (h : Head) (hr : Fin 16) (tag : BitVec 3) (d fld : Opd) : Encoded.Statement (.hget h hr tag d fld) :=
  fun _ => encode_length_short (i := .hget h hr tag d fld) rfl (Nat.le_succ 1)
theorem Encoded.copy (h : Head) (d ptr off words : Opd) : Encoded.Statement (.copy h d ptr off words) :=
  fun ok => encode_length (i := .copy h d ptr off words) rfl (pointer_literals (h := h) (by
  simp only [Instr.wf, Bool.and_eq_true] at ok; exact ok.1.1.2))
theorem Encoded.copyw (h : Head) (tag : BitVec 3) (d seq : Opd) : Encoded.Statement (.copyw h tag d seq) :=
  fun _ => encode_length_short (i := .copyw h tag d seq) rfl (Nat.le_succ 1)
theorem Encoded.copyx (h : Head) (d ptr off words : Opd) : Encoded.Statement (.copyx h d ptr off words) :=
  fun ok => encode_length (i := .copyx h d ptr off words) rfl (pointer_literals (h := h) (by
  simp only [Instr.wf, Bool.and_eq_true] at ok; exact ok.1.1.2))
theorem Encoded.bin (h : Head) (op : BinOp) (ptr key item : Opd) : Encoded.Statement (.bin h op ptr key item) :=
  fun ok => encode_length (i := .bin h op ptr key item) rfl (pointer_literals (h := h) (by
  simp only [Instr.wf, Bool.and_eq_true] at ok; exact ok.1))
theorem Encoded.binrd (h : Head) (sel : BinSel) (tag : BitVec 3) (d ptr idx : Opd) : Encoded.Statement (.binrd h sel tag d ptr idx) :=
  fun _ => encode_length_short (i := .binrd h sel tag d ptr idx) rfl (Nat.le_refl 2)
theorem Encoded.sendl (h : Head) (ptr src words : Opd) : Encoded.Statement (.sendl h ptr src words) :=
  fun ok => encode_length (i := .sendl h ptr src words) rfl (pointer_literals (h := h) (by
  simp only [Instr.wf, Bool.and_eq_true] at ok; exact ok.1.1))
theorem Encoded.launch (h : Head) (q hdr : Opd) : Encoded.Statement (.launch h q hdr) :=
  fun _ => encode_length_short (i := .launch h q hdr) rfl (Nat.le_refl 2)
theorem Encoded.release (h : Head) (handle : Opd) : Encoded.Statement (.release h handle) :=
  fun _ => encode_length_short (i := .release h handle) rfl (Nat.le_succ 1)
theorem Encoded.trap (h : Head) (code : Opd) : Encoded.Statement (.trap h code) :=
  fun _ => encode_length_short (i := .trap h code) rfl (Nat.le_succ 1)
theorem Encoded.tret (h : Head) : Encoded.Statement (.tret h) :=
  fun _ => encode_length_short (i := .tret h) rfl (Nat.zero_le 2)
theorem Encoded.swr (h : Head) (r : SysReg) (value : Opd) : Encoded.Statement (.swr h r value) :=
  fun _ => encode_length_short (i := .swr h r value) rfl (Nat.le_succ 1)
theorem Encoded.time (h : Head) (pkg : Bool) (tag : BitVec 3) (d : Opd) : Encoded.Statement (.time h pkg tag d) :=
  fun _ => encode_length_short (i := .time h pkg tag d) rfl (Nat.zero_le 2)
theorem Encoded.fltrd (h : Head) (word : BitVec 2) (cons : Bool) (tag : BitVec 3) (d idx : Opd) : Encoded.Statement (.fltrd h word cons tag d idx) :=
  fun _ => encode_length_short (i := .fltrd h word cons tag d idx) rfl (Nat.le_succ 1)
theorem Encoded.qsc (h : Head) (done : Bool) (tag : BitVec 3) (d : Opd) : Encoded.Statement (.qsc h done tag d) :=
  fun _ => encode_length_short (i := .qsc h done tag d) rfl (Nat.zero_le 2)
theorem Encoded.tlbx (h : Head) (size : PgSize) (all : Bool) (va count : Opd) : Encoded.Statement (.tlbx h size all va count) :=
  fun _ => encode_length_short (i := .tlbx h size all va count) rfl (Nat.le_refl 2)
theorem Encoded.halt (h : Head) : Encoded.Statement (.halt h) :=
  fun _ => encode_length_short (i := .halt h) rfl (Nat.zero_le 2)
theorem Encoded.issuePick (die core part : Nat) : Encoded.Statement (.issuePick die core part) :=
  fun ok => Bool.noConfusion (show false = true from ok)
theorem Encoded.cohortPromote (blk coh : Nat) : Encoded.Statement (.cohortPromote blk coh) :=
  fun ok => Bool.noConfusion (show false = true from ok)
theorem Encoded.regroupExchange (blk laneA laneB : Nat) : Encoded.Statement (.regroupExchange blk laneA laneB) :=
  fun ok => Bool.noConfusion (show false = true from ok)
theorem Encoded.fixedResultWrite (id : Nat) : Encoded.Statement (.fixedResultWrite id) :=
  fun ok => Bool.noConfusion (show false = true from ok)
theorem Encoded.pendingTagComplete (id : Nat) : Encoded.Statement (.pendingTagComplete id) :=
  fun ok => Bool.noConfusion (show false = true from ok)
theorem Encoded.rendezvousComplete (blk rdv : Nat) : Encoded.Statement (.rendezvousComplete blk rdv) :=
  fun ok => Bool.noConfusion (show false = true from ok)
theorem Encoded.trapEntry (blk grp : Nat) : Encoded.Statement (.trapEntry blk grp) :=
  fun ok => Bool.noConfusion (show false = true from ok)
theorem Encoded.accessPerformed (id : Nat) (order : List Nat) : Encoded.Statement (.accessPerformed id order) :=
  fun ok => Bool.noConfusion (show false = true from ok)
theorem Encoded.waitmReread (id : Nat) : Encoded.Statement (.waitmReread id) :=
  fun ok => Bool.noConfusion (show false = true from ok)
theorem Encoded.blockRelease (blk : Nat) : Encoded.Statement (.blockRelease blk) :=
  fun ok => Bool.noConfusion (show false = true from ok)
theorem Encoded.scratchpadFill (blk line : Nat) : Encoded.Statement (.scratchpadFill blk line) :=
  fun ok => Bool.noConfusion (show false = true from ok)
theorem Encoded.scratchpadWriteback (blk line : Nat) : Encoded.Statement (.scratchpadWriteback blk line) :=
  fun ok => Bool.noConfusion (show false = true from ok)
theorem Encoded.memoryActionClose (id : Nat) : Encoded.Statement (.memoryActionClose id) :=
  fun ok => Bool.noConfusion (show false = true from ok)
theorem Encoded.slotReturn (id : Nat) : Encoded.Statement (.slotReturn id) :=
  fun ok => Bool.noConfusion (show false = true from ok)
theorem Encoded.copyAccept (blk : Nat) : Encoded.Statement (.copyAccept blk) :=
  fun ok => Bool.noConfusion (show false = true from ok)
theorem Encoded.copyStamp (id : Nat) : Encoded.Statement (.copyStamp id) :=
  fun ok => Bool.noConfusion (show false = true from ok)
theorem Encoded.patch (die : Fin 4) (handle : BitVec 8) (value : Nat) : Encoded.Statement (.patch die handle value) :=
  fun ok => Bool.noConfusion (show false = true from ok)
theorem Encoded.matrixGrant (cluster : Nat) : Encoded.Statement (.matrixGrant cluster) :=
  fun ok => Bool.noConfusion (show false = true from ok)
theorem Encoded.matrixPassWrite (id : Nat) : Encoded.Statement (.matrixPassWrite id) :=
  fun ok => Bool.noConfusion (show false = true from ok)
theorem Encoded.tileTransferComplete (id : Nat) : Encoded.Statement (.tileTransferComplete id) :=
  fun ok => Bool.noConfusion (show false = true from ok)
theorem Encoded.binOpenPerform (die : Fin 4) : Encoded.Statement (.binOpenPerform die) :=
  fun ok => Bool.noConfusion (show false = true from ok)
theorem Encoded.binItemPerform (die : Fin 4) : Encoded.Statement (.binItemPerform die) :=
  fun ok => Bool.noConfusion (show false = true from ok)
theorem Encoded.binClosePerform (die : Fin 4) : Encoded.Statement (.binClosePerform die) :=
  fun ok => Bool.noConfusion (show false = true from ok)
theorem Encoded.sendEntryAccept (die : Fin 4) (list : Word) : Encoded.Statement (.sendEntryAccept die list) :=
  fun ok => Bool.noConfusion (show false = true from ok)
theorem Encoded.sendEntryComplete (id : Nat) : Encoded.Statement (.sendEntryComplete id) :=
  fun ok => Bool.noConfusion (show false = true from ok)
theorem Encoded.headerRead (die : Fin 4) (queue : Fin 32) : Encoded.Statement (.headerRead die queue) :=
  fun ok => Bool.noConfusion (show false = true from ok)
theorem Encoded.blockPlace (die : Fin 4) : Encoded.Statement (.blockPlace die) :=
  fun ok => Bool.noConfusion (show false = true from ok)
theorem Encoded.launchAged (id : Nat) : Encoded.Statement (.launchAged id) :=
  fun ok => Bool.noConfusion (show false = true from ok)
theorem Encoded.launchEnd (id : Nat) : Encoded.Statement (.launchEnd id) :=
  fun ok => Bool.noConfusion (show false = true from ok)
theorem Encoded.queueEnable (die : Fin 4) (queue : Fin 32) (value : Word) : Encoded.Statement (.queueEnable die queue value) :=
  fun ok => Bool.noConfusion (show false = true from ok)
theorem Encoded.queueTeardown (die : Fin 4) (queue : Fin 32) : Encoded.Statement (.queueTeardown die queue) :=
  fun ok => Bool.noConfusion (show false = true from ok)
theorem Encoded.pageWalkComplete (id : Nat) : Encoded.Statement (.pageWalkComplete id) :=
  fun ok => Bool.noConfusion (show false = true from ok)
theorem Encoded.faultSignalDelayed (die : Fin 4) : Encoded.Statement (.faultSignalDelayed die) :=
  fun ok => Bool.noConfusion (show false = true from ok)
theorem Encoded.quiescenceTick (die : Fin 4) : Encoded.Statement (.quiescenceTick die) :=
  fun ok => Bool.noConfusion (show false = true from ok)
theorem Encoded.fltsvcConsume (die : Fin 4) (idx : BitVec 8) : Encoded.Statement (.fltsvcConsume die idx) :=
  fun ok => Bool.noConfusion (show false = true from ok)
theorem Encoded.fltsvcServiced (die : Fin 4) (idx : BitVec 8) : Encoded.Statement (.fltsvcServiced die idx) :=
  fun ok => Bool.noConfusion (show false = true from ok)
theorem Encoded.fltsvcRefused (die : Fin 4) (idx : BitVec 8) : Encoded.Statement (.fltsvcRefused die idx) :=
  fun ok => Bool.noConfusion (show false = true from ok)
theorem Encoded.fltsvcIgnored (die : Fin 4) (idx : BitVec 8) : Encoded.Statement (.fltsvcIgnored die idx) :=
  fun ok => Bool.noConfusion (show false = true from ok)
theorem Encoded.preqSuspend (die : Fin 4) (hdr : Word) (all : Bool) : Encoded.Statement (.preqSuspend die hdr all) :=
  fun ok => Bool.noConfusion (show false = true from ok)
theorem Encoded.preqResume (die : Fin 4) (hdr : Word) (all : Bool) : Encoded.Statement (.preqResume die hdr all) :=
  fun ok => Bool.noConfusion (show false = true from ok)
theorem Encoded.preemptWindowEnd (blk : Nat) : Encoded.Statement (.preemptWindowEnd blk) :=
  fun ok => Bool.noConfusion (show false = true from ok)
theorem Encoded.blockSave (blk : Nat) : Encoded.Statement (.blockSave blk) :=
  fun ok => Bool.noConfusion (show false = true from ok)
theorem Encoded.blockRestore (blk core : Nat) : Encoded.Statement (.blockRestore blk core) :=
  fun ok => Bool.noConfusion (show false = true from ok)
theorem Encoded.readRequest (m : Msg) : Encoded.Statement (.readRequest m) :=
  fun ok => Bool.noConfusion (show false = true from ok)
theorem Encoded.readSharedLease (m : Msg) : Encoded.Statement (.readSharedLease m) :=
  fun ok => Bool.noConfusion (show false = true from ok)
theorem Encoded.ownershipRequest (m : Msg) : Encoded.Statement (.ownershipRequest m) :=
  fun ok => Bool.noConfusion (show false = true from ok)
theorem Encoded.writeBack (m : Msg) : Encoded.Statement (.writeBack m) :=
  fun ok => Bool.noConfusion (show false = true from ok)
theorem Encoded.invalidation (m : Msg) : Encoded.Statement (.invalidation m) :=
  fun ok => Bool.noConfusion (show false = true from ok)
theorem Encoded.acknowledgement (m : Msg) : Encoded.Statement (.acknowledgement m) :=
  fun ok => Bool.noConfusion (show false = true from ok)
theorem Encoded.dataReply (m : Msg) : Encoded.Statement (.dataReply m) :=
  fun ok => Bool.noConfusion (show false = true from ok)
theorem Encoded.errorReply (m : Msg) : Encoded.Statement (.errorReply m) :=
  fun ok => Bool.noConfusion (show false = true from ok)
theorem Encoded.push (m : Msg) : Encoded.Statement (.push m) :=
  fun ok => Bool.noConfusion (show false = true from ok)
theorem Encoded.revocation (m : Msg) : Encoded.Statement (.revocation m) :=
  fun ok => Bool.noConfusion (show false = true from ok)
theorem Encoded.sendListPayload (m : Msg) : Encoded.Statement (.sendListPayload m) :=
  fun ok => Bool.noConfusion (show false = true from ok)
theorem Encoded.remoteStamp (m : Msg) : Encoded.Statement (.remoteStamp m) :=
  fun ok => Bool.noConfusion (show false = true from ok)
theorem Encoded.syncAccessAtHome (m : Msg) : Encoded.Statement (.syncAccessAtHome m) :=
  fun ok => Bool.noConfusion (show false = true from ok)
theorem Encoded.timeExchange (m : Msg) : Encoded.Statement (.timeExchange m) :=
  fun ok => Bool.noConfusion (show false = true from ok)
theorem Encoded.fabricMessageDiscard (die : Fin 4) (m : Msg) : Encoded.Statement (.fabricMessageDiscard die m) :=
  fun ok => Bool.noConfusion (show false = true from ok)
theorem Encoded.chordReview : Encoded.Statement (.chordReview) :=
  fun ok => Bool.noConfusion (show false = true from ok)
theorem Encoded.requestTimeout (id : Nat) : Encoded.Statement (.requestTimeout id) :=
  fun ok => Bool.noConfusion (show false = true from ok)
theorem Encoded.leaseExpire (line : Nat) (pos : BitVec 4) : Encoded.Statement (.leaseExpire line pos) :=
  fun ok => Bool.noConfusion (show false = true from ok)
theorem Encoded.timeSyncTick (pod pkg : List Nat) : Encoded.Statement (.timeSyncTick pod pkg) :=
  fun ok => Bool.noConfusion (show false = true from ok)
theorem Encoded.hostRead (addr : Nat) (n : Nat) : Encoded.Statement (.hostRead addr n) :=
  fun ok => Bool.noConfusion (show false = true from ok)
theorem Encoded.hostWrite (addr : Nat) (body : List Byte) : Encoded.Statement (.hostWrite addr body) :=
  fun ok => Bool.noConfusion (show false = true from ok)
theorem Encoded.hostSnoop (iod : Fin 2) (line : Nat) (kind : SnoopKind) : Encoded.Statement (.hostSnoop iod line kind) :=
  fun ok => Bool.noConfusion (show false = true from ok)
theorem Encoded.backInvalidateResponse (line : Nat) : Encoded.Statement (.backInvalidateResponse line) :=
  fun ok => Bool.noConfusion (show false = true from ok)
theorem Encoded.spdmMeasurement : Encoded.Statement (.spdmMeasurement) :=
  fun ok => Bool.noConfusion (show false = true from ok)
theorem Encoded.coldStart (dies : BitVec 4) (images : List Image) : Encoded.Statement (.coldStart dies images) :=
  fun ok => Bool.noConfusion (show false = true from ok)
theorem Encoded.warmStart (dies : BitVec 4) (sref : Bool) (images : List Image) : Encoded.Statement (.warmStart dies sref images) :=
  fun ok => Bool.noConfusion (show false = true from ok)
theorem Encoded.fabDropClear : Encoded.Statement (.fabDropClear) :=
  fun ok => Bool.noConfusion (show false = true from ok)
theorem Encoded.quiesce : Encoded.Statement (.quiesce) :=
  fun ok => Bool.noConfusion (show false = true from ok)
theorem Encoded.ldResume (die : Fin 4) : Encoded.Statement (.ldResume die) :=
  fun ok => Bool.noConfusion (show false = true from ok)
theorem Encoded.ldReset (die : Fin 4) : Encoded.Statement (.ldReset die) :=
  fun ok => Bool.noConfusion (show false = true from ok)
theorem Encoded.pwrTargetD0 (die : Fin 4) : Encoded.Statement (.pwrTargetD0 die) :=
  fun ok => Bool.noConfusion (show false = true from ok)
theorem Encoded.pwrTargetD1 (die : Fin 4) : Encoded.Statement (.pwrTargetD1 die) :=
  fun ok => Bool.noConfusion (show false = true from ok)
theorem Encoded.pwrTargetD2 (die : Fin 4) : Encoded.Statement (.pwrTargetD2 die) :=
  fun ok => Bool.noConfusion (show false = true from ok)
theorem Encoded.powerStateEnter (die : Fin 4) : Encoded.Statement (.powerStateEnter die) :=
  fun ok => Bool.noConfusion (show false = true from ok)
theorem Encoded.dieWake (die : Fin 4) : Encoded.Statement (.dieWake die) :=
  fun ok => Bool.noConfusion (show false = true from ok)
theorem Encoded.thermalThrottle (die : Fin 4) : Encoded.Statement (.thermalThrottle die) :=
  fun ok => Bool.noConfusion (show false = true from ok)
theorem Encoded.thermalTrip (die : Fin 4) : Encoded.Statement (.thermalTrip die) :=
  fun ok => Bool.noConfusion (show false = true from ok)
theorem Encoded.pwrtelUpdate (die : Fin 4) (temp power : BitVec 16) : Encoded.Statement (.pwrtelUpdate die temp power) :=
  fun ok => Bool.noConfusion (show false = true from ok)
theorem Encoded.patrolScrub (die : Fin 4) : Encoded.Statement (.patrolScrub die) :=
  fun ok => Bool.noConfusion (show false = true from ok)
theorem Encoded.memoryError (die : Fin 4) (uncorrectable : Bool) (place : ErrPlace) : Encoded.Statement (.memoryError die uncorrectable place) :=
  fun ok => Bool.noConfusion (show false = true from ok)
theorem Encoded.portFailing (kg : Fin 16) (port : Fin 9) : Encoded.Statement (.portFailing kg port) :=
  fun ok => Bool.noConfusion (show false = true from ok)
theorem Encoded.retrainComplete (kg : Fin 16) : Encoded.Statement (.retrainComplete kg) :=
  fun ok => Bool.noConfusion (show false = true from ok)
theorem Encoded.retrainWindowEnd (kg : Fin 16) : Encoded.Statement (.retrainWindowEnd kg) :=
  fun ok => Bool.noConfusion (show false = true from ok)
theorem Encoded.portSignalLoss (kg : Fin 16) (port : Fin 9) : Encoded.Statement (.portSignalLoss kg port) :=
  fun ok => Bool.noConfusion (show false = true from ok)
theorem Encoded.portSilenceTimeout (kg : Fin 16) (port : Option (Fin 9)) : Encoded.Statement (.portSilenceTimeout kg port) :=
  fun ok => Bool.noConfusion (show false = true from ok)
theorem Encoded.peerLost (pos : BitVec 4) : Encoded.Statement (.peerLost pos) :=
  fun ok => Bool.noConfusion (show false = true from ok)
theorem Encoded.hostLinkDrop (iod : Fin 2) : Encoded.Statement (.hostLinkDrop iod) :=
  fun ok => Bool.noConfusion (show false = true from ok)
theorem Encoded.supplyReset (die : Fin 4) : Encoded.Statement (.supplyReset die) :=
  fun ok => Bool.noConfusion (show false = true from ok)
theorem Encoded.registerWrite (port : RegPort) (off : Nat) (value : Word) : Encoded.Statement (.registerWrite port off value) :=
  fun ok => Bool.noConfusion (show false = true from ok)
theorem Encoded.linkBringUp (pos : BitVec 4) (groups : List (Fin 16)) : Encoded.Statement (.linkBringUp pos groups) :=
  fun ok => Bool.noConfusion (show false = true from ok)
theorem Encoded.departureMessage (pos : BitVec 4) : Encoded.Statement (.departureMessage pos) :=
  fun ok => Bool.noConfusion (show false = true from ok)
theorem Encoded.chordRelay (m : Msg) : Encoded.Statement (.chordRelay m) :=
  fun ok => Bool.noConfusion (show false = true from ok)
theorem Encoded.chordReturn (m : Msg) : Encoded.Statement (.chordReturn m) :=
  fun ok => Bool.noConfusion (show false = true from ok)
theorem Encoded.pairKeyEpoch (pos : BitVec 4) : Encoded.Statement (.pairKeyEpoch pos) :=
  fun ok => Bool.noConfusion (show false = true from ok)
theorem Encoded.powerCapThrottle : Encoded.Statement (.powerCapThrottle) :=
  fun ok => Bool.noConfusion (show false = true from ok)

end Sys2Proof.Laws
end

