-- ==== Sys2Proof/Tests/Slice0.lean ====
section
/-! SUPPORT. Tests: what well-formedness refuses, the words the spec writes out, and for every statement with hypotheses a
state and operands that meet them. Expected values are the spec's own worked cases or counted from them by hand. -/

namespace Sys2Proof.Tests

set_option Elab.async false

open Sys2Proof.Machine

/-! ## Well-formedness refuses -/

def hd : Head := ⟨.lane, 0, false, 7⟩
def hdG : Head := ⟨.group, 0, false, 7⟩
def hdS : Head := ⟨.set, 0, false, 7⟩
def hdB : Head := ⟨.block, 0, false, 7⟩

/-- R125: every instruction of form T is of lane scope, but BAR. -/
theorem test_wf_scope_of_br : (Instr.br hdG 0 0).wf = false := by decide
theorem test_wf_scope_of_bar : (Instr.bar hd 0).wf = false := by decide
theorem test_wf_scope_of_setd : (Instr.setd hdG 0 false (.v 0)).wf = false := by decide
theorem test_wf_scope_of_mms : (Instr.mms hdG (.tag .e4m3) 0 0 false (.v 0) (.v 1) (.v 2)).wf = false := by decide
theorem test_wf_scope_of_swr_seed : (Instr.swr hdG .seed (.v 0)).wf = false := by decide
theorem test_wf_scope_of_swr_ctl : (Instr.swr hd .ctl (.v 0)).wf = false := by decide
/-- R19: an X destination is for set scope, a K destination for a scope wider than a lane; Y and literals are none. -/
theorem test_wf_x_destination : (Instr.iadd hdG .i32 false ⟨.x 0, .v 0, .v 1⟩).wf = false := by decide
theorem test_wf_k_destination : (Instr.iadd hd .i32 false ⟨.k 0, .v 0, .v 1⟩).wf = false := by decide
theorem test_wf_y_destination : (Instr.iadd hd .i32 false ⟨.y 0, .v 0, .v 1⟩).wf = false := by decide
/-- R36: a Q register is no destination under a pending tag. -/
theorem test_wf_q_under_a_tag : (Instr.frcp hd .fp32 .rne 0 ⟨.q 0, .v 0⟩).wf = false := by decide
/-- R152: the formats of IADD; R66: SR outside class 100; R106: two literals at most. -/
theorem test_wf_format : (Instr.iadd hd .fp32 false ⟨.v 0, .v 1, .v 2⟩).wf = false := by decide
theorem test_wf_sr : (Instr.fadd hd .fp32 .sr ⟨.v 0, .v 1, .v 2⟩).wf = false := by decide
theorem test_wf_three_literals : (Instr.imad hd .i32 false ⟨.v 0, .lit32 1, .lit32 2, .lit32 3⟩).wf = false := by decide
/-- R100, R218: a pointer stands in an even register pair; R208: the lane index is no offset. -/
theorem test_wf_pointer_pair : (Instr.ld hd (.tag .i32) .one 0 (.v 0) (.v 3) .zero).wf = false := by decide
theorem test_wf_lane_offset : (Instr.ld hd (.tag .i32) .one 0 (.v 0) (.v 4) .lane).wf = false := by decide
/-- R200: B of SLIDE is a literal, zero or a K register. -/
theorem test_wf_slide_distance : (Instr.slide hdG none .w32 ⟨.v 0, .v 1, .v 2, .v 3⟩).wf = false := by decide
/-- An event has no encoding. -/
theorem test_wf_event : (Instr.quiesce).wf = false := by decide

/-! ## The words the spec writes out -/

/-- LD.E4M3 V20, [V8:V9 + 0x40] (R208). -/
theorem test_decode_ld : decodeWords [0x3EBF0C00, 0xC001C502, 0x40] =
    .ok (.ld hd (.tag .e4m3) .one 0 (.v 20) (.v 8) (.lit32 0x40), 3) := rfl
/-- BRC back by 16 words, await mask LD and ST (R139). -/
theorem test_decode_brc : decodeWords [0xFC024400, 0x0181FFFF] = .ok (.brc hd 0xFFFFF0 0x09 false 1, 2) := rfl
/-- IMAC2 V10, V4, V20, V10 with stall 1 (R167); SAT in it is refused (R108). -/
theorem test_decode_imac2 : decodeWords [0x05029800, 0x4605C281] =
    .ok (.imac2 ⟨.lane, 1, false, 7⟩ ⟨.v 10, .v 4, .v 20, .v 10⟩, 2) := rfl
theorem test_decode_imac2_sat : decodeWords [0x05029840, 0x4605C281] = .error .unreadField := rfl
/-- CVTF8.FP32.E4M3.SAT part 2 into V40 (R186). -/
theorem test_decode_cvtf8 : decodeWords [0x3F0A00C6, 0x8081CA03] =
    .ok (.cvtf8 hd .fp32 .e4m3 .rne true 2 (.v 40) (.v 12) (.v 40), 2) := rfl
/-- FFMA.FP32.RUP V30, V4, V5, V6 with stall 5 (R175). -/
theorem test_decode_ffma : decodeWords [0x01418100, 0x6195C781] =
    .ok (.ffma ⟨.lane, 5, false, 7⟩ .fp32 .rup ⟨.v 30, .v 4, .v 5, .v 6⟩, 2) := rfl
/-- SHUF.I16.G of width 8, clamped, P2 (R199). -/
theorem test_decode_shuf : decodeWords [0x017F1992, 0xA021C301] =
    .ok (.shuf hdG (some .i16) .w8 .clamp 2 ⟨.v 12, .v 4, .v 5⟩, 2) := rfl
/-- SLIDE.I16.G by the literal 1 (R200). -/
theorem test_decode_slide : decodeWords [0x3E855800, 0xA0A1C505, 1] =
    .ok (.slide hdG (some .i16) .w32 ⟨.v 20, .v 20, .lit32 1, .v 21⟩, 3) := rfl
/-- ATOM.I64.ADD under P2 and tag 1 (R214). -/
theorem test_decode_atom : decodeWords [0x04846001, 0xC10084C7] =
    .ok (.atom ⟨.lane, 0, false, 2⟩ (.tag .i64) .add 1 (.v 19) (.v 28) (.v 18) (.v 17), 2) := rfl
/-- MMQ.E4M3.G.T12 K1, K2, K3, from R245's field table; SRCC 237 stands at bits 21:14 by R103 (log 14). -/
theorem test_decode_mmq : decodeWords [0xFB3B4D80, 0xE2A1FF3A] =
    .ok (.mmq hdG (.tag .e4m3) 1 2 false (.k 1) (.k 2) (.k 3), 2) := rfl
/-- TRET (R354), BIN and BIN.G.CLOSE (R260), COPY.G (R255). -/
theorem test_decode_tret : decodeWords [0x3F3F0000, 0xF081FF3F] = .ok (.tret hd, 2) := rfl
theorem test_decode_bin : decodeWords [0x05060000, 0xEA01FF01] = .ok (.bin hd .item (.v 4) (.v 20) (.v 24), 2) := rfl
theorem test_decode_bin_close : decodeWords [0x3F3F0200, 0xEA21FF01] = .ok (.bin hdG .close (.v 4) .zero .zero, 2) := rfl
theorem test_decode_copy : decodeWords [0x83878000, 0xE821CA00] = .ok (.copy hdG (.v 40) (.v 2) (.v 14) (.v 30), 2) := rfl
/-- R122: a zeroed region is opcode 0. R104: one word is too few. -/
theorem test_decode_zero : decodeWords [0, 0] = .error .reservedOpcode := rfl
theorem test_decode_short : decodeWords [0x3F3F0000] = .error .short := rfl

/-! ## A small machine -/

/-- A pointer of the global space to 8 KiB at virtual 0x18000, formats N64. -/
def ptr : BitVec 128 := framePtr 0 0x18000

/-- A lane's registers: V0 and V1 I32, V2 N32, V3 N64, V4:V5 a pointer, V6 FP32, V7 BF16, V8 I16, V9 I8, V10 I64, V11 POISON. -/
def regs : List (Nat × Reg) :=
  [(0, ⟨5, .i32⟩), (1, ⟨7, .i32⟩), (2, ⟨3, .n32⟩), (3, ⟨64, .n64⟩), (4, ⟨ptr.setWidth 64, .ptrLo⟩),
   (5, ⟨ptr.extractLsb' 64 64, .ptrHi⟩), (6, ⟨0x3F8000003F800000, .fp32⟩), (7, ⟨0x3F803F803F803F80, .bf16⟩), (8, ⟨9, .i16⟩),
   (9, ⟨1, .i8⟩), (10, ⟨2, .i64⟩), (11, ⟨0, .poison⟩)]

/-- One group of two live lanes in a running cohort. -/
def blk0 : Block := { fetchBlock 0x10000 with
  lanes := (List.range 2).map fun m => { (fetchBlock 0x10000).lane m with regs := regs }
  cohorts := [{ id := 0, grp := 0, lanes := [0, 1], pc := 0x10000, start := 0x10000, stage := .slot 0, wait := 0, nextIssue := 0,
                promoted := false, fetched := none }] }

/-- Two such groups, a set of both. -/
def blk2 : Block := { blk0 with
  lanes := (List.range 34).map fun m => if m % 32 < 2 then blk0.lane (m % 32) else Lane.empty
  groups := blk0.groups ++ blk0.groups
  sets := [⟨0, [0, 1], [], []⟩] }

def ctx0 : Ctx := { blk := 0, coh := 0, grp := 0, lanes := [0, 1], pc := 0x10000, len := 8, wide := false, members := [],
                    order := [] }
def ctxW : Ctx := { ctx0 with wide := true, members := [0], order := [0] }

/-- The machine in which blk0's cohort issues, and in which its rendezvous does. -/
def st0 : State := { State.reset.withFetchWord 64 0 with blocks := [blk0], cur := some ctx0, port := [] }
def stW : State := { st0 with cur := some ctxW }
def ctx2 : Ctx := { ctxW with lanes := [0, 1, 32, 33], members := [0, 1], order := [1, 0] }
def st2 : State := { st0 with blocks := [blk2], cur := some ctx2 }

/-! ## Statements about issue: the hypotheses are met -/

theorem issuing0 : Issuing st0 blk0 ctx0 hd := ⟨rfl, rfl, .inl rfl, by decide⟩
theorem issuingG : Issuing stW blk0 ctxW hdG := ⟨rfl, rfl, .inr rfl, by decide⟩
theorem issuingS : Issuing st2 blk2 ctx2 hdS := ⟨rfl, rfl, .inr rfl, by decide⟩
theorem issuingB : Issuing st2 blk2 ctx2 hdB := ⟨rfl, rfl, .inr rfl, by decide⟩

theorem clear_of {s : State} {b : Block} {h : Head} {w : Work} {sps : List SrcSpec} {d : Opd} {n pd : Nat} {preds : List Nat}
    (e : (w.acts && decide (s.gate b w.src (w.recv.map (·.1)) (sps ++ needs h d) (dstCodes d n ++ if pd < 7 then [256 + pd] else [])
      preds = .pass)) = true) : Clear s b h w sps d n pd preds := by
  simp only [Bool.and_eq_true, decide_eq_true_eq] at e; exact ⟨e.1, e.2⟩

theorem clearPlain_of {s : State} {b : Block} {w : Work} {src recv : List Nat} {sps : List SrcSpec} {codes preds : List Nat}
    (h : (w.acts && decide (s.gate b src recv sps codes preds = .pass)) = true) : ClearPlain s b w src recv sps codes preds := by
  simp only [Bool.and_eq_true, decide_eq_true_eq] at h; exact ⟨h.1, h.2⟩

/-- Sources, destination, its registers and predicate, and the predicates read, of every shape of instruction of fixed latency:
classes 001 to 100, PMAKE, PGET, PCHK and TAGQ. -/
def shapes : List (List SrcSpec × Opd × Nat × Nat × List Nat) :=
  [([⟨.v 0, .fmt .i32⟩, ⟨.v 1, .fmt .i32⟩], .v 20, 1, 7, []), ([⟨.v 10, .fmt .i64⟩, ⟨.lit32 3, .fmt .i64⟩], .v 191, 1, 6, [0]),
   ([⟨.v 0, .fmt .i32⟩, ⟨.v 1, .fmt .i32⟩, ⟨.zero, .fmt .i32⟩], .q 7, 1, 7, []),
   ([⟨.v 0, .fmt .i32⟩, ⟨.v 1, .fmt .i32⟩, ⟨.v 10, .fmt .i64⟩], .v 20, 1, 7, []), ([⟨.v 0, .fmt .i32⟩], .zero, 1, 7, []),
   ([⟨.v 0, .fmt .i32⟩, ⟨.lane, .fmt .i32⟩], .zero, 0, 5, []), ([⟨.v 3, .raw⟩, ⟨.v 0, .raw⟩], .v 11, 1, 7, [2]),
   ([], .zero, 0, 0, [0, 6]), ([⟨.v 8, .fmt .i16⟩, ⟨.v 8, .fmt .i16⟩, ⟨.v 0, .fmt .i32⟩], .v 0, 1, 7, []),
   ([⟨.v 9, .fmt .i8⟩, ⟨.v 9, .fmt .i8⟩, ⟨.v 0, .fmt .i32⟩], .v 0, 1, 7, []), ([⟨.v 8, .fmt .i16⟩, ⟨.v 8, .fmt .i16⟩, ⟨.v 8, .fmt .i16⟩], .v 0, 1, 7, []),
   ([⟨.v 6, .fmt .fp32⟩, ⟨.v 6, .fmt .fp32⟩], .v 20, 1, 7, []), ([⟨.v 6, .fmt .fp32⟩, ⟨.v 6, .fmt .fp32⟩, ⟨.v 6, .fmt .fp32⟩], .v 6, 1, 7, []),
   ([⟨.v 7, .fmt .bf16⟩], .v 7, 1, 7, []), ([⟨.v 7, .fmt .bf16⟩, ⟨.v 7, .fmt .bf16⟩, ⟨.v 6, .fmt .fp32⟩], .v 6, 1, 7, []),
   ([⟨.v 6, .fmt .fp32⟩, ⟨.zero, .raw⟩, ⟨.zero, .fmt .e4m3⟩], .v 20, 1, 7, []), ([⟨.v 7, .fmt .bf16⟩, ⟨.lit32 0x80, .scale⟩, ⟨.v 3, .pack⟩], .v 3, 1, 7, []),
   ([⟨.v 3, .pack⟩, ⟨.v 3, .scale⟩, ⟨.zero, .raw⟩], .v 20, 1, 7, []), ([⟨.v 3, .raw⟩, ⟨.v 3, .raw⟩], .v 22, 2, 7, []),
   (ptrSpecs (.v 4), .v 20, 1, 7, []), (ptrSpecs (.v 4) ++ [⟨.v 3, .int64⟩, ⟨.lit32 8, .int64⟩], .v 20, 1, 7, []),
   ([⟨.v 11, .noPoison⟩], .v 20, 1, 7, [])]

/-- Checks 3 to 7 pass for a shape in the lanes of blk0's cohort. -/
def shapeOk (e : List SrcSpec × Opd × Nat × Nat × List Nat) : Bool :=
  (blk0.work ctx0 hd).acts && decide (st0.gate blk0 (blk0.work ctx0 hd).src ((blk0.work ctx0 hd).recv.map (·.1))
    (e.1 ++ needs hd e.2.1) (dstCodes e.2.1 e.2.2.1 ++ if e.2.2.2.1 < 7 then [256 + e.2.2.2.1] else []) e.2.2.2.2 = .pass)

theorem shapes_ok : shapes.all shapeOk = true := by decide

/-- For IntegerInstructionsComplete, PackedInstructionsComplete, FloatInstructionsComplete, ConversionsComplete,
PointerInstructionsComplete, RegisterInstructionsFrame, IntegerElementResults and NanSourcesGiveCanonicalNan. -/
theorem test_witness_fixed : Issuing st0 blk0 ctx0 hd ∧
    ∀ e ∈ shapes, Clear st0 blk0 hd (blk0.work ctx0 hd) e.1 e.2.1 e.2.2.1 e.2.2.2.1 e.2.2.2.2 :=
  ⟨issuing0, fun e he => clear_of (List.all_eq_true.1 shapes_ok e he)⟩

/-- For SpecialFunctionsComplete and PendingAndControlFrame: a free pending tag. -/
theorem test_witness_tagged : Clear st0 blk0 hd (blk0.work ctx0 hd) [⟨.v 6, .fmt .fp32⟩] (.v 20) 1 7 [] ∧
    ∀ l ∈ blk0.tagLanes hd (blk0.work ctx0 hd), st0.tagBusy blk0 l 7 = false := ⟨clear_of (by decide), by decide⟩

/-- For MovkAndSrdComplete. -/
theorem test_witness_movk : let w := (blk0.work ctxW hdG).once blk0
    let l := stW.movkLane blk0 w.desig (.lit32 1)
    ClearPlain stW blk0 w [w.desig] (w.recv.map (·.1)) [⟨.lit32 1, .raw⟩] (dstCodes (.k 15) 1) [] ∧
      stW.gate (blk0.inRun ctxW l) [l] [] [⟨.v 0, .raw⟩] [] [] = .pass := ⟨clearPlain_of (by decide), by decide⟩

theorem test_witness_srd : let w := blk0.work ctx0 hd
    ClearPlain st0 blk0 w w.src (w.recv.map (·.1)) (needs hd (.v 20)) (dstCodes (.v 20) 1) [] := clearPlain_of (by decide)

/-- For the AMAX clause of ConversionsComplete. -/
theorem test_witness_amax : let w := blk0.work ctx0 hd
    let src := ((w.src.flatMap fun l => spanLanes .fp32 .blk l).eraseDups).filter fun l => w.src.contains l
    ClearPlain st0 blk0 w src (w.recv.map (·.1)) ([⟨.v 6, .fmt .fp32⟩] ++ needs hd (.v 20)) (dstCodes (.v 20) 1) [] :=
  clearPlain_of (by decide)

/-- For CrossLaneInstructionsComplete: at lane and at group scope; no result is in flight to any register read. -/
theorem test_witness_cross : let w := blk0.crossWork ctx0 hd
    let v := blk0.crossWork ctxW hdG
    ClearPlain st0 blk0 w w.src (w.recv.map (·.1)) [⟨.v 0, dChk none⟩, ⟨.v 3, idxChk none⟩] (dstCodes (.v 20) 1 ++ [256]) [] ∧
      ClearPlain stW blk0 v v.src (v.recv.map (·.1)) [⟨.v 8, dChk (some .i16)⟩, ⟨.lit32 1, .raw⟩, ⟨.v 8, dChk (some .i16)⟩]
        (dstCodes (.v 20) 1) [] ∧
      ∀ m k, st0.longBusy blk0 m k = false ∧ st0.fixedBusy blk0 m k = false :=
  ⟨clearPlain_of (by decide), clearPlain_of (by decide), fun _ _ => ⟨rfl, rfl⟩⟩

/-- For WideReductionsComplete: at set and at block scope. -/
theorem test_witness_wide_reduction : let w := blk2.crossWork ctx2 hdS
    let v := blk2.crossWork ctx2 hdB
    ClearPlain st2 blk2 w w.src (w.recv.map (·.1)) ([⟨.v 0, dChk (some .i32)⟩] ++ needs hdS (.x 0)) (dstCodes (.x 0) 1) [] ∧
      (∀ l ∈ blk2.tagLanes hdS w, st2.tagBusy blk2 l 1 = false) ∧
      ClearPlain st2 blk2 v v.src (v.recv.map (·.1)) [⟨.v 0, dChk (some .i32)⟩] (dstCodes (.v 20) 1) [] ∧
      ∀ l ∈ blk2.tagLanes hdB v, st2.tagBusy blk2 l 1 = false :=
  ⟨clearPlain_of (by decide), by decide, clearPlain_of (by decide), by decide⟩

/-- For TerminatorsComplete: every clause's checks pass. -/
theorem test_witness_terminators : blk0.dueRefusal ctx0 = none ∧ blk0.acting ctx0 hd = [0, 1] ∧
    st0.gate blk0 [0, 1] [] (needs hd .zero) [] [] = .pass ∧ st0.gate blk0 [0, 1] [0, 1] [] [] [6] = .pass ∧
    (st0.gate blk0 [0, 1] [] [⟨.lit32 0x10010, .int64⟩] [] [] = .pass ∧
      ∀ l ∈ blk0.acting ctx0 hd, (blk0.read l .plain (.lit32 0x10010)).bits.toNat % 4 = 0) ∧
    st0.gate blk0 [] [0, 1] [] [191] [] = .pass ∧ (stW.barDone blk0 ctxW.members = true ∧ blk0.tsErr = none) ∧
    st0.gate blk0 [0, 1] [] [⟨.v 0, .raw⟩] [] [] = .pass ∧ targetOf ctx0.pc 2 % 8 = 0 :=
  ⟨by decide, by decide, by decide, by decide, by decide, by decide, by decide, by decide, by decide⟩

/-- For SetdAndNopComplete: a set is removed, and one is added to a block without it. -/
theorem test_witness_setd : let w := blk2.work ctx2 hdB
    ClearPlain st2 blk2 w [w.desig] [] [⟨.lit32 3, .raw⟩] [] [] ∧
      ({ blk2 with sets := [] } : Block).setOk 3 ((List.range 32).filter (bit (blk2.read w.desig .plain (.lit32 3)).bits.toNat)) = true ∧
      blk2.sets.find? (·.no == 0) = some ⟨0, [0, 1], [], []⟩ ∧ st2.setBusy blk2 ⟨0, [0, 1], [], []⟩ = false :=
  ⟨clearPlain_of (by decide), by decide, by decide, by decide⟩

/-- What CompletesAccess asks of a memory operation in the lanes of blk0's cohort, of pointer V4:V5. -/
def accessOk (m : MemOp) (d : Opd) (tag : Nat) (off data : Opd) (dsps : List SrcSpec) (ctr : Ctr) : Bool :=
  let w := blk0.work ctx0 hd
  let las := w.src.map fun l => (st0.laneAcc blk0 m l (blk0.readPtr l (.v 4)) (blk0.read l .zext off).bits.toNat data).1
  w.acts && decide (st0.gate blk0 w.src (if m.isStore then [] else w.recv.map (·.1)) (ptrSpecs (.v 4) ++ [⟨off, .int64⟩] ++ dsps ++ needs hd d)
      (if m.isStore then [] else dstCodes d m.regs) [] = .pass) &&
    (w.src.all fun l => (st0.memBad blk0 m l (blk0.readPtr l (.v 4)) (blk0.read l .zext off).bits.toNat).isNone) &&
    !blk0.ctrFull w.groups ctr && !st0.actionHeld blk0 w.src m.isLoad && !st0.logHeld blk0 w.groups &&
    !st0.replayHeld blk0 m.kind las && (m.isStore || (blk0.tagLanes hd w).all fun l => !st0.tagBusy blk0 l tag)

/-- For MemoryInstructionsComplete and PendingAndControlFrame: a load of two registers, a store, an atomic and a
compare-and-swap through V4:V5. -/
theorem test_witness_accesses :
    accessOk ⟨.load, .any, nregCount .pair, 8⟩ (.v 20) 7 (.v 3) .zero [] .ld = true ∧
    accessOk ⟨.store, .any, nregCount .one, 8⟩ .zero 0 (.lit32 0x48) (.v 3) (dataSpecs .any (.v 3) 1 true) .st = true ∧
    accessOk ⟨.atom .add, .any, 1, atomWidth .any false⟩ (.v 20) 0 .zero (.v 3) (dataSpecs .any (.v 3) 1 false) .at_ = true ∧
    accessOk ⟨.cas, .any, 1, atomWidth .any false⟩ (.v 20) 0 .zero (.v 22) (dataSpecs .any (.v 22) 2 false) .at_ = true := by decide

/-- For the WAITM clause. -/
theorem test_witness_waitm : blk0.dueRefusal ctx0 = none ∧ blk0.acting ctx0 hd ≠ [] ∧
    st0.gate blk0 [0, 1] [] (ptrSpecs (.v 4) ++ [⟨.v 3, .raw⟩]) [] [] = .pass ∧
    (∀ l ∈ [0, 1], st0.ptrFail blk0 l (ptrOf (blk0.readPtr l (.v 4))) 0 8 false [1, 2, 4, 5, 6] = none ∧
      (ptrOf (blk0.readPtr l (.v 4))).base % 8 = 0) ∧
    st0.actionHeld blk0 [0, 1] true = false ∧ st0.logHeld blk0 [0] = false ∧ st0.replayHeld blk0 .monitor [] = false := by
  decide

/-- For PointerInstructionsComplete and PsubNarrows: an extent that narrows, one that is the pointer's own, one that is too
large. -/
theorem test_witness_psub : let w := blk0.work ctx0 hd
    ClearPlain st0 blk0 w w.src (w.recv.map (·.1)) (ptrSpecs (.v 4) ++ [⟨.lit32 8192, .int64⟩] ++ needs hd (.v 20)) (dstCodes (.v 20) 2) [] ∧
      (∀ l ∈ w.src, (blk0.readPtr l (.v 4)).toNat / 2 ^ 64 % 2 ^ 32 = 8192) ∧
      (∀ l ∈ w.src, (blk0.read l .plain (.lit32 8192)).bits.toNat % 2 ^ 32 = 8192) ∧
      w.src.filter (fun l => decide (8192 < (blk0.read l .plain (.lit32 8193)).bits.toNat % 2 ^ 32)) = [0, 1] ∧
      ∀ l ∈ w.src, ∀ ks ∈ [[1, 2, 3, 5, 6], [1, 2, 5, 6]], st0.ptrFail blk0 l (ptrOf (blk0.readPtr l (.v 4))) 64 8 false ks ≠ some notYet :=
  ⟨clearPlain_of (by decide), by decide, by decide, by decide, by decide⟩

/-- For PointerActionsComplete: PWIDEN to pod scope differs, PWIDEN to the pointer's own scope and class does not; a SUBSCR. -/
theorem test_witness_pointer_actions : let w := blk0.work ctx0 hd
    let pt := ptrOf ptr
    ClearPlain st0 blk0 w w.src (w.recv.map (·.1)) (ptrSpecs (.v 4)) (dstCodes (.v 20) 2) [] ∧
      (∀ l ∈ w.src, st0.ptrFail blk0 l pt 0 pt.limit false [1, 2, 6] = none) ∧
      (st0.rescope blk0 true pt 4 3).isSome = true ∧ st0.rescope blk0 true pt 4 3 ≠ some pt ∧
      st0.rescope blk0 true pt 7 3 = some pt ∧ blk0.ctrFull w.groups .st = false ∧ st0.actionHeld blk0 w.src false = false ∧
      st0.logHeld blk0 w.groups = false ∧
      ClearPlain st0 blk0 w w.src [] (ptrSpecs (.v 4) ++ [⟨.v 3, .int64⟩, ⟨.lit32 128, .int64⟩]) [] [] ∧
      (∀ l ∈ w.src, st0.ptrFail blk0 l pt 64 128 false [1, 2, 5, 6] = none) ∧ blk0.ctrFull w.groups .ld = false ∧
      st0.actionHeld blk0 w.src true = false :=
  ⟨clearPlain_of (by decide), by decide, by decide, by decide, by decide, by decide, by decide, by decide,
    clearPlain_of (by decide), by decide, by decide, by decide⟩

/-! ## Tiles, the matrix engine, shapes -/

/-- Pitch 96 bytes, 16 rows of 96 bytes; a window of 32 columns over 64 (R248). -/
def shape : BitVec 512 :=
  [(0, 96), (1, 16), (2, 96), (5, 32), (6, 64), (7, 1), (8, 1), (9, 1), (10, 1), (13, 9)].foldl (fun h e => shSet h e.1 e.2) 0

/-- A pointer like `ptr` of the formats I8. -/
def ptr8 : BitVec 128 := BitVec.ofNat 128 ((ptrOf ptr).base + 8192 * 2 ^ 64 + 5 * 2 ^ 96 + 5 * 2 ^ 100 + 3 * 2 ^ 109)

/-- blk0 with the pointer in V12:V13, the shape in H0, an operand slot at 0, a window of two slots at 4 and a C slot at 512. -/
def blkT : Block := { blk0 with
  lanes := blk0.lanes.map fun ln => { ln with regs := regs ++ [(12, ⟨ptr8.setWidth 64, .ptrLo⟩), (13, ⟨ptr8.extractLsb' 64 64, .ptrHi⟩)] }
  groups := blk0.groups.map fun g => { g with h := shape :: List.replicate 15 0 }
  slots := [(0, ⟨5, 0, 1, none⟩), (4, ⟨8, 4, 2, some (winCfgOf shape)⟩), (5, ⟨8, 4, 2, none⟩), (512, ⟨3, 512, 1, none⟩)] }

def stT : State := { stW with blocks := [blkT] }
abbrev workT : Work := (blkT.work ctxW hdG).once blkT

theorem onceClear_of {s : State} {b : Block} {c : Ctx} {h : Head} {sps : List SrcSpec} {d : Opd} {n : Nat}
    (e : (((b.work c h).once b).acts && decide (s.gate b ((b.work c h).once b).src (((b.work c h).once b).recv.map (·.1))
      (sps ++ needs h d) (dstCodes d n) [] = .pass)) = true) : OnceClear s b c h sps d n ((b.work c h).once b) := by
  simp only [Bool.and_eq_true, decide_eq_true_eq] at e; exact ⟨rfl, e.1, e.2⟩

theorem issuingT : Issuing stT blkT ctxW hdG := ⟨rfl, rfl, .inr rfl, by decide +kernel⟩

/-- For SlotInstructionsComplete: one slot, a window of 4, a C slot claimed; 513 slots find no room; a slot that TZERO, TREL and
TFLAG name. -/
theorem test_witness_slots : OnceClear stT blkT ctxW hdG [⟨.lit32 4, .int64⟩] (.v 20) 1 workT ∧
    blkT.num workT (.lit32 4) = 4 ∧ stT.logFull blkT workT.groups = false ∧
    (stT.claimOp blkT 1).isSome = true ∧ (stT.claimOp blkT 4).isSome = true ∧ (stT.claimC blkT).isSome = true ∧
    (stT.claimOp blkT 513).isSome = false ∧
    OnceClear stT blkT ctxW hdG [⟨.lit32 512, .int64⟩] .zero 0 workT ∧ (stT.slotRef blkT 512 .any false).isSome = true ∧
    stT.tileHeld blkT workT none = false ∧ OnceClear stT blkT ctxW hdG [⟨.lit32 512, .int64⟩] (.v 20) 1 workT ∧
    (stT.slotRef blkT 512 .c false).isSome = true ∧ ∀ g ∈ workT.groups, stT.slotBusy blkT g true [3] = false :=
  ⟨onceClear_of (by decide +kernel), by decide +kernel, by decide +kernel, by decide +kernel, by decide +kernel, by decide +kernel,
    by decide +kernel, onceClear_of (by decide +kernel), by decide +kernel, by decide +kernel, onceClear_of (by decide +kernel),
    by decide +kernel, by decide +kernel⟩

/-- What TileTransfersComplete asks of TLD.I8, of TST and of TDRAIN.I8 at offset 0 through V12:V13 with the shape in H0. -/
def transferOk (ref : Option SlotRef) (checks : List Nat) (bad : Bool) (rows : List (Nat × Nat)) (align shapeBad : Bool) : Bool :=
  match ref with
  | some r => (stT.tileChecks blkT workT.desig ptr8 checks bad rows align
      (shapeBad || slotRows (decide (512 ≤ r.loc)) (some r) < shGet shape 1) 0 (some r)).isNone
  | none => false

/-- For TileTransfersComplete: TLD.I8 into an operand slot, TST of it, TDRAIN.I8 of a C slot. -/
theorem test_witness_transfers :
    OnceClear stT blkT ctxW hdG (ptrSpecs (.v 12) ++ [⟨.zero, .int64⟩, ⟨.lit32 0, .int64⟩]) .zero 0 workT ∧
    blkT.hBusy [0] 0 = false ∧ blkT.hreg workT 0 = shape ∧ blkT.readPtr workT.desig (.v 12) = ptr8 ∧
    stT.tileHeld blkT workT (some (ptrOf ptr8).stream) = false ∧
    fmtOf (ptrOf ptr8).vfmt = some (tilePtrFmt (.tag .i8)) ∧ (ptrOf ptr8).sfmt = (ptrOf ptr8).vfmt ∧ tileIsC (.tag .i8) = false ∧ tileWidth (.tag .i8) = 1 ∧
    shReserved shape = false ∧ shGet shape 1 = 16 ∧ shGet shape 2 = 96 ∧
    transferOk (stT.slotRef blkT 0 .opWin false) [1, 2, 4, 5, 6] false [rowRange shape 0 96] false false = true ∧
    transferOk (stT.slotRef blkT 0 .any false) [1, 2, 3, 5, 6] false [rowRange shape 0 96] false false = true ∧
    transferOk (stT.slotRef blkT 512 .c false) [1, 2, 3, 4, 5, 6] false [rowRange shape 0 16] false false = true :=
  ⟨onceClear_of (by decide +kernel), by decide +kernel, by decide +kernel, by decide +kernel, by decide +kernel, by decide +kernel,
    by decide +kernel, by decide +kernel, by decide +kernel, by decide +kernel, by decide +kernel, by decide +kernel, by decide +kernel,
    by decide +kernel, by decide +kernel⟩

/-- For MatrixInstructionsComplete: a window configured; an A window, a B slot and a C slot at hand; room in the table. -/
theorem test_witness_matrix : OnceClear stT blkT ctxW hdG [⟨.lit32 4, .int64⟩] .zero 0 workT ∧ (winCfgOf shape).ok = true ∧
    shReserved shape = false ∧ (stT.slotRef blkT 4 .win false).isSome = true ∧ (winCfgOf shape).baserow < 32 * 2 ∧
    (let w := blkT.work ctxW hdG
     ClearPlain stT blkT w w.src [] [⟨.lit32 4, .int64⟩, ⟨.zero, .int64⟩, ⟨.lit32 512, .int64⟩] [] []) ∧
    (stT.mmOperands blkT 4 0 512 3 3).isSome = true ∧ (stT.mmOperands blkT 0 0 512 0 0).isSome = true ∧
    blkT.ctrFull [0] .mm = false ∧ stT.logHeld blkT [0] = false ∧ stT.actionHeld blkT [0, 1] false = false :=
  ⟨onceClear_of (by decide +kernel), by decide +kernel, by decide +kernel, by decide +kernel, by decide +kernel, clearPlain_of (by decide +kernel), by decide +kernel, by decide +kernel,
    by decide +kernel, by decide +kernel, by decide +kernel⟩

/-- A machine whose shape table of one descriptor, of generation 9, stands at virtual 0x18000. -/
def stH : State := { stT with
  dies := stT.dies.modify 0 fun d => { d with shtab := BitVec.ofNat 64 (0x18000 + 32) }
  dmem := Memory.writeN stT.dmem 0x18000 (toBytes 64 shape.toNat) }

/-- For ShapeInstructionsComplete: HLD of handle 9, HSET of field 12, HGET of field 13. -/
theorem test_witness_shapes : OnceClear stH blkT ctxW hdG [⟨.lit32 9, .int64⟩] .zero 0 workT ∧ blkT.hBusy workT.groups 0 = false ∧
    (match stH.spots blkT.view 0x18000 64 .read .device with
     | (s, .ok ps) => let r := s.letIn stH.nextId blkT.die ps none
       r.2 && ofBytes (r.1.readPlaces ps) == shape.toNat && !ps.any r.1.badByte
     | _ => false) = true ∧ shGet shape 13 = 9 ∧
    OnceClear stH blkT ctxW hdG [⟨.lit32 12, .int64⟩, ⟨.v 0, .raw⟩] .zero 0 workT ∧
    OnceClear stH blkT ctxW hdG [⟨.lit32 13, .int64⟩] (.v 20) 1 workT ∧ shReserved (blkT.hreg workT 0) = false ∧
    (∀ l ∈ blkT.tagLanes hdG workT, stH.tagBusy blkT l 0 = false) ∧
    blkT.ctrFull workT.groups .ld = false ∧ stH.actionHeld blkT (workT.groups.flatMap blkT.live) true = false ∧
    stH.logHeld blkT workT.groups = false ∧ stH.hldFollows blkT workT.groups 0x18000 = false ∧
    (match stH.spots blkT.view 0x90000 64 .read .device with
     | (_, .fault va _) => va == 0x90000
     | _ => false) = true :=
  ⟨onceClear_of (by decide +kernel), by decide +kernel, by decide +kernel, by decide +kernel, onceClear_of (by decide +kernel), onceClear_of (by decide +kernel),
    by decide +kernel, by decide +kernel, by decide +kernel, by decide +kernel, by decide +kernel, by decide +kernel, by decide +kernel⟩

/-! ## Engines and system instructions -/

/-- A sync pointer of die scope to virtual 0x18000, and one to 0x19000. -/
def ptrS : BitVec 128 := ({ ptrOf ptr with cls := clSync } : Ptr).pack
def ptrS2 : BitVec 128 := ({ ptrOf ptr with cls := clSync, base := 0x19000 } : Ptr).pack

/-- blk0 with the sync pointers in V12:V13 and V14:V15, a copy's words in V16 and V17 (scope die, one row of 64 bytes to offset 0,
the stamp at 64). -/
def blkE : Block := { blk0 with
  lanes := blk0.lanes.map fun ln => { ln with regs := regs ++
    [(12, ⟨ptrS.setWidth 64, .ptrLo⟩), (13, ⟨ptrS.extractLsb' 64 64, .ptrHi⟩), (14, ⟨ptrS2.setWidth 64, .ptrLo⟩),
     (15, ⟨ptrS2.extractLsb' 64 64, .ptrHi⟩), (16, ⟨BitVec.ofNat 64 (3 * 2 ^ 36 + 8 * 2 ^ 48), .n64⟩),
     (17, ⟨BitVec.ofNat 64 (2 ^ 24 + 64), .n64⟩)] } }

/-- A send list of 16 entries at virtual 0x18000 whose entries stand at 0x19000, and a queue's block at 0x18000 whose tail's header
is at 0x19100. -/
def stE : State := { stW with
  blocks := [blkE]
  dmem := Memory.writeN stW.dmem 0x18000 (toBytes 8 0x19000 ++ [4, 3, 0, 0, 0, 0, 0, 0]) }
def stQ : State := { stE with dmem := Memory.writeN stW.dmem 0x18000 (toBytes 8 0 ++ toBytes 8 0x19100) }
abbrev workE : Work := blkE.engWork ctxW hdG

theorem issuingE : Issuing stE blkE ctxW hdG := ⟨rfl, rfl, .inr rfl, by decide⟩

def clearE (recv : Bool) (sps : List SrcSpec) (codes : List Nat) : Bool :=
  workE.acts && decide (stE.gate blkE workE.src (if recv then workE.recv.map (·.1) else []) sps codes [] = .pass)

/-- For TaggedReadsComplete and UserModePrivilege: COPYW, BINRD, TIME, FLTRD, QSC. -/
theorem test_witness_tagged_reads : clearE true [⟨.v 3, .int64⟩] (dstCodes (.v 20) 1) = true ∧
    clearE true (ptrSpecs (.v 12) ++ [⟨.v 3, .int64⟩]) (dstCodes (.v 20) 1) = true ∧ clearE true [] (dstCodes (.v 20) 1) = true ∧
    (∀ l ∈ blkE.tagLanes hdG workE, stE.tagBusy blkE l 3 = false) ∧ stE.hasUnit 3 = true ∧
    (∀ l ∈ workE.src, stE.binBad blkE l (blkE.readPtr l (.v 12)) = none ∧ blkE.sys l = true) := by decide +kernel

/-- For BinCompletes. -/
theorem test_witness_bin : clearE false (ptrSpecs (.v 12) ++ [⟨.v 3, .int64⟩, ⟨.v 3, .raw⟩]) [] = true ∧
    blkE.ctrFull workE.groups .bn = false ∧ stE.actionHeld blkE (workE.groups.flatMap blkE.live) false = false ∧
    stE.logHeld blkE workE.groups = false ∧
    ∀ l ∈ workE.src, stE.engineHeld blkE (workE.issuers blkE hdG l) (ptrOf ptrS).stream = false := by decide +kernel

/-- For EngineCommandsComplete: a COPY, SENDL, LAUNCH and RELEASE that fail no check, and whose commands are done at once. -/
theorem test_witness_engine :
    clearE true (ptrSpecs (.v 4) ++ [⟨.zero, .int64⟩, ⟨.v 16, .raw⟩, ⟨.v 17, .raw⟩]) (dstCodes (.v 20) 1) = true ∧
    clearE false (ptrSpecs (.v 12) ++ ptrSpecs (.v 4) ++ [⟨.v 16, .raw⟩, ⟨.v 17, .raw⟩]) [] = true ∧
    clearE false (ptrSpecs (.v 12) ++ ptrSpecs (.v 14)) [] = true ∧ clearE true [⟨.v 3, .int64⟩] [] = true ∧
    (stE.copyBad blkE 0 ptr 0 (copyCtl false (blkE.read 0 .plain (.v 16)).bits) (blkE.read 0 .plain (.v 17)).bits blkE.slots).isNone = true ∧
    blkE.prod - blkE.cons = 0 ∧ stE.pubs = [] ∧ stE.accs = [] ∧ blkE.ctrFull workE.groups .cp = false ∧
    blkE.ctrFull workE.groups .st = false ∧ (∀ l ∈ workE.src, stE.engineHeld blkE (workE.issuers blkE hdG l) (ptrOf ptr).stream = false) ∧
    (stE.sendBad blkE (workE.issuers blkE hdG 0) 0 ptrS ptr 64).isNone = true ∧ (stQ.launchBad blkE 0 ptrS ptrS2).isNone = true ∧
    stE.performedBefore blkE [0, 1] stE.nextId = true ∧ (blkE.read 0 .plain (.v 3)).bits.toNat < 256 := by decide +kernel

/-- For SystemInstructionsComplete: TRAP, SWR, TLBX, HALT in system mode; TVEC written, and a lane's SEED. -/
theorem test_witness_system : clearE false [⟨.lit32 7, .int64⟩] [] = true ∧ clearE false [⟨.v 3, .raw⟩] [] = true ∧
    clearE false [⟨.lit32 0x10000, .int64⟩, ⟨.lit32 1, .int64⟩] [] = true ∧ clearE false [] [] = true ∧
    (∀ l ∈ workE.src, blkE.sys l = true) ∧ blkE.ctrFull workE.groups .st = false ∧
    ((stE.swrLane blkE 0 .tvec 0x10001).block? 0).isSome = true ∧ ((stE.swrLane blkE 0 .seed 5).block? 0).isSome = true ∧
    0x10000 % pgBytes .p64k = 0 ∧
    ((({ stE.setBlock (blkE.addOps workE.groups stE.nextId .st) with nextId := stE.nextId + 1 } : State).dropTlb blkE stE.nextId
      [(0x10000, 0x20000)] false).block? 0).isSome = true := by decide +kernel

/-- A group whose handler is open over both lanes, its frame at virtual 0x18000 (R347): memory holds its image, with ACTION 2 and
TARGET 0x10000 at 0x38 and 0x40. -/
def raised0 : Raised := { trap := .userTrap, lanes := [0, 1], failmask := 3, pc := 0x10000, pc2 := 0, detail := 0, addr := 0, user := 7,
                          tscope := .lane, runpos := 0, members := [], coh := 0, fetched := none }
def frame0 : Frame := { raised := raised0, base := 0x18000, runs := [], written := [], deferred := [], coh := 0 }
def blkF : Block := { blk0 with groups := blk0.groups.map fun g => { g with frame := some frame0 } }
def stF : State := { st0 with blocks := [blkF], dmem := Memory.writeN st0.dmem 0x18038 (toBytes 8 2 ++ toBytes 8 0x10000) }

/-- For the TRET clause of SystemInstructionsComplete, and TrapInHandlerHalts. -/
theorem test_witness_tret : (stF.cur = some ctx0 ∧ stF.block? 0 = some blkF ∧ stF.guardGate blkF (blkF.guardLanes ctx0) hd = .pass) ∧
    blkF.acting ctx0 hd = [0, 1] ∧ (blkF.group 0).frame = some frame0 ∧ (blkF.group 0).sysMode = true ∧
    stF.tretHeld blkF frame0 = false ∧ homesOf ctx0.lanes = [0] ∧ (blkF.group 0).raised = none ∧ (stF.die 0).halted = false ∧
    (match stF.spots blkF.view 0x18000 0x1200 .read .either with
     | (s, .ok ps) => (s.away ps).isEmpty && decide (ofBytes (((s.readPlaces ps).drop 0x38).take 8) % 4 = 2 ∧ ofBytes (((s.readPlaces ps).drop 0x40).take 8) % 4 = 0)
     | _ => false) = true := by decide +kernel

/-- For its ACTION 1: the faulting instruction, a NOP, can be fetched again. -/
def nopWords : Nat := (Instr.nop hd).encode.zipIdx.foldl (fun a e => a + e.1.toNat * 2 ^ (32 * e.2)) 0
def stSkip : State := { State.reset.withFetchWord 64 nopWords with
  blocks := [blkF], cur := some ctx0, port := []
  dmem := Memory.writeN (State.reset.withFetchWord 64 nopWords).dmem 0x18038 (toBytes 8 1) }
theorem test_witness_tret_skip : (match stSkip.spots blkF.view 0x18000 0x1200 .read .either with
    | (s, .ok ps) => (s.away ps).isEmpty && decide (ofBytes (((s.readPlaces ps).drop 0x38).take 8) % 4 = 1) && (match s.fetch blkF frame0.raised.pc with
      | (_, .instr i n) => decide (i = .nop hd ∧ n = 8)
      | _ => false)
    | _ => false) = true := by decide +kernel

/-! ## Events: the state is the one an instruction or event before it leaves -/

def after (o : Out) : State := match o with
  | .next t => t
  | _ => State.reset

/-- After IADD V20, V0, V1; a load of V20 under tag 1; the load's page walk; its performance. -/
def stAdd : State := after (exec (.iadd hd .i32 false ⟨.v 20, .v 0, .v 1⟩) st0)
def stLoad : State := after (exec (.ld hd .any .one 1 (.v 20) (.v 4) .zero) st0)
def stWalked : State := after (exec (.pageWalkComplete (stLoad.nextId - 1)) stLoad)
def stDone : State := after (exec (.accessPerformed (stLoad.nextId - 1) []) stWalked)

/-- For ResultEventsComplete and ResultWriteFrame: a due result of both lanes (at cycle 4), and its capture by Y0. -/
theorem test_witness_fixed_due : let s := { stAdd with cycle := 4 }
    s.fixed.length = 2 ∧ (∀ f ∈ s.fixed, s.fixedDue f = true ∧ (s.block? f.blk).isSome = true ∧ f.wrs.any (Wr.names 1 21) = false) ∧
      (s.fixed.any fun f => f.wrs.any (Wr.names 1 20)) = true := by decide +kernel

/-- For ResultEventsComplete, AccessPerformedFrame: a load to be walked, to be performed, and to be completed. -/
theorem test_witness_load : let id := stLoad.nextId - 1
    (∀ a ∈ stLoad.accs, a.id = id ∧ (stLoad.block? a.blk).isSome = true) ∧ stLoad.accs.length = 1 ∧
    (∀ a ∈ stWalked.accs, a.id = id ∧ a.kind = .load ∧ a.las.all (·.done) = false) ∧ stWalked.accs.length = 1 ∧
    (∀ o ∈ stDone.longs, o.id = id ∧ o.ready = true ∧ o.waits = none ∧ o.shown = [] ∧ stDone.fixedBefore blk0 o = false ∧ o.body = .access ∧
      stDone.accs.any (fun a => a.id == id && a.deferred) = false) ∧ stDone.longs.length = 1 := by decide +kernel

/-- A store of V3 by one lane through V4:V5, walked. -/
def stStore : State := after (exec (.st hd .any .one (.v 4) .zero (.v 3)) { st0 with cur := some { ctx0 with lanes := [0] } })
def stStored : State := after (exec (.pageWalkComplete (stStore.nextId - 1)) stStore)

/-- For StoreWritesItsBytes. -/
theorem test_witness_store : (Memory.wf stStored.dmem = true ∧ Memory.wf stStored.hmem = true) ∧ stStored.accs.length = 1 ∧
    ∀ a ∈ stStored.accs, a.kind = .store ∧ (stStored.block? a.blk).isSome = true ∧ a.las.length = 1 ∧
      ∀ x ∈ a.las, stStored.laneHeld a x = false ∧
        (match x.phase with
         | .placed ps => decide (ps = (List.range 8).map fun k => .dev (0x18000 + k)) && decide (0x18008 ≤ stStored.capacity) && (stStored.unfilled ps).isNone && decide ps.Nodup &&
             (stStored.letIn a.id 0 ps (some x.data)).2
         | _ => false) = true := by decide +kernel

/-- After a WAITM of the word V4:V5 names, its first read performed, and a SUBSCR of 128 bytes. -/
def stWait : State := after (exec (.waitm hd .eq true (.v 4) (.v 3) 0) st0)
def stSub : State := after (exec (.subscr hd (.v 4) .zero (.lit32 128)) st0)

theorem test_witness_monitor_action : let s := { stWait with accs := [] }
    s.monitors.length = 1 ∧ (∀ m ∈ s.monitors, m.lanes ≠ [] ∧ (s.block? m.blk).isSome = true) ∧ stSub.actions.length = 1 ∧
    ∀ t ∈ stSub.actions, stSub.actionReady t = true ∧
      (t.ranges.foldl (fun acc e => let q := acc.1.actRange blk0 t.kind t.id e; (q.1, acc.2 && q.2)) (stSub, true)).2 = true := by
  decide +kernel

/-- A group of 32 lanes whose rendezvous at group scope is complete. -/
def rdv0 : Rdv := { id := 9, scope := .group, pc := 0x10000, instr := .nop hdG, len := 8, members := [0], arrived := [0], order := [0],
                    nextIssue := 0, fired := false }
def blkR : Block := { fetchBlock 0x10000 with
  cohorts := (fetchBlock 0x10000).cohorts.map fun k => { k with stage := .rdv 9 }, rdvs := [rdv0] }

/-- Two groups of a partition that may regroup, their lanes between runs. -/
def blkG : Block := { fetchBlock 0x10000 with
  lanes := (List.range 64).map fun m => { (fetchBlock 0x10000).lane (m % 32) with phys := m, st := .between 0x10000 0 .ready }
  groups := (List.range 2).map fun _ => { (fetchBlock 0x10000).group 0 with ctl := 0x80 }
  cohorts := [] }

/-- A trap raised in both lanes of blk0, to be entered. -/
def blkP : Block := { blk0 with groups := blk0.groups.map fun g => { g with raised := some raised0 } }

/-- A handler and a frame area at virtual 0, its page of the frames of core 0 mapped; and the same with that page unmapped. -/
def stTrap : State := { st0.modDie 0 fun d => { d with tvec := 0x10001, tframe := 1 } with
  blocks := [blkP], dmem := Memory.writeN st0.dmem 0x58000 (toBytes 8 0x2001F) }
def stUnmapped : State := { stTrap with dmem := Memory.writeN st0.dmem 0x58000 (toBytes 8 0) }

/-- For IssueEventsComplete. -/
theorem test_witness_issue_events : (match (st0.fillPart 0 0 0).pickGroup 0 0 0 with
      | some (_, _, .cohorts ks) => ks.length == 1
      | _ => false) = true ∧
    (match (({ st0 with blocks := [{ blkR with rdvs := [{ rdv0 with fired := true }] }] } : State).fillPart 0 0 0).pickGroup 0 0 0 with
      | some (_, _, .rdv r) => r.id == 9
      | _ => false) = true ∧
    ({ st0 with blocks := [blkG] } : State).mayExchange blkG 0 32 = true ∧ blkR.rdvReady rdv0 = true ∧
    (let s : State := { st0 with blocks := [blkR] }
     let b1 := (Block.required rdv0).foldl (fun b l => s.sendHome b l) blkR
     ∀ l ∈ Block.required rdv0, (b1.lane l).phys = l) ∧
    (let s : State := { st0 with blocks := [blkP] }
     (s.die 0).halted = false ∧ blkP.isSaved = false ∧ s.drained blkP raised0.lanes = true) ∧
    st0.picked = [] ∧ (bit (st0.die 0).tvec.toNat 0 && bit (st0.die 0).tframe.toNat 0) = false ∧
    (match stUnmapped.spots 0 (stUnmapped.frameBase blkP 0) 8192 .write .either with
     | (_, .fault ..) => true
     | _ => false) = true ∧
    (bit (stTrap.die 0).tvec.toNat 0 && bit (stTrap.die 0).tframe.toNat 0) = true ∧
    (match stTrap.spots 0 (stTrap.frameBase blkP 0) 8192 .write .either with
     | (s1, .ok ps) =>
       let ws := ps.zip (s1.frameImage blkP 0 raised0)
       (s1.letIn (frameWho 0 0) 0 (ws.map (·.1)) (some (ws.map (·.2)))).2
     | _ => false) = true := by decide +kernel

/-- A scratchpad of 4 KiB backed at virtual 0x18000, line 1 of it filled and written; an exited block; a slot to be returned. -/
def blkS : Block := { blk0 with
  scrSize := 4096, regions := [⟨0x18000, 1, 0, false⟩], scratch := [(130, 5)], lines := [(1, ⟨false, 4, 24⟩)] }
def stS : State := { st0 with blocks := [blkS] }
def blkX : Block := { blk0 with lanes := blk0.lanes.map fun ln => { ln with st := .exited }, cohorts := [] }
def stX : State := { st0 with blocks := [blkX] }
def stRel : State := after (exec (.trel hdG (.lit32 0)) stT)

/-- For StorageEventsComplete. -/
theorem test_witness_storage : blkS.needsFill 0 = true ∧ (stS.fillLine 0 0).2 = .ok ∧ blkS.wbWaits = none ∧
    (stS.writeBackLine blkS 1).2 = .ok ∧ (stS.writeBackLine blkS 1).1.readByte (.dev (0x18000 + 130)) = 5 ∧
    stRel.tileOps.length = 1 ∧ (∀ t ∈ stRel.tileOps, t.kind = .trel ∧ stRel.releaseReady t = true) ∧
    (blkX.st ≠ .retained ∧ blkX.isSaved = false ∧ stX.blockDone blkX = true ∧ blkX.tsErr = none ∧
      ((blkX :: stX.clusterKept blkX).find? fun q => !q.dirtyLines.isEmpty) = none) := by decide +kernel

/-- A COPY of blkE published, accepted; an MMQ of blkT entered, its pass granted; a TZERO; a BIN of each kind; a SENDL and its
entry accepted. -/
def stCopy : State := after (exec (.copy hdG (.v 20) (.v 4) .zero (.v 16)) stE)
def stAccepted : State := after (exec (.copyAccept 0) stCopy)
def stMmq : State := after (exec (.mmq hdG (.tag .i8) 0 0 false (.lit32 0) (.lit32 0) (.lit32 512)) stT)
def stGrant : State := after (exec (.matrixGrant blkT.cluster) stMmq)
def stZero : State := after (exec (.tzero hdG (.lit32 512)) stT)
def stBin (op : BinOp) : State := after (exec (.bin hdG op (.v 12) .zero .zero) stE)
def stSendl : State := after (exec (.sendl hdG (.v 12) (.v 4) (.v 2)) stE)
def stSend : State := after (exec (.accessPerformed (stSendl.nextId - 1) []) stSendl)
def stLaunch : State := after (exec (.launch hdG (.v 12) (.v 14)) stQ)

def isOk {α : Type} : EngRes α → Bool
  | .ok _ _ => true
  | _ => false


/-- For CopyEventsComplete: an entry to be accepted; a copy whose first chunk is its last, its bytes read and its room found, with
its stamp's; and one whose second line has no page. -/
theorem test_witness_copies : stCopy.acceptNext 0 0 = some 0 ∧ stCopy.rings.length = 1 ∧
    (∀ r ∈ stCopy.rings, r.lanes ≠ []) ∧ (∀ b ∈ stCopy.blocks, ctlSlot (b.ringEntry (b.cons + 1)).2.1 = false) ∧
    stAccepted.copies.length = 1 ∧
    ∀ c ∈ stAccepted.copies, stAccepted.copyTurn c = true ∧ stAccepted.engWaits c.blk c.ord (ctlStream c.ctl) c.lanes = false ∧
      ctlSlot c.ctl = false ∧ (match stAccepted.copyStep blkE c 32 with
        | .ok _ (z, _) => decide (z = c.total)
        | _ => false) = true ∧ stAccepted.slotBefore blkE (homesOf c.lanes) c.ord false c.dslots = false ∧
      stAccepted.copyBefore blkE (homesOf c.lanes) c.ord c.dslots = false ∧
      (let c2 : Copy := { c with src := c.src + 0x7F80#128, len := 2 ^ 24 + 256 }
       (match stAccepted.copyStep blkE c2 32 with
        | .fault s0 _ _ _ => (match s0.copyStep blkE c2 1 with
          | .ok _ (z, _) => decide (z = 128 ∧ z ≠ c2.total)
          | _ => false)
        | _ => false) = true) := by decide +kernel

/-- For MatrixEventsComplete: a transfer due; a lead entry; a pass. -/
theorem test_witness_matrix_events : stMmq.quarters.length = 1 ∧ (stMmq.lead blkT.cluster).isSome = true ∧
    stGrant.passes.length = 1 ∧ stZero.tileOps.length = 1 ∧
    ∀ t ∈ stZero.tileOps, t.kind ≠ .trel ∧ stZero.tileReady blkT t = true ∧ isOk (stZero.tileEffect blkT t) = true := by decide +kernel

/-- For BinAndSendEventsComplete: each kind of bin command; a list with an entry to accept; the entry's message. -/
theorem test_witness_bins : (∀ op ∈ [BinOp.open_, .item, .close], let s := stBin op
      s.bins.length = 1 ∧ ∀ c ∈ s.bins, s.binNext 0 = some c ∧ c.kind = op ∧ c.waits = none ∧
        s.engWaits c.blk c.op (ptrOf c.ptr).stream c.lanes = false ∧ c.onRefused 0 64 = false ∧
        isOk ((match op with | .open_ => State.planOpen | .item => State.planItem | .close => State.planClose) s blkE c) = true) := by
  decide +kernel

theorem test_witness_sends : stSend.sendLists.length = 1 ∧
    (∀ t ∈ stSend.sendLists, t.die = 0 ∧ t.stopped = false ∧ t.waits = none ∧ stSend.inFlight t < 64 ∧ t.addr = 0x18000 ∧
      (match stSend.spots t.die t.addr 64 .both .device with
       | (s1, .ok ps) => (match s1.engFetch (listWho t.addr) t.die ps with
         | .ok s2 (cb, bad) =>
           let sc := sendCtlOf cb
           decide (sc.lcons < sc.lprod) && !bad.any id &&
             (match s2.spots t.die ((sc.ebase + 32 * (sc.lcons % 2 ^ sc.caplog)) % 2 ^ 64) 32 .read .either with
              | (s3, .ok es) => (match s3.engFetch (listWho t.addr) t.die es with
                | .ok s4 (eb, _) => (s4.importAway 0 (fieldAt eb 16 8 / 2 ^ 52)).isEmpty &&
                    (s4.letIn (listWho t.addr) 0 ((ps.drop 0x18).take 8) (some (toBytes 8 (sc.lcons + 1)))).2
                | _ => false)
              | _ => false)
         | _ => false)
       | _ => false) = true) ∧
    (let s := after (exec (.sendEntryAccept 0 0x18000) stSend)
     s.sends.length = 1 ∧ ∀ e ∈ s.sends, e.held = false ∧ e.done = false ∧ e.waits = none ∧ isOk (s.sendMove e) = true) := by
  decide +kernel

/-- For its ACCESS_PERFORMED clause: a LAUNCH's append. -/
theorem test_witness_launch_append : stLaunch.accs = [] ∧ stLaunch.appends.length = 1 ∧ stLaunch.block? 0 ≠ none ∧
    ∀ a ∈ stLaunch.appends, a.kind = .launch 0x18000 0x19000 ∧ a.blk = 0 ∧
      (∀ b, stLaunch.block? 0 = some b → stLaunch.appendHeld b a = false) ∧
      (match stLaunch.spots a.die 0x19000 8 .write .device with
       | (s1, .ok hs) => (match s1.spots a.die 0x18008 8 .both .device with
         | (s2, .ok qs) => (s2.letIn a.id a.die qs none).2 && decide (hs.length = 8 ∧ qs.length = 8 ∧
             ofBytes ((s2.letIn a.id a.die qs none).1.readPlaces qs) = 0x19100)
         | _ => false)
       | _ => false) = true ∧
      (let t := after (exec (.accessPerformed a.id []) stLaunch)
       t.appends = [] ∧ ofBytes ((List.range 8).map fun k => t.readByte (.dev (0x18008 + k))) = 0x19000 ∧
         ofBytes ((List.range 8).map fun k => t.readByte (.dev (0x19100 + k))) = 0x19000) := by decide +kernel

/-! ## The front end, faults, pre-emption -/

/-- A queue's block at virtual 0x18000 that links a header at 0x18100: code at 0x10000, one group of 32 lanes a block, an index field
of 3 bits with extent 2, 8 V registers, 1 KiB of scratchpad, CWORD 0x18200, CSEQ 7. -/
def header : List Byte :=
  toBytes 8 0 ++ toBytes 8 0x10000 ++ toBytes 8 0 ++ toBytes 8 0 ++ toBytes 8 (5 + 3 * 2 ^ 12 + 2 ^ 36 + 2 * 2 ^ 39) ++
    toBytes 8 (8 + 2 ^ 8) ++ toBytes 16 2 ++ toBytes 8 0x18200 ++ toBytes 8 7 ++ toBytes 48 3
def stHdr : State := { State.reset.withFetchWord 64 0 with
  blocks := [], port := []
  dmem := Memory.writeN (Memory.writeN (State.reset.withFetchWord 64 0).dmem 0x18100 header) 0x18000 (toBytes 8 0x18100) }
def stQueue : State := after (exec (.queueEnable 0 0 0x18001) stHdr)
def stRead : State := after (exec (.headerRead 0 0) stQueue)
def stPlaced : State := after (exec (.blockPlace 0) stRead)

/-- The launch with all its blocks placed and gone. -/
def stEnd : State := { stRead with launches := stRead.launches.map fun l => { l with placed := l.total } }

/-- For FrontEndEventsComplete. -/
theorem test_witness_queue : stHdr.inService 0 = true ∧ (Sparse.find? (stHdr.die 0).queues 0).isNone = true ∧
    (stQueue.die 0).queues.length = 1 ∧ stQueue.frontUp 0 = true ∧ (stQueue.wake 0).frontUp 0 = true ∧ stQueue.queueTurn 0 = some 0 ∧
    (stQueue.wake 0).queueTurn 0 = some 0 ∧ (stQueue.wake 0).launches = [] ∧
    ∀ q ∈ (stQueue.die 0).queues, q.1 = 0 ∧ (match (stQueue.wake 0).readHeader 0 0 q.2 with
      | .ok s (.got _ h (some (rd, wr, rg))) =>
        headerOk h false && rangesOk rd && rangesOk wr && s.regionsOk 0 (resScr h.lres) rg
      | _ => false) = true := by decide +kernel

theorem test_witness_launch : stRead.launches.length = 1 ∧ (stRead.die 0).halted = false ∧ (stRead.die 0).pwrState = 0 ∧
    stRead.inService 0 = true ∧ (match stRead.frontNext 0 with | some (.place ..) => true | _ => false) = true ∧ stPlaced.blocks.length = 1 ∧
    (∀ l ∈ stRead.launches, l.readyAt = some 0 ∧ ({ stRead with cycle := 65536 } : State).launchReady l = true ∧ l.placed < l.total) ∧
    stEnd.launches.length = 1 ∧ stEnd.holders = [] ∧ ∀ l ∈ stEnd.launches, stEnd.launchReady l = true ∧ l.total ≤ l.placed ∧ l.live = [] ∧
      l.waits = none ∧ (match stEnd.engSpots l.die l.refused l.cword 8 .write .either with
        | .ok s (some ps) => ps.all (fun p => match p with | .dev _ => true | _ => false) &&
            isOk (s.engPrepare l.id l.die ps (toBytes 8 l.cseq.toNat) false)
        | _ => false) = true := by decide +kernel

/-- For FaultEventsComplete: an open record, a signal delayed by a microsecond, 1,024 cycles gone. -/
def rec1 : FaultRec := ⟨0x18, 1, 1, 1, 0, 1, 1⟩
def stFault : State := { (st0.setFaultRec 0 3 rec1).modDie 0 fun d => { d with msixDue := true, msixAt := some 0, time := 1000 } with
  cycle := 1024 }
theorem test_witness_faults : stFault.inService 0 = true ∧ ({ stFault with dieMask := 14 } : State).inService 0 = false ∧ (stFault.faultRec 0 3).st = 1 ∧ (stFault.die 0).msixDue = true ∧
    (stFault.die 0).msixAt = some 0 ∧ 0 + 1000 ≤ (stFault.die 0).time.toNat ∧
    1024 * ((stFault.die 0).quiesce + 1) ≤ stFault.cycle := by decide +kernel

/-- A placed block of 8 V registers whose lanes stand between runs, its window ended, and then the same block saved to slot 1; a save
aperture of 16 MiB at virtual 0x1000000, of whose slot 1 2 MiB are mapped at physical 0x800000 for the restore (the word there says
saved) and none for the save (no page is mapped, and its pages are refused). -/
def blkW : Block := { blk0 with
  vregs := 8, launch := 5, lanes := blk0.lanes.map fun ln => { ln with regs := [], st := .between 0x10000 0 .ready }, cohorts := [],
  st := .window 0, wbRefused := [0x140, 0x144, 0x145, 0x14D, 0x151] }
def blkV : Block := { blkW with st := .saved 1 true, wbRefused := [] }
def stSave : State := { stRead.modDie 0 fun d => { d with saveap := 0x1000018, ptroot := 0 } with
  blocks := [blkW]
  launches := stRead.launches.map fun l => { l with id := 5, live := [0] } }
def stSaved : State := { stSave.modDie 0 fun d => { d with ptroot := 0x40001 } with
  blocks := [blkV]
  dmem := Memory.writeN (Memory.writeN stSave.dmem 0x58A00 (toBytes 8 0x80003F)) 0x800000 (toBytes 8 0x102) }

/-- For PreemptionEventsComplete. -/
theorem test_witness_window : (let b : Block := { blkW with st := .window 7 }
      b.allParked = false ∧ 7 ≤ ({ stSave with cycle := 7 } : State).cycle) ∧
    (stSave.die 0).saveRange = some (0x1000000, 2 ^ 24) := by decide +kernel

theorem test_witness_save : blkW.unstart = blkW ∧ blkW.preempting = true ∧ blkW.isSaved = false ∧ blkW.wbWaits = none ∧ blkW.hasExited = false ∧
    (∀ q ∈ stSave.clusterOf blkW, stSave.stopped q = true ∧ stSave.settled q = true) ∧ blkW.dirtyLines = [] ∧
    stSave.freeSlot 0 (2 ^ 24) = some 1 ∧ blkW.tables = [] ∧ blkW.allParked = false ∧
    isOk (stSave.putImage 0 (ctxBase 0x1000000 1) blkW.wbRefused
      (stSave.image blkW (stSave.saveBlock blkW true [] 1) true [] fun _ => List.range 8)) = true := by decide +kernel

theorem test_witness_restore : (stSaved.die 0).halted = false ∧ (stSaved.die 0).pwrState = 0 ∧
    (∀ l ∈ stSaved.launches, l.id = 5 ∧ l.suspended = false) ∧ (stSaved.clusterOf blkV).length = 1 ∧ blkV.isSaved = true ∧
    (match stSaved.frontNext 0 with | some (.restore k) => k == 0 | _ => false) = true ∧
    stSaved.readVirtWord 0 (ctxBase 0x1000000 1) = some 0x102 ∧ stSaved.virtAway 0 (ctxBase 0x1000000 1) 8 = [] ∧ (stSaved.seatAll [blkV] 7).isSome = true := by decide +kernel

/-! ## The fabric, the host, links -/

/-- The device at pod position 0 with port group 0 facing the device at 1; export entry 0 of CD0 (table at virtual 0x20000) opens 4 KiB
at virtual 0x18000 for reading and writing to tenant 3 at generation 5. -/
def stP : State := { stW.modDie 0 fun d => { d with exptab := 0x20001 } with
  kgs := ⟨0, 0xFF, false, 1, [], 0, 0⟩ :: List.replicate 15 ⟨0, 0, false, 3, [], 0, 0⟩
  kvmap := 0x81 :: List.replicate 15 0
  peers := List.replicate 16 ⟨false, false, 0, 0, 0, 0, [], 0⟩
  dmem := Memory.writeN (Memory.writeN stW.dmem 0x58010 (toBytes 8 0x2001F)) 0x20000
    (toBytes 8 (5 + 3 * 2 ^ 40 + 7 * 2 ^ 61) ++ toBytes 8 0x18000 ++ toBytes 8 4096) }
def msg (type : Nat) (off : Word) (body : List Byte) : Msg :=
  { hdr := mkHdr 0 0 1 0 type 3 1 ((body.length + 15) / 16) 0 0 5, off := off, body := body }

/-- The 16 bytes at offset 32 of the region; a store of 4 bytes and an atomic addition of I32 there. -/
def at32 : Word := reqWord 32 16 15 false
def syncSt : List Byte := [1, 0, 4, 0] ++ List.replicate 12 0 ++ toBytes 16 9
def syncAdd : List Byte := [3, BitVec.ofNat 8 (tagCode .i32), 4, 0] ++ List.replicate 12 0 ++ toBytes 16 9

def receivedOk (s : State) (m : Msg) (type : Nat) : Bool := s.hasUnit 5 && s.peerWaits.isEmpty && s.msgOk m type
def admittedOk (s : State) (m : Msg) (need : Need) (n : Nat) (data : State → Option (List Byte)) : Bool :=
  match ((s.noteSeq m).wake m.ddie).exportPlaces m.ddie m.expidx m.tenant m.egen m.at_ n need with
  | (s1, .ok ps) => ps == (List.range n).map (fun k => Place.dev (0x18020 + k)) &&
      (s1.letIn (msgWho m) m.ddie ps (data s1)).2 &&
      (({ s1 with holders := s1.holders.filter fun h => !(h.ofMsg (linesOf ps) m && true) } : State).letIn (msgWho m) m.ddie ps (data s1)).2 &&
      (({ s1 with holders := s1.holders.filter fun h => !(h.ofMsg (linesOf ps) m && !h.excl) } : State).letIn (msgWho m) m.ddie ps (data s1)).2 &&
      (s1.leases.filter fun e : Lease => (linesOf ps).contains e.line && !e.ended).isEmpty && !ps.any s1.badByte
  | _ => false

/-- For FabricRequestsComplete: each request is received and admitted at its 16 (or 4) bytes; no lease stands there, a lease may be
waited on. -/
theorem test_witness_requests :
    ((receivedOk stP (msg tRead at32 []) tRead && admittedOk stP (msg tRead at32 []) .read 16 fun _ => none) &&
      (receivedOk stP (msg tReadShared at32 []) tReadShared && admittedOk stP (msg tReadShared at32 []) .read 16 fun _ => none) &&
      (receivedOk stP (msg tOwn at32 []) tOwn && admittedOk stP (msg tOwn at32 []) .write 16 fun s =>
        some (s.readPlaces ((List.range 16).map fun k => .dev (0x18020 + k)))) &&
      ([tWriteBack, tPayload, tStamp].all fun t =>
        let m := msg t 32 (toBytes 16 9)
        receivedOk stP m t && admittedOk stP m .write 16 fun _ => some m.body)) = true ∧
    stP.quiescing = false ∧ stP.leaseWaits = [] := by decide +kernel

theorem test_witness_sync_requests : let off := reqWord 32 4 15 false
    ([syncSt, syncAdd].all fun b => receivedOk stP (msg tSync off b) tSync) = true ∧
    (syncReq (0 :: syncSt.tail)).kind = .load ∧ (syncReq syncSt).kind = .store ∧ (syncReq syncAdd).kind = .atom .add ∧
    admittedOk stP (msg tSync off (0 :: syncSt.tail)) .read 4 (fun _ => none) = true ∧
    admittedOk stP (msg tSync off syncSt) .write 4 (fun _ => some [9, 0, 0, 0]) = true ∧
    admittedOk stP (msg tSync off syncAdd) .both 4 (fun _ => some [9, 0, 0, 0]) = true ∧
    atomBytes (.atom .add) (syncReq syncAdd).fmt ⟨0, 0, 32, 4, (syncReq syncAdd).data, [], [], .walk, [], [], []⟩ [1, 0, 0, 0] =
      some [10, 0, 0, 0] := by decide +kernel

/-- A request of send entry 4, of an engine operation and of a lane, each with sequence number 7 to the device at 1. -/
def reqFor (k : ReqFor) : Request := ⟨7, 1, 0, k, msg tRead at32 [], 0, 1, true⟩
def stReq (k : ReqFor) : State := { stP.modDie 0 fun d => { d with time := 1000000 } with requests := [reqFor k] }

/-- The die holds a line of the device at 1 exclusively, 16 bytes of it. -/
def lineX : RemoteLine :=
  { die := 0, pos := 1, ddie := 0, expidx := 4, tenant := 3, egen := 5, off := 0, bytes := toBytes 16 9, line := 0, facet := 15, lease := none,
    excl := true, bad := false }

/-- The device at position 2, which the grandmaster at 1 faces, position 0 being empty. -/
def stJoin : State := { stP with podpos := 2, peers := ⟨true, false, 0, 0, 0, 0, [], 0⟩ :: stP.peers.tail }
def msgT (k : Nat) : Msg := { hdr := mkHdr 2 0 1 0 tTime 0 1 1 0 0 0, off := 0, body := timeBody k 500 }

/-- For FabricRepliesComplete. -/
theorem test_witness_replies : ([tInval, tPush, tRevoke, tAck, tError, tData].all fun t => receivedOk stP (msg t 7 []) t) = true ∧
    (∀ k ∈ [ReqFor.send 4 0, .eng 1 1 0, .lane 2 0],
      ((stReq k).noteSeq (msg tData 7 [])).requestOf (msg tData 7 []) = some (reqFor k) ∧ receivedOk (stReq k) (msg tData 7 []) tData = true ∧
      (reqFor k).msg.type ≠ tOwn ∧ (reqFor k).sentAt.toNat + 1000000 ≤ ((stReq k).die (reqFor k).msg.sdie).time.toNat) ∧
    (stP.hasUnit 5 = true ∧ stP.hasUnit 4 = true) ∧ (msgT 0).dest ≠ stP.pos ∧ (msgT 0).src ≠ stP.pos ∧
    (msg tRead at32 []).src = ({ stP with podpos := 1 } : State).pos ∧
    (((({ stP with remotes := [lineX] } : State).noteSeq (msg tInval 7 [])).wake 0).remotes.find? fun r =>
      (r.die == (msg tInval 7 []).ddie && r.pos == (msg tInval 7 []).src && r.line == (msg tInval 7 []).at_ / 128) && r.excl) = some lineX := by
  decide +kernel

theorem test_witness_time : (∀ k ∈ [0, 1], receivedOk stJoin (msgT k) tTime = true ∧ ((msgT k).body.getD 0 0 = 0 ↔ k = 0)) ∧
    (stJoin.noteSeq (msgT 1)).joined = false ∧ (stJoin.noteSeq (msgT 1)).master = some (msgT 1).src ∧
    (let m := msg tTime 0 (timeBody 0 500)
     receivedOk stP m tTime = true ∧ m.body.getD 0 0 = 0 ∧ (stP.noteSeq m).master = none) := by decide +kernel

/-- For LinkEventsComplete, StartEventsComplete, PowerEventsComplete: a group in service that resumed more than 2 µs ago, a group
retraining after port 3 failed, within its window and past it; a halted device, an idle die with a target deeper than its state. -/
def stUp : State := stP.modDie 0 fun d => { d with time := 50000000 }
def stRetrain (t : Word) : State := { stP.modDie 0 fun d => { d with time := t } with
  kgs := ⟨0, 0xFF, false, 2, [3], 0, 0⟩ :: stP.kgs.tail, podTime := 50000000 }
def stIdle : State := { stH.modDie 1 fun d => { d with pwrTarget := 2 } with blocks := [] }
theorem test_witness_links : stP.hasUnit 5 = true ∧ (stP.kg 0).gstate = 1 ∧ (stP.kg 0).up.getLsbD 3 = true ∧
    (stUp.kg 0).gstate = 1 ∧ (stUp.kg 0).resumedAt + 2000 ≤ stUp.now ∧ (stP.kg 0).resumedAt = 0 ∧ stP.now = 0 ∧
    ((stRetrain 7).kg 0).gstate = 2 ∧ ((stRetrain 7).kg 0).failing = [3] ∧ ((stRetrain 50000000).kg 0).gstate = 2 ∧
    ((stRetrain 50000000).kg 0).stallAt + (stRetrain 50000000).window ≤ (stRetrain 50000000).now ∧
    ((stRetrain 7).kg 0).stallAt = 0 ∧ (stRetrain 7).window = 50000 ∧ (stRetrain 7).now = 7 ∧
    (stRetrain 7).faces 2 = false ∧ ((stRetrain 7).peer 2).lost = false ∧
    ((stRetrain 7).peer 2).heard + 2000 ≤ (stRetrain 7).podTime.toNat := by decide +kernel
theorem test_witness_dies : stIdle.inService 1 = true ∧ stIdle.idleDie 1 = true ∧
    (stIdle.die 1).pwrState.toNat < (stIdle.die 1).pwrTarget.toNat ∧
    (let s : State := stIdle.modDie 1 fun d => { d with halted := true }
     ((s.wake 1).die 1).halted = true ∧ (s.wake 1).bootState = 0) := by decide +kernel

/-- A cold start of all four dies from a boot memory without images, and one step of it; the start after its ninth step. -/
def stStart : State := after (exec (.coldStart 15 []) { st0 with blocks := [] })
theorem test_witness_start : stStart.bootState = 1 ∧ stStart.bootStep = 0 ∧ stStart.images = [] ∧ stStart.startReady = true ∧
    stStart.boot = some ⟨false, false, 15, 15⟩ ∧ stStart.imageOk false 0 = false ∧
    (after (exec (.coldStart 15 []) stStart)).bootState = 2 ∧ (after (exec (.coldStart 15 []) stStart)).dieMask = 0 ∧
    ({ stStart with bootStep := 1 } : State).imageOk false 1 = false ∧
    (({ stStart with bootStep := 9 } : State).startStep ⟨false, false, 15, 15⟩).bootState = 0 := by decide +kernel


/-- For HostEventsComplete: an address the host may reach, one beyond memory; a half of a host line that a die holds dirty, and one that a
reset lost; reads and writes that nothing holds. -/
def stHost : State := { stP with filter := [⟨3, [0], false⟩, ⟨5, [], true⟩], hostDir := [⟨1, HalfSt.none, ⟨.m, 0⟩⟩] }
theorem test_witness_host : stHost.hostRefused 0x18000 64 = false ∧ stHost.hostRefused (2 ^ 60) 64 = true ∧
    (stHost.letIn (2 ^ 63 + 0x18000) (stHost.homeDie 0x18000) (accPlaces 0x18000 64) none).2 = true ∧ stHost.hostBehind = false ∧
    ({ stHost with hostWait := [.hostWrite 0x18000 [1]] } : State).hostBehind = true ∧ ({ stHost with dieMask := 7 } : State).inService 3 = false ∧
    ({ stHost with capGrade := 1 } : State).hasUnit 5 = false ∧
    (stHost.letIn (2 ^ 62 + 0x18000) (stHost.homeDie 0x18000) (accPlaces 0x18000 8) (some (toBytes 8 1))).2 = true ∧
    halfIod 3 = 0 ∧ stHost.filter.find? (·.line == 3) = some ⟨3, [0], false⟩ ∧ (stHost.half 3).dirty = true ∧ (stHost.half 3).owner = 0 ∧
    (((List.range 64).map fun k => Place.host (64 * 3 + k)).any stHost.badByte) = false ∧
    halfIod 5 = 0 ∧ stHost.filter.find? (·.line == 5) = some ⟨5, [], true⟩ ∧ (stHost.filter.find? (·.line == 4)).isSome = false ∧
    halfIod 4 = 0 ∧ bar0Reg 0x58 = some .tvec ∧ stHost.inService 0 = true := by decide +kernel

/-- For StartEventsComplete: a warm start finds the first image as the digest retained has it. -/
def img : Image := { kind := 0, len := 1, key := [], header := [], body := [1], sig := [], digest := 0, version := 0 }
theorem test_witness_image : ({ stStart with images := [img], digests := [Config.sha512 img.body] } : State).imageOk true 0 = true := by
  simp [State.imageOk]

/-! ## Stepping and decoding -/

/-- After withFetchWord, a cohort stands at the words, its page is mapped; NOP decodes there, and an all-zero pair is reserved. -/
def stNop : State := State.reset.withFetchWord 64 nopWords
def stBad : State := State.reset.withFetchWord 64 0

/-- The bytes that a block's core fetches at an address, where it can (R344). -/
def fetched (s : State) (b : Block) (pc n : Nat) : Option (List Byte) :=
  match s.spots b.view pc n .fetch .either with
  | (s1, .ok ps) =>
    let r := s1.letIn (2 ^ 73 + b.id) b.die ps none
    if r.2 then some (((placeLines ps).foldl (fun s l => s.share l.1 l.2 b.coreKey 7 0 false) r.1).readPlaces ps) else none
  | _ => none

def blkN : Block := fetchBlock 0x10000
def cohN : Cohort := { id := 0, grp := 0, lanes := List.range 32, pc := 0x10000, start := 0x10000, stage := .slot 0, wait := 0,
                       nextIssue := 0, promoted := false, fetched := none }

theorem fetching_bad : Fetching stBad 0 0 [] blkN cohN :=
  ⟨rfl, rfl, rfl, fun _ h => by simp [cohN] at h, by decide +kernel, by decide +kernel⟩
theorem fetching_nop : Fetching stNop 0 0 [] blkN cohN :=
  ⟨rfl, rfl, rfl, fun _ h => by simp [cohN] at h, by decide +kernel, by decide +kernel⟩

/-- For ReservedOpcodesTrap. -/
theorem test_witness_reserved : Fetching stBad 0 0 [] blkN cohN ∧ opcodeAssigned 0 = false ∧ opcodeAssigned 511 = false ∧
    (fetched { stBad with port := [] } blkN 0x10000 8).map wordsOfBytes = some [0, 0] :=
  ⟨fetching_bad, by decide +kernel, by decide +kernel, by decide +kernel⟩

/-- The cohort stands at a NOP it has fetched, as its first instruction and as its 25th. -/
def blkK (n : Nat) : Block := { blkN with
  lanes := blkN.lanes.map fun ln => { ln with run := { ln.run with count := n } }
  cohorts := [{ cohN with fetched := some (0x10000, .instr (.nop hd) 8) }] }

/-- For StepRunsDecoded, StepKeepsMemoryForm: a NOP to be fetched, and one fetched before. -/
theorem test_witness_step : Fetching stNop 0 0 [] blkN cohN ∧
    (fetched { stNop with port := [] } blkN 0x10000 8).map decodeBytes = some (.ok (.nop hd, 2)) ∧
    (match ({ stNop with port := [] } : State).fetchTry blkN 0x10000 [] [8, 12, 16, 20, 24] with
     | (_, .instr i len) => decide (i = .nop hd ∧ len = 8 ∧ overAlloc blkN.vregs i = false)
     | _ => false) = true ∧
    (∀ n ∈ [23, 24], (blkK n).cohorts.find? (·.id == 0) = some { cohN with fetched := some (0x10000, .instr (.nop hd) 8) } ∧
      (blkK n).dueOf { cohN with fetched := some (0x10000, .instr (.nop hd) 8) } = none ∧
      ∀ l ∈ cohN.lanes, ((blkK n).lane l).run.count = n) :=
  ⟨fetching_nop, rfl, by decide +kernel, by decide +kernel⟩

/-- For its clause of a picked rendezvous. -/
theorem test_witness_step_rdv : (({ st0 with blocks := [blkR], port := [.rdv 0 9] } : State).block? 0).isSome = true ∧
    blkR.rdvs.find? (·.id == 9) = some rdv0 := by decide +kernel

theorem test_witness_inv : Memory.wf stNop.dmem = true ∧ Memory.wf stNop.hmem = true ∧
    (match step stNop with | .next _ => true | _ => false) = true := by decide +kernel

/-- For DecodeReadsEncode and EncodeWritesDecode: a well-formed instruction with two literals. -/
theorem test_witness_encode : (Instr.iadd hd .i32 true ⟨.v 7, .lit32 5, .lit32 6⟩).wf = true ∧
    decodeWords (Instr.iadd hd .i32 true ⟨.v 7, .lit32 5, .lit32 6⟩).encode =
      .ok (.iadd hd .i32 true ⟨.v 7, .lit32 5, .lit32 6⟩, 4) := ⟨by decide, rfl⟩

/-- For MemoryReadsBack and TranslationPermissions: canonical memories; a leaf found, none, and a table that a peer holds. -/
theorem test_witness_memory : (Memory.wf st0.dmem = true ∧ Memory.wf st0.hmem = true) ∧ st0.hostLinks.getLsbD (bits 0x5000 12 12) = true ∧
    Sparse.wf 0 blk0.scratch = true ∧ 0x18000 < st0.capacity ∧ st0.badByte (.dev 0x18000) = false ∧ (match (st0.leafOf 0 0x10000).2 with
      | .ok e _ => bit e 1 && !bit e 7
      | _ => false) = true ∧ (st0.leafOf 0 0x90000).2 = .absent ∧
    (({ st0 with holders := [⟨2048, 1, 0, true, 0⟩] } : State).leafOf 0 0x10000).2 = .wait 2048 := by decide +kernel

/-! ## Checks, traps, modes -/

/-- A head under P0, which reads false in every lane. -/
def hdP : Head := ⟨.lane, 0, false, 0⟩
theorem test_witness_off : Issuing st0 blk0 ctx0 hdP ∧ (∀ l ∈ ctx0.lanes, (blk0.lane l).on hdP = false) ∧
    (Instr.iadd hdP .i32 false ⟨.v 20, .v 0, .v 1⟩).wf = true ∧ isTerm (.iadd hdP .i32 false ⟨.v 20, .v 0, .v 1⟩) = false ∧
    ((Instr.iadd hdP .i32 false ⟨.v 20, .v 0, .v 1⟩).fields.bind fun g => Head.ofBase g.1) = some hdP :=
  ⟨⟨rfl, rfl, .inl rfl, by decide⟩, by decide, by decide, by decide, by decide⟩

/-- For IssueChecksTrap: a void source (Q0), a POISON source (V11), a wrong tag (V6), and a branch target that is no multiple of 4. -/
def failsIn (x : Opd) (p : Block → Nat → SrcSpec → Bool) : List Nat :=
  (blk0.work ctx0 hd).src.filter fun l => [⟨x, .fmt .i32⟩, ⟨.v 1, .fmt .i32⟩].any (p blk0 l)
theorem test_witness_checks : (blk0.work ctx0 hd).acts = true ∧ st0.fixed = [] ∧ st0.longs = [] ∧
    failsIn (.q 0) (fun b l sp => b.voidFails l sp) = [0, 1] ∧
    failsIn (.v 11) (fun b l sp => b.voidFails l sp) = [] ∧ failsIn (.v 11) (fun b l sp => b.poisonFails l sp) = [0, 1] ∧
    failsIn (.v 6) (fun b l sp => b.voidFails l sp || b.poisonFails l sp || b.setFails l sp) = [] ∧
    failsIn (.v 6) (fun b l sp => b.tagFails l sp) = [0, 1] ∧
    st0.gate blk0 (blk0.acting ctx0 hd) [] [⟨.v 10, .int64⟩] [] [] = .pass ∧
    ((blk0.acting ctx0 hd).filter fun l => (blk0.read l .plain (.v 10)).bits.toNat % 4 != 0) = [0, 1] := by decide

/-- Its accesses through V4:V5: 8 bytes at the last of the 8,192 reach past the extent (check 5); at offset 4 they are misaligned. -/
theorem test_witness_accessTraps : let w := blk0.work ctx0 hd
    let bad (o : Nat) := (firstBad (w.src.map fun l => (l, st0.memBad blk0 ⟨.load, .any, 1, 8⟩ l (blk0.readPtr l (.v 4)) o))).map fun e => (e.1.trap, e.1.holds, e.2)
    (∀ o : Opd, o = .lit32 8191 ∨ o = .lit32 4 →
      st0.gate blk0 w.src (w.recv.map (·.1)) (ptrSpecs (.v 4) ++ [⟨o, .int64⟩] ++ [] ++ needs hd (.v 20)) (dstCodes (.v 20) 1) [] = .pass) ∧
    bad 8191 = some (.extent, false, [0, 1]) ∧ bad 4 = some (.align, false, [0, 1]) :=
  ⟨by rintro o (rfl | rfl) <;> decide, by decide, by decide⟩

/-- For UserModePrivilege: the group in user mode. -/
def blkU : Block := { blkE with groups := blkE.groups.map fun g => { g with sysMode := false } }
def stU : State := { stE with blocks := [blkU] }
theorem test_witness_user : Issuing stU blkU ctxW hdG ∧ (blkU.engWork ctxW hdG).acts = true ∧
    (∀ l ∈ (blkU.engWork ctxW hdG).src, blkU.sys l = false) ∧
    stU.gate blkU (blkU.engWork ctxW hdG).src ((blkU.engWork ctxW hdG).recv.map (·.1)) [⟨.v 3, .int64⟩] (dstCodes (.v 20) 1) [] = .pass ∧
    blkU.acting ctxW hdG ≠ [] ∧ (blkU.group (ctxW.lanes.headD (32 * ctxW.grp) / 32)).sysMode = false :=
  ⟨⟨rfl, rfl, .inr rfl, by decide⟩, by decide, by decide, by decide, by decide, by decide⟩

/-- For TrapEntry: a handler and a frame area that can be written, none installed, and a frame area that cannot be. -/
theorem test_witness_trap : (blkP.group 0).raised = some raised0 ∧ stTrap.frameBase blkP 0 = 0 ∧
    bit (stTrap.die 0).tvec.toNat 0 = true ∧ bit (stTrap.die 0).tframe.toNat 0 = true ∧
    (match stTrap.spots 0 0 8192 .write .either with
     | (s1, .ok ps) => s1.waitingOf blkP raised0.lanes == [] && ps.length == 8192 && Memory.wf s1.dmem && Memory.wf s1.hmem &&
         decide (0x22000 ≤ s1.capacity) && ps.all (fun p => !s1.badByte p) &&
         ps.zipIdx.all (fun e => e.1 == Place.dev (0x20000 + e.2))
     | _ => false) = true ∧
    bit (st0.die 0).tvec.toNat 0 = false ∧ blkP.die < st0.dies.length ∧
    (match stUnmapped.spots 0 (stUnmapped.frameBase blkP 0) 8192 .write .either with
     | (_, .fault ..) => true
     | _ => false) = true := by decide +kernel

theorem test_witness_nodup : ((List.range 8192).map fun k => Place.dev (0x20000 + k)).Nodup := by
  exact List.pairwise_map.2 (List.nodup_range.imp fun h e => h (by simpa using e))

/-- For RepresentableValuesDeliverExactly: 1.5 in E4M3. -/
theorem test_witness_value : FF.e4m3.value 0x3C = .fin false 12 (-3) := by decide

/-- R417's worked case: a lease granted at 10,000 ns for 4,000 ns ends at unit 219; with a bound of 20 ns the copy serves at 13,900 and no
longer at 13,996, and the home counts it ended at 14,036. -/
def stLease (t : Nat) : State := { State.reset with podTime := BitVec.ofNat 64 t, podSkew := 20 }
theorem test_lease_end : (stLease 10000).leaseEnd 0 = 219 ∧ (stLease 13900).serves { lineX with lease := some 219 } = true ∧
    (stLease 13996).serves { lineX with lease := some 219 } = false ∧
    (stLease 14035).leaseOver ⟨0, 1, 0, 219, 7, 0, false, false, 0⟩ = false ∧
    (stLease 14036).leaseOver ⟨0, 1, 0, 219, 7, 0, false, false, 0⟩ = true := by decide

/-- R332: what core 5 stored at core scope is unpublished to core 6 and not to core 5; its release at die scope publishes it. -/
def stUnpub : State := { State.reset with unpub := [⟨false, 3, List.replicate 128 7, 1, [5]⟩] }
theorem test_unpublished : (stUnpub.weakRead 5 [.dev 384]).2 = [0] ∧ byteBefore stUnpub.unpub (.dev 384) 0 = 7 ∧
    (stUnpub.unpub.all fun u => u.inside 5 && !u.inside 6) = true ∧ (stUnpub.releaseAt 5 3).unpub = [] := by decide

end Sys2Proof.Tests
end

section
/-! PROOFS. Laws of a die's record, and of what leaves the boot memory and the registers of the dies as they are. -/

namespace Sys2Proof.Machine

/-! ## The record of a die -/

/-- The record of a die after an update of it or of another. -/
theorem State.die_modDie (s : State) (d k : Nat) (f : Die → Die) :
    (s.modDie d f).die k = if d = k ∧ k < s.dies.length then f (s.die k) else s.die k := by
  simp only [State.die, State.modDie, List.getD_eq_getElem?_getD, List.getElem?_modify]
  by_cases hk : k < s.dies.length
  · by_cases hd : d = k <;> simp [hk, hd]
  · simp [hk]

/-- A die the package does not have reads as at reset. -/
theorem State.die_of_length_le {s : State} {k : Nat} (h : s.dies.length ≤ k) : s.die k = Die.reset := by
  rw [State.die, List.getD_eq_getElem?_getD, List.getElem?_eq_none h]
  rfl

/-- What holds of every record and of the reset record holds of the record of a die. -/
theorem State.die_of_forall {p : Die → Prop} {s : State} (h : ∀ d ∈ s.dies, p d) (hr : p Die.reset) (k : Nat) : p (s.die k) := by
  rcases Nat.lt_or_ge k s.dies.length with hk | hk
  · have e : s.die k = s.dies[k] := by simp [State.die, List.getD_eq_getElem?_getD, hk]
    exact e ▸ h _ (List.getElem_mem hk)
  · exact State.die_of_length_le hk ▸ hr

/-- A record whose registers hold their reset values is at reset, whatever else it holds. -/
theorem Die.AtReset.of_registers {d : Die}
    (h : d = { d with privap := 0, saveap := 0, shtab := 0, defctl := 0, defseed := 0, tvec := 0, tframe := 0, ptroot := 0, fltbase := 0,
                      prewin := 200, imptab := 0, exptab := 0, leasectl := 4000, qctl := [], queues := [], faults := [] }) :
    d.AtReset := by
  rw [h]
  exact ⟨rfl, rfl, rfl, ⟨rfl, rfl⟩, ⟨rfl, rfl⟩, ⟨rfl, rfl, rfl⟩, rfl, ⟨rfl, rfl, rfl⟩, fun _ => rfl, rfl⟩

/-! ## Halting -/

/-- A halt marks its device, and no other (R274). -/
theorem State.die_haltDevice (s : State) (d k : Nat) :
    (s.haltDevice d).die k = if d = k ∧ k < s.dies.length then { s.die k with halted := true } else s.die k :=
  s.die_modDie d k _

@[simp] theorem State.haltDevice_dies_length (s : State) (d : Nat) : (s.haltDevice d).dies.length = s.dies.length :=
  List.length_modify ..

/-- Halts leave memory as it was. -/
theorem State.haltAll_dmem (s : State) (ds : List Nat) : (ds.foldl (·.haltDevice ·) s).dmem = s.dmem := by
  induction ds generalizing s with
  | nil => rfl
  | cons d ds ih => exact ih _

/-- A halted device stays so while others are halted. -/
theorem State.haltAll_keeps {s : State} {k : Nat} (ds : List Nat) (h : (s.die k).halted = true) :
    ((ds.foldl (·.haltDevice ·) s).die k).halted = true := by
  induction ds generalizing s with
  | nil => exact h
  | cons d ds ih =>
    refine ih ?_
    rw [State.die_haltDevice]
    split
    · rfl
    · exact h

/-- Every device of a list is halted. -/
theorem State.haltAll_halted {s : State} {k : Nat} {ds : List Nat} (hd : k ∈ ds) (hk : k < s.dies.length) :
    ((ds.foldl (·.haltDevice ·) s).die k).halted = true := by
  induction ds generalizing s with
  | nil => cases hd
  | cons d ds ih =>
    rcases List.mem_cons.1 hd with rfl | hd
    · exact State.haltAll_keeps ds (by simp [State.die_haltDevice, hk])
    · exact ih hd (by simpa using hk)

/-! ## What leaves the setup of the package alone -/

/-- The records of the dies, the images, their digests and fuses, the step of a start and the removal under way are the same. -/
structure State.SameSetup (s t : State) : Prop where
  dies : t.dies = s.dies
  images : t.images = s.images
  digests : t.digests = s.digests
  fuseKey : t.fuseKey = s.fuseKey
  fuseMin : t.fuseMin = s.fuseMin
  bootStep : t.bootStep = s.bootStep
  quiescing : t.quiescing = s.quiescing

theorem State.SameSetup.refl (s : State) : s.SameSetup s := ⟨rfl, rfl, rfl, rfl, rfl, rfl, rfl⟩

theorem State.SameSetup.trans {s t u : State} (h : s.SameSetup t) (k : t.SameSetup u) : s.SameSetup u :=
  ⟨k.dies.trans h.dies, k.images.trans h.images, k.digests.trans h.digests, k.fuseKey.trans h.fuseKey, k.fuseMin.trans h.fuseMin,
    k.bootStep.trans h.bootStep, k.quiescing.trans h.quiescing⟩

/-- Operations that each leave the setup alone do so one after another. -/
theorem State.SameSetup.foldl {α : Type} {f : State → α → State} (h : ∀ (s : State) a, s.SameSetup (f s a)) (l : List α) (s : State) :
    s.SameSetup (l.foldl f s) := by
  induction l generalizing s with
  | nil => exact .refl s
  | cons a l ih => exact (h s a).trans (ih _)

/-- The check of an image reads the setup only. -/
theorem State.SameSetup.imageOk {s t : State} (h : s.SameSetup t) (warm : Bool) (k : Nat) : t.imageOk warm k = s.imageOk warm k := by
  simp only [State.imageOk, State.verifies, h.images, h.digests, h.fuseKey, h.fuseMin]

theorem State.hostBack_sameSetup (s : State) (l : Nat) : s.SameSetup (s.hostBack l) := ⟨rfl, rfl, rfl, rfl, rfl, rfl, rfl⟩

theorem State.leaveHalf_sameSetup (s : State) (d l : Nat) : s.SameSetup (s.leaveHalf d l) := by
  unfold State.leaveHalf
  split
  · exact .refl s
  · split
    · exact .refl s
    · dsimp only
      split
      · exact ⟨rfl, rfl, rfl, rfl, rfl, rfl, rfl⟩
      · exact ⟨rfl, rfl, rfl, rfl, rfl, rfl, rfl⟩

theorem State.dropHostLines_sameSetup (s : State) (d : Nat) : s.SameSetup (s.dropHostLines d) :=
  .foldl (fun s l => s.leaveHalf_sameSetup d l) _ s

theorem State.dropHalves_sameSetup (s : State) (gone : Nat → Bool) : s.SameSetup (s.dropHalves gone) :=
  .foldl (fun s l => .foldl (fun s d => s.leaveHalf_sameSetup d l) _ s) _ s

theorem State.giveUp_sameSetup (s : State) (r : RemoteLine) : s.SameSetup (s.giveUp r) := by
  obtain ⟨o, p, q, m, f, e⟩ := s.giveUp_eq r
  rw [e]
  exact ⟨rfl, rfl, rfl, rfl, rfl, rfl, rfl⟩

theorem State.returnSlots_sameSetup (s : State) (b : Block) : s.SameSetup (s.returnSlots b) := ⟨rfl, rfl, rfl, rfl, rfl, rfl, rfl⟩

theorem State.forget_sameSetup (s : State) (blk : Nat) : s.SameSetup (s.forget blk) := ⟨rfl, rfl, rfl, rfl, rfl, rfl, rfl⟩

theorem State.clearLd_sameSetup (s : State) (d : Nat) : s.SameSetup (s.clearLd d) := by
  have gone (s : State) (b : Block) : s.SameSetup ((if b.isSaved then s else s.returnSlots b).forget b.id) := by
    split
    · exact s.forget_sameSetup b.id
    · exact (s.returnSlots_sameSetup b).trans (State.forget_sameSetup _ b.id)
  obtain ⟨hdies, himages, hdigests, hkey, hmin, hstep, hquiescing⟩ := State.SameSetup.foldl gone (s.blocks.filter (·.die == d)) s
  exact ⟨hdies, himages, hdigests, hkey, hmin, hstep, hquiescing⟩

/-- Whatever a logical device runs is gone. -/
theorem State.clearLd_work (s : State) (d : Nat) :
    (∀ b ∈ (s.clearLd d).blocks, b.die ≠ d) ∧ ∀ l ∈ (s.clearLd d).launches, l.die ≠ d := by
  constructor <;> intro x hx <;> simpa using (List.mem_filter.1 hx).2

/-- The record that a reset of a logical device leaves, its halt mark set as asked. -/
theorem State.die_resetLd (s : State) (d : Nat) (halted : Bool) :
    ((s.resetLd d).modDie d fun r => { r with halted := halted }).die d =
      if d < s.dies.length then { (s.die d).resetLd with halted := halted } else Die.reset := by
  have same : ((s.dropHostLines d).clearLd d).dies = s.dies :=
    ((s.dropHostLines_sameSetup d).trans (State.clearLd_sameSetup _ d)).dies
  by_cases hd : d < s.dies.length
  · simp [State.resetLd, same, hd, State.die]
  · rw [if_neg hd]
    exact State.die_of_length_le (by simpa [State.resetLd, same] using hd)

end Sys2Proof.Machine
end

section
/-! PROOFS. Commands on fault records, the fault signal, the quiescence counter (R396, R398, R399, R450). -/

namespace Sys2Proof.Machine

/-- A command on a fault record of a die in service reaches it, awake (R453). -/
theorem State.faultEvent_inService {s : State} {d : Nat} (h : s.inService d = true) (i act : Nat) :
    s.faultEvent d i act = (s.wake d).faultCommand d i act := by
  rw [State.faultEvent, if_pos h]

/-- A die out of service has no fault records (R6, R450). -/
theorem State.faultEvent_outOfService {s : State} {d : Nat} (h : s.inService d = false) (i act : Nat) :
    s.faultEvent d i act = s := by
  rw [State.faultEvent, if_neg (by simp [h])]

/-- An open record is consumed. -/
theorem State.faultCommand_consume {s : State} {d i : Nat} (h : (s.faultRec d i).st = 1) :
    s.faultCommand d i 0 = s.setFaultRec d i { s.faultRec d i with st := 2 } := by
  simp [State.faultCommand, h]

/-- A record in use is serviced. -/
theorem State.faultCommand_serviced {s : State} {d i : Nat} (h : (s.faultRec d i).st ≠ 0) :
    s.faultCommand d i 1 = s.serviceRec d i := by
  simp [State.faultCommand, h]

/-- A record in use is refused. -/
theorem State.faultCommand_refused {s : State} {d i : Nat} (h : (s.faultRec d i).st ≠ 0) :
    s.faultCommand d i 2 = s.refuseRec d i := by
  simp [State.faultCommand, h]

/-- An ignored command is logged, whatever its record holds. -/
theorem State.faultCommand_ignored (s : State) (d i : Nat) :
    s.faultCommand d i 3 = s.logOwn d 0x09 (BitVec.ofNat 64 i) 3 := by
  simp [State.faultCommand]

/-- The delayed signal is sent once a microsecond has passed since the last one (R396). -/
theorem execFaultSignalDelayed_due {s : State} {die : Fin 4} {t : Nat} (hdue : (s.die die.val).msixDue = true)
    (hat : (s.die die.val).msixAt = some t) (ht : t + 1000 ≤ (s.die die.val).time.toNat) :
    execFaultSignalDelayed die s = .next (s.modDie die.val fun d =>
      { d with msixDue := false, msixAt := some d.time.toNat, msix := d.msix ++ [1] }) := by
  simp [execFaultSignalDelayed, hdue, hat, Nat.not_lt.2 ht]

/-- The quiescence counter advances once its 1,024 cycles have passed (R399). -/
theorem execQuiescenceTick_due {s : State} {die : Fin 4} (h : 1024 * ((s.die die.val).quiesce + 1) ≤ s.cycle) :
    execQuiescenceTick die s = .next (s.modDie die.val fun d => { d with quiesce := d.quiesce + 1 }) := by
  simp [execQuiescenceTick, Nat.not_lt.2 h]

/-- Settles O29: the four commands go through `faultEvent`, whose cases are the lemmas above. -/
theorem faultEventsComplete : Obligations.FaultEventsComplete := by
  intro s die
  refine ⟨fun idx hin => ⟨fun hst => ?_, fun hst => ⟨?_, ?_⟩, ?_⟩, fun idx hout => ?_,
    fun t hdue hat ht => execFaultSignalDelayed_due hdue hat ht, fun hq => execQuiescenceTick_due hq⟩
  · show Host.Outcome.next (s.faultEvent die.val idx.toNat 0) = _
    rw [State.faultEvent_inService hin, State.faultCommand_consume hst]
  · show Host.Outcome.next (s.faultEvent die.val idx.toNat 1) = _
    rw [State.faultEvent_inService hin, State.faultCommand_serviced hst, State.serviceRec, State.freeRec]
  · show Host.Outcome.next (s.faultEvent die.val idx.toNat 2) = _
    rw [State.faultEvent_inService hin, State.faultCommand_refused hst]
  · show Host.Outcome.next (s.faultEvent die.val idx.toNat 3) = _
    rw [State.faultEvent_inService hin, State.faultCommand_ignored]
  · have quiet (act : Nat) : (.next (s.faultEvent die.val idx.toNat act) : Out) = .next s :=
      congrArg Host.Outcome.next (State.faultEvent_outOfService hout ..)
    exact ⟨quiet 0, quiet 1, quiet 2, quiet 3⟩

end Sys2Proof.Machine
end

section
/-! PROOFS. What the host and the management function find and do (R2, R6, R334, R358, R410, R420 to R422, R445, R448). -/

namespace Sys2Proof.Machine

/-! ## Halves of host lines (R420, R421) -/

/-- A half given up is not held, whatever the other half of its line is. -/
theorem State.half_setHalf_none (s : State) (l : Nat) : (s.setHalf l HalfSt.none).half l = HalfSt.none := by
  have gone : (s.hostDir.filter (·.line != l / 2)).find? (·.line == l / 2) = none := by simp
  rcases Nat.mod_two_eq_zero_or_one l with hl | hl <;> simp only [State.setHalf, hl]
  · generalize s.half (l + 1) = other
    by_cases ho : other.st = .i <;> simp [State.half, HalfSt.none, gone, ho, hl, List.find?_append]
  · generalize s.half (l - 1) = other
    by_cases ho : other.st = .i <;> simp [State.half, HalfSt.none, gone, ho, hl, List.find?_append]

/-- Setting halves changes the directory of host lines and nothing else. -/
theorem State.setHalves_eq (s : State) (ls : List Nat) (h : HalfSt) :
    ∃ d, ls.foldl (fun s l => s.setHalf l h) s = { s with hostDir := d } := by
  induction ls generalizing s with
  | nil => exact ⟨s.hostDir, rfl⟩
  | cons l ls ih =>
    obtain ⟨d, e⟩ := ih (s.setHalf l h)
    exact ⟨d, e⟩

/-- A line that leaves the filter leaves the directories with it. -/
theorem State.unfilter_eq (s : State) (gone : Nat → Bool) :
    ∃ d, s.unfilter gone = { s with
      hostDir := d, filter := s.filter.filter fun h => !gone h.line,
      sharers := s.sharers.filter fun h => !(h.host && (gone (2 * h.line) || gone (2 * h.line + 1))) } := by
  obtain ⟨d, e⟩ := s.setHalves_eq ((s.filter.map (·.line)).filter gone) HalfSt.none
  exact ⟨d, by rw [State.unfilter, e]⟩

/-- The device holds no part of a half that has left the filter. -/
theorem State.half_unfilter {s : State} {l : Nat} (h : l ∈ s.filter.map (·.line)) :
    (s.unfilter (· == l)).half l = HalfSt.none := by
  obtain ⟨ls, x, e⟩ : ∃ ls x, (s.filter.map (·.line)).filter (· == l) = ls ++ [x] := by
    rcases List.eq_nil_or_concat ((s.filter.map (·.line)).filter (· == l)) with e | ⟨ls, x, e⟩
    · exact absurd (List.mem_filter (p := (· == l)).2 ⟨h, beq_self_eq_true l⟩) (by rw [e]; exact List.not_mem_nil)
    · exact ⟨ls, x, by simpa using e⟩
  have hx : x = l := by
    have : x ∈ (s.filter.map (·.line)).filter (· == l) := by simp [e]
    simpa using (List.mem_filter.1 this).2
  show State.half (((s.filter.map (·.line)).filter (· == l)).foldl (fun s l => s.setHalf l HalfSt.none) s) l = _
  rw [e, List.foldl_append, hx]
  exact State.half_setHalf_none _ l

/-- Every byte of a half whose modified bytes a reset lost is bad (R455). -/
theorem State.badByte_of_lost {s : State} {line k : Nat} {h : HostLine} (hf : s.filter.find? (·.line == line) = some h)
    (hl : h.lost = true) (hk : k < 64) : s.badByte (.host (64 * line + k)) = true := by
  have hline : h.line = line := by simpa using List.find?_some hf
  have hlost : (s.filter.any fun h => h.lost && h.line == (64 * line + k) / 64) = true :=
    List.any_eq_true.2 ⟨h, List.mem_of_find?_eq_some hf, by simp [hl, hline]; omega⟩
  simp [State.badByte, hlost]

/-- The bytes of a host half of 64 bytes. -/
def halfPlaces (line : Nat) : List Place := (List.range 64).map fun k => Place.host (64 * line + k)

/-! ## HOST_SNOOP -/

/-- The filter does not know the line: the answer says so. -/
theorem execHostSnoop_miss {s : State} {iod : Fin 2} {line : Nat} {kind : SnoopKind} (hi : halfIod line = iod.val)
    (hf : s.filter.find? (·.line == line) = none) :
    execHostSnoop iod line kind s = .next { s with hostOut := s.hostOut ++ [.snoopReply line none false] } := by
  simp [execHostSnoop, hi, hf]

/-- A snoop that takes ownership of a half held dirty is answered with its bytes, and the half leaves the filter. -/
theorem execHostSnoop_own_dirty {s : State} {iod : Fin 2} {line : Nat} {h : HostLine} (hi : halfIod line = iod.val)
    (hf : s.filter.find? (·.line == line) = some h) (hl : h.lost = false) (hd : (s.half line).dirty = true)
    (hb : (halfPlaces line).any s.badByte = false) :
    execHostSnoop iod line .own s = .next { s.unfilter (· == line) with
      hostOut := s.hostOut ++ [.snoopReply line (some (s.readPlaces (halfPlaces line))) false] } := by
  obtain ⟨d, e⟩ := s.unfilter_eq (· == line)
  unfold halfPlaces at hb ⊢
  simp [execHostSnoop, hi, hf, hl, hd, hb, e]

/-- A snoop of a half that was lost is answered with poisoned bytes. -/
theorem execHostSnoop_lost {s : State} {iod : Fin 2} {line : Nat} {h : HostLine} (hi : halfIod line = iod.val)
    (hf : s.filter.find? (·.line == line) = some h) (hl : h.lost = true) (kind : SnoopKind) :
    ∃ t, execHostSnoop iod line kind s = .next t ∧
      t.hostOut = s.hostOut ++ [.snoopReply line (some (List.replicate 64 0xFF)) true] := by
  have hb : (halfPlaces line).any s.badByte = true :=
    List.any_eq_true.2 ⟨_, List.mem_map_of_mem (List.mem_range.2 (show 0 < 64 by omega)), State.badByte_of_lost hf hl (by omega)⟩
  unfold halfPlaces at hb
  cases kind with
  | own => simp [execHostSnoop, hi, hf, hl, hb]
  | share => simp [execHostSnoop, hi, hf, hl, hb, State.setHalf]

/-! ## HOST_READ and HOST_WRITE -/

/-- A range the host may not reach is answered with an error response, for a read and for a write. -/
theorem execHost_refused {s : State} {addr n : Nat} {body : List Byte} (h : s.hostRefused addr n = true) (hn : n = body.length) :
    execHostRead addr n s = .next (s.endHost.hostAbort addr) ∧ execHostWrite addr body s = .next (s.endHost.hostAbort addr) := by
  subst hn
  simp [execHostRead, execHostWrite, h]

/-- A read that its lines let in is answered with the bytes, everything stored having been published. -/
theorem execHostRead_letIn {s t : State} {addr n : Nat} (h : s.hostRefused addr n = false)
    (hin : s.letIn (2 ^ 63 + addr) (s.homeDie addr) (accPlaces addr n) none = (t, true)) :
    execHostRead addr n s = .next { t.endHost.publish (fun _ => true) with
      hostHeld := (halvesOf addr n).foldl (fun l h => insertLine h l) t.hostHeld,
      hostOut := t.hostOut ++ [.data addr (t.replyBytes (accPlaces addr n)).1 (t.replyBytes (accPlaces addr n)).2] } := by
  simp only [execHostRead, h, hin]
  rfl

/-- A write waits behind an earlier one that waits (log 64). -/
theorem execHostWrite_behind {s : State} {addr : Nat} {body : List Byte} (h : s.hostRefused addr body.length = false)
    (hb : s.hostBehind = true) : execHostWrite addr body s = .next (s.deferHost (.hostWrite addr body)) := by
  simp [execHostWrite, h, hb]

/-- A write that its lines let in stores its bytes; the halves of its own that the host caches stay with the host. -/
theorem execHostWrite_letIn {s t : State} {addr : Nat} {body : List Byte} (h : s.hostRefused addr body.length = false)
    (hb : s.hostBehind = false)
    (hin : ({ s with hostHeld := s.hostHeld.filter fun h => !(halvesOf addr body.length).contains h } : State).letIn (2 ^ 62 + addr)
      (s.homeDie addr) (accPlaces addr body.length) (some body) = (t, true)) :
    execHostWrite addr body s =
      let u := t.peerStore (accPlaces addr body.length) body false
      .next { u.endHost with
        hostHeld := (s.hostHeld.filter (halvesOf addr body.length).contains).foldl (fun l h => insertLine h l) u.hostHeld,
        hostOut := u.hostOut ++ [.written addr] } := by
  simp only [execHostWrite, h, hb, hin]
  rfl

/-! ## Registers as the host writes and reads them -/

/-- A register of a die in service takes the value, the die being awake (R453). -/
theorem execRegisterWrite_bar0 {s : State} {die : Fin 4} {off : Nat} {r : SysReg} (v : Word) (hr : bar0Reg off = some r)
    (hin : s.inService die.val = true) :
    execRegisterWrite (.bar0 die) off v s = .next ((s.wake die.val).writeLd die.val r v) := by
  simp [execRegisterWrite, hr, hin]

/-- RETWIN, SCRUBCTL and PWRCAP take a value without its reserved bits; KVSTAT is read-only (R8, R445). -/
theorem State.writeMgmt_package (s : State) (v : Word) :
    s.writeMgmt 0x310 v = { s with retwin := v &&& 0x3FF#64 } ∧ s.writeMgmt 0x318 v = { s with scrubctl := v &&& 0xFF#64 } ∧
      s.writeMgmt 0x328 v = { s with pwrcap := v &&& 0xFFFF#64 } ∧ s.writeMgmt 0x400 v = s :=
  ⟨rfl, rfl, rfl, rfl⟩

/-- BAR 0 of a die in service reads CAP at offset 0x8 (R2). -/
theorem State.readBar0_cap {s : State} {d : Nat} (h : s.inService d = true) : s.readBar0 d 8 = s.cap d := by
  simp [State.readBar0, h]

/-- BAR 0 of a die out of service reads zero (R450). -/
theorem State.readBar0_outOfService {s : State} {d : Nat} (h : s.inService d = false) (off : Nat) : s.readBar0 d off = 0 := by
  simp [State.readBar0, h]

/-- KVMAP, FABDROP and the first and last KVSTAT read zero on a part without the fabric (R6). -/
theorem State.readMgmt_noFabric {s : State} (h : s.hasUnit 5 = false) :
    ∀ off ∈ [0x30, 0x38, 0x320, 0x400, 0x478], s.readMgmt off = 0 := by
  simp [State.readMgmt, h]

/-- Settles O33: each clause is the lemma above about the operation it names. -/
theorem hostEventsComplete : Obligations.HostEventsComplete := by
  intro s
  refine ⟨fun addr n body => execHost_refused, fun addr n t => execHostRead_letIn, fun addr body => execHostWrite_behind,
    fun addr body t => execHostWrite_letIn, fun iod line kind => execHostSnoop_miss,
    fun iod line h hi hf => ⟨fun hl hd hb => ?_, fun hl kind => execHostSnoop_lost hi hf hl kind⟩, fun line => rfl, rfl,
    fun hu => ?_, fun die off v r => execRegisterWrite_bar0 v, fun v => ?_,
    fun die => ⟨State.readBar0_cap, fun h off => State.readBar0_outOfService h off⟩, State.readMgmt_noFabric⟩
  · have hline : h.line = line := by simpa using List.find?_some hf
    obtain ⟨d, e⟩ := s.unfilter_eq (· == line)
    refine ⟨_, execHostSnoop_own_dirty hi hf hl hd hb, rfl, ?_,
      State.half_unfilter (List.mem_map.2 ⟨h, List.mem_of_find?_eq_some hf, hline⟩), ?_⟩
    · simp [e]
    · simp only [e, List.mem_filter]
      rintro x ⟨-, hx⟩ hhost hx2
      simp only [hhost, Bool.true_and, Bool.not_eq_true', Bool.or_eq_false_iff, beq_eq_false_iff_ne] at hx
      omega
  · show Host.Outcome.next (if s.hasUnit 5 then _ else s) = _
    rw [if_pos hu]
  · obtain ⟨hretwin, hscrub, hcap, hkvstat⟩ := s.writeMgmt_package v
    have writes {off : Nat} {t : State} (h : s.writeMgmt off v = t) : exec (.registerWrite .mgmt off v) s = .next t :=
      congrArg Host.Outcome.next h
    exact ⟨writes hretwin, writes hscrub, writes hcap, writes hkvstat⟩

end Sys2Proof.Machine
end

section
/-! PROOFS. Starts, device resets, resumption, removal, power targets (R446, R447, R450, R453 to R456, R462). -/

namespace Sys2Proof.Machine

/-! ## A start begins -/

/-- A start that is not the one under way begins. -/
theorem State.startEvent_begins {s : State} {warm sref : Bool} {dies : BitVec 4} {images : List Image}
    (h : ¬ (s.bootState = 1 ∧ s.images = images ∧ ∃ b, s.boot = some b ∧ b.warm = warm ∧ b.sref = sref ∧ b.dies = dies)) :
    s.startEvent warm sref dies images = s.startBegins ⟨warm, sref, dies, s.dieMask⟩ images := by
  unfold State.startEvent
  split
  · rename_i b hb
    refine if_neg fun hmine => h ?_
    simp only [Bool.and_eq_true, beq_iff_eq] at hmine
    obtain ⟨⟨⟨⟨hst, hw⟩, hs⟩, hd⟩, hi⟩ := hmine
    exact ⟨hst, hi, b, hb, hw, hs, hd⟩
  · rfl

/-- The start under way takes its next step once it can. -/
theorem State.startEvent_steps {s : State} {b : Boot} (hst : s.bootState = 1) (hb : s.boot = some b) (hr : s.startReady = true) :
    s.startEvent b.warm b.sref b.dies s.images = s.startStep b := by
  simp [State.startEvent, hst, hb, hr]

/-- A start first halts every device, and leaves device memory as it was. -/
theorem State.startBegins_halts (s : State) (b : Boot) (images : List Image) :
    (s.startBegins b images).dmem = s.dmem ∧ ∀ k, k < 4 → k < s.dies.length → ((s.startBegins b images).die k).halted = true :=
  ⟨s.haltAll_dmem _, fun _ hk hlen => State.haltAll_halted (List.mem_range.2 hk) hlen⟩

/-! ## The steps of a start (R446) -/

/-- Step 1: with the logical devices cleared, the package's first image is verified and measured, or the start fails. -/
theorem State.startStep_first {s : State} (b : Boot) (h : s.bootStep = 0) :
    ∃ u, s.SameSetup u ∧
      s.startStep b = if s.imageOk b.warm 0 then { u.measured [0] with bootStep := 1 } else u.startFails b := by
  have same := State.SameSetup.foldl (f := fun s d => (s.dropHostLines d).clearLd d)
    (fun s d => (s.dropHostLines_sameSetup d).trans (State.clearLd_sameSetup _ d)) (List.range 4) s
  refine ⟨_, same, ?_⟩
  rw [← same.imageOk]
  simp only [State.startStep, h]
  rfl

/-- Step 2: the images of the I/O dies. -/
theorem State.startStep_second {s : State} (b : Boot) (h : s.bootStep = 1) :
    s.startStep b = if s.imageOk b.warm 1 && s.imageOk b.warm 2 then { s.measured [1, 2] with bootStep := 2 } else s.startFails b := by
  simp only [State.startStep, h]
  rfl

/-- Step 3: the dies in service are fixed. -/
theorem State.startStep_third {s : State} (b : Boot) (h : s.bootStep = 2) :
    s.startStep b = { s with dieMask := b.dies, fusedOff := ~~~ b.dies, bootStep := 3 } := by
  simp only [State.startStep, h]
  rfl

/-- Step 5: memory is kept over a warm start that allows it, and zeroed otherwise. -/
theorem State.startStep_fifth {s : State} (b : Boot) (h : s.bootStep = 4) :
    s.startStep b =
      { (if b.warm && b.sref && b.dies == b.was then s else { s with dmem := [], dpoison := [] } : State) with bootStep := 5 } := by
  simp only [State.startStep, h]
  rfl

/-- Step 6: the interleave tables. -/
theorem State.startStep_sixth {s : State} (b : Boot) (h : s.bootStep = 5) :
    s.startStep b = { s with ivtab0 := ivtabOf b.dies 0, ivtab1 := ivtabOf b.dies 1, bootStep := 6 } := by
  simp only [State.startStep, h]
  rfl

/-- Step 10: every register at its reset value. -/
theorem State.startStep_last {s : State} (b : Boot) (h : s.bootStep = 9) :
    s.startStep b = ({ s with bootState := 0, bootStep := 10 } : State).start b := by
  simp only [State.startStep, h]
  rfl

/-- A measured image's digest is kept (R448). -/
theorem State.digests_measured (s : State) {ks : List Nat} {k : Nat} {i : Image} (hk : k < 3) (hm : k ∈ ks)
    (hi : s.images[k]? = some i) : (s.measured ks).digests[k]? = some (Config.sha512 i.body) := by
  rw [State.measured, List.getElem?_map, List.getElem?_range hk, Option.map_some, if_pos (List.contains_iff_mem.2 hm), hi]
  rfl

/-- A start leaves every die's registers at reset, none halted. -/
theorem State.start_die (s : State) (b : Boot) (k : Nat) : ((s.start b).die k).AtReset ∧ ((s.start b).die k).halted = false := by
  refine State.die_of_forall (p := fun d => d.AtReset ∧ d.halted = false) (fun d hd => ?_) ⟨Die.AtReset.of_registers rfl, rfl⟩ k
  obtain ⟨⟨d0, n⟩, -, rfl⟩ := List.mem_map.1 hd
  cases b.warm
  · exact ⟨Die.AtReset.of_registers rfl, rfl⟩
  · exact ⟨Die.AtReset.of_registers rfl, rfl⟩

/-- A start leaves every port group out of service and KVMAP clear. -/
theorem State.start_fabric (s : State) (b : Boot) : (∀ g ∈ (s.start b).kgs, g.word = 3) ∧ ∀ e ∈ (s.start b).kvmap, e = 0 := by
  refine ⟨fun g hg => ?_, fun e he => List.eq_of_mem_replicate he⟩
  rw [List.eq_of_mem_replicate hg]
  rfl

/-! ## Resuming and resetting a logical device (R455, R456) -/

/-- A device that runs on is not halted. -/
theorem State.unhalt_halted (s : State) (d : Nat) : ((s.unhalt d).die d).halted = false := by
  show ((s.modDie d fun di => { di with halted := false }).die d).halted = false
  rw [State.die_modDie]
  split
  · rfl
  · rename_i h
    rw [State.die_of_length_le (by simpa using h)]
    rfl

/-- LD_RESUME lets a halted device run on. -/
theorem State.mgmtLd_resume {s : State} {d : Nat} (hh : ((s.wake d).die d).halted = true) (hb : (s.wake d).bootState = 0) :
    s.mgmtLd d 1 = (s.wake d).unhalt d := by
  simp [State.mgmtLd, hh, hb]

/-- LD_RESET resets a device that is halted or idle; after a thermal trip it stays halted. -/
theorem State.mgmtLd_reset {s : State} {d : Nat} (h : ((s.wake d).die d).halted = true ∨ (s.wake d).idleDie d = true) :
    s.mgmtLd d 2 = ((s.wake d).resetLd d).modDie d fun r =>
      { r with halted := ((s.wake d).die d).halted && (s.wake d).bootState != 0 } := by
  have h : (((s.wake d).die d).halted || (s.wake d).idleDie d) = true := by simpa using h
  simp [State.mgmtLd, h]

/-- A reset device is at reset; it stays halted if it was and is asked to. -/
theorem State.resetLd_atReset (s : State) (d : Nat) (c : Bool) :
    let t := (s.resetLd d).modDie d fun r => { r with halted := (s.die d).halted && c }
    (t.die d).AtReset ∧ (t.die d).halted = ((s.die d).halted && c) := by
  dsimp only
  rw [State.die_resetLd]
  split
  · exact ⟨Die.AtReset.of_registers rfl, rfl⟩
  · rename_i h
    rw [State.die_of_length_le (Nat.le_of_not_lt h)]
    exact ⟨Die.AtReset.of_registers rfl, rfl⟩

/-- A power target that is named is taken, the die being awake (R453). -/
theorem State.pwrTarget_eq (s : State) (d : Nat) {t : BitVec 2} (h : t ≠ 3) :
    s.pwrTarget d t = (s.wake d).modDie d fun di => { di with pwrTarget := t } := by
  have ht : (t == 3) = false := beq_eq_false_iff_ne.2 h
  simp only [State.pwrTarget, ht]
  rfl

/-! ## Leaving the pod (R462) -/

/-- GO leaves the device in its removal. -/
theorem State.quiesceGo_quiescing (s : State) : s.quiesceGo.quiescing = true := by
  have begun (u : State) : (if s.quiescing then s else { u with quiescing := true, quiesceDone := false }).quiescing = true := by
    split
    · assumption
    · rfl
  have given {u : State} {c : Bool} (h : u.quiescing = true) : (if c then u.remotes.foldl (·.giveUp ·) u else u).quiescing = true := by
    split
    · exact (State.SameSetup.foldl State.giveUp_sameSetup _ u).quiescing.trans h
    · exact h
  unfold State.quiesceGo
  extract_lets suspended s1 saved s2
  split
  · exact (s2.dropHalves_sameSetup _).quiescing.trans (given (begun _))
  · exact given (begun _)

/-! ## The obligation -/

/-- The event of a start. -/
theorem exec_start (s : State) (warm sref : Bool) (dies : BitVec 4) (images : List Image) :
    exec (if warm then .warmStart dies sref images else .coldStart dies images) s =
      .next (s.startEvent warm (warm && sref) dies images) := by
  cases warm <;> rfl

/-- What a failed step leaves (log 7). -/
theorem State.startFails_eq (s : State) (b : Boot) :
    (s.startFails b).bootState = 2 ∧ (s.startFails b).dieMask = 0 ∧ (s.startFails b).blocks = [] ∧
      (s.startFails b).bootStep = s.bootStep :=
  ⟨rfl, rfl, rfl, rfl⟩

/-- Settles O34: a start event either begins or steps (`startEvent_begins`, `startEvent_steps`), and each step has its equation above. -/
theorem startEventsComplete : Obligations.StartEventsComplete := by
  intro s
  refine ⟨fun warm sref dies images => ⟨fun h => ?_, fun b hst hi hb hmine hr => ?_⟩, fun b => ?_, fun die hin => ?_,
    ⟨_, rfl, s.quiesceGo_quiescing⟩, fun die => rfl⟩
  · obtain ⟨hmem, hhalt⟩ := s.startBegins_halts ⟨warm, warm && sref, dies, s.dieMask⟩ images
    exact ⟨_, (exec_start ..).trans (congrArg _ (State.startEvent_begins h)), rfl, rfl, rfl, rfl, rfl, hmem, hhalt⟩
  · obtain ⟨rfl, hsref, rfl⟩ := hmine
    subst hi
    rw [exec_start, ← hsref, State.startEvent_steps hst hb hr]
  · refine ⟨fun h0 hbad => ?_, fun h1 hbad => ?_, fun h0 hok => ?_, fun h2 => ?_, fun h4 => ?_, fun h5 => ?_, fun h9 => ?_⟩
    · obtain ⟨u, same, e⟩ := State.startStep_first b h0
      rw [e, if_neg (by simp [hbad]), ← same.bootStep]
      exact u.startFails_eq b
    · rw [State.startStep_second b h1, if_neg (by simp [hbad])]
      exact s.startFails_eq b
    · obtain ⟨u, same, e⟩ := State.startStep_first b h0
      rw [e, if_pos hok]
      exact ⟨rfl, fun i hi => u.digests_measured (by omega) (by simp) (same.images ▸ hi)⟩
    · rw [State.startStep_third b h2]
      exact ⟨rfl, rfl, rfl⟩
    · rw [State.startStep_fifth b h4]
      exact ⟨rfl, by split <;> rfl⟩
    · rw [State.startStep_sixth b h5]
      exact ⟨rfl, rfl, rfl⟩
    · rw [State.startStep_last b h9]
      obtain ⟨hkgs, hkvmap⟩ := State.start_fabric { s with bootState := 0, bootStep := 10 } b
      exact ⟨rfl, rfl, rfl, rfl, rfl, rfl, rfl, rfl, rfl, rfl, hkgs, hkvmap, State.start_die _ b⟩
  · have inServ {t : State} {x : State} (h : x = t) : (.next (if s.inService die.val then x else s) : Out) = .next t := by
      rw [if_pos hin, h]
    refine ⟨fun hh hb => ⟨inServ (State.mgmtLd_resume hh hb), State.unhalt_halted ..⟩, fun h => ?_, fun t ht => ?_⟩
    · obtain ⟨hreset, hhalted⟩ := State.resetLd_atReset (s.wake die.val) die.val ((s.wake die.val).bootState != 0)
      obtain ⟨hblocks, hlaunches⟩ := ((s.wake die.val).dropHostLines die.val).clearLd_work die.val
      exact ⟨_, inServ (State.mgmtLd_reset h), hreset, hhalted, hblocks, hlaunches⟩
    · refine ⟨?_, ?_, ?_⟩ <;> rintro rfl <;> exact inServ (State.pwrTarget_eq s die.val ht)

end Sys2Proof.Machine
end

section
/-! PROOFS. Instructions of fixed latency: their results and their frame (R16, R34, R153 to R169, R175 to R181, R185 to R192). -/

namespace Sys2Proof.Machine

/-! ## The issuing block and the results of its lanes -/

/-- The issuing block is found under its own number. -/
theorem Issuing.block {s : State} {b : Block} {c : Ctx} {h : Head} (hi : Issuing s b c h) : s.block? b.id = some b :=
  (State.block?_id hi.blk).symm ▸ hi.blk

/-- Each lane of a list has its own result there, and every other lane none. -/
theorem resOf_map (f : Nat → LaneRes) (ls : List Nat) (l : Nat) :
    resOf (ls.map fun l => (l, f l)) l = if l ∈ ls then f l else ⟨[], 0, none, none⟩ := by
  induction ls with
  | nil => rfl
  | cons m ls ih =>
    rw [resOf] at ih ⊢
    by_cases hm : m = l
    · simp [hm]
    · have hl : l ≠ m := Ne.symm hm
      simp only [List.map_cons, List.find?_cons, beq_eq_false_iff_ne.2 hm, List.mem_cons, hl, false_or]
      exact ih

/-- Results that draw from no generator leave every generator alone. -/
theorem resOf_map_rng {f : Nat → LaneRes} (hf : ∀ l, (f l).rng = none) (ls : List Nat) (l : Nat) :
    (resOf (ls.map fun l => (l, f l)) l).rng = none := by
  rw [resOf_map]
  split
  · exact hf l
  · rfl

/-- A lane that an update leaves out is as it was. -/
theorem Block.lane_modLanes_out (b : Block) (p : Nat → Bool) (f : Nat → Lane → Lane) {l : Nat} (h : p l = false) :
    (b.modLanes p f).lane l = b.lane l := by
  simp only [Block.lane, Block.modLanes, List.getD_eq_getElem?_getD, List.getElem?_mapIdx]
  cases b.lanes[l]? with
  | none => rfl
  | some ln => simp [h]

/-- A block goes past an instruction: its register files are those it had when the instruction issued. -/
theorem IssueFrame.of_advance {s t : State} {b b1 : Block} {c : Ctx} {h : Head} {cy caps : Nat} {recv codes : List Nat}
    {ps : List Producer} {fl dr : List Nat} (hb : s.block? b.id = some b) (q : b.Quiet b1 fl dr)
    (e : t.blocks = (s.setBlock (b1.advance c h cy recv codes caps ps)).blocks) (o : s.SameOutside t) : IssueFrame s t b fl dr :=
  IssueFrame.of_setBlock hb (q.trans (b1.advance_quiet c h cy recv codes caps ps fl dr)) e o

/-- Results that draw from no generator are issued in a state with the same blocks, from a block whose register files are those of
the issuing one. -/
theorem State.issueFixed_quiet {s s1 : State} {b b1 : Block} {c : Ctx} {h : Head} {fl dr : List Nat} (hb : s.block? b.id = some b)
    (q : b.Quiet b1 fl dr) (e : s1.blocks = s.blocks) (o : s.SameOutside s1) (w : Work) (d : Opd) (pd lat : Nat) {f : Nat → LaneRes}
    (hf : ∀ l, (f l).rng = none) (ls : List Nat) :
    IssueFrame s (s1.issueFixed b1 c h w d pd lat (ls.map fun l => (l, f l))) b fl dr := by
  refine IssueFrame.of_advance hb (q.trans (Block.modLanes_quiet _ _ _ ?_ ?_ ?_ ?_ fl dr)) (congrArg (updWhere _ _) e)
    ⟨o.dmem, o.hmem, o.dpoison, o.hpoison, o.dies, o.stores, o.launches, o.tlb, o.sharers, o.leases, o.podTime⟩ <;>
  · intro l ln
    rw [resOf_map_rng hf]

/-- Issuing results that draw from no generator changes no register file. -/
theorem Issuing.issueFixed_frame {s : State} {b : Block} {c : Ctx} {h : Head} (hi : Issuing s b c h) (w : Work) (d : Opd)
    (pd lat : Nat) {f : Nat → LaneRes} (hf : ∀ l, (f l).rng = none) (ls : List Nat) :
    IssueFrame s (s.issueFixed b c h w d pd lat (ls.map fun l => (l, f l))) b [] [] :=
  State.issueFixed_quiet hi.block (.rfl' b [] []) rfl (.rfl' s) w d pd lat hf ls

/-- So does issuing one result for all the lanes it goes to. -/
theorem Issuing.issueFixed_one {s : State} {b : Block} {c : Ctx} {h : Head} (hi : Issuing s b c h) (w : Work) (d : Opd)
    (pd lat l : Nat) {r : LaneRes} (hr : r.rng = none) : IssueFrame s (s.issueFixed b c h w d pd lat [(l, r)]) b [] [] :=
  hi.issueFixed_frame w d pd lat (f := fun _ => r) (fun _ => hr) [l]

/-! ## Results due after a fixed latency -/

/-- An instruction that runs as one of fixed latency completes as one. -/
theorem CompletesFixed.of_alu {i : Instr} {h : Head} {sps : List SrcSpec} {preds : List Nat} {d : Opd} {n pd lat : Nat}
    {res : Block → Nat → LaneRes} (e : ∀ s, exec i s = s.alu i h sps preds d n pd lat fun b _ l => res b l) :
    CompletesFixed i h sps preds d n pd lat res :=
  fun s _ _ hi hc => (e s).trans (State.alu_eq hi hc)

/-- Settles O1: each instruction of class 001 runs as one of fixed latency (`CompletesFixed.of_alu`). -/
theorem integerInstructionsComplete : Obligations.IntegerInstructionsComplete := by
  refine ⟨?_, ?_, ?_, ?_, ?_, ?_, ?_, ?_, ?_, ?_, ?_, ?_, ?_, ?_, ?_, ?_, ?_, ?_, ?_, ?_, ?_, ?_, ?_, ?_, ?_, ?_⟩ <;> intros <;>
    exact .of_alu fun _ => rfl

/-- Settles O2: so does each instruction of class 010. -/
theorem packedInstructionsComplete : Obligations.PackedInstructionsComplete := by
  refine ⟨?_, ?_, ?_, ?_, ?_, ?_, ?_, ?_, ?_, ?_, ?_, ?_, ?_⟩ <;> intros <;> exact .of_alu fun _ => rfl

/-- Settles O4: so does each float instruction of fixed latency. -/
theorem floatInstructionsComplete : Obligations.FloatInstructionsComplete := by
  refine ⟨?_, ?_, ?_, ?_, ?_, ?_, ?_, ?_, ?_, ?_, ?_, ?_⟩ <;> intros <;> exact .of_alu fun _ => rfl

/-- An instruction that acts in some lane goes on to its checks (R41). -/
theorem Work.acts_goes {w : Work} (h : w.acts = true) {x y : Out} : (if !w.acts then x else y) = y := by simp [h]

/-- AMAX issues where none of the lanes of its spans that act is stopped (R192). -/
theorem State.amax_eq {s : State} {b : Block} {c : Ctx} {h : Head} (hi : Issuing s b c h) (sf : Tag) (span : Span) (o : O2) :
    let w := b.work c h
    let act (l : Nat) : Bool := if c.wide then !(b.lane l).exited else w.src.contains l
    let src := ((w.src.flatMap fun l => spanLanes sf span l).eraseDups).filter act
    ClearPlain s b w src (w.recv.map (·.1)) ([⟨o.a, .fmt sf⟩] ++ needs h o.d) (dstCodes o.d 1) [] →
    exec (.amax h sf span o) s = .next (s.issueFixed b c h w o.d 7 8 (w.src.map fun l =>
      (l, LaneRes.ofReg ⟨splat sf.width sf.count (maxMag (FF.ofTag sf)
        (((spanLanes sf span l).filter act).flatMap fun m => b.elems m sf o.a)), sf⟩))) := by
  intro w act src hc
  show execAmax h sf span o s = _
  rw [execAmax, State.issue_eq hi]
  exact (Work.acts_goes hc.acts).trans (State.gated_eq hi hc.gate)

/-- Settles O6: a conversion runs as an instruction of fixed latency; AMAX, whose checks cover its spans, by `State.amax_eq`. -/
theorem conversionsComplete : Obligations.ConversionsComplete := by
  refine ⟨fun h sf df rm sat part d a c => .of_alu fun _ => rfl, fun h sf df rm sat part d a c => .of_alu fun _ => rfl,
    fun h sf df rm part d a c => .of_alu fun _ => rfl, fun h sf rm part o => .of_alu fun _ => rfl,
    fun h sf df rm part o => .of_alu fun _ => rfl, fun h sf ty o => .of_alu fun _ => rfl, ?_⟩
  intro h sf span o s b c hi w act src hc
  exact ⟨State.amax_eq hi sf span o hc, hi.issueFixed_frame _ _ _ _ (fun _ => rfl) _⟩

/-! ## Pointers -/

/-- An instruction of fixed latency none of whose own checks fails issues its results. -/
theorem State.aluChk_eq {s : State} {b : Block} {c : Ctx} {i : Instr} {h : Head} {sps : List SrcSpec} {d : Opd} {n lat : Nat}
    {bad : Block → Nat → Option Bad} {f : Block → Nat → LaneRes} (hi : Issuing s b c h) (ha : (b.work c h).acts = true)
    (hg : s.gate b (b.work c h).src ((b.work c h).recv.map (·.1)) (sps ++ needs h d) (dstCodes d n) [] = .pass)
    (hb : ∀ l ∈ (b.work c h).src, bad b l = none) :
    s.aluChk i h sps d n lat bad f =
      .next (s.issueFixed b c h (b.work c h) d 7 lat ((b.work c h).src.map fun l => (l, f b l))) := by
  unfold State.aluChk
  rw [State.issue_eq hi]
  dsimp only
  rw [Work.acts_goes ha, State.gated_eq hi hg, State.checked_eq]
  intro p hp
  obtain ⟨l, hl, rfl⟩ := List.mem_map.1 hp
  exact hb l hl

/-- Settles O12: PMAKE, PGET and TAGQ run as instructions of fixed latency, PSUB and PCHK where their own checks find nothing
(`State.aluChk_eq`). -/
theorem pointerInstructionsComplete : Obligations.PointerInstructionsComplete := by
  refine ⟨fun h priv o => .of_alu fun _ => rfl, ?_, fun h fld o => .of_alu fun _ => rfl, ?_, fun h o => .of_alu fun _ => rfl⟩
  · intro h o s b c hi w n hc hn
    refine ⟨?_, hi.issueFixed_frame _ _ _ _ (fun _ => rfl) _⟩
    show execPsub h o s = _
    rw [execPsub, State.aluChk_eq hi hc.acts hc.gate]
    exact fun l hl => if_neg (Nat.not_lt.2 (hn l hl))
  · intro h st o s b c hi fail hc hf
    refine ⟨?_, hi.issueFixed_frame _ _ _ _ (fun _ => rfl) _⟩
    show execPchk h st o s = _
    rw [execPchk, State.aluChk_eq hi hc.acts (by simpa using hc.gate)]
    exact fun l hl => if_neg (hf l hl)

/-! ## MOVK and SRD -/

/-- Two sets of sources that pass are passed together. -/
theorem Gate.both_pass (n : Nat) : Gate.both n .pass .pass = .pass := rfl

/-- A gate that passes lets an instruction go on whose guard can be read. -/
theorem State.gatedBy_pass {s : State} {b : Block} {c : Ctx} {i : Instr} {h : Head} {sps : List SrcSpec} {k : Out}
    (hi : Issuing s b c h) : s.gatedBy b c i h .pass sps k = k := by
  simp [State.gatedBy, State.guardShort_pass hi.guard]

/-- MOVK issues where B passes in the designated lane and A in the lane that B names (R159). -/
theorem State.movk_eq {s : State} {b : Block} {c : Ctx} {h : Head} (hi : Issuing s b c h) (o : O3) :
    let w := (b.work c h).once b
    let l := s.movkLane b w.desig o.b
    ClearPlain s b w [w.desig] (w.recv.map (·.1)) ([⟨o.b, .raw⟩] ++ needs h o.d) (dstCodes o.d 1) [] →
    s.gate (b.inRun c l) [l] [] [⟨o.a, .raw⟩] [] [] = .pass →
    exec (.movk h o) s = .next (s.issueFixed b c h w o.d 7 4 [(w.desig, LaneRes.ofReg ⟨(b.read l .plain o.a).bits, .n64⟩)]) := by
  dsimp only [List.cons_append, List.nil_append]
  intro hb ha
  show execMovk h o s = _
  rw [execMovk, State.issue_eq hi]
  dsimp only
  rw [Work.acts_goes hb.acts, hb.gate, ha, Gate.both_pass, ite_self, State.gatedBy_pass hi]

/-- SRD clears the flags of the lanes that it reads in its clearing form, and issues what they read (R160). -/
theorem State.srd_eq {s : State} {b : Block} {c : Ctx} {h : Head} (hi : Issuing s b c h) (r : SReg) (clr : Bool) (d : Opd) :
    let w := b.work c h
    ClearPlain s b w w.src (w.recv.map (·.1)) (needs h d) (dstCodes d 1) [] →
    exec (.srd h r clr d) s = .next (s.issueFixed
      (if clr then b.modLanes (fun l => w.src.contains l) fun _ ln => { ln with flags := 0 } else b) c h w d 7 4
      (w.src.map fun l => (l, LaneRes.ofReg ⟨s.special b l r, .n64⟩))) := by
  intro w hc
  show execSrd h r clr d s = _
  rw [execSrd, State.issue_eq hi]
  exact (Work.acts_goes hc.acts).trans (State.gated_eq hi hc.gate)

/-- Setting the flags of some lanes changes no other register of a block. -/
theorem Block.modFlags_quiet (b : Block) (ls : List Nat) (f : Nat → Lane → BitVec 6) :
    b.Quiet (b.modLanes (fun l => ls.contains l) fun l ln => { ln with flags := f l ln }) ls [] where
  files := {
    regs := b.lane_modLanes _ _ (·.regs) fun _ _ _ => rfl
    preds := b.lane_modLanes _ _ (·.p) fun _ _ _ => rfl
    kregs := fun _ => rfl, hregs := fun _ => rfl, ctl := fun _ => rfl, mode := fun _ => rfl
    sets := rfl, scratch := rfl, scrPoison := rfl, slots := rfl }
  flags l hl := congrArg Lane.flags (b.lane_modLanes_out _ _ (by simpa using hl))
  rng := fun l _ => b.lane_modLanes _ (fun l ln => { ln with flags := f l ln }) (·.rng) (fun _ _ _ => rfl) l
  id := rfl

/-- Settles O3: MOVK and SRD issue their results (`State.movk_eq`, `State.srd_eq`); the clearing form alone changes flags. -/
theorem movkAndSrdComplete : Obligations.MovkAndSrdComplete := by
  refine ⟨?_, ?_⟩
  · intro h o s b c hi w l hb ha
    exact ⟨State.movk_eq hi o hb ha, hi.issueFixed_one _ _ _ _ _ rfl⟩
  · intro h r clr d s b c hi w hc
    have q : b.Quiet (if clr then b.modLanes (fun l => w.src.contains l) fun _ ln => { ln with flags := 0 } else b)
        (if clr then w.src else []) [] := by
      cases clr with
      | true => exact b.modFlags_quiet w.src fun _ _ => 0
      | false => exact .rfl' b [] []
    exact ⟨State.srd_eq hi r clr d hc, State.issueFixed_quiet hi.block q rfl (.rfl' s) _ _ _ _ (fun _ => rfl) _⟩

/-! ## The frame of the instructions of fixed latency -/

/-- Until its result is written, an instruction that completes with a fixed latency and draws from no generator changes no
register file (R16, R34). -/
theorem Issuing.quiet {s t : State} {b : Block} {c : Ctx} {i : Instr} {h : Head} {sps : List SrcSpec} {preds : List Nat} {d : Opd}
    {n pd lat : Nat} {res : Block → Nat → LaneRes} (hi : Issuing s b c h) (hc : Clear s b h (b.work c h) sps d n pd preds)
    (e : CompletesFixed i h sps preds d n pd lat res) (run : exec i s = .next t)
    (hr : ∀ l, (res b l).rng = none := by intro l; rfl) : IssueFrame s t b [] [] := by
  rw [e s b c hi hc] at run
  cases run
  exact hi.issueFixed_frame _ _ _ _ hr _

/-- One that draws moves the generators of its own lanes alone (R68, R172). -/
theorem Issuing.draws {s t : State} {b : Block} {c : Ctx} {i : Instr} {h : Head} {sps : List SrcSpec} {preds : List Nat} {d : Opd}
    {n pd lat : Nat} {res : Block → Nat → LaneRes} (hi : Issuing s b c h) (hc : Clear s b h (b.work c h) sps d n pd preds)
    (e : CompletesFixed i h sps preds d n pd lat res) (run : exec i s = .next t) : IssueFrame s t b [] (b.work c h).src := by
  rw [e s b c hi hc] at run
  cases run
  exact State.issueFixed_frame hi.block c h _ _ _ _ _ _ fun l hl => .inr hl

/-- Settles O49: each instruction completes with a fixed latency, so it leaves the register files as they were
(`Issuing.quiet`); a conversion draws (`Issuing.draws`). -/
theorem registerInstructionsFrame : Obligations.RegisterInstructionsFrame := by
  obtain ⟨iadd, isub, iaddc, imul, imulh, imad, imadw, imin, imax, iabs, ineg, icmp, sel, movPlain, movAs, shl, shr, sar, rol, popc,
    clz, ctz, brev, bfx, bfi, plop⟩ := integerInstructionsComplete
  obtain ⟨and, or, xor, andn, prmb, iaddPacked, isubPacked, iminPacked, imaxPacked, imac2, idot4, shrr, isat⟩ :=
    packedInstructionsComplete
  obtain ⟨fadd, fsub, fmul, ffma, fmin, fmax, fabs, fneg, fcmp, fclass, frnd, fdot2⟩ := floatInstructionsComplete
  obtain ⟨cvt, cvtf8, pack6, pack4, unpk, sclc, -⟩ := conversionsComplete
  obtain ⟨pmake, -, pget, -, tagq⟩ := pointerInstructionsComplete
  intro s t b c h hi w runs quiet
  refine ⟨?_, ?_, ?_, ?_, ?_, ?_, ?_, ?_, ?_, ?_, ?_, ?_, ?_, ?_, ?_, ?_, ?_, ?_, ?_, ?_, ?_, ?_, ?_⟩
  · rintro f sat rm o hc (r | r | r | r | r | r | r | r | r | r | r | r | r | r | r | r | r | r | r | r)
    exacts [hi.quiet hc (iadd _ _ _ _) r, hi.quiet hc (isub _ _ _ _) r, hi.quiet hc (imul _ _ _ _) r,
      hi.quiet hc (imulh _ _ _) r, hi.quiet hc (imin _ _ _) r, hi.quiet hc (imax _ _ _) r, hi.quiet hc (shl _ _ _ _) r,
      hi.quiet hc (shr _ _ _) r, hi.quiet hc (sar _ _ _) r, hi.quiet hc (rol _ _ _) r, hi.quiet hc (bfx _ _ _) r,
      hi.quiet hc (iaddPacked _ _ _ _) r, hi.quiet hc (isubPacked _ _ _ _) r, hi.quiet hc (iminPacked _ _ _) r,
      hi.quiet hc (imaxPacked _ _ _) r, hi.quiet hc (fadd _ _ _ _) r, hi.quiet hc (fsub _ _ _ _) r,
      hi.quiet hc (fmul _ _ _ _) r, hi.quiet hc (fmin _ _ _) r, hi.quiet hc (fmax _ _ _) r]
  · rintro f sat rm sel ty o hc (r | r | r | r | r | r | r | r | r | r | r)
    exacts [hi.quiet hc (iabs _ _ _ _) r, hi.quiet hc (ineg _ _ _ _) r, hi.quiet hc (popc _ _ _) r, hi.quiet hc (clz _ _ _) r,
      hi.quiet hc (ctz _ _ _) r, hi.quiet hc (brev _ _ _) r, hi.quiet hc (fabs _ _ _) r, hi.quiet hc (fneg _ _ _) r,
      hi.quiet hc (fclass _ _ _ _) r, hi.quiet hc (frnd _ _ _ _) r, hi.quiet hc (sclc _ _ _ _) r]
  · rintro f sat rm o hc (r | r | r)
    exacts [hi.quiet hc (imad _ _ _ _) r, hi.quiet hc (bfi _ _ _) r, hi.quiet hc (ffma _ _ _ _) r]
  · intro f cin pd o hc r
    exact hi.quiet hc (iaddc _ _ _ _ _) r
  · intro f hi' sat o hc r
    exact hi.quiet hc (imadw _ _ _ _ _) r
  · rintro f rel frel pd x y hc (r | r)
    exacts [hi.quiet hc (icmp _ _ _ _ _ _) r, hi.quiet hc (fcmp _ _ _ _ _ _) r]
  · intro p o hc r
    exact hi.quiet hc (sel _ _ _) r
  · rintro (_ | f) o hc r
    · exact hi.quiet hc (movPlain h o) r
    · exact hi.quiet hc (movAs h f o) r
  · intro lut pd x y z hc r
    exact hi.quiet hc (plop _ _ _ _ _ _) r
  · rintro o hc (r | r | r | r)
    exacts [hi.quiet hc (and _ _) r, hi.quiet hc (or _ _) r, hi.quiet hc (xor _ _) r, hi.quiet hc (andn _ _) r]
  · intro o hc r
    exact hi.quiet hc (prmb _ _) r
  · intro o hc r
    exact hi.quiet hc (imac2 _ _) r
  · intro f sat o hc r
    exact hi.quiet hc (idot4 _ _ _ _) r
  · intro f o hc r
    exact hi.quiet hc (shrr _ _ _) r
  · intro f o hc r
    exact hi.quiet hc (isat _ _ _) r
  · intro rm o hc r
    exact hi.quiet hc (fdot2 _ _ _) r
  · rintro sf df rm sat part d a x hc (r | r)
    exacts [hi.draws hc (cvt _ _ _ _ _ _ _ _ _) r, hi.draws hc (cvtf8 _ _ _ _ _ _ _ _ _) r]
  · intro sf df rm part d a x hc r
    exact hi.draws hc (pack6 _ _ _ _ _ _ _ _) r
  · intro sf rm part o hc r
    exact hi.draws hc (pack4 _ _ _ _ _) r
  · intro sf df rm part o hc r
    exact hi.draws hc (unpk _ _ _ _ _ _) r
  · intro priv o hc r
    exact hi.quiet hc (pmake _ _ _) r
  · intro fld o hc r
    exact hi.quiet hc (pget _ _ _) r
  · intro o hc r
    exact hi.quiet hc (tagq _ _) r

end Sys2Proof.Machine
end

section
/-! PROOFS. Special functions, cross-lane instructions and pointer actions at issue (R36, R37, R182, R195 to R207, R223 to R226). -/

namespace Sys2Proof.Machine

/-! ## Special functions -/

/-- An instruction under a pending tag that no check stops goes in flight when its tag is free (R36, R37). -/
theorem State.tagged_eq {s : State} {b : Block} {c : Ctx} {i : Instr} {h : Head} {sps : List SrcSpec} {d : Opd} {tag : Nat}
    {f : Block → Work → Nat → LaneRes} (hi : Issuing s b c h) (hc : Clear s b h (b.work c h) sps d 1 7 [])
    (ht : ∀ l ∈ b.tagLanes h (b.work c h), s.tagBusy b l tag = false) :
    s.tagged i h sps d 1 tag f =
      let rs := (b.work c h).src.map fun l => (l, f b (b.work c h) l)
      .next (s.issueLong b c h (b.work c h) d 1 tag .wrs true ((b.work c h).regWrites b d rs ++ (b.work c h).flagWrites rs)) := by
  have hg := hc.gate
  rw [if_neg (by decide), List.append_nil] at hg
  unfold State.tagged
  rw [State.issue_eq hi]
  dsimp only
  rw [Work.acts_goes hc.acts, State.gated_eq hi hg, if_neg (by simpa using ht)]

/-- An instruction that runs under a pending tag completes under it. -/
theorem CompletesTagged.of_tagged {i : Instr} {h : Head} {sps : List SrcSpec} {d : Opd} {tag : Nat} {res : Block → Nat → LaneRes}
    (e : ∀ s, exec i s = s.tagged i h sps d 1 tag fun b _ l => res b l) : CompletesTagged i h sps d tag res :=
  fun s _ _ hi hc ht => (e s).trans (State.tagged_eq hi hc ht)

/-- Settles O5: each special function runs under its pending tag (`CompletesTagged.of_tagged`). -/
theorem specialFunctionsComplete : Obligations.SpecialFunctionsComplete := by
  intro h f rm tg o
  refine ⟨?_, ?_, ?_, ?_, ?_, ?_, ?_, ?_⟩ <;> exact .of_tagged fun _ => rfl

/-! ## Cross-lane instructions -/

/-- A check that fails in no lane finds nothing. -/
theorem failing_none {t : Trap} {ls : List Nat} {p : Nat → Bool} (h : ∀ l ∈ ls, p l = false) : failing t ls p = none := by
  have e : ls.filter p = [] := List.filter_eq_nil_iff.2 fun l hl => by simp [h l hl]
  rw [failing, e]

/-- A cross-lane instruction that no check stops, and for which no register that it reads in another lane is in flight, issues
its results (R195, R196). -/
theorem State.cross_eq {s : State} {b : Block} {c : Ctx} {i : Instr} {h : Head} {sps : List SrcSpec} {d : Opd} {pd lat : Nat}
    {reads : Block → Nat → List (Nat × Opd)} {f : Block → (Nat → Bool) → Nat → LaneRes} (hi : Issuing s b c h)
    (ha : (b.crossWork c h).acts = true)
    (hg : s.gate b (b.crossWork c h).src ((b.crossWork c h).recv.map (·.1)) sps
      (dstCodes d 1 ++ if pd < 7 then [256 + pd] else []) [] = .pass)
    (hr : ∀ l ∈ (b.crossWork c h).src, ∀ m o k, (m, o) ∈ reads b l → regCode? o = some k →
      s.longBusy b m k = false ∧ s.fixedBusy b m k = false) :
    s.cross i h sps d pd lat reads f = .next (s.issueFixed b c h (b.crossWork c h) d pd lat
      ((b.crossWork c h).src.map fun l => (l, f b (fun m => (b.crossWork c h).src.contains m) l))) := by
  have free : ∀ l ∈ (b.crossWork c h).src, ∀ e ∈ (reads b l).filterMap (fun (m, o) => (regCode? o).map fun k => (m, k)),
      s.longBusy b e.1 e.2 = false ∧ s.fixedBusy b e.1 e.2 = false := by
    intro l hl e he
    obtain ⟨⟨m, o⟩, hm, he⟩ := List.mem_filterMap.1 he
    obtain ⟨k, hk, rfl⟩ : ∃ k, regCode? o = some k ∧ (m, k) = e := Option.map_eq_some_iff.1 he
    exact hr l hl m o k hm hk
  unfold State.cross
  rw [State.issue_eq hi]
  dsimp only
  rw [Work.acts_goes ha, State.gated_eq hi hg, failing_none, Option.getD_none, if_neg]
  · rfl
  · simp only [List.any_eq_true, Bool.or_eq_true, not_exists, not_and, not_or, Bool.not_eq_true]
    exact free
  · intro l hl
    rw [Bool.and_eq_false_iff]
    exact .inr (List.any_eq_false.2 fun e he => by simp [(free l hl e he).1])

/-- An instruction that runs on the lanes of a home group, with results that draw from no generator, completes so. -/
theorem CompletesCross.of_cross {i : Instr} {h : Head} {sps : List SrcSpec} {d : Opd} {pd lat : Nat}
    {reads : Block → Nat → List (Nat × Opd)} {res : Block → (Nat → Bool) → Nat → LaneRes}
    (e : ∀ s, exec i s = s.cross i h sps d pd lat reads res) (hr : ∀ b act l, (res b act l).rng = none) :
    CompletesCross i h sps d pd lat reads res :=
  fun s _ _ hi hc hf => ⟨(e s).trans (State.cross_eq hi hc.acts hc.gate hf), hi.issueFixed_frame _ _ _ _ (hr _ _) _⟩

/-- Settles O7: each cross-lane instruction runs on the lanes of its home groups (`CompletesCross.of_cross`); REDUX and SCAN do so at
group scope. -/
theorem crossLaneInstructionsComplete : Obligations.CrossLaneInstructionsComplete := by
  refine ⟨?_, ?_, ?_, ?_, ?_, ?_, ?_, ?_, ?_, ?_⟩
  · exact fun h f w var pd o => .of_cross (fun _ => rfl) fun _ _ _ => rfl
  · exact fun h f w o => .of_cross (fun _ => rfl) fun _ _ _ => rfl
  · exact fun h f w o => .of_cross (fun _ => rfl) fun _ _ _ => rfl
  · exact fun h f w o => .of_cross (fun _ => rfl) fun _ _ _ => rfl
  · exact fun h w var pd o => .of_cross (fun _ => rfl) fun _ _ _ => by cases var <;> rfl
  · exact fun h f w val pd o => .of_cross (fun _ => rfl) fun _ _ _ => rfl
  · exact fun h f w s1 pd o => .of_cross (fun _ => rfl) fun _ _ _ => rfl
  · exact fun h f w s1 pd o => .of_cross (fun _ => rfl) fun _ _ _ => rfl
  · exact fun h f w op pt o hs => .of_cross (fun _ => if_pos (by simp [hs])) fun _ _ _ => rfl
  · exact fun h f w op excl pt o hs => .of_cross (fun _ => if_pos (by simp [hs])) fun _ _ _ => rfl

/-! ## Memory actions of pointers -/

/-- Keeping import entries takes no identifier. -/
@[simp] theorem State.keepImports_nextId (s : State) (b : Block) (ps : List (BitVec 128)) :
    (s.keepImports b ps).nextId = s.nextId := by
  obtain ⟨m, e⟩ := s.keepImports_eq b ps
  rw [e]

/-- Keeping import entries changes no block. -/
@[simp] theorem State.keepImports_blocks (s : State) (b : Block) (ps : List (BitVec 128)) :
    (s.keepImports b ps).blocks = s.blocks := by
  obtain ⟨m, e⟩ := s.keepImports_eq b ps
  rw [e]

/-- Keeping import entries leaves memory, the dies and the engines as they were (R414). -/
theorem State.keepImports_outside (s : State) (b : Block) (ps : List (BitVec 128)) : s.SameOutside (s.keepImports b ps) := by
  obtain ⟨m, e⟩ := s.keepImports_eq b ps
  rw [e]
  exact ⟨rfl, rfl, rfl, rfl, rfl, rfl, rfl, rfl, rfl, rfl, rfl⟩

/-- Counting an operation changes no register of a group (R311). -/
theorem Block.addOps_quiet (b : Block) (gs : List Nat) (id : Nat) (k : Ctr) (fl dr : List Nat) : b.Quiet (b.addOps gs id k) fl dr := by
  induction gs generalizing b with
  | nil => exact .rfl' b fl dr
  | cons g gs ih =>
    have q : b.Quiet (b.modGroup g (·.addOp id k)) fl dr :=
      ⟨⟨fun _ => rfl, fun _ => rfl, fun _ => b.group_modGroup _ _ _ (·.k) fun _ => rfl, fun _ => b.group_modGroup _ _ _ (·.h) fun _ => rfl,
        fun _ => b.group_modGroup _ _ _ (·.ctl) fun _ => rfl, fun _ => b.group_modGroup _ _ _ (·.sysMode) fun _ => rfl,
        rfl, rfl, rfl, rfl⟩, fun _ _ => rfl, fun _ _ => rfl, rfl⟩
    exact q.trans (ih _)

/-- The checks of a list of lanes find nothing. -/
theorem State.checked_map {s : State} {b : Block} {c : Ctx} {h : Head} {ls : List Nat} {bad : Nat → Option Bad} {k : Out}
    (hb : ∀ l ∈ ls, bad l = none) : s.checked b c h (ls.map fun l => (l, bad l)) k = k :=
  State.checked_eq fun p hp => by
    obtain ⟨l, hl, rfl⟩ := List.mem_map.1 hp
    exact hb l hl

/-- Results that draw from no generator are issued with a memory action opened beside them, in a state that holds more import
entries. -/
theorem Issuing.issueFixed_action {s s1 : State} {b b1 : Block} {c : Ctx} {h : Head} (hi : Issuing s b c h) (q : b.Quiet b1 [] [])
    (e : s1.blocks = s.blocks) (out : s.SameOutside s1) (id : Nat) (as : List Action) (w : Work) (d : Opd) (pd lat : Nat)
    {f : Nat → LaneRes} (hf : ∀ l, (f l).rng = none) (ls : List Nat) :
    IssueFrame s (({ s1 with nextId := id, actions := as } : State).issueFixed b1 c h w d pd lat (ls.map fun l => (l, f l))) b [] [] :=
  State.issueFixed_quiet (s1 := { s1 with nextId := id, actions := as }) hi.block q e ⟨out.dmem, out.hmem, out.dpoison, out.hpoison,
    out.dies, out.stores, out.launches, out.tlb, out.sharers, out.leases, out.podTime⟩ w d pd lat hf ls

/-- An instruction that is counted and moves past changes no register file. -/
theorem Issuing.counted_frame {s t : State} {b : Block} {c : Ctx} {h : Head} (hi : Issuing s b c h) (gs : List Nat) (id : Nat) (k : Ctr)
    (cy : Nat) (e : t.blocks = (s.setBlock ((b.addOps gs id k).advance c h cy [] [] 0 [])).blocks) (o : s.SameOutside t) :
    IssueFrame s t b [] [] :=
  .of_advance hi.block (b.addOps_quiet gs id k [] []) e o

/-- Settles O13: each issues where its checks find nothing, and its result, or the count of its action, changes no register
file. -/
theorem pointerActionsComplete : Obligations.PointerActionsComplete := by
  refine ⟨?_, ?_⟩
  · intro widen h ns nc o s b c hi w pt new rs acts i hc hb
    have run : exec i s = s.respan i h widen ns nc o := by cases widen <;> rfl
    rw [State.respan, State.issue_eq hi] at run
    dsimp only at run
    rw [Work.acts_goes hc.acts, State.gated_eq hi hc.gate, State.checked_map] at run
    · change exec i s = (if !acts.isEmpty && (b.ctrFull w.groups .st || s.actionHeld b w.src false || s.logHeld b w.groups) then
        .next (s.holdIssue c)
        else if acts.isEmpty then
          .next ((s.keepImports b (acts.map fun l => b.readPtr l o.a)).issueFixed b c h w o.d 7 4 rs)
        else _) at run
      constructor
      · intro he
        rw [he] at run
        exact ⟨run, hi.issueFixed_frame _ _ _ _ (fun _ => rfl) _⟩
      · intro ha hf hh hl act s1
        have hne : acts.isEmpty = false := by simpa using ha
        rw [hne, hf, hh, hl, State.keepImports_nextId] at run
        exact ⟨run, hi.issueFixed_action (b.addOps_quiet _ _ _ [] []) (s.keepImports_blocks b _) (s.keepImports_outside b _) _ _
          w _ _ _ (fun _ => rfl) _⟩
    · intro l hl
      obtain ⟨h1, h2⟩ := hb l hl
      change (match s.ptrFail b l (pt l) 0 (pt l).limit false [1, 2, 6] with
        | some k => some (badPtr 1 k (pt l).base)
        | none => if (new l).isNone then some ⟨100, .ptrBad, 0, (pt l).base⟩ else none) = none
      rw [h1, Option.isNone_eq_false_iff.2 h2]
      rfl
  · intro upgr h x o n s b c hi w off len hc hb hf hh hl act s1
    have run : exec (if upgr then .upgr h x o n else .subscr h x o n) s =
        s.register (if upgr then .upgr h x o n else .subscr h x o n) h (if upgr then .upgr else .subscr) x o n := by
      cases upgr <;> rfl
    have hk : ((if upgr then ActKind.upgr else .subscr) == .upgr) = upgr := by cases upgr <;> rfl
    rw [State.register, State.issue_eq hi] at run
    dsimp only at run
    rw [Work.acts_goes hc.acts, State.gated_eq hi hc.gate, State.checked_map, hk, hf, hh, hl, State.keepImports_nextId] at run
    · refine ⟨run, ?_⟩
      obtain ⟨m, e⟩ := s.keepImports_eq b (w.src.map fun l => b.readPtr l x)
      change IssueFrame s { (s.keepImports b (w.src.map fun l => b.readPtr l x)).pass (b.addOps w.groups s.nextId .ld) c h with
        nextId := s.nextId + 1, actions := _ } b [] []
      rw [e]
      exact hi.counted_frame _ _ _ _ rfl ⟨rfl, rfl, rfl, rfl, rfl, rfl, rfl, rfl, rfl, rfl, rfl⟩
    · intro l hm
      exact Option.map_eq_none_iff.2 (hb l hm)

end Sys2Proof.Machine
end

section
/-! PROOFS. A store at set scope in a group of no set traps at issue (R20, R211, R286, R347). -/

namespace Sys2Proof.Machine

/-- A block of one lane and no set; V4:V5 hold a pointer to 8 KiB of the global space. -/
def setlessBlock : Block := { fetchBlock 0x10000 with
  lanes := [{ (fetchBlock 0x10000).lane 0 with
    regs := [(4, ⟨(framePtr 0 0x18000).setWidth 64, .ptrLo⟩), (5, ⟨(framePtr 0 0x18000).extractLsb' 64 64, .ptrHi⟩)] }] }

/-- Its rendezvous at set scope, of the one group (R286). -/
def setlessCtx : Ctx :=
  { blk := 0, coh := 0, grp := 0, lanes := [0], pc := 0x10000, len := 8, wide := true, members := [0], order := [0] }

def setHead : Head := ⟨.set, 0, false, 7⟩

/-- The reset machine, without a trap handler, in which that rendezvous issues. -/
def setlessState : State := { State.reset with blocks := [setlessBlock], cur := some setlessCtx }

/-- A store of V3 through V4:V5 at set scope. -/
def setlessStore : Instr := .st setHead .any .one (.v 4) .zero (.v 3)

/-- Where the store goes on to. -/
def setlessNext : State := match exec setlessStore setlessState with
  | .next t => t
  | _ => setlessState

theorem setlessStore_runs : exec setlessStore setlessState = .next setlessNext := by rfl

/-- SET_ABSENT finds no handler, and the logical device halts (R347). -/
theorem setlessStore_halts : (setlessState.die 0).halted = false ∧ (setlessNext.die 0).halted = true := by decide +kernel

/-- Refutes O50: its clause for ST leaves out the check that the group has a set (`needs`), which its clauses for loads, atomics and NOP
make. A store at set scope in a group of no set meets its hypotheses and traps with SET_ABSENT; without a handler the logical device halts,
so the dies change at issue. -/
theorem not_pendingAndControlFrame : ¬ Obligations.PendingAndControlFrame := by
  intro h
  obtain ⟨-, -, -, store, -⟩ := h setlessState setlessNext setlessBlock setlessCtx setHead ⟨rfl, rfl, .inr rfl, by decide⟩
  have frame := store .any .one (.v 4) .zero (.v 3) ⟨by decide, by decide⟩ (by decide) setlessStore_runs
  obtain ⟨before, after⟩ := setlessStore_halts
  rw [State.die, frame.out.dies] at after
  exact Bool.noConfusion (before.symm.trans after)

end Sys2Proof.Machine
end

section
/-! PROOFS. The checks of an instruction at issue (R20, R24, R26, R29, R46, R99, R138, R209). -/

namespace Sys2Proof.Machine

/-! ## Checks 3 to 6 with nothing in flight -/

/-- With no result of fixed latency in flight the block stands as its consumers will read it. -/
theorem State.landed_nil {s : State} (hf : s.fixed = []) (b : Block) : s.landed b = b := by
  rw [State.landed, hf]
  rfl

/-- With no result under a pending tag in flight no source waits for one. -/
theorem State.srcPending_nil {s : State} (hl : s.longs = []) (b : Block) (l : Nat) (sp : SrcSpec) : s.srcPending b l sp = false := by
  unfold State.srcPending State.longBusy
  rw [hl]
  cases regCode? sp.opd <;> simp

/-- A check that some source fails in no lane finds nothing. -/
theorem failingSrc_none {t : Trap} {ls : List Nat} {sps : List SrcSpec} {p : Nat → SrcSpec → Bool}
    (h : ls.filter (fun l => sps.any (p l)) = []) : failingSrc t ls sps p = none := by
  rw [failingSrc, h]

/-- A check that some source fails names the lanes that fail it, and the first source that fails in the lowest of them. -/
theorem failingSrc_some {t : Trap} {ls : List Nat} {sps : List SrcSpec} {p : Nat → SrcSpec → Bool} {m : Nat} {ms : List Nat}
    (h : ls.filter (fun l => sps.any (p l)) = m :: ms) : failingSrc t ls sps p = some (.trap t (m :: ms) (sps.findIdx (p m))) := by
  rw [failingSrc, h]
  rfl

/-- With nothing in flight and every set present, the checks find the first that some source fails: void, POISON, then tags (R46). -/
theorem State.gate_nothing_inflight {s : State} {b : Block} {src recv writes preds : List Nat} {sps : List SrcSpec} (hf : s.fixed = [])
    (hl : s.longs = []) (hs : src.filter (fun l => sps.any (b.setFails l)) = []) {g : Gate}
    (hg : (failingSrc .voidOperand src sps b.voidFails <|> failingSrc .poisonUse src sps b.poisonFails <|>
      failingSrc .formatMismatch src sps b.tagFails) = some g) : s.gate b src recv sps writes preds = g := by
  have hb : ∀ l, s.longBusy b l = fun _ => false := fun l => by
    funext k
    rw [State.longBusy, hl]
    rfl
  have hset : failing .setAbsent src (fun l => sps.any (b.setFails l)) = none := by rw [failing, hs]
  have hhold : (src.any fun l => !b.stallchk l && (codesOf sps ++ preds.map (256 + ·)).any (s.longBusy b l)) = false := by
    simp [hb]
  unfold State.gate
  simp only [State.landed_nil hf, State.srcPending_nil hl, Bool.not_false, Bool.true_and, hset, hhold, Option.getD_none,
    Bool.false_eq_true, if_false]
  revert hg
  cases failingSrc .voidOperand src sps b.voidFails <;> cases failingSrc .poisonUse src sps b.poisonFails <;>
    cases failingSrc .formatMismatch src sps b.tagFails <;> simp

/-- An instruction of fixed latency that fails one of checks 3 to 6 traps in the lanes that fail it (R46). -/
theorem State.alu_traps {s : State} {b : Block} {c : Ctx} {i : Instr} {h : Head} {sps : List SrcSpec} {preds : List Nat} {d : Opd}
    {n pd lat k : Nat} {f : Block → Work → Nat → LaneRes} {t : Trap} {ls : List Nat} (hi : Issuing s b c h)
    (ha : (b.work c h).acts = true) (ht : (t == .stallShort) = false)
    (hg : s.gate b (b.work c h).src ((b.work c h).recv.map (·.1)) (sps ++ needs h d)
      (dstCodes d n ++ if pd < 7 then [256 + pd] else []) preds = .trap t ls k) :
    s.alu i h sps preds d n pd lat f = .next (s.raise b c h.scope t ls (fun _ =>
      ⟨if t == .formatMismatch then BitVec.ofNat 64 (256 * specField i (sps ++ needs h d) k) else 0, 0, 0⟩) 0) := by
  unfold State.alu
  rw [State.issue_eq hi]
  dsimp only
  rw [Work.acts_goes ha, State.gated, hg, State.gatedBy]
  dsimp only
  rw [ht]
  rfl

/-! ## The checks of a transfer and of an access -/

/-- A transfer to an address that is no multiple of 4 traps with ALIGN in the lanes that would take it (R138). -/
theorem State.transfer_traps {s : State} {b : Block} {c : Ctx} {i : Instr} {h : Head} {a : Opd} {aw : BitVec 8} {l : Nat}
    {ls : List Nat} (hi : Issuing s b c h) (hg : s.gate b (b.acting c h) [] [⟨a, .int64⟩] [] [] = .pass)
    (hf : (b.acting c h).filter (fun l => (b.read l .plain a).bits.toNat % 4 != 0) = l :: ls) :
    s.transfer i h a aw = .next (s.raise b c h.scope .align (l :: ls) (fun m => ⟨0, (b.read m .plain a).bits, 0⟩) 0) := by
  unfold State.transfer
  rw [State.issue_eq hi]
  dsimp only
  rw [State.gated_eq hi hg, hf]
  simp only [BitVec.ofNat_toNat, BitVec.setWidth_eq]

/-- Each lane that the first failing check names is one of those checked, and fails it. -/
theorem firstBad_lane {ls ms : List Nat} {bad : Nat → Option Bad} {x : Bad} {l : Nat}
    (h : firstBad (ls.map fun l => (l, bad l)) = some (x, ms)) (hl : l ∈ ms) : l ∈ ls ∧ (bad l).isSome = true := by
  unfold firstBad at h
  dsimp only at h
  split at h
  · cases h
  · obtain ⟨y, -, hy⟩ := Option.map_eq_some_iff.1 h
    obtain ⟨-, rfl⟩ := Prod.mk.inj hy
    obtain ⟨⟨m, z⟩, hz, rfl⟩ := List.mem_map.1 hl
    obtain ⟨⟨k, q⟩, hk, hq⟩ := List.mem_filterMap.1 (List.mem_filter.1 hz).1
    obtain ⟨j, hj, he⟩ := List.mem_map.1 hk
    obtain ⟨rfl, rfl⟩ := Prod.mk.inj he
    obtain ⟨w, hw, he2⟩ := Option.map_eq_some_iff.1 hq
    obtain ⟨rfl, rfl⟩ := Prod.mk.inj he2
    exact ⟨hj, Option.isSome_iff_exists.2 ⟨_, hw⟩⟩

/-- What the checks find in a lane is looked up under its number. -/
theorem find?_bad {ls : List Nat} {bad : Nat → Option Bad} {l : Nat} (hl : l ∈ ls) :
    (ls.map fun l => (l, bad l)).find? (fun e => e.1 == l) = some (l, bad l) := by
  induction ls with
  | nil => cases hl
  | cons m ls ih =>
    by_cases e : m = l
    · subst e
      simp
    · have hm : l ∈ ls := (List.mem_cons.1 hl).resolve_left (Ne.symm e)
      simpa [e] using ih hm

/-- A check that fails traps in the lanes that fail it, each with what it found (R99). -/
theorem State.checked_traps {s : State} {b : Block} {c : Ctx} {h : Head} {ls ms : List Nat} {bad : Nat → Option Bad} {x : Bad} {k : Out}
    (e : firstBad (ls.map fun l => (l, bad l)) = some (x, ms)) (hx : x.holds = false) :
    ∃ args : Nat → TrapArgs, s.checked b c h (ls.map fun l => (l, bad l)) k = .next (s.raise b c h.scope x.trap ms args 0) ∧
      ∀ l ∈ ms, ∃ y, bad l = some y ∧ (args l).addr = BitVec.ofNat 64 y.addr := by
  refine ⟨_, by rw [State.checked, e]; dsimp only; rw [hx]; rfl, fun l hl => ?_⟩
  obtain ⟨hm, hs⟩ := firstBad_lane e hl
  obtain ⟨y, hy⟩ := Option.isSome_iff_exists.1 hs
  refine ⟨y, hy, ?_⟩
  dsimp only
  rw [find?_bad hm, hy]
  rfl

/-- The checks of an access name its address (R99, R209). -/
theorem State.memBad_addr {s : State} {b : Block} {m : MemOp} {l o : Nat} {pv : BitVec 128} {y : Bad}
    (h : s.memBad b m l pv o = some y) : y.addr = (ptrOf pv).base + o := by
  unfold State.memBad at h
  dsimp only at h
  split at h
  · cases h
    rfl
  · split at h <;> cases h
    rfl

/-- The trap of an access is that of the first pointer check that fails, else ALIGN (R99, R209). -/
theorem State.memBad_trap (s : State) (b : Block) (m : MemOp) (l o : Nat) (pv : BitVec 128) :
    (s.memBad b m l pv o).map (·.trap) = match s.ptrFail b l (ptrOf pv) o (m.size (ptrOf pv)) (m.fmtBad (ptrOf pv))
        (if m.isLoad then [1, 2, 4, 5, 6] else [1, 2, 3, 4, 5, 6]) with
      | some k => some (checkTrap k)
      | none => if (ptrOf pv).alignOff o % m.align (ptrOf pv) = 0 then none else some .align := by
  unfold State.memBad
  dsimp only
  cases s.ptrFail b l (ptrOf pv) o (m.size (ptrOf pv)) (m.fmtBad (ptrOf pv)) (if m.isLoad then [1, 2, 4, 5, 6] else [1, 2, 3, 4, 5, 6]) with
  | some k => rfl
  | none =>
    by_cases ha : (ptrOf pv).alignOff o % m.align (ptrOf pv) = 0 <;> simp [ha]

/-- A LOAD, STORE OR ATOMIC that fails a check of its pointer, or of alignment, traps with it (R99, R209). -/
theorem State.memIssue_traps {s : State} {b : Block} {c : Ctx} {i : Instr} {h : Head} {m : MemOp} {d ptr off data : Opd} {tag : Nat}
    {dsps : List SrcSpec} {ctr : Ctr} {x : Bad} {ls : List Nat} (hi : Issuing s b c h) (ha : (b.work c h).acts = true)
    (hg : s.gate b (b.work c h).src (if m.isStore then [] else (b.work c h).recv.map (·.1))
      (ptrSpecs ptr ++ [⟨off, .int64⟩] ++ dsps ++ needs h d) (if m.isStore then [] else dstCodes d m.regs) [] = .pass)
    (e : firstBad ((b.work c h).src.map fun l => (l, s.memBad b m l (b.readPtr l ptr) (b.read l .zext off).bits.toNat)) = some (x, ls))
    (hx : x.holds = false) :
    ∃ args : Nat → TrapArgs, s.memIssue i h m d tag ptr off data dsps ctr = .next (s.raise b c h.scope x.trap ls args 0) ∧
      ∀ l ∈ ls, (args l).addr = BitVec.ofNat 64 ((ptrOf (b.readPtr l ptr)).base + (b.read l .zext off).bits.toNat) := by
  unfold State.memIssue
  rw [State.issue_eq hi]
  dsimp only
  rw [Work.acts_goes ha, State.gated_eq hi hg]
  obtain ⟨args, run, found⟩ := State.checked_traps e hx
  refine ⟨args, run, fun l hl => ?_⟩
  obtain ⟨y, hy, hadr⟩ := found l hl
  rw [hadr, State.memBad_addr hy]

/-- Settles O57: IADD by the order of the checks (`State.gate_nothing_inflight`), BRX by `State.transfer_traps`, the accesses by
`State.memIssue_traps` and `State.memBad_trap`. -/
theorem issueChecksTrap : Obligations.IssueChecksTrap := by
  intro h f sat o a aw s b c hi w sps fails traps
  refine ⟨?_, fun hg l ls hf => State.transfer_traps hi hg hf, ?_, ?_⟩
  · intro ha hfix hlong hset
    refine ⟨fun hv => ?_, fun hv hp => ?_, fun hv hp l ls ht => ?_⟩
    · obtain ⟨m, ms, e⟩ := List.exists_cons_of_ne_nil hv
      change execIadd h f sat o s = .next (s.trap b c h.scope .voidOperand (fails fun l sp => b.voidFails l sp))
      rw [e, execIadd]
      refine State.alu_traps (k := sps.findIdx (b.voidFails m)) hi ha rfl (State.gate_nothing_inflight hfix hlong hset ?_)
      rw [failingSrc_some e]
      rfl
    · obtain ⟨m, ms, e⟩ := List.exists_cons_of_ne_nil hp
      change execIadd h f sat o s = .next (s.trap b c h.scope .poisonUse (fails fun l sp => b.poisonFails l sp))
      rw [e, execIadd]
      refine State.alu_traps (k := sps.findIdx (b.poisonFails m)) hi ha rfl (State.gate_nothing_inflight hfix hlong hset ?_)
      rw [failingSrc_none hv, failingSrc_some e]
      rfl
    · change execIadd h f sat o s = _
      rw [execIadd]
      refine State.alu_traps hi ha rfl (State.gate_nothing_inflight hfix hlong hset ?_)
      rw [failingSrc_none hv, failingSrc_none hp, failingSrc_some ht]
      rfl
  · intro ptr off data d mf n tg op pr at_ failed gate
    refine ⟨fun hg x ls e hx => ?_, fun hg x ls e hx => ?_, fun hg x ls e hx => ?_, fun hg x ls e hx => ?_⟩
    · exact State.memIssue_traps (m := ⟨.load, mf, nregCount n, 8⟩) hi hg.1 hg.2 e hx
    · exact State.memIssue_traps (m := ⟨.store, mf, nregCount n, 8⟩) (d := .zero) hi hg.1 hg.2 e hx
    · exact State.memIssue_traps (m := ⟨.atom op, mf, 1, atomWidth mf false⟩) hi hg.1 hg.2 e hx
    · exact State.memIssue_traps (m := ⟨.cas, mf, if pr then 2 else 1, atomWidth mf pr⟩) hi hg.1 hg.2 e hx
  · intro m l pv off first hn
    rw [State.memBad_trap]
    change (match first with
      | some k => some (checkTrap k)
      | none => if (ptrOf pv).alignOff off % m.align (ptrOf pv) = 0 then none else some .align) = _
    rcases first with _ | _ | _ | _ | _ | _ | _ | k <;> rfl

end Sys2Proof.Machine
end

section
/-! PROOFS. An instruction of lane scope predicated off in every lane steps past (R41). -/

namespace Sys2Proof.Machine

/-! ## The frames of issue where nothing acts -/

/-- An instruction of lane scope predicated off in every lane of its cohort acts in none. -/
theorem Block.work_off {b : Block} {c : Ctx} {h : Head} (hs : h.scope = .lane) (off : ∀ l ∈ c.lanes, (b.lane l).on h = false) :
    (b.work c h).acts = false := by
  have e : c.lanes.filter (fun l => (b.lane l).on h) = [] := List.filter_eq_nil_iff.2 fun l hl => by simp [off l hl]
  simp [Block.work, hs, e, laneWork]

section
variable {s : State} {b : Block} {c : Ctx} {h : Head}

/-- A meaning that steps past where nothing acts does so at an issue. -/
theorem Issuing.passes (hi : Issuing s b c h) {a : Bool} (ha : a = false) (i : Instr) {x : Out} {k : Block → Ctx → Out}
    (hk : k b c = if !a then .next (s.pass b c h) else x) : s.issue i h k = .next (s.pass b c h) := by
  rw [State.issue_eq hi, hk, ha]
  rfl

variable (hi : Issuing s b c h) (ha : (b.work c h).acts = false)
include hi ha

theorem State.alu_off (i : Instr) (sps : List SrcSpec) (preds : List Nat) (d : Opd) (n pd lat : Nat)
    (f : Block → Work → Nat → LaneRes) : s.alu i h sps preds d n pd lat f = .next (s.pass b c h) :=
  hi.passes ha i rfl

theorem State.aluChk_off (i : Instr) (sps : List SrcSpec) (d : Opd) (n lat : Nat) (bad : Block → Nat → Option Bad)
    (f : Block → Nat → LaneRes) : s.aluChk i h sps d n lat bad f = .next (s.pass b c h) :=
  hi.passes ha i rfl

theorem State.tagged_off (i : Instr) (sps : List SrcSpec) (d : Opd) (n tag : Nat) (f : Block → Work → Nat → LaneRes) :
    s.tagged i h sps d n tag f = .next (s.pass b c h) :=
  hi.passes ha i rfl

theorem State.memIssue_off (i : Instr) (m : MemOp) (d : Opd) (tag : Nat) (ptr off data : Opd) (dsps : List SrcSpec) (ctr : Ctr) :
    s.memIssue i h m d tag ptr off data dsps ctr = .next (s.pass b c h) :=
  hi.passes ha i rfl

theorem State.respan_off (i : Instr) (widen : Bool) (ns : BitVec 3) (nc : BitVec 2) (o : O2) :
    s.respan i h widen ns nc o = .next (s.pass b c h) :=
  hi.passes ha i rfl

theorem State.register_off (i : Instr) (kind : ActKind) (x o n : Opd) : s.register i h kind x o n = .next (s.pass b c h) :=
  hi.passes ha i rfl

theorem State.onceIssue_off (i : Instr) (absent : Bool) (sps : List SrcSpec) (d : Opd) (n : Nat) (k : Block → Ctx → Work → Out) :
    s.onceIssue i h absent sps d n k = .next (s.pass b c h) :=
  hi.passes ha i rfl

omit hi in
/-- The lanes whose commands are performed act where the instruction acts (R232). -/
theorem Block.engWork_off : (b.engWork c h).acts = false := by
  unfold Block.engWork
  split <;> exact ha

theorem State.engine_off (i : Instr) (sps : List SrcSpec) (d : Opd) (n : Nat) (ctr : Block → Work → Option Ctr)
    (bad : Block → Nat → Option Bad) (held : Block → Work → Bool) (f : Block → Work → Option Nat → State → Nat → EngStep)
    (fin : State → Block → Ctx → Work → Option Nat → List (Nat × Nat) → State) :
    s.engine i h sps d n ctr bad held f fin = .next (s.pass b c h) :=
  hi.passes (Block.engWork_off ha) i rfl

theorem State.engLong_off (i : Instr) (absent : Bool) (sps : List SrcSpec) (d : Opd) (tag : Nat) (bad : Block → Nat → Option Bad)
    (held : Block → Work → Bool) (body : Block → Work → LongBody) :
    s.engLong i h absent sps d tag bad held body = .next (s.pass b c h) :=
  hi.passes (Block.engWork_off ha) i rfl

theorem State.appendIssue_off (i : Instr) (sps : List SrcSpec) (bad : Block → Work → Nat → Option Bad) (kind : Block → Nat → AppendKind) :
    s.appendIssue i h sps bad kind = .next (s.pass b c h) :=
  hi.passes (Block.engWork_off ha) i rfl

theorem State.sysIssue_off (i : Instr) (sps : List SrcSpec) (bad : Block → Nat → Option Bad) (k : Block → Ctx → Work → Out) :
    s.sysIssue i h sps bad k = .next (s.pass b c h) :=
  hi.passes (Block.engWork_off ha) i rfl

omit ha in
/-- At lane scope a cross-lane instruction's lanes are those of any other (R195). -/
theorem State.cross_off (hs : h.scope = .lane) (off : ∀ l ∈ c.lanes, (b.lane l).on h = false) (i : Instr) (sps : List SrcSpec) (d : Opd)
    (pd lat : Nat) (reads : Block → Nat → List (Nat × Opd)) (f : Block → (Nat → Bool) → Nat → LaneRes) :
    s.cross i h sps d pd lat reads f = .next (s.pass b c h) := by
  have e : b.crossWork c h = b.work c h := by simp [Block.crossWork, Block.work, hs]
  exact hi.passes (e ▸ Block.work_off hs off) i rfl

end

/-- The head that an instruction's base word gives back is the instruction's (R103). -/
theorem head_of_fields {h h' : Head} {op : BitVec 9} {mod : BitVec 14} {d a b c : BitVec 8} {g : Base} {ls lits : List Opd}
    (hf : some (({ h'.base op mod with dst := d, a := a, b := b, c := c } : Base), ls) = some (g, lits))
    (hh : Head.ofBase g = some h) : h' = h := by
  cases hf
  rw [headOfBase] at hh
  exact Option.some.inj hh

/-- Settles O56: each instruction steps past as its frame does where nothing acts; a terminator and an event are none of these. -/
theorem predicatedOffPasses : Obligations.PredicatedOffPasses := by
  intro i g lits h s b c hf hh hw ht hs hi off
  have ha := Block.work_off hs off
  refine ⟨?_, State.pass_frame hi.block c h⟩
  cases i with
  | runend | br | brc | brx | call | ret | exit | yield | bar | waitc | waitm | regroup | chkpt | tret => cases ht
  | issuePick | cohortPromote | regroupExchange | fixedResultWrite | pendingTagComplete | rendezvousComplete | trapEntry |
    accessPerformed | waitmReread | blockRelease | scratchpadFill | scratchpadWriteback | memoryActionClose | slotReturn |
    copyAccept | copyStamp | patch | matrixGrant | matrixPassWrite | tileTransferComplete | binOpenPerform | binItemPerform |
    binClosePerform | sendEntryAccept | sendEntryComplete | headerRead | blockPlace | launchAged | launchEnd | queueEnable |
    queueTeardown | pageWalkComplete | faultSignalDelayed | quiescenceTick | fltsvcConsume | fltsvcServiced | fltsvcRefused |
    fltsvcIgnored | preqSuspend | preqResume | preemptWindowEnd | blockSave | blockRestore | readRequest | readSharedLease |
    ownershipRequest | writeBack | invalidation | acknowledgement | dataReply | errorReply | push | revocation | sendListPayload |
    remoteStamp | syncAccessAtHome | timeExchange | fabricMessageDiscard | chordReview | requestTimeout | leaseExpire |
    timeSyncTick | hostRead | hostWrite | hostSnoop | backInvalidateResponse | spdmMeasurement | coldStart | warmStart |
    fabDropClear | quiesce | ldResume | ldReset | pwrTargetD0 | pwrTargetD1 | pwrTargetD2 | powerStateEnter | dieWake |
    thermalThrottle | thermalTrip | pwrtelUpdate | patrolScrub | memoryError | portFailing | retrainComplete | retrainWindowEnd |
    portSignalLoss | portSilenceTimeout | peerLost | hostLinkDrop | supplyReset | registerWrite | linkBringUp | departureMessage |
    chordRelay | chordReturn | pairKeyEpoch | powerCapThrottle => cases hf
  | iadd | isub | imul | imulh | imin | imax | iaddPacked | isubPacked | iminPacked | imaxPacked | iabs | ineg | popc | clz | ctz
    | brev | shl | shr | sar | rol | bfx =>
    cases head_of_fields hf hh
    dsimp only [exec]
    simp only [execIadd, execIsub, execImul, execImulh, execImin, execImax, execIaddPacked, execIsubPacked, execIminPacked,
      execImaxPacked, execIabs, execIneg, execPopc, execClz, execCtz, execBrev, execShl, execShr, execSar, execRol, execBfx,
      State.int2, State.int1, State.pat2, State.alu_off hi ha]
  | iaddc | imad | imadw | icmp | sel | mov | bfi | plop | prmb | imac2 | idot4 | shrr | isat | and | or | xor | andn =>
    cases head_of_fields hf hh
    dsimp only [exec]
    simp only [execIaddc, execImad, execImadw, execIcmp, execSel, execMov, execBfi, execPlop, execPrmb, execImac2,
      execIdot4, execShrr, execIsat, execAnd, execOr, execXor, execAndn, State.logic, State.alu_off hi ha]
  | fadd | fsub | fmul | ffma | fmin | fmax | fabs | fneg | fclass | fcmp | frnd | fdot2 =>
    cases head_of_fields hf hh
    dsimp only [exec]
    simp only [execFadd, execFsub, execFmul, execFfma, execFmin, execFmax, execFabs, execFneg, execFclass, execFcmp,
      execFrnd, execFdot2, State.flt, State.fltSel, State.fltBits, State.alu_off hi ha]
  | frcp | frsq | fsqrt | fexp2 | flog2 | fsin | fcos | ftanh =>
    cases head_of_fields hf hh
    dsimp only [exec]
    simp only [execFrcp, execFrsq, execFsqrt, execFexp2, execFlog2, execFsin, execFcos, execFtanh, State.special1,
      State.tagged_off hi ha]
  | cvt | cvtf8 | pack6 | pack4 | unpk | sclc | pmake | pget | tagq =>
    cases head_of_fields hf hh
    dsimp only [exec]
    simp only [execCvt, execCvtf8, execPack6, execPack4, execUnpk, execSclc, execPmake, execPget, execTagq, State.convert,
      State.alu_off hi ha]
  | shuf | slide | bcast | perm | vote | match_ | eqmask | rank =>
    cases head_of_fields hf hh
    dsimp only [exec]
    simp only [execShuf, execSlide, execBcast, execPerm, execVote, execMatch, execEqmask, execRank, State.cross_off hi hs
      off]
  | redux | scan =>
    cases head_of_fields hf hh
    dsimp only [exec]
    simp only [execRedux, execScan, hs, beq_self_eq_true, Bool.or_true, if_true, State.cross_off hi hs off]
  | ld | st | atom | cas =>
    cases head_of_fields hf hh
    dsimp only [exec]
    simp only [execLd, execSt, execAtom, execCas, State.memIssue_off hi ha]
  | psub | pchk =>
    cases head_of_fields hf hh
    dsimp only [exec]
    simp only [execPsub, execPchk, State.aluChk_off hi ha]
  | pwiden | pnarrow =>
    cases head_of_fields hf hh
    dsimp only [exec]
    simp only [execPwiden, execPnarrow, State.respan_off hi ha]
  | subscr | upgr =>
    cases head_of_fields hf hh
    dsimp only [exec]
    simp only [execSubscr, execUpgr, State.register_off hi ha]
  | tclaim | trel | tld | tst | tzero | tdrain | twin | tflag | hld | hset | hget =>
    cases head_of_fields hf hh
    dsimp only [exec]
    simp only [execTclaim, execTrel, execTld, execTst, execTzero, execTdrain, execTwin, execTflag, execHld, execHset,
      execHget, State.transferIssue, State.onceIssue_off hi ha]
  | copy | copyx | release =>
    cases head_of_fields hf hh
    dsimp only [exec]
    simp only [execCopy, execCopyx, execRelease, State.copyIssue, State.engine_off hi ha]
  | copyw | binrd | time | fltrd | qsc =>
    cases head_of_fields hf hh
    dsimp only [exec]
    simp only [execCopyw, execBinrd, execTime, execFltrd, execQsc, State.engLong_off hi ha]
  | sendl | launch =>
    cases head_of_fields hf hh
    dsimp only [exec]
    simp only [execSendl, execLaunch, State.appendIssue_off hi ha]
  | trap | swr | tlbx | halt =>
    cases head_of_fields hf hh
    dsimp only [exec]
    simp only [execTrap, execSwr, execTlbx, execHalt, State.sysIssue_off hi ha]
  | movk | srd | amax | setd | nop | mmq | mms =>
    cases head_of_fields hf hh
    dsimp only [exec]
    simp only [execMovk, execSrd, execAmax, execSetd, execNop, execMmq, execMms]
    exact hi.passes ha _ rfl
  | bin =>
    cases head_of_fields hf hh
    dsimp only [exec]
    simp only [execBin]
    exact hi.passes (Block.engWork_off ha) _ rfl

end Sys2Proof.Machine
end

section
/-! PROOFS. Events of an issue partition: picking, promotion, lane exchange, rendezvous and trap entry (R47, R50, R52, R283, R347,
R348). -/

namespace Sys2Proof.Machine

/-- A partition that has not picked in the cycle picks. -/
theorem execIssuePick_eq {s : State} {d core part : Nat} (h : s.picked.contains (partKey d core part) = false) :
    exec (.issuePick d core part) s = .next (({ s with picked := s.picked ++ [partKey d core part] } : State).pickPart d core part) := by
  change execIssuePick d core part s = _
  rw [execIssuePick, h]
  rfl

/-- A pick puts the cohorts of the group picked to issue. -/
theorem State.pickPart_cohorts {s : State} {d core part p k : Nat} {ks : List Cohort}
    (h : (s.fillPart d core part).pickGroup d core part = some (p, k, .cohorts ks)) :
    s.pickPart d core part = { s.fillPart d core part with
      port := (s.fillPart d core part).port ++ (ks.map fun c => PortEnt.cohort k c.id) ++
        [.picked d core part p k (ks.map fun c => (c.id, c.pc))] } := by
  unfold State.pickPart
  dsimp only
  rw [h]

/-- A pick puts the completed rendezvous of the group picked to issue. -/
theorem State.pickPart_rdv {s : State} {d core part p k : Nat} {r : Rdv}
    (h : (s.fillPart d core part).pickGroup d core part = some (p, k, .rdv r)) :
    s.pickPart d core part = { s.fillPart d core part with
      port := (s.fillPart d core part).port ++ [.rdv k r.id, .picked d core part p k [(r.id, r.pc)]] } := by
  unfold State.pickPart
  dsimp only
  rw [h]

/-- Two lanes that may be exchanged are. -/
theorem execRegroupExchange_eq {s : State} {blk x y : Nat} {b : Block} (hb : s.block? blk = some b) (h : s.mayExchange b x y = true) :
    exec (.regroupExchange blk x y) s = .next
      { s.setBlock (b.swapLanes x y) with exchanged := s.exchanged ++ [b.partOf ((b.lane x).phys / 32)] } := by
  change execRegroupExchange blk x y s = _
  rw [execRegroupExchange, hb]
  dsimp only
  rw [h]
  rfl

/-- A rendezvous whose lanes are home waits for its pick. -/
theorem execRendezvousComplete_eq {s : State} {blk n : Nat} {b : Block} {r : Rdv} (hf : s.Found b.rdvs (·.id) n r blk b)
    (hr : b.rdvReady r = true)
    (home : ∀ l ∈ Block.required r, (((Block.required r).foldl (fun b l => s.sendHome b l) b).lane l).phys = l) :
    exec (.rendezvousComplete blk n) s = .next (s.setBlock { (Block.required r).foldl (fun b l => s.sendHome b l) b with
      rdvs := updWhere (·.id == n) (fun r => { r with fired := true }) ((Block.required r).foldl (fun b l => s.sendHome b l) b).rdvs }) := by
  have all : ((Block.required r).all fun l => (((Block.required r).foldl (fun b l => s.sendHome b l) b).lane l).phys == l) = true :=
    List.all_eq_true.2 fun l hl => beq_iff_eq.2 (home l hl)
  obtain ⟨hr2, hb⟩ := hf
  change execRendezvousComplete blk n s = _
  rw [execRendezvousComplete, hb]
  dsimp only
  rw [hr2]
  dsimp only
  rw [hr, all]
  rfl

/-- A trap whose earlier work is done is taken up: without a handler or a frame at once, otherwise by where its frame lies. -/
theorem execTrapEntry_eq {s : State} {blk g : Nat} {b : Block} {r : Raised} (hb : s.block? blk = some b)
    (hr : (b.group g).raised = some r) (hh : (s.die b.die).halted = false) (hs : b.isSaved = false) (hd : s.drained b r.lanes = true) :
    exec (.trapEntry blk g) s =
      if !bit (s.die b.die).tvec.toNat 0 || !bit (s.die b.die).tframe.toNat 0 then .next (s.enterTrap blk g)
      else
        match s.spots b.die (s.frameBase b g) 8192 .write .either with
        | (s1, .ok ps) =>
          let ws := ps.zip (s1.frameImage b g r)
          match s1.letIn (frameWho blk g) b.die (ws.map (·.1)) (some (ws.map (·.2))) with
          | (s, false) => .next s
          | (s, true) => .next ((s.enterTrap blk g).pushLeases ((devLines ws).map (·.1)))
        | _ => .next (s.enterTrap blk g) := by
  change execTrapEntry blk g s = _
  rw [execTrapEntry, hb]
  dsimp only
  rw [hr]
  dsimp only
  rw [hh, hs, hd]
  rfl

/-- Settles O22: each event by its equation above. -/
theorem issueEventsComplete : Obligations.IssueEventsComplete := by
  intro s
  refine ⟨?_, fun blk coh => rfl, fun blk x y b hb h => execRegroupExchange_eq hb h, fun blk n b r hf hr home =>
    execRendezvousComplete_eq hf hr home, ?_⟩
  · intro d core part p k h s1
    exact ⟨fun ks e => (execIssuePick_eq h).trans (congrArg _ (State.pickPart_cohorts e)),
      fun r e => (execIssuePick_eq h).trans (congrArg _ (State.pickPart_rdv e))⟩
  · intro blk g b r hb hr hh hs hd on
    have taken := execTrapEntry_eq hb hr hh hs hd
    refine ⟨fun hon => ?_, fun s1 va k e => ?_, fun s1 ps t hon e el => ?_⟩
    · rw [taken, if_pos]
      rw [← Bool.not_and]
      exact congrArg (!·) hon
    · rw [taken, e]
      exact ite_self _
    · rw [taken, if_neg, e]
      · dsimp only
        rw [el]
      · rw [← Bool.not_and]
        exact fun h => Bool.noConfusion (h.symm.trans (congrArg (!·) hon))

end Sys2Proof.Machine
end

section
/-! PROOFS. Events that complete what has issued: results, pending tags, monitors, accesses, memory actions, page walks (R30, R36, R147,
R212, R224, R393). -/

namespace Sys2Proof.Machine

/-- A due result's writes are made, but those that wait for an earlier one to the same register (R30). -/
theorem execFixedResultWrite_eq {s : State} {id : Nat} {f : FixedRes} (hf : s.fixed.find? (·.id == id) = some f)
    (hd : s.fixedDue f = true) :
    exec (.fixedResultWrite id) s = .next
      { s.modBlock f.blk (fun b => b.applyAll (f.wrs.filter fun w => !s.wrWaits f w)) with
        fixed := if f.wrs.filter (s.wrWaits f) = [] then s.fixed.filter (·.id != id)
          else updWhere (·.id == id) (fun g => { g with wrs := f.wrs.filter (s.wrWaits f) }) s.fixed } := by
  change execFixedResultWrite id s = _
  rw [execFixedResultWrite, hf]
  dsimp only
  rw [hd]
  cases f.wrs.filter (s.wrWaits f) <;> rfl

/-- A result under a pending tag that is ready, and that nothing defers, completes as its value tells. -/
theorem execPendingTagComplete_eq {s : State} {id : Nat} {o : LongOp} {b : Block} (hf : s.Found s.longs LongOp.id id o o.blk b)
    (hr : o.ready = true) (hw : o.waits = none) (hs : o.shown = []) (hd : o.deferred = false) (hb : s.fixedBefore b o = false)
    (ha : s.accs.any (fun a => a.id == id && a.deferred) = false) (hbody : o.body = .wrs ∨ o.body = .access) :
    let s1 : State := { s.modBlock o.blk (fun b => b.applyAll (o.wrs.filter o.kept)) with
      longs := s.longs.filter (·.id != id), accs := s.accs.filter (·.id != id) }
    exec (.pendingTagComplete id) s = .next ((((s1.dropLines id).finishOp o.blk id).settleDrains).fillLog.settleExit o.blk) := by
  obtain ⟨ho, hblk⟩ := hf
  have value : s.longValue b o = .ok s o.wrs := by rcases hbody with e | e <;> rw [State.longValue, e]
  have goes : (!o.ready || o.waits.isSome || !o.shown.isEmpty || o.deferred || s.fixedBefore b o ||
      s.accs.any fun a => a.id == id && a.deferred) = false := by
    rw [hr, hw, hs, hd, hb, ha]
    rfl
  change execPendingTagComplete id s = _
  rw [execPendingTagComplete, ho]
  dsimp only
  rw [hblk]
  dsimp only
  rw [goes, value]
  rcases hbody with e | e <;> rw [e] <;> rfl

/-- The access of a load names the lane that reads. -/
theorem State.laneAcc_load_lane (s : State) (b : Block) (f : MFmt) (n w l o : Nat) (pv : BitVec 128) (data : Opd) :
    (s.laneAcc b ⟨.load, f, n, w⟩ l pv o data).1.lane = l := rfl

/-- A monitor whose lanes wait reads its places again (R147). -/
theorem execWaitmReread_eq {s : State} {id : Nat} {m : Monitor} {b : Block} (hf : s.Found s.monitors Monitor.id id m m.blk b)
    (ha : s.accs.any (·.id == id) = false) (hl : m.lanes ≠ []) :
    ∃ t a, exec (.waitmReread id) s = .next t ∧ t.accs = s.accs ++ [a] ∧ a.id = id ∧ a.kind = .monitor ∧
      a.las.map (·.lane) = m.lanes.map (·.1) := by
  obtain ⟨hm, hb⟩ := hf
  have hne : m.lanes.isEmpty = false := by simpa using hl
  change ∃ t a, execWaitmReread id s = .next t ∧ _
  rw [execWaitmReread, hm]
  dsimp only
  rw [hb]
  dsimp only
  rw [ha, hne]
  exact ⟨_, _, rfl, rfl, rfl, rfl, by rw [List.map_map]; rfl⟩

/-- The lanes of an access whose turn it is are performed, those named first before the rest (R212). -/
theorem execAccessPerformed_eq {s : State} {id : Nat} {a : Access} {order : List Nat} (hf : s.accs.find? (·.id == id) = some a)
    (hd : a.las.all (·.done) = false) :
    let first := if a.kind = .store then [] else order
    exec (.accessPerformed id order) s = .next
      ((s.performLanes id (first ++ (a.las.map (·.lane)).filter fun l => !first.contains l)).afterLane id) := by
  have hk : (if a.kind == .store then [] else order) = if a.kind = .store then [] else order := by
    cases a.kind <;> rfl
  change execAccessPerformed id order s = _
  rw [execAccessPerformed, hf]
  dsimp only
  rw [hd, hk]
  rfl

/-- A memory action none of whose ranges is still out ends (R224). -/
theorem execMemoryActionClose_eq {s s1 : State} {id : Nat} {t : Action} {b : Block} (hf : s.Found s.actions Action.id id t t.blk b)
    (hr : s.actionReady t = true)
    (hd : t.ranges.foldl (fun acc e => let q := acc.1.actRange b t.kind id e; (q.1, acc.2 && q.2)) (s, true) = (s1, true)) :
    exec (.memoryActionClose id) s = .next
      ((({ s1 with actions := s1.actions.filter (·.id != id) } : State).finishOp t.blk id).dropLines id) := by
  obtain ⟨ht, hb⟩ := hf
  change execMemoryActionClose id s = _
  rw [execMemoryActionClose, ht]
  dsimp only
  rw [hb]
  dsimp only at hd ⊢
  rw [hr, hd]
  rfl

/-- The lanes of an access are translated, or their faults recorded (R393). -/
theorem execPageWalkComplete_eq {s s1 : State} {id : Nat} {a : Access} {b : Block} {las : List LaneAcc}
    (hf : s.Found s.accs Access.id id a a.blk b) (hw : s.walkLanes b a a.las [] = (s1, las)) :
    exec (.pageWalkComplete id) s = .next (s1.setAccess { a with las := las }).fillLog := by
  obtain ⟨ha, hb⟩ := hf
  change execPageWalkComplete id s = _
  rw [execPageWalkComplete, ha]
  dsimp only
  rw [hb]
  dsimp only
  rw [hw]

/-- Settles O23: each event by its equation above. -/
theorem resultEventsComplete : Obligations.ResultEventsComplete :=
  fun _ _ => ⟨fun _ hf hd => execFixedResultWrite_eq hf hd,
    fun _ _ hf hr hw hs hd hb ha hbody => execPendingTagComplete_eq hf hr hw hs hd hb ha hbody,
    fun _ _ hf ha hl => execWaitmReread_eq hf ha hl, fun _ _ hf hd => execAccessPerformed_eq hf hd,
    fun _ _ _ hf hr hd => execMemoryActionClose_eq hf hr hd, fun _ _ _ _ hf hw => execPageWalkComplete_eq hf hw⟩

end Sys2Proof.Machine
end

section
/-! PROOFS. What the writing of a result changes (R30, R34). -/

namespace Sys2Proof.Machine

/-! ## The registers of a lane -/

/-- A write names a K or H register of a group. -/
def Wr.namesGroup (g : Nat) : Wr → Bool
  | .kreg k _ _ => k == g
  | .hreg k _ _ => k == g
  | _ => false

/-- A write names an X register. -/
def Wr.namesX : Wr → Bool
  | .xpos .. => true
  | .xtag .. => true
  | _ => false

/-- A capture keeps the canonical form. -/
theorem Lane.capture_wf {ln : Lane} (r : Reg) (w : Sparse.wf Reg.zero ln.regs = true) : Sparse.wf Reg.zero (ln.capture r).regs = true :=
  Sparse.set_wf _ _ _ _ (Sparse.set_wf _ _ _ _ w)

/-- A capture leaves every register but Y0 and Y1 (codes 200 and 201) as it was (R30). -/
theorem Lane.capture_get {ln : Lane} (r : Reg) (w : Sparse.wf Reg.zero ln.regs = true) {c : Nat} (h0 : c ≠ 200) (h1 : c ≠ 201) :
    Sparse.get Reg.zero (ln.capture r).regs c = Sparse.get Reg.zero ln.regs c :=
  calc Sparse.get Reg.zero (ln.capture r).regs c
      = Sparse.get Reg.zero (Sparse.set Reg.zero ln.regs 201 (Sparse.get Reg.zero ln.regs 200)) c :=
        (Sparse.get_set _ _ _ _ _ (Sparse.set_wf _ _ _ _ w)).trans (if_neg h0)
    _ = Sparse.get Reg.zero ln.regs c := (Sparse.get_set _ _ _ _ _ w).trans (if_neg h1)

/-- A predicate written changes no register. -/
@[simp] theorem Lane.setPred_regs (ln : Lane) (p : Nat) (v : Bool) : (ln.setPred p v).regs = ln.regs := by
  unfold Lane.setPred
  split <;> rfl

/-- One write keeps the canonical form of a lane's registers. -/
theorem Lane.written_one_wf {ln : Lane} (l : Nat) (w : Wr) (h : Sparse.wf Reg.zero ln.regs = true) :
    Sparse.wf Reg.zero (ln.written l [w]).regs = true := by
  cases w with
  | reg k c r =>
    by_cases hk : k = l
    · simpa [Lane.written, Lane.setReg, hk] using Sparse.set_wf _ _ _ _ h
    · simpa [Lane.written, hk] using h
  | ycap k r =>
    by_cases hk : k = l
    · simpa [Lane.written, hk] using Lane.capture_wf r h
    · simpa [Lane.written, hk] using h
  | flags k f => by_cases hk : k = l <;> simpa [Lane.written, hk] using h
  | pred k p v => by_cases hk : k = l <;> simpa [Lane.written, hk] using h
  | rng k v => by_cases hk : k = l <;> simpa [Lane.written, hk] using h
  | kreg | xpos | xtag | hreg => exact h

/-- One write leaves a register that it does not name as it was. -/
theorem Lane.written_one_get {ln : Lane} {l c : Nat} {w : Wr} (h : Sparse.wf Reg.zero ln.regs = true) (hn : w.names l c = false) :
    Sparse.get Reg.zero (ln.written l [w]).regs c = Sparse.get Reg.zero ln.regs c := by
  cases w with
  | reg k d r =>
    by_cases hk : k = l
    · have hc : c ≠ d := by
        rintro rfl
        simp [Wr.names, hk] at hn
      simpa [Lane.written, Lane.setReg, hk] using (Sparse.get_set _ _ _ _ _ h).trans (if_neg hc)
    · simp [Lane.written, hk]
  | ycap k r =>
    by_cases hk : k = l
    · simp only [Wr.names, hk, beq_self_eq_true, Bool.true_and, Bool.or_eq_false_iff, beq_eq_false_iff_ne] at hn
      simpa [Lane.written, hk] using Lane.capture_get r h hn.1 hn.2
    · simp [Lane.written, hk]
  | flags k f => by_cases hk : k = l <;> simp [Lane.written, hk]
  | pred k p v => by_cases hk : k = l <;> simp [Lane.written, hk]
  | rng k v => by_cases hk : k = l <;> simp [Lane.written, hk]
  | kreg | xpos | xtag | hreg => rfl

/-- Writes are made one after the other. -/
theorem Lane.written_cons (ln : Lane) (l : Nat) (w : Wr) (ws : List Wr) : ln.written l (w :: ws) = (ln.written l [w]).written l ws := rfl

/-- Writes keep the canonical form of a lane's registers, and leave those that none names as they were. -/
theorem Lane.written_regs {ln : Lane} (l : Nat) (ws : List Wr) (h : Sparse.wf Reg.zero ln.regs = true) :
    Sparse.wf Reg.zero (ln.written l ws).regs = true ∧ ∀ c, ws.any (Wr.names l c) = false →
      Sparse.get Reg.zero (ln.written l ws).regs c = Sparse.get Reg.zero ln.regs c := by
  induction ws generalizing ln with
  | nil => exact ⟨h, fun _ _ => rfl⟩
  | cons w ws ih =>
    obtain ⟨wf, get⟩ := ih (Lane.written_one_wf l w h)
    rw [Lane.written_cons]
    refine ⟨wf, fun c hc => ?_⟩
    rw [List.any_cons, Bool.or_eq_false_iff] at hc
    exact (get c hc.2).trans (Lane.written_one_get h hc.1)

/-! ## What some writes change in a block -/

/-- How a block changes by some writes: only the lanes, groups and sets that they name. -/
structure Block.WrittenBy (b : Block) (ws : List Wr) (b' : Block) : Prop where
  id : b'.id = b.id
  size : b'.lanes.length = b.lanes.length
  scratch : b'.scratch = b.scratch
  slots : b'.slots = b.slots
  cohorts : b'.cohorts = b.cohorts
  lanes : ∀ l, l < b.lanes.length → b'.lane l = (b.lane l).written l ws
  groups : ∀ g, ws.any (Wr.namesGroup g) = false →
    (b'.group g).k = (b.group g).k ∧ (b'.group g).h = (b.group g).h ∧ (b'.group g).ctl = (b.group g).ctl
  sets : ws.any Wr.namesX = false → b'.sets = b.sets

theorem Block.WrittenBy.nil (b : Block) : b.WrittenBy [] b :=
  ⟨rfl, rfl, rfl, rfl, rfl, fun _ _ => rfl, fun _ _ => ⟨rfl, rfl, rfl⟩, fun _ => rfl⟩

/-- Writes follow one another. -/
theorem Block.WrittenBy.append {b b1 b2 : Block} {ws vs : List Wr} (h : b.WrittenBy ws b1) (k : b1.WrittenBy vs b2) :
    b.WrittenBy (ws ++ vs) b2 where
  id := k.id.trans h.id
  size := k.size.trans h.size
  scratch := k.scratch.trans h.scratch
  slots := k.slots.trans h.slots
  cohorts := k.cohorts.trans h.cohorts
  lanes l hl := by
    rw [k.lanes l (h.size.symm ▸ hl), h.lanes l hl]
    exact (List.foldl_append ..).symm
  groups g hg := by
    rw [List.any_append, Bool.or_eq_false_iff] at hg
    obtain ⟨k1, h1, c1⟩ := h.groups g hg.1
    obtain ⟨k2, h2, c2⟩ := k.groups g hg.2
    exact ⟨k2.trans k1, h2.trans h1, c2.trans c1⟩
  sets hx := by
    rw [List.any_append, Bool.or_eq_false_iff] at hx
    exact (k.sets hx.2).trans (h.sets hx.1)

/-- Noting in an open frame that a handler lane wrote a register writes none (R354). -/
theorem Block.noteWrite_written (b : Block) (l c : Nat) : b.WrittenBy [] (b.noteWrite l c) := by
  refine ⟨rfl, rfl, rfl, rfl, rfl, fun _ _ => rfl, fun g _ => ⟨?_, ?_, ?_⟩, fun _ => rfl⟩ <;>
  · refine b.group_modGroup _ _ _ _ fun x => ?_
    split <;> rfl

/-- So it does for each lane of a list. -/
theorem Block.noteWrites_written (b : Block) (gs : List Nat) (c : Nat) :
    b.WrittenBy [] (gs.foldl (fun b g => b.noteWrite (32 * g) c) b) := by
  induction gs generalizing b with
  | nil => exact .nil b
  | cons g gs ih => exact (b.noteWrite_written _ _).append (ih _)

/-- And for each member of each of some sets. -/
theorem Block.noteSets_written (b : Block) (ts : List GSet) (c : Nat) :
    b.WrittenBy [] (ts.foldl (fun b t => t.members.foldl (fun b g => b.noteWrite (32 * g) c) b) b) := by
  induction ts generalizing b with
  | nil => exact .nil b
  | cons t ts ih => exact (b.noteWrites_written t.members c).append (ih _)

/-- A write of one lane. -/
theorem Block.modLane_written (b : Block) (w : Wr) (k : Nat) (f : Lane → Lane)
    (hw : ∀ l ln, Lane.written ln l [w] = if k = l then f ln else ln) :
    b.WrittenBy [w] (b.modLanes (· == k) fun _ ln => f ln) where
  id := rfl
  size := b.lanes_modLanes_length _ _
  scratch := rfl
  slots := rfl
  cohorts := rfl
  lanes l hl := by
    rw [Block.lane_modLanes_in _ _ _ _ hl, hw]
    by_cases e : l = k
    · simp [e]
    · simp [e, Ne.symm e]
  groups := fun _ _ => ⟨rfl, rfl, rfl⟩
  sets := fun _ => rfl

/-- A write of one group's K or H registers. -/
theorem Block.modGroup_written (b : Block) (w : Wr) (k : Nat) (f : Group → Group) (hw : ∀ l ln, Lane.written ln l [w] = ln)
    (hk : w.namesGroup k = true) : b.WrittenBy [w] (b.modGroup k f) where
  id := rfl
  size := rfl
  scratch := rfl
  slots := rfl
  cohorts := rfl
  lanes l _ := (hw l _).symm
  groups g hg := by
    have ne : k ≠ g := by
      rintro rfl
      simp [hk] at hg
    have e : (b.modGroup k f).group g = b.group g := by
      simp [Block.group, Block.modGroup, List.getD_eq_getElem?_getD, ne]
    exact ⟨by rw [e], by rw [e], by rw [e]⟩
  sets := fun _ => rfl

/-- A write of an X register. -/
theorem Block.modSet_written (b : Block) (w : Wr) (n : Nat) (f : GSet → GSet) (hw : ∀ l ln, Lane.written ln l [w] = ln)
    (hx : w.namesX = true) : b.WrittenBy [w] (b.modSet n f) where
  id := rfl
  size := rfl
  scratch := rfl
  slots := rfl
  cohorts := rfl
  lanes l _ := (hw l _).symm
  groups := fun _ _ => ⟨rfl, rfl, rfl⟩
  sets h := by simp [hx] at h

/-- One write changes what it names. -/
theorem Block.apply_written (b : Block) (w : Wr) : b.WrittenBy [w] (b.apply w) := by
  cases w with
  | reg k c r => exact (b.modLane_written (.reg k c r) k (·.setReg c r) fun _ _ => rfl).append (Block.noteWrite_written _ _ _)
  | ycap k r => exact b.modLane_written (.ycap k r) k (·.capture r) fun _ _ => rfl
  | flags k f => exact b.modLane_written (.flags k f) k (fun ln => { ln with flags := ln.flags ||| f }) fun _ _ => rfl
  | pred k p v => exact b.modLane_written (.pred k p v) k (·.setPred p v) fun _ _ => rfl
  | rng k v => exact b.modLane_written (.rng k v) k (fun ln => { ln with rng := v }) fun _ _ => rfl
  | kreg g k v =>
    exact (b.modGroup_written (.kreg g k v) g _ (fun _ _ => rfl) (beq_self_eq_true g)).append (Block.noteWrite_written _ _ _)
  | xpos n x p v => exact (b.modSet_written (.xpos n x p v) n _ (fun _ _ => rfl) rfl).append (Block.noteSets_written _ _ _)
  | xtag n x t => exact b.modSet_written (.xtag n x t) n _ (fun _ _ => rfl) rfl
  | hreg g k v =>
    exact (b.modGroup_written (.hreg g k v) g _ (fun _ _ => rfl) (beq_self_eq_true g)).append (Block.noteWrite_written _ _ _)

/-- Some writes change what they name. -/
theorem Block.applyAll_written (b : Block) (ws : List Wr) : b.WrittenBy ws (b.applyAll ws) := by
  induction ws generalizing b with
  | nil => exact .nil b
  | cons w ws ih => exact (b.apply_written w).append (ih _)

/-- A V, Q or Y register reads as its lane holds it. -/
theorem Block.readCode_lane {b b' : Block} {l c : Nat} (hc : c < 202)
    (h : Sparse.get Reg.zero (b'.lane l).regs c = Sparse.get Reg.zero (b.lane l).regs c) : b'.readCode l c = b.readCode l c := by
  simp only [Block.readCode, if_pos hc, h]

/-- Settles O51: the event makes the writes that wait for none (`execFixedResultWrite_eq`), and they change what they name
(`Block.applyAll_written`, `Lane.written_regs`). -/
theorem resultWriteFrame : Obligations.ResultWriteFrame := by
  intro s t id f b hf hd hb run ws
  have keep : ∀ x : Block, (x.applyAll ws).id = x.id := fun x => (x.applyAll_written ws).id
  rw [execFixedResultWrite_eq hf hd] at run
  cases run
  have wr := b.applyAll_written ws
  refine ⟨⟨rfl, rfl, rfl, rfl, rfl, rfl, rfl, rfl, rfl, rfl, rfl⟩, fun k hk => State.block?_modBlock_other s f.blk k _ keep hk,
    b.applyAll ws, State.block?_modBlock hb _ keep, wr.scratch, wr.slots, wr.cohorts, wr.lanes, ?_, wr.groups, wr.sets⟩
  intro l hl wf
  obtain ⟨wf', get⟩ := (b.lane l).written_regs l ws wf
  rw [← wr.lanes l hl] at wf' get
  exact ⟨wf', fun c hc hn => Block.readCode_lane hc (get c hn)⟩

end Sys2Proof.Machine
end

section
/-! PROOFS. A step runs the instruction that the words at the PC decode to (R28, R104, R283, R344, R397). -/

namespace Sys2Proof.Machine

/-! ## Fetching -/

/-- A fetch whose words hold the whole instruction ends with it (R104). -/
theorem State.fetchTry_decoded {s u : State} {b : Block} {pc n : Nat} {last : List Byte} {ns : List Nat} {ps : List Place} {i : Instr}
    {w : Nat} (hf : s.Fetches b pc n u ps) (hd : decodeBytes (u.readPlaces ps) = .ok (i, w)) :
    s.fetchTry b pc last (n :: ns) = (u, .instr i (4 * w)) := by
  obtain ⟨s1, s2, hs, hl, rfl⟩ := hf.read
  rw [State.fetchTry, hs]
  dsimp only
  rw [hl]
  dsimp only
  rw [hd]

/-- A fetch whose words are too few reads further ones (R104). -/
theorem State.fetchTry_short {s u : State} {b : Block} {pc n : Nat} {last : List Byte} {ns : List Nat} {ps : List Place}
    (hf : s.Fetches b pc n u ps) (hd : decodeBytes (u.readPlaces ps) = .error .short) :
    s.fetchTry b pc last (n :: ns) = u.fetchTry b pc (u.readPlaces ps) ns := by
  obtain ⟨s1, s2, hs, hl, rfl⟩ := hf.read
  rw [State.fetchTry, hs]
  dsimp only
  rw [hl]
  dsimp only
  rw [hd]

/-- What has been fetched at the PC is not fetched again (R344). -/
theorem State.fetchOnce_kept {s : State} {b : Block} {k : Cohort} {i : Instr} {len : Nat} (h : k.fetched = some (k.pc, .instr i len)) :
    s.fetchOnce b k = (s, .instr i len) := by
  unfold State.fetchOnce
  rw [h, Option.filter_some, if_pos (beq_self_eq_true k.pc)]
  rfl

/-- What has been fetched elsewhere does not serve at the PC (R344). -/
theorem State.fetchOnce_new {s : State} {b : Block} {k : Cohort} (h : ∀ e, k.fetched = some e → e.1 ≠ k.pc) :
    s.fetchOnce b k = s.fetchTry b k.pc [] [8, 12, 16, 20, 24] := by
  have none_kept : k.fetched.filter (·.1 == k.pc) = none := by
    cases e : k.fetched with
    | none => rfl
    | some x => simp [h x e]
  unfold State.fetchOnce
  rw [none_kept]
  rfl

/-! ## Before an instruction is executed -/

/-- A run in which fewer than 24 instructions have issued in each lane may issue one more (R28). -/
theorem Block.run_not_full {b : Block} {ls : List Nat} (h : ∀ l ∈ ls, (b.lane l).run.count < 24) :
    (ls.any fun l => decide (24 ≤ (b.lane l).run.count)) = false :=
  List.any_eq_false.2 fun l hl => by simpa using h l hl

/-- A cohort for which no trap is due executes an instruction that names allocated registers, in a run that is not full. -/
theorem State.issueOf_runs {s s1 : State} {b : Block} {k : Cohort} {i : Instr} {len : Nat} (hf : s.fetchOnce b k = (s1, .instr i len))
    (hd : b.dueOf k = none) (hc : ∀ l ∈ k.lanes, (b.lane l).run.count < 24) (ho : overAlloc b.vregs i = false) :
    s.issueOf b k = .run i (b.cohCtx k len) (s1.keepFetched b k i len) := by
  have trapless : s1.decodeTrap b k (.instr i len) (Instr.scopeOf i) (overAlloc b.vregs i) = none := by
    have due : (b.keepCode k (.instr i len)).dueOf k = none := hd
    have full : (k.lanes.any fun l => decide (24 ≤ ((b.keepCode k (.instr i len)).lane l).run.count)) = false := Block.run_not_full hc
    rw [State.decodeTrap, due]
    dsimp only
    rw [full, ho]
    rfl
  unfold State.issueOf
  rw [hf]
  dsimp only
  rw [trapless]

/-- In a full run a cohort for which no other trap is due traps with RUN_LONG (R28). -/
theorem State.issueOf_runLong {s s1 : State} {b : Block} {k : Cohort} {i : Instr} {len : Nat}
    (hf : s.fetchOnce b k = (s1, .instr i len)) (hd : b.dueOf k = none) (hc : ∃ l ∈ k.lanes, 24 ≤ (b.lane l).run.count) :
    s.issueOf b k = .stop (.next (s1.trap (b.keepCode k (.instr i len)) ((b.keepCode k (.instr i len)).cohCtx k len) (Instr.scopeOf i)
      .runLong k.lanes)) := by
  have traps : s1.decodeTrap b k (.instr i len) (Instr.scopeOf i) (overAlloc b.vregs i) =
      some (s1.trap (b.keepCode k (.instr i len)) ((b.keepCode k (.instr i len)).cohCtx k len) (Instr.scopeOf i) .runLong k.lanes) := by
    have due : (b.keepCode k (.instr i len)).dueOf k = none := hd
    have full : (k.lanes.any fun l => decide (24 ≤ ((b.keepCode k (.instr i len)).lane l).run.count)) = true := by
      obtain ⟨l, hl, h⟩ := hc
      exact List.any_eq_true.2 ⟨l, hl, decide_eq_true h⟩
    rw [State.decodeTrap, due]
    dsimp only
    rw [full]
    rfl
  unfold State.issueOf
  rw [hf]
  dsimp only
  rw [traps]

/-! ## What a step turns to -/

/-- A cohort put to issue does what it stands at. -/
theorem step_cohort {s : State} {blk coh : Nat} {rest : List PortEnt} {b : Block} {k : Cohort} (hp : s.port = .cohort blk coh :: rest)
    (hb : s.block? blk = some b) (hk : b.cohorts.find? (·.id == coh) = some k) :
    step s = ({ s with port := rest } : State).stepCohort b k := by
  have hb2 : ({ s with port := rest } : State).block? blk = some b := hb
  unfold step
  rw [hp]
  dsimp only
  rw [hb2]
  dsimp only
  rw [hk]

/-- A cohort executes the instruction that it has to. -/
theorem State.stepCohort_run {s s1 : State} {b : Block} {k : Cohort} {i : Instr} {c : Ctx} (h : s.issueOf b k = .run i c s1) :
    s.stepCohort b k = exec i { s1 with cur := some c } := by
  rw [State.stepCohort, h]

/-- Its turn ends otherwise. -/
theorem State.stepCohort_stop {s : State} {b : Block} {k : Cohort} {o : Out} (h : s.issueOf b k = .stop o) : s.stepCohort b k = o := by
  rw [State.stepCohort, h]

/-- Settles O44: fetching by `State.fetchTry_decoded` and `State.fetchTry_short`, a cohort's turn by `State.issueOf_runs` and
`State.issueOf_runLong`, the rest by what a step turns to. -/
theorem stepRunsDecoded : Obligations.StepRunsDecoded := by
  intro s
  refine ⟨fun b pc n ns last u ps hf => ⟨fun i w hd => State.fetchTry_decoded hf hd, fun hd => State.fetchTry_short hf hd⟩,
    ?_, ?_, ?_, ?_, ?_, ?_⟩
  · intro blk coh rest b k i len s1 hf ht ho
    exact (step_cohort hf.port hf.blk hf.coh).trans
      (State.stepCohort_run (State.issueOf_runs ((State.fetchOnce_new hf.new).trans ht) hf.due hf.count ho))
  · intro blk coh rest b k i len hp hb hk hkept hd u
    have kept : u.fetchOnce b k = (u, .instr i len) := State.fetchOnce_kept hkept
    exact ⟨fun hc => (step_cohort hp hb hk).trans (State.stepCohort_stop (State.issueOf_runLong kept hd hc)),
      fun hc ho => (step_cohort hp hb hk).trans (State.stepCohort_run (State.issueOf_runs kept hd hc ho))⟩
  · intro blk n rest b r hp hb hr
    have hb2 : ({ s with port := rest } : State).block? blk = some b := hb
    unfold step
    rw [hp]
    dsimp only
    rw [hb2]
    dsimp only
    rw [hr]
  · intro d core part p blk cohs rest hp
    unfold step
    rw [hp]
    rfl
  · intro e rest hp ha
    unfold step
    rw [hp]
    dsimp only
    rw [ha]
  · intro t e hp ha ho
    unfold step
    rw [hp]
    dsimp only
    rw [ha]
    dsimp only
    rw [ho]

end Sys2Proof.Machine
end

section
/-! PROOFS. The state that reset leaves (R45, R96, R97, R193, R249, R346, R370, R389, R410, R445, R446). -/

namespace Sys2Proof.Machine

/-- At reset every byte of device memory reads zero, and none is poisoned. -/
theorem State.reset_readByte {a : Nat} (h : a < State.reset.capacity) : State.reset.readByte (.dev a) = 0 := by
  have clean : State.reset.badByte (.dev a) = false := rfl
  simp only [State.readByte, clean, Bool.false_or, decide_eq_false (Nat.not_le.2 h), Bool.false_eq_true, if_false]
  rfl

/-- At reset every device's registers hold their reset values and none is halted. -/
theorem State.reset_die (d : Nat) : (State.reset.die d).AtReset ∧ (State.reset.die d).halted = false := by
  refine State.die_of_forall (p := fun d => d.AtReset ∧ d.halted = false) (fun d hd => ?_) ⟨Die.AtReset.of_registers rfl, rfl⟩ d
  rw [List.eq_of_mem_replicate hd]
  exact ⟨Die.AtReset.of_registers rfl, rfl⟩

/-- Settles O37: memory by `State.reset_readByte`, the devices by `State.reset_die`, the rest as the state is written. -/
theorem resetStateValues : Obligations.ResetStateValues := by
  refine ⟨rfl, rfl, rfl, rfl, fun a ha => State.reset_readByte ha, rfl, rfl, rfl, rfl, rfl, rfl, fun e he => List.eq_of_mem_replicate he,
    fun g hg => ?_, fun d _ => State.reset_die d⟩
  rw [List.eq_of_mem_replicate hg]
  rfl

end Sys2Proof.Machine
end

section
/-! PROOFS. Bytes of memory written and read back (R56, R411). -/

namespace Sys2Proof.Machine

/-- What a place without a byte reads as depends on no memory. -/
theorem State.lostByte_congr {s t : State} (hf : t.free = s.free) (hn : t.nextId = s.nextId) (a : Nat) : t.lostByte a = s.lostByte a := by
  simp only [State.lostByte, hf, hn]

/-- A sound byte of device memory is the one memory holds. -/
theorem State.readByte_dev {s : State} {a : Nat} (h : s.Sound (.dev a)) : s.readByte (.dev a) = Memory.read s.dmem a := by
  have inside : ¬ s.capacity ≤ a := Nat.not_le.2 (h.inside a rfl)
  simp [State.readByte, h.clean, inside]

/-- So is a sound byte of host memory. -/
theorem State.readByte_host {s : State} {a : Nat} (h : s.Sound (.host a)) : s.readByte (.host a) = Memory.read s.hmem a := by
  simp [State.readByte, h.clean]

/-- So is a sound byte of a block's scratchpad. -/
theorem State.readByte_scr {s : State} {k o : Nat} {b : Block} (hb : s.block? k = some b) (h : s.Sound (.scr k o)) :
    s.readByte (.scr k o) = Sparse.get 0 b.scratch o := by
  simp [State.readByte, h.clean, hb]

/-- A place that is no byte of device memory reads the same whatever that memory holds. -/
theorem State.readByte_dmem (s : State) (m : List Host.Cell) {q : Place} (hq : ∀ a, q ≠ .dev a) :
    ({ s with dmem := m } : State).readByte q = s.readByte q := by
  cases q with
  | dev a => exact absurd rfl (hq a)
  | host a | scr k o | peer p d e g t o | err => rfl

theorem State.readByte_hmem (s : State) (m : List Host.Cell) {q : Place} (hq : ∀ a, q ≠ .host a) :
    ({ s with hmem := m } : State).readByte q = s.readByte q := by
  cases q with
  | host a => exact absurd rfl (hq a)
  | dev a | scr k o | peer p d e g t o | err => rfl

theorem State.Sound.dmem {s : State} {q : Place} (h : s.Sound q) (m : List Host.Cell) : ({ s with dmem := m } : State).Sound q :=
  ⟨(by cases q <;> exact h.clean), h.inside⟩

theorem State.Sound.hmem {s : State} {q : Place} (h : s.Sound q) (m : List Host.Cell) : ({ s with hmem := m } : State).Sound q :=
  ⟨(by cases q <;> exact h.clean), h.inside⟩

/-- A byte of device memory written is read back, and every other sound byte reads as before (R411). -/
theorem State.readByte_writeByte_dev {s : State} {q : Place} {a : Nat} (hm : Memory.wf s.dmem = true) (ha : a < s.capacity) (v : Byte)
    (hq : s.Sound q) : (s.writeByte (.dev a) v).readByte q = if q = .dev a then v else s.readByte q := by
  have e : s.writeByte (.dev a) v = { s with dmem := Memory.write s.dmem a v } := if_neg (Nat.not_le.2 ha)
  rw [e]
  cases q with
  | dev k => rw [State.readByte_dev (hq.dmem _), State.readByte_dev hq, Memory.read_write _ _ _ _ hm]; simp only [Place.dev.injEq]
  | host k | scr k o | peer p d e g t o | err => exact State.readByte_dmem s _ fun _ => nofun

/-- So is a byte of host memory that its I/O die can reach. -/
theorem State.readByte_writeByte_host {s : State} {q : Place} {a : Nat} (hm : Memory.wf s.hmem = true)
    (ha : s.hostLinks.getLsbD (bits a 12 12) = true) (v : Byte) (hq : s.Sound q) :
    (s.writeByte (.host a) v).readByte q = if q = .host a then v else s.readByte q := by
  have e : s.writeByte (.host a) v = { s with hmem := Memory.write s.hmem a v } := if_pos ha
  rw [e]
  cases q with
  | host k => rw [State.readByte_host (hq.hmem _), State.readByte_host hq, Memory.read_write _ _ _ _ hm]; simp only [Place.host.injEq]
  | dev k | scr k o | peer p d e g t o | err => exact State.readByte_hmem s _ fun _ => nofun

/-- A place outside scratchpad reads the same whatever the blocks hold. -/
theorem State.readByte_modBlock (s : State) (k : Nat) (f : Block → Block) {q : Place} (hq : ∀ j o, q ≠ .scr j o) :
    (s.modBlock k f).readByte q = s.readByte q := by
  cases q with
  | scr j o => exact absurd rfl (hq j o)
  | dev a | host a | peer p d e g t o | err => rfl

/-- Writing a byte of scratchpad changes its own block. -/
theorem State.block?_writeByte_scr {s : State} {blk : Nat} {b : Block} (hb : s.block? blk = some b) (o : Nat) (v : Byte) :
    (s.writeByte (.scr blk o) v).block? blk = some { b with scratch := Sparse.set 0 b.scratch o v } :=
  State.block?_modBlock hb _ fun _ => rfl

theorem State.block?_writeByte_scr_other (s : State) {blk k : Nat} (hk : k ≠ blk) (o : Nat) (v : Byte) :
    (s.writeByte (.scr blk o) v).block? k = s.block? k :=
  State.block?_modBlock_other s blk k _ (fun _ => rfl) hk

/-- A byte of scratchpad written is read back, and every other sound byte reads as before (R56). -/
theorem State.readByte_writeByte_scr {s : State} {q : Place} {blk : Nat} {b : Block} (hb : s.block? blk = some b)
    (hw : Sparse.wf 0 b.scratch = true) (o : Nat) (v : Byte) (hq : s.Sound q) :
    (s.writeByte (.scr blk o) v).readByte q = if q = .scr blk o then v else s.readByte q := by
  cases q with
  | dev k | host k | peer p d e g t j | err => exact State.readByte_modBlock s blk _ fun _ _ => nofun
  | scr k j =>
    by_cases hk : k = blk
    · subst hk
      have hb' := State.block?_writeByte_scr hb o v
      have hq' : (s.writeByte (.scr k o) v).Sound (.scr k j) :=
        ⟨by simpa [State.badByte, hb, hb'] using hq.clean, fun _ => nofun⟩
      rw [State.readByte_scr hb' hq', State.readByte_scr hb hq, Sparse.get_set _ _ _ _ _ hw]
      simp only [Place.scr.injEq, true_and]
    · have hb' := State.block?_writeByte_scr_other s hk o v
      simp only [State.readByte, State.badByte, hb', Place.scr.injEq, hk, false_and, if_false]
      rfl

/-- Settles O45: each space by the lemma on a byte written there, the canonical form by `State.writeByte_inv`. -/
theorem memoryReadsBack : Obligations.MemoryReadsBack := fun s v _ hs =>
  ⟨fun a ha => ⟨s.writeByte_inv (.dev a) v hs, State.readByte_writeByte_dev hs.1 ha v⟩,
    fun a ha => ⟨s.writeByte_inv (.host a) v hs, State.readByte_writeByte_host hs.2 ha v⟩,
    fun _ o _ hb hw => State.readByte_writeByte_scr hb hw o v⟩

end Sys2Proof.Machine
end

section
/-! PROOFS. Float arithmetic on NaN sources (R60, R73, R175). -/

namespace Sys2Proof.Machine

/-! ## Elements of a packed register -/

/-- An element of a packed number is the one packed at its place (R13). -/
theorem packNat_elem (w : Nat) (es : List Nat) (k : Nat) : packNat w es / 2 ^ (w * k) % 2 ^ w = es.getD k 0 % 2 ^ w := by
  have pos : 0 < 2 ^ w := Nat.two_pow_pos w
  induction es generalizing k with
  | nil => simp [packNat]
  | cons e es ih =>
    cases k with
    | zero => simp [packNat]
    | succ k =>
      have low : (e % 2 ^ w + 2 ^ w * packNat w es) / 2 ^ w = packNat w es := by
        rw [Nat.add_mul_div_left _ _ pos, Nat.div_eq_of_lt (Nat.mod_lt e pos), Nat.zero_add]
      rw [packNat, Nat.mul_succ, Nat.add_comm (w * k), Nat.pow_add, ← Nat.div_div_eq_div_mul, low, ih k, List.getD_cons_succ]

/-- Elements that fit a register fill at most its 64 bits. -/
theorem packNat_lt (w : Nat) (es : List Nat) : packNat w es < 2 ^ (w * es.length) := by
  induction es with
  | nil => simp [packNat]
  | cons e es ih =>
    have he : e % 2 ^ w < 2 ^ w := Nat.mod_lt e (Nat.two_pow_pos w)
    rw [packNat, List.length_cons, Nat.mul_succ, Nat.add_comm (w * _), Nat.pow_add]
    calc e % 2 ^ w + 2 ^ w * packNat w es < 2 ^ w * (packNat w es + 1) := by rw [Nat.mul_succ]; omega
      _ ≤ 2 ^ w * 2 ^ (w * es.length) := Nat.mul_le_mul_left _ ih

/-- An element of a register packed from elements that fit it. -/
theorem elem_packElems {w : Nat} {es : List Nat} (h : w * es.length ≤ 64) (k : Nat) :
    elem w (packElems w es) k = es.getD k 0 % 2 ^ w := by
  have fits : packNat w es < 2 ^ 64 := Nat.lt_of_lt_of_le (packNat_lt w es) (Nat.pow_le_pow_right Nat.two_pos h)
  rw [elem, packElems, BitVec.toNat_ofNat, Nat.mod_eq_of_lt fits, packNat_elem]

/-! ## NaN values -/

/-- The canonical NaN of the two formats of class 011 (R60). -/
def canonicalNan (f : Tag) : Nat := if f = .fp32 then 0x7FC00000 else 0x7FC0

/-- A NaN is delivered as the canonical one, without a flag (R60). -/
theorem outFloat_nan {f : Tag} (hf : f = .fp32 ∨ f = .bf16) (rm : RM) : outFloat f rm .nan = (canonicalNan f, 0) := by
  rcases hf with rfl | rfl <;> rfl

theorem canonicalNan_lt {f : Tag} (hf : f = .fp32 ∨ f = .bf16) : canonicalNan f < 2 ^ f.width := by
  rcases hf with rfl | rfl <;> decide

theorem Val.isNan_iff {v : Val} : v.isNan = true ↔ v = .nan := by cases v <;> simp [Val.isNan]

/-- Flushing a subnormal makes no NaN (R174). -/
theorem inFloat_isNan (f : Tag) (x : Nat) : (inFloat f x).isNan = true ↔ (FF.ofTag f).value x = .nan := by
  unfold inFloat
  split
  · rename_i e
    rw [e]
    split <;> simp [Val.isNan]
  · exact Val.isNan_iff

@[simp] theorem Val.nan_add (rm : RM) (v : Val) : Val.nan.add rm v = .nan := rfl
@[simp] theorem Val.add_nan (rm : RM) (v : Val) : v.add rm .nan = .nan := by cases v <;> rfl
@[simp] theorem Val.nan_mul (v : Val) : Val.nan.mul v = .nan := rfl
@[simp] theorem Val.mul_nan (v : Val) : v.mul .nan = .nan := by cases v <;> rfl
@[simp] theorem Val.negate_nan : Val.nan.negate = .nan := rfl

/-- A NaN among the sources makes no operation invalid (R73). -/
theorem invalidFlag_nan {vs : List Val} (h : vs.any Val.isNan = true) (v : Val) : invalidFlag vs v = 0 := by simp [invalidFlag, h]

/-! ## Results of the elementwise float instructions -/

/-- What a lane's sources deliver in sub-element k. -/
def srcVals (f : Tag) (b : Block) (l : Nat) (xs : List Opd) (k : Nat) : List Val :=
  xs.map fun x => inFloat f (elem f.width (b.read l (.as f) x).bits k)

/-- An operation on some number of values that keeps a NaN among them. -/
def KeepsNan (n : Nat) (op : List Val → Val) : Prop := ∀ vs : List Val, vs.length = n → vs.any Val.isNan = true → op vs = .nan

theorem srcVals_isNan {f : Tag} {b : Block} {l k : Nat} {xs : List Opd} :
    (srcVals f b l xs k).any Val.isNan = true ↔ ∃ x ∈ xs, (FF.ofTag f).value (elem f.width (b.read l (.as f) x).bits k) = .nan := by
  simp [srcVals, inFloat_isNan]

/-- What one sub-element delivers: its bits and flags. -/
def fltElem (f : Tag) (rm : RM) (op : List Val → Val) (vs : List Val) : Deliv :=
  ((outFloat f rm (op vs)).1, (outFloat f rm (op vs)).2 ||| invalidFlag vs (op vs))

theorem fltRes_eq (f : Tag) (rm : RM) (xs : List Opd) (op : List Val → Val) (b : Block) (l : Nat) :
    fltRes f rm xs op b l = delivered f f ((List.range f.count).map fun k => fltElem f rm op (srcVals f b l xs k)) := rfl

theorem fltRes_outs (f : Tag) (rm : RM) (xs : List Opd) (op : List Val → Val) (b : Block) (l : Nat) :
    (fltRes f rm xs op b l).outs =
      [⟨packElems f.width ((List.range f.count).map fun k => (fltElem f rm op (srcVals f b l xs k)).1), f⟩] := by
  rw [fltRes_eq, delivered, List.map_map]
  rfl

/-- A sub-element with a NaN source is the canonical NaN and sets no flag (R60, R73, R175). -/
theorem fltElem_nan {f : Tag} (hf : f = .fp32 ∨ f = .bf16) (rm : RM) {op : List Val → Val} {vs : List Val} (hop : KeepsNan vs.length op)
    (hn : vs.any Val.isNan = true) : fltElem f rm op vs = (canonicalNan f, 0) := by
  simp [fltElem, hop vs rfl hn, outFloat_nan hf, invalidFlag_nan hn]

/-- The flags of a lane, NaN sub-elements left out, are those of all its sub-elements. -/
theorem orFlags_fltElem {f : Tag} (hf : f = .fp32 ∨ f = .bf16) (rm : RM) {op : List Val → Val} {n : Nat} (hop : KeepsNan n op)
    (vals : Nat → List Val) (hl : ∀ k, (vals k).length = n) (ks : List Nat) :
    orFlags (ks.map fun k => fltElem f rm op (vals k)) =
      ks.foldl (fun fl k => if (vals k).any Val.isNan then fl else
        fl ||| ((outFloat f rm (op (vals k))).2 ||| invalidFlag (vals k) (op (vals k)))) 0 := by
  rw [orFlags, List.foldl_map]
  congr 1
  funext fl k
  split
  next hn => rw [fltElem_nan hf rm (hl k ▸ hop) hn]; exact BitVec.or_zero
  next => rfl

/-- What the statement says of an instruction's results: an operation that keeps a NaN delivers so. -/
theorem flt_gives {f : Tag} (hf : f = .fp32 ∨ f = .bf16) {s : State} {b : Block} {c : Ctx} {h : Head} (hi : Issuing s b c h) (i : Instr)
    (rm : RM) {d : Opd} {xs : List Opd} {op : List Val → Val} (hop : KeepsNan xs.length op)
    (hc : Clear s b h (b.work c h) (xs.map fun x => ⟨x, .fmt f⟩) d 1 7 []) :
    ∃ res : Nat → LaneRes,
      s.flt i h f rm d xs op = .next (s.issueFixed b c h (b.work c h) d 7 6 ((b.work c h).src.map fun l => (l, res l))) ∧
      ∀ l, ∃ v, (res l).outs = [⟨v, f⟩] ∧
        (∀ k, k < f.count → (∃ x ∈ xs, (FF.ofTag f).value (elem f.width (b.read l (.as f) x).bits k) = .nan) →
          elem f.width v k = canonicalNan f) ∧
        (res l).flags = (List.range f.count).foldl (fun fl k =>
          if (srcVals f b l xs k).any Val.isNan then fl else
            fl ||| ((outFloat f rm (op (srcVals f b l xs k))).2 ||| invalidFlag (srcVals f b l xs k) (op (srcVals f b l xs k)))) 0 := by
  have len (l k : Nat) : (srcVals f b l xs k).length = xs.length := List.length_map _
  have fits : f.width * f.count ≤ 64 := Nat.mul_div_le 64 f.width
  refine ⟨fun l => fltRes f rm xs op b l, State.alu_eq hi hc, fun l => ⟨_, fltRes_outs .., fun k hk hn => ?_,
    orFlags_fltElem hf rm hop _ (len l) _⟩⟩
  have elt := fltElem_nan hf rm (len l k ▸ hop) (srcVals_isNan.2 hn)
  rw [elem_packElems (by simpa using fits)]
  simp [hk, elt, Nat.mod_eq_of_lt (canonicalNan_lt hf)]

/-! ## The four operations -/

theorem keepsNan_add (rm : RM) : KeepsNan 2 fun vs => (vs.getD 0 .nan).add rm (vs.getD 1 .nan) := by
  intro vs hl hn
  obtain ⟨x, y, rfl⟩ := List.length_eq_two.1 hl
  rcases by simpa [Val.isNan_iff] using hn with rfl | rfl <;> simp

theorem keepsNan_sub (rm : RM) : KeepsNan 2 fun vs => (vs.getD 0 .nan).add rm (vs.getD 1 .nan).negate := by
  intro vs hl hn
  obtain ⟨x, y, rfl⟩ := List.length_eq_two.1 hl
  rcases by simpa [Val.isNan_iff] using hn with rfl | rfl <;> simp

theorem keepsNan_mul : KeepsNan 2 fun vs => (vs.getD 0 .nan).mul (vs.getD 1 .nan) := by
  intro vs hl hn
  obtain ⟨x, y, rfl⟩ := List.length_eq_two.1 hl
  rcases by simpa [Val.isNan_iff] using hn with rfl | rfl <;> simp

theorem keepsNan_ffma (rm : RM) : KeepsNan 3 fun vs => ((vs.getD 0 .nan).mul (vs.getD 1 .nan)).add rm (vs.getD 2 .nan) := by
  intro vs hl hn
  obtain ⟨x, y, z, rfl⟩ := List.length_eq_three.1 hl
  rcases by simpa [Val.isNan_iff] using hn with rfl | rfl | rfl <;> simp

/-- Settles O53: each instruction is the elementwise one of an operation that keeps a NaN. -/
theorem nanSourcesGiveCanonicalNan : Obligations.NanSourcesGiveCanonicalNan := by
  intro h f rm o o4 s b c hf hi
  exact ⟨fun hc => ⟨flt_gives hf hi (.fadd h f rm o) rm (keepsNan_add rm) hc, flt_gives hf hi (.fsub h f rm o) rm (keepsNan_sub rm) hc,
    flt_gives hf hi (.fmul h f rm o) rm keepsNan_mul hc⟩, fun hc => flt_gives hf hi (.ffma h f rm o4) rm (keepsNan_ffma rm) hc⟩

end Sys2Proof.Machine
end

section
/-! PROOFS. Rounding a value that the format holds (R58, R59, R65 to R67). -/

namespace Sys2Proof.Machine

/-! ## The fields of an encoding -/

/-- The exponent field of an encoding (R58). -/
def FF.expo (f : FF) (x : Nat) : Nat := x / 2 ^ f.fw % 2 ^ f.ew

/-- The fraction field. -/
def FF.frac (f : FF) (x : Nat) : Nat := x % 2 ^ f.fw

theorem FF.frac_lt (f : FF) (x : Nat) : f.frac x < 2 ^ f.fw := Nat.mod_lt x (Nat.two_pow_pos _)

theorem FF.expo_lt (f : FF) (x : Nat) : f.expo x < 2 ^ f.ew := Nat.mod_lt _ (Nat.two_pow_pos _)

/-- An encoding is its sign, exponent and fraction. -/
theorem FF.fields_eq (f : FF) {x : Nat} (hx : x < 2 ^ f.width) :
    f.signBit (x.testBit (f.ew + f.fw)) + (f.expo x * 2 ^ f.fw + f.frac x) = x := by
  have low : f.expo x * 2 ^ f.fw + f.frac x = x % 2 ^ (f.ew + f.fw) := by
    rw [Nat.add_comm f.ew, Nat.pow_add, Nat.mod_mul, Nat.add_comm, Nat.mul_comm]; rfl
  have top : f.signBit (x.testBit (f.ew + f.fw)) = 2 ^ (f.ew + f.fw) * (x / 2 ^ (f.ew + f.fw)) := by
    have hw : f.width = (f.ew + f.fw) + 1 := by rw [FF.width]; omega
    have hd : x / 2 ^ (f.ew + f.fw) < 2 := Nat.div_lt_of_lt_mul (by rwa [hw, Nat.pow_succ] at hx)
    rw [FF.signBit, Nat.testBit_eq_decide_div_mod_eq, Nat.mod_eq_of_lt hd]
    rcases Nat.lt_succ_iff_lt_or_eq.1 hd with h0 | h1
    · simp [Nat.lt_one_iff.1 h0]
    · simp [h1]
  rw [low, top, Nat.div_add_mod]

/-- Below the top exponent every magnitude is at most the largest (R58). -/
theorem FF.mag_le_of_expo {f : FF} {x : Nat} (h : f.expo x + 2 ≤ 2 ^ f.ew) : f.expo x * 2 ^ f.fw + f.frac x ≤ f.maxBits := by
  have hB : 0 < 2 ^ f.fw := Nat.two_pow_pos _
  have hf := f.frac_lt x
  have step : (f.expo x + 2) * 2 ^ f.fw ≤ 2 ^ f.ew * 2 ^ f.fw := Nat.mul_le_mul_right _ h
  rw [Nat.add_mul] at step
  cases ht : f.top <;> simp only [FF.maxBits, ht, Nat.pow_add, Nat.sub_mul] <;> omega

/-- So it is at the top exponent of a format without infinities, but for the NaN of E4M3 (R59). -/
theorem FF.mag_le_of_top {f : FF} {x : Nat} (hi : f.top ≠ .ieee) (hn : f.top = .e4m3 → f.expo x = 2 ^ f.ew - 1 → f.frac x ≠ 2 ^ f.fw - 1) :
    f.expo x * 2 ^ f.fw + f.frac x ≤ f.maxBits := by
  by_cases h : f.expo x + 2 ≤ 2 ^ f.ew
  · exact FF.mag_le_of_expo h
  have hf := f.frac_lt x
  have he := f.expo_lt x
  have top : f.expo x = 2 ^ f.ew - 1 := by omega
  have step : (f.expo x + 1) * 2 ^ f.fw = 2 ^ f.ew * 2 ^ f.fw := by rw [top, Nat.sub_add_cancel (Nat.two_pow_pos _)]
  rw [Nat.add_mul] at step
  cases ht : f.top with
  | ieee => exact absurd ht hi
  | e4m3 => have := hn ht top; simp only [FF.maxBits, ht, Nat.pow_add]; omega
  | finite => simp only [FF.maxBits, ht, Nat.pow_add]; omega

/-- What a finite encoding denotes: a subnormal, or a number with a hidden one; its magnitude is at most the largest (R58, R59). -/
theorem FF.value_fin {f : FF} (hw : 0 < f.ew) {x m : Nat} {n : Bool} {e : Int} (h : f.value x = .fin n m e) :
    n = x.testBit (f.ew + f.fw) ∧
      ((f.expo x = 0 ∧ m = f.frac x ∧ e = f.emin) ∨
        (0 < f.expo x ∧ m = 2 ^ f.fw + f.frac x ∧ e = f.emin + f.expo x - 1)) ∧
      f.expo x * 2 ^ f.fw + f.frac x ≤ f.maxBits := by
  have two : 2 ≤ 2 ^ f.ew := Nat.le_self_pow (by omega) 2
  have he := f.expo_lt x
  change (if f.expo x = 0 then _ else _) = _ at h
  split at h
  next h0 =>
    obtain ⟨rfl, rfl, rfl⟩ := Val.fin.inj h
    exact ⟨rfl, .inl ⟨h0, rfl, rfl⟩, FF.mag_le_of_expo (by omega)⟩
  next h0 =>
    split at h
    next => split at h <;> cases h
    next ieee =>
      change (if (f.expo x = 2 ^ f.ew - 1 && _ && f.frac x = 2 ^ f.fw - 1) = true then _ else _) = _ at h
      split at h
      next => cases h
      next nan =>
        obtain ⟨rfl, rfl, rfl⟩ := Val.fin.inj h
        refine ⟨rfl, .inr ⟨Nat.pos_of_ne_zero h0, rfl, rfl⟩, ?_⟩
        by_cases ht : f.top = .ieee
        · have : f.expo x ≠ 2 ^ f.ew - 1 := by simpa [FF.expo, ht] using ieee
          exact FF.mag_le_of_expo (by omega)
        · exact FF.mag_le_of_top ht fun h4 htop hfr => nan (by simp [h4, htop, hfr])

/-! ## Delivery -/

/-- A magnitude whose unit is the grid's is on the grid: it stays as it is in every mode (R65 to R67). -/
theorem FF.roundMag_onGrid {f : FF} {m draw : Nat} {e : Int} (h : max ((Nat.log2 m : Int) + e - f.fw) f.emin = e) (rm : RM) (neg : Bool)
    (hd : draw < 2 ^ 16) : f.roundMag rm neg m e draw = ⟨(e - f.emin).toNat * 2 ^ f.fw + m, false⟩ := by
  have stays : stepsAway rm neg m 0 1 draw = false := by
    cases rm <;> simp [stepsAway]; omega
  simp [FF.roundMag, h, stays]

/-- A nonzero magnitude on the grid and no larger than the largest is delivered as it is, without a flag. -/
theorem FF.deliver_onGrid {f : FF} {m draw : Nat} {e : Int} (h : max ((Nat.log2 m : Int) + e - f.fw) f.emin = e) (hm : m ≠ 0)
    (hle : (e - f.emin).toNat * 2 ^ f.fw + m ≤ f.maxBits) (rm : RM) (sat neg : Bool) (hd : draw < 2 ^ 16) :
    f.deliver rm sat draw (.fin neg m e) = (f.signBit neg + ((e - f.emin).toNat * 2 ^ f.fw + m), 0) := by
  simp [FF.deliver, hm, FF.roundMag_onGrid h rm neg hd, Nat.not_lt.2 hle]

/-- Every finite encoding's value is delivered as its fields (R58, R66). -/
theorem FF.deliver_value {f : FF} (hw : 0 < f.ew) {draw x : Nat} (hd : draw < 2 ^ 16) (rm : RM) (sat : Bool) {n : Bool} {m : Nat} {e : Int}
    (h : f.value x = .fin n m e) : f.deliver rm sat draw (.fin n m e) = (f.signBit n + (f.expo x * 2 ^ f.fw + f.frac x), 0) := by
  obtain ⟨-, ⟨h0, rfl, rfl⟩ | ⟨hpos, rfl, rfl⟩, hle⟩ := FF.value_fin hw h
  · by_cases hm : f.frac x = 0
    · simp [FF.deliver, hm, h0]
    · have hl : Nat.log2 (f.frac x) < f.fw := (Nat.log2_lt hm).2 (f.frac_lt x)
      have grid : max ((Nat.log2 (f.frac x) : Int) + f.emin - f.fw) f.emin = f.emin := by omega
      rw [FF.deliver_onGrid grid hm (by simpa [h0] using hle) rm sat n hd]
      simp [h0]
  · have hf := f.frac_lt x
    have hm : 2 ^ f.fw + f.frac x ≠ 0 := by omega
    have hl : Nat.log2 (2 ^ f.fw + f.frac x) = f.fw := (Nat.log2_eq_iff hm).2 ⟨by omega, by rw [Nat.pow_succ]; omega⟩
    have grid : max ((Nat.log2 (2 ^ f.fw + f.frac x) : Int) + (f.emin + f.expo x - 1) - f.fw) f.emin = f.emin + f.expo x - 1 := by
      rw [hl]; omega
    have unit : (f.emin + f.expo x - 1 - f.emin).toNat = f.expo x - 1 := by omega
    have mag : (f.expo x - 1) * 2 ^ f.fw + (2 ^ f.fw + f.frac x) = f.expo x * 2 ^ f.fw + f.frac x := by
      rw [← Nat.add_assoc, ← Nat.succ_mul, Nat.succ_eq_add_one, Nat.sub_add_cancel hpos]
    rw [FF.deliver_onGrid grid hm (by rwa [unit, mag]) rm sat n hd, unit, mag]

/-- Settles O54: what `FF.deliver_value` delivers is the encoding again by `FF.fields_eq`. -/
theorem representableValuesDeliverExactly : Obligations.RepresentableValuesDeliverExactly := by
  intro f hf rm sat draw x hd hx ⟨n, m, e, h⟩
  have wide : ∀ g ∈ [FF.fp32, FF.bf16, FF.fp16, FF.e4m3, FF.e5m2, FF.e3m2, FF.e2m3], 0 < g.ew := by decide
  have hw : 0 < f.ew := wide f hf
  obtain ⟨rfl, -⟩ := FF.value_fin hw h
  rw [h, FF.deliver_value hw hd rm sat h, FF.fields_eq f hx]

end Sys2Proof.Machine
end

section
/-! PROOFS. Every step keeps both memories in canonical form (R56, R411). Bytes are written by `State.writeByte` alone, which keeps the
form, and a cold start leaves device memory empty; every other update of a record leaves both memories as they are
(`State.Inv.of_same`). What a function of the model gives therefore meets the invariant when what it calls does: one lemma for each
function that gives a state, in the model's order, down to `step`. This section: outcomes, folds, and the operations of memory.
The proofs of these sections are elaborated one after another, to hold the number of Lean's threads down. -/

namespace Sys2Proof.Machine

set_option Elab.async false

/-- The next state of an outcome, if there is one, meets the invariant. -/
def KeepsInv : Out → Prop
  | .next s => s.Inv
  | _ => True

/-- The state that a read or write of an engine leaves meets the invariant. -/
def EngRes.Inv {α : Type} : EngRes α → Prop
  | .ok s _ | .wait s | .fault s _ _ _ => s.Inv

/-- So does the state that a lane's command leaves, where it is done. -/
def EngStep.Inv : EngStep → Prop
  | .done s _ => s.Inv
  | .wait => True

/-- And what a cohort has come to. -/
def Issued.Inv : Issued → Prop
  | .run _ _ s => s.Inv
  | .stop o => KeepsInv o

theorem KeepsInv.next {s : State} (hs : s.Inv) : KeepsInv (.next s) := hs

theorem KeepsInv.ite {p : Prop} [Decidable p] {x y : Out} (hx : KeepsInv x) (hy : KeepsInv y) : KeepsInv (if p then x else y) :=
  iteInduction (motive := KeepsInv) (fun _ => hx) fun _ => hy

theorem State.Inv.ite {p : Prop} [Decidable p] {x y : State} (hx : x.Inv) (hy : y.Inv) : (if p then x else y).Inv :=
  iteInduction (motive := State.Inv) (fun _ => hx) fun _ => hy

/-- Going through a list keeps the invariant where each entry does. -/
theorem State.Inv.foldl {α : Type} {f : State → α → State} {s : State} (hs : s.Inv) (hf : ∀ s a, s.Inv → (f s a).Inv) (l : List α) :
    (l.foldl f s).Inv :=
  List.foldlRecOn (motive := State.Inv) l f hs fun s h a _ => hf s a h

/-- The same of a fold that carries a further value beside the state. -/
theorem State.Inv.foldl_fst {α β : Type} {f : State × β → α → State × β} {s : State} {x : β} (hs : s.Inv)
    (hf : ∀ p a, p.1.Inv → (f p a).1.Inv) (l : List α) : (l.foldl f (s, x)).1.Inv :=
  List.foldlRecOn (motive := fun p => p.1.Inv) l f hs fun p h a _ => hf p a h

/-- A continuation that keeps the invariant is gone on with where the state meets it. -/
theorem EngRes.Inv.bind {α β : Type} {r : EngRes α} {f : State → α → EngRes β} (hr : r.Inv) (hf : ∀ s x, s.Inv → (f s x).Inv) :
    (r.bind f).Inv := by
  cases r with
  | ok s x => exact hf s x hr
  | wait s => exact hr
  | fault s d va k => exact hr

theorem EngRes.Inv.ite {α : Type} {p : Prop} [Decidable p] {x y : EngRes α} (hx : x.Inv) (hy : y.Inv) : (if p then x else y).Inv :=
  iteInduction (motive := EngRes.Inv) (fun _ => hx) fun _ => hy

theorem EngRes.Inv.closes {α : Type} {r : EngRes α} (hr : r.Inv) : r.closes.1.Inv := by
  cases r <;> exact hr

/-- An outcome of an engine leaves a state that meets the invariant, and its value, where it has one, meets `Q`. -/
def EngRes.Ends {α : Type} (Q : α → Prop) : EngRes α → Prop
  | .ok s x => s.Inv ∧ Q x
  | .wait s | .fault s _ _ _ => s.Inv

theorem EngRes.Inv.bindEnds {α β : Type} {Q : β → Prop} {r : EngRes α} {f : State → α → EngRes β} (hr : r.Inv)
    (hf : ∀ s x, s.Inv → (f s x).Ends Q) : (r.bind f).Ends Q := by
  cases r with
  | ok s x => exact hf s x hr
  | wait s => exact hr
  | fault s d va k => exact hr

theorem EngRes.Ends.bind {α β : Type} {P : α → Prop} {Q : β → Prop} {r : EngRes α} {f : State → α → EngRes β} (hr : r.Ends P)
    (hf : ∀ s x, s.Inv → P x → (f s x).Ends Q) : (r.bind f).Ends Q := by
  cases r with
  | ok s x => exact hf s x hr.1 hr.2
  | wait s => exact hr
  | fault s d va k => exact hr

theorem EngRes.Ends.ite {α : Type} {Q : α → Prop} {p : Prop} [Decidable p] {x y : EngRes α} (hx : x.Ends Q) (hy : y.Ends Q) :
    (if p then x else y).Ends Q :=
  iteInduction (motive := EngRes.Ends Q) (fun _ => hx) fun _ => hy

theorem engEach_inv {α : Type} {f : State → Nat → EngRes α} (hf : ∀ s k, s.Inv → (f s k).Inv) {s : State} (hs : s.Inv) (ks : List Nat) :
    (engEach f s ks).Inv := by
  induction ks generalizing s with
  | nil => exact hs
  | cons k ks ih => exact (hf s k hs).bind fun _ _ h => (ih h).bind fun _ _ h => h

theorem engRun_inv {f : State → Nat → EngStep} (hf : ∀ s l, s.Inv → (f s l).Inv) {s : State} (hs : s.Inv) (ls : List Nat)
    (done : List (Nat × Nat)) : (engRun f s ls done).1.Inv := by
  fun_induction engRun <;> grind [EngStep.Inv]

variable {s : State} (hs : s.Inv)
include hs

/-! ## Memory (R56) -/

theorem State.setBlock_inv {b : Block} : (s.setBlock b).Inv := hs.of_same rfl rfl

theorem State.modBlock_inv {id : Nat} {f : Block → Block} : (s.modBlock id f).Inv := hs.of_same rfl rfl

theorem State.modDie_inv {d : Nat} {f : Die → Die} : (s.modDie d f).Inv := hs.of_same rfl rfl

theorem State.fresh_inv : s.fresh.2.Inv := hs.of_same rfl rfl

theorem State.freeVal_inv : s.freeVal.2.Inv := hs.of_same rfl rfl

theorem State.setPoison_inv {p : Place} {on : Bool} : (s.setPoison p on).Inv := by
  fun_cases State.setPoison <;> exact hs.of_same rfl rfl

theorem State.storeRaw_inv {pv : List (Place × Byte)} : (s.storeRaw pv).Inv :=
  State.Inv.foldl (State.writeBytes_inv s pv hs) (fun _ _ h => State.setPoison_inv h) _

theorem State.compareLine_inv {core : Option Nat} {host : Bool} {old : List Byte} {line : Nat} {written : List Nat} :
    (s.compareLine core host old line written).Inv := by
  unfold State.compareLine
  grind [State.Inv, State.modDie_inv]

theorem State.markStale_inv {granules : List Nat} : (s.markStale granules).Inv := hs.of_same rfl rfl

theorem State.markDirty_inv {pv : List (Place × Byte)} : (s.markDirty pv).Inv := by
  unfold State.markDirty
  grind [State.modBlock_inv, State.Inv.foldl]

theorem State.notePublish_inv {blk : Nat} : (s.notePublish blk).Inv := by
  fun_cases State.notePublish <;> exact hs.of_same rfl rfl

theorem State.publish_inv {p : Unpub → Bool} : (s.publish p).Inv := hs.of_same rfl rfl

theorem State.publishLines_inv {ls : List (Bool × Nat)} : (s.publishLines ls).Inv := hs.of_same rfl rfl

theorem State.releaseAt_inv {core scope : Nat} : (s.releaseAt core scope).Inv := hs.of_same rfl rfl

theorem State.acquireAt_inv {core : Nat} : (s.acquireAt core).Inv := hs.of_same rfl rfl

theorem State.weakRead_inv {core : Nat} {ps : List Place} : (s.weakRead core ps).1.Inv := by
  unfold State.weakRead
  grind [State.freeVal_inv, State.publish_inv]

theorem State.armMonitors_inv : s.armMonitors.Inv := hs.of_same rfl rfl

theorem State.storeBy_inv {core : Option Nat} {pv : List (Place × Byte)} : (s.storeBy core pv).Inv := by
  have device := (State.storeRaw_inv hs (pv := pv)).foldl (f := fun t e => t.compareLine core false (s.lineBytes false e.1) e.1 e.2)
    (fun _ _ h => State.compareLine_inv h) (devLines pv)
  have lines := device.foldl (f := fun t e => t.compareLine core true (s.lineBytes true e.1) e.1 e.2)
    (fun _ _ h => State.compareLine_inv h) (sideLines true pv)
  exact State.armMonitors_inv (State.Inv.foldl (State.publishLines_inv (State.markDirty_inv (State.markStale_inv lines)))
    (fun _ _ h => State.notePublish_inv h) _)

theorem State.storeBytes_inv {pv : List (Place × Byte)} : (s.storeBytes pv).Inv := State.storeBy_inv hs

theorem State.storeScr_inv {blk o n v : Nat} : (s.storeScr blk o n v).Inv := State.storeBytes_inv hs

theorem State.share_inv {host : Bool} {line core : Nat} {facet sfmt : Nat} {push : Bool} :
    (s.share host line core facet sfmt push).Inv :=
  hs.of_same rfl rfl

theorem State.logError_inv {d kind pos : Nat} {addr detail : Word} : (s.logError d kind pos addr detail).Inv := hs.of_same rfl rfl

theorem State.logOwn_inv {d kind : Nat} {addr detail : Word} : (s.logOwn d kind addr detail).Inv := hs.of_same rfl rfl

theorem State.want_inv {ls : List Nat} : (s.want ls).Inv := hs.of_same rfl rfl

theorem State.leafOf_inv {v va : Nat} : (s.leafOf v va).1.Inv := by
  fun_cases State.leafOf <;> exact hs.of_same rfl rfl

theorem State.translate_inv {v va : Nat} {need : Need} {side : Side} : (s.translate v va need side).1.Inv := by
  fun_cases State.translate <;> grind [State.Inv, State.leafOf_inv]

theorem State.spotsFrom_inv {v : Nat} {need : Need} {side : Side} {fuel va n : Nat} :
    (s.spotsFrom v need side fuel va n).1.Inv := by
  fun_induction State.spotsFrom <;> grind [State.translate_inv]

theorem State.spots_inv {v va n : Nat} {need : Need} {side : Side} : (s.spots v va n need side).1.Inv := State.spotsFrom_inv hs

theorem State.post_inv {view va : Nat} {bs : List Byte} {logged : Bool} : (s.post view va bs logged).Inv := hs.of_same rfl rfl

theorem State.mirror_inv {d i : Nat} : (s.mirror d i).Inv := by
  fun_cases State.mirror <;> exact hs.of_same rfl rfl

theorem State.setFaultRec_inv {d i : Nat} {r : FaultRec} : (s.setFaultRec d i r).Inv := State.mirror_inv (State.modDie_inv hs)

theorem State.signalFault_inv {d : Nat} : (s.signalFault d).Inv := hs.of_same rfl rfl

theorem State.joinFault_inv {d va kind w : Nat} : (s.joinFault d va kind w).1.Inv := by
  fun_cases State.joinFault <;> grind [State.Inv, State.setFaultRec_inv, State.signalFault_inv]

theorem State.recordFault_inv {d va kind : Nat} : (s.recordFault d va kind).1.Inv := State.joinFault_inv hs

end Sys2Proof.Machine
end

section
/-! PROOFS. Every step keeps both memories in canonical form (R56, R411): what instructions share at issue, and control instructions. -/

namespace Sys2Proof.Machine

set_option Elab.async false

variable {s : State} (hs : s.Inv)
include hs

/-! ## Operations that instructions share -/

theorem State.holdIssue_inv {c : Ctx} : (s.holdIssue c).Inv := hs.of_same rfl rfl

theorem State.pass_inv {b : Block} {c : Ctx} {h : Head} : (s.pass b c h).Inv := hs.of_same rfl rfl

theorem State.issueFixed_inv {b : Block} {c : Ctx} {h : Head} {w : Work} {d : Opd} {pd lat : Nat} {rs : List (Nat × LaneRes)} :
    (s.issueFixed b c h w d pd lat rs).Inv :=
  hs.of_same rfl rfl

theorem State.issueLong_inv {b : Block} {c : Ctx} {h : Head} {w : Work} {d : Opd} {n tag : Nat} {body : LongBody} {ready : Bool}
    {wrs : List Wr} : (s.issueLong b c h w d n tag body ready wrs).Inv :=
  hs.of_same rfl rfl

theorem State.finishOp_inv {blk : Nat} {id : Nat} : (s.finishOp blk id).Inv := hs.of_same rfl rfl

theorem State.settleExit_inv {blk : Nat} : (s.settleExit blk).Inv := by
  fun_cases State.settleExit <;> exact hs.of_same rfl rfl

theorem State.endRun_inv {b : Block} {c : Ctx} {await : BitVec 8} {next : Nat → Nat} {hold : Nat → Hold} :
    (s.endRun b c await next hold).Inv :=
  (State.settleExit_inv (State.setBlock_inv hs)).of_same rfl rfl

theorem State.haltDevice_inv {d : Nat} : (s.haltDevice d).Inv := hs.of_same rfl rfl

theorem State.showPoison_inv {b : Block} {ids : List Nat} {ls : List Nat} : (s.showPoison b ids ls).1.Inv := hs.of_same rfl rfl

theorem State.enterTrap_inv {blk g : Nat} : (s.enterTrap blk g).Inv := by
  fun_cases State.enterTrap <;>
    grind [State.haltDevice_inv, State.logOwn_inv, State.spots_inv, State.showPoison_inv, State.storeBytes_inv,
      State.fresh_inv, State.setBlock_inv]

theorem State.raiseHome_inv {b : Block} {c : Ctx} {sc : Scope} {t : Trap} {fail : List Nat} {x : TrapArgs} {pc2 : Nat} :
    (s.raiseHome b c sc t fail x pc2).Inv := by
  fun_cases State.raiseHome <;>
    grind [State.Inv, State.fresh_inv, State.setBlock_inv, State.enterTrap_inv, State.haltDevice_inv, State.logOwn_inv]

theorem State.splitHomes_inv {b : Block} {c : Ctx} : (s.splitHomes b c).1.Inv := hs.of_same rfl rfl

theorem State.openDetail_inv {t : Trap} {detail : Word} : (s.openDetail t detail).1.Inv := by
  fun_cases State.openDetail <;> grind [State.freeVal_inv]

theorem State.raise_inv {b : Block} {c : Ctx} {sc : Scope} {t : Trap} {fail : List Nat} {x : Nat → TrapArgs} {pc2 : Nat} :
    (s.raise b c sc t fail x pc2).Inv := by
  fun_cases State.raise <;>
    grind [State.Inv, State.openDetail_inv, State.raiseHome_inv, State.splitHomes_inv, State.setBlock_inv, State.Inv.foldl]

theorem State.trap_inv {b : Block} {c : Ctx} {sc : Scope} {t : Trap} {fail : List Nat} : (s.trap b c sc t fail).Inv :=
  State.raise_inv hs

theorem State.releaseDeferred_inv {f : Frame} : (s.releaseDeferred f).Inv := by
  unfold State.releaseDeferred
  grind [State.Inv, State.modBlock_inv, State.Inv.foldl]

theorem State.returnTrap_inv {b : Block} {g : Nat} {f : Frame} {img : List Byte} {skipLen skipStall : Nat} {skipTerm : Bool} :
    (s.returnTrap b g f img skipLen skipStall skipTerm).Inv := by
  unfold State.returnTrap
  grind [State.Inv, State.fresh_inv, State.settleExit_inv, State.releaseDeferred_inv, State.setBlock_inv]

theorem State.arriveHome_inv {b : Block} {c : Ctx} {i : Instr} {sc : Scope} : (s.arriveHome b c i sc).Inv := by
  fun_cases State.arriveHome <;> grind [State.Inv, State.fresh_inv, State.setBlock_inv, State.holdIssue_inv, State.raise_inv]

theorem State.arrive_inv {b : Block} {c : Ctx} {i : Instr} {sc : Scope} : (s.arrive b c i sc).Inv := by
  unfold State.arrive
  grind [State.splitHomes_inv, State.arriveHome_inv, State.setBlock_inv, State.Inv.foldl]

theorem State.issue_inv {i : Instr} {h : Head} {k : Block → Ctx → Out} (hk : ∀ b c, KeepsInv (k b c)) :
    KeepsInv (s.issue i h k) := by
  fun_cases State.issue <;> grind [State.arrive_inv, State.holdIssue_inv, KeepsInv]

theorem State.gatedBy_inv {b : Block} {c : Ctx} {i : Instr} {h : Head} {g : Gate} {sps : List SrcSpec} {k : Out} (hk : KeepsInv k) :
    KeepsInv (s.gatedBy b c i h g sps k) := by
  fun_cases State.gatedBy <;> grind [State.holdIssue_inv, State.trap_inv, State.raise_inv, KeepsInv]

theorem State.gated_inv {b : Block} {c : Ctx} {i : Instr} {h : Head} {src recv : List Nat} {sps : List SrcSpec}
    {writes preds : List Nat} {k : Out} (hk : KeepsInv k) : KeepsInv (s.gated b c i h src recv sps writes preds k) :=
  State.gatedBy_inv hs hk

theorem State.onGate_inv {b : Block} {c : Ctx} {h : Head} {g : Gate} {k : Out} (hk : KeepsInv k) : KeepsInv (s.onGate b c h g k) := by
  fun_cases State.onGate <;> grind [State.holdIssue_inv, State.trap_inv, KeepsInv]

theorem State.alu_inv {i : Instr} {h : Head} {sps : List SrcSpec} {preds : List Nat} {d : Opd} {n pd lat : Nat}
    {f : Block → Work → Nat → LaneRes} : KeepsInv (s.alu i h sps preds d n pd lat f) :=
  State.issue_inv hs fun _ _ => .ite (State.pass_inv hs) (State.gated_inv hs (State.issueFixed_inv hs))

/-! ## Control -/

theorem State.late_inv {b : Block} {c : Ctx} {h : Head} {tst : Bool} {k : Out} (hk : KeepsInv k) : KeepsInv (s.late b c h tst k) := by
  fun_cases State.late <;> grind [State.raise_inv, KeepsInv]

theorem State.terminate_inv {i : Instr} {h : Head} {await : BitVec 8} {next : Ctx → Nat} {hold : Hold} :
    KeepsInv (s.terminate i h await next hold) :=
  State.issue_inv hs fun _ _ => State.gated_inv hs (State.late_inv hs (State.endRun_inv hs))

theorem execBrc_inv {h : Head} {off : BitVec 24} {await : BitVec 8} {cneg : Bool} {cpred : BitVec 3} :
    KeepsInv (execBrc h off await cneg cpred s) :=
  State.issue_inv hs fun _ _ => State.gated_inv hs (State.late_inv hs (State.endRun_inv hs))

theorem State.transfer_inv {i : Instr} {h : Head} {a : Opd} {await : BitVec 8} : KeepsInv (s.transfer i h a await) := by
  refine State.issue_inv hs fun b c => State.gated_inv hs ?_
  dsimp only
  split
  · exact State.late_inv hs (State.endRun_inv hs)
  · exact State.raise_inv hs

theorem execCall_inv {h : Head} {off : BitVec 24} {await : BitVec 8} {link : Fin 192} : KeepsInv (execCall h off await link s) := by
  refine State.issue_inv hs fun b c => State.gated_inv hs (State.late_inv hs ?_)
  extract_lets s1
  have ended : s1.Inv := State.endRun_inv hs
  exact ended.of_same rfl rfl

theorem execBar_inv {h : Head} {await : BitVec 8} : KeepsInv (execBar h await s) :=
  State.issue_inv hs fun _ _ => State.gated_inv hs (.ite (State.holdIssue_inv hs) (State.late_inv hs (State.endRun_inv hs)))

theorem execWaitc_inv {h : Head} {ctr : Ctr} {thresh : BitVec 6} {await : BitVec 8} : KeepsInv (execWaitc h ctr thresh await s) :=
  State.issue_inv hs fun _ _ => State.gated_inv hs (State.late_inv hs (State.endRun_inv hs))

theorem execRegroup_inv {h : Head} {a : Opd} {await : BitVec 8} : KeepsInv (execRegroup h a await s) :=
  State.issue_inv hs fun _ _ => State.gated_inv hs (State.late_inv hs (State.endRun_inv hs))

theorem execChkpt_inv {h : Head} {off : BitVec 24} {await : BitVec 8} : KeepsInv (execChkpt h off await s) :=
  State.issue_inv hs fun _ _ => State.gated_inv hs (.ite (State.raise_inv hs) (State.late_inv hs (State.endRun_inv hs)))

theorem execSetd_inv {h : Head} {setno : BitVec 2} {diss : Bool} {a : Opd} : KeepsInv (execSetd h setno diss a s) := by
  refine State.issue_inv hs fun b c => .ite (State.pass_inv hs) (State.gated_inv hs (.ite ?_ ?_))
  · split
    · exact State.trap_inv hs
    · exact .ite (State.holdIssue_inv hs) (State.pass_inv hs)
  · exact .ite (State.pass_inv hs) (State.trap_inv hs)

theorem execNop_inv {h : Head} : KeepsInv (execNop h s) :=
  State.issue_inv hs fun _ _ => .ite (State.pass_inv hs) (State.gated_inv hs (State.pass_inv hs))

end Sys2Proof.Machine
end

section
/-! PROOFS. Every step keeps both memories in canonical form (R56, R411): integer, floating point, pointer, memory, conversion and cross-lane instructions. -/

namespace Sys2Proof.Machine

set_option Elab.async false

variable {s : State} (hs : s.Inv)
include hs

/-! ## Integer instructions -/

theorem State.int2_inv {i : Instr} {h : Head} {t : Tag} {sat : Bool} {o : O3} {lat : Nat} {op : Int → Int → Int} :
    KeepsInv (s.int2 i h t sat o lat op) := by
  unfold State.int2
  exact State.alu_inv hs

theorem State.int1_inv {i : Instr} {h : Head} {t : Tag} {o : O2} {op : Nat → Nat × Flags} : KeepsInv (s.int1 i h t o op) := by
  unfold State.int1
  exact State.alu_inv hs

theorem State.pat2_inv {i : Instr} {h : Head} {t : Tag} {o : O3} {lat : Nat} {op : Nat → Nat → Nat × Flags} :
    KeepsInv (s.pat2 i h t o lat op) := by
  unfold State.pat2
  exact State.alu_inv hs

theorem execImadw_inv {h : Head} {f : Tag} {hi sat : Bool} {o : O4} : KeepsInv (execImadw h f hi sat o s) := by
  unfold execImadw
  exact State.alu_inv hs

theorem execMovk_inv {h : Head} {o : O3} : KeepsInv (execMovk h o s) := by
  unfold execMovk
  exact State.issue_inv hs fun _ _ => .ite (State.pass_inv hs) (State.gatedBy_inv hs (State.issueFixed_inv hs))

theorem execSrd_inv {h : Head} {r : SReg} {clr : Bool} {d : Opd} : KeepsInv (execSrd h r clr d s) := by
  unfold execSrd
  exact State.issue_inv hs fun _ _ => .ite (State.pass_inv hs) (State.gated_inv hs (State.issueFixed_inv hs))

theorem State.logic_inv {i : Instr} {h : Head} {o : O3} {op : Word → Word → Word} : KeepsInv (s.logic i h o op) := by
  unfold State.logic
  exact State.alu_inv hs

theorem execIdot4_inv {h : Head} {f : Tag} {sat : Bool} {o : O4} : KeepsInv (execIdot4 h f sat o s) := by
  unfold execIdot4
  exact State.alu_inv hs

/-! ## Floating point -/

theorem State.flt_inv {i : Instr} {h : Head} {t : Tag} {rm : RM} {d : Opd} {srcs : List Opd} {op : List Val → Val} :
    KeepsInv (s.flt i h t rm d srcs op) := by
  unfold State.flt
  exact State.alu_inv hs

theorem State.fltSel_inv {i : Instr} {h : Head} {t : Tag} {o : O3} {larger : Bool} : KeepsInv (s.fltSel i h t o larger) := by
  unfold State.fltSel
  exact State.alu_inv hs

theorem State.fltBits_inv {i : Instr} {h : Head} {t tag : Tag} {o : O2} {op : Nat → Nat} : KeepsInv (s.fltBits i h t tag o op) := by
  unfold State.fltBits
  exact State.alu_inv hs

theorem State.tagged_inv {i : Instr} {h : Head} {sps : List SrcSpec} {d : Opd} {n tag : Nat} {f : Block → Work → Nat → LaneRes} :
    KeepsInv (s.tagged i h sps d n tag f) := by
  unfold State.tagged
  exact State.issue_inv hs fun _ _ => .ite (State.pass_inv hs) (State.gated_inv hs (.ite (State.holdIssue_inv hs) (State.issueLong_inv hs)))

theorem State.special1_inv {i : Instr} {h : Head} {t : Tag} {rm : RM} {tag : BitVec 3} {o : O2} {fn : SpecialFn} :
    KeepsInv (s.special1 i h t rm tag o fn) := by
  unfold State.special1
  exact State.tagged_inv hs

/-! ## Pointers -/

theorem State.keepImport_inv {v n : Nat} : (s.keepImport v n).Inv := by
  fun_cases State.keepImport <;> exact hs.of_same rfl rfl

theorem State.checked_inv {b : Block} {c : Ctx} {h : Head} {l : List (Nat × Option Bad)} {k : Out} (hk : KeepsInv k) :
    KeepsInv (s.checked b c h l k) := by
  fun_cases State.checked <;> grind [State.holdIssue_inv, State.want_inv, State.raise_inv, KeepsInv]

/-! ## Loads, stores and pointer actions at issue -/

theorem State.keepImports_inv {b : Block} {ps : List (BitVec 128)} : (s.keepImports b ps).Inv :=
  hs.foldl (fun _ _ h => State.keepImport_inv h) _

theorem State.memIssue_inv {i : Instr} {h : Head} {m : MemOp} {d : Opd} {tag : Nat} {ptr off data : Opd} {dsps : List SrcSpec}
    {ctr : Ctr} : KeepsInv (s.memIssue i h m d tag ptr off data dsps ctr) := by
  refine State.issue_inv hs fun b c => ?_
  grind [State.Inv, KeepsInv, State.pass_inv, State.gated_inv, State.checked_inv, State.holdIssue_inv, State.keepImports_inv,
    State.issueLong_inv]

theorem execWaitm_inv {h : Head} {rel : WRel} {dword : Bool} {ptr cmp : Opd} {await : BitVec 8} :
    KeepsInv (execWaitm h rel dword ptr cmp await s) := by
  refine State.issue_inv hs fun b c => ?_
  grind [State.Inv, KeepsInv, State.gated_inv, State.checked_inv, State.late_inv, State.holdIssue_inv, State.keepImports_inv,
    State.endRun_inv]

theorem State.aluChk_inv {i : Instr} {h : Head} {sps : List SrcSpec} {d : Opd} {n lat : Nat} {bad : Block → Nat → Option Bad}
    {f : Block → Nat → LaneRes} : KeepsInv (s.aluChk i h sps d n lat bad f) := by
  unfold State.aluChk
  exact State.issue_inv hs fun _ _ => .ite (State.pass_inv hs) (State.gated_inv hs (State.checked_inv hs (State.issueFixed_inv hs)))

theorem State.respan_inv {i : Instr} {h : Head} {widen : Bool} {ns : BitVec 3} {nc : BitVec 2} {o : O2} :
    KeepsInv (s.respan i h widen ns nc o) := by
  refine State.issue_inv hs fun b c => ?_
  grind [State.Inv, KeepsInv, State.pass_inv, State.gated_inv, State.checked_inv, State.holdIssue_inv, State.keepImports_inv,
    State.issueFixed_inv]

theorem State.register_inv {i : Instr} {h : Head} {kind : ActKind} {a o n : Opd} : KeepsInv (s.register i h kind a o n) := by
  refine State.issue_inv hs fun b c => ?_
  grind [State.Inv, KeepsInv, State.pass_inv, State.gated_inv, State.checked_inv, State.holdIssue_inv, State.keepImports_inv]

/-! ## Conversions -/

theorem State.convert_inv {i : Instr} {h : Head} {rm : RM} {part : Nat} {d a b c : Opd} {ac bc cc : SrcSpec} {al cl : LitAs}
    {sw ns dw nd : Nat} {tag : Tag} {f : Nat → Nat → Nat → Deliv} :
    KeepsInv (s.convert i h rm part d a b c ac bc cc al cl sw ns dw nd tag f) := by
  unfold State.convert
  exact State.alu_inv hs

theorem execAmax_inv {h : Head} {sf : Tag} {span : Span} {o : O2} : KeepsInv (execAmax h sf span o s) := by
  unfold execAmax
  exact State.issue_inv hs fun _ _ => .ite (State.pass_inv hs) (State.gated_inv hs (State.issueFixed_inv hs))

/-! ## Cross-lane instructions -/

theorem State.cross_inv {i : Instr} {h : Head} {sps : List SrcSpec} {d : Opd} {pd lat : Nat}
    {reads : Block → Nat → List (Nat × Opd)} {f : Block → (Nat → Bool) → Nat → LaneRes} :
    KeepsInv (s.cross i h sps d pd lat reads f) := by
  unfold State.cross
  exact State.issue_inv hs fun _ _ => .ite (State.pass_inv hs) (State.gated_inv hs (State.onGate_inv hs (State.issueFixed_inv hs)))

theorem execShuf_inv {h : Head} {f : Option Tag} {w : Width} {var : ShufVar} {pd : BitVec 3} {o : O3} :
    KeepsInv (execShuf h f w var pd o s) := by
  unfold execShuf
  exact State.cross_inv hs

theorem execSlide_inv {h : Head} {f : Option Tag} {w : Width} {o : O4} : KeepsInv (execSlide h f w o s) := by
  unfold execSlide
  exact State.cross_inv hs

theorem execBcast_inv {h : Head} {f : Option Tag} {w : Width} {o : O3} : KeepsInv (execBcast h f w o s) := by
  unfold execBcast
  exact State.cross_inv hs

theorem execPerm_inv {h : Head} {f : Option Tag} {w : Width} {o : O4} : KeepsInv (execPerm h f w o s) := by
  unfold execPerm
  exact State.cross_inv hs

theorem State.crossLong_inv {i : Instr} {h : Head} {a d : Opd} {chk : Chk} {tag : Nat} {f : Block → Ctx → Nat → LaneRes} :
    KeepsInv (s.crossLong i h a d chk tag f) := by
  unfold State.crossLong
  exact State.issue_inv hs fun _ _ => .ite (State.pass_inv hs) (State.gated_inv hs (.ite (State.holdIssue_inv hs) (State.issueLong_inv hs)))

theorem execRedux_inv {h : Head} {f : Option Tag} {w : Width} {op : RedOp} {pt : BitVec 3} {o : O2} :
    KeepsInv (execRedux h f w op pt o s) :=
  .ite (State.cross_inv hs) (State.crossLong_inv hs)

theorem execScan_inv {h : Head} {f : Option Tag} {w : Width} {op : RedOp} {excl : Bool} {pt : BitVec 3} {o : O2} :
    KeepsInv (execScan h f w op excl pt o s) :=
  .ite (State.cross_inv hs) (State.crossLong_inv hs)

end Sys2Proof.Machine
end

section
/-! PROOFS. Every step keeps both memories in canonical form (R56, R411): tiles, engines at issue, messages and fault records. -/

namespace Sys2Proof.Machine

set_option Elab.async false

variable {s : State} (hs : s.Inv)
include hs

/-! ## Tiles -/

theorem State.onceIssue_inv {i : Instr} {h : Head} {absent : Bool} {sps : List SrcSpec} {d : Opd} {n : Nat}
    {k : Block → Ctx → Work → Out} (hk : ∀ b c w, KeepsInv (k b c w)) : KeepsInv (s.onceIssue i h absent sps d n k) := by
  unfold State.onceIssue
  grind [State.issue_inv, State.pass_inv, State.trap_inv, State.gated_inv, KeepsInv]

theorem State.setStore_inv {k : Nat} {t : TileStore} : (s.setStore k t).Inv := hs.of_same rfl rfl

theorem State.claimOp_inv {b : Block} {k : Nat} : ∀ a t b1, s.claimOp b k = some (a, t, b1) → t.Inv := by
  fun_cases State.claimOp <;> grind [State.setStore_inv]

theorem State.claimC_inv {b : Block} : ∀ a t b1, s.claimC b = some (a, t, b1) → t.Inv := by
  fun_cases State.claimC <;> grind [State.setStore_inv]

theorem execTclaim_inv {h : Head} {kind : ClaimKind} {d count : Opd} : KeepsInv (execTclaim h kind d count s) := by
  refine State.onceIssue_inv hs fun b c w => .ite (State.trap_inv hs) (.ite (State.holdIssue_inv hs) (State.issueFixed_inv ?_))
  cases kind <;> dsimp only <;> split <;> grind [State.claimOp_inv, State.claimC_inv]

theorem State.tileIssue_inv {b : Block} {c : Ctx} {h : Head} {w : Work} {kind : TileKind} {ptr : BitVec 128} {off : Nat}
    {r : SlotRef} : (s.tileIssue b c h w kind ptr off r).Inv := by
  unfold State.tileIssue
  grind [State.Inv, State.keepImports_inv, State.pass_inv]

theorem State.slotGone_inv {b : Block} {loc : Nat} : (s.slotGone b loc).Inv := hs.of_same rfl rfl

theorem execTrel_inv {h : Head} {slot : Opd} : KeepsInv (execTrel h slot s) := by
  unfold execTrel
  grind [State.Inv, State.onceIssue_inv, State.trap_inv, State.holdIssue_inv, State.slotGone_inv, State.tileIssue_inv, KeepsInv]

theorem State.transferIssue_inv {i : Instr} {h : Head} {absent : Bool} {hr : Fin 16} {ptr off slot : Opd}
    {kind : BitVec 512 → TileKind} {bad : Block → Work → BitVec 512 → Nat → Nat → BitVec 128 → Option Bad} {want : SlotWant} :
    KeepsInv (s.transferIssue i h absent hr ptr off slot kind bad want) := by
  unfold State.transferIssue
  grind [State.onceIssue_inv, State.holdIssue_inv, State.checked_inv, State.trap_inv, State.tileIssue_inv, KeepsInv]

theorem execTld_inv {h : Head} {f : EFmt} {hr : Fin 16} {ptr off slot : Opd} : KeepsInv (execTld h f hr ptr off slot s) := by
  unfold execTld
  exact State.transferIssue_inv hs

theorem execTzero_inv {h : Head} {slot : Opd} : KeepsInv (execTzero h slot s) := by
  unfold execTzero
  grind [State.onceIssue_inv, State.trap_inv, State.holdIssue_inv, State.tileIssue_inv, KeepsInv]

theorem execTflag_inv {h : Head} {d slot : Opd} : KeepsInv (execTflag h d slot s) := by
  unfold execTflag
  grind [State.onceIssue_inv, State.trap_inv, State.holdIssue_inv, State.issueFixed_inv, KeepsInv]

theorem execTwin_inv {h : Head} {hr : Fin 16} {slot : Opd} : KeepsInv (execTwin h hr slot s) := by
  unfold execTwin
  grind [State.onceIssue_inv, State.holdIssue_inv, State.trap_inv, State.tileIssue_inv, KeepsInv]

theorem State.enterQuarters_inv {b : Block} {c : Ctx} {h : Head} {f : EFmt} {ty tx : Nat} {bh bound : Bool}
    {es : List (Nat × (SlotRef × SlotRef × SlotRef) × Nat)} {gs : List Nat} :
    KeepsInv (s.enterQuarters b c h f ty tx bh bound es gs) := by
  fun_cases State.enterQuarters <;> grind [State.Inv, State.holdIssue_inv, State.pass_inv, KeepsInv]

theorem execMmq_inv {h : Head} {f : EFmt} {ty tx : BitVec 2} {bh : Bool} {x y z : Opd} : KeepsInv (execMmq h f ty tx bh x y z s) := by
  unfold execMmq
  grind [State.issue_inv, State.pass_inv, State.trap_inv, State.gated_inv, State.checked_inv, State.enterQuarters_inv, KeepsInv]

theorem execMms_inv {h : Head} {f : EFmt} {ty tx : BitVec 2} {bh : Bool} {x y z : Opd} : KeepsInv (execMms h f ty tx bh x y z s) := by
  unfold execMms
  grind [State.issue_inv, State.pass_inv, State.trap_inv, State.gatedBy_inv, State.checked_inv, State.enterQuarters_inv,
    KeepsInv]

theorem execHset_inv {h : Head} {hr : Fin 16} {fld value : Opd} : KeepsInv (execHset h hr fld value s) := by
  unfold execHset
  grind [State.Inv, State.onceIssue_inv, State.trap_inv, State.holdIssue_inv, State.pass_inv, KeepsInv]

theorem State.onceLong_inv {b : Block} {c : Ctx} {h : Head} {w : Work} {d : Opd} {tag : Nat} {body : LongBody} {v : Option Word} :
    KeepsInv (s.onceLong b c h w d tag body v) := by
  fun_cases State.onceLong <;> grind [State.holdIssue_inv, State.issueLong_inv, KeepsInv]

theorem execHget_inv {h : Head} {hr : Fin 16} {tag : BitVec 3} {d fld : Opd} : KeepsInv (execHget h hr tag d fld s) := by
  unfold execHget
  grind [State.onceIssue_inv, State.trap_inv, State.holdIssue_inv, State.onceLong_inv, KeepsInv]

/-! ## Engines at issue -/

theorem State.setPub_inv {p : Pub} : (s.setPub p).Inv := hs.of_same rfl rfl

theorem State.clearPub_inv {c : Ctx} : (s.clearPub c).Inv := hs.of_same rfl rfl

theorem State.waitFault_inv {c : Ctx} {va kind : Nat} : (s.waitFault c va kind).Inv := by
  fun_cases State.waitFault <;> grind [State.Inv, State.recordFault_inv, State.modBlock_inv]

theorem State.engine_inv {i : Instr} {h : Head} {sps : List SrcSpec} {d : Opd} {n : Nat} {ctr : Block → Work → Option Ctr}
    {bad : Block → Nat → Option Bad} {held : Block → Work → Bool} {f : Block → Work → Option Nat → State → Nat → EngStep}
    {fin : State → Block → Ctx → Work → Option Nat → List (Nat × Nat) → State}
    (hf : ∀ b w op s l, s.Inv → (f b w op s l).Inv) (hfin : ∀ s b c w op done, s.Inv → (fin s b c w op done).Inv) :
    KeepsInv (s.engine i h sps d n ctr bad held f fin) := by
  unfold State.engine
  grind [State.Inv, State.issue_inv, State.pass_inv, engRun_inv, State.clearPub_inv, State.holdIssue_inv, State.setPub_inv,
    State.gated_inv, State.checked_inv, State.setBlock_inv, KeepsInv]

theorem engPass_inv {h : Head} {b : Block} {c : Ctx} {w : Work} {op : Option Nat} {done : List (Nat × Nat)} :
    (engPass h s b c w op done).Inv := by
  fun_cases engPass <;> grind [State.finishOp_inv, State.pass_inv]

theorem State.settleCopyOp_inv {blk : Nat} {op : Option Nat} : (s.settleCopyOp blk op).Inv := by
  fun_cases State.settleCopyOp <;> exact hs.of_same rfl rfl

theorem State.copyIssue_inv {i : Instr} {h : Head} {conv : Bool} {d ptr off words : Opd} :
    KeepsInv (s.copyIssue i h conv d ptr off words) := by
  unfold State.copyIssue
  refine State.engine_inv hs (fun b w op s l h => ?_) fun s b c w op done h => State.settleCopyOp_inv (State.issueFixed_inv h)
  grind [State.Inv, EngStep.Inv, State.keepImports_inv, State.setBlock_inv, State.armMonitors_inv]

theorem State.engLong_inv {i : Instr} {h : Head} {absent : Bool} {sps : List SrcSpec} {d : Opd} {tag : Nat}
    {bad : Block → Nat → Option Bad} {held : Block → Work → Bool} {body : Block → Work → LongBody} :
    KeepsInv (s.engLong i h absent sps d tag bad held body) := by
  unfold State.engLong
  grind [State.issue_inv, State.pass_inv, State.trap_inv, State.gated_inv, State.checked_inv, State.holdIssue_inv,
    State.issueLong_inv, KeepsInv]

theorem execBin_inv {h : Head} {op : BinOp} {ptr key item : Opd} : KeepsInv (execBin h op ptr key item s) := by
  unfold execBin
  exact State.issue_inv hs fun b c => .ite (State.pass_inv hs) (.ite (State.trap_inv hs) (State.gated_inv hs (State.checked_inv hs
    (.ite (State.holdIssue_inv hs) (hs.of_same rfl rfl)))))

theorem State.appendIssue_inv {i : Instr} {h : Head} {sps : List SrcSpec} {bad : Block → Work → Nat → Option Bad}
    {kind : Block → Nat → AppendKind} : KeepsInv (s.appendIssue i h sps bad kind) := by
  unfold State.appendIssue
  grind [State.Inv, State.issue_inv, State.pass_inv, State.gated_inv, State.checked_inv, State.holdIssue_inv, KeepsInv]

theorem execSendl_inv {h : Head} {ptr src words : Opd} : KeepsInv (execSendl h ptr src words s) := by
  unfold execSendl
  exact State.appendIssue_inv hs

theorem State.refuseEntry_inv {b : Block} {ctl : Word} {seq : Nat} : (s.refuseEntry b ctl seq).Inv := by
  fun_cases State.refuseEntry <;> grind [State.logOwn_inv, State.storeScr_inv]

theorem State.settleChannel_inv {d core ch : Nat} : (s.settleChannel d core ch).Inv := by
  unfold State.settleChannel
  grind [State.Inv, State.Inv.foldl]

theorem State.releaseCopy_inv {c : Copy} : (s.releaseCopy c).Inv := by
  fun_cases State.releaseCopy <;> grind [State.Inv, State.want_inv, State.refuseEntry_inv, State.settleChannel_inv]

theorem State.noteReady_inv : s.noteReady.Inv := hs.of_same rfl rfl

theorem State.releaseHandle_inv {d hd : Nat} : (s.releaseHandle d hd).Inv := by
  fun_cases State.releaseHandle <;> grind [State.Inv, State.releaseCopy_inv, State.noteReady_inv, State.Inv.foldl]

theorem State.postPatch_inv {l : Launch} {v : Nat} : (s.postPatch l v).Inv := by
  fun_cases State.postPatch <;> exact hs.of_same rfl rfl

theorem State.patchHandle_inv {d hd v : Nat} : (s.patchHandle d hd v).Inv := by
  fun_cases State.patchHandle <;> grind [State.Inv, State.postPatch_inv, State.Inv.foldl]

theorem execRelease_inv {h : Head} {handle : Opd} : KeepsInv (execRelease h handle s) := by
  unfold execRelease
  refine State.engine_inv hs ?_ ?_
  · intro b w op s l hs
    exact State.releaseHandle_inv (State.releaseAt_inv hs)
  · intro s b c w op done hs
    exact engPass_inv hs

/-! ## Messages -/

theorem State.modPeer_inv {p : Nat} {f : Peer → Peer} : (s.modPeer p f).Inv := hs.of_same rfl rfl

theorem State.sendMsg_inv {d dest ddie type tenant expidx egen : Nat} {off : Word} {body : List Byte} :
    (s.sendMsg d dest ddie type tenant expidx egen off body).1.Inv := by
  fun_cases State.sendMsg <;> exact hs.of_same rfl rfl

theorem State.ask_inv {m : Msg} {serves : ReqFor} {keep : Bool} : (s.ask m serves keep).Inv := hs.of_same rfl rfl

theorem State.answer_inv {m : Msg} {type : Nat} {body : List Byte} {poison : Bool} : (s.answer m type body poison).Inv :=
  State.sendMsg_inv hs

theorem State.noteSeq_inv {m : Msg} : (s.noteSeq m).Inv := hs.of_same rfl rfl

theorem State.measure_inv {t : Nat} : (s.measure t).Inv := hs.of_same rfl rfl

theorem State.timeSync_inv {pod pkg : List Nat} : (s.timeSync pod pkg).Inv := by
  fun_cases State.timeSync <;> grind [State.Inv, State.freeVal_inv, State.sendMsg_inv]

theorem State.deferMsg_inv {m : Msg} {why : Nat} : (s.deferMsg m why).Inv := hs.of_same rfl rfl

theorem State.discardMsg_inv {d : Nat} {m : Msg} : (s.discardMsg d m).Inv := hs.of_same rfl rfl

theorem State.receive_inv {m : Msg} {type : Nat} {k : State → Out} (hk : ∀ s, s.Inv → KeepsInv (k s)) :
    KeepsInv (s.receive m type k) := by
  fun_cases State.receive <;> grind [State.Inv, State.discardMsg_inv, State.noteSeq_inv, KeepsInv]

/-! ## Fault records -/

theorem State.fillLog_inv : s.fillLog.Inv := by
  unfold State.fillLog
  grind [State.Inv, State.Inv.foldl]

theorem State.engFault_inv {who d va kind : Nat} : (s.engFault who d va kind).1.Inv := State.recordFault_inv hs

theorem State.makeRefused_inv {blk g : Nat} {r : Refused} : (s.makeRefused blk g r).Inv := hs.of_same rfl rfl

theorem State.engineRefused_inv {who d blk g ord pc frec : Nat} : (s.engineRefused who d blk g ord pc frec).Inv :=
  hs.of_same rfl rfl

theorem State.mapWaits_inv {f : Option Nat → Option Nat} : (s.mapWaits f).Inv := hs.of_same rfl rfl

theorem State.wakeWaiters_inv {r : Nat} : (s.wakeWaiters r).Inv := hs.of_same rfl rfl

theorem State.recordLate_inv {d : Nat} : (s.recordLate d).Inv := by
  unfold State.recordLate
  grind [State.Inv, State.joinFault_inv, State.mapWaits_inv, State.Inv.foldl]

theorem State.freeRec_inv {d i : Nat} : (s.freeRec d i).Inv := State.setFaultRec_inv hs

theorem State.serviceRec_inv {d i : Nat} : (s.serviceRec d i).Inv := by
  unfold State.serviceRec
  grind [State.recordLate_inv, State.wakeWaiters_inv, State.freeRec_inv]

theorem State.refuseAccess_inv {r : Nat} {a : Access} : (s.refuseAccess r a).Inv := by
  fun_cases State.refuseAccess <;> grind [State.Inv, State.logOwn_inv, State.makeRefused_inv, State.Inv.foldl]

theorem State.refuseCohort_inv {r : Nat} {blk : Nat} {k : Cohort} : (s.refuseCohort r blk k).Inv := by
  fun_cases State.refuseCohort <;> grind [State.raise_inv]

theorem State.refuseHld_inv {r : Nat} {o : LongOp} : (s.refuseHld r o).Inv := by
  unfold State.refuseHld
  grind [State.Inv, State.makeRefused_inv, State.Inv.foldl]

theorem State.settleAppend_inv {blk op : Nat} : (s.settleAppend blk op).Inv := by
  fun_cases State.settleAppend <;> exact hs.of_same rfl rfl

theorem State.refuseAppends_inv {d r : Nat} : (s.refuseAppends d r).Inv := by
  unfold State.refuseAppends
  grind [State.Inv, State.settleAppend_inv, State.engineRefused_inv, State.Inv.foldl]

theorem State.refuseList_inv {d r : Nat} {t : SendList} : (s.refuseList d r t).Inv := by
  unfold State.refuseList
  grind [State.logOwn_inv, State.makeRefused_inv, State.Inv.foldl]

theorem State.refuseEngines_inv {d r : Nat} {pages : List Nat} : (s.refuseEngines d r pages).Inv := by
  unfold State.refuseEngines
  extract_lets k w s1 s2 s3 s4 stops s5 s6 s7 s8
  have h3 : s3.Inv := ((hs.foldl (fun _ _ h => State.engineRefused_inv h) _).foldl (fun _ _ h => State.engineRefused_inv h) _).foldl
    (fun _ _ h => State.engineRefused_inv h) _
  have h4 : s4.Inv := by
    refine h3.foldl (fun s t h => ?_) _
    split
    · exact State.engineRefused_inv h
    · exact State.logOwn_inv h
  have h6 : s6.Inv := (h4.foldl (fun _ _ h => State.refuseList_inv h) _).foldl
    (fun _ _ h => State.modBlock_inv (State.logOwn_inv h)) _
  have h7 : s7.Inv := by
    refine h6.foldl (fun s t h => ?_) _
    split
    · exact State.refuseHld_inv h
    · exact State.engineRefused_inv h
  exact (State.refuseAppends_inv h7).of_same rfl rfl

theorem State.refusePeers_inv {r : Nat} : (s.refusePeers r).Inv := by
  unfold State.refusePeers
  grind [State.Inv, State.answer_inv, State.Inv.foldl]

theorem State.refuseRec_inv {d i : Nat} : (s.refuseRec d i).Inv := by
  unfold State.refuseRec
  grind [State.refuseAccess_inv, State.freeRec_inv, State.refuseCohort_inv, State.recordLate_inv, State.wakeWaiters_inv,
    State.refusePeers_inv, State.refuseEngines_inv, State.Inv.foldl]

theorem State.faultCommand_inv {d i act : Nat} : (s.faultCommand d i act).Inv := by
  unfold State.faultCommand
  grind [State.logOwn_inv, State.setFaultRec_inv, State.serviceRec_inv, State.refuseRec_inv]

theorem execFaultSignalDelayed_inv {die : Fin 4} : KeepsInv (execFaultSignalDelayed die s) := by
  fun_cases execFaultSignalDelayed <;> grind [State.modDie_inv, KeepsInv]

end Sys2Proof.Machine
end

section
/-! PROOFS. Every step keeps both memories in canonical form (R56, R411): memory events, the accesses of engines, memory actions. -/

namespace Sys2Proof.Machine

set_option Elab.async false

variable {s : State} (hs : s.Inv)
include hs

/-! ## Memory events -/

theorem State.settleDrains_inv : s.settleDrains.Inv := by
  unfold State.settleDrains
  grind [State.Inv, State.finishOp_inv, State.Inv.foldl]

theorem State.exportPlaces_inv {d expidx tenant egen off n : Nat} {need : Need} :
    (s.exportPlaces d expidx tenant egen off n need).1.Inv := by
  unfold State.exportPlaces
  grind [State.spots_inv, State.want_inv]

theorem State.resolve_inv {b : Block} {v : Nat} {kind : AccKind} {x : LaneAcc} : (s.resolve b v kind x).1.Inv := by
  fun_cases State.resolve <;> grind [State.exportPlaces_inv, State.logOwn_inv, State.spots_inv]

theorem State.laneFault_inv {a : Access} {seen : List (Nat × Nat × Nat)} {d va kind : Nat} : (s.laneFault a seen d va kind).1.Inv := by
  fun_cases State.laneFault <;> grind [State.joinFault_inv]

theorem State.walkLanes_inv {b : Block} {a : Access} {xs : List LaneAcc} {seen : List (Nat × Nat × Nat)} :
    (s.walkLanes b a xs seen).1.Inv := by
  fun_induction State.walkLanes <;> grind [State.resolve_inv, State.laneFault_inv]

theorem State.setAccess_inv {a : Access} : (s.setAccess a).Inv := hs.of_same rfl rfl

theorem execPageWalkComplete_inv {id : Nat} : KeepsInv (execPageWalkComplete id s) := by
  fun_cases execPageWalkComplete <;> grind [State.walkLanes_inv, State.fillLog_inv, State.setAccess_inv, KeepsInv]

theorem State.unkeep_inv {d pos : Nat} : (s.unkeep d pos).Inv := hs.of_same rfl rfl

theorem State.dropCopies_inv {d pos line : Nat} : (s.dropCopies d pos line).Inv := hs.of_same rfl rfl

theorem State.giveBack_inv {inval : Option Msg} {r : RemoteLine} : (s.giveBack inval r).Inv := by
  fun_cases State.giveBack <;> grind [State.Inv, State.dropCopies_inv, State.sendMsg_inv, State.ask_inv]

theorem State.giveUp_inv {r : RemoteLine} : (s.giveUp r).Inv := by
  fun_cases State.giveUp <;> grind [State.giveBack_inv, State.sendMsg_inv, State.dropCopies_inv]

theorem State.purgeCopies_inv : s.purgeCopies.Inv := hs.of_same rfl rfl

theorem State.wake_inv {d : Nat} : (s.wake d).Inv := by
  unfold State.wake
  grind [State.Inv, State.modDie_inv, State.giveUp_inv, State.Inv.foldl]

theorem State.askHolder_inv {h : Holder} : (s.askHolder h).Inv := by
  fun_cases State.askHolder <;> grind [State.Inv, State.sendMsg_inv, State.ask_inv]

theorem State.revoke_inv {e : Lease} : (s.revoke e).Inv := by
  fun_cases State.revoke <;> grind [State.Inv, State.sendMsg_inv, State.ask_inv]

theorem State.setHalf_inv {l : Nat} {h : HalfSt} : (s.setHalf l h).Inv := hs.of_same rfl rfl

theorem State.hostBack_inv {l : Nat} : (s.hostBack l).Inv := hs.of_same rfl rfl

theorem State.leaveHalf_inv {d l : Nat} : (s.leaveHalf d l).Inv := by
  fun_cases State.leaveHalf <;> grind [State.Inv, State.hostBack_inv, State.setHalf_inv]

theorem State.dropHalf_inv {l : Nat} : (s.dropHalf l).Inv := by
  unfold State.dropHalf
  grind [State.leaveHalf_inv, State.Inv.foldl]

theorem State.filterRoom_inv {iod : Nat} : (s.filterRoom iod).Inv := by
  fun_cases State.filterRoom <;> grind [State.Inv, State.dropHalf_inv]

theorem State.enterFilter_inv {d : Nat} {own : Bool} {l : Nat} : (s.enterFilter d own l).Inv := by
  fun_cases State.enterFilter <;> grind [State.Inv, State.setHalf_inv, State.filterRoom_inv]

theorem State.awaitLeases_inv {who : Nat} {lines : List Nat} : (s.awaitLeases who lines).Inv := hs.of_same rfl rfl

theorem State.letIn_inv {who d : Nat} {ps : List Place} {data : Option (List Byte)} : (s.letIn who d ps data).1.Inv := by
  fun_cases State.letIn <;>
    grind [State.Inv, State.wake_inv, State.awaitLeases_inv, State.askHolder_inv, State.enterFilter_inv, State.Inv.foldl]

theorem State.pushLeases_inv {lines : List Nat} : (s.pushLeases lines).Inv := by
  unfold State.pushLeases
  grind [State.Inv, State.sendMsg_inv, State.modDie_inv, State.Inv.foldl]

theorem State.coreStore_inv {b : Block} {scope : Nat} {pv : List (Place × Byte)} {po : List Place} :
    (s.coreStore b scope pv po).Inv := by
  unfold State.coreStore
  grind [State.Inv, State.pushLeases_inv, State.setPoison_inv, State.storeBy_inv, State.Inv.foldl]

theorem State.fillLine_inv {blk line : Nat} : (s.fillLine blk line).1.Inv := by
  fun_cases State.fillLine <;> grind [State.spots_inv, State.letIn_inv, State.setBlock_inv]

theorem State.writeBackLine_inv {b : Block} {line : Nat} : (s.writeBackLine b line).1.Inv := by
  unfold State.writeBackLine
  grind [State.modBlock_inv, State.spots_inv, State.letIn_inv, State.setPoison_inv, State.storeBytes_inv, State.pushLeases_inv,
    State.Inv.foldl]

theorem execScratchpadWriteback_inv {blk line : Nat} : KeepsInv (execScratchpadWriteback blk line s) := by
  fun_cases execScratchpadWriteback <;> grind [State.writeBackLine_inv, State.engFault_inv, State.modBlock_inv, KeepsInv]

theorem State.shareAt_inv {b : Block} {p : Ptr} {facet : Bool} {ls : List (Bool × Nat)} : (s.shareAt b p facet ls).Inv := by
  unfold State.shareAt
  grind [State.share_inv, State.Inv.foldl]

theorem State.shareLines_inv {b : Block} {p : Ptr} {any : Bool} {ps : List Place} : (s.shareLines b p any ps).Inv := by
  fun_cases State.shareLines <;> grind [State.shareAt_inv]

theorem State.keepFor_inv {a : Access} {lane : Nat} {ps : List Place} : (s.keepFor a lane ps).Inv := by
  fun_cases State.keepFor <;> exact hs.of_same rfl rfl

theorem State.noteFrame_inv {a : Access} {x : LaneAcc} : (s.noteFrame a x).Inv := hs.of_same rfl rfl

theorem State.performHere_inv {b : Block} {a : Access} {x : LaneAcc} {ps : List Place} : (s.performHere b a x ps).1.Inv := by
  fun_cases State.performHere <;>
    grind [State.keepFor_inv, State.acquireAt_inv, State.weakRead_inv, State.shareLines_inv, State.releaseAt_inv,
      State.noteFrame_inv, State.coreStore_inv]

theorem State.dropStore_inv {blk grp pos id : Nat} : (s.dropStore blk grp pos id).Inv := hs.of_same rfl rfl

theorem State.markBreak_inv {a : Access} {pos : Nat} {x : LaneAcc} : (s.markBreak a pos x).Inv := by
  fun_cases State.markBreak <;> exact hs.of_same rfl rfl

theorem State.endBreak_inv {a : Access} {lanes : List Nat} : (s.endBreak a lanes).Inv := hs.of_same rfl rfl

theorem State.lostLane_inv {a : Access} {pos : Nat} {x : LaneAcc} : (s.lostLane a pos x).1.Inv := by
  fun_cases State.lostLane <;> exact hs.of_same rfl rfl

theorem State.askPeer_inv {b : Block} {a : Access} {x : LaneAcc} {pos die exp gen tenant o n : Nat} {sync : Bool} :
    (s.askPeer b a x pos die exp gen tenant o n sync).1.Inv := by
  fun_cases State.askPeer <;> grind [State.sendMsg_inv, State.lostLane_inv, State.releaseAt_inv, State.ask_inv]

theorem State.performPeer_inv {b : Block} {a : Access} {x : LaneAcc} {pos die exp gen tenant off : Nat} :
    (s.performPeer b a x pos die exp gen tenant off).1.Inv := by
  fun_cases State.performPeer <;> grind [State.Inv, State.lostLane_inv, State.markBreak_inv, State.askPeer_inv]

theorem State.performLane_inv {b : Block} {a : Access} {x : LaneAcc} : (s.performLane b a x).1.Inv := by
  fun_cases State.performLane <;> grind [State.performPeer_inv, State.logOwn_inv, State.letIn_inv, State.performHere_inv]

theorem State.standAt_inv {b : Block} {sc : Scope} {members on : List Nat} {pc len : Nat} {i : Instr} :
    (s.standAt b sc members on pc len i).1.Inv :=
  hs.of_same rfl rfl

theorem State.waitmError_inv {b : Block} {m : Monitor} {ls : List Nat} {addr : Nat → Nat} : (s.waitmError b m ls addr).Inv := by
  unfold State.waitmError
  grind [State.Inv, State.standAt_inv, State.raise_inv]

theorem State.waitmDone_inv {b : Block} {a : Access} {m : Monitor} : (s.waitmDone b a m).Inv := by
  fun_cases State.waitmDone <;> grind [State.Inv, State.setBlock_inv, State.waitmError_inv]

theorem execWaitmReread_inv {id : Nat} : KeepsInv (execWaitmReread id s) := by
  fun_cases execWaitmReread <;> grind [State.Inv, KeepsInv]

theorem State.finishAccess_inv {a : Access} : (s.finishAccess a).Inv := by
  fun_cases State.finishAccess <;> grind [State.Inv, State.finishOp_inv, State.waitmDone_inv, State.endBreak_inv]

theorem State.splitDone_inv {a : Access} : (s.splitDone a).Inv := by
  fun_cases State.splitDone <;> exact hs.of_same rfl rfl

theorem execScratchpadFill_inv {blk line : Nat} : KeepsInv (execScratchpadFill blk line s) := by
  fun_cases execScratchpadFill <;>
    grind [State.fillLine_inv, State.fillLog_inv, State.laneFault_inv, State.settleDrains_inv, State.splitDone_inv,
      State.setAccess_inv, State.Inv.foldl, KeepsInv]

theorem State.afterLane_inv {id : Nat} : (s.afterLane id).Inv := by
  fun_cases State.afterLane <;> grind [State.fillLog_inv, State.settleDrains_inv, State.finishAccess_inv, State.splitDone_inv]

theorem State.setLane_inv {id : Nat} {x : LaneAcc} : (s.setLane id x).Inv := hs.of_same rfl rfl

theorem State.performLanes_inv {id : Nat} {ls : List Nat} : (s.performLanes id ls).Inv := by
  fun_induction State.performLanes <;> grind [State.performLane_inv, State.setLane_inv]

theorem State.endAppend_inv {a : Append} : (s.endAppend a).Inv := by
  unfold State.endAppend
  grind [State.Inv, State.settleAppend_inv, State.releaseAt_inv]

theorem State.appendAt_inv {a : Append} {va n : Nat} {need : Need} {side : Side} {k : State → List Place → State}
    (hk : ∀ s ps, s.Inv → (k s ps).Inv) : (s.appendAt a va n need side k).Inv := by
  fun_cases State.appendAt <;> grind [State.Inv, State.spots_inv, State.engFault_inv]

theorem State.appendPut_inv {a : Append} {ws : List (List Place × List Byte)} {k : State → State} (hk : ∀ s, s.Inv → (k s).Inv) :
    (s.appendPut a ws k).Inv := by
  fun_cases State.appendPut <;> grind [State.letIn_inv, State.pushLeases_inv, State.storeBytes_inv]

theorem State.appendGet_inv {a : Append} {ps : List Place} {k : State → List Byte → State} (hk : ∀ s bs, s.Inv → (k s bs).Inv) :
    (s.appendGet a ps k).Inv := by
  fun_cases State.appendGet <;> grind [State.letIn_inv]

theorem State.appendEntry_inv {a : Append} {cb src : BitVec 128} {dst len : Word} : (s.appendEntry a cb src dst len).Inv := by
  unfold State.appendEntry
  grind [State.Inv, State.appendAt_inv, State.appendGet_inv, State.logOwn_inv, State.endAppend_inv, State.appendPut_inv]

theorem State.appendHeader_inv {a : Append} {q hdr : Nat} : (s.appendHeader a q hdr).Inv := by
  unfold State.appendHeader
  grind [State.appendAt_inv, State.appendGet_inv, State.appendPut_inv, State.endAppend_inv]

theorem State.performAppend_inv {a : Append} : (s.performAppend a).Inv := by
  fun_cases State.performAppend <;> grind [State.endAppend_inv, State.appendEntry_inv, State.appendHeader_inv]

theorem State.settlePosted_inv {ps : List Posted} : (s.settlePosted ps).Inv := by
  fun_induction State.settlePosted <;>
    grind [State.Inv, State.spots_inv, State.letIn_inv, State.logOwn_inv, State.storeBytes_inv, State.pushLeases_inv]

theorem execAccessPerformed_inv {id : Nat} {order : List Nat} : KeepsInv (execAccessPerformed id order s) := by
  fun_cases execAccessPerformed <;> grind [State.performAppend_inv, State.afterLane_inv, State.performLanes_inv, KeepsInv]

/-! ## What engines read and write -/

theorem State.engPeer_inv {d who pos die type tenant exp gen n key : Nat} {word : Word} {body : List Byte} {keep : Bool} :
    (s.engPeer d who pos die type tenant exp gen n key word body keep).Inv := by
  fun_cases State.engPeer <;> grind [State.Inv, State.sendMsg_inv, State.ask_inv, EngRes.Inv]

theorem State.dropLines_inv {who : Nat} : (s.dropLines who).Inv := hs.of_same rfl rfl

theorem State.engPiece_inv {d who pos die tenant exp gen a z : Nat} : (s.engPiece d who pos die tenant exp gen a z).Inv := by
  fun_cases State.engPiece <;> grind [State.engPeer_inv, EngRes.Inv]

theorem State.engOwn.ask_inv {d who pos die tenant exp gen a z : Nat} {data : List Byte} {poison : Bool} :
    (State.engOwn.ask d who pos die tenant exp gen a z data poison s).Inv := by
  refine (State.engPeer_inv hs).bind fun s r h => ?_
  split
  · exact h
  · exact (State.engPeer_inv h).bind fun _ _ h => h

theorem State.engOwn_inv {d who pos die tenant exp gen a z : Nat} {data : List Byte} {poison : Bool} :
    (s.engOwn d who pos die tenant exp gen a z data poison).Inv := by
  fun_cases State.engOwn <;> grind [EngRes.Inv, State.engOwn.ask_inv]

theorem State.engFetch_inv {who d : Nat} {ps : List Place} : (s.engFetch who d ps).Inv := by
  fun_cases State.engFetch <;> grind [EngRes.Inv.bind, engEach_inv, State.engPiece_inv, State.letIn_inv, EngRes.Inv]

theorem State.engPrepare_inv {who d : Nat} {ps : List Place} {data : List Byte} {poison : Bool} :
    (s.engPrepare who d ps data poison).Inv := by
  fun_cases State.engPrepare <;> grind [EngRes.Inv.bind, engEach_inv, State.engOwn_inv, State.letIn_inv, EngRes.Inv]

theorem State.engCommit_inv {ps : List Place} {data : List Byte} {poison : Bool} : (s.engCommit ps data poison).Inv := by
  fun_cases State.engCommit <;>
    grind [State.Inv, State.pushLeases_inv, State.storeBytes_inv, State.setPoison_inv, State.Inv.foldl]

theorem State.engPlaces_inv {b : Block} {refused : List Nat} {kind : AccKind} {pv : BitVec 128} {o n : Nat} :
    (s.engPlaces b refused kind pv o n).Inv := by
  fun_cases State.engPlaces <;> grind [State.resolve_inv, State.fillLine_inv, EngRes.Inv]

theorem State.engRead_inv {b : Block} {who : Nat} {refused : List Nat} {pv : BitVec 128} {o n : Nat} :
    (s.engRead b who refused pv o n).Inv := by
  fun_cases State.engRead <;> grind [EngRes.Inv.bind, State.engPlaces_inv, State.engFetch_inv, EngRes.Inv]

theorem State.engReady_inv {b : Block} {who : Nat} {refused : List Nat} {pv : BitVec 128} {o : Nat} {data : List Byte}
    {poison : Bool} : (s.engReady b who refused pv o data poison).Inv := by
  fun_cases State.engReady <;> grind [EngRes.Inv.bind, State.engPlaces_inv, State.engPrepare_inv, EngRes.Inv]

theorem State.descriptor_inv {b : Block} {who v : Nat} : (s.descriptor b who v).1.Inv := by
  unfold State.descriptor
  grind [State.spots_inv, State.letIn_inv, State.acquireAt_inv, State.share_inv, State.Inv.foldl]

theorem State.hldIssue_inv {b : Block} {c : Ctx} {h : Head} {w : Work} {hr : Fin 16} {body : LongBody} {wrs : List Wr}
    {frec : Option Nat} : (s.hldIssue b c h w hr body wrs frec).Inv := by
  unfold State.hldIssue
  exact hs.of_same rfl rfl

theorem execHld_inv {h : Head} {hr : Fin 16} {handle : Opd} : KeepsInv (execHld h hr handle s) := by
  unfold execHld
  grind [State.onceIssue_inv, State.holdIssue_inv, State.descriptor_inv, State.trap_inv, State.hldIssue_inv,
    State.recordFault_inv, State.fillLog_inv, KeepsInv]

theorem State.replayHld_inv {o : LongOp} {hr : Nat} {handle : Word} {i : Instr} {len : Nat} : (s.replayHld o hr handle i len).Inv := by
  fun_cases State.replayHld <;>
    grind [State.Inv, State.descriptor_inv, State.recordFault_inv, State.fillLog_inv, State.finishOp_inv, State.modBlock_inv,
      State.standAt_inv, State.trap_inv]

/-! ## Memory actions -/

theorem State.recall_inv {lines : List Nat} : (s.recall lines).1.Inv := by
  unfold State.recall
  grind [State.revoke_inv, State.askHolder_inv, State.Inv.foldl]

theorem State.recallHost_inv {lines : List Nat} : (s.recallHost lines).1.Inv := hs.of_same rfl rfl

theorem State.eachPiece_inv {f : State → PeerPiece → State × Bool} {ps : List PeerPiece} (hf : ∀ s q, s.Inv → (f s q).1.Inv) :
    (s.eachPiece f ps).1.Inv := by
  refine hs.foldl_fst (fun p q h => ?_) ps
  exact hf p.1 q h

theorem State.fetchPiece_inv {b : Block} {who : Nat} {p : Ptr} {q : PeerPiece} : (s.fetchPiece b who p q).1.Inv := by
  fun_cases State.fetchPiece <;> grind [EngRes.Inv.closes, State.engPeer_inv]

theorem State.upgradePiece_inv {b : Block} {who : Nat} {q : PeerPiece} : (s.upgradePiece b who q).1.Inv := by
  refine hs.foldl_fst (fun p r h => ?_) _
  grind [State.Inv, EngRes.Inv, State.engPeer_inv]

theorem State.narrowPiece.ask_inv {b : Block} {who : Nat} {q : PeerPiece} {key : Nat} : (State.narrowPiece.ask s b who q key).1.Inv := by
  fun_cases State.narrowPiece.ask <;> grind [State.Inv, EngRes.Inv, State.engPeer_inv]

theorem State.narrowPiece_inv {b : Block} {who : Nat} {q : PeerPiece} : (s.narrowPiece b who q).1.Inv := by
  fun_cases State.narrowPiece <;> grind [State.narrowPiece.ask_inv]

theorem State.narrowRange_inv {b : Block} {who : Nat} {old : BitVec 128} {o n : Nat} {new : BitVec 128} :
    (s.narrowRange b who old o n new).1.Inv := by
  fun_cases State.narrowRange <;>
    grind [State.Inv, State.publishLines_inv, State.modDie_inv, State.leaveHalf_inv, State.recall_inv, State.recallHost_inv,
      State.eachPiece_inv, State.narrowPiece_inv, State.Inv.foldl]

theorem State.widenRange_inv {b : Block} {old : BitVec 128} {o n : Nat} {new : BitVec 128} : (s.widenRange b old o n new).1.Inv := by
  fun_cases State.widenRange <;> grind [State.giveBack_inv, State.Inv.foldl]

theorem State.subscrRange_inv {b : Block} {who : Nat} {pv : BitVec 128} {o n : Nat} : (s.subscrRange b who pv o n).1.Inv := by
  unfold State.subscrRange
  grind [State.enterFilter_inv, State.eachPiece_inv, State.shareAt_inv, State.fetchPiece_inv, State.Inv.foldl]

theorem State.upgrRange_inv {b : Block} {who : Nat} {pv : BitVec 128} {o n : Nat} : (s.upgrRange b who pv o n).1.Inv := by
  unfold State.upgrRange
  grind [State.Inv, State.eachPiece_inv, State.upgradePiece_inv]

theorem State.actRange_inv {b : Block} {k : ActKind} {who : Nat} {r : BitVec 128 × Nat × Nat × BitVec 128} :
    (s.actRange b k who r).1.Inv := by
  fun_cases State.actRange <;>
    grind [State.widenRange_inv, State.publishLines_inv, State.narrowRange_inv, State.subscrRange_inv, State.upgrRange_inv]

theorem execMemoryActionClose_inv {id : Nat} : KeepsInv (execMemoryActionClose id s) := by
  unfold execMemoryActionClose
  split
  · exact hs
  split
  · exact hs
  next t _ _ b _ =>
    extract_lets r
    have acted : r.1.Inv := by
      refine hs.foldl_fst (fun p e h => ?_) _
      exact State.actRange_inv h
    refine .ite hs (.ite (.next ?_) acted)
    refine State.dropLines_inv (State.finishOp_inv ?_)
    exact acted.of_same rfl rfl

end Sys2Proof.Machine
end

section
/-! PROOFS. Every step keeps both memories in canonical form (R56, R411): tile, copy and bin events, fetch, send lists. -/

namespace Sys2Proof.Machine

set_option Elab.async false

variable {s : State} (hs : s.Inv)
include hs

/-! ## Tile events -/

theorem State.tstoreErr_inv {blk slot rows : Nat} {remote : Bool} {rank : Nat} : (s.tstoreErr blk slot rows remote rank).Inv := by
  fun_cases State.tstoreErr <;> exact hs.of_same rfl rfl

theorem State.wakeWaitc_inv {blk : Nat} : (s.wakeWaitc blk).Inv := by
  fun_cases State.wakeWaitc <;> grind [State.fresh_inv, State.raise_inv]

theorem State.tldRow_inv {b : Block} {t : TileOp} {f : EFmt} {h : BitVec 512} {r : Nat} : (s.tldRow b t f h r).Inv := by
  unfold State.tldRow
  grind [EngRes.Inv.bind, State.engRead_inv, EngRes.Inv]

theorem State.endTileOp_inv {t : TileOp} : (s.endTileOp t).Inv := hs.of_same rfl rfl

theorem State.storeRows_inv {b : Block} {t : TileOp} {rows : List (List Byte × Bool)} {h : BitVec 512} :
    (s.storeRows b t rows h).Inv := by
  unfold State.storeRows
  grind [EngRes.Inv.bind, engEach_inv, State.engReady_inv, State.engCommit_inv, State.Inv.foldl, EngRes.Inv]

theorem State.tileEffect_inv {b : Block} {t : TileOp} : (s.tileEffect b t).Inv := by
  unfold State.tileEffect
  grind [EngRes.Inv.bind, engEach_inv, State.tldRow_inv, State.setStore_inv, State.storeRows_inv, State.wakeWaitc_inv,
    State.tstoreErr_inv, State.modBlock_inv, EngRes.Inv]

theorem execTileTransferComplete_inv {id : Nat} : KeepsInv (execTileTransferComplete id s) := by
  fun_cases execTileTransferComplete <;>
    grind [State.Inv, State.tileEffect_inv, State.endTileOp_inv, State.engFault_inv, KeepsInv, EngRes.Inv]

theorem State.freeSlots_inv {cluster : Nat} {isC : Bool} {ps : List Nat} : (s.freeSlots cluster isC ps).Inv := hs.of_same rfl rfl

theorem execSlotReturn_inv {id : Nat} : KeepsInv (execSlotReturn id s) := by
  fun_cases execSlotReturn <;> grind [State.endTileOp_inv, State.freeSlots_inv, KeepsInv]

theorem execMatrixGrant_inv {cluster : Nat} : KeepsInv (execMatrixGrant cluster s) := by
  fun_cases execMatrixGrant <;> grind [State.Inv, KeepsInv]

theorem State.reportPoison_inv {t : TileStore} {qs : List Quarter} : (s.reportPoison t qs).Inv := by
  unfold State.reportPoison
  split
  · exact hs
  · extract_lets rs rankOf as bs cs rows first s1 owners s2
    have h1 : s1.Inv := by
      dsimp only [s1]
      split
      · exact State.tstoreErr_inv hs
      · exact hs
    have h2 : s2.Inv := by
      refine h1.foldl (fun s o h => ?_) _
      dsimp only
      split
      · exact State.tstoreErr_inv h
      · exact h
    exact h2.foldl (fun _ _ h => State.wakeWaitc_inv h) _

theorem State.writeQuarter_inv {q : Quarter} : (s.writeQuarter q).Inv := hs.of_same rfl rfl

theorem State.settleMatrix_inv {q : Quarter} : (s.settleMatrix q).Inv := by
  fun_cases State.settleMatrix <;> exact hs.of_same rfl rfl

theorem execMatrixPassWrite_inv {id : Nat} : KeepsInv (execMatrixPassWrite id s) := by
  fun_cases execMatrixPassWrite <;>
    grind [State.Inv, State.writeQuarter_inv, State.reportPoison_inv, State.settleMatrix_inv, State.Inv.foldl, KeepsInv]

/-! ## Copy events -/

theorem execCopyAccept_inv {blk : Nat} : KeepsInv (execCopyAccept blk s) := by
  unfold execCopyAccept
  grind [State.Inv, State.storeScr_inv, State.want_inv, State.refuseEntry_inv, KeepsInv]

theorem State.copyFetch_inv {b : Block} {c : Copy} {o n : Nat} : (s.copyFetch b c o n).Inv := by
  unfold State.copyFetch
  grind [EngRes.Inv.bind, engEach_inv, State.engRead_inv, EngRes.Inv]

theorem State.copyRowPart_inv {b : Block} {c : Copy} {r a z : Nat} : (s.copyRowPart b c r a z).Inv := by
  fun_cases State.copyRowPart <;> grind [State.copyFetch_inv, EngRes.Inv.bind, EngRes.Inv]

theorem State.copyPart_inv {b : Block} {c : Copy} {a z : Nat} : (s.copyPart b c a z).Inv := by
  fun_cases State.copyPart <;> grind [EngRes.Inv.bind, engEach_inv, State.copyRowPart_inv, EngRes.Inv]

theorem State.copyRoom_inv {b : Block} {c : Copy} {lo hi : Nat} : (s.copyRoom b c lo hi).Inv := by
  refine (engEach_inv (fun s l h => ?_) hs _).bind fun _ _ h => h
  have filled := State.fillLine_inv h (blk := b.id) (line := l)
  grind [EngRes.Inv]

theorem State.deliverScr_inv {b : Block} {c : Copy} {bytes : List Byte} {bad : List Bool} {skip : List Nat} :
    (s.deliverScr b c bytes bad skip).Inv := by
  unfold State.deliverScr
  grind [State.setPoison_inv, State.storeBytes_inv, State.Inv.foldl]

theorem State.deliverSlot_inv {b : Block} {c : Copy} {bytes : List Byte} {bad : List Bool} : (s.deliverSlot b c bytes bad).Inv :=
  hs.of_same rfl rfl

theorem State.stampCopy_inv {b : Block} {c : Copy} {skip : Bool} : (s.stampCopy b c skip).Inv := by
  unfold State.stampCopy
  grind [State.Inv, State.storeScr_inv, State.settleChannel_inv, State.settleCopyOp_inv, State.dropLines_inv]

theorem State.copyStep_inv {b : Block} {c : Copy} {n : Nat} : (s.copyStep b c n).Inv := by
  unfold State.copyStep
  grind [EngRes.Inv.bind, State.copyPart_inv, State.copyRoom_inv, EngRes.Inv]

theorem execCopyStamp_inv {id : Nat} : KeepsInv (execCopyStamp id s) := by
  fun_cases execCopyStamp <;>
    grind [State.Inv, State.copyStep_inv, State.engFault_inv, State.deliverSlot_inv, State.deliverScr_inv, State.stampCopy_inv,
      KeepsInv, EngRes.Inv]

/-! ## Bin events -/

/-- What a bin plan does after its writes keeps the invariant. -/
def BinPlan.Keeps (p : BinPlan) : Prop := ∀ s, s.Inv → (p.after s).Inv

theorem State.setBinRoom_inv {d : Nat} {l : List Nat} : (s.setBinRoom d l).Inv := hs.of_same rfl rfl

theorem State.binLog_inv {d : Nat} {c : BinCmd} : (s.binLog d c).Inv := hs.of_same rfl rfl

theorem State.binRead_inv {b : Block} {c : BinCmd} {o n : Nat} : (s.binRead b c o n).Inv := State.engRead_inv hs

theorem State.binClosing_inv {d : Nat} {c : BinCmd} {h : BinHdr} {pairs : List (Nat × Nat)} : (s.binClosing d c h pairs).Inv := by
  unfold State.binClosing
  grind [State.patchHandle_inv, State.releaseHandle_inv, State.setBinRoom_inv, State.Inv.foldl]

theorem State.planOpen_inv {b : Block} {c : BinCmd} : (s.planOpen b c).Ends BinPlan.Keeps :=
  (State.binRead_inv hs).bindEnds fun _ _ h => .ite ⟨h, fun _ h => State.binLog_inv h⟩ <| .ite ⟨h, fun _ h => State.setBinRoom_inv h⟩ <|
    (State.binRead_inv h).bindEnds fun _ _ h => .ite ⟨h, fun _ h => State.setBinRoom_inv h⟩ <|
      .ite ⟨h, fun _ h => State.setBinRoom_inv h⟩ ⟨h, fun _ h => State.setBinRoom_inv h⟩

theorem State.planClose_inv {b : Block} {c : BinCmd} : (s.planClose b c).Ends BinPlan.Keeps :=
  (State.binRead_inv hs).bindEnds fun _ _ h => .ite ⟨h, fun _ h => h⟩ <| .ite ⟨h, fun _ h => State.binLog_inv h⟩ <|
    (State.binRead_inv h).bindEnds fun _ _ h => ⟨h, fun _ h => State.binClosing_inv h⟩

theorem State.planItem_inv {b : Block} {c : BinCmd} : (s.planItem b c).Ends BinPlan.Keeps :=
  (State.binRead_inv hs).bindEnds fun _ _ h => .ite ⟨h, fun _ h => h⟩ <| .ite ⟨h, fun _ h => State.binLog_inv h⟩ <|
    (State.binRead_inv h).bindEnds fun _ _ h => .ite ⟨h, fun _ h => State.binClosing_inv h⟩ ⟨h, fun _ h => h⟩

theorem State.endBin_inv {c : BinCmd} : (s.endBin c).Inv := by
  fun_cases State.endBin <;> exact hs.of_same rfl rfl

theorem State.binPerform_inv {d : Nat} {kind : BinOp} {plan : State → Block → BinCmd → EngRes BinPlan}
    (hplan : ∀ s b c, s.Inv → (plan s b c).Ends BinPlan.Keeps) : KeepsInv (s.binPerform d kind plan) := by
  unfold State.binPerform
  split
  · exact hs
  split
  · exact hs
  next c _ _ b _ =>
    refine .ite hs (.ite (State.endBin_inv hs) ?_)
    extract_lets r
    have ends : r.Ends fun x => ∀ s, s.Inv → (x.2 s).Inv := by
      refine (hplan s b c hs).bind fun s p h keeps => EngRes.Inv.bindEnds (engEach_inv (fun s k h => ?_) h _) fun _ _ h => ⟨h, keeps⟩
      exact (State.engReady_inv h).bind fun _ _ h => h
    clear_value r
    cases r with
    | wait s => exact ends
    | fault s d va k => exact (State.engFault_inv ends (who := c.id)).of_same rfl rfl
    | ok s x =>
      obtain ⟨h, keeps⟩ := ends
      refine .next (State.endBin_inv (keeps _ (h.foldl (fun s w h => ?_) x.1)))
      split
      · exact State.engCommit_inv h
      · exact h

theorem execBinOpenPerform_inv {die : Fin 4} : KeepsInv (execBinOpenPerform die s) :=
  State.binPerform_inv hs fun _ _ _ h => State.planOpen_inv h

theorem execBinItemPerform_inv {die : Fin 4} : KeepsInv (execBinItemPerform die s) :=
  State.binPerform_inv hs fun _ _ _ h => State.planItem_inv h

theorem execBinClosePerform_inv {die : Fin 4} : KeepsInv (execBinClosePerform die s) :=
  State.binPerform_inv hs fun _ _ _ h => State.planClose_inv h

/-! ## Fetch -/

theorem State.fetchTry_inv {b : Block} {pc : Nat} {last : List Byte} {ns : List Nat} : (s.fetchTry b pc last ns).1.Inv := by
  fun_induction State.fetchTry <;> grind [State.spots_inv, State.letIn_inv, State.share_inv, State.Inv.foldl]

theorem State.fetch_inv {b : Block} {pc : Nat} : (s.fetch b pc).1.Inv := State.fetchTry_inv hs

theorem State.seat_inv {b : Block} {g : Nat} {n : Fin 2} {c : Cand} : (s.seat b g n c).1.Inv := by
  fun_cases State.seat <;> grind [State.fresh_inv]

theorem State.fillSlots_inv {b : Block} {g : Nat} : (s.fillSlots b g).1.Inv := by
  unfold State.fillSlots
  grind [State.seat_inv, State.setBlock_inv]

/-! ## Send lists -/

theorem State.engSpots_inv {d : Nat} {refused : List Nat} {va n : Nat} {need : Need} {side : Side} :
    (s.engSpots d refused va n need side).Inv := by
  fun_cases State.engSpots <;> grind [State.spots_inv, EngRes.Inv]

theorem State.engPut_inv {who d : Nat} {refused : List Nat} {va : Nat} {data : List Byte} {side : Side} :
    (s.engPut who d refused va data side).Inv := by
  unfold State.engPut
  grind [EngRes.Inv.bind, State.engSpots_inv, State.engPrepare_inv, State.engCommit_inv, EngRes.Inv]

theorem State.modList_inv {t : SendList} {f : SendList → SendList} : (s.modList t f).Inv := hs.of_same rfl rfl

theorem State.nextEntry_inv {t : SendList} : (s.nextEntry t).Inv := by
  unfold State.nextEntry
  grind [State.spots_inv, EngRes.Inv.bind, State.engFetch_inv, EngRes.Inv]

theorem execSendEntryAccept_inv {die : Fin 4} {list : Word} : KeepsInv (execSendEntryAccept die list s) := by
  unfold execSendEntryAccept
  grind [State.Inv, State.nextEntry_inv, State.engFault_inv, State.modList_inv, State.want_inv, State.letIn_inv,
    State.engCommit_inv, KeepsInv, EngRes.Inv]

theorem State.sendChunk_inv {e : SendEnt} : (s.sendChunk e).Inv := by
  unfold State.sendChunk
  grind [EngRes.Inv.bind, engEach_inv, State.engRead_inv, EngRes.Inv]

theorem State.sendHere_inv {e : SendEnt} {i : Import} {off : Nat} {data : List Byte} {poison : Bool} :
    (s.sendHere e i off data poison).Inv := by
  fun_cases State.sendHere <;>
    grind [State.exportPlaces_inv, State.logOwn_inv, EngRes.Inv.bind, State.engPrepare_inv, State.engCommit_inv, EngRes.Inv]

theorem State.sendBytes_inv {e : SendEnt} {i : Import} {type off : Nat} {data : List Byte} {poison : Bool} :
    (s.sendBytes e i type off data poison).Inv := by
  fun_cases State.sendBytes <;> grind [State.sendHere_inv, State.sendMsg_inv, State.ask_inv, EngRes.Inv]

theorem State.setSend_inv {e : SendEnt} : (s.setSend e).Inv := hs.of_same rfl rfl

theorem State.listSpots_inv {e : SendEnt} {va n : Nat} {side : Side} : (s.listSpots e va n side).Inv := by
  fun_cases State.listSpots <;> grind [State.engSpots_inv, EngRes.Inv]

theorem State.listPut_inv {e : SendEnt} {ps : List Place} {v : List Byte} : (s.listPut e ps v).Inv := by
  unfold State.listPut
  grind [EngRes.Inv.bind, State.engPrepare_inv, State.engCommit_inv, EngRes.Inv]

theorem State.toEndpoint_inv {e : SendEnt} {i : Import} {data : List Byte} {poison : Bool} : (s.toEndpoint e i data poison).Inv :=
  hs.of_same rfl rfl

theorem State.endSend_inv {e : SendEnt} : (s.endSend e).Inv := by
  refine (State.listSpots_inv (State.setSend_inv hs)).bind fun s ps h => ?_
  split
  · exact State.setSend_inv h
  · refine (State.engFetch_inv h).bind fun s bs h => ?_
    refine EngRes.Inv.bind ?_ fun s _ h => (State.listPut_inv h).bind fun s _ h => h.of_same rfl rfl
    split
    · refine (State.listSpots_inv h).bind fun s es h => ?_
      split
      · exact h
      · exact (State.engFetch_inv h).bind fun s ob h => State.listPut_inv h
    · exact h

theorem State.sendMove_inv {e : SendEnt} : (s.sendMove e).Inv := by
  unfold State.sendMove
  grind [State.endSend_inv, State.want_inv, EngRes.Inv.bind, State.sendChunk_inv, State.toEndpoint_inv, State.sendBytes_inv,
    State.setSend_inv, EngRes.Inv]

theorem execSendEntryComplete_inv {id : Nat} : KeepsInv (execSendEntryComplete id s) := by
  fun_cases execSendEntryComplete <;>
    grind [State.Inv, State.sendMove_inv, State.dropLines_inv, State.engFault_inv, KeepsInv, EngRes.Inv]

end Sys2Proof.Machine
end

section
/-! PROOFS. Every step keeps both memories in canonical form (R56, R411): launches, preemption, system instructions, completion. -/

namespace Sys2Proof.Machine

set_option Elab.async false

variable {s : State} (hs : s.Inv)
include hs

/-! ## Launches -/

theorem State.put_inv {d va : Nat} {bs : List Byte} : (s.put d va bs).Inv := by
  unfold State.put
  grind [State.post_inv, State.settlePosted_inv]

theorem State.putCounts_inv {d base nread nref : Nat} : (s.putCounts d base nread nref).Inv := State.put_inv hs

theorem State.teardown_inv {d n : Nat} : (s.teardown d n).Inv := hs.of_same rfl rfl

theorem State.writeQctl_inv {d n : Nat} {v : Word} : (s.writeQctl d n v).Inv := by
  fun_cases State.writeQctl <;> grind [State.teardown_inv, State.modDie_inv, State.putCounts_inv]

theorem execQueueEnable_inv {die : Fin 4} {queue : Fin 32} {value : Word} : KeepsInv (execQueueEnable die queue value s) :=
  .next (.ite (State.writeQctl_inv (State.wake_inv hs)) hs)

theorem execQueueTeardown_inv {die : Fin 4} {queue : Fin 32} : KeepsInv (execQueueTeardown die queue s) :=
  .next (.ite (State.writeQctl_inv (State.wake_inv hs)) hs)

theorem State.frontRead_inv {who d : Nat} {q : Queue} {va n : Nat} : (s.frontRead who d q va n).Inv := by
  unfold State.frontRead
  grind [EngRes.Inv.bind, State.engSpots_inv, State.engFetch_inv, EngRes.Inv]

theorem State.readHeader_inv {d n : Nat} {q : Queue} : (s.readHeader d n q).Inv := by
  refine (State.frontRead_inv hs).bind fun s l h => .ite h ((State.frontRead_inv h).bind fun s hp h => ?_)
  split
  · exact h
  · refine .ite h (EngRes.Inv.bind ?_ fun s rd h => EngRes.Inv.bind ?_ fun s wr h => EngRes.Inv.bind ?_ fun s rg h => h)
    all_goals exact (State.frontRead_inv h).bind fun _ _ h => h

theorem State.refuseHeader_inv {d hdr : Nat} {cword : Option Nat} : (s.refuseHeader d hdr cword).Inv := by
  fun_cases State.refuseHeader <;> grind [State.logOwn_inv, State.put_inv]

theorem execHeaderRead_inv {die : Fin 4} {queue : Fin 32} : KeepsInv (execHeaderRead die queue s) := by
  fun_cases execHeaderRead <;>
    grind [State.Inv, State.wake_inv, State.modDie_inv, State.readHeader_inv, State.engFault_inv, State.refuseHeader_inv,
      State.putCounts_inv, State.noteReady_inv, KeepsInv, EngRes.Inv]

theorem State.startBlock_inv {l : Launch} {unit rank core bcl : Nat} {places : List (Nat × Nat)} {base : Nat} :
    (s.startBlock l unit rank core bcl places base).Inv := by
  unfold State.startBlock
  extract_lets d di nl ng id wins seed lane ctl grp b s1 r
  have h1 : s1.Inv := hs.of_same rfl rfl
  have claimed : r.1.Inv := by
    refine h1.foldl_fst (fun p _ h => ?_) _
    split
    · next e => exact State.claimOp_inv h _ _ _ e
    · exact h
  refine State.acquireAt_inv ?_
  exact claimed.of_same rfl rfl

theorem State.placeOn_inv {l : Launch} {unit rank bcl : Nat} {cores : List Nat} : ∀ t, s.placeOn l unit rank bcl cores = some t → t.Inv := by
  fun_cases State.placeOn
  · simp
  · simp
  · intro t e
    obtain ⟨f, _, rfl⟩ := Option.map_eq_some_iff.1 e
    exact State.startBlock_inv hs

theorem State.placeCluster_inv {l : Launch} {unit cl : Nat} : ∀ t, s.placeCluster l unit cl = some t → t.Inv := by
  refine List.foldlRecOn (motive := fun o => ∀ t : State, o = some t → t.Inv) _ _ (fun t e => ?_) fun o h r _ => ?_
  · exact Option.some.inj e ▸ hs
  · cases o with
    | none => simp
    | some u => exact State.placeOn_inv (h u rfl)

theorem State.placeUnit_inv {l : Launch} : ∀ t, s.placeUnit l = some t → t.Inv := by
  fun_cases State.placeUnit
  · exact State.placeOn_inv hs
  · intro t e
    obtain ⟨cl, _, placed⟩ := Option.bind_eq_some_iff.1 e
    exact State.placeCluster_inv hs t placed

theorem execLaunchAged_inv {id : Nat} : KeepsInv (execLaunchAged id s) := by
  fun_cases execLaunchAged <;> grind [State.Inv, KeepsInv]

theorem State.returnSlots_inv {b : Block} : (s.returnSlots b).Inv := hs.of_same rfl rfl

theorem State.forget_inv {blk : Nat} : (s.forget blk).Inv := hs.of_same rfl rfl

theorem execBlockRelease_inv {blk : Nat} : KeepsInv (execBlockRelease blk s) := by
  fun_cases execBlockRelease <;>
    grind [State.Inv, State.writeBackLine_inv, State.engFault_inv, State.modBlock_inv, State.logOwn_inv, State.forget_inv,
      State.returnSlots_inv, State.slotGone_inv, State.setBlock_inv, State.Inv.foldl, KeepsInv]

theorem execLaunchEnd_inv {id : Nat} : KeepsInv (execLaunchEnd id s) := by
  unfold execLaunchEnd
  grind [State.Inv, State.noteReady_inv, State.engSpots_inv, State.engFault_inv, State.logOwn_inv, State.engPrepare_inv,
    State.engCommit_inv, State.publish_inv, KeepsInv, EngRes.Inv]

/-! ## Preemption -/

theorem State.requestSave_inv {d : Nat} {which : Launch → Bool} {window : Nat} : (s.requestSave d which window).Inv := by
  fun_cases State.requestSave <;> exact hs.of_same rfl rfl

theorem State.suspend_inv {d hdr : Nat} {all : Bool} : (s.suspend d hdr all).Inv := by
  unfold State.suspend
  grind [State.Inv, State.requestSave_inv]

theorem State.resume_inv {d : Nat} {which : Launch → Bool} : (s.resume d which).Inv := hs.of_same rfl rfl

theorem execPreqSuspend_inv {die : Fin 4} {hdr : Word} {all : Bool} : KeepsInv (execPreqSuspend die hdr all s) :=
  .next (State.suspend_inv (State.wake_inv hs))

theorem execPreemptWindowEnd_inv {blk : Nat} : KeepsInv (execPreemptWindowEnd blk s) := by
  fun_cases execPreemptWindowEnd <;> grind [State.setBlock_inv, KeepsInv]

theorem State.putImage_inv {d base : Nat} {refused : List Nat} {ws : List (Nat × List Byte)} : (s.putImage d base refused ws).Inv := by
  induction ws generalizing s with
  | nil => exact hs
  | cons w ws ih => exact (State.engPut_inv hs).bind fun _ _ h => ih h

theorem execBlockSave_inv {blk : Nat} : KeepsInv (execBlockSave blk s) := by
  fun_cases execBlockSave <;>
    grind [State.Inv, State.engFault_inv, State.modBlock_inv, State.writeBackLine_inv, State.want_inv, State.logOwn_inv,
      State.putImage_inv, State.publish_inv, State.setBlock_inv, State.returnSlots_inv, State.Inv.foldl, KeepsInv, EngRes.Inv]

theorem State.rebind_inv {b : Block} : ∀ t b1, s.rebind b = some (t, b1) → t.Inv := by
  refine List.foldlRecOn (motive := fun (o : Option (State × Block)) => ∀ t b1, o = some (t, b1) → t.Inv) _ _ (fun t b1 e => ?_) fun o h e _ => ?_
  · simp_all
  · cases o with
    | none => simp
    | some p =>
      have kept : p.1.Inv := h p.1 p.2 rfl
      intro t b1 bound
      dsimp only [Option.bind_some] at bound
      split at bound
      all_goals
        obtain ⟨i, _, bound⟩ := Option.map_eq_some_iff.1 bound
        injection bound with bound
        exact bound ▸ State.setStore_inv kept

theorem State.seatSaved_inv {b : Block} {core : Nat} : ∀ t, s.seatSaved b core = some t → t.Inv := by
  fun_cases State.seatSaved
  · simp
  · intro t e
    obtain ⟨⟨u, q⟩, bound, rfl⟩ := Option.map_eq_some_iff.1 e
    exact (State.rebind_inv hs u q bound).of_same rfl rfl

theorem State.applyReach_inv {blk : Nat} : (s.applyReach blk).Inv := by
  unfold State.applyReach
  grind [State.Inv, State.releaseCopy_inv, State.Inv.foldl]

theorem State.discardLaunch_inv {id : Nat} : (s.discardLaunch id).Inv := by
  unfold State.discardLaunch
  grind [State.Inv, State.forget_inv, State.returnSlots_inv, State.noteReady_inv, State.Inv.foldl]

theorem State.seatAll_inv {bs : List Block} {core : Nat} : ∀ t, s.seatAll bs core = some t → t.Inv := by
  fun_cases State.seatAll
  · exact State.seatSaved_inv hs
  · refine List.foldlRecOn (motive := fun o => ∀ t : State, o = some t → t.Inv) _ _ (fun t e => ?_) fun o h q _ => ?_
    · exact Option.some.inj e ▸ hs
    · cases o with
      | none => simp
      | some u =>
        intro t e
        obtain ⟨c, _, seated⟩ := List.exists_of_findSome?_eq_some e
        exact State.seatSaved_inv (h u rfl) t seated

theorem State.frontTry_inv {ls : List Launch} : ∀ t l, s.frontTry ls = some (.place t l) → t.Inv := by
  fun_induction State.frontTry with
  | case1 => simp
  | case2 l ls saved act x found =>
    intro t l' placed
    rw [placed] at found
    dsimp only [act] at found
    split at found
    · simp at found
    split at found
    · obtain ⟨u, unit, e⟩ := Option.map_eq_some_iff.1 found
      injection e with e
      exact e ▸ State.placeUnit_inv hs u unit
    · simp at found
  | case3 => simp
  | case4 l ls saved act none aged ih => exact ih

theorem State.frontNext_inv {d : Nat} : ∀ t l, s.frontNext d = some (.place t l) → t.Inv := by
  fun_cases State.frontNext
  · simp
  · exact State.frontTry_inv hs

theorem execBlockPlace_inv {die : Fin 4} : KeepsInv (execBlockPlace die s) := by
  fun_cases execBlockPlace
  · next t l next more => exact (State.frontNext_inv hs t l next).of_same rfl rfl
  · exact hs

theorem execBlockRestore_inv {blk core : Nat} : KeepsInv (execBlockRestore blk core s) := by
  fun_cases execBlockRestore <;>
    grind [State.want_inv, State.discardLaunch_inv, State.logOwn_inv, State.seatAll_inv, State.put_inv, State.applyReach_inv,
      State.Inv.foldl, KeepsInv]

theorem execQuiescenceTick_inv {die : Fin 4} : KeepsInv (execQuiescenceTick die s) := by
  fun_cases execQuiescenceTick <;> grind [State.modDie_inv, KeepsInv]

/-! ## System instructions -/

theorem State.sysIssue_inv {i : Instr} {h : Head} {sps : List SrcSpec} {bad : Block → Nat → Option Bad}
    {k : Block → Ctx → Work → Out} (hk : ∀ b c w, KeepsInv (k b c w)) : KeepsInv (s.sysIssue i h sps bad k) := by
  unfold State.sysIssue
  grind [State.issue_inv, State.pass_inv, State.gated_inv, State.checked_inv, KeepsInv]

theorem State.writeLd_inv {d : Nat} {r : SysReg} {v : Word} : (s.writeLd d r v).Inv := by
  fun_cases State.writeLd <;>
    grind [State.modDie_inv, State.faultCommand_inv, State.suspend_inv, State.resume_inv, State.writeQctl_inv]

theorem State.swrLane_inv {b : Block} {l : Nat} {r : SysReg} {v : Word} : (s.swrLane b l r v).Inv := by
  fun_cases State.swrLane <;> grind [State.modBlock_inv, State.writeLd_inv]

theorem execSwr_inv {h : Head} {r : SysReg} {value : Opd} : KeepsInv (execSwr h r value s) := by
  unfold execSwr
  grind [State.Inv, State.sysIssue_inv, State.holdIssue_inv, State.setBlock_inv, State.finishOp_inv, State.swrLane_inv,
    State.pass_inv, State.Inv.foldl, KeepsInv]

theorem State.dropTlb_inv {b : Block} {op : Nat} {ranges : List (Nat × Nat)} {all : Bool} : (s.dropTlb b op ranges all).Inv :=
  State.settleDrains_inv hs

theorem execTlbx_inv {h : Head} {size : PgSize} {all : Bool} {va count : Opd} : KeepsInv (execTlbx h size all va count s) := by
  unfold execTlbx
  grind [State.Inv, State.sysIssue_inv, State.holdIssue_inv, State.setBlock_inv, State.dropTlb_inv, State.pass_inv, KeepsInv]

theorem execTrap_inv {h : Head} {code : Opd} : KeepsInv (execTrap h code s) := by
  unfold execTrap
  grind [State.sysIssue_inv, State.raise_inv, KeepsInv]

/-- TRET takes the skipped instruction from what the trap's cohort fetched, or fetches it. -/
theorem State.refetch_inv {α : Type} {o : Option α} {f : α → Fetched} {b : Block} {pc : Nat} :
    ((o.map fun e => (s, f e)).getD (s.fetch b pc)).1.Inv := by
  cases o with
  | none => exact State.fetch_inv hs
  | some e => exact hs

theorem execTret_inv {h : Head} : KeepsInv (execTret h s) := by
  refine State.issue_inv hs fun b c => .ite (State.endRun_inv hs) (State.gated_inv hs ?_)
  split
  · next f _ _ =>
    refine .ite (State.holdIssue_inv hs) ?_
    have found := State.spots_inv hs (v := b.view) (va := f.base) (n := 0x1200) (need := .read) (side := .either)
    split
    · grind [KeepsInv, State.waitFault_inv]
    · grind [KeepsInv, State.holdIssue_inv]
    · next s _ e =>
      rw [e] at found
      refine .ite (State.holdIssue_inv (State.want_inv found)) (.ite (State.trap_inv found)
        (.ite (State.wakeWaitc_inv (State.returnTrap_inv found)) ?_))
      have again := State.refetch_inv found (o := f.raised.fetched.filter (·.1 == f.raised.pc)) (f := fun e => e.2.fetched) (b := b)
        (pc := f.raised.pc)
      split <;> grind [KeepsInv, State.waitFault_inv, State.holdIssue_inv, State.wakeWaitc_inv, State.returnTrap_inv]
  · exact State.trap_inv hs

theorem execHalt_inv {h : Head} : KeepsInv (execHalt h s) := by
  unfold execHalt
  grind [State.sysIssue_inv, State.endRun_inv, State.pass_inv, State.haltDevice_inv, KeepsInv]

/-! ## Issue and completion -/

theorem State.fetchWanted_inv {ls : List Nat} : (s.fetchWanted ls).Inv := by
  fun_induction State.fetchWanted <;> grind [State.Inv, State.letIn_inv]

theorem State.settleCopies_inv : s.settleCopies.Inv := by
  unfold State.settleCopies
  grind [State.releaseCopy_inv, State.settleChannel_inv, State.Inv.foldl]

theorem State.tick_inv : s.tick.Inv := by
  unfold State.tick
  grind [State.Inv, State.timeSync_inv, State.settleCopies_inv, State.settlePosted_inv, State.fetchWanted_inv,
    State.purgeCopies_inv]

theorem State.fillPart_inv {d core part : Nat} : (s.fillPart d core part).Inv := by
  unfold State.fillPart
  grind [State.fillSlots_inv, State.Inv.foldl]

theorem State.pickPart_inv {d core part : Nat} : (s.pickPart d core part).Inv := by
  fun_cases State.pickPart <;> grind [State.Inv, State.fillPart_inv]

theorem State.settlePick_inv {d core part place blk : Nat} {cohs : List (Nat × Nat)} :
    (s.settlePick d core part place blk cohs).Inv := by
  fun_cases State.settlePick <;> grind [State.Inv, State.pickPart_inv]

theorem execIssuePick_inv {die core part : Nat} : KeepsInv (execIssuePick die core part s) := by
  fun_cases execIssuePick <;> grind [State.Inv, State.pickPart_inv, KeepsInv]

theorem execRegroupExchange_inv {blk laneA laneB : Nat} : KeepsInv (execRegroupExchange blk laneA laneB s) := by
  fun_cases execRegroupExchange <;> grind [State.Inv, State.setBlock_inv, KeepsInv]

theorem execRendezvousComplete_inv {blk rdv : Nat} : KeepsInv (execRendezvousComplete blk rdv s) := by
  fun_cases execRendezvousComplete <;> grind [State.setBlock_inv, KeepsInv]

theorem execFixedResultWrite_inv {id : Nat} : KeepsInv (execFixedResultWrite id s) := by
  fun_cases execFixedResultWrite <;> grind [State.Inv, State.modBlock_inv, KeepsInv]

theorem State.readFault_inv {d : Nat} {word : BitVec 2} {cons : Bool} {idx : Nat} : (s.readFault d word cons idx).1.Inv := by
  fun_cases State.readFault <;> grind [State.faultCommand_inv]

theorem State.readFaults_inv {d : Nat} {word : BitVec 2} {cons : Bool} {rs : List (Nat × Word)} :
    (s.readFaults d word cons rs).1.Inv := by
  fun_induction State.readFaults <;> grind [State.readFault_inv]

theorem State.readBin_inv {b : Block} {o : LongOp} {sel : BinSel} {r : Nat × BitVec 128 × Word} : (s.readBin b o sel r).Inv := by
  unfold State.readBin
  grind [EngRes.Inv.bind, State.engRead_inv, EngRes.Inv]

theorem State.longValue_inv {b : Block} {o : LongOp} : (s.longValue b o).Inv := by
  fun_cases State.longValue <;> grind [EngRes.Inv.bind, engEach_inv, State.readBin_inv, State.readFaults_inv, EngRes.Inv]

theorem execPendingTagComplete_inv {id : Nat} : KeepsInv (execPendingTagComplete id s) := by
  fun_cases execPendingTagComplete <;>
    grind [State.Inv, State.replayHld_inv, State.longValue_inv, State.engFault_inv, State.modBlock_inv, State.settleExit_inv,
      State.fillLog_inv, State.settleDrains_inv, State.finishOp_inv, State.dropLines_inv, KeepsInv, EngRes.Inv]

theorem execTrapEntry_inv {blk grp : Nat} : KeepsInv (execTrapEntry blk grp s) := by
  fun_cases execTrapEntry <;> grind [State.enterTrap_inv, State.spots_inv, State.letIn_inv, State.pushLeases_inv, KeepsInv]

end Sys2Proof.Machine
end

section
/-! PROOFS. Every step keeps both memories in canonical form (R56, R411): fabric messages. -/

namespace Sys2Proof.Machine

set_option Elab.async false

variable {s : State} (hs : s.Inv)
include hs

/-! ## Fabric messages -/

theorem State.serve_inv {m : Msg} {need : Need} {n : Nat} {k : State → List Place → Out} (hk : ∀ s ps, s.Inv → KeepsInv (k s ps)) :
    KeepsInv (s.serve m need n k) := by
  fun_cases State.serve <;>
    grind [State.exportPlaces_inv, State.wake_inv, State.answer_inv, State.logError_inv, State.recordFault_inv,
      State.deferMsg_inv, KeepsInv]

theorem State.addHolder_inv {lines : List Nat} {m : Msg} {excl : Bool} : (s.addHolder lines m excl).Inv := hs.of_same rfl rfl

theorem State.admitMsg_inv {m : Msg} {ps : List Place} {data : Option (List Byte)} {k : State → Out}
    (hk : ∀ s, s.Inv → KeepsInv (k s)) : KeepsInv (s.admitMsg m ps data k) := by
  fun_cases State.admitMsg <;> grind [State.letIn_inv, State.deferMsg_inv, KeepsInv]

theorem State.admitOwn_inv {m : Msg} {ps : List Place} {data : Option (List Byte)} {own : Holder → Bool} {k : State → Out}
    (hk : ∀ s, s.Inv → KeepsInv (k s)) : KeepsInv (s.admitOwn m ps data own k) := by
  fun_cases State.admitOwn <;> grind [State.Inv, State.letIn_inv, State.deferMsg_inv, KeepsInv]

theorem State.answerData_inv {m : Msg} {ps : List Place} {more : List Byte} : (s.answerData m ps more).Inv := State.answer_inv hs

theorem State.peerStore_inv {ps : List Place} {data : List Byte} {poison : Bool} : (s.peerStore ps data poison).Inv := by
  fun_cases State.peerStore <;> grind [State.pushLeases_inv, State.storeBytes_inv, State.setPoison_inv, State.Inv.foldl]

theorem State.acknowledge_inv {m : Msg} : (s.acknowledge m).Inv := State.answer_inv hs

theorem execReadRequest_inv {m : Msg} : KeepsInv (execReadRequest m s) := by
  unfold execReadRequest
  grind [State.receive_inv, State.serve_inv, State.admitMsg_inv, State.answerData_inv, State.addHolder_inv, KeepsInv]

theorem execReadSharedLease_inv {m : Msg} : KeepsInv (execReadSharedLease m s) := by
  unfold execReadSharedLease
  grind [State.Inv, State.receive_inv, State.serve_inv, State.admitMsg_inv, State.answerData_inv, KeepsInv]

theorem execOwnershipRequest_inv {m : Msg} : KeepsInv (execOwnershipRequest m s) := by
  unfold execOwnershipRequest
  grind [State.receive_inv, State.serve_inv, State.admitOwn_inv, State.answerData_inv, State.addHolder_inv, KeepsInv]

theorem State.writeMsg_inv {m : Msg} {n : Nat} {poison : Bool} : KeepsInv (s.writeMsg m n poison) := by
  unfold State.writeMsg
  grind [State.serve_inv, State.admitMsg_inv, State.acknowledge_inv, State.peerStore_inv, KeepsInv]

theorem execWriteBack_inv {m : Msg} : KeepsInv (execWriteBack m s) := by
  unfold execWriteBack
  grind [State.receive_inv, State.serve_inv, State.admitOwn_inv, State.acknowledge_inv, State.peerStore_inv, KeepsInv]

theorem execSendListPayload_inv {m : Msg} : KeepsInv (execSendListPayload m s) := by
  unfold execSendListPayload
  grind [State.receive_inv, State.writeMsg_inv]

theorem execRemoteStamp_inv {m : Msg} : KeepsInv (execRemoteStamp m s) := by
  unfold execRemoteStamp
  grind [State.receive_inv, State.writeMsg_inv]

theorem execSyncAccessAtHome_inv {m : Msg} : KeepsInv (execSyncAccessAtHome m s) := by
  unfold execSyncAccessAtHome
  grind [State.receive_inv, State.serve_inv, State.admitMsg_inv, State.publish_inv, State.answer_inv, State.peerStore_inv,
    State.acknowledge_inv, KeepsInv]

theorem State.yieldLine_inv {m : Msg} : (s.yieldLine m).Inv := by
  fun_cases State.yieldLine <;> grind [State.wake_inv, State.giveBack_inv, State.acknowledge_inv, State.dropCopies_inv]

theorem execInvalidation_inv {m : Msg} : KeepsInv (execInvalidation m s) := by
  unfold execInvalidation
  grind [State.receive_inv, State.yieldLine_inv, KeepsInv]

theorem execRevocation_inv {m : Msg} : KeepsInv (execRevocation m s) := by
  unfold execRevocation
  grind [State.receive_inv, State.yieldLine_inv, KeepsInv]

theorem execPush_inv {m : Msg} : KeepsInv (execPush m s) := by
  unfold execPush
  grind [State.Inv, State.receive_inv, State.wake_inv, State.acknowledge_inv, KeepsInv]

theorem State.dropRequest_inv {r : Request} : (s.dropRequest r).Inv := hs.of_same rfl rfl

theorem State.servedLane_inv {r : Request} {acc lane : Nat} {f : State → Access → LaneAcc → State × LaneAcc}
    (hf : ∀ s a x, s.Inv → (f s a x).1.Inv) : (s.servedLane r acc lane f).Inv := by
  fun_cases State.servedLane <;> grind [State.afterLane_inv, State.setLane_inv]

theorem State.engGot_inv {who pos off : Nat} {r : List Byte × Bool} : (s.engGot who pos off r).Inv := hs.of_same rfl rfl

theorem State.holdCopy_inv {r : RemoteLine} : (s.holdCopy r).Inv := hs.of_same rfl rfl

theorem State.engCame_inv {r : Request} {m : Msg} {who pos off : Nat} : (s.engCame r m who pos off).Inv := by
  fun_cases State.engCame <;> exact hs.of_same rfl rfl

theorem State.ownGot_inv {r : Request} {m : Msg} {a : Access} {x : LaneAcc} : (s.ownGot r m a x).1.Inv := by
  fun_cases State.ownGot <;> grind [State.holdCopy_inv, State.sendMsg_inv, State.lostLane_inv, State.ask_inv]

theorem State.unasked_inv {line pos die : Nat} : (s.unasked line pos die).Inv := hs.of_same rfl rfl

theorem State.loseRequest_inv {r : Request} : (s.loseRequest r).Inv := by
  fun_cases State.loseRequest <;>
    grind [State.Inv, State.dropRequest_inv, State.servedLane_inv, State.lostLane_inv, State.engGot_inv, State.unasked_inv]

theorem State.homeAck_inv {m : Msg} : (s.homeAck m).Inv := by
  unfold State.homeAck
  grind [State.Inv, State.modDie_inv, State.Inv.foldl]

theorem State.backDone_inv {inval : Option Msg} : (s.backDone inval).Inv := by
  fun_cases State.backDone <;> grind [State.acknowledge_inv]

theorem execAcknowledgement_inv {m : Msg} : KeepsInv (execAcknowledgement m s) := by
  unfold execAcknowledgement
  grind [State.receive_inv, State.homeAck_inv, State.dropRequest_inv, State.servedLane_inv, State.engGot_inv,
    State.backDone_inv, KeepsInv]

theorem execDataReply_inv {m : Msg} : KeepsInv (execDataReply m s) := by
  refine State.receive_inv hs fun s h => ?_
  split
  · exact h
  next r _ =>
    have dropped := State.dropRequest_inv h (r := r)
    refine .next ?_
    dsimp only
    split
    · refine State.servedLane_inv dropped fun s a x h => ?_
      split
      · exact State.ownGot_inv h
      cases copyOf r m with
      | none => exact .ite (State.acquireAt_inv h) h
      | some c => exact State.holdCopy_inv (.ite (State.acquireAt_inv h) h)
    · exact State.engCame_inv dropped
    all_goals exact dropped

theorem execErrorReply_inv {m : Msg} : KeepsInv (execErrorReply m s) := by
  unfold execErrorReply
  grind [State.Inv, State.receive_inv, State.dropRequest_inv, State.servedLane_inv, State.logOwn_inv, State.engGot_inv,
    State.backDone_inv, State.unasked_inv, KeepsInv]

theorem execLeaseExpire_inv {line : Nat} {pos : BitVec 4} : KeepsInv (execLeaseExpire line pos s) := .next (hs.of_same rfl rfl)

theorem State.joinAt_inv {t : Nat} : (s.joinAt t).Inv := by
  fun_cases State.joinAt <;> exact hs.of_same rfl rfl

theorem execTimeExchange_inv {m : Msg} : KeepsInv (execTimeExchange m s) := by
  unfold execTimeExchange
  grind [State.receive_inv, State.measure_inv, State.joinAt_inv, State.answer_inv, KeepsInv]

theorem execFabricMessageDiscard_inv {die : Fin 4} {m : Msg} : KeepsInv (execFabricMessageDiscard die m s) :=
  .next (.ite (State.discardMsg_inv hs) hs)

theorem State.dropBroken_inv : s.dropBroken.Inv := by
  unfold State.dropBroken
  refine State.Inv.foldl ?_ (fun s r h => State.loseRequest_inv ?_) _
  · exact hs.of_same rfl rfl
  cases s.onBroken r with
  | none => exact h
  | some q => exact State.markBreak_inv h

theorem State.loseMsg_inv {m : Msg} : (s.loseMsg m).Inv := by
  fun_cases State.loseMsg <;> grind [State.loseRequest_inv]

theorem State.reroute_inv {m : Msg} {tried : List Nat} : (s.reroute m tried).Inv := by
  fun_cases State.reroute <;> grind [State.Inv, State.loseMsg_inv]

theorem execChordReview_inv : KeepsInv (execChordReview s) := by
  unfold execChordReview
  grind [State.Inv, State.reroute_inv, State.Inv.foldl, KeepsInv]

theorem execChordRelay_inv {m : Msg} : KeepsInv (execChordRelay m s) := by
  fun_cases execChordRelay <;> grind [State.Inv, KeepsInv]

theorem execChordReturn_inv {m : Msg} : KeepsInv (execChordReturn m s) := by
  fun_cases execChordReturn <;> grind [State.reroute_inv, KeepsInv]

theorem execRequestTimeout_inv {id : Nat} : KeepsInv (execRequestTimeout id s) := by
  unfold execRequestTimeout
  split
  · exact hs
  · exact State.Inv.ite (State.dropBroken_inv (State.loseRequest_inv hs)) hs

theorem execPairKeyEpoch_inv {pos : BitVec 4} : KeepsInv (execPairKeyEpoch pos s) := .next (.ite (State.modPeer_inv hs) hs)

theorem State.loseRequests_inv {hit : Request → Bool} : (s.loseRequests hit).Inv := by
  unfold State.loseRequests
  grind [State.dropBroken_inv, State.loseRequest_inv, State.Inv.foldl]

theorem State.settleMaster_inv : s.settleMaster.Inv := hs.of_same rfl rfl

theorem State.discardLines_inv {pos : Nat} : (s.discardLines pos).Inv := by
  unfold State.discardLines
  grind [State.Inv, State.logError_inv, State.Inv.foldl]

theorem State.losePeer_inv {pos : Nat} : (s.losePeer pos).Inv := by
  unfold State.losePeer
  grind [State.Inv, State.loseRequests_inv, State.discardLines_inv, State.modPeer_inv, State.settleMaster_inv]

theorem State.freeHolder_inv {pos : Nat} : (s.freeHolder pos).Inv := hs.of_same rfl rfl

theorem execPeerLost_inv {pos : BitVec 4} : KeepsInv (execPeerLost pos s) := .next (.ite (State.losePeer_inv hs) hs)

theorem execDepartureMessage_inv {pos : BitVec 4} : KeepsInv (execDepartureMessage pos s) := by
  fun_cases execDepartureMessage <;> grind [State.Inv, State.freeHolder_inv, State.losePeer_inv, State.modPeer_inv, KeepsInv]

theorem execLinkBringUp_inv {pos : BitVec 4} {groups : List (Fin 16)} : KeepsInv (execLinkBringUp pos groups s) := by
  fun_cases execLinkBringUp <;> grind [State.Inv, State.settleMaster_inv, State.freeHolder_inv, KeepsInv]

end Sys2Proof.Machine
end

section
/-! PROOFS. Every step keeps both memories in canonical form (R56, R411): host, power and link events. -/

namespace Sys2Proof.Machine

set_option Elab.async false

variable {s : State} (hs : s.Inv)
include hs

/-! ## Host and management function -/

theorem State.hostAbort_inv {a : Nat} : (s.hostAbort a).Inv := hs.of_same rfl rfl

theorem State.deferHost_inv {i : Instr} : (s.deferHost i).Inv := by
  fun_cases State.deferHost <;> exact hs.of_same rfl rfl

theorem State.endHost_inv : s.endHost.Inv := hs.of_same rfl rfl

theorem execHostRead_inv {addr n : Nat} : KeepsInv (execHostRead addr n s) := by
  fun_cases execHostRead <;>
    grind [State.Inv, State.hostAbort_inv, State.endHost_inv, State.letIn_inv, State.deferHost_inv, State.publish_inv, KeepsInv]

theorem execHostWrite_inv {addr : Nat} {body : List Byte} : KeepsInv (execHostWrite addr body s) := by
  fun_cases execHostWrite <;>
    grind [State.Inv, State.hostAbort_inv, State.endHost_inv, State.deferHost_inv, State.letIn_inv, State.peerStore_inv,
      KeepsInv]

theorem execBackInvalidateResponse_inv {line : Nat} : KeepsInv (execBackInvalidateResponse line s) := .next (hs.of_same rfl rfl)

theorem State.dropHalves_inv {gone : Nat → Bool} : (s.dropHalves gone).Inv := by
  unfold State.dropHalves
  grind [State.dropHalf_inv, State.Inv.foldl]

theorem State.unfilter_inv {gone : Nat → Bool} : (s.unfilter gone).Inv := by
  unfold State.unfilter
  grind [State.Inv, State.setHalf_inv, State.Inv.foldl]

theorem execHostSnoop_inv {iod : Fin 2} {line : Nat} {kind : SnoopKind} : KeepsInv (execHostSnoop iod line kind s) := by
  fun_cases execHostSnoop <;> grind [State.Inv, State.unfilter_inv, State.setHalf_inv, KeepsInv]

theorem execSpdmMeasurement_inv : KeepsInv (execSpdmMeasurement s) := .next (hs.of_same rfl rfl)

theorem State.dropHostLines_inv {d : Nat} : (s.dropHostLines d).Inv := by
  unfold State.dropHostLines
  grind [State.leaveHalf_inv, State.Inv.foldl]

theorem State.clearLd_inv {d : Nat} : (s.clearLd d).Inv := by
  unfold State.clearLd
  grind [State.Inv, State.forget_inv, State.returnSlots_inv, State.Inv.foldl]

theorem State.resetLd_inv {d : Nat} : (s.resetLd d).Inv := by
  unfold State.resetLd
  grind [State.modDie_inv, State.clearLd_inv, State.dropHostLines_inv]

theorem State.unhalt_inv {d : Nat} : (s.unhalt d).Inv := hs.of_same rfl rfl

theorem State.mgmtLd_inv {d cmd : Nat} : (s.mgmtLd d cmd).Inv := by
  fun_cases State.mgmtLd <;> grind [State.wake_inv, State.unhalt_inv, State.logOwn_inv, State.modDie_inv, State.resetLd_inv]

theorem execLdResume_inv {die : Fin 4} : KeepsInv (execLdResume die s) := .next (.ite (State.mgmtLd_inv hs) hs)

theorem execLdReset_inv {die : Fin 4} : KeepsInv (execLdReset die s) := .next (.ite (State.mgmtLd_inv hs) hs)

theorem State.quiesceGo_inv : s.quiesceGo.Inv := by
  fun_cases State.quiesceGo <;> grind [State.Inv, State.suspend_inv, State.giveUp_inv, State.dropHalves_inv, State.Inv.foldl]

theorem State.start_inv {b : Boot} : (s.start b).Inv := hs.of_same rfl rfl

theorem State.measured_inv {ks : List Nat} : (s.measured ks).Inv := hs.of_same rfl rfl

theorem State.train_inv {warm : Bool} {lo n : Nat} : (s.train warm lo n).Inv := hs.of_same rfl rfl

theorem State.startFails_inv {b : Boot} : (s.startFails b).Inv := hs.of_same rfl rfl

theorem State.startStep_inv {b : Boot} : (s.startStep b).Inv := by
  unfold State.startStep
  extract_lets done
  have kept : ∀ t k, t.Inv → (done t k).Inv := fun _ _ h => h.of_same rfl rfl
  split
  · have cleared := hs.foldl (f := fun s d => (s.dropHostLines d).clearLd d)
      (fun _ _ h => State.clearLd_inv (State.dropHostLines_inv h)) (List.range 4)
    exact .ite (kept _ _ (State.measured_inv cleared)) (State.startFails_inv cleared)
  · exact .ite (kept _ _ (State.measured_inv hs)) (State.startFails_inv hs)
  · exact kept _ _ (hs.of_same rfl rfl)
  · exact kept _ _ (State.train_inv hs)
  · exact kept _ _ (.ite hs ⟨rfl, hs.2⟩)
  · exact kept _ _ (hs.of_same rfl rfl)
  · exact kept _ _ (State.train_inv hs)
  · exact kept _ _ hs
  · exact kept _ _ (hs.of_same rfl rfl)
  · refine State.start_inv (kept _ _ ?_)
    exact hs.of_same rfl rfl

theorem State.startBegins_inv {b : Boot} {images : List Image} : (s.startBegins b images).Inv := hs.of_same rfl rfl

theorem State.startEvent_inv {warm sref : Bool} {dies : BitVec 4} {images : List Image} :
    (s.startEvent warm sref dies images).Inv := by
  fun_cases State.startEvent <;> grind [State.startStep_inv, State.startBegins_inv]

theorem State.bootCommand_inv {warm sref : Bool} : (s.bootCommand warm sref).Inv := hs.of_same rfl rfl

theorem execFabDropClear_inv : KeepsInv (execFabDropClear s) := .next (.ite (hs.of_same rfl rfl) hs)

theorem State.pwrTarget_inv {d : Nat} {t : BitVec 2} : (s.pwrTarget d t).Inv := State.wake_inv hs

theorem State.writeKvmap_inv {half : Nat} {v : Word} : (s.writeKvmap half v).Inv := hs.of_same rfl rfl

theorem State.writeMgmt_inv {off : Nat} {v : Word} : (s.writeMgmt off v).Inv := by
  unfold State.writeMgmt
  extract_lets n
  split
  · exact .ite (State.settleMaster_inv (hs.of_same rfl rfl)) (hs.of_same rfl rfl)
  · exact .ite (State.writeKvmap_inv hs) hs
  · exact .ite (State.writeKvmap_inv hs) hs
  · exact .ite (State.bootCommand_inv hs) (.ite (State.bootCommand_inv hs) hs)
  · exact hs.of_same rfl rfl
  · exact hs.of_same rfl rfl
  · exact .ite (hs.of_same rfl rfl) hs
  · exact hs.of_same rfl rfl
  · exact .ite (State.quiesceGo_inv hs) hs
  · exact .ite (.ite (State.mgmtLd_inv hs) hs) (.ite (.ite (State.pwrTarget_inv hs) hs) hs)

theorem execRegisterWrite_inv {port : RegPort} {off : Nat} {value : Word} : KeepsInv (execRegisterWrite port off value s) := by
  fun_cases execRegisterWrite <;> grind [State.writeLd_inv, State.wake_inv, State.writeMgmt_inv, KeepsInv]

theorem State.faultEvent_inv {d i act : Nat} : (s.faultEvent d i act).Inv := by
  fun_cases State.faultEvent <;> grind [State.faultCommand_inv, State.wake_inv]

/-! ## Power -/

theorem execPwrTargetD0_inv {die : Fin 4} : KeepsInv (execPwrTargetD0 die s) := .next (.ite (State.pwrTarget_inv hs) hs)

theorem execPwrTargetD1_inv {die : Fin 4} : KeepsInv (execPwrTargetD1 die s) := .next (.ite (State.pwrTarget_inv hs) hs)

theorem execPwrTargetD2_inv {die : Fin 4} : KeepsInv (execPwrTargetD2 die s) := .next (.ite (State.pwrTarget_inv hs) hs)

theorem execPowerStateEnter_inv {die : Fin 4} : KeepsInv (execPowerStateEnter die s) := by
  unfold execPowerStateEnter
  grind [State.modDie_inv, State.dropHostLines_inv, KeepsInv]

theorem execThermalTrip_inv {die : Fin 4} : KeepsInv (execThermalTrip die s) := by
  unfold execThermalTrip
  grind [State.Inv, State.haltDevice_inv, State.logOwn_inv, State.dropHalves_inv, State.Inv.foldl, KeepsInv]

theorem execPwrtelUpdate_inv {die : Fin 4} {temp power : BitVec 16} : KeepsInv (execPwrtelUpdate die temp power s) := by
  unfold execPwrtelUpdate
  grind [State.Inv, State.modDie_inv, KeepsInv]

theorem execPowerCapThrottle_inv : KeepsInv (execPowerCapThrottle s) := .next (hs.of_same rfl rfl)

theorem execPatrolScrub_inv {die : Fin 4} : KeepsInv (execPatrolScrub die s) := .next hs

theorem State.poisonAt_inv {p : ErrPlace} : (s.poisonAt p).Inv := by
  fun_cases State.poisonAt <;> grind [State.setPoison_inv, State.setStore_inv]

theorem execMemoryError_inv {die : Fin 4} {uncorrectable : Bool} {place : ErrPlace} :
    KeepsInv (execMemoryError die uncorrectable place s) := by
  unfold execMemoryError
  grind [State.logOwn_inv, State.poisonAt_inv, KeepsInv]

theorem State.loseHalf_inv {d l : Nat} : (s.loseHalf d l).Inv := by
  fun_cases State.loseHalf <;> grind [State.Inv, State.logOwn_inv, State.setHalf_inv, State.leaveHalf_inv]

theorem execSupplyReset_inv {die : Fin 4} : KeepsInv (execSupplyReset die s) := by
  unfold execSupplyReset
  grind [State.Inv, State.loseHalf_inv, State.modDie_inv, State.clearLd_inv, State.Inv.foldl, KeepsInv]

/-! ## Links -/

theorem State.modKg_inv {k : Nat} {f : PortGroup → PortGroup} : (s.modKg k f).Inv := hs.of_same rfl rfl

theorem State.turnBack_inv {m : Msg} : (s.turnBack m).Inv := by
  fun_cases State.turnBack <;> grind [State.Inv, State.reroute_inv]

theorem State.loseGroup_inv {k : Nat} : (s.loseGroup k).Inv := by
  fun_cases State.loseGroup <;>
    grind [State.Inv, State.modKg_inv, State.modPeer_inv, State.loseRequests_inv, State.turnBack_inv, State.Inv.foldl]

theorem State.settleGroup_inv {k : Nat} : (s.settleGroup k).Inv := by
  fun_cases State.settleGroup <;> grind [State.loseGroup_inv]

theorem State.retrain_inv {k p : Nat} : (s.retrain k p).Inv := hs.of_same rfl rfl

theorem execPortFailing_inv {kg : Fin 16} {port : Fin 9} : KeepsInv (execPortFailing kg port s) :=
  .next (.ite (State.retrain_inv hs) (.ite (State.modKg_inv hs) hs))

theorem execRetrainComplete_inv {kg : Fin 16} : KeepsInv (execRetrainComplete kg s) := by
  fun_cases execRetrainComplete <;> grind [State.modKg_inv, KeepsInv]

theorem execRetrainWindowEnd_inv {kg : Fin 16} : KeepsInv (execRetrainWindowEnd kg s) := by
  fun_cases execRetrainWindowEnd <;> grind [State.settleGroup_inv, State.modKg_inv, KeepsInv]

theorem State.portDown_inv {k p : Nat} : (s.portDown k p).Inv := by
  fun_cases State.portDown <;> grind [State.settleGroup_inv, State.modKg_inv, State.retrain_inv]

theorem execPortSignalLoss_inv {kg : Fin 16} {port : Fin 9} : KeepsInv (execPortSignalLoss kg port s) := by
  fun_cases execPortSignalLoss <;> grind [State.portDown_inv, State.settleGroup_inv, State.modKg_inv, KeepsInv]

theorem execPortSilenceTimeout_inv {kg : Fin 16} {port : Option (Fin 9)} : KeepsInv (execPortSilenceTimeout kg port s) := by
  refine .ite hs ?_
  split
  · exact State.Inv.ite (State.portDown_inv hs) hs
  · exact State.loseGroup_inv hs

theorem execHostLinkDrop_inv {iod : Fin 2} : KeepsInv (execHostLinkDrop iod s) := by
  unfold execHostLinkDrop
  grind [State.Inv, State.logOwn_inv, State.unfilter_inv, State.Inv.foldl, KeepsInv]

end Sys2Proof.Machine
end

section
/-! PROOFS. Every step keeps both memories in canonical form (R56, R411): the table of instructions and a step. -/

namespace Sys2Proof.Machine

set_option Elab.async false

variable {s : State} (hs : s.Inv)
include hs

/-! ## What the device does by itself -/

theorem State.ownPick_inv : s.ownPick.1.Inv := by
  fun_cases State.ownPick <;> grind [State.tick_inv]

theorem State.own_inv : s.own.1.Inv := by
  unfold State.own
  grind [State.Inv, State.ownPick_inv]

theorem State.decodeTrap_inv {b : Block} {k : Cohort} {code : Code} {sc : Scope} {illegal : Bool} :
    ∀ t, s.decodeTrap b k code sc illegal = some t → t.Inv := by
  fun_cases State.decodeTrap <;> grind [State.trap_inv]

theorem State.fetchOnce_inv {b : Block} {k : Cohort} : (s.fetchOnce b k).1.Inv := by
  fun_cases State.fetchOnce <;> grind [State.fetch_inv]

theorem State.keepFetched_inv {b : Block} {k : Cohort} {i : Instr} {len : Nat} : (s.keepFetched b k i len).Inv := hs.of_same rfl rfl

theorem State.issueOf_inv {b : Block} {k : Cohort} : (s.issueOf b k).Inv := by
  have fetched := State.fetchOnce_inv hs (b := b) (k := k)
  unfold State.issueOf
  split
  · next e =>
    rw [e] at fetched
    exact State.modBlock_inv (State.recordFault_inv fetched)
  · next e =>
    rw [e] at fetched
    exact State.holdIssue_inv fetched
  · next t len sc e =>
    rw [e] at fetched
    show ((t.decodeTrap b k (.illegal len sc) sc true).getD t).Inv
    cases trapped : t.decodeTrap b k (.illegal len sc) sc true with
    | none => exact fetched
    | some u => exact State.decodeTrap_inv fetched u trapped
  · next e =>
    rw [e] at fetched
    split
    · next u trapped => exact State.decodeTrap_inv fetched u trapped
    · exact State.keepFetched_inv fetched

/-! ## A step -/

theorem exec_inv {i : Instr} : KeepsInv (exec i s) := by
  delta exec
  cases i <;> dsimp only
  case runend | br | exit | yield => exact State.terminate_inv hs
  case brc => exact execBrc_inv hs
  case brx | ret => exact State.transfer_inv hs
  case call => exact execCall_inv hs
  case bar => exact execBar_inv hs
  case waitc => exact execWaitc_inv hs
  case waitm => exact execWaitm_inv hs
  case regroup => exact execRegroup_inv hs
  case chkpt => exact execChkpt_inv hs
  case setd => exact execSetd_inv hs
  case nop => exact execNop_inv hs
  case iadd | isub | imul | imulh | imin | imax | iaddPacked | isubPacked | iminPacked | imaxPacked => exact State.int2_inv hs
  case iaddc | imad | icmp | sel | mov | bfi | plop | prmb | imac2 | shrr | isat | fcmp | frnd | fdot2 | sclc | pmake | pget |
      tagq => exact State.alu_inv hs
  case imadw => exact execImadw_inv hs
  case iabs | ineg | popc | clz | ctz | brev => exact State.int1_inv hs
  case movk => exact execMovk_inv hs
  case srd => exact execSrd_inv hs
  case shl | shr | sar | rol | bfx => exact State.pat2_inv hs
  case and | or | xor | andn => exact State.logic_inv hs
  case idot4 => exact execIdot4_inv hs
  case fadd | fsub | fmul | ffma => exact State.flt_inv hs
  case fmin | fmax => exact State.fltSel_inv hs
  case fabs | fneg | fclass => exact State.fltBits_inv hs
  case frcp | frsq | fsqrt | fexp2 | flog2 | fsin | fcos | ftanh => exact State.special1_inv hs
  case cvt | cvtf8 | pack6 | pack4 | unpk => exact State.convert_inv hs
  case amax => exact execAmax_inv hs
  case shuf => exact execShuf_inv hs
  case slide => exact execSlide_inv hs
  case bcast => exact execBcast_inv hs
  case perm => exact execPerm_inv hs
  case vote | match_ | eqmask | rank => exact State.cross_inv hs
  case redux => exact execRedux_inv hs
  case scan => exact execScan_inv hs
  case ld | st | atom | cas => exact State.memIssue_inv hs
  case psub | pchk => exact State.aluChk_inv hs
  case pwiden | pnarrow => exact State.respan_inv hs
  case subscr | upgr => exact State.register_inv hs
  case tclaim => exact execTclaim_inv hs
  case trel => exact execTrel_inv hs
  case tld => exact execTld_inv hs
  case tst | tdrain => exact State.transferIssue_inv hs
  case tzero => exact execTzero_inv hs
  case mmq => exact execMmq_inv hs
  case mms => exact execMms_inv hs
  case twin => exact execTwin_inv hs
  case tflag => exact execTflag_inv hs
  case hld => exact execHld_inv hs
  case hset => exact execHset_inv hs
  case hget => exact execHget_inv hs
  case copy | copyx => exact State.copyIssue_inv hs
  case copyw | binrd | time | fltrd | qsc => exact State.engLong_inv hs
  case bin => exact execBin_inv hs
  case sendl => exact execSendl_inv hs
  case launch => exact State.appendIssue_inv hs
  case release => exact execRelease_inv hs
  case trap => exact execTrap_inv hs
  case tret => exact execTret_inv hs
  case swr => exact execSwr_inv hs
  case tlbx => exact execTlbx_inv hs
  case halt => exact execHalt_inv hs
  case issuePick => exact execIssuePick_inv hs
  case cohortPromote => exact State.modBlock_inv hs
  case regroupExchange => exact execRegroupExchange_inv hs
  case fixedResultWrite => exact execFixedResultWrite_inv hs
  case pendingTagComplete => exact execPendingTagComplete_inv hs
  case rendezvousComplete => exact execRendezvousComplete_inv hs
  case trapEntry => exact execTrapEntry_inv hs
  case accessPerformed => exact execAccessPerformed_inv hs
  case waitmReread => exact execWaitmReread_inv hs
  case blockRelease => exact execBlockRelease_inv hs
  case scratchpadFill => exact execScratchpadFill_inv hs
  case scratchpadWriteback => exact execScratchpadWriteback_inv hs
  case memoryActionClose => exact execMemoryActionClose_inv hs
  case slotReturn => exact execSlotReturn_inv hs
  case copyAccept => exact execCopyAccept_inv hs
  case copyStamp => exact execCopyStamp_inv hs
  case patch => exact State.patchHandle_inv hs
  case matrixGrant => exact execMatrixGrant_inv hs
  case matrixPassWrite => exact execMatrixPassWrite_inv hs
  case tileTransferComplete => exact execTileTransferComplete_inv hs
  case binOpenPerform => exact execBinOpenPerform_inv hs
  case binItemPerform => exact execBinItemPerform_inv hs
  case binClosePerform => exact execBinClosePerform_inv hs
  case sendEntryAccept => exact execSendEntryAccept_inv hs
  case sendEntryComplete => exact execSendEntryComplete_inv hs
  case headerRead => exact execHeaderRead_inv hs
  case blockPlace => exact execBlockPlace_inv hs
  case launchAged => exact execLaunchAged_inv hs
  case launchEnd => exact execLaunchEnd_inv hs
  case queueEnable => exact execQueueEnable_inv hs
  case queueTeardown => exact execQueueTeardown_inv hs
  case pageWalkComplete => exact execPageWalkComplete_inv hs
  case faultSignalDelayed => exact execFaultSignalDelayed_inv hs
  case quiescenceTick => exact execQuiescenceTick_inv hs
  case fltsvcConsume | fltsvcServiced | fltsvcRefused | fltsvcIgnored => exact State.faultEvent_inv hs
  case preqSuspend => exact execPreqSuspend_inv hs
  case preqResume | dieWake => exact State.wake_inv hs
  case preemptWindowEnd => exact execPreemptWindowEnd_inv hs
  case blockSave => exact execBlockSave_inv hs
  case blockRestore => exact execBlockRestore_inv hs
  case readRequest => exact execReadRequest_inv hs
  case readSharedLease => exact execReadSharedLease_inv hs
  case ownershipRequest => exact execOwnershipRequest_inv hs
  case writeBack => exact execWriteBack_inv hs
  case invalidation => exact execInvalidation_inv hs
  case acknowledgement => exact execAcknowledgement_inv hs
  case dataReply => exact execDataReply_inv hs
  case errorReply => exact execErrorReply_inv hs
  case push => exact execPush_inv hs
  case revocation => exact execRevocation_inv hs
  case sendListPayload => exact execSendListPayload_inv hs
  case remoteStamp => exact execRemoteStamp_inv hs
  case syncAccessAtHome => exact execSyncAccessAtHome_inv hs
  case timeExchange => exact execTimeExchange_inv hs
  case fabricMessageDiscard => exact execFabricMessageDiscard_inv hs
  case chordReview => exact execChordReview_inv hs
  case requestTimeout => exact execRequestTimeout_inv hs
  case leaseExpire => exact execLeaseExpire_inv hs
  case timeSyncTick => exact State.timeSync_inv hs
  case hostRead => exact execHostRead_inv hs
  case hostWrite => exact execHostWrite_inv hs
  case hostSnoop => exact execHostSnoop_inv hs
  case backInvalidateResponse => exact execBackInvalidateResponse_inv hs
  case spdmMeasurement => exact execSpdmMeasurement_inv hs
  case coldStart | warmStart => exact State.startEvent_inv hs
  case fabDropClear => exact execFabDropClear_inv hs
  case quiesce => exact State.quiesceGo_inv hs
  case ldResume => exact execLdResume_inv hs
  case ldReset => exact execLdReset_inv hs
  case pwrTargetD0 => exact execPwrTargetD0_inv hs
  case pwrTargetD1 => exact execPwrTargetD1_inv hs
  case pwrTargetD2 => exact execPwrTargetD2_inv hs
  case powerStateEnter => exact execPowerStateEnter_inv hs
  case thermalThrottle => exact State.modDie_inv hs
  case thermalTrip => exact execThermalTrip_inv hs
  case pwrtelUpdate => exact execPwrtelUpdate_inv hs
  case patrolScrub => exact execPatrolScrub_inv hs
  case memoryError => exact execMemoryError_inv hs
  case portFailing => exact execPortFailing_inv hs
  case retrainComplete => exact execRetrainComplete_inv hs
  case retrainWindowEnd => exact execRetrainWindowEnd_inv hs
  case portSignalLoss => exact execPortSignalLoss_inv hs
  case portSilenceTimeout => exact execPortSilenceTimeout_inv hs
  case peerLost => exact execPeerLost_inv hs
  case hostLinkDrop => exact execHostLinkDrop_inv hs
  case supplyReset => exact execSupplyReset_inv hs
  case registerWrite => exact execRegisterWrite_inv hs
  case linkBringUp => exact execLinkBringUp_inv hs
  case departureMessage => exact execDepartureMessage_inv hs
  case chordRelay => exact execChordRelay_inv hs
  case chordReturn => exact execChordReturn_inv hs
  case pairKeyEpoch => exact execPairKeyEpoch_inv hs
  case powerCapThrottle => exact execPowerCapThrottle_inv hs

theorem State.stepCohort_inv {b : Block} {k : Cohort} : KeepsInv (s.stepCohort b k) := by
  have issued := State.issueOf_inv hs (b := b) (k := k)
  unfold State.stepCohort
  split
  · next e => exact (e ▸ issued : (Issued.stop _).Inv)
  · next i c t e =>
    rw [e] at issued
    refine exec_inv ?_
    exact State.Inv.of_same issued rfl rfl

theorem step_inv : KeepsInv (step s) := by
  unfold step
  split
  · extract_lets t
    have kept : t.Inv := hs.of_same rfl rfl
    split
    · exact kept
    split
    · exact kept
    · exact State.stepCohort_inv kept
  · extract_lets t
    have kept : t.Inv := hs.of_same rfl rfl
    split
    · exact kept
    split
    · exact kept
    · refine exec_inv ?_
      exact kept.of_same rfl rfl
  · refine .next (State.settlePick_inv ?_)
    exact hs.of_same rfl rfl
  · have own := State.own_inv hs
    split
    · refine exec_inv ?_
      exact hs.of_same rfl rfl
    split
    · next e =>
      rw [e] at own
      exact exec_inv own
    · next e =>
      rw [e] at own
      exact own

omit hs in
/-- Settles O39: memory is written by `State.writeByte` alone, which keeps the canonical form, and cleared by a cold start. -/
theorem stepKeepsMemoryForm : Obligations.StepKeepsMemoryForm := by
  unfold Obligations.StepKeepsMemoryForm
  intro s t hs stepped
  have kept := step_inv hs
  rw [stepped] at kept
  exact kept

end Sys2Proof.Machine
end

section
/-! PROOFS. What decode reads is what encode writes: fields, codes, operands, and the words decode accepts (R103 to R108, R121, R125). -/

namespace Sys2Proof

/-! ## Bit fields of a modifier -/

/-- Bits of a concatenation that lie in its high part. -/
theorem extract_append_hi {n m : Nat} (x : BitVec n) (y : BitVec m) {s l : Nat} (h : m ≤ s) :
    (no_index (x ++ y)).extractLsb' s l = x.extractLsb' (s - m) l := extract_hi x y s l h

/-- Bits of a concatenation that lie in its low part. -/
theorem extract_append_lo {n m : Nat} (x : BitVec n) (y : BitVec m) {s l : Nat} (h : s + l ≤ m) :
    (no_index (x ++ y)).extractLsb' s l = y.extractLsb' s l := extract_lo x y s l h

/-- No bit of `m` is set outside `mask` (R108). -/
def Within {n : Nat} (m mask : BitVec n) : Prop := m &&& ~~~mask = 0#n

theorem within_iff {n : Nat} {m mask : BitVec n} : Within m mask ↔ ∀ i, m.getLsbD i = true → mask.getLsbD i = true := by
  rw [Within, BitVec.eq_of_getLsbD_eq_iff]
  constructor
  · intro h i hm
    have := h i (BitVec.lt_of_getLsbD hm)
    simpa [hm, BitVec.lt_of_getLsbD hm] using this
  · intro h i hi
    simpa [hi] using h i

theorem within_append {n m : Nat} (x : BitVec n) (y : BitVec m) (k : BitVec (n + m)) :
    Within (no_index (x ++ y)) k ↔ Within x (k.extractLsb' m n) ∧ Within y (k.extractLsb' 0 m) := by
  simp only [within_iff, BitVec.getLsbD_append, BitVec.getLsbD_extractLsb']
  constructor
  · intro h
    constructor
    · intro i hx
      have := h (m + i) (by simpa using hx)
      simp [this, BitVec.lt_of_getLsbD hx]
    · intro i hy
      have := h i (by simp [hy, BitVec.lt_of_getLsbD hy])
      simp [this, BitVec.lt_of_getLsbD hy]
  · rintro ⟨hx, hy⟩ i hi
    split at hi
    · simpa [*] using hy i hi
    · have := hx (i - m) hi
      rw [Bool.and_eq_true, Nat.add_sub_cancel' (by omega)] at this
      exact this.2

theorem within_zero {n : Nat} (mask : BitVec n) : Within 0#n mask := BitVec.zero_and
theorem within_allOnes {n : Nat} (x : BitVec n) : Within x (BitVec.allOnes n) := by simp [Within]

/-- A modifier within a mask is zero in every gap of the mask. -/
theorem within_iff_gaps {n : Nat} {m mask : BitVec n} :
    Within m mask ↔ ∀ s l, mask.extractLsb' s l = 0#l → m.extractLsb' s l = 0#l := by
  rw [within_iff]
  constructor
  · intro h s l gap
    apply BitVec.eq_of_getLsbD_eq
    intro i hi
    have clear := congrArg (·.getLsbD i) gap
    simp only [BitVec.getLsbD_extractLsb', hi, decide_true, Bool.true_and, BitVec.getLsbD_zero] at clear ⊢
    exact Bool.eq_false_iff.2 fun set => by simp [h _ set] at clear
  · intro h i set
    refine by_contra fun clear => ?_
    have gap := h i 1 (BitVec.eq_of_getLsbD_eq fun j hj => by simp_all)
    have := congrArg (·.getLsbD 0) gap
    simp [set] at this

/-- The bits of `m` from bit `s` up are `x`. -/
def HoldsAt {n w : Nat} (m : BitVec n) (s : Nat) (x : BitVec w) : Prop := m.extractLsb' s w = x

theorem holdsAt_append {n k l : Nat} (m : BitVec n) (s : Nat) (x : BitVec k) (y : BitVec l) :
    HoldsAt m s (no_index (x ++ y)) ↔ HoldsAt m (s + l) x ∧ HoldsAt m s y := by
  have cut : m.extractLsb' (s + l) k ++ m.extractLsb' s l = m.extractLsb' s (k + l) :=
    BitVec.extractLsb'_append_extractLsb'_eq_extractLsb' rfl
  unfold HoldsAt
  rw [← cut]
  constructor
  · intro h
    have hx := congrArg (·.extractLsb' l k) h
    have hy := congrArg (·.extractLsb' 0 l) h
    simp only [BitVec.extractLsb'_append_eq_left, BitVec.extractLsb'_append_eq_right] at hx hy
    exact ⟨hx, hy⟩
  · rintro ⟨rfl, rfl⟩
    rfl

theorem eq_ofNat_of_toNat {w n : Nat} {c : BitVec w} (h : c.toNat = n) : c = BitVec.ofNat w n := by
  rw [← h, BitVec.ofNat_toNat, BitVec.setWidth_eq]

theorem ofBool_flag (b : BitVec 1) : BitVec.ofBool (flag b) = b := by revert b; decide

/-! ## Codes of the enumerations -/

/-- A reading that undoes the codes, and gives nothing but them, reads a value from its own code alone. -/
theorem reads_code_iff {n : Nat} {α : Type} {read : BitVec n → Option α} {code : α → BitVec n} (back : ∀ t, read (code t) = some t)
    (all : ∀ c, ((read c).all fun t => code t == c) = true) {c : BitVec n} {t : α} : read c = some t ↔ c = code t := by
  constructor
  · intro h
    have := all c
    rw [h] at this
    exact (eq_of_beq this).symm
  · rintro rfl
    exact back t

theorem Scope.ofCode_code (t : Scope) : Scope.ofCode t.code = some t := by cases t <;> rfl
theorem RM.ofCode_code (t : RM) : RM.ofCode t.code = some t := by cases t <;> rfl
theorem IRel.ofCode_code (t : IRel) : IRel.ofCode t.code = some t := by cases t <;> rfl
theorem FRel.ofCode_code (t : FRel) : FRel.ofCode t.code = some t := by cases t <;> rfl
theorem WRel.ofCode_code (t : WRel) : WRel.ofCode t.code = some t := by cases t <;> rfl
theorem Ctr.ofCode_code (t : Ctr) : Ctr.ofCode t.code = some t := by cases t <;> rfl
theorem SReg.ofCode_code (t : SReg) : SReg.ofCode t.code = some t := by cases t <;> rfl
theorem Width.ofCode_code (t : Width) : Width.ofCode t.code = some t := by cases t <;> rfl
theorem ClassSel.ofCode_code (t : ClassSel) : ClassSel.ofCode t.code = some t := by cases t <;> rfl
theorem ShufVar.ofCode_code (t : ShufVar) : ShufVar.ofCode t.code = some t := by cases t <;> rfl
theorem VoteVar.ofCode_code (t : VoteVar) : VoteVar.ofCode t.code = some t := by cases t <;> rfl
theorem Span.ofCode_code (t : Span) : Span.ofCode t.code = some t := by cases t <;> rfl
theorem RedOp.ofCode_code (t : RedOp) : RedOp.ofCode t.code = some t := by cases t <;> rfl
theorem AOp.ofCode_code (t : AOp) : AOp.ofCode t.code = some t := by cases t <;> rfl
theorem NReg.ofCode_code (t : NReg) : NReg.ofCode t.code = some t := by cases t <;> rfl
theorem PField.ofCode_code (t : PField) : PField.ofCode t.code = some t := by cases t <;> rfl
theorem ClaimKind.ofCode_code (t : ClaimKind) : ClaimKind.ofCode t.code = some t := by cases t <;> rfl
theorem BinOp.ofCode_code (t : BinOp) : BinOp.ofCode t.code = some t := by cases t <;> rfl
theorem BinSel.ofCode_code (t : BinSel) : BinSel.ofCode t.code = some t := by cases t <;> rfl
theorem PgSize.ofCode_code (t : PgSize) : PgSize.ofCode t.code = some t := by cases t <;> rfl
theorem SysReg.ofCode_code (t : SysReg) : SysReg.ofCode t.code = some t := by
  cases t with
  | q n => revert n; decide
  | _ => rfl

section
variable {c2 : BitVec 2} {c3 : BitVec 3} {c4 : BitVec 4}
theorem Scope.ofCode_eq_some {t : Scope} : Scope.ofCode c2 = some t ↔ c2 = t.code := reads_code_iff ofCode_code (by decide)
theorem RM.ofCode_eq_some {t : RM} : RM.ofCode c3 = some t ↔ c3 = t.code := reads_code_iff ofCode_code (by decide)
theorem IRel.ofCode_eq_some {t : IRel} : IRel.ofCode c3 = some t ↔ c3 = t.code := reads_code_iff ofCode_code (by decide)
theorem FRel.ofCode_eq_some {t : FRel} : FRel.ofCode c3 = some t ↔ c3 = t.code := reads_code_iff ofCode_code (by decide)
theorem WRel.ofCode_eq_some {t : WRel} : WRel.ofCode c3 = some t ↔ c3 = t.code := reads_code_iff ofCode_code (by decide)
theorem Ctr.ofCode_eq_some {t : Ctr} : Ctr.ofCode c3 = some t ↔ c3 = t.code := reads_code_iff ofCode_code (by decide)
theorem Width.ofCode_eq_some {t : Width} : Width.ofCode c3 = some t ↔ c3 = t.code := reads_code_iff ofCode_code (by decide)
theorem ClassSel.ofCode_eq_some {t : ClassSel} : ClassSel.ofCode c3 = some t ↔ c3 = t.code := reads_code_iff ofCode_code (by decide)
theorem ShufVar.ofCode_eq_some {t : ShufVar} : ShufVar.ofCode c3 = some t ↔ c3 = t.code := reads_code_iff ofCode_code (by decide)
theorem VoteVar.ofCode_eq_some {t : VoteVar} : VoteVar.ofCode c3 = some t ↔ c3 = t.code := reads_code_iff ofCode_code (by decide)
theorem Span.ofCode_eq_some {t : Span} : Span.ofCode c2 = some t ↔ c2 = t.code := reads_code_iff ofCode_code (by decide)
theorem RedOp.ofCode_eq_some {t : RedOp} : RedOp.ofCode c3 = some t ↔ c3 = t.code := reads_code_iff ofCode_code (by decide)
theorem AOp.ofCode_eq_some {t : AOp} : AOp.ofCode c4 = some t ↔ c4 = t.code := reads_code_iff ofCode_code (by decide)
theorem NReg.ofCode_eq_some {t : NReg} : NReg.ofCode c2 = some t ↔ c2 = t.code := reads_code_iff ofCode_code (by decide)
theorem PField.ofCode_eq_some {t : PField} : PField.ofCode c4 = some t ↔ c4 = t.code := reads_code_iff ofCode_code (by decide)
theorem ClaimKind.ofCode_eq_some {t : ClaimKind} : ClaimKind.ofCode c2 = some t ↔ c2 = t.code := reads_code_iff ofCode_code (by decide)
theorem BinOp.ofCode_eq_some {t : BinOp} : BinOp.ofCode c2 = some t ↔ c2 = t.code := reads_code_iff ofCode_code (by decide)
theorem BinSel.ofCode_eq_some {t : BinSel} : BinSel.ofCode c2 = some t ↔ c2 = t.code := reads_code_iff ofCode_code (by decide)
theorem PgSize.ofCode_eq_some {t : PgSize} : PgSize.ofCode c2 = some t ↔ c2 = t.code := reads_code_iff ofCode_code (by decide)
theorem Tag.ofCode_eq_some {t : Tag} : Tag.ofCode c4 = some t ↔ c4 = t.code := reads_code_iff tag_code (by decide)
theorem SReg.ofCode_eq_some {c : BitVec 8} {t : SReg} : SReg.ofCode c = some t ↔ c = t.code := reads_code_iff ofCode_code (by decide)
theorem SysReg.ofCode_eq_some {c : BitVec 7} {t : SysReg} : SysReg.ofCode c = some t ↔ c = t.code := reads_code_iff ofCode_code (by decide)
end

/-- Of a format list in which two names may share a code, the reading gives the name that is not barred. -/
theorem reads_code_iff_of {n : Nat} {α : Type} {read : BitVec n → Option α} {code : α → BitVec n} {p : α → Bool}
    (back : ∀ t, p t = true → read (code t) = some t) (all : ∀ c, ((read c).all fun t => code t == c && p t) = true)
    {c : BitVec n} {t : α} : read c = some t ↔ c = code t ∧ p t = true := by
  constructor
  · intro h
    have e := all c
    rw [h, Option.all_some, Bool.and_eq_true] at e
    exact ⟨(eq_of_beq e.1).symm, e.2⟩
  · rintro ⟨rfl, h⟩
    exact back t h

/-- The codes 13 to 15 of an element format name no tag (R114). -/
def EFmt.named : EFmt → Bool
  | .tag t => t.isElem
  | _ => true

theorem MFmt.ofCode_code (t : MFmt) (h : t.ok = true) : MFmt.ofCode t.code = some t := by
  cases t with
  | tag t => cases t <;> first | rfl | cases h
  | _ => rfl
theorem EFmt.ofCode_code (t : EFmt) (h : t.named = true) : EFmt.ofCode t.code = some t := by
  cases t with
  | tag t => cases t <;> first | rfl | cases h
  | _ => rfl
theorem optTagOfCode_code (t : Option Tag) (h : (t != some .poison) = true) : optTagOfCode (optTagCode t) = some t := by
  cases t with
  | some t => cases t <;> first | rfl | cases h
  | none => rfl

theorem MFmt.ofCode_eq_some {c : BitVec 4} {t : MFmt} : MFmt.ofCode c = some t ↔ c = t.code ∧ t.ok = true :=
  reads_code_iff_of ofCode_code (by decide)
theorem EFmt.ofCode_eq_some {c : BitVec 4} {t : EFmt} : EFmt.ofCode c = some t ↔ c = t.code ∧ t.named = true :=
  reads_code_iff_of ofCode_code (by decide)
theorem optTagOfCode_eq_some {c : BitVec 4} {t : Option Tag} :
    optTagOfCode c = some t ↔ c = optTagCode t ∧ (t != some .poison) = true :=
  reads_code_iff_of optTagOfCode_code (by decide)

theorem vOfCode_code (n : Fin 192) : vOfCode (BitVec.ofNat 8 n.val) = some n := by
  have e : n.val % 256 = n.val := Nat.mod_eq_of_lt (by omega)
  simp [vOfCode, e]
theorem vOfCode_eq_some {c : BitVec 8} {n : Fin 192} : vOfCode c = some n ↔ c = BitVec.ofNat 8 n.val := by
  constructor
  · intro h
    unfold vOfCode at h
    split at h <;> cases h
    exact eq_ofNat_of_toNat rfl
  · rintro rfl
    exact vOfCode_code n

/-! ## Operands and their literals -/

/-- The literal words that an operand code brings (R106). -/
def litWords (c : BitVec 8) (l : BitVec 64) : List (BitVec 32) :=
  if c = 250#8 then [l.setWidth 32] else if c = 251#8 then [l.extractLsb' 0 32, l.extractLsb' 32 32] else []

theorem litWords_of_ne {c : BitVec 8} (h1 : c ≠ 250#8) (h2 : c ≠ 251#8) (l : BitVec 64) : litWords c l = [] := by
  rw [litWords, if_neg h1, if_neg h2]

theorem takeLit_split {c : BitVec 8} {ws r : List (BitVec 32)} {l : BitVec 64} (h : takeLit c ws = some (l, r)) :
    ws = litWords c l ++ r := by
  unfold takeLit at h
  split_ifs at h with h1 h2
  · subst h1
    split at h <;> cases h
    simp [litWords]
  · subst h2
    split at h <;> cases h
    simp [litWords, extract_append_hi, extract_append_lo]
  · cases h
    rw [litWords_of_ne h1 h2, List.nil_append]

/-- A literal matters to a code that names one alone. -/
theorem Opd.ofCode_of_ne {c : BitVec 8} (h1 : c ≠ 250#8) (h2 : c ≠ 251#8) (l : BitVec 64) : Opd.ofCode c l = Opd.ofCode c 0 := by
  have n1 : c.toNat ≠ 250 := fun e => h1 (eq_ofNat_of_toNat e)
  have n2 : c.toNat ≠ 251 := fun e => h2 (eq_ofNat_of_toNat e)
  simp only [Opd.ofCode, if_neg n1, if_neg n2]

theorem Opd.code_ne {o : Opd} (h : o.isLit = false) : o.code ≠ 250#8 ∧ o.code ≠ 251#8 := by
  cases o with
  | v n | q n | y n | x n | k n =>
    constructor <;>
    · intro e
      have := congrArg BitVec.toNat e
      simp only [Opd.code, BitVec.toNat_ofNat] at this
      omega
  | lit32 l | lit64 l => cases h
  | zero | lane => decide

theorem Opd.words_of_not_lit {o : Opd} (h : o.isLit = false) : o.words = [] := by cases o <;> first | rfl | cases h

/-- The operand a code reads is the one whose code and literal words stand there (R105, R106). -/
theorem Opd.ofCode_eq_some {c : BitVec 8} {l : BitVec 64} {o : Opd} : Opd.ofCode c l = some o ↔ c = o.code ∧ litWords c l = o.words := by
  constructor
  · intro h
    have register (small : c.toNat < 250) : litWords c l = [] :=
      litWords_of_ne (fun e => absurd small (by rw [e]; decide)) (fun e => absurd small (by rw [e]; decide)) l
    unfold Opd.ofCode at h
    dsimp only at h
    split_ifs at h <;> cases h
    case pos.refl => exact ⟨eq_ofNat_of_toNat rfl, register (by omega)⟩
    case pos.refl | pos.refl | pos.refl | pos.refl => exact ⟨eq_ofNat_of_toNat (by dsimp only; omega), register (by omega)⟩
    all_goals
      rename_i hc
      cases eq_ofNat_of_toNat hc
      exact ⟨rfl, rfl⟩
  · rintro ⟨rfl, hw⟩
    cases lit : o.isLit with
    | false =>
      obtain ⟨h1, h2⟩ := Opd.code_ne lit
      rw [Opd.ofCode_of_ne h1 h2, ofCode_reg o (Opd.words_of_not_lit lit)]
    | true =>
      cases o with
      | lit32 x => simp_all [litWords, Opd.code, Opd.words, Opd.ofCode]
      | lit64 x =>
        obtain ⟨lo, hi⟩ : l.extractLsb' 0 32 = x.extractLsb' 0 32 ∧ l.extractLsb' 32 32 = x.extractLsb' 32 32 := by
          simpa [litWords, Opd.code, Opd.words] using hw
        rw [← word_of_halves l, lo, hi, word_of_halves]
        rfl
      | _ => cases lit

/-! ## What decode reads -/

/-- The base word of a head, an opcode, a modifier and four operand fields. -/
def Head.word (h : Head) (op : BitVec 9) (mod : BitVec 14) (d a b c : BitVec 8) : Base :=
  { h.base op mod with dst := d, a := a, b := b, c := c }

section
variable (h : Head) (op : BitVec 9) (mod : BitVec 14) (d a b c : BitVec 8)
theorem Head.word_op : (h.word op mod d a b c).op = op := rfl
theorem Head.word_mod : (h.word op mod d a b c).mod = mod := rfl
theorem Head.word_dst : (h.word op mod d a b c).dst = d := rfl
theorem Head.word_a : (h.word op mod d a b c).a = a := rfl
theorem Head.word_b : (h.word op mod d a b c).b = b := rfl
theorem Head.word_c : (h.word op mod d a b c).c = c := rfl
theorem Head.word_class : (h.word op mod d a b c).class_ = op.extractLsb' 6 3 := rfl
theorem Head.word_offset_dst : (h.word op mod d a b c).offset.extractLsb' 16 8 = d :=
  (extract_append_hi _ b (by decide)).trans ((extract_append_hi d a (by decide)).trans (extract_all d))
theorem Head.word_offset_a : (h.word op mod d a b c).offset.extractLsb' 8 8 = a :=
  (extract_append_hi _ b (by decide)).trans ((extract_append_lo d a (by decide)).trans (extract_all a))
theorem Head.word_offset_b : (h.word op mod d a b c).offset.extractLsb' 0 8 = b :=
  (extract_append_lo _ b (by decide)).trans (extract_all b)
end

theorem word_of_ofBase {g : Base} {h : Head} (hh : Head.ofBase g = some h) : h.word g.op g.mod g.dst g.a g.b g.c = g := by
  rcases g with ⟨op, sc, st, pn, pr, d, a, b, c, m⟩
  obtain ⟨s, hs, rfl⟩ := Option.map_eq_some_iff.1 hh
  obtain rfl : sc = s.code := Scope.ofCode_eq_some.1 hs
  have hp := ofBool_flag pn
  simp only [Head.word, Head.base, hp]

/-- The codes of the source fields that may name literals: none in a form without operands there (R106, R109). -/
def Base.litA (g : Base) : BitVec 8 := if g.noLits then 0#8 else g.a
def Base.litB (g : Base) : BitVec 8 := if g.noLits then 0#8 else g.b
def Base.litC (g : Base) : BitVec 8 := if g.noLits || g.awaits then 0#8 else g.c

/-- The instruction that a base word names where its row allows its unread fields (R108, R121). -/
def Base.reads (g : Base) (h : Head) (od oa ob oc : Option Opd) : Option Instr :=
  (rowOf g h od oa ob oc).bind fun r => if g.unreadOk r.used r.mask then r.instr else none

theorem unreadOk_iff {g : Base} {u : BitVec 4} {m : BitVec 14} : g.unreadOk u m = true ↔
    (u.getLsbD 3 = true ∨ g.dst = 252#8) ∧ (u.getLsbD 2 = true ∨ g.a = 252#8) ∧ (u.getLsbD 1 = true ∨ g.b = 252#8) ∧
      (u.getLsbD 0 = true ∨ g.c = 252#8) ∧ Within g.mod m := by
  simp [Base.unreadOk, Within, and_assoc]

/-- The same from the words after the base word, with the words left after its literals (R106). -/
def Base.readsFrom (g : Base) (h : Head) (ws : List (BitVec 32)) : Option (Instr × List (BitVec 32)) :=
  (takeLit g.litA ws).bind fun x => (takeLit g.litB x.2).bind fun y => (takeLit g.litC y.2).bind fun z =>
    (g.reads h (Opd.ofCode g.dst 0) (Opd.ofCode g.a x.1) (Opd.ofCode g.b y.1) (Opd.ofCode g.c z.1)).map fun i => (i, z.2)

/-- Decode accepts the words whose opcode is assigned and whose fields and literals name a well-formed instruction. -/
theorem decodeWords_eq_ok {w0 w1 : BitVec 32} {rest : List (BitVec 32)} {i : Instr} {n : Nat} {g : Base} (hg : Base.ofWord (w1 ++ w0) = g) :
    decodeWords (w0 :: w1 :: rest) = .ok (i, n) ↔ g.assigned = true ∧ ∃ h r,
      Head.ofBase g = some h ∧ g.readsFrom h rest = some (i, r) ∧ i.wf = true ∧ n = 2 + (rest.length - r.length) := by
  subst hg
  constructor
  · intro h
    unfold decodeWords at h
    dsimp only at h
    by_cases assigned : (!(Base.ofWord (w1 ++ w0)).assigned) = true
    · rw [if_pos assigned] at h
      cases h
    rw [if_neg assigned] at h
    split at h
    · cases h
    next la r1 ha =>
    split at h
    · cases h
    next lb r2 hb =>
    split at h
    · cases h
    next lc r3 hc =>
    split at h
    · cases h
    next hd hh =>
    split at h
    · cases h
    next row hrow =>
    split at h
    · next hu =>
      split at h
      · cases h
      next j hj =>
      split_ifs at h with ok
      cases h
      refine ⟨by simpa using assigned, hd, r3, hh, ?_, ok, rfl⟩
      simp only [Base.readsFrom, Base.litA, Base.litB, Base.litC, ha, hb, hc, Base.reads, hrow, hu, hj, if_true, Option.bind_some,
        Option.map_some]
    · cases h
  · rintro ⟨assigned, hd, r, hh, hr, ok, rfl⟩
    simp only [Base.readsFrom, Option.bind_eq_some_iff, Option.map_eq_some_iff] at hr
    obtain ⟨⟨la, r1⟩, ha, ⟨lb, r2⟩, hb, ⟨lc, r3⟩, hc, j, hj, he⟩ := hr
    cases he
    obtain ⟨row, hrow, hi⟩ := Option.bind_eq_some_iff.1 hj
    split_ifs at hi with hu
    unfold Base.litA at ha
    unfold Base.litB at hb
    unfold Base.litC at hc
    simp only [decodeWords, assigned, ha, hb, hc, hh, hrow, hu, hi, ok, Bool.not_true, Bool.false_eq_true, if_false, if_true]

/-! ## Encoding what decode reads -/

/-- An instruction stands in a base word, its literals in some words. -/
def Instr.StandsIn (i : Instr) (g : Base) (ws : List (BitVec 32)) : Prop :=
  ∃ lits, i.fields = some (g, lits) ∧ lits.flatMap Opd.words = ws

/-- The literal words of the source fields of a base word, in their order (R106). -/
def Base.literals (g : Base) (la lb lc : BitVec 64) : List (BitVec 32) :=
  litWords g.litA la ++ (litWords g.litB lb ++ litWords g.litC lc)

theorem Head.standsIn {h : Head} {op : BitVec 9} {mod mod' : BitVec 14} {d a b c d' a' b' c' : BitVec 8} {lits : List Opd}
    {ws : List (BitVec 32)} {i : Instr} (hf : i.fields = some (h.word op mod' d' a' b' c', lits)) (hm : HoldsAt mod 0 mod')
    (hd : d' = d ∧ a' = a ∧ b' = b ∧ c' = c) (hl : lits.flatMap Opd.words = ws) : i.StandsIn (h.word op mod d a b c) ws := by
  obtain rfl : mod = mod' := (extract_all mod).symm.trans hm
  obtain ⟨rfl, rfl, rfl, rfl⟩ := hd
  exact ⟨lits, hf, hl⟩

/-- Where an instruction is read, it stands in the base word and the words. -/
def StandsIfRead (g : Base) (ws : List (BitVec 32)) (r : Option Instr) : Prop := ∀ i, r = some i → i.StandsIn g ws

section
variable {g : Base} {ws : List (BitVec 32)}
theorem standsIfRead_none : StandsIfRead g ws none := by simp [StandsIfRead]
theorem standsIfRead_some {i : Instr} : StandsIfRead g ws (some i) ↔ i.StandsIn g ws := by simp [StandsIfRead]
theorem standsIfRead_bind {α : Type} {x : Option α} {f : α → Option Instr} :
    StandsIfRead g ws (x.bind f) ↔ ∀ t, x = some t → StandsIfRead g ws (f t) := by
  simp only [StandsIfRead, Option.bind_eq_some_iff, forall_exists_index, and_imp]
  exact ⟨fun h t ht i hi => h i t ht hi, fun h i t ht hi => h t ht i hi⟩
theorem standsIfRead_ite {p : Prop} [Decidable p] {x : Option Instr} :
    StandsIfRead g ws (if p then x else none) ↔ (p → StandsIfRead g ws x) := by
  split_ifs <;> simp [*, standsIfRead_none]
end

/-- An opcode is its class above its number in the class (R125). -/
theorem op_eq {op : BitVec 9} {k s : Nat} (hk : (op.extractLsb' 6 3).toNat = k) (hs : (op.extractLsb' 0 6).toNat = s) :
    op = BitVec.ofNat 9 (64 * k + s) := by
  apply eq_ofNat_of_toNat
  have := op.isLt
  rw [BitVec.extractLsb'_toNat, Nat.shiftRight_eq_div_pow] at hk hs
  omega

theorem litWords_zero (l) : litWords 0#8 l = [] := rfl
theorem litWords_252 (l) : litWords 252#8 l = [] := rfl
theorem ofNat_toFin {n : Nat} (x : BitVec n) : BitVec.ofNat n x.toFin.val = x := by simp
theorem setWidth_three {x : BitVec 8} (h : x.toNat < 8) : (x.setWidth 3).setWidth 8 = x := by
  apply BitVec.eq_of_toNat_eq
  simp only [BitVec.toNat_setWidth]
  omega

/-- R104 to R106, R108: what a row of the tables reads stands in the base word it reads. A row fixes the opcode and, by its mask, the
modifier bits that no field of it reads; each field it reads holds the code of what it reads there. -/
theorem reads_standsIn (h : Head) (op : BitVec 9) (mod : BitVec 14) (d a b c : BitVec 8) (la lb lc : BitVec 64) :
    StandsIfRead (h.word op mod d a b c) ((h.word op mod d a b c).literals la lb lc)
      ((h.word op mod d a b c).reads h (Opd.ofCode d 0) (Opd.ofCode a la) (Opd.ofCode b lb) (Opd.ofCode c lc)) := by
  unfold Base.reads rowOf
  split
  case' h_8 n0 n1 n2 n3 n4 n5 n6 =>
    have hk : (h.word op mod d a b c).class_.toNat = 7 := by
      have := (h.word op mod d a b c).class_.isLt
      simp only [imp_false] at n0 n1 n2 n3 n4 n5 n6
      omega
    clear n0 n1 n2 n3 n4 n5 n6
  all_goals
    rename_i hk
    simp only [rowControl, rowInteger, rowPacked, rowFloat, rowConvert, rowCrossLane, rowMemory, rowEngine]
    split
  any_goals exact standsIfRead_none
  all_goals
    rw [Option.bind_some, standsIfRead_ite]
    rename_i hk _ hs
    obtain rfl := op_eq hk hs
    simp only [unreadOk_iff, within_iff_gaps, Head.word_mod, Head.word_dst, Head.word_a, Head.word_b, Head.word_c,
      standsIfRead_bind, standsIfRead_some, standsIfRead_ite, Option.bind_eq_bind, Option.pure_def,
      Opd.ofCode_eq_some, Tag.ofCode_eq_some, RM.ofCode_eq_some, IRel.ofCode_eq_some, FRel.ofCode_eq_some, WRel.ofCode_eq_some,
      Ctr.ofCode_eq_some, Width.ofCode_eq_some, ClassSel.ofCode_eq_some, ShufVar.ofCode_eq_some, VoteVar.ofCode_eq_some,
      Span.ofCode_eq_some, RedOp.ofCode_eq_some, AOp.ofCode_eq_some, NReg.ofCode_eq_some, PField.ofCode_eq_some,
      ClaimKind.ofCode_eq_some, BinOp.ofCode_eq_some, BinSel.ofCode_eq_some, PgSize.ofCode_eq_some, SReg.ofCode_eq_some,
      SysReg.ofCode_eq_some, MFmt.ofCode_eq_some, EFmt.ofCode_eq_some, optTagOfCode_eq_some, vOfCode_eq_some,
      BitVec.reduceGetLsb, true_or, false_or, true_and, Bool.false_eq_true, BitVec.ofNat_eq_ofNat, and_imp, beq_iff_eq,
      ↓Bool.and_eq_true, ↓decide_eq_true_eq]
    intros
    subst_vars
    refine Head.standsIn rfl ?_ ?_ ?_
    · simp only [↓holdsAt_append, HoldsAt, *, ofBool_flag, ofNat_toFin, and_self, Nat.reduceAdd, BitVec.reduceExtractLsb'] <;> rfl
    · simp only [Head.base, Head.word_offset_dst, Head.word_offset_a, Head.word_offset_b, setWidth_three, and_self, *]
    · simp only [*, Base.literals, Base.litA, Base.litB, Base.litC, Base.noLits, Base.awaits, Head.word_class, Head.word_op, Head.word_a,
        Head.word_b, Head.word_c, List.flatMap_cons, List.flatMap_nil, List.append_nil, List.nil_append, litWords_252, litWords_zero,
        BitVec.reduceBEq, BitVec.reduceBNe, BitVec.reduceExtractLsb', Bool.or_self, Bool.or_false, Bool.or_true, Bool.and_true,
        Bool.true_and, Bool.false_eq_true, if_false, if_true, Nat.reduceMul, Nat.reduceAdd]

theorem stands_of_readsFrom {g : Base} {h : Head} {ws r : List (BitVec 32)} {i : Instr} (hh : Head.ofBase g = some h)
    (hr : g.readsFrom h ws = some (i, r)) : ∃ lits, i.StandsIn g lits ∧ ws = lits ++ r := by
  rw [← word_of_ofBase hh] at hr ⊢
  simp only [Base.readsFrom, Option.bind_eq_some_iff, Option.map_eq_some_iff] at hr
  obtain ⟨⟨la, r1⟩, ha, ⟨lb, r2⟩, hb, ⟨lc, r3⟩, hc, j, hj, he⟩ := hr
  cases he
  dsimp only at ha hb hc
  refine ⟨_, reads_standsIn h g.op g.mod g.dst g.a g.b g.c la lb lc i hj, ?_⟩
  rw [takeLit_split ha, takeLit_split hb, takeLit_split hc, Base.literals, List.append_assoc, List.append_assoc]

theorem Instr.StandsIn.encode_eq {g : Base} {ws : List (BitVec 32)} {i : Instr} (h : i.StandsIn g ws) :
    i.encode = g.toWord.extractLsb' 0 32 :: g.toWord.extractLsb' 32 32 :: ws := by
  obtain ⟨lits, hf, hl⟩ := h
  simp only [Instr.encode, hf, hl]

theorem toWord_ofWord (w : BitVec 64) : (Base.ofWord w).toWord = w := by
  have fields : HoldsAt w 0 (Base.ofWord w).toWord := by
    simp only [Base.toWord, Base.ofWord, holdsAt_append, Nat.reduceAdd]
    simp only [HoldsAt, and_self]
  rw [← fields, extract_all]

theorem encode_length_le_of_short {i : Instr} (h : (i.fields.all fun f => decide (f.2.length ≤ 2)) = true) : i.encode.length ≤ 6 := by
  cases hf : i.fields with
  | none => simp [Instr.encode, hf]
  | some f =>
    rw [hf] at h
    exact (Laws.encode_length_short hf (of_decide_eq_true h)).2

/-- R104: six words at most; only the operands of three sources may be three literals. -/
theorem encode_length_le {i : Instr} (ok : i.wf = true) : i.encode.length ≤ 6 := by
  cases i with
  | imad h f s o => exact (Laws.Encoded.imad h f s o ok).2
  | imadw h f hi s o => exact (Laws.Encoded.imadw h f hi s o ok).2
  | bfi h f o => exact (Laws.Encoded.bfi h f o ok).2
  | prmb h o => exact (Laws.Encoded.prmb h o ok).2
  | imac2 h o => exact (Laws.Encoded.imac2 h o ok).2
  | idot4 h f s o => exact (Laws.Encoded.idot4 h f s o ok).2
  | shrr h f o => exact (Laws.Encoded.shrr h f o ok).2
  | ffma h f rm o => exact (Laws.Encoded.ffma h f rm o ok).2
  | fdot2 h rm o => exact (Laws.Encoded.fdot2 h rm o ok).2
  | pack4 h sf rm p o => exact (Laws.Encoded.pack4 h sf rm p o ok).2
  | slide h f w o => exact (Laws.Encoded.slide h f w o ok).2
  | perm h f w o => exact (Laws.Encoded.perm h f w o ok).2
  | st h f n ptr off data => exact (Laws.Encoded.st h f n ptr off data ok).2
  | atom h f op tg d ptr off c => exact (Laws.Encoded.atom h f op tg d ptr off c ok).2
  | cas h f pr tg d ptr off e => exact (Laws.Encoded.cas h f pr tg d ptr off e ok).2
  | pchk h st o => exact (Laws.Encoded.pchk h st o ok).2
  | subscr h a b c => exact (Laws.Encoded.subscr h a b c ok).2
  | upgr h a b c => exact (Laws.Encoded.upgr h a b c ok).2
  | tld h f hr ptr off slot => exact (Laws.Encoded.tld h f hr ptr off slot ok).2
  | tst h hr ptr off slot => exact (Laws.Encoded.tst h hr ptr off slot ok).2
  | tdrain h f hr ptr off slot => exact (Laws.Encoded.tdrain h f hr ptr off slot ok).2
  | mmq h f ty tx bh a b c => exact (Laws.Encoded.mmq h f ty tx bh a b c ok).2
  | mms h f ty tx bh a b c => exact (Laws.Encoded.mms h f ty tx bh a b c ok).2
  | copy h d ptr off w => exact (Laws.Encoded.copy h d ptr off w ok).2
  | copyx h d ptr off w => exact (Laws.Encoded.copyx h d ptr off w ok).2
  | bin h op ptr key item => exact (Laws.Encoded.bin h op ptr key item ok).2
  | sendl h ptr src w => exact (Laws.Encoded.sendl h ptr src w ok).2
  | _ => exact encode_length_le_of_short rfl

/-- Settles O41: what decode reads stands, literals included, in the words it read, and nothing stands between. -/
theorem encodeWritesDecode : Obligations.EncodeWritesDecode := by
  unfold Obligations.EncodeWritesDecode
  intro ws i n hd
  match ws, hd with
  | w0 :: w1 :: rest, hd =>
    obtain ⟨-, h, r, hh, hr, ok, rfl⟩ := (decodeWords_eq_ok rfl).1 hd
    obtain ⟨lits, stands, rfl⟩ := stands_of_readsFrom hh hr
    have he := stands.encode_eq
    rw [toWord_ofWord, extract_lo _ _ _ _ (by decide), extract_hi _ _ _ _ (by decide), extract_all, extract_all] at he
    have bound := encode_length_le ok
    have len : 2 + ((lits ++ r).length - r.length) = i.encode.length := by simp [he]; omega
    rw [len]
    refine ⟨ok, rfl, ?_, bound, ?_, ?_⟩
    all_goals simp [he]

/-- Settles O42: the three words, one after the other, run through decode. -/
theorem decodedWords : Obligations.DecodedWords := by
  unfold Obligations.DecodedWords
  have ld : decodeWords [0x3EBF0C00, 0xC001C502, 0x40] =
      .ok (.ld ⟨.lane, 0, false, 7⟩ (.tag .e4m3) .one 0 (.v 20) (.v 8) (.lit32 0x40), 3) := rfl
  have brc : decodeWords [0xFC024400, 0x0181FFFF] = .ok (.brc ⟨.lane, 0, false, 7⟩ 0xFFFFF0 0x09 false 1, 2) := rfl
  have ffma : decodeWords [0x01418100, 0x6195C781] = .ok (.ffma ⟨.lane, 5, false, 7⟩ .fp32 .rup ⟨.v 30, .v 4, .v 5, .v 6⟩, 2) := rfl
  exact ⟨ld, brc, ffma⟩

end Sys2Proof
end

section
/-! PROOFS. Decode reads back the encoding of every well-formed instruction (R103 to R106, R125); the assigned opcodes (R121, R122). -/

namespace Sys2Proof

/-! ## Literals and offsets -/

theorem within_of_eq_allOnes {n : Nat} {mask : BitVec n} (x : BitVec n) (h : mask = BitVec.allOnes n) : Within x mask :=
  h ▸ within_allOnes x

theorem takeLit_zero (ws) : takeLit 0#8 ws = some (0, ws) := rfl
theorem takeLit_252 (ws) : takeLit 252#8 ws = some (0, ws) := rfl
theorem Opd.isLit_iff {o : Opd} : (o.code = 250#8 ∨ o.code = 251#8) ↔ o.isLit = true := by
  constructor
  · intro h
    cases lit : o.isLit with
    | true => rfl
    | false => simp [Opd.code_ne lit] at h
  · intro lit
    cases o <;> first | exact .inl rfl | exact .inr rfl | cases lit

theorem dstOk_of_lit {h : Head} {o : Opd} (lit : o.isLit = true) : dstOk h o = false := by cases o <;> first | rfl | cases lit
theorem longDstOk_of_lit {h : Head} {o : Opd} (lit : o.isLit = true) : longDstOk h o = false := by cases o <;> first | rfl | cases lit
theorem ptrOk_of_lit {h : Head} {o : Opd} (lit : o.isLit = true) : ptrOk h o = false := by cases o <;> first | rfl | cases lit
theorem evenV_of_lit {o : Opd} (lit : o.isLit = true) : evenV o = false := by cases o <;> first | rfl | cases lit
theorem quadV_of_lit {o : Opd} (lit : o.isLit = true) : quadV o = false := by cases o <;> first | rfl | cases lit
theorem nregOk_of_lit {o : Opd} (lit : o.isLit = true) (n : NReg) (f : MFmt) : nregOk n f false o = false := by
  cases n
  · rfl
  · exact evenV_of_lit lit
  · exact quadV_of_lit lit
theorem casOk_of_lit {h : Head} {o : Opd} (lit : o.isLit = true) (f : MFmt) (p : Bool) (e : Opd) : casOk f p o e h = false := by
  simp [casOk, longDstOk_of_lit lit, evenV_of_lit lit]

/-- R105, R125: no destination is a literal. -/
theorem not_wf_of_lit_dst (i : Instr) {g : Base} {lits : List Opd} (hf : i.fields = some (g, lits)) (hn : g.noLits = false) :
    g.dst = 250#8 ∨ g.dst = 251#8 → i.wf = false := by
  cases i with
  | scan h f w op e pt o =>
    cases hf
    intro hc
    have lit : o.d.isLit = true := Opd.isLit_iff.1 hc
    show (wideOnly h && redOk op f && if h.scope == .group then pt == 0 && dstOk h o.d
      else w == .w32 && (match o.d with | .v _ | .zero => true | _ => false)) = false
    rw [dstOk_of_lit lit]
    cases hd : o.d with
    | lit32 l | lit64 l => simp only [Bool.and_false, ite_self]
    | _ => rw [hd] at lit; cases lit
  | movk h o =>
    cases hf
    intro hc
    have lit : o.d.isLit = true := Opd.isLit_iff.1 hc
    cases hd : o.d with
    | lit32 l | lit64 l => simp only [Instr.wf, hd, Bool.and_false]
    | _ => rw [hd] at lit; cases lit
  | br | brc | call | chkpt => cases hf; cases hn
  | _ =>
    cases hf <;> simp +contextual only [Head.base, Opd.isLit_iff, Instr.wf, dstOk_of_lit, longDstOk_of_lit, ptrOk_of_lit, nregOk_of_lit,
      casOk_of_lit, Bool.and_false, Bool.false_and, BitVec.reduceEq, or_self, false_implies, ite_self, implies_true]

theorem not_lit_dst {i : Instr} {g : Base} {lits : List Opd} (ok : i.wf = true) (hf : i.fields = some (g, lits)) (hn : g.noLits = false) :
    ¬ (g.dst = 250#8 ∨ g.dst = 251#8) := fun lit => by
  have := not_wf_of_lit_dst i hf hn lit
  rw [ok] at this
  cases this

theorem takeLit_code_last (o : Opd) : takeLit o.code o.words = some (o.lit, []) := by
  have := takeLit_code o []
  rwa [List.append_nil] at this
theorem ofCode_dst {o : Opd} (h : ¬ (o.code = 250#8 ∨ o.code = 251#8)) : Opd.ofCode o.code 0#64 = some o :=
  ofCode_reg o (Opd.words_of_not_lit (Bool.eq_false_iff.2 fun lit => h (Opd.isLit_iff.2 lit)))

theorem offset_fields (x : BitVec 24) : x.extractLsb' 16 8 ++ x.extractLsb' 8 8 ++ x.extractLsb' 0 8 = x := by
  have cut : HoldsAt x 0 (x.extractLsb' 16 8 ++ x.extractLsb' 8 8 ++ x.extractLsb' 0 8) := by
    simp only [holdsAt_append, Nat.reduceAdd]
    simp only [HoldsAt, and_self]
  rw [← cut, extract_all]

theorem setWidth_eight (x : BitVec 3) : (x.setWidth 8).setWidth 3 = x := by
  apply BitVec.eq_of_toNat_eq
  simp only [BitVec.toNat_setWidth]
  omega
theorem setWidth_eight_lt (x : BitVec 3) : (x.setWidth 8).toNat < 8 := by
  simp only [BitVec.toNat_setWidth]
  omega
theorem toFin_ofNat (n : Fin 16) : (BitVec.ofNat 4 n.val).toFin = n := by
  simp

/-! ## Formats -/

theorem atomOk_ok {op : AOp} {f : MFmt} (h : atomOk op f = true) : f.ok = true := by
  cases f with
  | tag t => cases op <;> cases t <;> first | rfl | cases h
  | _ => rfl
theorem casOk_ok {f : MFmt} {p : Bool} {d e : Opd} {h : Head} (ok : casOk f p d e h = true) : f.ok = true := by
  cases p with
  | false =>
    simp only [casOk, Bool.and_eq_true, Bool.false_eq_true, if_false] at ok
    exact ok.1.1.2
  | true =>
    simp only [casOk, Bool.and_eq_true, Bool.or_eq_true, beq_iff_eq, if_true] at ok
    obtain ⟨⟨rfl | rfl, _⟩, _⟩ := ok <;> rfl
theorem EFmt.named_of_listed {f : EFmt} (h : tldFmtOk f = true ∨ mmFmtOk f = true ∨ drainFmtOk f = true) : f.named = true := by
  cases f with
  | tag t => revert h; cases t <;> decide
  | _ => rfl
theorem ne_poison_of_listed {f : Option Tag} {op : RedOp} (h : dataFmtOk f = true ∨ redOk op f = true) : (f != some .poison) = true := by
  cases f with
  | some t => revert h; cases op <;> cases t <;> decide
  | none => rfl

/-- The format of an instruction is one whose code decode reads back (R114). -/
def Instr.formatNamed : Instr → Bool
  | .mov _ f _ | .shuf _ f _ _ _ _ | .slide _ f _ _ | .bcast _ f _ _ | .perm _ f _ _ | .match_ _ f _ _ _ _ | .redux _ f _ _ _ _
  | .scan _ f _ _ _ _ _ => f != some .poison
  | .ld _ f _ _ _ _ _ | .st _ f _ _ _ _ | .atom _ f _ _ _ _ _ _ | .cas _ f _ _ _ _ _ _ => f.ok
  | .pack6 _ _ f _ _ _ _ _ | .unpk _ f _ _ _ _ | .tld _ f _ _ _ _ | .mmq _ f _ _ _ _ _ _ | .mms _ f _ _ _ _ _ _
  | .tdrain _ f _ _ _ _ => f.named
  | _ => true

theorem Instr.formatNamed_of_wf {i : Instr} (ok : i.wf = true) : i.formatNamed = true := by
  cases i
  case scan =>
    rw [Instr.wf, Bool.and_eq_true, Bool.and_eq_true] at ok
    exact ne_poison_of_listed (.inr ok.1.2)
  all_goals
    first | exact rfl | simp only [Instr.wf, Bool.and_eq_true, Bool.or_eq_true, beq_iff_eq] at ok
  case mov h f o =>
    refine bne_iff_ne.2 fun e => ?_
    subst e
    simp [Tag.isElem] at ok
  case pack6 =>
    obtain ⟨⟨⟨-, rfl | rfl⟩, -⟩, -⟩ := ok <;> rfl
  case unpk h f df rm part o =>
    cases f with
    | tag t => simp at ok
    | _ => rfl
  case shuf | match_ => exact ne_poison_of_listed (op := .add) (.inl ok.1.2)
  case bcast | perm => exact ne_poison_of_listed (op := .add) (.inl ok.1.1.2)
  case slide => exact ne_poison_of_listed (op := .add) (.inl ok.1.1.1.2)
  case redux => exact ne_poison_of_listed (.inr ok.1.2)
  case ld | st => exact ok.1.1.1
  case atom => exact atomOk_ok ok.1.1.1
  case cas => exact casOk_ok ok.2
  case tld => exact EFmt.named_of_listed (.inl ok.1.1.2)
  case mmq | mms => exact EFmt.named_of_listed (.inr (.inl ok.1.2))
  case tdrain => exact EFmt.named_of_listed (.inr (.inr ok.1.1.2))

/-! ## Rows -/

/-- Decode reads an instruction back from a base word and the words of its literals. -/
def Instr.ReadBack (i : Instr) (g : Base) (lits : List Opd) : Prop :=
  ∃ h, Head.ofBase g = some h ∧ g.readsFrom h (lits.flatMap Opd.words) = some (i, [])

/-- R103 to R106: the rows of the classes 000 to 011 read back what stands in their fields, and those of the classes 100 to 111
below; the offset of form T and the predicates of PLOP, which the fields of operands hold, follow. -/
theorem readsFrom_arithmetic {i : Instr} {g : Base} {lits : List Opd} (ok : i.wf = true) (hf : i.fields = some (g, lits))
    (hn : g.noLits = false) (hop : g.op.getLsbD 8 = false) : i.ReadBack g lits := by
  have hd : ¬ (g.dst = 250#8 ∨ g.dst = 251#8) := not_lit_dst ok hf hn
  have named := Instr.formatNamed_of_wf ok
  cases i <;> cases hf
  all_goals simp only [Head.base, BitVec.reduceGetLsb, Bool.true_eq_false] at hop
  case br | brc | call | chkpt | plop => cases hn
  all_goals
    clear hn
    dsimp only [Head.base, Instr.formatNamed] at hd named
    refine ⟨_, headOfBase _ _ _ _ _ _ _, ?_⟩
    simp only [Base.readsFrom, Base.reads, Base.litA, Base.litB, Base.litC, Base.noLits, Base.awaits, Base.class_, Base.sub, unreadOk_iff,
      Head.base, rowOf, rowControl, rowInteger, rowPacked, rowFloat,
      takeLit_code, takeLit_code_last, takeLit_zero, takeLit_252, ofCode_code, ofCode_dst, not_false_eq_true,
      extract_append_hi, extract_append_lo, extract_all, flag_ofBool, tag_code, optTagOfCode_code, *,
      RM.ofCode_code, IRel.ofCode_code, FRel.ofCode_code, WRel.ofCode_code, Ctr.ofCode_code, SReg.ofCode_code, ClassSel.ofCode_code,
      within_append, within_zero, within_of_eq_allOnes, BitVec.reduceAllOnes, BitVec.reduceExtractLsb', BitVec.reduceToNat,
      BitVec.reduceGetLsb, BitVec.reduceBEq, BitVec.reduceBNe, BitVec.ofNat_eq_ofNat, Nat.reduceSub, Nat.reduceAdd, Nat.reduceLeDiff,
      Option.bind_eq_bind, Option.bind_some, Option.pure_def, Option.map_some, List.flatMap_cons, List.flatMap_nil, List.append_nil,
      true_or, or_true, and_self, if_true, if_false, Bool.false_eq_true, beq_self_eq_true, Bool.or_self, Bool.or_true, Bool.and_true,
      Bool.and_false]

theorem readsFrom_data {i : Instr} {g : Base} {lits : List Opd} (ok : i.wf = true) (hf : i.fields = some (g, lits))
    (hn : g.noLits = false) (hop : g.op.getLsbD 8 = true) : i.ReadBack g lits := by
  have hd : ¬ (g.dst = 250#8 ∨ g.dst = 251#8) := not_lit_dst ok hf hn
  have named := Instr.formatNamed_of_wf ok
  cases i <;> cases hf
  all_goals simp only [Head.base, BitVec.reduceGetLsb, Bool.false_eq_true] at hop
  all_goals
    clear hn
    dsimp only [Head.base, Instr.formatNamed] at hd named
    refine ⟨_, headOfBase _ _ _ _ _ _ _, ?_⟩
    simp only [Base.readsFrom, Base.reads, Base.litA, Base.litB, Base.litC, Base.noLits, Base.awaits, Base.class_, Base.sub, unreadOk_iff,
      Head.base, rowOf, rowConvert, rowCrossLane, rowMemory, rowEngine,
      takeLit_code, takeLit_code_last, takeLit_252, ofCode_code, ofCode_dst, not_false_eq_true,
      extract_append_hi, extract_append_lo, extract_all, flag_ofBool, tag_code, toFin_ofNat,
      MFmt.ofCode_code, EFmt.ofCode_code, optTagOfCode_code, *,
      RM.ofCode_code, Width.ofCode_code, ShufVar.ofCode_code, VoteVar.ofCode_code, Span.ofCode_code, RedOp.ofCode_code, AOp.ofCode_code,
      NReg.ofCode_code, PField.ofCode_code, ClaimKind.ofCode_code, BinOp.ofCode_code, BinSel.ofCode_code, PgSize.ofCode_code,
      SysReg.ofCode_code, within_append, within_zero, within_of_eq_allOnes, BitVec.reduceAllOnes, BitVec.reduceExtractLsb',
      BitVec.reduceToNat, BitVec.reduceGetLsb, BitVec.reduceBEq, BitVec.reduceBNe, BitVec.ofNat_eq_ofNat, Nat.reduceSub, Nat.reduceAdd,
      Nat.reduceLeDiff, Option.bind_eq_bind, Option.bind_some, Option.pure_def, Option.map_some, List.flatMap_cons, List.flatMap_nil,
      List.append_nil, true_or, or_true, and_self, if_true, if_false, Bool.false_eq_true, beq_self_eq_true, Bool.or_self, Bool.and_true]

theorem readsFrom_offset {i : Instr} {g : Base} {lits : List Opd} (hf : i.fields = some (g, lits)) (hn : g.noLits = true) :
    i.ReadBack g lits := by
  cases i <;> cases hf
  case br | brc | call | chkpt | plop =>
    refine ⟨_, headOfBase _ _ _ _ _ _ _, ?_⟩
    simp only [Base.readsFrom, Base.reads, Base.litA, Base.litB, Base.litC, Base.noLits, Base.awaits, Base.class_, Base.sub, unreadOk_iff,
      Base.offset, Head.base, rowOf, rowControl, rowInteger, offset_fields, vOfCode_code, setWidth_eight, setWidth_eight_lt,
      takeLit_zero, decide_true, extract_append_hi, extract_append_lo, extract_all, flag_ofBool,
      within_append, within_zero, within_of_eq_allOnes, BitVec.reduceAllOnes, BitVec.reduceExtractLsb', BitVec.reduceToNat,
      BitVec.reduceGetLsb, BitVec.reduceBEq, BitVec.reduceBNe, BitVec.ofNat_eq_ofNat, Nat.reduceSub, Nat.reduceAdd, Nat.reduceLeDiff,
      Option.bind_eq_bind, Option.bind_some, Option.pure_def, Option.map_some, List.flatMap_nil, true_or, or_true, and_self, if_true,
      Bool.false_eq_true, beq_self_eq_true, Bool.or_self, Bool.or_true, Bool.true_or, Bool.and_true]
  all_goals cases hn

/-! ## Opcodes -/

/-- R121, R122: an opcode has a row exactly where it is assigned. -/
theorem rowOf_isSome (g : Base) (h : Head) (od oa ob oc : Option Opd) :
    (rowOf g h od oa ob oc).isSome = Machine.opcodeAssigned (64 * g.class_.toNat + g.sub.toNat) := by
  have class_lt := g.class_.isLt
  have sub_lt := g.sub.isLt
  unfold rowOf
  split
  case' h_8 n0 n1 n2 n3 n4 n5 n6 =>
    have hk : g.class_.toNat = 7 := by
      simp only [imp_false] at n0 n1 n2 n3 n4 n5 n6
      omega
    clear n0 n1 n2 n3 n4 n5 n6
  all_goals
    rename_i hk
    rw [hk]
    simp only [rowControl, rowInteger, rowPacked, rowFloat, rowConvert, rowCrossLane, rowMemory, rowEngine]
    generalize g.sub.toNat = n at sub_lt
    split
  any_goals rfl
  all_goals
    refine (Bool.eq_false_iff.2 fun assigned => ?_).symm
    simp only [Machine.opcodeAssigned, List.any_cons, List.any_nil, Bool.or_eq_true, Bool.and_eq_true, decide_eq_true_eq, imp_false,
      Bool.false_eq_true, or_false] at *
    omega

theorem opcodeAssigned_of_fields {i : Instr} {g : Base} {lits : List Opd} (hf : i.fields = some (g, lits)) :
    Machine.opcodeAssigned g.op.toNat = true := by
  cases i <;> cases hf <;> rfl
theorem Base.assigned_eq (g : Base) : g.assigned = Machine.opcodeAssigned g.op.toNat := by
  have split : 64 * g.class_.toNat + g.sub.toNat = g.op.toNat := by
    have := g.op.isLt
    simp only [Base.class_, Base.sub, BitVec.extractLsb'_toNat, Nat.shiftRight_eq_div_pow]
    omega
  rw [Base.assigned, rowOf_isSome, split]

/-- An event alone has no fields, and none is well-formed. -/
theorem exists_fields {i : Instr} (ok : i.wf = true) : ∃ f, i.fields = some f := by
  cases i <;> first | exact ⟨_, rfl⟩ | cases ok

theorem readsFrom_fields {i : Instr} {g : Base} {lits : List Opd} (ok : i.wf = true) (hf : i.fields = some (g, lits)) :
    i.ReadBack g lits := by
  cases hn : g.noLits with
  | true => exact readsFrom_offset hf hn
  | false =>
    cases hop : g.op.getLsbD 8 with
    | true => exact readsFrom_data ok hf hn hop
    | false => exact readsFrom_arithmetic ok hf hn hop

/-- Settles O40: the row of an instruction's opcode reads its fields, and the walk over the literals the words behind them. -/
theorem decodeReadsEncode : Obligations.DecodeReadsEncode := by
  unfold Obligations.DecodeReadsEncode
  intro i ok
  obtain ⟨⟨g, lits⟩, hf⟩ := exists_fields ok
  obtain ⟨h, hh, hr⟩ := readsFrom_fields ok hf
  have words : i.encode = g.toWord.extractLsb' 0 32 :: g.toWord.extractLsb' 32 32 :: lits.flatMap Opd.words := by
    simp only [Instr.encode, hf]
  have back : Base.ofWord (g.toWord.extractLsb' 32 32 ++ g.toWord.extractLsb' 0 32) = g := by rw [word_of_halves, ofWord_toWord]
  have assigned : g.assigned = true := g.assigned_eq.trans (opcodeAssigned_of_fields hf)
  have len : i.length = 2 + ((lits.flatMap Opd.words).length - List.length (α := BitVec 32) []) := by
    rw [Instr.length, words]
    exact Nat.add_comm _ 2
  rw [words, len]
  exact (decodeWords_eq_ok back).2 ⟨assigned, h, [], hh, hr, ok, rfl⟩

end Sys2Proof
end

section
/-! PROOFS. A reserved opcode is refused and traps (R122). -/

namespace Sys2Proof

/-- The opcode stands in the upper nine bits of the second word (R103). -/
theorem opcode_of_words (w0 w1 : BitVec 32) : (Base.ofWord (w1 ++ w0)).op.toNat = w1.toNat / 2 ^ 23 := by
  have place : (Base.ofWord (w1 ++ w0)).op = w1.extractLsb' 23 9 := extract_append_hi w1 w0 (by decide)
  rw [place, BitVec.extractLsb'_toNat, Nat.shiftRight_eq_div_pow]
  have := w1.isLt
  omega

theorem decodeWords_reserved {w0 w1 : BitVec 32} (h : Machine.opcodeAssigned (w1.toNat / 2 ^ 23) = false) (rest : List (BitVec 32)) :
    decodeWords (w0 :: w1 :: rest) = .error .reservedOpcode := by
  have reserved : (Base.ofWord (w1 ++ w0)).assigned = false := by rw [Base.assigned_eq, opcode_of_words, h]
  simp only [decodeWords, reserved, Bool.not_false, if_true]

end Sys2Proof

namespace Sys2Proof.Machine

/-- A fetch of words that decode refuses ends with the refusal (R125). -/
theorem State.fetchTry_refused {s u : State} {b : Block} {pc n : Nat} {last : List Byte} {ns : List Nat} {ps : List Place} {e : DecErr}
    (hf : s.Fetches b pc n u ps) (hd : decodeBytes (u.readPlaces ps) = .error e) (he : e ≠ .short) :
    s.fetchTry b pc last (n :: ns) =
      (u, .illegal (4 * refusedLength (wordsOfBytes (u.readPlaces ps))) (scopeField (u.readPlaces ps))) := by
  obtain ⟨s1, s2, hs, hl, rfl⟩ := hf.read
  rw [State.fetchTry, hs]
  dsimp only
  rw [hl]
  dsimp only
  rw [hd]
  cases e with
  | short => exact absurd rfl he
  | _ => rfl

/-- Where decode refuses the words, a cohort for which no other trap is due traps with ILLEGAL, if its run is not full (R28, R125). -/
theorem State.issueOf_illegal {s s1 : State} {b : Block} {k : Cohort} {len : Nat} {sc : Scope}
    (hf : s.fetchOnce b k = (s1, .illegal len sc)) (hd : b.dueOf k = none) (hc : ∀ l ∈ k.lanes, (b.lane l).run.count < 24) :
    s.issueOf b k =
      .stop (.next (s1.trap (b.keepCode k (.illegal len sc)) ((b.keepCode k (.illegal len sc)).cohCtx k len) sc .illegal k.lanes)) := by
  have traps : s1.decodeTrap b k (.illegal len sc) sc true =
      some (s1.trap (b.keepCode k (.illegal len sc)) ((b.keepCode k (.illegal len sc)).cohCtx k len) sc .illegal k.lanes) := by
    have due : (b.keepCode k (.illegal len sc)).dueOf k = none := hd
    have full : (k.lanes.any fun l => decide (24 ≤ ((b.keepCode k (.illegal len sc)).lane l).run.count)) = false := Block.run_not_full hc
    rw [State.decodeTrap, due]
    dsimp only
    rw [full]
    rfl
  unfold State.issueOf
  rw [hf]
  dsimp only
  rw [traps]
  rfl

/-- Settles O43: decode looks at the opcode alone, by `decodeWords_reserved`, and the refusal ends the cohort's turn, by
`State.fetchTry_refused` and `State.issueOf_illegal`. -/
theorem reservedOpcodesTrap : Obligations.ReservedOpcodesTrap := by
  unfold Obligations.ReservedOpcodesTrap
  intro w0 w1 reserved
  refine ⟨decodeWords_reserved reserved, ?_⟩
  intro s u blk coh rest b k ps hf fetches words
  have refused : decodeBytes (u.readPlaces ps) = .error .reservedOpcode := by
    rw [decodeBytes, words, decodeWords_reserved reserved]
  have fetched : ({ s with port := rest } : State).fetchOnce b k =
      (u, .illegal (4 * refusedLength [w0, w1]) (scopeField (u.readPlaces ps))) := by
    rw [State.fetchOnce_new hf.new, State.fetchTry_refused fetches refused (by decide), words]
  exact (step_cohort hf.port hf.blk hf.coh).trans (State.stepCohort_stop (State.issueOf_illegal fetched hf.due hf.count))

end Sys2Proof.Machine
end

section
/-! PROOFS. LD, ST, ATOM, CAS and WAITM at issue (R147, R210, R211, R214, R215, R311). -/

namespace Sys2Proof.Machine

/-- An access that nothing holds back is not held. -/
theorem AccessFree.not_held {s : State} {b : Block} {h : Head} {w : Work} {m : MemOp} {tag : Nat} {ctr : Ctr} {las : List LaneAcc}
    (free : AccessFree s b h w m tag ctr las) :
    (b.ctrFull w.groups ctr || s.actionHeld b w.src m.isLoad || s.logHeld b w.groups || s.replayHeld b m.kind las ||
      (!m.isStore && (b.tagLanes h w).any fun l => s.tagBusy b l tag)) = false := by
  obtain ⟨room, act, log, replay, tags⟩ := free
  rw [room, act, log, replay]
  rcases tags with store | tags
  · simp [store]
  · simp [List.any_eq_false.2 fun l hl => Bool.eq_false_iff.1 (tags l hl)]

/-- An instruction that runs as an access completes as one. -/
theorem CompletesAccess.of_memIssue {i : Instr} {h : Head} {m : MemOp} {d : Opd} {tag : Nat} {ptr off data : Opd} {dsps : List SrcSpec}
    {ctr : Ctr} (e : ∀ s, exec i s = s.memIssue i h m d tag ptr off data dsps ctr) :
    CompletesAccess i h m d tag ptr off data dsps ctr := by
  intro s b c hi w at_ las hc hb free a b1 s1
  rw [e, State.memIssue, State.issue_eq hi]
  dsimp only
  rw [Work.acts_goes hc.acts, State.gated_eq hi hc.gate, State.checked_map hb, if_neg (Bool.eq_false_iff.1 free.not_held)]
  cases m.isStore <;> rfl

/-- Keeping import entries has the frame of an issue. -/
theorem Issuing.keepImports_frame {s : State} {b : Block} {c : Ctx} {h : Head} (hi : Issuing s b c h) (ps : List (BitVec 128)) :
    IssueFrame s (s.keepImports b ps) b [] [] := by
  have same : ∀ k, (s.keepImports b ps).block? k = s.block? k := fun k => by simp only [State.block?, State.keepImports_blocks]
  exact ⟨s.keepImports_outside b ps, fun k _ => same k, b, (same _).trans hi.block, .rfl' b, fun _ _ => rfl, fun _ _ => rfl⟩

/-- An access and its monitor made outstanding change nothing that the frame of an issue speaks of. -/
theorem IssueFrame.monitored {s t : State} {b : Block} {fl dr : List Nat} (f : IssueFrame s t b fl dr) (n : Nat) (as : List Access)
    (ms : List Monitor) : IssueFrame s { t with nextId := n, accs := as, monitors := ms } b fl dr :=
  ⟨⟨f.out.dmem, f.out.hmem, f.out.dpoison, f.out.hpoison, f.out.dies, f.out.stores, f.out.launches, f.out.tlb, f.out.sharers,
    f.out.leases, f.out.podTime⟩, f.others, f.own⟩

/-- Settles O11: LD, ST, ATOM and CAS run as accesses (`CompletesAccess.of_memIssue`); WAITM, where a lane acts, goes through its checks to
the end of the run, whose frame is that of `State.endRun_frame`. -/
theorem memoryInstructionsComplete : Obligations.MemoryInstructionsComplete := by
  refine ⟨fun h f n tg d ptr off => .of_memIssue fun _ => rfl, fun h f n ptr off data => .of_memIssue fun _ => rfl,
    fun h f op tg d ptr off x => .of_memIssue fun _ => rfl, fun h f pr tg d ptr off e => .of_memIssue fun _ => rfl, ?_⟩
  intro h rel dword ptr cmp await s b c hi hd on desig src z m las w acts hg hp ha hl hr a mon s1
  have some_acts : (b.acting c h).isEmpty = false := by simpa using acts
  have work : (if c.wide then ({ src := [(b.designated c.members).getD 0], recv := [], pos := [], groups := c.members,
                                 desig := (b.designated c.members).getD 0, acts := true } : Work)
      else { src := b.acting c h, recv := [], pos := [], groups := homesOf (b.acting c h), desig := (b.acting c h).headD 0,
             acts := true }) = w := by
    by_cases wide : c.wide = true <;> simp only [w, src, on, desig, wide, if_true, if_false, Bool.false_eq_true]
  have some_reads : src.isEmpty = false := by
    by_cases wide : c.wide = true <;> simp [src, on, wide, some_acts]
  have unheld : (s.actionHeld b src true || s.logHeld b w.groups || s.replayHeld b .monitor las) = false := by rw [ha, hl, hr]; rfl
  obtain ⟨x, kept⟩ : ∃ x, s1 = { s with imports := x } := s.keepImports_eq b _
  constructor
  · show execWaitm h rel dword ptr cmp await s = _
    rw [execWaitm, State.issue_eq hi]
    dsimp only
    rw [some_acts]
    simp only [Bool.not_false, Bool.false_eq_true, if_false, work]
    rw [State.gated_eq hi hg, State.checked_map, State.late_eq hd (.inl rfl), if_neg (Bool.eq_false_iff.1 some_reads),
      if_neg (Bool.eq_false_iff.1 unheld)]
    · show Host.Outcome.next _ = _
      rw [kept, show s.keepImports b (w.src.map fun l => b.readPtr l ptr) = _ from kept]
      rfl
    · intro l hl
      obtain ⟨fits, aligned⟩ := hp l hl
      dsimp only [z] at fits aligned
      rw [fits]
      dsimp only
      rw [aligned]
      rfl
  · have issued : s1.block? b.id = some b := by rw [kept]; exact hi.block
    have ended := (hi.keepImports_frame _).trans issued rfl (State.endRun_frame issued c await (fun _ => c.pc + c.len)
      fun l => if on.contains l then .waitm a.id else .ready)
    exact ended.monitored _ _ _

end Sys2Proof.Machine
end

section
/-! PROOFS. Control instructions at issue: the terminators of class 000, SETD and NOP (R137, R140 to R146, R148 to R151). -/

namespace Sys2Proof.Machine

/-! ## Terminators -/

section
variable {s : State} {b : Block} {c : Ctx} {h : Head}

/-- A meaning that ends the run of its lanes has the frame of an issue (R137). -/
theorem Issuing.ends (hi : Issuing s b c h) {i : Instr} {await : BitVec 8} {next : Nat → Nat} {hold : Nat → Hold}
    (run : exec i s = .next (s.endRun b c await next hold)) : Runs i s (s.endRun b c await next hold) b :=
  ⟨run, State.endRun_frame hi.block c await next hold⟩

/-- Results put in flight change nothing that the frame of an issue speaks of (R34). -/
theorem IssueFrame.inFlight {t : State} {fl dr : List Nat} (f : IssueFrame s t b fl dr) (n : Nat) (rs : List FixedRes) :
    IssueFrame s { t with nextId := n, fixed := rs } b fl dr :=
  ⟨⟨f.out.dmem, f.out.hmem, f.out.dpoison, f.out.hpoison, f.out.dies, f.out.stores, f.out.launches, f.out.tlb, f.out.sharers,
    f.out.leases, f.out.podTime⟩, f.others, f.own⟩

variable (hi : Issuing s b c h) (hd : b.dueRefusal c = none)
include hi hd

/-- A terminator's checks on its sources pass, and no imprecise trap is due: it goes on. -/
theorem State.terminator_eq {i : Instr} {src recv : List Nat} {sps : List SrcSpec} {ws preds : List Nat} {tst : Bool} {k : Out}
    (hg : s.gate b src recv sps ws preds = .pass) (ht : tst = false ∨ b.tsErr = none) :
    s.gated b c i h src recv sps ws preds (s.late b c h tst k) = k := by
  rw [State.gated_eq hi hg, State.late_eq hd ht]

/-- A terminator without sources ends the run, its acting lanes at the next PC and hold that it names. -/
theorem State.terminate_eq {i : Instr} {await : BitVec 8} {next : Ctx → Nat} {hold : Hold}
    (hg : s.gate b (b.acting c h) [] (needs h .zero) [] [] = .pass) :
    s.terminate i h await next hold = .next (s.endRun b c await
      (fun l => if (b.acting c h).contains l then next c else c.pc + c.len)
      fun l => if (b.acting c h).contains l then hold else .ready) :=
  (State.issue_eq hi).trans (State.terminator_eq hi hd hg (.inl rfl))

/-- A transfer whose acting lanes read multiples of 4 takes them there (R142). -/
theorem State.transfer_eq {i : Instr} {a : Opd} {await : BitVec 8}
    (hg : s.gate b (b.acting c h) [] [⟨a, .int64⟩] [] [] = .pass)
    (ha : ∀ l ∈ b.acting c h, (b.read l .plain a).bits.toNat % 4 = 0) :
    s.transfer i h a await = .next (s.endRun b c await
      (fun l => if (b.acting c h).contains l then (b.read l .plain a).bits.toNat else c.pc + c.len) fun _ => .ready) := by
  have aligned : (b.acting c h).filter (fun l => (b.read l .plain a).bits.toNat % 4 != 0) = [] :=
    List.filter_eq_nil_iff.2 fun l hl => by simp [ha l hl]
  rw [State.transfer, State.issue_eq hi]
  dsimp only
  rw [aligned]
  exact State.terminator_eq hi hd hg (.inl rfl)

/-- BRC goes on at the target where its condition holds (R141). -/
theorem State.brc_eq {off : BitVec 24} {await : BitVec 8} {cneg : Bool} {cpred : BitVec 3}
    (hg : s.gate b (b.acting c h) (b.acting c h) [] [] (if cpred == 7 then [] else [cpred.toNat]) = .pass) :
    exec (.brc h off await cneg cpred) s = .next (s.endRun b c await
      (fun l => if (b.acting c h).contains l && ((b.lane l).pval cpred.toNat != cneg) then targetOf c.pc off else c.pc + c.len)
      fun _ => .ready) := by
  show execBrc h off await cneg cpred s = _
  rw [execBrc, State.issue_eq hi]
  exact State.terminator_eq hi hd hg (.inl rfl)

/-- CALL goes on at the target, its link in flight (R142). -/
theorem State.call_eq {off : BitVec 24} {await : BitVec 8} {link : Fin 192}
    (hg : s.gate b [] (b.acting c h) [] [link.val] [] = .pass) :
    let t := s.endRun b c await (fun l => if (b.acting c h).contains l then targetOf c.pc off else c.pc + c.len) fun _ => .ready
    exec (.call h off await link) s = .next { t with
      nextId := t.nextId + 1,
      fixed := t.fixed ++ [⟨t.nextId, b.id, s.cycle + 4,
        (b.acting c h).map fun l => .reg l link.val ⟨BitVec.ofNat 64 (c.pc + 8), .n64⟩⟩] } := by
  show execCall h off await link s = _
  rw [execCall, State.issue_eq hi]
  exact State.terminator_eq hi hd hg (.inl rfl)

/-- WAITC holds its acting lanes at the counter (R146). -/
theorem State.waitc_eq {ctr : Ctr} {n : BitVec 6} {await : BitVec 8} (ht : b.tsErr = none) :
    exec (.waitc h ctr n await) s = .next (s.endRun b c await (fun _ => c.pc + c.len)
      fun l => if (b.acting c h).contains l then .waitc ctr n.toNat c.coh h.scope else .ready) := by
  show execWaitc h ctr n await s = _
  rw [execWaitc, State.issue_eq hi]
  exact State.terminator_eq hi hd (s.gate_nil b _) (.inr ht)

/-- REGROUP holds its acting lanes under their keys (R148). -/
theorem State.regroup_eq {a : Opd} {await : BitVec 8} (hg : s.gate b (b.acting c h) [] [⟨a, .raw⟩] [] [] = .pass) :
    exec (.regroup h a await) s = .next (s.endRun b c await (fun _ => c.pc + c.len)
      fun l => if (b.acting c h).contains l then .regroup ((b.read l .plain a).bits.toNat % 2 ^ 16) else .ready) := by
  show execRegroup h a await s = _
  rw [execRegroup, State.issue_eq hi]
  exact State.terminator_eq hi hd hg (.inl rfl)

/-- BAR ends the run where nothing that it orders is left (R145). -/
theorem State.bar_eq {await : BitVec 8} (hg : s.gate b (b.acting c h) [] (needs h .zero) [] [] = .pass)
    (done : s.barDone b c.members = true) (ht : b.tsErr = none) :
    exec (.bar h await) s = .next (s.endRun b c await (fun _ => c.pc + c.len) fun _ => .ready) := by
  show execBar h await s = _
  rw [execBar, State.issue_eq hi]
  dsimp only
  rw [done, Bool.not_true, Bool.and_false, if_neg Bool.false_ne_true]
  exact State.terminator_eq hi hd hg (.inr ht)

/-- CHKPT ends the run where its table lies at a multiple of 8 (R149). -/
theorem State.chkpt_eq {off : BitVec 24} {await : BitVec 8} (aligned : targetOf c.pc off % 8 = 0) :
    exec (.chkpt h off await) s = .next (s.endRun b c await (fun _ => c.pc + c.len)
      fun l => if (b.acting c h).contains l && b.parking then .parked (targetOf c.pc off) else .ready) := by
  show execChkpt h off await s = _
  rw [execChkpt, State.issue_eq hi]
  dsimp only
  rw [aligned, bne_self_eq_false, Bool.and_false, if_neg Bool.false_ne_true]
  exact State.terminator_eq hi hd (s.gate_nil b _) (.inl rfl)

end

/-- Settles O9: each terminator goes through its checks to the end of its run (the equations above), which has the frame of an issue
(`Issuing.ends`); CALL puts its link in flight behind it. -/
theorem terminatorsComplete : Obligations.TerminatorsComplete := by
  intro h await s b c hi hd on hg ends after
  have same (x : Nat) : (fun l => if on.contains l then x else x) = fun _ => x := funext fun _ => ite_self x
  have ready : (fun l => if on.contains l then Hold.ready else .ready) = fun _ => .ready := funext fun _ => ite_self _
  have plain (i : Instr) (next : Ctx → Nat) (hold : Hold) (e : exec i s = s.terminate i h await next hold) :
      ends i (fun l => if on.contains l then next c else c.pc + c.len) fun l => if on.contains l then hold else .ready :=
    hi.ends (e.trans (State.terminate_eq hi hd hg))
  refine ⟨?runend, ?br, ?brc, ?transfers, ?call, ?exit, ?yield, ?bar, ?waitc, ?regroup, ?chkpt⟩
  case runend => simpa only [same, ready] using plain (.runend h await) (fun c => c.pc + c.len) .ready rfl
  case br =>
    intro off
    simpa only [ready] using plain (.br h off await) (fun c => targetOf c.pc off) .ready rfl
  case brc => exact fun off cneg cpred hp => hi.ends (State.brc_eq hi hd hp)
  case transfers =>
    exact fun a ha aligned => ⟨hi.ends (State.transfer_eq hi hd ha aligned), hi.ends (State.transfer_eq hi hd ha aligned)⟩
  case call => exact fun off link hl => ⟨State.call_eq hi hd hl, (State.endRun_frame hi.block c await _ _).inFlight _ _⟩
  case exit => simpa only [same] using plain (.exit h await) (fun c => c.pc + c.len) .exiting rfl
  case yield => simpa only [same] using plain (.yield h await) (fun c => c.pc + c.len) .yielded rfl
  case bar => exact fun done ht => hi.ends (State.bar_eq hi hd hg done ht)
  case waitc => exact fun ctr n ht => hi.ends (State.waitc_eq hi hd ht)
  case regroup => exact fun a ha => hi.ends (State.regroup_eq hi hd ha)
  case chkpt => exact fun off aligned => hi.ends (State.chkpt_eq hi hd aligned)

/-! ## SETD and NOP -/

/-- NOP steps past, whether it acts or not (R151). -/
theorem State.nop_eq {s : State} {b : Block} {c : Ctx} {h : Head} (hi : Issuing s b c h)
    (hg : (b.work c h).acts = false ∨ s.gate b (b.work c h).src [] (needs h .zero) [] [] = .pass) :
    exec (.nop h) s = .next (s.pass b c h) := by
  show execNop h s = _
  rw [execNop, State.issue_eq hi]
  dsimp only
  rcases hg with off | hg
  · rw [off]
    rfl
  · rw [State.gated_eq hi hg, ite_self]

section
variable {s : State} {b : Block} {c : Ctx} {h : Head} {n : BitVec 2} {a : Opd} (hi : Issuing s b c h)
  (hc : ClearPlain s b (b.work c h) [(b.work c h).desig] [] [⟨a, .raw⟩] [] [])
include hi hc

/-- SETD adds a set that may be created, with the members of its mask (R150). -/
theorem State.setd_add {ms : List Nat} (hm : (List.range 32).filter (bit (b.read (b.work c h).desig .plain a).bits.toNat) = ms)
    (ok : b.setOk n.toNat ms = true) :
    exec (.setd h n false a) s = .next (s.pass { b with sets := b.sets ++ [⟨n.toNat, ms, [], []⟩] } c h) := by
  subst hm
  show execSetd h n false a s = _
  rw [execSetd, State.issue_eq hi]
  exact (Work.acts_goes hc.acts).trans ((State.gated_eq hi hc.gate).trans (if_pos ok))

/-- SETD removes a set to which no result is in flight (R150). -/
theorem State.setd_remove {t : GSet} (found : b.sets.find? (·.no == n.toNat) = some t) (idle : s.setBusy b t = false) :
    exec (.setd h n true a) s = .next (s.pass { b with sets := b.sets.filter (·.no != n.toNat) } c h) := by
  show execSetd h n true a s = _
  rw [execSetd, State.issue_eq hi]
  dsimp only
  rw [Work.acts_goes hc.acts, State.gated_eq hi hc.gate, if_pos rfl, found]
  dsimp only
  rw [idle]
  rfl

end

/-- Settles O10: SETD goes through its checks to the set that it adds or removes, and NOP steps past. -/
theorem setdAndNopComplete : Obligations.SetdAndNopComplete := by
  intro h s b c hi
  refine ⟨State.nop_eq hi, ?_⟩
  intro n a w hc
  exact ⟨State.setd_add hi hc rfl, fun t found idle => State.setd_remove hi hc found idle⟩

end Sys2Proof.Machine
end

section
/-! PROOFS. Exact results of the elementwise integer instructions (R153). -/

namespace Sys2Proof.Machine

/-! ## A result narrowed sub-element by sub-element -/

/-- The result of a lane whose sub-elements are these exact integers, each narrowed to the format (R153). -/
def narrowed (f : Tag) (sat : Bool) (t : Nat → Int) : LaneRes := delivered f f ((List.range f.count).map fun k => narrow f sat (t k))

theorem wrap_lt (w : Nat) (i : Int) : wrap w i < 2 ^ w := by
  have pos : (0 : Int) < (2 ^ w : Nat) := Int.natCast_pos.2 (Nat.two_pow_pos w)
  exact (Int.toNat_lt (Int.emod_nonneg i pos.ne')).2 (Int.emod_lt_of_pos i pos)

/-- Narrowing delivers the integer or what saturation leaves of it, wrapped. -/
theorem narrow_fst (f : Tag) (sat : Bool) (i : Int) :
    (narrow f sat i).1 = wrap f.width (if sat then satInt (tagSigned f) f.width i else i) := by cases sat <;> rfl

/-- Narrowing sets SAT where saturation changes the integer. -/
theorem narrow_snd (f : Tag) (sat : Bool) (i : Int) :
    (narrow f sat i).2 = if sat && satInt (tagSigned f) f.width i != i then Flags.sat else 0 := by cases sat <;> rfl

/-- One flag, set by those of a list that satisfy a test, is set where some of it does. -/
theorem foldl_or_flag (x : Flags) (p : Nat → Bool) (ks : List Nat) (fl : Flags) :
    ks.foldl (fun fl k => fl ||| if p k then x else 0) fl = fl ||| if ks.any p then x else 0 := by
  induction ks generalizing fl with
  | nil => exact BitVec.or_zero.symm
  | cons k ks ih =>
    rw [List.foldl_cons, ih, List.any_cons, BitVec.or_assoc]
    cases p k <;> cases ks.any p <;> simp

/-- A narrowed result is the one that the statement describes. -/
theorem narrowed_elementwise (f : Tag) (sat : Bool) (t : Nat → Int) : Elementwise f sat t (narrowed f sat t) := by
  have fits : f.width * f.count ≤ 64 := Nat.mul_div_le 64 f.width
  refine ⟨⟨_, rfl, fun k hk => ?_⟩, ?_⟩
  · rw [elem_packElems (by simpa using fits)]
    simp [hk, narrow_fst, Nat.mod_eq_of_lt (wrap_lt ..)]
  · rw [List.and_any_distrib_left, narrowed, delivered, orFlags, List.foldl_map]
    simp only [narrow_snd, foldl_or_flag]
    exact BitVec.zero_or

/-! ## The instructions -/

/-- Sub-element k of a source in a lane, as the integer its format names. -/
def intElem (b : Block) (f : Tag) (l : Nat) (x : Opd) (k : Nat) : Int := num f (elem f.width (b.read l (.as f) x).bits k)

theorem elemwise2_narrowed (b : Block) (f : Tag) (sat : Bool) (o : O3) (op : Int → Int → Int) (l : Nat) :
    elemwise2 b f sat o op l = narrowed f sat fun k => op (intElem b f l o.a k) (intElem b f l o.b k) := by
  rw [elemwise2, Block.elems, Block.elems, List.zip_map', List.map_map]
  rfl

theorem elemwise1_narrowed (b : Block) (f : Tag) (sat : Bool) (x : Opd) (op : Int → Int) (l : Nat) :
    delivered f f ((b.elems l f x).map fun e => narrow f sat (op (num f e))) = narrowed f sat fun k => op (intElem b f l x k) := by
  rw [Block.elems, List.map_map]
  rfl

theorem elemwise3_narrowed (b : Block) (f : Tag) (sat : Bool) (x y z : Opd) (op : Int → Int → Int → Int) (l : Nat) :
    delivered f f (((b.elems l f x).zip (b.elems l f y)).zip (b.elems l f z) |>.map fun ((x, y), z) =>
      narrow f sat (op (num f x) (num f y) (num f z))) =
      narrowed f sat fun k => op (intElem b f l x k) (intElem b f l y k) (intElem b f l z k) := by
  rw [Block.elems, Block.elems, Block.elems, List.zip_map', List.zip_map', List.map_map]
  rfl

/-- An instruction that completes with narrowed results gives what the statement asks of it. -/
theorem CompletesFixed.elementwise {i : Instr} {h : Head} {sps : List SrcSpec} {d : Opd} {lat : Nat} {res : Block → Nat → LaneRes}
    {f : Tag} {sat : Bool} {s : State} {b : Block} {c : Ctx} {t : Nat → Nat → Int} (e : CompletesFixed i h sps [] d 1 7 lat res)
    (hi : Issuing s b c h) (hc : Clear s b h (b.work c h) sps d 1 7 []) (hr : ∀ l, res b l = narrowed f sat (t l)) :
    ∃ res : Nat → LaneRes, exec i s = .next (s.issueFixed b c h (b.work c h) d 7 lat ((b.work c h).src.map fun l => (l, res l))) ∧
      ∀ l, Elementwise f sat (t l) (res l) :=
  ⟨res b, e s b c hi hc, fun l => hr l ▸ narrowed_elementwise f sat (t l)⟩

/-- Settles O52: each instruction completes with a fixed latency (`integerInstructionsComplete`), with the results of its sub-elements
narrowed. -/
theorem integerElementResults : Obligations.IntegerElementResults := by
  obtain ⟨iadd, isub, -, imul, imulh, imad, -, imin, imax, iabs, ineg, -⟩ := integerInstructionsComplete
  intro h f sat x2 o o4 s b c _ hi w el gives
  refine ⟨fun hc => ⟨?_, ?_, ?_, ?_, ?_, ?_⟩, fun hc => ?_, fun hc => ⟨?_, ?_⟩⟩
  · exact (iadd h f sat o).elementwise hi hc (elemwise2_narrowed b f sat o _)
  · exact (isub h f sat o).elementwise hi hc (elemwise2_narrowed b f sat o _)
  · exact (imul h f sat o).elementwise hi hc (elemwise2_narrowed b f sat o _)
  · exact (imulh h f o).elementwise hi hc (elemwise2_narrowed b f false o _)
  · exact (imin h f o).elementwise hi hc (elemwise2_narrowed b f false o _)
  · exact (imax h f o).elementwise hi hc (elemwise2_narrowed b f false o _)
  · exact (imad h f sat o4).elementwise hi hc (elemwise3_narrowed b f sat o4.a o4.b o4.c fun x y z => x * y + z)
  · exact (iabs h f sat x2).elementwise hi hc (elemwise1_narrowed b f sat x2.a fun x => x.natAbs)
  · exact (ineg h f sat x2).elementwise hi hc (elemwise1_narrowed b f sat x2.a fun x => -x)

end Sys2Proof.Machine
end

section
/-! PROOFS. Events of a block's storage: backed scratchpad lines, released slots, the release of a block (R143, R239, R297, R299, R303). -/

namespace Sys2Proof.Machine

section
variable {s : State} {blk : Nat} {b : Block} (hb : s.block? blk = some b)
include hb

/-- A backed line that awaits its bytes is filled, or waits for the line at its home (R297). -/
theorem execScratchpadFill_eq {line : Nat} {s1 : State} {r : Filled} (hn : b.needsFill line = true)
    (hf : s.fillLine blk line = (s1, r)) (hr : r = .ok ∨ r = .wait) : exec (.scratchpadFill blk line) s = .next s1 := by
  change execScratchpadFill blk line s = _
  rw [execScratchpadFill, hb]
  dsimp only
  rw [hn, hf]
  rcases hr with rfl | rfl <;> rfl

/-- A backed line is written back, or waits for the line at its home (R299). -/
theorem execScratchpadWriteback_eq {line : Nat} {s1 : State} {r : Filled} (hw : b.wbWaits = none)
    (hf : s.writeBackLine b line = (s1, r)) (hr : r = .ok ∨ r = .wait) : exec (.scratchpadWriteback blk line) s = .next s1 := by
  change execScratchpadWriteback blk line s = _
  rw [execScratchpadWriteback, hb]
  dsimp only
  rw [hw, hf]
  rcases hr with rfl | rfl <;> rfl

/-- A released slot that nothing before the release uses returns to its pool (R239). -/
theorem execSlotReturn_eq {id : Nat} {t : TileOp} (ht : s.tileOps.find? (·.id == id) = some t) (own : t.blk = blk) (hk : t.kind = .trel)
    (hr : s.releaseReady t = true) : exec (.slotReturn id) s = .next ((s.freeSlots b.cluster t.isC t.phys).endTileOp t) := by
  subst own
  change execSlotReturn id s = _
  rw [execSlotReturn, ht]
  dsimp only
  rw [hb]
  dsimp only
  rw [hk, hr]
  rfl

/-- A block that is done, and whose cluster has nothing left to write back, frees its storage, or keeps its scratchpad while the cluster
lives (R143, R303). -/
theorem execBlockRelease_eq (hst : b.st ≠ .retained) (hs : b.isSaved = false) (hd : s.blockDone b = true) (ht : b.tsErr = none)
    (clean : (b :: s.clusterKept b).find? (fun q => !q.dirtyLines.isEmpty) = none) :
    let s2 := (((b.slots.map (·.1)).foldl (·.slotGone b ·) s).returnSlots b).forget blk
    exec (.blockRelease blk) s = .next (if s.clusterLive b then
        s2.setBlock { b with lanes := [], groups := [], cohorts := [], rdvs := [], sets := [], slots := [],
                             tsErr := none, st := .retained }
      else
        { s2 with
          blocks := s2.blocks.filter fun q => !(blk :: (s.clusterKept b).map (·.id)).contains q.id,
          launches := updWhere (·.id == b.launch)
            (fun l => { l with live := l.live.filter fun k => !(blk :: (s.clusterKept b).map (·.id)).contains k })
            s2.launches }) := by
  have goes : (b.st == .retained || b.isSaved || !s.blockDone b) = false := by simp [hst, hs, hd]
  have nothing : (b :: if !s.clusterLive b then s.clusterKept b else []).find? (fun q => !q.dirtyLines.isEmpty) = none := by
    rw [List.find?_eq_none] at clean ⊢
    intro q hq
    refine clean q ?_
    split at hq
    · exact hq
    · rw [List.mem_singleton.1 hq]
      exact List.mem_cons_self
  change execBlockRelease blk s = _
  rw [execBlockRelease, hb]
  dsimp only
  rw [goes, nothing, ht]
  cases s.clusterLive b <;> rfl

end

/-- Settles O24: each event by its equation above. -/
theorem storageEventsComplete : Obligations.StorageEventsComplete :=
  fun _ _ _ hb => ⟨fun _ _ _ hn hf hr => execScratchpadFill_eq hb hn hf hr, fun _ _ _ hw hf hr => execScratchpadWriteback_eq hb hw hf hr,
    fun _ _ ht own hk hr => execSlotReturn_eq hb ht own hk hr, execBlockRelease_eq hb⟩

end Sys2Proof.Machine
end

section
/-! PROOFS. Reductions and scans across a set or a block (R206, R207). -/

namespace Sys2Proof.Machine

/-- A reduction or scan across a set or a block that no check stops goes in flight when its tag is free (R207). -/
theorem State.crossLong_eq {s : State} {b : Block} {c : Ctx} {i : Instr} {h : Head} {a d : Opd} {chk : Chk} {tag : Nat}
    {f : Block → Ctx → Nat → LaneRes} (hi : Issuing s b c h)
    (hc : ClearPlain s b (b.crossWork c h) (b.crossWork c h).src ((b.crossWork c h).recv.map (·.1)) ([⟨a, chk⟩] ++ needs h d)
      (dstCodes d 1) [])
    (ht : ∀ l ∈ b.tagLanes h (b.crossWork c h), s.tagBusy b l tag = false) :
    s.crossLong i h a d chk tag f =
      let w := b.crossWork c h
      let rs := w.src.map fun l => (l, f b c l)
      .next (s.issueLong b c h w d 1 tag .wrs true (w.regWrites b d rs ++ w.flagWrites rs)) := by
  have gate : s.gate b (b.crossWork c h).src ((b.crossWork c h).recv.map (·.1)) (⟨a, chk⟩ :: needs h d) (dstCodes d 1) [] = .pass := hc.gate
  unfold State.crossLong
  rw [State.issue_eq hi]
  dsimp only
  rw [Work.acts_goes hc.acts, State.gated_eq hi gate, if_neg (by simpa using ht)]

/-- A scope of a set or of a block is wider than a group's. -/
theorem scope_wider {sc : Scope} (h : sc = .set ∨ sc = .block) : ¬ (sc == .group || sc == .lane) = true := by
  rcases h with rfl | rfl <;> decide

/-- Settles O8: at these scopes REDUX and SCAN go in flight by `State.crossLong_eq`, and an issue under a pending tag changes no register
file (`State.issueLong_frame`). -/
theorem wideReductionsComplete : Obligations.WideReductionsComplete := by
  intro h f w op excl pt o s b c hs hi hc ht
  refine ⟨⟨?_, State.issueLong_frame hi.block _ _ _ _ _ _ _ _ _⟩, ⟨?_, State.issueLong_frame hi.block _ _ _ _ _ _ _ _ _⟩⟩
  · change execRedux h f w op pt o s = _
    rw [execRedux, if_neg (scope_wider hs), State.crossLong_eq hi hc ht]
  · change execScan h f w op excl pt o s = _
    rw [execScan, if_neg (scope_wider hs), State.crossLong_eq hi hc ht]

end Sys2Proof.Machine
end

section
/-! PROOFS. PSUB narrows a pointer (R220). -/

namespace Sys2Proof.Machine

/-! ## The fields of a pointer with another extent -/

/-- The low k bits of what stands from bit `lo` on, and what stands above them. -/
theorem div_pow_eq_low_add (x lo k : Nat) : x / 2 ^ lo = x / 2 ^ lo % 2 ^ k + 2 ^ k * (x / 2 ^ (lo + k)) := by
  rw [Nat.pow_add, ← Nat.div_div_eq_div_mul, Nat.mod_add_div]

/-- The fields above EXTENT are the upper quarter of the pointer (R82). -/
theorem ptr_fields_above_extent {x : Nat} (hx : x < 2 ^ 128) :
    x / 2 ^ 96 % 2 ^ 4 * 2 ^ 96 + x / 2 ^ 100 % 2 ^ 4 * 2 ^ 100 + x / 2 ^ 104 % 2 ^ 3 * 2 ^ 104 + x / 2 ^ 107 % 2 ^ 2 * 2 ^ 107 +
      x / 2 ^ 109 % 2 ^ 3 * 2 ^ 109 + x / 2 ^ 112 % 2 ^ 4 * 2 ^ 112 + x / 2 ^ 116 % 2 ^ 8 * 2 ^ 116 + x / 2 ^ 124 % 2 ^ 1 * 2 ^ 124 +
      x / 2 ^ 125 % 2 ^ 1 * 2 ^ 125 + x / 2 ^ 126 % 2 ^ 2 * 2 ^ 126 = x / 2 ^ 96 * 2 ^ 96 := by
  have none_above : x / 2 ^ 128 = 0 := Nat.div_eq_of_lt hx
  linarith [div_pow_eq_low_add x 96 4, div_pow_eq_low_add x 100 4, div_pow_eq_low_add x 104 3, div_pow_eq_low_add x 107 2,
    div_pow_eq_low_add x 109 3, div_pow_eq_low_add x 112 4, div_pow_eq_low_add x 116 8, div_pow_eq_low_add x 124 1,
    div_pow_eq_low_add x 125 1, div_pow_eq_low_add x 126 2]

/-- The flags XUNIT and SUBMODE of a pointer as bits of its value (R82). -/
theorem Ptr.pack_eq (p : Ptr) :
    p.pack = BitVec.ofNat 128 (p.base % 2 ^ 64 + p.extent % 2 ^ 32 * 2 ^ 64 + p.sfmt % 16 * 2 ^ 96 + p.vfmt % 16 * 2 ^ 100 +
      p.space % 8 * 2 ^ 104 + p.cls % 4 * 2 ^ 107 + p.scope % 8 * 2 ^ 109 + p.stream % 16 * 2 ^ 112 + p.home % 256 * 2 ^ 116 +
      p.xunit.toNat * 2 ^ 124 + p.submode.toNat * 2 ^ 125 + p.policy % 4 * 2 ^ 126) := by
  unfold Ptr.pack
  cases p.xunit <;> cases p.submode <;> rfl

theorem toNat_pack_extent (v : BitVec 128) (n : Nat) :
    ({ ptrOf v with extent := n } : Ptr).pack.toNat = v.toNat % 2 ^ 64 + n % 2 ^ 32 * 2 ^ 64 + v.toNat / 2 ^ 96 * 2 ^ 96 := by
  have inside : v.toNat % 2 ^ 64 + n % 2 ^ 32 * 2 ^ 64 + v.toNat / 2 ^ 96 * 2 ^ 96 < 2 ^ 128 := by
    have := v.isLt
    omega
  rw [← Nat.mod_eq_of_lt inside, ← ptr_fields_above_extent v.isLt, Ptr.pack_eq, BitVec.toNat_ofNat]
  simp only [ptrOf, bits, bit, Nat.toNat_testBit, Nat.reduceAdd, Nat.reduceSub, pow_zero, Nat.div_one, pow_one, Nat.add_assoc]
  norm_num only [Nat.mod_mod]

/-- A pointer pair delivers the pointer with the new extent and every other field as it was (R82, R84). -/
theorem ptrRes_pack_extent (v : BitVec 128) (n : Nat) :
    ptrRes ({ ptrOf v with extent := n } : Ptr).pack =
      ⟨[⟨v.setWidth 64, .ptrLo⟩, ⟨(v.extractLsb' 96 32 ++ BitVec.ofNat 32 n : BitVec 64), .ptrHi⟩], 0, none, none⟩ := by
  have lo : (({ ptrOf v with extent := n } : Ptr).pack).setWidth 64 = v.setWidth 64 := by
    apply BitVec.eq_of_toNat_eq
    rw [BitVec.toNat_setWidth, BitVec.toNat_setWidth, toNat_pack_extent]
    omega
  have hi : (({ ptrOf v with extent := n } : Ptr).pack >>> 64).setWidth 64 =
      (v.extractLsb' 96 32 ++ BitVec.ofNat 32 n : BitVec 64) := by
    apply BitVec.eq_of_toNat_eq
    have := v.isLt
    rw [BitVec.toNat_setWidth, BitVec.toNat_ushiftRight, toNat_pack_extent, BitVec.toNat_append, BitVec.extractLsb'_toNat,
      BitVec.toNat_ofNat, ← Nat.shiftLeft_add_eq_or_of_lt (Nat.mod_lt _ (by decide)), Nat.shiftLeft_eq, Nat.shiftRight_eq_div_pow,
      Nat.shiftRight_eq_div_pow]
    omega
  rw [ptrRes, lo, hi]

/-! ## A check that a lane either fails or passes -/

/-- The least of some equal ranks. -/
theorem foldl_least_const {g : Option Nat → Nat → Option Nat} (first : ∀ x, g none x = some x)
    (next : ∀ y x, g (some y) x = some (min y x)) {r : Nat} {l : List Nat} (h : ∀ x ∈ l, x = r) (hl : l ≠ []) :
    l.foldl g none = some r := by
  have rest (l : List Nat) (h : ∀ x ∈ l, x = r) : l.foldl g (some r) = some r := by
    induction l with
    | nil => rfl
    | cons x l ih =>
      obtain ⟨rfl, hl⟩ := List.forall_mem_cons.1 h
      rw [List.foldl_cons, next, Nat.min_self, ih hl]
  obtain ⟨x, l, rfl⟩ := List.exists_cons_of_ne_nil hl
  obtain ⟨rfl, hl⟩ := List.forall_mem_cons.1 h
  rw [List.foldl_cons, first, rest l hl]

/-- Where every failure has the same rank, the check names all the lanes that fail it, and the failure in the lowest of them (R46, R99). -/
theorem firstBad_filter {p : Nat → Prop} [DecidablePred p] {x : Nat → Bad} {r : Nat} (hr : ∀ l, (x l).rank = r) {ls ms : List Nat} {l : Nat}
    (h : ls.filter (fun l => decide (p l)) = l :: ms) :
    firstBad (ls.map fun l => (l, if p l then some (x l) else none)) = some (x l, l :: ms) := by
  have found : (ls.map fun l => (l, if p l then some (x l) else none)).filterMap (fun (m, b) => b.map fun b => (m, b)) =
      (l :: ms).map fun l => (l, x l) := by
    rw [← h, List.filterMap_map]
    clear h
    induction ls with
    | nil => rfl
    | cons k ks ih =>
      by_cases hk : p k <;> simp [hk] <;> simpa using ih
  have keep : ((l :: ms).map fun l => (l, x l)).filter (fun q => q.2.rank == r) = (l :: ms).map fun l => (l, x l) :=
    List.filter_eq_self.2 fun q hq => by
      obtain ⟨m, -, rfl⟩ := List.mem_map.1 hq
      exact beq_iff_eq.2 (hr m)
  have ranks : ∀ y ∈ ((l :: ms).map fun l => (l, x l)).map (·.2.rank), y = r := fun y hy => by
    rw [List.map_map] at hy
    obtain ⟨m, -, rfl⟩ := List.mem_map.1 hy
    exact hr m
  unfold firstBad
  dsimp only
  rw [found, foldl_least_const (fun _ => rfl) (fun _ _ => rfl) ranks (List.cons_ne_nil _ _)]
  dsimp only
  rw [keep, List.map_map]
  exact congrArg (fun ls => some (x l, l :: ls)) (List.map_id ms)

/-- Such a check traps in the lanes that fail it, each with what it found there. -/
theorem State.checked_filter {s : State} {b : Block} {c : Ctx} {h : Head} {p : Nat → Prop} [DecidablePred p] {x : Nat → Bad} {r : Nat}
    {k : Out} (hr : ∀ l, (x l).rank = r) {ls ms : List Nat} {l : Nat} (hx : (x l).holds = false)
    (e : ls.filter (fun l => decide (p l)) = l :: ms) :
    ∃ args : Nat → TrapArgs, s.checked b c h (ls.map fun l => (l, if p l then some (x l) else none)) k =
        .next (s.raise b c h.scope (x l).trap (l :: ms) args 0) ∧
      ∀ m ∈ l :: ms, args m = ⟨BitVec.ofNat 64 (x m).detail, BitVec.ofNat 64 (x m).addr, 0⟩ := by
  refine ⟨_, by rw [State.checked, firstBad_filter hr e]; dsimp only; rw [hx]; rfl, fun m hm => ?_⟩
  rw [← e] at hm
  obtain ⟨hl, hp⟩ := List.mem_filter.1 hm
  have fails : p m := of_decide_eq_true hp
  rw [find?_bad (bad := fun l => if p l then some (x l) else none) hl]
  simp [fails]

/-- PSUB's extent is larger than the pointer's in some lane: EXTENT in the lanes where it is (R220). -/
theorem State.psub_traps {s : State} {b : Block} {c : Ctx} {h : Head} {o : O3} (hi : Issuing s b c h) (ha : (b.work c h).acts = true)
    (hg : s.gate b (b.work c h).src ((b.work c h).recv.map (·.1)) (ptrSpecs o.a ++ [⟨o.b, .int64⟩] ++ needs h o.d) (dstCodes o.d 2) [] =
      .pass) {l : Nat} {ms : List Nat}
    (e : (b.work c h).src.filter (fun l => decide ((ptrOf (b.readPtr l o.a)).extent < bits (b.read l .plain o.b).bits.toNat 31 0)) = l :: ms) :
    ∃ args : Nat → TrapArgs, exec (.psub h o) s = .next (s.raise b c h.scope .extent (l :: ms) args 0) ∧
      ∀ m ∈ l :: ms, args m = ⟨0, BitVec.ofNat 64 (ptrOf (b.readPtr m o.a)).base, 0⟩ := by
  obtain ⟨args, run, found⟩ := State.checked_filter (s := s) (b := b) (c := c) (h := h) (r := 1)
    (x := fun l => ⟨1, .extent, 0, (ptrOf (b.readPtr l o.a)).base⟩)
    (k := .next (s.issueFixed b c h (b.work c h) o.d 7 4 ((b.work c h).src.map fun l =>
      (l, ptrRes ({ ptrOf (b.readPtr l o.a) with extent := bits (b.read l .plain o.b).bits.toNat 31 0 } : Ptr).pack))))
    (fun _ => rfl) rfl e
  refine ⟨args, ?_, found⟩
  change execPsub h o s = _
  rw [execPsub, State.aluChk, State.issue_eq hi]
  dsimp only
  rw [Work.acts_goes ha, State.gated_eq hi hg]
  exact run

/-- Settles O55: where no lane's extent grows PSUB issues the pointer with its new extent (`ptrRes_pack_extent`); otherwise it traps
(`State.psub_traps`). -/
theorem psubNarrows : Obligations.PsubNarrows := by
  intro h o s b c hi w n old hc
  have hn (l : Nat) : bits (b.read l .plain o.b).bits.toNat 31 0 = n l := by simp [bits, n]
  refine ⟨fun fits => ?_, fun l ls e => ?_⟩
  · change execPsub h o s = _
    rw [execPsub, State.aluChk_eq hi hc.acts hc.gate]
    · simp only [ptrRes_pack_extent, hn]
      rfl
    · exact fun l hl => if_neg (Nat.not_lt.2 ((hn l).trans_le (fits l hl)))
  · obtain ⟨args, run, found⟩ := State.psub_traps (o := o) hi hc.acts hc.gate (l := l) (ms := ls) (by simp only [hn]; exact e)
    refine ⟨args, run, fun m hm => (found m hm).trans ?_⟩
    have base : BitVec.ofNat 64 (ptrOf (b.readPtr m o.a)).base = (old m).setWidth 64 := by
      apply BitVec.eq_of_toNat_eq
      simp [ptrOf, bits, old]
    rw [base]

end Sys2Proof.Machine
end

section
/-! PROOFS. Copies taken and pushed to, replies, lost messages, chords and time (R213, R416 to R418, R424 to R427). -/

namespace Sys2Proof.Machine

/-- A message that is received is accepted and acted on (R424, R425). -/
theorem State.receive_eq {s : State} {m : Msg} {type : Nat} {k : State → Out} (h : Received s m type) :
    s.receive m type k = k (s.noteSeq m) := by
  obtain ⟨fabric, first, ok⟩ := h
  unfold State.receive
  dsimp only
  rw [fabric, first, ok]
  rfl

/-! ## Copies taken and pushed to (R416 to R418) -/

/-- A die that holds no stores to a line drops its copies of it and says so. -/
theorem State.yieldLine_dropped {s : State} {m : Msg}
    (h : (s.wake m.ddie).remotes.any (fun r => r.die == m.ddie && r.pos == m.src && r.line == m.at_ / 128 && r.excl) = false) :
    s.yieldLine m = ((s.wake m.ddie).dropCopies m.ddie m.src (m.at_ / 128)).acknowledge m := by
  have absent : (s.wake m.ddie).remotes.find? (fun r => r.die == m.ddie && r.pos == m.src && r.line == m.at_ / 128 && r.excl) = none :=
    List.find?_eq_none.2 (by simpa using h)
  rw [State.yieldLine, absent]

/-- One that does writes them back first. -/
theorem State.yieldLine_givenBack {s : State} {m : Msg} {r : RemoteLine}
    (h : (s.wake m.ddie).remotes.find? (fun r => r.die == m.ddie && r.pos == m.src && r.line == m.at_ / 128 && r.excl) = some r) :
    s.yieldLine m = (s.wake m.ddie).giveBack (some m) r := by
  rw [State.yieldLine, h]

theorem execInvalidation_eq {s : State} {m : Msg} (hm : Received s m tInval) :
    execInvalidation m s = .next ((s.noteSeq m).yieldLine m) := State.receive_eq hm

theorem execRevocation_eq {s : State} {m : Msg} (hm : Received s m tRevoke) :
    execRevocation m s = .next ((s.noteSeq m).yieldLine m) := State.receive_eq hm

/-- What a die has asked of a peer may bring no copy any longer. -/
theorem State.dropCopies_keep {s : State} {d pos line : Nat} {q : Request} (hq : q ∈ (s.dropCopies d pos line).requests)
    (hp : q.dest = pos) (hd : q.msg.sdie = d) : q.keep = false := by
  obtain ⟨e, -, rfl⟩ := List.mem_map.1 hq
  by_cases mine : (e.dest == pos && e.msg.sdie == d) = true
  · rw [if_pos mine]
  · rw [if_neg mine] at hp hd
    exact absurd (by simp [hp, hd]) mine

/-! ## Replies (R213, R416) -/

/-- A data reply to an engine: what it brings is kept where it may be, and the line has come. -/
theorem State.engCame_of_data {s : State} {r : Request} {m : Msg} {who pos off : Nat} (h : r.msg.type ≠ tOwn) :
    s.engCame r m who pos off =
      (((copyOf r m).map s.holdCopy).getD s).engGot who pos off (m.body.take r.msg.bytes, m.mark) := by
  have hb : (r.msg.type == tOwn) = false := beq_eq_false_iff_ne.2 h
  unfold State.engCame
  cases copyOf r m <;> simp [hb]

/-- What a data reply does in the lane it serves. -/
theorem execDataReply_lane {s : State} {m : Msg} {r : Request} {acc lane : Nat} (hm : Received s m tData)
    (hr : (s.noteSeq m).requestOf m = some r) (hs : r.serves = .lane acc lane) (ht : r.msg.type ≠ tOwn) :
    execDataReply m s = .next (((s.noteSeq m).dropRequest r).servedLane r acc lane fun s a x =>
      let s := if r.msg.type = tSync then s.acquireAt (((s.block? a.blk).map (·.coreKey)).getD 0) else s
      (((copyOf r m).map s.holdCopy).getD s, x.more (m.body.take r.msg.bytes) m.mark)) := by
  have hb : (r.msg.type == tOwn) = false := beq_eq_false_iff_ne.2 ht
  rw [execDataReply, State.receive_eq hm, hr]
  dsimp only
  rw [hs, hb]
  simp only [Bool.false_eq_true, if_false, beq_iff_eq]

theorem execDataReply_eng {s : State} {m : Msg} {r : Request} {op pos off : Nat} (hm : Received s m tData)
    (hr : (s.noteSeq m).requestOf m = some r) (hs : r.serves = .eng op pos off) (ht : r.msg.type ≠ tOwn) :
    let s1 := (s.noteSeq m).dropRequest r
    execDataReply m s = .next ((((copyOf r m).map s1.holdCopy).getD s1).engGot op pos off (m.body.take r.msg.bytes, m.mark)) := by
  rw [execDataReply, State.receive_eq hm, hr]
  dsimp only
  rw [hs]
  exact congrArg Host.Outcome.next (State.engCame_of_data ht)

/-- A transfer engine's payload is acknowledged, or refused: then the entry fails (R415, R428). -/
theorem execAcknowledgement_send {s : State} {m : Msg} {r : Request} {k off : Nat} (hm : Received s m tAck)
    (hr : (s.noteSeq m).requestOf m = some r) (hs : r.serves = .send k off) :
    execAcknowledgement m s = .next ((s.noteSeq m).dropRequest r) := by
  rw [execAcknowledgement, State.receive_eq hm, hr]
  dsimp only
  rw [hs]

theorem execErrorReply_send {s : State} {m : Msg} {r : Request} {k off : Nat} (hm : Received s m tError)
    (hr : (s.noteSeq m).requestOf m = some r) (hs : r.serves = .send k off) :
    let s1 := (s.noteSeq m).dropRequest r
    execErrorReply m s = .next { s1 with sends := updWhere (·.id == k) (fun e => { e with failed := true }) s1.sends } := by
  rw [execErrorReply, State.receive_eq hm, hr]
  dsimp only
  rw [hs]

/-! ## Discards, lost messages, chords (R424, R426) -/

/-- A request is named by its destination and its sequence number. -/
theorem execRequestTimeout_eq {s : State} {r : Request} {dest seq : Nat}
    (hr : s.requests.find? (fun r => r.dest == dest && r.seq == seq) = some r) (hs : seq < 2 ^ 48)
    (ht : r.sentAt.toNat + 1000000 ≤ (s.die r.msg.sdie).time.toNat) :
    execRequestTimeout (dest * 2 ^ 48 + seq) s = .next (s.loseRequest r).dropBroken := by
  have hd : (dest * 2 ^ 48 + seq) / 2 ^ 48 = dest := by omega
  have hq : (dest * 2 ^ 48 + seq) % 2 ^ 48 = seq := by omega
  rw [execRequestTimeout, hd, hq, hr]
  dsimp only
  rw [if_pos ht]

/-- A message for another device is relayed by DEST alone, or goes back to its source. -/
theorem execChordRelay_eq {s : State} {m : Msg} (hf : s.hasUnit 5 = true) (hd : m.dest ≠ s.pos) (hs : m.src ≠ s.pos) :
    execChordRelay m s = .next { s with outbox := s.outbox ++ [(if s.faces m.dest then m.dest else m.src, m)] } := by
  rw [execChordRelay, hf, if_neg (by simp [hd, hs])]

theorem execChordReturn_eq {s : State} {m : Msg} (hf : s.hasUnit 5 = true) (hs : m.src = s.pos) :
    execChordReturn m s = .next (s.reroute m (((s.outbox ++ s.wire).filter (·.2 == m)).map (·.1))) := by
  rw [execChordReturn, hf, if_neg (by simp [hs])]

/-! ## Pod time (R427, R449) -/

theorem foldl_max_le_iff {l : List Nat} {a n : Nat} : l.foldl max a ≤ n ↔ a ≤ n ∧ ∀ x ∈ l, x ≤ n := by
  induction l generalizing a with
  | nil => simp
  | cons x l ih => simp [ih, and_assoc]

theorem State.joinAt_of_joined {s : State} (h : s.joined = true) (t : Nat) : s.joinAt t = s := by rw [State.joinAt, if_pos h]

theorem State.joinAt_joined (s : State) (t : Nat) : (s.joinAt t).joined = true := by
  cases h : s.joined with
  | true => rw [State.joinAt_of_joined h, h]
  | false => simp [State.joinAt, h]

/-- A device that joins takes a pod time no earlier than any TIME.POD has read, nor than the one it is told. -/
theorem State.joinAt_podTime {s : State} (h : s.joined = false) {t : Nat} (ht : t < 2 ^ 64) :
    (s.joinAt t).podTime.toNat = max ((s.dies.map (·.time.toNat)).foldl max s.podTime.toNat) t := by
  have small : (s.dies.map (·.time.toNat)).foldl max s.podTime.toNat ≤ 2 ^ 64 - 1 := by
    refine foldl_max_le_iff.2 ⟨Nat.le_sub_one_of_lt s.podTime.isLt, fun x hx => ?_⟩
    obtain ⟨d, -, rfl⟩ := List.mem_map.1 hx
    exact Nat.le_sub_one_of_lt d.time.isLt
  rw [State.joinAt, h]
  change (BitVec.ofNat 64 _).toNat = _
  rw [BitVec.toNat_ofNat, Nat.mod_eq_of_lt]
  omega

theorem State.joinAt_podTime_ge {s : State} (h : s.joined = false) {t : Nat} (ht : t < 2 ^ 64) :
    (s.podTime.toNat ≤ (s.joinAt t).podTime.toNat ∧ ∀ d ∈ s.dies, d.time.toNat ≤ (s.joinAt t).podTime.toNat) ∧
      t ≤ (s.joinAt t).podTime.toNat := by
  obtain ⟨own, dies⟩ := foldl_max_le_iff.1 (Nat.le_refl ((s.dies.map (·.time.toNat)).foldl max s.podTime.toNat))
  rw [State.joinAt_podTime h ht]
  exact ⟨⟨own.trans (Nat.le_max_left ..), fun d hd => (dies _ (List.mem_map_of_mem hd)).trans (Nat.le_max_left ..)⟩,
    Nat.le_max_right ..⟩

/-- The bound is no less than what the counters are seen to differ by. -/
theorem State.measure_podSkew (s : State) (t : Nat) :
    min 65535 (max t s.podTime.toNat - min t s.podTime.toNat) ≤ (s.measure t).podSkew.toNat := by
  have bound : (s.measure t).podSkew = BitVec.ofNat 16 (min (2 ^ 16 - 1) (max ((Config.freeWord s.free).toNat % 2 ^ 16)
      (max t s.podTime.toNat - min t s.podTime.toNat))) := rfl
  rw [bound, BitVec.toNat_ofNat, Nat.mod_eq_of_lt (by omega)]
  exact le_min (Nat.min_le_left ..) ((Nat.min_le_right ..).trans (Nat.le_max_right ..))

theorem ofBytes_lt (bs : List Byte) : ofBytes bs < 256 ^ bs.length := by
  induction bs with
  | nil => exact Nat.one_pos
  | cons b bs ih =>
    have := b.isLt
    rw [ofBytes, List.length_cons, Nat.pow_succ]
    omega

/-- Eight bytes of a message are a word. -/
theorem ofBytes_take_eight_lt (bs : List Byte) : ofBytes (bs.take 8) < 2 ^ 64 :=
  (ofBytes_lt _).trans_le ((Nat.pow_le_pow_right (by decide) (List.length_take_le 8 bs)).trans (by decide))

/-- A question is answered with this device's pod time, which it joins if it is the grandmaster and had not. -/
theorem execTimeExchange_asked {s : State} {m : Msg} (hm : Received s m tTime) (h0 : m.body.getD 0 0 = 0) :
    ∃ t : State, execTimeExchange m s = .next (t.answer m tTime (timeBody 1 t.podTime) false) ∧
      t = if (s.noteSeq m).master.isSome then s.noteSeq m else ((s.noteSeq m).joinAt 0).measure (ofBytes ((m.body.drop 8).take 8)) := by
  refine ⟨_, ?_, rfl⟩
  rw [execTimeExchange, State.receive_eq hm, if_pos h0]

/-- The grandmaster's answer lets a device join, and is measured. -/
theorem execTimeExchange_answered {s : State} {m : Msg} (hm : Received s m tTime) (h0 : m.body.getD 0 0 ≠ 0)
    (hg : (s.noteSeq m).master = some m.src) :
    execTimeExchange m s = .next (((s.noteSeq m).joinAt (ofBytes ((m.body.drop 8).take 8))).measure (ofBytes ((m.body.drop 8).take 8))) := by
  rw [execTimeExchange, State.receive_eq hm, if_neg h0, hg, if_neg (by simp)]

theorem State.sendMsg_podTime (s : State) (d dest ddie type tenant expidx egen : Nat) (off : Word) (body : List Byte) :
    (s.sendMsg d dest ddie type tenant expidx egen off body).1.podTime = s.podTime := by
  obtain ⟨o, p, e⟩ := s.sendMsg_eq d dest ddie type tenant expidx egen off body
  rw [e]

theorem State.sendMsg_dies (s : State) (d dest ddie type tenant expidx egen : Nat) (off : Word) (body : List Byte) :
    (s.sendMsg d dest ddie type tenant expidx egen off body).1.dies = s.dies := by
  obtain ⟨o, p, e⟩ := s.sendMsg_eq d dest ddie type tenant expidx egen off body
  rw [e]

/-- The exchange of every µs slews the counters that are named, and asks the grandmaster. -/
theorem State.timeSync_times (s : State) (pod pkg : List Nat) :
    (s.timeSync pod pkg).podTime = (if s.joined && s.master.isSome then slew s.podTime (pod.headD 0) else s.podTime) ∧
      (s.timeSync pod pkg).dies = s.dies.mapIdx fun i d => { d with time := slew d.time (pkg.getD i 0) } := by
  unfold State.timeSync
  dsimp only
  split
  · exact ⟨State.sendMsg_podTime .., State.sendMsg_dies ..⟩
  · exact ⟨rfl, rfl⟩

/-! ## Leases that have run out (R417, R418) -/

/-- A lease that has run out has ended, and no other lease changes. -/
theorem execLeaseExpire_leases (s : State) (line : Nat) (pos : BitVec 4) : ∃ t, execLeaseExpire line pos s = .next t ∧
    (∀ e ∈ s.leases, ¬ (e.line = line ∧ e.pos = pos) → e ∈ t.leases) ∧
    ∀ e ∈ t.leases, e.line = line → e.pos = pos → s.leaseOver e = true → e.ended = true := by
  refine ⟨_, rfl, fun e he other => ?_, fun e he hl hp ran => ?_⟩
  · have miss : (e.line == line && e.pos == pos && s.leaseOver e) = false := by
      rw [Bool.and_eq_false_iff]
      exact .inl (by simpa using other)
    exact List.mem_map.2 ⟨e, List.mem_filter.2 ⟨he, by simp [miss]⟩, by simp [miss]⟩
  · obtain ⟨e0, -, rfl⟩ := List.mem_map.1 he
    by_cases hit : (e0.line == line && e0.pos == pos && s.leaseOver e0) = true
    · rw [if_pos hit]
    · rw [if_neg hit] at hl hp ran
      exact absurd (by simp [hl, hp, ran]) hit

/-- Settles O32: each message and event by its equation above. -/
theorem fabricRepliesComplete : Obligations.FabricRepliesComplete := by
  intro s m
  refine ⟨?_, ?_, fun die hf => ?_, fun r dest seq => execRequestTimeout_eq, execChordRelay_eq, execChordReturn_eq, rfl, ?_, ?_, ?_, ?_,
    execLeaseExpire_leases s⟩
  · intro s1 here
    refine ⟨fun clear => ?_, fun r held => ?_, fun hm => ?_⟩
    · refine ⟨s1.dropCopies m.ddie m.src (m.at_ / 128), fun hm => ?_, fun hm => ?_, rfl, fun q => State.dropCopies_keep⟩
      · exact (execInvalidation_eq hm).trans (congrArg Host.Outcome.next (State.yieldLine_dropped clear))
      · exact (execRevocation_eq hm).trans (congrArg Host.Outcome.next (State.yieldLine_dropped clear))
    · exact ⟨fun hm => (execInvalidation_eq hm).trans (congrArg Host.Outcome.next (State.yieldLine_givenBack held)),
        fun hm => (execRevocation_eq hm).trans (congrArg Host.Outcome.next (State.yieldLine_givenBack held))⟩
    · change execPush m s = _
      rw [execPush, State.receive_eq hm]
  · intro r k off hr s1
    exact ⟨fun hm => execAcknowledgement_send hm hr, fun hm => execErrorReply_send hm hr,
      fun op pos hm => execDataReply_eng hm hr, fun acc lane hm => execDataReply_lane hm hr⟩
  · change Host.Outcome.next (if s.hasUnit 5 then s.discardMsg die.val m else s) = _
    rw [if_pos hf]
    rfl
  · intro hm h0
    obtain ⟨t, run, ht⟩ := execTimeExchange_asked hm h0
    refine ⟨fun hg => ?_, fun hg => ?_⟩
    · rw [if_pos (Option.isSome_iff_ne_none.2 hg)] at ht
      exact ht ▸ run
    · rw [hg] at ht
      subst ht
      refine ⟨_, run, State.joinAt_joined _ 0, ?_⟩
      change s.podTime.toNat ≤ ((s.noteSeq m).joinAt 0).podTime.toNat
      cases hj : s.joined with
      | true =>
        rw [State.joinAt_of_joined (s := s.noteSeq m) hj]
        exact Nat.le_refl _
      | false => exact (State.joinAt_podTime_ge (s := s.noteSeq m) hj (by decide)).1.1
  · intro hm h0 hg from_
    have word : from_ < 2 ^ 64 := ofBytes_take_eight_lt _
    refine ⟨_, execTimeExchange_answered hm h0 hg, State.joinAt_joined _ _, State.measure_podSkew ((s.noteSeq m).joinAt from_) from_, fun hj => ?_, fun hj => ?_⟩
    · change ((s.noteSeq m).joinAt from_).podTime = (s.noteSeq m).podTime
      rw [State.joinAt_of_joined (s := s.noteSeq m) hj]
    · rw [Nat.mod_eq_of_lt word]
      exact State.joinAt_podTime_ge (s := s.noteSeq m) hj word
  · exact fun pod pkg => ⟨_, rfl, s.timeSync_times pod pkg⟩
  · intro pos h4 h5
    change Host.Outcome.next (if s.hasUnit 4 && s.hasUnit 5 then _ else s) = _
    rw [h4, h5]
    rfl

end Sys2Proof.Machine
end

section
/-! PROOFS. What the operations that perform an access leave as it was: the bytes of memory and of scratchpads, and the accesses in
flight (R217, R321). Bytes are written by `State.writeBytes` alone. -/

namespace Sys2Proof.Machine

/-- The bytes of device memory, of host memory and of each block's scratchpad. -/
def State.bytes (s : State) : List Host.Cell × List Host.Cell × (Nat → Option (Map Byte)) :=
  (s.dmem, s.hmem, fun k => (s.block? k).map (·.scratch))

/-- These bytes, which of their places there are, and the accesses in flight: what the bookkeeping of directories, leases, routes and
counters leaves as it was. -/
def State.ground (s : State) :
    (List Host.Cell × List Host.Cell × (Nat → Option (Map Byte))) × List Access × BitVec 4 × BitVec 2 :=
  (s.bytes, s.accs, s.dieMask, s.hostLinks)

theorem State.bytes_of_ground {s t : State} (h : t.ground = s.ground) : t.bytes = s.bytes := congrArg (·.1) h

theorem State.accs_of_ground {s t : State} (h : t.ground = s.ground) : t.accs = s.accs := congrArg (·.2.1) h

/-! ## Folds and blocks -/

/-- Going through a list leaves as it was what each entry leaves so. -/
theorem foldl_unchanged {σ α β : Type} {g : σ → β} {f : σ → α → σ} (hf : ∀ s a, g (f s a) = g s) (l : List α) (s : σ) :
    g (l.foldl f s) = g s :=
  List.foldlRecOn (motive := fun t => g t = g s) l f rfl fun t h a _ => (hf t a).trans h

/-- Changing blocks, but not their numbers and scratchpads, leaves every byte as it was. -/
theorem State.mapBlocks_bytes (s : State) {f : Block → Block} (hid : ∀ b, (f b).id = b.id) (hs : ∀ b, (f b).scratch = b.scratch) :
    ({ s with blocks := s.blocks.map f } : State).bytes = s.bytes := by
  have found (k : Nat) : (s.blocks.map f).find? (·.id == k) = (s.blocks.find? (·.id == k)).map f := by
    rw [List.find?_map]
    exact congrArg (Option.map f) (congrArg (s.blocks.find? ·) (funext fun b => congrArg (· == k) (hid b)))
  refine congrArg (fun g => (s.dmem, s.hmem, g)) (funext fun k => ?_)
  rw [State.block?, found, Option.map_map]
  exact congrArg (fun g => Option.map g (s.block? k)) (funext hs)

theorem State.mapBlocks_ground (s : State) {f : Block → Block} (hid : ∀ b, (f b).id = b.id) (hs : ∀ b, (f b).scratch = b.scratch) :
    ({ s with blocks := s.blocks.map f } : State).ground = s.ground :=
  congrArg (fun g => (g, s.accs, s.dieMask, s.hostLinks)) (s.mapBlocks_bytes hid hs)

theorem State.modBlock_ground (s : State) (k : Nat) {f : Block → Block} (hid : ∀ b, (f b).id = b.id)
    (hs : ∀ b, (f b).scratch = b.scratch) : (s.modBlock k f).ground = s.ground := by
  refine s.mapBlocks_ground (fun b => ?_) fun b => ?_ <;> split
  exacts [hid b, rfl, hs b, rfl]

theorem State.modBlock_bytes (s : State) (k : Nat) {f : Block → Block} (hid : ∀ b, (f b).id = b.id)
    (hs : ∀ b, (f b).scratch = b.scratch) : (s.modBlock k f).bytes = s.bytes :=
  State.bytes_of_ground (s.modBlock_ground k hid hs)

/-! ## Messages to peers -/

theorem State.sendMsg_ground (s : State) (d dest ddie type tenant expidx egen : Nat) (off : Word) (body : List Byte) :
    (s.sendMsg d dest ddie type tenant expidx egen off body).1.ground = s.ground := by
  obtain ⟨o, p, e⟩ := s.sendMsg_eq d dest ddie type tenant expidx egen off body
  rw [e]
  rfl

theorem State.giveUp_ground (s : State) (r : RemoteLine) : (s.giveUp r).ground = s.ground := by
  obtain ⟨o, p, q, m, f, e⟩ := s.giveUp_eq r
  rw [e]
  rfl

theorem State.askHolder_ground (s : State) (h : Holder) : (s.askHolder h).ground = s.ground := by
  have sent := s.sendMsg_ground (s.homeDie (128 * h.line)) h.pos h.die tInval 0 0 0 (BitVec.ofNat 64 (128 * h.line)) []
  unfold State.askHolder
  split <;> rename_i e <;> rw [e] at sent
  · exact sent
  · split <;> exact sent

/-! ## Letting an access in (R337, R412, R420 to R422, R453) -/

theorem State.wake_ground (s : State) (d : Nat) : (s.wake d).ground = s.ground := by
  unfold State.wake
  dsimp only
  split
  · rfl
  · split
    · exact foldl_unchanged State.giveUp_ground _ _
    · rfl

theorem State.leaveHalf_ground (s : State) (d l : Nat) : (s.leaveHalf d l).ground = s.ground := by
  unfold State.leaveHalf
  split
  · rfl
  · split
    · rfl
    · dsimp only
      cases (s.half l).dirty && (s.half l).owner == d <;> rfl

theorem State.filterRoom_ground (s : State) (iod : Nat) : (s.filterRoom iod).ground = s.ground := by
  unfold State.filterRoom
  dsimp only
  split
  · rfl
  · split
    · rfl
    · exact foldl_unchanged (fun s d => State.leaveHalf_ground s d _) _ s

theorem State.enterFilter_ground (s : State) (d : Nat) (own : Bool) (l : Nat) : (s.enterFilter d own l).ground = s.ground := by
  unfold State.enterFilter
  dsimp only
  split
  · cases (s.half l).st == .i || (own && (s.half l).st == .s) <;> rfl
  · refine (State.filterRoom_ground _ (halfIod l)).trans ?_
    cases (s.half l).st == .i || (own && (s.half l).st == .s) <;> rfl

theorem State.letIn_ground (s : State) (who d : Nat) (ps : List Place) (data : Option (List Byte)) :
    (s.letIn who d ps data).1.ground = s.ground := by
  unfold State.letIn
  extract_lets lines hlines held away written halves t
  have woken : t.ground = s.ground := foldl_unchanged State.wake_ground _ s
  split
  · exact woken
  split
  · exact woken
  split
  · exact (foldl_unchanged State.askHolder_ground _ t).trans woken
  split
  · exact woken
  · have entered := (foldl_unchanged (fun s l => State.enterFilter_ground s d data.isSome l) hlines t).trans woken
    cases data <;> exact entered

/-! ## A store (R80, R299, R300, R332, R357, R418) -/

theorem State.setPoison_ground (s : State) (p : Place) (on : Bool) : (s.setPoison p on).ground = s.ground := by
  cases p with
  | dev a =>
    rw [State.setPoison]
    split <;> rfl
  | scr k o => exact s.modBlock_ground k (fun _ => rfl) fun _ => rfl
  | host a | peer p d e g t o | err => rfl

theorem State.compareLine_ground (s : State) (core : Option Nat) (host : Bool) (old : List Byte) (line : Nat) (written : List Nat) :
    (s.compareLine core host old line written).ground = s.ground := by
  unfold State.compareLine
  extract_lets new on others facets hit leased keeps kept lost s1 gone own
  have counted : s1.ground = s.ground := by
    unfold s1
    split <;> rfl
  exact counted

theorem State.markStale_ground (s : State) (granules : List Nat) : (s.markStale granules).ground = s.ground :=
  s.mapBlocks_ground (fun _ => rfl) fun _ => rfl

theorem State.markDirty_ground (s : State) (pv : List (Place × Byte)) : (s.markDirty pv).ground = s.ground := by
  refine foldl_unchanged (g := State.ground) (fun s e => ?_) pv s
  obtain ⟨p, v⟩ := e
  cases p with
  | scr k o => refine s.modBlock_ground k (fun b => ?_) fun b => ?_ <;> dsimp only <;> split <;> rfl
  | dev a | host a | peer p d e g t o | err => rfl

theorem State.notePublish_ground (s : State) (blk : Nat) : (s.notePublish blk).ground = s.ground := by
  unfold State.notePublish
  split <;> rfl

theorem State.storeRaw_ground (s : State) (pv : List (Place × Byte)) : (s.storeRaw pv).ground = (s.writeBytes pv).ground :=
  foldl_unchanged (fun s p => State.setPoison_ground s p false) _ _

theorem State.storeBy_ground (s : State) (core : Option Nat) (pv : List (Place × Byte)) :
    (s.storeBy core pv).ground = (s.writeBytes pv).ground := by
  unfold State.storeBy
  extract_lets ls s0 s1 s2
  have device : s0.ground = (s.storeRaw pv).ground := by
    refine foldl_unchanged (fun t e => ?_) ls _
    exact t.compareLine_ground core false _ e.1 e.2
  have lines : s1.ground = s0.ground := by
    refine foldl_unchanged (fun t e => ?_) _ s0
    exact t.compareLine_ground core true _ e.1 e.2
  have marked : s2.ground = s1.ground := (State.markDirty_ground _ pv).trans (s1.markStale_ground _)
  have published : ((s2.published pv).foldl (·.notePublish ·) s2).ground = s2.ground := foldl_unchanged State.notePublish_ground _ s2
  exact published.trans (marked.trans (lines.trans (device.trans (s.storeRaw_ground pv))))

theorem State.pushLeases_ground (s : State) (lines : List Nat) : (s.pushLeases lines).ground = s.ground := by
  unfold State.pushLeases
  extract_lets hit s0 s1
  have pushed : s1.ground = s0.ground := by
    refine foldl_unchanged (fun s e => ?_) _ s0
    exact State.sendMsg_ground ..
  exact pushed

/-- A core's store writes the bytes of its places and no others. -/
theorem State.coreStore_ground (s : State) (b : Block) (scope : Nat) (pv : List (Place × Byte)) (po : List Place) :
    (s.coreStore b scope pv po).ground = (s.writeBytes pv).ground := by
  unfold State.coreStore
  extract_lets us t
  have pushed : t.ground = (s.storeBy (some b.coreKey) pv).ground :=
    (State.pushLeases_ground _ _).trans (foldl_unchanged (fun s p => State.setPoison_ground s p true) po _)
  exact pushed.trans (s.storeBy_ground _ pv)

/-! ## A load (R93, R94, R332) -/

theorem State.weakRead_ground (s : State) (core : Nat) (ps : List Place) : (s.weakRead core ps).1.ground = s.ground := by
  unfold State.weakRead
  extract_lets us
  split
  · rfl
  · dsimp only
    split <;> rfl

theorem State.shareLines_ground (s : State) (b : Block) (p : Ptr) (any : Bool) (ps : List Place) :
    (s.shareLines b p any ps).ground = s.ground := by
  unfold State.shareLines
  split
  · rfl
  · unfold State.shareAt
    refine foldl_unchanged (fun s l => ?_) _ s
    rfl

/-! ## Accesses to a peer (R416, R426, R435) -/

theorem State.modGroup_ground (s : State) (k g : Nat) (f : Group → Group) : (s.modBlock k fun b => b.modGroup g f).ground = s.ground :=
  s.modBlock_ground k (fun _ => rfl) fun _ => rfl

theorem State.lostLane_ground (s : State) (a : Access) (pos : Nat) (x : LaneAcc) : (s.lostLane a pos x).1.ground = s.ground := by
  unfold State.lostLane
  split
  · exact s.modGroup_ground a.blk (x.lane / 32) _
  · rfl

theorem State.markBreak_ground (s : State) (a : Access) (pos : Nat) (x : LaneAcc) : (s.markBreak a pos x).ground = s.ground := by
  unfold State.markBreak
  split
  · rfl
  · exact s.modGroup_ground a.blk (x.lane / 32) _

theorem State.askPeer_ground (s : State) (b : Block) (a : Access) (x : LaneAcc) (pos die exp gen tenant o n : Nat) (sync : Bool) :
    (s.askPeer b a x pos die exp gen tenant o n sync).1.ground = s.ground := by
  unfold State.askPeer
  extract_lets p k
  split
  rename_i type body _
  have sent := s.sendMsg_ground b.die pos die type tenant exp gen
    (reqWord o n (p.facetAsked (a.fmt == .any)) (p.submode && p.facetAsked (a.fmt == .any) != 15)) body
  split <;> rename_i e <;> rw [e] at sent
  · exact (State.lostLane_ground _ a pos x).trans sent
  · refine Eq.trans ?_ sent
    cases sync && x.releases a.kind <;> rfl

theorem State.performPeer_ground (s : State) (b : Block) (a : Access) (x : LaneAcc) (pos die exp gen tenant off : Nat) :
    (s.performPeer b a x pos die exp gen tenant off).1.ground = s.ground := by
  unfold State.performPeer
  extract_lets p k o n
  split
  · exact (State.lostLane_ground _ a pos x).trans (s.markBreak_ground a pos x)
  split
  · exact s.lostLane_ground a pos x
  split
  · rfl
  · split
    · rfl
    · exact State.askPeer_ground ..
  · exact State.askPeer_ground ..

/-! ## An access whose lanes are done (R36, R311, R353) -/

theorem State.finishOp_ground (s : State) (blk id : Nat) : (s.finishOp blk id).ground = s.ground :=
  s.modBlock_ground blk (fun _ => rfl) fun _ => rfl

theorem State.settleDrains_bytes (s : State) : s.settleDrains.bytes = s.bytes := by
  unfold State.settleDrains
  refine (foldl_unchanged (g := State.bytes) (fun t d => ?_) _ _).trans rfl
  exact State.bytes_of_ground (t.finishOp_ground d.blk d.id)

theorem State.endBreak_bytes (s : State) (a : Access) (lanes : List Nat) : (s.endBreak a lanes).bytes = s.bytes :=
  s.modBlock_bytes a.blk
    (fun b => foldl_unchanged (g := Block.id) (f := fun b g => b.modGroup g _) (fun _ _ => rfl) _ b)
    fun b => foldl_unchanged (g := Block.scratch) (f := fun b g => b.modGroup g _) (fun _ _ => rfl) _ b

theorem State.fillLog_bytes (s : State) : s.fillLog.bytes = s.bytes := by
  refine foldl_unchanged (g := State.bytes) (fun t id => ?_) _ s
  split
  · split <;> rfl
  · rfl

theorem State.splitDone_bytes (s : State) (a : Access) : (s.splitDone a).bytes = s.bytes := by
  unfold State.splitDone
  split
  · dsimp only
    split
    · rfl
    · exact s.endBreak_bytes a _
  · rfl

/-- Completing an access other than a WAITM's read changes no byte. -/
theorem State.finishAccess_bytes (s : State) {a : Access} (hk : a.kind ≠ .monitor) : (s.finishAccess a).bytes = s.bytes := by
  unfold State.finishAccess
  split
  · rfl
  · split
    · exact State.modBlock_bytes { s with accs := s.accs.filter (·.id != a.id) } a.blk (fun _ => rfl) fun _ => rfl
    · contradiction
    · exact s.endBreak_bytes a _

theorem State.afterLane_bytes (s : State) {id : Nat} {a : Access} (ha : s.accs.find? (·.id == id) = some a) (hk : a.kind ≠ .monitor) :
    (s.afterLane id).bytes = s.bytes := by
  unfold State.afterLane
  rw [ha]
  dsimp only
  split
  · exact (State.fillLog_bytes _).trans ((State.settleDrains_bytes _).trans (s.finishAccess_bytes hk))
  · exact (State.settleDrains_bytes _).trans (s.splitDone_bytes a)

end Sys2Proof.Machine
end

section
/-! PROOFS. Performing an access changes no byte outside the places of its lanes, and a store leaves its bytes at its own (R211, R217,
R321). -/

namespace Sys2Proof.Machine

/-! ## Bytes of device and host memory, by place -/

/-- The byte that stands at a place of device or host memory. -/
def State.cell (s : State) : Place → Byte
  | .dev k => Memory.read s.dmem k
  | .host k => Memory.read s.hmem k
  | _ => 0

/-- A write there changes it: the place lies within the capacity, or behind a host link that is up. -/
def State.reaches (s : State) : Place → Bool
  | .dev k => decide (k < s.capacity)
  | .host k => s.hostLinks.getLsbD (bits k 12 12)
  | _ => false

theorem State.cell_of_bytes {s t : State} (h : t.bytes = s.bytes) (q : Place) : t.cell q = s.cell q := by
  have hd : t.dmem = s.dmem := congrArg (·.1) h
  have hh : t.hmem = s.hmem := congrArg (·.2.1) h
  cases q <;> simp [State.cell, hd, hh]

theorem State.reaches_of_ground {s t : State} (h : t.ground = s.ground) (q : Place) : t.reaches q = s.reaches q := by
  have hd : t.dieMask = s.dieMask := congrArg (·.2.2.1) h
  have hh : t.hostLinks = s.hostLinks := congrArg (·.2.2.2) h
  cases q with
  | dev k => exact congrArg (fun m => decide (k < capacityOf m)) hd
  | host k => exact congrArg (BitVec.getLsbD · (bits k 12 12)) hh
  | scr b o | peer p d e g t o | err => rfl

theorem State.Inv.of_bytes {s t : State} (hs : s.Inv) (h : t.bytes = s.bytes) : t.Inv :=
  hs.of_same (congrArg (·.1) h) (congrArg (·.2.1) h)

/-- Writing a byte leaves the accesses in flight, and which places are reached, as they were. -/
theorem State.writeByte_accs (s : State) (p : Place) (v : Byte) : (s.writeByte p v).accs = s.accs := by
  fun_cases State.writeByte <;> rfl

theorem State.reaches_writeByte (s : State) (p : Place) (v : Byte) (q : Place) : (s.writeByte p v).reaches q = s.reaches q := by
  fun_cases State.writeByte <;> cases q <;> rfl

/-- A byte written stands at its place, if the write reaches it, and every other place is as it was (R56, R411). -/
theorem State.cell_writeByte {s : State} (hs : s.Inv) (p : Place) (v : Byte) (q : Place) :
    (s.writeByte p v).cell q = if q = p ∧ s.reaches p = true then v else s.cell q := by
  obtain ⟨hd, hh⟩ := hs
  cases p with
  | dev a =>
    by_cases inside : a < s.capacity
    · rw [State.writeByte, if_neg (Nat.not_le.2 inside)]
      cases q <;> simp [State.cell, State.reaches, inside, Memory.read_write _ _ _ _ hd]
    · rw [State.writeByte, if_pos (Nat.not_lt.1 inside)]
      simp [State.reaches, inside]
  | host a =>
    by_cases up : s.hostLinks.getLsbD (bits a 12 12) = true
    · rw [State.writeByte, if_pos up]
      cases q <;> simp [State.cell, State.reaches, up, Memory.read_write _ _ _ _ hh]
    · rw [State.writeByte, if_neg up]
      simp [State.reaches, up]
  | scr k o | peer p d e g t o | err => cases q <;> simp [State.writeByte, State.cell, State.reaches]

theorem State.writeBytes_accs (s : State) (pv : List (Place × Byte)) : (s.writeBytes pv).accs = s.accs := by
  induction pv generalizing s with
  | nil => rfl
  | cons e pv ih => exact (ih _).trans (s.writeByte_accs e.1 e.2)

/-- A place that no byte is written to is as it was. -/
theorem State.cell_writeBytes_other {s : State} (hs : s.Inv) {pv : List (Place × Byte)} {q : Place} (h : ∀ e ∈ pv, e.1 ≠ q) :
    (s.writeBytes pv).cell q = s.cell q := by
  induction pv generalizing s with
  | nil => rfl
  | cons e pv ih =>
    obtain ⟨he, hpv⟩ := List.forall_mem_cons.1 h
    refine (ih (s.writeByte_inv e.1 e.2 hs) hpv).trans ?_
    rw [State.cell_writeByte hs, if_neg fun both => he both.1.symm]

/-- Of bytes written to places all different, each stands at its place. -/
theorem State.cell_writeBytes_mem {s : State} (hs : s.Inv) {pv : List (Place × Byte)} (nodup : (pv.map (·.1)).Nodup) {q : Place} {v : Byte}
    (hq : (q, v) ∈ pv) (hr : s.reaches q = true) : (s.writeBytes pv).cell q = v := by
  induction pv generalizing s with
  | nil => cases hq
  | cons e pv ih =>
    obtain ⟨fresh, rest⟩ := List.nodup_cons.1 nodup
    have inv := s.writeByte_inv e.1 e.2 hs
    rcases List.mem_cons.1 hq with rfl | hq
    · refine (State.cell_writeBytes_other inv fun e he same => fresh (List.mem_map.2 ⟨e, he, same⟩)).trans ?_
      rw [State.cell_writeByte hs, if_pos ⟨rfl, hr⟩]
    · exact ih inv rest hq ((s.reaches_writeByte e.1 e.2 q).trans hr)

/-! ## The access while its lanes are performed -/

/-- An access as it stands once some of its lanes have gone on: of the same kind, and no lane at places where none was. -/
structure Access.From (a0 a : Access) : Prop where
  kind : a.kind = a0.kind
  placed : ∀ x ∈ a.las, ∀ ps, x.phase = .placed ps → ∃ y ∈ a0.las, y.phase = .placed ps

theorem Access.From.rfl' (a : Access) : a.From a := ⟨rfl, fun x hx _ hp => ⟨x, hx, hp⟩⟩

theorem Access.From.trans {a0 a a1 : Access} (h : a0.From a) (k : a.From a1) : a0.From a1 := by
  refine ⟨k.kind.trans h.kind, fun x hx ps hp => ?_⟩
  obtain ⟨y, hy, hyp⟩ := k.placed x hx ps hp
  exact h.placed y hy ps hyp

/-- Earlier accesses keep what an access finds at its places: that moves no lane on, and changes no byte (R324, R342). -/
theorem State.keepFor_accs (s : State) (a : Access) (lane : Nat) (ps : List Place) :
    ∃ f : Access → Access, (s.keepFor a lane ps).accs = s.accs.map f ∧ ∀ e, (f e).id = e.id ∧ e.From (f e) := by
  unfold State.keepFor
  dsimp only
  split
  · exact ⟨id, (List.map_id _).symm, fun e => ⟨rfl, .rfl' e⟩⟩
  · refine ⟨_, rfl, fun e => ⟨rfl, rfl, fun x hx ps hp => ?_⟩⟩
    obtain ⟨y, hy, rfl⟩ := List.mem_map.1 hx
    refine ⟨y, hy, ?_⟩
    split at hp <;> exact hp

theorem State.keepFor_bytes (s : State) (a : Access) (lane : Nat) (ps : List Place) : (s.keepFor a lane ps).bytes = s.bytes := by
  unfold State.keepFor
  dsimp only
  split <;> rfl

theorem State.keepFor_reaches (s : State) (a : Access) (lane : Nat) (ps : List Place) (q : Place) :
    (s.keepFor a lane ps).reaches q = s.reaches q := by
  unfold State.keepFor
  dsimp only
  split <;> cases q <;> rfl

theorem State.noteFrame_ground (s : State) (a : Access) (x : LaneAcc) : (s.noteFrame a x).ground = s.ground :=
  s.modGroup_ground a.blk (x.lane / 32) _

theorem LaneAcc.mem_due {α : Type} {x : LaneAcc} {ps : List Place} {vs : List α} {e : Place × α} (h : e ∈ x.due (ps.zip vs)) : e.1 ∈ ps :=
  (List.of_mem_zip (List.mem_filter.1 h).1).1

/-- WHAT PERFORMING A LANE'S ACCESS WRITES: bytes at the lane's own places; a load none, a store its data where no later store of the
lane has been performed (R210, R211, R214). -/
structure State.Performs (s : State) (a : Access) (x : LaneAcc) (ps : List Place) (r : State × LaneAcc) : Prop where
  done : r.2.phase = .done
  writes : ∃ (u : State) (pv : List (Place × Byte)), u.ground = (s.keepFor a x.lane ps).ground ∧
    r.1.ground = (u.writeBytes pv).ground ∧ (∀ e ∈ pv, e.1 ∈ ps) ∧ (a.kind = .load → pv = []) ∧
    (a.kind = .store → pv = x.due (ps.zip x.data))

/-- Performing an access does so, whatever its kind. -/
theorem State.performHere_writes (s : State) (b : Block) (a : Access) (x : LaneAcc) (ps : List Place) :
    s.Performs a x ps (s.performHere b a x ps) := by
  unfold State.performHere
  extract_lets p s0 bad s1 r s2 y
  have reads (u : State) (y : LaneAcc) (hu : u.ground = s0.ground) (hy : y.phase = .done) (hk : a.kind ≠ .store) :
      s.Performs a x ps (u.shareLines b p (a.fmt == .any) ps, y) :=
    ⟨hy, s0, [], rfl, (u.shareLines_ground b p _ ps).trans hu, nofun, fun _ => rfl, fun h => absurd h hk⟩
  have loads (q : State × List Byte) (hq : q.1.ground = s0.ground) (hk : a.kind ≠ .store) :
      s.Performs a x ps (q.1.shareLines b p (a.fmt == .any) ps,
        { x with phase := .done, got := (x.found ps q.2 bad).map (·.1), bad := (x.found ps q.2 bad).map (·.2) }) :=
    reads q.1 _ hq rfl hk
  have stores (u : State) (vs : List Byte) (po : List Place) (y : LaneAcc) (hu : u.ground = s0.ground) (hy : y.phase = .done)
      (hk : a.kind ≠ .load) (hv : a.kind = .store → vs = x.data) :
      s.Performs a x ps ((u.coreStore b p.scope (x.due (ps.zip vs)) po).noteFrame a x, y) :=
    ⟨hy, u, x.due (ps.zip vs), hu, (State.noteFrame_ground _ a x).trans (u.coreStore_ground b _ _ po), fun _ => LaneAcc.mem_due,
      fun h => absurd h hk, fun h => by rw [hv h]⟩
  have read : (if p.sync then (s0.acquireAt b.coreKey, (s0.acquireAt b.coreKey).readPlaces ps) else s0.weakRead b.coreKey ps).1.ground =
      s0.ground := by
    split
    · rfl
    · exact s0.weakRead_ground _ ps
  have released : s1.ground = s0.ground := by
    unfold s1
    split <;> rfl
  have acquired : s2.ground = s0.ground := rfl
  have ended : y.phase = .done := rfl
  split
  case h_1 hk | h_2 hk => exact loads _ read (by simp [hk])
  · rename_i hk
    exact stores s1 _ _ _ released rfl (by simp [hk]) fun _ => rfl
  · rename_i notLoad _ notStore
    split
    · exact ⟨ended, s2, [], acquired, rfl, nofun, fun _ => rfl, fun h => absurd h notStore⟩
    · split
      · exact stores s2 _ _ y acquired ended notLoad fun h => absurd h notStore
      · exact reads s2 y acquired ended notStore

/-! ## A lane performed -/

/-- A lane whose access leaves this device stands at no places any longer: it waits for a reply, walks on, or is done. -/
theorem State.lostLane_unplaced (s : State) (a : Access) (pos : Nat) (x : LaneAcc) (ps : List Place) :
    (s.lostLane a pos x).2.phase ≠ .placed ps := by
  unfold State.lostLane
  split <;> exact nofun

theorem LaneAcc.more_unplaced (x : LaneAcc) (bs : List Byte) (poison : Bool) (ps : List Place) : (x.more bs poison).phase ≠ .placed ps := by
  unfold LaneAcc.more
  dsimp only
  split <;> exact nofun

theorem State.askPeer_unplaced (s : State) (b : Block) (a : Access) (x : LaneAcc) (pos die exp gen tenant o n : Nat) (sync : Bool)
    (ps : List Place) : (s.askPeer b a x pos die exp gen tenant o n sync).2.phase ≠ .placed ps := by
  unfold State.askPeer
  dsimp only
  split
  · exact State.lostLane_unplaced _ _ _ _ _
  · exact nofun

theorem State.performPeer_unplaced (s : State) (b : Block) (a : Access) (x : LaneAcc) (pos die exp gen tenant off : Nat)
    (ps : List Place) : (s.performPeer b a x pos die exp gen tenant off).2.phase ≠ .placed ps := by
  unfold State.performPeer
  extract_lets p k o n
  split
  · exact State.lostLane_unplaced _ _ _ _ _
  split
  · exact State.lostLane_unplaced _ _ _ _ _
  split
  · exact LaneAcc.more_unplaced _ _ _ _
  · split
    · exact LaneAcc.more_unplaced _ _ _ _
    · exact State.askPeer_unplaced _ _ _ _ _ _ _ _ _ _ _ _ _
  · exact State.askPeer_unplaced _ _ _ _ _ _ _ _ _ _ _ _ _

/-- WHAT A LANE'S TURN DOES: it leaves the bytes as they were and the lane at no new places, or, let in at the places where the lane
stands, performs its access there. -/
theorem State.performLane_cases (s : State) (b : Block) (a : Access) (x : LaneAcc) :
    ((s.performLane b a x).1.ground = s.ground ∧ ∀ ps, (s.performLane b a x).2.phase = .placed ps → x.phase = .placed ps) ∨
      ∃ (t : State) (ps : List Place), t.ground = s.ground ∧ x.phase = .placed ps ∧ s.performLane b a x = t.performHere b a x ps := by
  unfold State.performLane
  split
  · exact .inl ⟨rfl, nofun⟩
  · rename_i ps hx
    split
    · exact .inl ⟨rfl, fun _ h => h⟩
    split
    · exact .inl ⟨State.performPeer_ground .., fun qs h => absurd h (State.performPeer_unplaced _ _ _ _ _ _ _ _ _ _ _)⟩
    · split
      · exact .inl ⟨rfl, nofun⟩
      · refine .inl ⟨?_, nofun⟩
        dsimp only
        split <;> rfl
    · dsimp only
      split <;> rename_i t e
      · refine .inl ⟨?_, fun _ h => h⟩
        exact (congrArg (·.1.ground) e).symm.trans (State.letIn_ground ..)
      · exact .inr ⟨t, ps, (congrArg (·.1.ground) e).symm.trans (State.letIn_ground ..), hx, rfl⟩
  · exact .inl ⟨rfl, fun _ h => h⟩

/-- Accesses stand as they did, but for lanes that have gone on. -/
def State.AccsFrom (s t : State) : Prop :=
  ∃ f : Access → Access, t.accs = s.accs.map f ∧ ∀ e, (f e).id = e.id ∧ e.From (f e)

theorem State.AccsFrom.of_eq {s t : State} (h : t.accs = s.accs) : s.AccsFrom t :=
  ⟨id, h.trans (List.map_id _).symm, fun e => ⟨rfl, .rfl' e⟩⟩

/-- The access of a number is found, as it has gone on. -/
theorem State.AccsFrom.find {s t : State} (h : s.AccsFrom t) {id : Nat} {a : Access} (ha : s.accs.find? (·.id == id) = some a) :
    ∃ a', t.accs.find? (·.id == id) = some a' ∧ a.From a' := by
  obtain ⟨f, e, hf⟩ := h
  refine ⟨f a, ?_, (hf a).2⟩
  have same : (fun e : Access => e.id == id) ∘ f = fun e => e.id == id := funext fun e => congrArg (· == id) (hf e).1
  rw [e, List.find?_map, same, ha]
  rfl

theorem State.performLane_accs (s : State) (b : Block) (a : Access) (x : LaneAcc) : s.AccsFrom (s.performLane b a x).1 := by
  rcases s.performLane_cases b a x with ⟨e, -⟩ | ⟨t, ps, ht, -, e⟩
  · exact .of_eq (State.accs_of_ground e)
  · obtain ⟨u, pv, hu, hr, -⟩ := (t.performHere_writes b a x ps).writes
    have kept : (s.performLane b a x).1.accs = (t.keepFor a x.lane ps).accs := by
      rw [e, State.accs_of_ground hr, State.writeBytes_accs, State.accs_of_ground hu]
    obtain ⟨f, hk, hf⟩ := t.keepFor_accs a x.lane ps
    exact ⟨f, by rw [kept, hk, State.accs_of_ground ht], hf⟩

/-- A lane stands after its turn at no places where it did not stand before. -/
theorem State.performLane_placed {s : State} {b : Block} {a : Access} {x : LaneAcc} {ps : List Place}
    (h : (s.performLane b a x).2.phase = .placed ps) : x.phase = .placed ps := by
  rcases s.performLane_cases b a x with ⟨-, e⟩ | ⟨t, qs, -, -, e⟩
  · exact e ps h
  · rw [e, (t.performHere_writes b a x qs).done] at h
    cases h

/-- A load's turn changes no byte. -/
theorem State.performLane_load (s : State) (b : Block) {a : Access} (x : LaneAcc) (hk : a.kind = .load) :
    (s.performLane b a x).1.bytes = s.bytes := by
  rcases s.performLane_cases b a x with ⟨e, -⟩ | ⟨t, ps, ht, -, e⟩
  · exact State.bytes_of_ground e
  · obtain ⟨u, pv, hu, hr, -, load, -⟩ := (t.performHere_writes b a x ps).writes
    rw [load hk] at hr
    rw [e]
    calc (t.performHere b a x ps).1.bytes = u.bytes := State.bytes_of_ground hr
      _ = (t.keepFor a x.lane ps).bytes := State.bytes_of_ground hu
      _ = t.bytes := t.keepFor_bytes a x.lane ps
      _ = s.bytes := State.bytes_of_ground ht

/-- Any access's turn leaves the places as they were at which its lane does not stand. -/
theorem State.performLane_cell {s : State} (hs : s.Inv) (b : Block) (a : Access) (x : LaneAcc) {q : Place}
    (hq : ∀ ps, x.phase = .placed ps → q ∉ ps) : (s.performLane b a x).1.cell q = s.cell q := by
  rcases s.performLane_cases b a x with ⟨e, -⟩ | ⟨t, ps, ht, hx, e⟩
  · exact State.cell_of_bytes (State.bytes_of_ground e) q
  · obtain ⟨u, pv, hu, hr, own, -⟩ := (t.performHere_writes b a x ps).writes
    have before : u.bytes = s.bytes :=
      (State.bytes_of_ground hu).trans ((t.keepFor_bytes a x.lane ps).trans (State.bytes_of_ground ht))
    rw [e]
    calc (t.performHere b a x ps).1.cell q = (u.writeBytes pv).cell q := State.cell_of_bytes (State.bytes_of_ground hr) q
      _ = u.cell q := State.cell_writeBytes_other (hs.of_bytes before) fun p hp same => hq ps hx (same ▸ own p hp)
      _ = s.cell q := State.cell_of_bytes before q

/-! ## The lanes of an access performed -/

/-- The access of a number, after one of its lanes is put back that stands at no new places. -/
theorem State.setLane_find {s : State} {id : Nat} {a0 a : Access} {y : LaneAcc} (ha : s.accs.find? (·.id == id) = some a)
    (stood : a0.From a) (hy : ∀ ps, y.phase = .placed ps → ∃ x ∈ a0.las, x.phase = .placed ps) :
    ∃ a', (s.setLane id y).accs.find? (·.id == id) = some a' ∧ a0.From a' := by
  refine ⟨{ a with las := updWhere (·.lane == y.lane) (fun _ => y) a.las }, ?_, stood.kind, fun x hx ps hp => ?_⟩
  · refine (updWhere_find Access.id id (fun a => { a with las := updWhere (fun z : LaneAcc => z.lane == y.lane) (fun _ => y) a.las })
      (fun _ e => e) s.accs).trans ?_
    exact congrArg (Option.map _) ha
  obtain ⟨z, hz, rfl⟩ := List.mem_map.1 hx
  split at hp
  · exact hy ps hp
  · exact stood.placed z hz ps hp

/-- What every lane's turn keeps holds after the lanes of an access are performed, and the access is still found. -/
theorem State.performLanes_keeps {P : State → Prop} {id : Nat} {a0 : Access}
    (turn : ∀ s b a x, P s → a0.From a → x ∈ a.las → P (s.performLane b a x).1) (put : ∀ s y, P s → P (s.setLane id y))
    (ls : List Nat) {s : State} {a : Access} (hs : P s) (ha : s.accs.find? (·.id == id) = some a) (stood : a0.From a) :
    P (s.performLanes id ls) ∧ ∃ a', (s.performLanes id ls).accs.find? (·.id == id) = some a' ∧ a0.From a' := by
  induction ls generalizing s a with
  | nil => exact ⟨hs, a, ha, stood⟩
  | cons l ls ih =>
    rw [State.performLanes, ha]
    dsimp only
    split
    · rename_i b x _ hx
      have mem : x ∈ a.las := List.mem_of_find?_eq_some hx
      obtain ⟨a1, h1, f1⟩ := (s.performLane_accs b a x).find ha
      obtain ⟨a2, h2, f2⟩ := State.setLane_find h1 (stood.trans f1) fun ps hp => stood.placed x mem ps (State.performLane_placed hp)
      exact ih (put _ _ (turn s b a x hs stood mem)) h2 f2
    · exact ih hs ha stood

/-- ACCESS_PERFORMED does nothing to an access that is done. -/
theorem execAccessPerformed_done {s : State} {id : Nat} {order : List Nat} {a : Access} (ha : s.accs.find? (·.id == id) = some a)
    (hd : a.las.all (·.done) = true) : exec (.accessPerformed id order) s = .next s := by
  change execAccessPerformed id order s = _
  rw [execAccessPerformed, ha]
  exact if_pos hd

/-- What every lane's turn, and every update outside the bytes, keeps holds after an access is performed. -/
theorem accessPerformed_keeps {P : State → Prop} (bytes : ∀ s t : State, t.bytes = s.bytes → P s → P t) {s t : State} {id : Nat}
    {order : List Nat} {a : Access} (turn : ∀ s b e x, P s → a.From e → x ∈ e.las → P (s.performLane b e x).1)
    (ha : s.accs.find? (·.id == id) = some a) (hk : a.kind ≠ .monitor) (hs : P s) (run : exec (.accessPerformed id order) s = .next t) :
    P t := by
  cases hd : a.las.all (·.done) with
  | true =>
    rw [execAccessPerformed_done ha hd] at run
    cases run
    exact hs
  | false =>
    rw [execAccessPerformed_eq ha hd] at run
    cases run
    obtain ⟨held, a', ha', f⟩ := State.performLanes_keeps turn (fun s y => bytes s _ rfl) _ hs ha (.rfl' a)
    exact bytes _ _ (State.afterLane_bytes _ ha' (f.kind.trans_ne hk)) held

/-- Settles O46: a load's turns change no byte (`State.performLane_load`), any other's no byte elsewhere (`State.performLane_cell`), and
what follows them changes none (`State.afterLane_bytes`). -/
theorem accessPerformedFrame : Obligations.AccessPerformedFrame := by
  intro s t id order a ha run
  refine ⟨fun hk => ?_, fun hk hs k away => ?_⟩
  · have same : t.bytes = s.bytes :=
      accessPerformed_keeps (P := fun u => u.bytes = s.bytes) (fun _ _ e h => e.trans h)
        (fun u b e x h f _ => (u.performLane_load b x (f.kind.trans hk)).trans h) ha (by simp [hk]) rfl run
    exact ⟨congrArg (·.1) same, congrArg (·.2.1) same, fun k => congrFun (congrArg (·.2.2) same) k⟩
  · have same (q : Place) (hq : ∀ x ∈ a.las, ∀ ps, x.phase = .placed ps → q ∉ ps) : t.Inv ∧ t.cell q = s.cell q :=
      accessPerformed_keeps (P := fun u => u.Inv ∧ u.cell q = s.cell q)
        (fun _ _ e h => ⟨h.1.of_bytes e, (State.cell_of_bytes e q).trans h.2⟩)
        (fun u b e x h f hx => by
          refine ⟨State.performLane_inv h.1, (State.performLane_cell h.1 b e x fun ps hp => ?_).trans h.2⟩
          obtain ⟨y, hy, hyp⟩ := f.placed x hx ps hp
          exact hq y hy ps hyp) ha hk ⟨hs, rfl⟩ run
    exact ⟨(same (.dev k) fun x hx ps hp => (away x hx ps hp).1).2, (same (.host k) fun x hx ps hp => (away x hx ps hp).2).2⟩

/-! ## A store of one lane -/

/-- A lane that nothing holds, at places of device and host memory that let it in, performs its access there. -/
theorem State.performLane_eq {s s1 : State} {b : Block} {a : Access} {x : LaneAcc} {ps : List Place} (hx : x.phase = .placed ps)
    (hh : s.laneHeld a x = false) (hf : s.unfilled ps = none) (near : ∀ p ∈ ps, (∃ k, p = .dev k) ∨ ∃ k, p = .host k)
    (hk : a.kind = .store) (hl : s.letIn a.id b.die ps (some x.data) = (s1, true)) :
    s.performLane b a x = s1.performHere b a x ps := by
  unfold State.performLane
  rw [hx]
  dsimp only
  rw [hh, hf, if_neg (by decide)]
  split
  case h_1 | h_2 =>
    rename_i h
    rcases near _ (List.mem_of_head? h) with ⟨k, e⟩ | ⟨k, e⟩ <;> cases e
  · rw [hk]
    dsimp only
    rw [hl]

/-- The one lane named is performed and put back. -/
theorem State.performLanes_one {s : State} {id : Nat} {a : Access} {b : Block} {x : LaneAcc}
    (ha : s.accs.find? (·.id == id) = some a) (hb : s.block? a.blk = some b) (hx : a.las = [x]) :
    s.performLanes id [x.lane] = (s.performLane b a x).1.setLane id (s.performLane b a x).2 := by
  have found : a.las.find? (fun y : LaneAcc => y.lane == x.lane) = some x := by simp [hx]
  simp only [State.performLanes, ha, hb, found]

theorem map_fst_zip_sublist {α β : Type} (l : List α) (m : List β) : ((l.zip m).map (·.1)).Sublist l := by
  induction l generalizing m with
  | nil => exact List.nil_sublist _
  | cons x l ih =>
    cases m with
    | nil => exact List.nil_sublist _
    | cons y m => exact (ih m).cons_cons x

/-- The places a store writes are among its lane's places, in their order. -/
theorem LaneAcc.due_sublist {α : Type} (x : LaneAcc) (ps : List Place) (vs : List α) : ((x.due (ps.zip vs)).map (·.1)).Sublist ps :=
  (List.filter_sublist.map _).trans (map_fst_zip_sublist ps vs)

/-- A store performed at the lane's places: each of its bytes that no later store of the lane has written stands at its place. -/
theorem State.performHere_store_written {s t : State} (hs : s.Inv) (ht : t.ground = s.ground) (b : Block) {a : Access} {x : LaneAcc}
    {ps : List Place} (hk : a.kind = .store) (nodup : ps.Nodup) {q : Place} {v : Byte} (hq : (q, v) ∈ ps.zip x.data)
    (hl : x.kept.any (·.1 == q) = false) (hr : s.reaches q = true) : (t.performHere b a x ps).1.cell q = v := by
  obtain ⟨u, pv, hu, hw, -, -, store⟩ := (t.performHere_writes b a x ps).writes
  have before : u.bytes = s.bytes :=
    (State.bytes_of_ground hu).trans ((t.keepFor_bytes a x.lane ps).trans (State.bytes_of_ground ht))
  have reached : u.reaches q = true := by
    rw [State.reaches_of_ground hu, State.keepFor_reaches, State.reaches_of_ground ht, hr]
  rw [State.cell_of_bytes (State.bytes_of_ground hw), store hk]
  exact State.cell_writeBytes_mem (hs.of_bytes before) (nodup.sublist (x.due_sublist ps x.data))
    (List.mem_filter.2 ⟨hq, by simp [hl]⟩) reached

/-- Every other place, and one that a later store of the lane has written, is as it was (log 79). -/
theorem State.performHere_store_other {s t : State} (hs : s.Inv) (ht : t.ground = s.ground) (b : Block) {a : Access} {x : LaneAcc}
    {ps : List Place} (hk : a.kind = .store) {q : Place} (hq : q ∉ ps ∨ x.kept.any (·.1 == q) = true) :
    (t.performHere b a x ps).1.cell q = s.cell q := by
  obtain ⟨u, pv, hu, hw, own, -, store⟩ := (t.performHere_writes b a x ps).writes
  have before : u.bytes = s.bytes :=
    (State.bytes_of_ground hu).trans ((t.keepFor_bytes a x.lane ps).trans (State.bytes_of_ground ht))
  rw [State.cell_of_bytes (State.bytes_of_ground hw)]
  refine (State.cell_writeBytes_other (hs.of_bytes before) fun e he same => ?_).trans (State.cell_of_bytes before q)
  subst same
  rcases hq with hq | hq
  · exact hq (own e he)
  · rw [store hk] at he
    have free := (List.mem_filter.1 he).2
    rw [hq] at free
    cases free

/-- Settles O47: the lane is let in and performs its store (`State.performLane_eq`), which writes the bytes that are due and no others
(`State.performHere_writes`); finishing the access changes none (`State.afterLane_bytes`). -/
theorem storeWritesItsBytes : Obligations.StoreWritesItsBytes := by
  intro s s1 id order a b x ps hs ha hb hk hlas hx hh hf near nodup hl later
  have notDone : a.las.all (·.done) = false := by
    rw [hlas]
    simp [LaneAcc.done, hx]
  have lanes : ((if a.kind = .store then [] else order) ++
      (a.las.map (·.lane)).filter fun l => !(if a.kind = .store then [] else order).contains l) = [x.lane] := by
    rw [hlas, if_pos hk]
    rfl
  have admitted : s1.ground = s.ground := (congrArg (·.1.ground) hl).symm.trans (State.letIn_ground ..)
  have turn : s.performLane b a x = s1.performHere b a x ps :=
    State.performLane_eq hx hh hf (fun p hp => (near p hp).imp (fun ⟨k, e, _⟩ => ⟨k, e⟩) fun ⟨k, e, _⟩ => ⟨k, e⟩) hk hl
  have run := execAccessPerformed_eq (order := order) ha notDone
  dsimp only at run
  rw [lanes] at run
  obtain ⟨-, a', ha', f⟩ := State.performLanes_keeps (P := fun _ => True) (fun _ _ _ _ _ _ _ => trivial) (fun _ _ _ => trivial)
    [x.lane] trivial ha (.rfl' a)
  have same (q : Place) : ((s.performLanes id [x.lane]).afterLane id).cell q = (s1.performHere b a x ps).1.cell q := by
    refine State.cell_of_bytes ((State.afterLane_bytes _ ha' (by simp [f.kind, hk])).trans ?_) q
    rw [State.performLanes_one ha hb hlas, turn]
    rfl
  have written (q : Place) (v : Byte) (hq : (q, v) ∈ ps.zip x.data) (free : later q = false) (hr : s.reaches q = true) :=
    (same q).trans (State.performHere_store_written hs admitted b hk nodup hq free hr)
  have other (q : Place) (hq : q ∉ ps ∨ later q = true) := (same q).trans (State.performHere_store_other hs admitted b hk hq)
  have reached (q : Place) (v : Byte) (hq : (q, v) ∈ ps.zip x.data) : s.reaches q = true := by
    rcases near q (List.of_mem_zip hq).1 with ⟨k, rfl, hr⟩ | ⟨k, rfl, hr⟩
    · exact decide_eq_true hr
    · exact hr
  exact ⟨_, run, fun k v hq free => written _ v hq free (reached _ v hq), fun k v hq free => written _ v hq free (reached _ v hq),
    fun k => ⟨other (.dev k), other (.host k)⟩⟩

end Sys2Proof.Machine
end

section
/-! PROOFS. What the home does for a request received and admitted (R333, R337, R412, R415 to R417). The proofs are
elaborated one after another, to hold the number of Lean's threads down. -/

namespace Sys2Proof.Machine

set_option Elab.async false

/-! ## A request that nothing stands in the way of -/

/-- A request its export entry translates goes on at the places (R415). -/
theorem State.serve_eq {s s1 : State} {m : Msg} {need : Need} {n : Nat} {ps : List Place} {k : State → List Place → Out}
    (h : (s.wake m.ddie).exportPlaces m.ddie m.expidx m.tenant m.egen m.at_ n need = (s1, .ok ps)) :
    s.serve m need n k = k s1 ps := by
  rw [State.serve, h]

theorem State.admitMsg_eq {s t : State} {m : Msg} {ps : List Place} {data : Option (List Byte)} {k : State → Out}
    (h : s.letIn (msgWho m) m.ddie ps data = (t, true)) : s.admitMsg m ps data k = k t := by
  rw [State.admitMsg, h]

/-- A message that gives up copies of its sender's is judged without them. -/
theorem State.admitOwn_eq {s t : State} {m : Msg} {ps : List Place} {data : Option (List Byte)} {own : Holder → Bool} {k : State → Out}
    (h : ({ s with holders := s.holders.filter fun h => !(h.ofMsg (linesOf ps) m && own h) } : State).letIn (msgWho m) m.ddie ps data =
      (t, true)) : s.admitOwn m ps data own k = k t := by
  rw [State.admitOwn, h]

/-- The sender of a message is entered as a holder of each line (R412). -/
theorem State.mem_addHolder (s : State) {lines : List Nat} {l : Nat} (m : Msg) (excl : Bool) (hl : l ∈ lines) :
    ⟨l, m.src, m.sdie, excl, 0⟩ ∈ (s.addHolder lines m excl).holders :=
  List.mem_append_right _ (List.mem_map_of_mem hl)

/-! ## Reads, leases and ownership (R337, R412, R416, R417) -/

theorem execReadRequest_eq {s t : State} {m : Msg} {ps : List Place} (hm : Received s m tRead)
    (ha : Admitted s m .read m.bytes ps (fun _ => none) t) :
    execReadRequest m s = .next ((t.addHolder (linesOf ps) m false).answerData m ps (grantTail .shared 0 15 ps)) := by
  obtain ⟨_, translated, letIn⟩ := ha.home
  exact (State.receive_eq hm).trans ((State.serve_eq translated).trans (State.admitMsg_eq letIn))

/-- The lease that a request for one line is answered with. -/
def State.leaseFor (s : State) (m : Msg) (fin line : Nat) : Lease :=
  let f := s.leaseFormat m line
  { line := line, pos := BitVec.ofNat 4 m.src, die := m.sdie, fin := fin, facet := f.1, sfmt := f.2, push := m.mark && f.1 != 7,
    ended := false, asked := 0 }

/-- The leases of a requester on some lines give way to new ones. -/
def State.addLeases (s : State) (m : Msg) (fin : Nat) (lines : List Nat) : State :=
  { s with leases := (s.leases.filter fun e : Lease => !(lines.contains e.line && e.pos.toNat == m.src && e.die == m.sdie)) ++
      lines.map (s.leaseFor m fin) }

theorem State.mem_addLeases (s : State) {lines : List Nat} {l : Nat} (m : Msg) (fin : Nat) (hl : l ∈ lines) :
    s.leaseFor m fin l ∈ (s.addLeases m fin lines).leases :=
  List.mem_append_right _ (List.mem_map_of_mem hl)

/-- READ_SHARED_LEASE grants leases unless the device is leaving its pod or a store waits on one of the lines. -/
theorem execReadSharedLease_eq {s t : State} {m : Msg} {ps : List Place} {plain : Bool} (hm : Received s m tReadShared)
    (ha : Admitted s m .read m.bytes ps (fun _ => none) t)
    (hp : (t.quiescing || t.leaseWaits.any fun w => (linesOf ps).contains w.line) = plain) :
    let line := (linesOf ps).headD 0
    let fin := t.leaseEnd (t.homeDie (128 * line))
    let kept := if (t.leaseFormat m line).1 = 7 then 15 else m.facet
    execReadSharedLease m s = .next ((if plain then t else t.addLeases m fin (linesOf ps)).answerData m ps
      (grantTail (if plain then .none else .leased) fin kept ps)) := by
  obtain ⟨_, translated, letIn⟩ := ha.home
  subst hp
  refine (State.receive_eq hm).trans ((State.serve_eq translated).trans ((State.admitMsg_eq letIn).trans ?_))
  simp only [beq_iff_eq]
  rfl

/-- OWNERSHIP_REQUEST makes the requester the owner where no lease on the lines is left. -/
theorem execOwnershipRequest_eq {s s1 t : State} {m : Msg} {ps : List Place} (hm : Received s m tOwn)
    (translated : ((s.noteSeq m).wake m.ddie).exportPlaces m.ddie m.expidx m.tenant m.egen m.at_ m.bytes .write = (s1, .ok ps))
    (letIn : ({ s1 with holders := s1.holders.filter fun h => !(h.ofMsg (linesOf ps) m && !h.excl) } : State).letIn (msgWho m) m.ddie ps
      (some (s1.readPlaces ps)) = (t, true)) :
    execOwnershipRequest m s =
      if (s1.leases.filter fun e : Lease => (linesOf ps).contains e.line && !e.ended).isEmpty
      then .next ((t.addHolder (linesOf ps) m true).answerData m ps (grantTail .excl 0 15 ps))
      else .next (t.answerData m ps (grantTail .none 0 15 ps)) :=
  (State.receive_eq hm).trans ((State.serve_eq translated).trans (State.admitOwn_eq letIn))

/-! ## Writes (R265, R415, R416) -/

theorem execWriteBack_eq {s s1 t : State} {m : Msg} {ps : List Place} (hm : Received s m tWriteBack)
    (translated : ((s.noteSeq m).wake m.ddie).exportPlaces m.ddie m.expidx m.tenant m.egen m.at_ m.body.length .write = (s1, .ok ps))
    (letIn : ({ s1 with holders := s1.holders.filter fun h => !(h.ofMsg (linesOf ps) m && true) } : State).letIn (msgWho m) m.ddie ps
      (some m.body) = (t, true)) :
    execWriteBack m s = .next ((t.peerStore ps m.body m.mark).acknowledge m) :=
  (State.receive_eq hm).trans ((State.serve_eq translated).trans (State.admitOwn_eq (own := fun _ => true) letIn))

/-- A message whose whole body is admitted writes it and is acknowledged. -/
theorem State.writeMsg_eq {s t : State} {m : Msg} {ps : List Place} (ha : Admitted s m .write m.body.length ps (fun _ => some m.body) t)
    (poison : Bool) :
    (s.noteSeq m).writeMsg m m.body.length poison = .next ((t.peerStore ps m.body poison).acknowledge m) := by
  obtain ⟨_, translated, letIn⟩ := ha.home
  rw [State.writeMsg, List.take_length]
  exact (State.serve_eq translated).trans (State.admitMsg_eq letIn)

theorem execSendListPayload_eq {s t : State} {m : Msg} {ps : List Place} (hm : Received s m tPayload)
    (ha : Admitted s m .write m.body.length ps (fun _ => some m.body) t) :
    execSendListPayload m s = .next ((t.peerStore ps m.body m.mark).acknowledge m) := by
  rw [execSendListPayload, State.receive_eq hm, State.writeMsg_eq ha]

theorem execRemoteStamp_eq {s t : State} {m : Msg} {ps : List Place} (hm : Received s m tStamp)
    (ha : Admitted s m .write m.body.length ps (fun _ => some m.body) t) :
    execRemoteStamp m s = .next ((t.peerStore ps m.body false).acknowledge m) := by
  rw [execRemoteStamp, State.receive_eq hm, State.writeMsg_eq ha]

/-! ## Synchronising accesses (R333) -/

/-- A synchronising access at its places, as a lane of an access. -/
def syncLane (m : Msg) (ps : List Place) : LaneAcc :=
  .mk 0 0 m.at_ (syncReq m.body).n (syncReq m.body).data (syncReq m.body).cmp [] (.placed ps) [] [] []

/-- The bytes that a synchronising access writes at its places: a load none, and an atomic none where a byte there is bad. -/
def State.syncNew (s : State) (m : Msg) (ps : List Place) : Option (List Byte) :=
  match (syncReq m.body).kind with
  | .load | .monitor => none
  | .store => some (syncReq m.body).data
  | k => if ps.any s.badByte then none else atomBytes k (syncReq m.body).fmt (syncLane m ps) (s.readPlaces ps)

/-- What becomes of the home once a synchronising access is let in: a store is acknowledged; any other publishes what the cores have
stored (R331) and is answered with the old value. -/
def State.syncDone (s : State) (m : Msg) (ps : List Place) (new : Option (List Byte)) : Out :=
  let p := if (syncReq m.body).kind == .store then s else s.publish fun _ => true
  let old := p.replyBytes ps
  match new with
  | none => .next (p.answer m tData old.1 old.2)
  | some bs =>
    let w := p.peerStore ps bs (syncReq m.body).poison
    .next (if (syncReq m.body).kind == .store then w.acknowledge m else w.answer m tData old.1 old.2)

theorem execSyncAccessAtHome_eq {s t : State} {m : Msg} {ps : List Place} (hm : Received s m tSync)
    (ha : Admitted s m (syncReq m.body).kind.need (syncReq m.body).n ps (·.syncNew m ps) t) :
    ∃ s1, ((s.noteSeq m).wake m.ddie).exportPlaces m.ddie m.expidx m.tenant m.egen m.at_ (syncReq m.body).n (syncReq m.body).kind.need =
        (s1, .ok ps) ∧
      execSyncAccessAtHome m s = t.syncDone m ps (s1.syncNew m ps) := by
  obtain ⟨s1, translated, letIn⟩ := ha.home
  exact ⟨s1, translated, (State.receive_eq hm).trans ((State.serve_eq translated).trans (State.admitMsg_eq letIn))⟩

theorem State.syncNew_load (s : State) {m : Msg} (ps : List Place) (hk : (syncReq m.body).kind = .load) : s.syncNew m ps = none := by
  rw [State.syncNew, hk]

theorem State.syncNew_store (s : State) {m : Msg} (ps : List Place) (hk : (syncReq m.body).kind = .store) :
    s.syncNew m ps = some (syncReq m.body).data := by
  rw [State.syncNew, hk]

theorem State.syncNew_atom (s : State) {m : Msg} {op : AOp} (ps : List Place) (hk : (syncReq m.body).kind = .atom op) :
    s.syncNew m ps = if ps.any s.badByte then none
      else atomBytes (.atom op) (syncReq m.body).fmt (syncLane m ps) (s.readPlaces ps) := by
  rw [State.syncNew, hk]

theorem execSyncAccessAtHome_load {s t : State} {m : Msg} {ps : List Place} (hm : Received s m tSync)
    (hk : (syncReq m.body).kind = .load) (ha : Admitted s m .read (syncReq m.body).n ps (fun _ => none) t) :
    let p := t.publish fun _ => true
    execSyncAccessAtHome m s = .next (p.answer m tData (p.replyBytes ps).1 (p.replyBytes ps).2) := by
  obtain ⟨s1, -, run⟩ := execSyncAccessAtHome_eq (t := t) (ps := ps) hm
    (by simpa only [hk, AccKind.need, State.syncNew_load _ ps hk] using ha)
  rw [run, State.syncNew_load s1 ps hk, State.syncDone, hk]
  rfl

theorem execSyncAccessAtHome_store {s t : State} {m : Msg} {ps : List Place} (hm : Received s m tSync)
    (hk : (syncReq m.body).kind = .store)
    (ha : Admitted s m .write (syncReq m.body).n ps (fun _ => some (syncReq m.body).data) t) :
    execSyncAccessAtHome m s = .next ((t.peerStore ps (syncReq m.body).data (syncReq m.body).poison).acknowledge m) := by
  obtain ⟨s1, -, run⟩ := execSyncAccessAtHome_eq (t := t) (ps := ps) hm
    (by simpa only [hk, AccKind.need, State.syncNew_store _ ps hk] using ha)
  rw [run, State.syncNew_store s1 ps hk, State.syncDone, hk]
  rfl

/-- An atomic access writes what it makes of the bytes that its places hold as it is let in, and answers with them. -/
theorem execSyncAccessAtHome_atom {s t : State} {m : Msg} {ps : List Place} {op : AOp} {bs : List Byte} (hm : Received s m tSync)
    (hk : (syncReq m.body).kind = .atom op)
    (ha : Admitted s m .both (syncReq m.body).n ps
      (fun s1 => if ps.any s1.badByte then none
        else atomBytes (.atom op) (syncReq m.body).fmt (syncLane m ps) (s1.readPlaces ps)) t)
    (hnew : ∀ s1, ((s.noteSeq m).wake m.ddie).exportPlaces m.ddie m.expidx m.tenant m.egen m.at_ (syncReq m.body).n .both = (s1, .ok ps) →
      ps.any s1.badByte = false ∧
        atomBytes (.atom op) (syncReq m.body).fmt (syncLane m ps) (s1.readPlaces ps) = some bs) :
    let p := t.publish fun _ => true
    execSyncAccessAtHome m s =
      .next ((p.peerStore ps bs (syncReq m.body).poison).answer m tData (p.replyBytes ps).1 (p.replyBytes ps).2) := by
  obtain ⟨s1, translated, run⟩ := execSyncAccessAtHome_eq (t := t) (ps := ps) hm
    (by simpa only [hk, AccKind.need, State.syncNew_atom _ ps hk] using ha)
  rw [hk] at translated
  obtain ⟨clean, value⟩ := hnew s1 translated
  have new : s1.syncNew m ps = some bs := by
    rw [State.syncNew_atom s1 ps hk, clean]
    exact value
  rw [run, new, State.syncDone, hk]
  rfl

/-! ## The obligation -/

/-- Settles O31: each request by its equation above. -/
theorem fabricRequestsComplete : Obligations.FabricRequestsComplete := by
  intro s t m ps
  refine ⟨fun hm ha => ⟨_, execReadRequest_eq hm ha, fun l => t.mem_addHolder m false⟩, fun hm ha => ?_, fun s1 hm translated => ?_,
    fun s1 => execWriteBack_eq, fun ha => ⟨(execSendListPayload_eq · ha), (execRemoteStamp_eq · ha)⟩,
    fun hm => ⟨execSyncAccessAtHome_load hm, execSyncAccessAtHome_store hm, fun op x bs hk hx ha hnew => ?_⟩⟩
  · intro line fin kept
    refine ⟨fun withheld => execReadSharedLease_eq hm ha (plain := true) (Bool.or_eq_true_iff.2 withheld), fun stays free => ?_⟩
    exact ⟨t.addLeases m fin (linesOf ps), execReadSharedLease_eq hm ha (plain := false) (Bool.or_eq_false_iff.2 ⟨stays, free⟩),
      fun l hl => ⟨t.leaseFor m fin l, t.mem_addLeases m fin hl, rfl, rfl, rfl, rfl, rfl⟩⟩
  · intro live letIn
    have run := execOwnershipRequest_eq hm translated letIn
    exact ⟨fun none => ⟨_, run.trans (if_pos (List.isEmpty_iff.2 none)), fun l => t.mem_addHolder m true⟩,
      fun left => run.trans (if_neg fun none => left (List.isEmpty_iff.1 none))⟩
  · subst hx
    exact execSyncAccessAtHome_atom hm hk ha hnew

end Sys2Proof.Machine
end

section
/-! PROOFS. A trap that halts the logical device: the entry it leaves in the error log; a trap in the handler's own lanes (R347, R351,
R458). -/

namespace Sys2Proof.Machine

/-! ## The error log and the halt -/

/-- The entry put under a key is found there. -/
theorem Sparse.find?_put {α : Type} (m : Map α) (k : Nat) (v : α) : Sparse.find? (Sparse.put m k v) k = some v := by
  induction m with
  | nil => simp [Sparse.put, Sparse.find?]
  | cons e m ih =>
    obtain ⟨k', v'⟩ := e
    rw [Sparse.put]
    split
    · simp [Sparse.find?]
    split
    · simp [Sparse.find?]
    · rename_i differ
      rw [Sparse.find?, List.find?_cons, beq_eq_false_iff_ne.2 (Ne.symm differ)]
      exact ih

/-- A trap that nothing handles: an entry of code 0x07 in the error log, and the logical device halts (R347, R351). -/
def State.trapHalt (s : State) (d : Nat) (addr detail : Word) : State := (s.logOwn d 0x07 addr detail).haltDevice d

/-- The die is halted, and the next place of its log holds the entry (R347, R458). -/
theorem State.die_trapHalt {s : State} {d : Nat} (hd : d < s.dies.length) (addr detail : Word) :
    let di := (s.trapHalt d addr detail).die d
    di.halted = true ∧ di.logNext = (s.die d).logNext + 1 ∧
      Sparse.find? di.log ((s.die d).logNext % 256) =
        some ⟨mkWord [(0x07, 56), (d, 54), (s.pos, 48)], addr, (s.die d).time, detail⟩ := by
  have here : d < (s.logOwn d 0x07 addr detail).dies.length := by simpa [State.logOwn, State.logError, State.modDie] using hd
  rw [State.trapHalt, State.die_haltDevice, if_pos ⟨rfl, here⟩, State.logOwn, State.logError, State.die_modDie, if_pos ⟨rfl, hd⟩]
  exact ⟨rfl, rfl, Sparse.find?_put _ _ _⟩

/-- A word of two fields, the first at bit 0. -/
theorem mkWord_pair (x y k : Nat) : mkWord [(x, 0), (y, k)] = BitVec.ofNat 64 (x + 2 ^ k * y) := by
  simp [mkWord, Nat.mul_comm]

/-- Changing some blocks, but not their numbers, finds each block as it was or changed. -/
theorem State.block?_updWhere {s : State} {k : Nat} {b : Block} (h : s.block? k = some b) (p : Block → Bool) {f : Block → Block}
    (hid : ∀ x, (f x).id = x.id) :
    ({ s with blocks := updWhere p f s.blocks } : State).block? k = some (if p b then f b else b) := by
  have same : ((fun x : Block => x.id == k) ∘ fun x => if p x then f x else x) = fun x => x.id == k := by
    funext x
    simp only [Function.comp_apply]
    split
    · rw [hid]
    · rfl
  rw [State.block?] at h
  simp only [State.block?, updWhere, List.find?_map, same, h, Option.map_some]

/-- Such a halt leaves the register files and the cohorts of every block as they were (R274, R351). -/
theorem State.block?_trapHalt {s : State} {k : Nat} {b : Block} (h : s.block? k = some b) (d : Nat) (addr detail : Word) :
    ∃ b', (s.trapHalt d addr detail).block? k = some b' ∧ b.SameFiles b' ∧ b'.cohorts = b.cohorts := by
  refine ⟨_, State.block?_updWhere (s := (s.logOwn d 0x07 addr detail).modDie d _) h _ fun _ => rfl, ?_⟩
  generalize (b.die == d && _) = stops
  cases stops
  · exact ⟨.rfl' b, rfl⟩
  · exact ⟨⟨fun _ => rfl, fun _ => rfl, fun _ => rfl, fun _ => rfl, fun _ => rfl, fun _ => rfl, rfl, rfl, rfl, rfl⟩, rfl⟩

/-! ## A trap raised in one home group -/

/-- The check number of DETAIL takes a free value or none (log 20). -/
theorem State.openDetail_state (s : State) (t : Trap) (detail : Word) : ∃ n, (s.openDetail t detail).1 = { s with free := n } := by
  unfold State.openDetail
  extract_lets row
  split
  · exact ⟨s.free + 1, rfl⟩
  · exact ⟨s.free, rfl⟩

/-- A trap of a cohort whose lanes are all of one group is raised there, but for the free value its DETAIL may take. -/
theorem State.raise_oneHome (s : State) (b : Block) {c : Ctx} {g : Nat} (hw : c.wide = false) (hg : homesOf c.lanes = [g]) (sc : Scope)
    (t : Trap) (fail : List Nat) (x : Nat → TrapArgs) (pc2 : Nat) :
    ∃ n a, s.raise b c sc t fail x pc2 = ({ s with free := n } : State).raiseHome b { c with grp := g } sc t fail a pc2 := by
  have raised : ∃ detail a, s.raise b c sc t fail x pc2 =
      (s.openDetail t detail).1.raiseHome b { c with grp := g } sc t fail a pc2 := by
    unfold State.raise
    simp only [hw, hg, Bool.false_eq_true, if_false, List.length_singleton, Nat.one_lt_ofNat, if_true]
    exact ⟨_, _, rfl⟩
  obtain ⟨detail, a, e⟩ := raised
  obtain ⟨n, e'⟩ := s.openDetail_state t detail
  exact ⟨n, a, e' ▸ e⟩

/-- A trap in the handler's own lanes is logged with both codes and halts the logical device; the cohort stands at its instruction
(R351). -/
theorem State.raiseHome_inHandler {s : State} {b : Block} {c : Ctx} {f : Frame} (hw : c.wide = false)
    (hf : (b.group c.grp).frame = some f) (own : ∃ l ∈ c.lanes, l ∈ f.raised.lanes) (on : (s.die b.die).halted = false) (sc : Scope)
    (t : Trap) (fail : List Nat) (x : TrapArgs) (pc2 : Nat) :
    s.raiseHome b c sc t fail x pc2 =
      { (s.setBlock (b.standHeld c)).trapHalt b.die (BitVec.ofNat 64 c.pc)
          (mkWord [(trapCode t, 0), (trapCode f.raised.trap, 8)]) with cur := none } := by
  have own : c.lanes.any f.raised.lanes.contains = true := by simpa using own
  unfold State.raiseHome
  simp [hw, hf, own, on, State.trapHalt]

/-- Settles O60: the trap is raised in the group of the open frame, where `State.raiseHome_inHandler` says what it does. -/
theorem trapInHandlerHalts : Obligations.TrapInHandlerHalts := by
  intro s b c sc t fail x pc2 f g hb hw hg _ hf own hd on u
  obtain ⟨n, a, raised⟩ := s.raise_oneHome b hw hg sc t fail x pc2
  have halts : u = _ := raised.trans (State.raiseHome_inHandler (s := { s with free := n }) (c := { c with grp := g }) hw hf own on ..)
  have number : b.id = c.blk := State.block?_id hb
  have stands : (({ s with free := n } : State).setBlock (b.standHeld c)).block? c.blk = some (b.standHeld c) :=
    State.block?_setBlock hb _ number
  obtain ⟨halted, next, entry⟩ := State.die_trapHalt (s := ({ s with free := n } : State).setBlock (b.standHeld c)) hd _ _
  obtain ⟨b', found, files, cohorts⟩ := State.block?_trapHalt stands b.die _ _
  rw [halts]
  refine ⟨halted, rfl, rfl, next, ?_, b', found, (b.cohorts_quiet _ b.rdvs [] []).files.trans files, cohorts⟩
  exact (congrArg (Option.map _) entry).trans (congrArg some (mkWord_pair _ _ 8))

end Sys2Proof.Machine
end

section
/-! PROOFS. What the operations of a trap's entry leave as it was: the walk to the frame, the write of the frame, the registers shown as
POISON (R347 to R349, R393). -/

namespace Sys2Proof.Machine

/-! ## A translation (R390 to R393) -/

/-- Only copies of translations, and the lines of tables that are asked for, differ. -/
def State.Walked (s t : State) : Prop := ∃ copies lines, t = { s with tlb := copies, wanted := lines }

theorem State.Walked.rfl' (s : State) : s.Walked s := ⟨s.tlb, s.wanted, rfl⟩

theorem State.Walked.trans {s t u : State} (h : s.Walked t) (k : t.Walked u) : s.Walked u := by
  obtain ⟨copies, lines, rfl⟩ := h
  obtain ⟨copies', lines', rfl⟩ := k
  exact ⟨copies', lines', rfl⟩

theorem State.leafOf_walked (s : State) (v va : Nat) : s.Walked (s.leafOf v va).1 := by
  unfold State.leafOf
  extract_lets di root
  split
  · exact .rfl' s
  split
  · exact .rfl' s
  split
  · exact ⟨_, s.wanted, rfl⟩
  · exact .rfl' s
  · exact ⟨s.tlb, _, rfl⟩

theorem State.translate_walked (s : State) (v va : Nat) (need : Need) (side : Side) : s.Walked (s.translate v va need side).1 := by
  have leaf := s.leafOf_walked v va
  unfold State.translate
  split <;> rename_i e <;> rw [e] at leaf
  · exact leaf
  · exact leaf
  · extract_lets okPerm onHost okSide a
    split
    · exact leaf.trans ⟨_, _, rfl⟩
    · exact leaf

theorem State.spotsFrom_walked (s : State) (v : Nat) (need : Need) (side : Side) (fuel va n : Nat) :
    s.Walked (s.spotsFrom v need side fuel va n).1 := by
  induction fuel generalizing s va n with
  | zero => exact .rfl' s
  | succ fuel ih =>
    have page := s.translate_walked v va need side
    unfold State.spotsFrom
    split
    · exact .rfl' s
    extract_lets k
    split <;> rename_i e <;> rw [e] at page
    · exact page
    · exact page
    · rename_i t p
      have rest := ih t (va + k) (n - k)
      split
      · rename_i e
        rw [e] at rest
        exact page.trans rest
      · exact page.trans rest

theorem State.spots_walked (s : State) (v va n : Nat) (need : Need) (side : Side) : s.Walked (s.spots v va n need side).1 :=
  s.spotsFrom_walked v need side _ va n

theorem State.Walked.of_spots {s t : State} {v va n : Nat} {need : Need} {side : Side} {x : Spots}
    (h : s.spots v va n need side = (t, x)) : s.Walked t := by
  have walked := s.spots_walked v va n need side
  rwa [h] at walked

theorem State.Walked.block? {s t : State} (h : s.Walked t) (k : Nat) : t.block? k = s.block? k := by
  obtain ⟨copies, lines, rfl⟩ := h
  rfl

/-! ## Bytes stored and read back (R56, R357, R411) -/

/-- Which bytes of device memory and of host memory are lost or out of reach, and where device memory ends. -/
def State.marks (s : State) : List Nat × List Nat × BitVec 2 × List HostLine × BitVec 4 :=
  (s.dpoison, s.hpoison, s.hostLinks, s.filter, s.dieMask)

/-- A place in device memory or in host memory. -/
def Place.inMemory : Place → Bool
  | .dev _ | .host _ => true
  | _ => false

/-- No byte of memory is lost or out of reach that was not so before. -/
structure State.NoWorse (s t : State) : Prop where
  dpoison : ∀ l ∈ t.dpoison, l ∈ s.dpoison
  hpoison : ∀ l ∈ t.hpoison, l ∈ s.hpoison
  hostLinks : t.hostLinks = s.hostLinks
  lost : ∀ h ∈ t.filter, h.lost = true → ∃ h' ∈ s.filter, h'.lost = true ∧ h'.line = h.line
  dieMask : t.dieMask = s.dieMask

theorem State.NoWorse.of_marks {s t : State} (h : t.marks = s.marks) : s.NoWorse t := by
  simp only [State.marks, Prod.mk.injEq] at h
  obtain ⟨hd, hh, hl, hf, hm⟩ := h
  exact ⟨fun _ => (hd ▸ ·), fun _ => (hh ▸ ·), hl, fun h mem lost => ⟨h, hf ▸ mem, lost, rfl⟩, hm⟩

/-- A sound place of memory stays sound. -/
theorem State.NoWorse.sound {s t : State} (h : s.NoWorse t) {q : Place} (hq : q.inMemory = true) (hs : s.Sound q) : t.Sound q := by
  obtain ⟨clean, inside⟩ := hs
  cases q with
  | dev a =>
    refine ⟨?_, by simpa only [State.capacity, h.dieMask] using inside⟩
    simp only [State.badByte, List.contains_eq_mem, decide_eq_false_iff_not] at clean ⊢
    exact mt (h.dpoison _) clean
  | host a =>
    refine ⟨?_, fun _ => nofun⟩
    simp only [State.badByte, h.hostLinks, Bool.or_eq_false_iff, List.contains_eq_mem, decide_eq_false_iff_not, List.any_eq_false,
      Bool.and_eq_true, beq_iff_eq, not_and] at clean ⊢
    obtain ⟨⟨sound, up⟩, kept⟩ := clean
    refine ⟨⟨mt (h.hpoison _) sound, up⟩, fun x mem gone same => ?_⟩
    obtain ⟨y, mem', gone', line⟩ := h.lost x mem gone
    exact kept y mem' gone' (line.trans same)
  | scr b o | peer p d e g t o | err => cases hq

/-- A write reaches a sound place of memory, and the place reads as the byte that stands there. -/
theorem State.Sound.reaches {s : State} {q : Place} (hq : q.inMemory = true) (hs : s.Sound q) : s.reaches q = true := by
  cases q with
  | dev a => exact decide_eq_true (hs.inside a rfl)
  | host a =>
    have clean := hs.clean
    simp only [State.badByte, Bool.or_eq_false_iff, Bool.not_eq_false'] at clean
    exact clean.1.2
  | scr b o | peer p d e g t o | err => cases hq

theorem State.Sound.readByte {s : State} {q : Place} (hq : q.inMemory = true) (hs : s.Sound q) : s.readByte q = s.cell q := by
  cases q with
  | dev a => exact State.readByte_dev hs
  | host a => exact State.readByte_host hs
  | scr b o | peer p d e g t o | err => cases hq

/-- Poison taken away makes no byte worse (R357). -/
theorem State.setPoison_off_noWorse (s : State) (p : Place) : s.NoWorse (s.setPoison p false) := by
  cases p with
  | dev a =>
    rw [State.setPoison]
    split
    · exact .of_marks rfl
    · exact ⟨fun _ => List.mem_of_mem_filter, fun _ => id, rfl, fun h mem lost => ⟨h, mem, lost, rfl⟩, rfl⟩
  | host a =>
    refine ⟨fun _ => id, fun _ => List.mem_of_mem_filter, rfl, fun h mem lost => ?_, rfl⟩
    obtain ⟨x, held, rfl⟩ := List.mem_map.1 mem
    refine ⟨x, held, ?_⟩
    split at lost
    · cases lost
    · rw [if_neg ‹_›]
      exact ⟨lost, rfl⟩
  | scr b o | peer p d e g t o | err => exact .of_marks rfl

theorem State.writeBytes_marks (s : State) (pv : List (Place × Byte)) : (s.writeBytes pv).marks = s.marks := by
  induction pv generalizing s with
  | nil => rfl
  | cons e pv ih =>
    refine (ih (s.writeByte e.1 e.2)).trans ?_
    fun_cases State.writeByte s e.1 e.2 <;> rfl

theorem State.compareLine_marks (s : State) (core : Option Nat) (host : Bool) (old : List Byte) (line : Nat) (written : List Nat) :
    (s.compareLine core host old line written).marks = s.marks := by
  unfold State.compareLine
  extract_lets new on others facets hit leased keeps kept lost s1 gone own
  have counted : s1.marks = s.marks := by
    unfold s1
    split <;> rfl
  exact counted

theorem State.markDirty_marks (s : State) (pv : List (Place × Byte)) : (s.markDirty pv).marks = s.marks := by
  refine foldl_unchanged (g := State.marks) (fun s e => ?_) pv s
  obtain ⟨p, v⟩ := e
  cases p <;> rfl

theorem State.notePublish_marks (s : State) (blk : Nat) : (s.notePublish blk).marks = s.marks := by
  unfold State.notePublish
  split <;> rfl

/-- A store marks no place of memory but that it takes poison away (R357). -/
theorem State.storeBy_marks (s : State) (core : Option Nat) (pv : List (Place × Byte)) :
    (s.storeBy core pv).marks = (s.storeRaw pv).marks := by
  unfold State.storeBy
  extract_lets ls s0 s1 s2
  have device : s0.marks = (s.storeRaw pv).marks := by
    refine foldl_unchanged (fun t e => ?_) ls _
    exact t.compareLine_marks core false _ e.1 e.2
  have lines : s1.marks = s0.marks := by
    refine foldl_unchanged (fun t e => ?_) _ s0
    exact t.compareLine_marks core true _ e.1 e.2
  have marked : s2.marks = s1.marks := State.markDirty_marks (s1.markStale _) pv
  have published : ((s2.published pv).foldl (·.notePublish ·) s2).marks = s2.marks := foldl_unchanged State.notePublish_marks _ s2
  exact published.trans (marked.trans (lines.trans device))

theorem State.Sound.storeBytes {s : State} {q : Place} (hq : q.inMemory = true) (hs : s.Sound q) (pv : List (Place × Byte)) :
    (s.storeBytes pv).Sound q := by
  have written : (s.writeBytes pv).Sound q := (State.NoWorse.of_marks (s.writeBytes_marks pv)).sound hq hs
  have raw : (s.storeRaw pv).Sound q :=
    List.foldlRecOn (motive := fun t : State => t.Sound q) _ _ written fun t sound p _ => (t.setPoison_off_noWorse p).sound hq sound
  exact (State.NoWorse.of_marks (s.storeBy_marks none pv)).sound hq raw

/-- Sound places of memory read as they did while the bytes and the marks of memory are the same. -/
theorem State.readPlaces_congr {s t : State} (hm : t.marks = s.marks) (hd : t.dmem = s.dmem) (hh : t.hmem = s.hmem) {ps : List Place}
    (sound : ∀ p ∈ ps, p.inMemory = true ∧ s.Sound p) : t.readPlaces ps = s.readPlaces ps := by
  refine List.map_congr_left fun p hp => ?_
  obtain ⟨memory, clean⟩ := sound p hp
  rw [clean.readByte memory, ((State.NoWorse.of_marks hm).sound memory clean).readByte memory]
  cases p <;> simp only [State.cell, hd, hh]

/-- A number given out and a block put back leave them so. -/
theorem State.readPlaces_fresh_setBlock {s : State} (b : Block) {ps : List Place} (sound : ∀ p ∈ ps, p.inMemory = true ∧ s.Sound p) :
    (s.fresh.2.setBlock b).readPlaces ps = s.readPlaces ps :=
  State.readPlaces_congr (s := s) (t := s.fresh.2.setBlock b) rfl rfl rfl sound

/-- Bytes stored at places of memory, all different and sound, are read there (R56, R411). -/
theorem State.readPlaces_storeBytes {s : State} (hs : s.Inv) {ps : List Place} {bs : List Byte} (hlen : bs.length ≤ ps.length)
    (nodup : ps.Nodup) (sound : ∀ p ∈ ps, p.inMemory = true ∧ s.Sound p) :
    (s.storeBytes (ps.zip bs)).readPlaces (ps.take bs.length) = bs := by
  have held : (s.storeBytes (ps.zip bs)).bytes = (s.writeBytes (ps.zip bs)).bytes := State.bytes_of_ground (s.storeBy_ground none _)
  refine List.ext_getElem (by simp [State.readPlaces, hlen]) fun i _ hi => ?_
  obtain ⟨memory, clean⟩ := sound ps[i] (List.getElem_mem _)
  have written : (ps[i], bs[i]) ∈ ps.zip bs := List.mem_iff_getElem.2 ⟨i, by simp; omega, List.getElem_zip⟩
  calc ((s.storeBytes (ps.zip bs)).readPlaces (ps.take bs.length))[i]
      = (s.storeBytes (ps.zip bs)).readByte ps[i] := by simp [State.readPlaces]
    _ = (s.storeBytes (ps.zip bs)).cell ps[i] := (clean.storeBytes memory _).readByte memory
    _ = (s.writeBytes (ps.zip bs)).cell ps[i] := State.cell_of_bytes held _
    _ = bs[i] := State.cell_writeBytes_mem hs (nodup.sublist (map_fst_zip_sublist ps bs)) written (clean.reaches memory)

/-- Bytes written leave every block where it was. -/
theorem State.block?_writeBytes {s : State} {k : Nat} {b : Block} (hb : s.block? k = some b) (pv : List (Place × Byte)) :
    ∃ b', (s.writeBytes pv).block? k = some b' := by
  induction pv generalizing s b with
  | nil => exact ⟨b, hb⟩
  | cons e pv ih =>
    obtain ⟨p, v⟩ := e
    suffices here : ∃ b', (s.writeByte p v).block? k = some b' from ih here.choose_spec
    cases p with
    | scr j o =>
      by_cases hj : k = j
      · subst hj
        exact ⟨_, State.block?_writeByte_scr hb o v⟩
      · exact ⟨b, (State.block?_writeByte_scr_other s hj o v).trans hb⟩
    | dev a | host a =>
      rw [State.writeByte]
      split <;> exact ⟨b, hb⟩
    | peer p d e g t o | err => exact ⟨b, hb⟩

/-- A store finds every block where it was, whatever its scratchpad holds then. -/
theorem State.block?_storeBytes {s : State} {k : Nat} {b : Block} (hb : s.block? k = some b) (pv : List (Place × Byte)) :
    ∃ b', (s.storeBytes pv).block? k = some b' := by
  have held : (s.storeBytes pv).bytes = (s.writeBytes pv).bytes := State.bytes_of_ground (s.storeBy_ground none pv)
  have kept : ((s.storeBytes pv).block? k).isSome = ((s.writeBytes pv).block? k).isSome := by
    simpa [State.bytes] using congrArg (fun e => (e.2.2 k).isSome) held
  exact Option.isSome_iff_exists.1 (kept.trans (Option.isSome_iff_exists.2 (State.block?_writeBytes hb pv)))

/-! ## Registers shown as POISON (R348) -/

/-- A block whose lanes and groups are as many, and whose lanes' registers are in canonical form where they were. -/
structure Block.SameShape (b b' : Block) : Prop where
  id : b'.id = b.id
  lanes : b'.lanes.length = b.lanes.length
  groups : b'.groups.length = b.groups.length
  regs : ∀ l, Sparse.wf Reg.zero (b.lane l).regs = true → Sparse.wf Reg.zero (b'.lane l).regs = true

theorem Block.SameShape.rfl' (b : Block) : b.SameShape b := ⟨rfl, rfl, rfl, fun _ w => w⟩

theorem Block.SameShape.trans {a b c : Block} (h : a.SameShape b) (k : b.SameShape c) : a.SameShape c :=
  ⟨k.id.trans h.id, k.lanes.trans h.lanes, k.groups.trans h.groups, fun l w => k.regs l (h.regs l w)⟩

theorem Block.SameShape.foldl {α : Type} {f : Block → α → Block} (h : ∀ (b : Block) a, b.SameShape (f b a)) (l : List α) (b : Block) :
    b.SameShape (l.foldl f b) :=
  List.foldlRecOn (motive := b.SameShape) l f (.rfl' b) fun b' same a _ => same.trans (h b' a)

theorem Block.modGroup_sameShape (b : Block) (g : Nat) (f : Group → Group) : b.SameShape (b.modGroup g f) :=
  ⟨rfl, rfl, List.length_modify .., fun _ w => w⟩

theorem Block.modLanes_sameShape (b : Block) (p : Nat → Bool) {f : Nat → Lane → Lane}
    (hf : ∀ l ln, Sparse.wf Reg.zero ln.regs = true → Sparse.wf Reg.zero (f l ln).regs = true) : b.SameShape (b.modLanes p f) := by
  refine ⟨rfl, b.lanes_modLanes_length p f, rfl, fun l w => ?_⟩
  by_cases there : l < b.lanes.length
  · rw [b.lane_modLanes_in p f l there]
    split
    · exact hf l _ w
    · exact w
  · rw [Block.lane, List.getD_eq_default _ _ (by rw [b.lanes_modLanes_length]; omega)]
    rfl

theorem Block.putPoison_sameShape (b : Block) (ls : List Nat) (o : LongOp) (c : Nat) : b.SameShape (b.putPoison ls o c) := by
  unfold Block.putPoison
  split
  · exact b.modLanes_sameShape _ fun _ _ => Sparse.set_wf _ _ _ _
  split
  · split
    · exact ⟨rfl, rfl, rfl, fun _ w => w⟩
    · exact .rfl' b
  · exact .foldl (fun b g => b.modGroup_sameShape g _) _ b

theorem Block.putOnes_sameShape (b : Block) (gs : List Nat) (hr : Nat) : b.SameShape (b.putOnes gs hr) :=
  .foldl (fun b g => b.modGroup_sameShape g _) gs b

theorem State.showPoison_sameShape (s : State) (b : Block) (ids ls : List Nat) : b.SameShape (s.showPoison b ids ls).2 := by
  refine (Block.SameShape.foldl (fun b o => .foldl (fun b c => b.putPoison_sameShape ls o c) _ b) _ b).trans (.foldl (fun b o => ?_) _ _)
  split
  · exact b.putOnes_sameShape _ _
  · exact .rfl' b

theorem State.showPoison_marks (s : State) (b : Block) (ids ls : List Nat) : (s.showPoison b ids ls).1.marks = s.marks := rfl

/-- Where nothing awaits replay, no register is shown as POISON. -/
theorem State.showPoison_nil (s : State) (b : Block) (ls : List Nat) : (s.showPoison b [] ls).2 = b := by
  simp [State.showPoison]

end Sys2Proof.Machine
end

section
/-! PROOFS. Taking a trap: its frame, its handler's lanes, and the halt without a handler (R347 to R349). -/

namespace Sys2Proof.Machine

/-! ## The frame (R349) -/

theorem length_toBytes (n x : Nat) : (toBytes n x).length = n := by
  induction n generalizing x with
  | zero => rfl
  | succ n ih => exact congrArg (· + 1) (ih _)

theorem length_regBytes (l : Option Lane) (c : Nat) : (regBytes l c).length = 8 := by
  cases l <;> exact length_toBytes 8 _

/-- A list of pieces of one length. -/
theorem length_flatMap_const {α β : Type} {l : List α} {f : α → List β} {n : Nat} (h : ∀ a, (f a).length = n) :
    (l.flatMap f).length = l.length * n := by
  simp only [List.length_flatMap, h, List.map_const', List.sum_replicate, smul_eq_mul]

/-- A frame's image is 0x1200 bytes. -/
theorem length_frameBytes (r : Raised) (more : Bool) (ln : Nat → Option Lane) (logs : List LogSum) :
    (frameBytes r more ln logs).length = 0x1200 := by
  have sums : ((logs.take 8).flatMap fun e => toBytes 8 e.addr.toNat ++ toBytes 8 e.word.toNat).length ≤ 128 := by
    rw [length_flatMap_const (n := 16) fun _ => by simp only [List.length_append, length_toBytes], List.length_take]
    omega
  unfold frameBytes
  simp only [List.length_append, List.length_replicate, length_toBytes,
    length_flatMap_const fun _ => length_toBytes .., length_flatMap_const fun _ => length_flatMap_const fun _ => length_regBytes ..,
    List.length_range]
  omega

/-! ## The handler's lanes (R348) -/

theorem Lane.get_setReg {ln : Lane} (w : Sparse.wf Reg.zero ln.regs = true) (c q : Nat) (r : Reg) :
    Sparse.get Reg.zero (ln.setReg c r).regs q = if q = c then r else Sparse.get Reg.zero ln.regs q :=
  Sparse.get_set _ _ _ _ _ w

theorem Lane.setReg_wf {ln : Lane} (w : Sparse.wf Reg.zero ln.regs = true) (c : Nat) (r : Reg) :
    Sparse.wf Reg.zero (ln.setReg c r).regs = true :=
  Sparse.set_wf _ _ _ _ w

/-- A lane as its handler begins: the frame pointer in V0:V1, CODE in V2, PC in V3, Q and Y void, a run begun at the entry. -/
def Lane.startHandler (ln : Lane) (fp : BitVec 128) (code pc : Word) (entry id : Nat) : Lane :=
  { ((((ln.setReg 0 ⟨fp.setWidth 64, .ptrLo⟩).setReg 1 ⟨(fp >>> 64).setWidth 64, .ptrHi⟩).setReg 2 ⟨code, .n64⟩).setReg 3 ⟨pc, .n64⟩) with
    pc := entry, void := 0x3FF, run := ⟨entry, 0, 0, []⟩, st := .running id }

theorem Lane.startHandler_regs {ln : Lane} (w : Sparse.wf Reg.zero ln.regs = true) (fp : BitVec 128) (code pc : Word) (entry id : Nat) :
    let regs := (ln.startHandler fp code pc entry id).regs
    Sparse.get Reg.zero regs 0 = ⟨fp.setWidth 64, .ptrLo⟩ ∧ Sparse.get Reg.zero regs 1 = ⟨fp.extractLsb' 64 64, .ptrHi⟩ ∧
      Sparse.get Reg.zero regs 2 = ⟨code, .n64⟩ ∧ Sparse.get Reg.zero regs 3 = ⟨pc, .n64⟩ := by
  have high : (fp >>> 64).setWidth 64 = fp.extractLsb' 64 64 := rfl
  have w0 := Lane.setReg_wf w 0 ⟨fp.setWidth 64, .ptrLo⟩
  have w1 := Lane.setReg_wf w0 1 ⟨fp.extractLsb' 64 64, .ptrHi⟩
  have w2 := Lane.setReg_wf w1 2 ⟨code, .n64⟩
  simp [Lane.startHandler, high, Lane.get_setReg, w, w0, w1, w2]

/-- A block in which a group's handler begins (R348). -/
def Block.startHandler (b : Block) (g : Nat) (r : Raised) (fp : BitVec 128) (code : Word) (base entry id now : Nat)
    (deferred : List Nat) : Block :=
  let b1 := b.modLanes (fun l => r.lanes.contains l) fun _ ln => ln.startHandler fp code (BitVec.ofNat 64 r.pc) entry id
  let k : Cohort := { id := id, grp := g, lanes := r.lanes, pc := entry, start := entry, stage := .resume, wait := now,
                      nextIssue := now + 1, promoted := false, fetched := none }
  ({ b1 with cohorts := b1.cohorts.filter (·.id != r.coh) ++ [k] } : Block).modGroup g fun gr =>
    { gr with sysMode := true, raised := none,
              frame := some { raised := r, base := base, runs := r.lanes.map fun l => (l, (b.lane l).run), written := [],
                              deferred := deferred, coh := id } }

theorem Block.lane_startHandler {b : Block} {r : Raised} {l : Nat} (hl : l ∈ r.lanes) (there : l < b.lanes.length) (g : Nat)
    (fp : BitVec 128) (code : Word) (base entry id now : Nat) (deferred : List Nat) :
    (b.startHandler g r fp code base entry id now deferred).lane l = (b.lane l).startHandler fp code (BitVec.ofNat 64 r.pc) entry id :=
  (b.lane_modLanes_in _ _ l there).trans (if_pos (List.contains_iff_mem.2 hl))

/-- A register of a lane as it is read. -/
theorem Block.readCode_of_get {b : Block} {l c : Nat} {v : Word} {t : Tag} (hc : c < 202)
    (h : Sparse.get Reg.zero (b.lane l).regs c = ⟨v, t⟩) : b.readCode l c = ⟨v, some t⟩ := by
  rw [Block.readCode, if_pos hc, h]

/-- A lane of the trap, in the block in which its handler begins. -/
theorem Block.startHandler_begins {b : Block} {r : Raised} {l : Nat} (hl : l ∈ r.lanes) (there : l < b.lanes.length)
    (w : Sparse.wf Reg.zero (b.lane l).regs = true) (g : Nat) (fp : BitVec 128) (code : Word) (base entry id now : Nat)
    (deferred : List Nat) :
    let b' := b.startHandler g r fp code base entry id now deferred
    (b'.lane l).pc = entry ∧ (b'.lane l).void = 0x3FF ∧ (b'.lane l).run = ⟨entry, 0, 0, []⟩ ∧
      b'.readCode l 0 = ⟨fp.setWidth 64, some .ptrLo⟩ ∧ b'.readCode l 1 = ⟨fp.extractLsb' 64 64, some .ptrHi⟩ ∧
      b'.readCode l 2 = ⟨code, some .n64⟩ ∧ b'.readCode l 3 = ⟨BitVec.ofNat 64 r.pc, some .n64⟩ := by
  intro b'
  have begun : b'.lane l = (b.lane l).startHandler fp code (BitVec.ofNat 64 r.pc) entry id := Block.lane_startHandler hl there ..
  obtain ⟨v0, v1, v2, v3⟩ := Lane.startHandler_regs w fp code (BitVec.ofNat 64 r.pc) entry id
  rw [← begun] at v0 v1 v2 v3
  refine ⟨?_, ?_, ?_, Block.readCode_of_get (by decide) v0, Block.readCode_of_get (by decide) v1,
    Block.readCode_of_get (by decide) v2, Block.readCode_of_get (by decide) v3⟩ <;> rw [begun] <;> rfl

/-- The group is in system mode, and its trap has become an open frame. -/
theorem Block.group_startHandler {b : Block} {g : Nat} (hg : g < b.groups.length) (r : Raised) (fp : BitVec 128) (code : Word)
    (base entry id now : Nat) (deferred : List Nat) :
    let gr := (b.startHandler g r fp code base entry id now deferred).group g
    gr.sysMode = true ∧ gr.raised = none ∧ gr.frame.map (·.raised) = some r := by
  simp [Block.startHandler, Block.group, Block.modGroup, Block.modLanes, hg]

/-- The entry of a handler (R346). -/
theorem bits_entry (x : Word) : bits x.toNat 63 2 * 4 = x.toNat / 4 * 4 := by
  have := x.isLt
  simp only [bits]
  omega

/-! ## The frame is written (R348, R349) -/

/-- What the trapped lanes of a group await replay of, by number. -/
def State.awaited (s : State) (b : Block) (r : Raised) : List Nat := (s.waitingOf b r.lanes).map (·.id)

/-- The state in which a group's frame has been written to its places. -/
def State.writeFrame (s : State) (b : Block) (g : Nat) (r : Raised) (ps : List Place) : State :=
  (s.showPoison b (s.awaited b r) r.lanes).1.storeBytes (ps.zip (s.frameImage b g r))

theorem State.block?_writeFrame {s : State} {k : Nat} {b' : Block} (h : s.block? k = some b') (b : Block) (g : Nat) (r : Raised)
    (ps : List Place) : ∃ b', (s.writeFrame b g r ps).block? k = some b' :=
  State.block?_storeBytes (s := (s.showPoison b (s.awaited b r) r.lanes).1) h _

theorem State.Sound.writeFrame {s : State} {q : Place} (hq : q.inMemory = true) (hs : s.Sound q) (b : Block) (g : Nat) (r : Raised)
    (ps : List Place) : (s.writeFrame b g r ps).Sound q :=
  ((State.NoWorse.of_marks (s.showPoison_marks b (s.awaited b r) r.lanes)).sound hq hs).storeBytes hq _

/-- Where nothing of the trapped lanes awaits replay, the frame's bytes are the trap's image of the lanes as they are. -/
theorem State.frameImage_eq {s : State} {b : Block} {r : Raised} (idle : s.waitingOf b r.lanes = []) (g : Nat) :
    s.frameImage b g r = frameBytes r (b.morePending g r.lanes) (fun m => (r.lanes.find? (· % 32 == m)).map b.lane) [] := by
  simp only [State.frameImage, idle, List.map_nil, State.showPoison_nil]

theorem State.readPlaces_writeFrame {s : State} (hs : s.Inv) (b : Block) (g : Nat) (r : Raised) {ps : List Place} (hlen : 0x1200 ≤ ps.length)
    (nodup : ps.Nodup) (sound : ∀ p ∈ ps, p.inMemory = true ∧ s.Sound p) :
    (s.writeFrame b g r ps).readPlaces (ps.take 0x1200) = s.frameImage b g r := by
  have length : (s.frameImage b g r).length = 0x1200 := length_frameBytes ..
  have stored := State.readPlaces_storeBytes (s := (s.showPoison b (s.awaited b r) r.lanes).1) hs (length.trans_le hlen) nodup fun p hp =>
    ⟨(sound p hp).1, (State.NoWorse.of_marks (s.showPoison_marks b (s.awaited b r) r.lanes)).sound (sound p hp).1 (sound p hp).2⟩
  rwa [length] at stored

/-! ## Taking a trap (R347 to R349) -/

section
variable {s s1 : State} {blk g : Nat} {b : Block} {r : Raised} (hb : s.block? blk = some b) (hr : (b.group g).raised = some r)
include hb hr

/-- Without a handler, or where the frame cannot be written, the trap halts the logical device: in the state that it found, or in the one
that the walk to its frame left (R347). -/
theorem State.enterTrap_halts (fails : bit (s.die b.die).tvec.toNat 0 = false ∨ bit (s.die b.die).tframe.toNat 0 = false ∨
      ∃ s1 va k, s.spots b.die (s.frameBase b g) 8192 .write .either = (s1, .fault va k)) :
    ∃ s1, s.Walked s1 ∧ s.enterTrap blk g = s1.trapHalt b.die (BitVec.ofNat 64 r.pc) (BitVec.ofNat 64 (trapCode r.trap)) := by
  by_cases off : (!bit (s.die b.die).tvec.toNat 0 || !bit (s.die b.die).tframe.toNat 0) = true
  · refine ⟨s, .rfl' s, ?_⟩
    simp only [State.enterTrap, hb, hr, off, if_true]
    rfl
  · have unwritable := fails
    simp only [Bool.or_eq_true, Bool.not_eq_true', not_or, Bool.not_eq_false] at off
    simp only [off, Bool.true_eq_false, false_or] at unwritable
    obtain ⟨s1, va, k, hsp⟩ := unwritable
    refine ⟨s1, .of_spots hsp, ?_⟩
    simp only [State.enterTrap, hb, hr, off, hsp]
    rfl

section
variable (hv : bit (s.die b.die).tvec.toNat 0 = true) (hf : bit (s.die b.die).tframe.toNat 0 = true)
include hv hf

/-- Otherwise the frame is written, and the handler begins in the trapped lanes. -/
theorem State.enterTrap_starts {ps : List Place} (hsp : s.spots b.die (s.frameBase b g) 8192 .write .either = (s1, .ok ps)) :
    let u := (s1.writeFrame b g r ps).fresh
    s.enterTrap blk g = u.2.setBlock ((s1.showPoison b (s1.awaited b r) r.lanes).2.startHandler g r (framePtr b.die (s.frameBase b g))
      (r.codeWord (b.morePending g r.lanes)) (s.frameBase b g) (bits (s.die b.die).tvec.toNat 63 2 * 4) u.1 u.2.cycle
      (s1.awaited b r)) := by
  simp only [State.enterTrap, hb, hr, hv, hf, hsp]
  rfl

/-- The block in which the handler begins, of the shape it had. -/
theorem State.block?_enterTrap {ps : List Place} (hsp : s.spots b.die (s.frameBase b g) 8192 .write .either = (s1, .ok ps)) :
    ∃ b1 id now ids, b.SameShape b1 ∧ (s.enterTrap blk g).block? blk = some (b1.startHandler g r (framePtr b.die (s.frameBase b g))
      (r.codeWord (b.morePending g r.lanes)) (s.frameBase b g) ((s.die b.die).tvec.toNat / 4 * 4) id now ids) := by
  obtain ⟨b2, written⟩ := State.block?_writeFrame (((State.Walked.of_spots hsp).block? blk).trans hb) b g r ps
  have shape := s1.showPoison_sameShape b (s1.awaited b r) r.lanes
  rw [State.enterTrap_starts hb hr hv hf hsp, bits_entry]
  exact ⟨_, _, _, _, shape, State.block?_setBlock written _ (shape.id.trans (State.block?_id hb))⟩

/-- The frame reads as it was written. -/
theorem State.readPlaces_enterTrap {ps : List Place} (hsp : s.spots b.die (s.frameBase b g) 8192 .write .either = (s1, .ok ps))
    (sound : ∀ p ∈ ps, p.inMemory = true ∧ s1.Sound p) :
    (s.enterTrap blk g).readPlaces (ps.take 0x1200) = (s1.writeFrame b g r ps).readPlaces (ps.take 0x1200) := by
  rw [State.enterTrap_starts hb hr hv hf hsp]
  refine State.readPlaces_fresh_setBlock _ fun p hp => ?_
  obtain ⟨memory, clean⟩ := sound p (List.mem_of_mem_take hp)
  exact ⟨memory, clean.writeFrame memory ..⟩

end
end

/-- The entry's code stands in the top byte of its first word (R458). -/
theorem State.logWord_kind (s : State) {d : Nat} (hd : d < 4) : (mkWord [(0x07, 56), (d, 54), (s.pos, 48)]).toNat / 2 ^ 56 = 0x07 := by
  have hp : s.pos < 2 ^ 4 := Nat.mod_lt _ (by decide)
  have word : mkWord [(0x07, 56), (d, 54), (s.pos, 48)] = BitVec.ofNat 64 (0x07 * 2 ^ 56 + d * 2 ^ 54 + s.pos * 2 ^ 48) := by
    rw [mkWord, List.foldl_cons, List.foldl_cons, List.foldl_cons, List.foldl_nil, Nat.zero_add]
  rw [word, BitVec.toNat_ofNat, Nat.mod_eq_of_lt (by omega)]
  omega

/-- The part of TrapEntry that speaks of a halt: the state halted is the one the trap found, or the one that the walk to its frame left. -/
theorem State.trapHalt_entry {s s1 : State} (hs : s.Walked s1) {d : Nat} (h4 : d < 4) (hd : d < s.dies.length) (addr detail : Word) :
    let t := s1.trapHalt d addr detail
    (t.die d).halted = true ∧ t.dmem = s.dmem ∧ t.hmem = s.hmem ∧ (t.die d).logNext = (s.die d).logNext + 1 ∧
      ∃ e, Sparse.find? (t.die d).log ((s.die d).logNext % 256) = some e ∧ e.w0.toNat / 2 ^ 56 = 0x07 ∧ e.w1 = addr ∧ e.w3 = detail := by
  obtain ⟨copies, lines, rfl⟩ := hs
  obtain ⟨halted, next, entry⟩ := State.die_trapHalt (s := { s with tlb := copies, wanted := lines }) hd addr detail
  exact ⟨halted, rfl, rfl, next, _, entry, State.logWord_kind _ h4, rfl, rfl⟩

/-- Settles O59: a handler begins in the block that `State.block?_enterTrap` gives, and its frame reads back by
`State.readPlaces_enterTrap`; otherwise the device halts, by `State.enterTrap_halts`. -/
theorem trapEntry : Obligations.TrapEntry := by
  intro s blk g b r hb hr di t
  refine ⟨fun s1 ps hv hf hg hsp => ⟨?_, fun hs1 nodup idle memory hlen => ?_⟩, fun fails h4 hd => ?_⟩
  · obtain ⟨b1, id, now, ids, shape, found⟩ := State.block?_enterTrap hb hr hv hf hsp
    obtain ⟨system, taken, frame⟩ := b1.group_startHandler (shape.groups ▸ hg) r _ _ _ _ id now ids
    exact ⟨_, found, system, taken, frame, fun l hl there w =>
      Block.startHandler_begins hl (shape.lanes ▸ there) (shape.regs l w) ..⟩
  · have sound (p : Place) (hp : p ∈ ps) : p.inMemory = true ∧ s1.Sound p := by
      obtain ⟨clean, ⟨a, rfl⟩ | ⟨a, rfl, -⟩⟩ := memory p hp <;> exact ⟨rfl, clean⟩
    rw [State.readPlaces_enterTrap hb hr hv hf hsp sound, State.readPlaces_writeFrame hs1 b g r (by omega) nodup sound,
      State.frameImage_eq idle]
  · obtain ⟨s1, walked, halts⟩ := State.enterTrap_halts hb hr fails
    rw [show t = _ from halts]
    exact State.trapHalt_entry walked h4 hd _ _

end Sys2Proof.Machine
end

section
/-! PROOFS. The front end: queues put in service and taken out, a header read, a unit placed, a launch aged and ended (R370, R373, R375,
R385 to R387). -/

namespace Sys2Proof.Machine

/-! ## A die that wakes (R453) -/

theorem State.inService_wake (s : State) (d k : Nat) : (s.wake d).inService k = s.inService k :=
  congrArg (fun g => g.2.2.1.getLsbD k) (s.wake_ground d)

/-- Waking leaves the queues of every die as they were. -/
theorem State.queues_wake (s : State) (d k : Nat) : ((s.wake d).die k).queues = (s.die k).queues := by
  have awake : ((s.modDie d fun di => { di with pwrState := 0 }).die k).queues = (s.die k).queues := by
    rw [State.die_modDie]
    split <;> rfl
  have quiet (s : State) (r : RemoteLine) : (s.giveUp r).dies = s.dies := (s.giveUp_sameSetup r).dies
  unfold State.wake
  dsimp only
  split
  · rfl
  split
  · rw [State.die, foldl_unchanged (g := State.dies) quiet]
    exact awake
  · exact awake

/-! ## Queues put in service and taken out (R370, R375) -/

/-- A queue that has been removed is not found. -/
theorem Sparse.find?_erase {α : Type} (m : Map α) (k : Nat) : Sparse.find? (Sparse.erase m k) k = none := by
  simp [Sparse.find?, Sparse.erase]

/-- EN of a word that is stored in QCTL is the one written: the reserved bits lie above it. -/
theorem qctl_en (v : Word) : bit (v &&& ~~~ 0x7C#64).toNat 0 = v.getLsbD 0 := by
  change (v &&& ~~~ 0x7C#64).getLsbD 0 = _
  simp

/-- A write with EN 1 puts a queue that is not in service in service, with both counts 0. -/
theorem State.writeQctl_enables {s : State} {d n : Nat} {v : Word} (up : s.inService d = true)
    (idle : Sparse.find? (s.die d).queues n = none) (en : v.getLsbD 0 = true) :
    s.writeQctl d n v =
      ((s.modDie d fun di => { di with qctl := Sparse.set 0 di.qctl n (v &&& ~~~ 0x7C#64) }).modDie d fun di =>
        { di with queues := Sparse.put di.queues n ⟨qBase (v &&& ~~~ 0x7C#64), 0, 0, none, 0, []⟩ }).putCounts d
          (qBase (v &&& ~~~ 0x7C#64)) 0 0 := by
  unfold State.writeQctl
  dsimp only
  rw [idle, qctl_en, en, up]
  rfl

/-- A queue torn down is no longer in service. -/
theorem State.find?_teardown (s : State) (d n : Nat) : Sparse.find? ((s.teardown d n).die d).queues n = none := by
  change Sparse.find? ((s.modDie d fun di => { di with queues := Sparse.erase di.queues n }).die d).queues n = none
  rw [State.die_modDie]
  split
  · exact Sparse.find?_erase ..
  · next absent =>
    rw [State.die_of_length_le (by simpa using absent)]
    rfl

/-! ## The cycle in which a launch becomes ready -/

/-- A launch noted ready is a launch there was, but for that cycle. -/
theorem State.of_mem_noteReady {s : State} {l : Launch} (h : l ∈ s.noteReady.launches) :
    ∃ o ∈ s.launches, ∃ t, l = { o with readyAt := t } := by
  obtain ⟨o, ho, rfl⟩ := List.mem_map.1 h
  refine ⟨o, ho, if o.readyAt.isNone && s.launchReady o then some s.cycle else o.readyAt, ?_⟩
  split <;> rfl

theorem State.mem_noteReady {s : State} {l : Launch} (h : l ∈ s.launches) :
    ∃ t, { l with readyAt := t } ∈ s.noteReady.launches := by
  refine ⟨if l.readyAt.isNone && s.launchReady l then some s.cycle else l.readyAt, List.mem_map.2 ⟨l, h, ?_⟩⟩
  split <;> rfl

/-- A launch of a queue torn down that is still there was not held. -/
theorem State.teardown_released {s : State} {d n : Nat} {l : Launch} (h : l ∈ (s.teardown d n).launches) (hd : l.die = d)
    (hn : l.queue = n) : l.held = false := by
  obtain ⟨o, ho, t, rfl⟩ := State.of_mem_noteReady h
  subst hd hn
  simpa using (List.mem_filter.1 ho).2

/-- A write with EN 0 takes a queue in service out of service, and its held launches are gone. -/
theorem State.writeQctl_tearsDown {s : State} {d n : Nat} {v : Word} {q : Queue} (busy : Sparse.find? (s.die d).queues n = some q)
    (en : v.getLsbD 0 = false) :
    (∀ l ∈ (s.writeQctl d n v).launches, l.die = d → l.queue = n → l.held = false) ∧
      Sparse.find? ((s.writeQctl d n v).die d).queues n = none := by
  have run : s.writeQctl d n v =
      (s.teardown d n).modDie d fun di => { di with qctl := Sparse.set 0 di.qctl n (v &&& ~~~ 0x7C#64) } := by
    unfold State.writeQctl
    dsimp only
    rw [busy, qctl_en, en]
    rfl
  rw [run]
  refine ⟨fun l hl => State.teardown_released hl, ?_⟩
  rw [State.die_modDie]
  split <;> exact s.find?_teardown d n

theorem execQueueEnable_eq {s : State} {die : Fin 4} {queue : Fin 32} (v : Word) (up : s.inService die.val = true)
    (idle : Sparse.find? (s.die die.val).queues queue.val = none) :
    let w := (v ||| 1#64) &&& ~~~ 0x7C#64
    execQueueEnable die queue v s = .next
      ((((s.wake die.val).modDie die.val fun d => { d with qctl := Sparse.set 0 d.qctl queue.val w }).modDie die.val fun d =>
        { d with queues := Sparse.put d.queues queue.val ⟨qBase w, 0, 0, none, 0, []⟩ }).putCounts die.val (qBase w) 0 0) := by
  rw [execQueueEnable, if_pos up]
  refine congrArg Host.Outcome.next (State.writeQctl_enables ?_ ?_ ?_)
  · rw [State.inService_wake, up]
  · rw [State.queues_wake, idle]
  · simp

theorem execQueueTeardown_released {s : State} {die : Fin 4} {queue : Fin 32} {q : Queue} (up : s.inService die.val = true)
    (busy : Sparse.find? (s.die die.val).queues queue.val = some q) :
    ∃ t, execQueueTeardown die queue s = .next t ∧
      (∀ l ∈ t.launches, l.die = die.val → l.queue = queue.val → l.held = false) ∧
      Sparse.find? (t.die die.val).queues queue.val = none := by
  refine ⟨_, congrArg Host.Outcome.next (if_pos up), State.writeQctl_tearsDown (q := q) ?_ ?_⟩
  · rw [State.queues_wake, busy]
  · simp

/-! ## A header read (R373, R382) -/

/-- The launch that a header enters, its readiness not yet noted. -/
def Header.launch (h : Header) (s : State) (d n hdr : Nat) (rd wr rg : List (Nat × Nat)) : Launch :=
  { id := s.nextId, die := d, queue := n, hdr := hdr, code := h.code, args := h.args, shape := h.shape, lres := h.lres,
    extents := h.extents, cword := h.cword, cseq := h.cseq, cscope := h.cctl, pctl := h.pctl, pval := h.pval,
    reads := rd, writes := wr, regions := rg.filterMap fun (a, b) => regionOf a b, stamp := 0,
    after := (s.launches.filter fun o => o.die == d && ordered o rd wr).map (·.id), held := resHold h.lres,
    suspended := false, placed := 0, live := [], readyAt := none, aged := false, waits := none, refused := [] }

/-- The queue moves on to a header that has been read: it is counted in the queue's block, and the next turn starts behind it. -/
def State.takeHeader (s : State) (d n : Nat) (q : Queue) (qv : Word) (hdr : Nat) : State :=
  { (s.modDie d fun di => { di with queues := Sparse.put di.queues n { q with link := hdr, nread := q.nread + 1 } }).putCounts d
      (qBase qv) (q.nread + 1) q.nref with qturn := setAt s.qturn d (n + 1) }

/-- A launch enters behind those there are. -/
def State.enter (s : State) (l : Launch) : State :=
  ({ s with nextId := s.nextId + 1, launches := s.launches ++ [l] } : State).noteReady

theorem State.mem_enter (s : State) (l : Launch) : ∃ t, { l with readyAt := t } ∈ (s.enter l).launches :=
  State.mem_noteReady (List.mem_append_right _ List.mem_cons_self)

/-- A header that is read whole and that the checks accept enters its launch. -/
theorem execHeaderRead_enters {s s1 : State} {die : Fin 4} {queue : Fin 32} {q : Queue} {hdr : Nat} {h : Header}
    {rd wr rg : List (Nat × Nat)} (up : s.frontUp die.val = true) (turn : s.queueTurn die.val = some queue.val)
    (hq : Sparse.find? ((s.wake die.val).die die.val).queues queue.val = some q)
    (up0 : (s.wake die.val).frontUp die.val = true) (turn0 : (s.wake die.val).queueTurn die.val = some queue.val)
    (room : ((s.wake die.val).launches.filter (·.die == die.val)).length < 1024)
    (read : (s.wake die.val).readHeader die.val queue.val q = .ok s1 (.got hdr h (some (rd, wr, rg))))
    (fields : headerOk h (bit (Sparse.get 0 ((s.wake die.val).die die.val).qctl queue.val).toNat 1) = true)
    (reads : rangesOk rd = true) (writes : rangesOk wr = true) (regions : s1.regionsOk die.val (resScr h.lres) rg = true) :
    let s2 := s1.takeHeader die.val queue.val q (Sparse.get 0 ((s.wake die.val).die die.val).qctl queue.val) hdr
    execHeaderRead die queue s = .next (s2.enter (h.launch s2 die.val queue.val hdr rd wr rg)) := by
  rw [execHeaderRead]
  simp only [up, turn, hq, up0, turn0, read, fields, reads, writes, regions, Nat.not_le.2 room, beq_self_eq_true, bne_self_eq_false,
    Bool.and_self, Bool.not_true, Bool.or_self, Option.getD_some, Option.isSome_some, decide_false, if_true, if_false,
    Bool.false_eq_true]
  rfl

/-! ## Units placed, launches aged and ended (R385 to R387) -/

/-- The front end places the unit whose turn it is, and its launch waits anew from here (log 44). -/
theorem execBlockPlace_places {s s1 : State} {die : Fin 4} {l : Launch} (acts : s.frontNext die.val = some (.place s1 l)) :
    let more (l : Launch) : Launch := { l with placed := l.placed + 1, readyAt := some s.cycle, aged := false }
    execBlockPlace die s = .next { s1 with launches := updWhere (·.id == l.id) more s1.launches } := by
  rw [execBlockPlace, acts]

/-- A launch whose next unit has waited 65,536 cycles is aged. -/
theorem execLaunchAged_ages {s : State} {id t : Nat} {l : Launch} (found : s.launches.find? (·.id == id) = some l)
    (since : l.readyAt = some t) (ready : s.launchReady l = true) (more : l.placed < l.total) (late : t + 65536 ≤ s.cycle) :
    execLaunchAged id s = .next { s with launches := updWhere (·.id == id) (fun l => { l with aged := true }) s.launches } := by
  rw [execLaunchAged, found]
  dsimp only
  rw [since]
  simp [ready, more, late]

/-- Every block has gone and the completion word can be reached: every store is published, `CSEQ` is written and the launch is gone. -/
theorem execLaunchEnd_ends {s s1 s2 : State} {id : Nat} {l : Launch} {ps : List Place}
    (found : s.launches.find? (·.id == id) = some l) (ready : s.launchReady l = true) (placed : l.total ≤ l.placed)
    (gone : l.live = []) (idle : l.waits = none) (spots : s.engSpots l.die l.refused l.cword 8 .write .either = .ok s1 (some ps))
    (linked : ∀ a, Place.host a ∈ ps → s1.hostLinks.getLsbD (bits a 12 12) = true)
    (owned : ∀ h ∈ s1.holders, h.excl = true → (s1.peer h.pos).lost = true → (false, h.line) ∉ placeLines ps)
    (prepared : s1.engPrepare id l.die ps (toBytes 8 l.cseq.toNat) false = .ok s2 ()) :
    let s3 := (s2.publish fun _ => true).engCommit ps (toBytes 8 l.cseq.toNat) false
    execLaunchEnd id s = .next ({ s3 with launches := s3.launches.filter (·.id != id) } : State).noteReady := by
  have goes : (!s.launchReady l || decide (l.placed < l.total) || !l.live.isEmpty || l.waits.isSome) = false := by
    simp [ready, placed, gone, idle]
  rw [execLaunchEnd, found]
  dsimp only
  rw [goes, spots]
  dsimp only
  rw [Option.getD_some, prepared]
  refine (if_neg Bool.false_ne_true).trans ((if_neg fun lost => ?_).trans rfl)
  rcases (Bool.or_eq_true ..).mp lost with unlinked | kept
  · obtain ⟨p, hp, down⟩ := List.any_eq_true.1 unlinked
    cases p with
    | host a => simp [linked a hp] at down
    | _ => cases down
  · obtain ⟨h, hh, line⟩ := List.any_eq_true.1 kept
    obtain ⟨⟨excl, away⟩, here⟩ : (h.excl = true ∧ (s1.peer h.pos).lost = true) ∧ (false, h.line) ∈ placeLines ps := by
      simpa using line
    exact owned h hh excl away here

/-- Settles O28: each event by the lemma above about it. -/
theorem frontEndEventsComplete : Obligations.FrontEndEventsComplete := by
  intro s die
  refine ⟨fun _ v => execQueueEnable_eq v, fun _ _ => execQueueTeardown_released, ?_, fun _ _ => execBlockPlace_places,
    fun _ _ _ => execLaunchAged_ages, fun _ _ _ _ _ => execLaunchEnd_ends⟩
  intro queue q s1 hdr h rd wr rg up turn s0 hq up0 turn0 room read fields reads writes regions
  obtain ⟨ready, there⟩ := State.mem_enter ..
  exact ⟨_, _, execHeaderRead_enters up turn hq up0 turn0 room read fields reads writes regions, there, rfl, rfl, rfl, rfl, rfl, rfl, rfl,
    rfl, rfl, rfl, rfl, rfl⟩

end Sys2Proof.Machine
end

section
/-! PROOFS. The rights of a leaf, and the memory it names (R392). -/

namespace Sys2Proof.Machine

/-- No leaf: the translation faults as absent. -/
theorem State.translate_absent {s : State} {v va : Nat} (leaf : (s.leafOf v va).2 = .absent) (need : Need) (side : Side) :
    (s.translate v va need side).2 = .fault kAbsent := by
  rw [State.translate, ← Prod.eta (s.leafOf v va), leaf]

/-- A table that must come home first: the translation waits. -/
theorem State.translate_wait {s : State} {v va line : Nat} (leaf : (s.leafOf v va).2 = .wait line) (need : Need) (side : Side) :
    (s.translate v va need side).2 = .wait := by
  rw [State.translate, ← Prod.eta (s.leafOf v va), leaf]

/-- The permission bits of a leaf grant a need. -/
def Need.granted (e : Nat) : Need → Bool
  | .read => bit e 1
  | .write => bit e 2
  | .both => bit e 1 && bit e 2
  | .fetch => bit e 3

/-- The HOST bit of a leaf is the one that a space claims. -/
def Side.matches (e : Nat) : Side → Bool
  | .device => !bit e 7
  | .host => bit e 7
  | .either => true

/-- The byte of memory that a leaf of a page of z bytes gives for a virtual address. -/
def leafPlace (e z va : Nat) : Place :=
  let a := bits e 55 15 * 2 ^ 15 / z * z + va % z
  if bit e 7 then .host a else .dev a

/-- A leaf found: the translation goes through exactly where the leaf grants the need and is in the memory claimed. -/
theorem State.translate_leaf {s : State} {v va e z : Nat} (leaf : (s.leafOf v va).2 = .ok e z) (need : Need) (side : Side) :
    (s.translate v va need side).2 =
      if need.granted e && side.matches e then .ok (leafPlace e z va)
      else .fault ((if need.granted e then 0 else kPerm) + (if side.matches e then 0 else kSpace)) := by
  have refused : (!need.granted e || !side.matches e) = !(need.granted e && side.matches e) := (Bool.not_and ..).symm
  rw [State.translate, ← Prod.eta (s.leafOf v va), leaf]
  change (if (!need.granted e || !side.matches e) = true then _ else _ : State × Trans).2 = _
  rw [refused]
  cases need.granted e && side.matches e <;> rfl

theorem State.translate_refused {s : State} {v va e z : Nat} {need : Need} {side : Side} (leaf : (s.leafOf v va).2 = .ok e z)
    (lacks : need.granted e = false ∨ side.matches e = false) :
    (s.translate v va need side).2 =
      .fault ((if need.granted e then 0 else kPerm) + (if side.matches e then 0 else kSpace)) := by
  refine (State.translate_leaf leaf need side).trans (if_neg ?_)
  rcases lacks with perm | here
  · simp [perm]
  · simp [here]

theorem State.translate_granted {s : State} {v va e z : Nat} {need : Need} {side : Side} (leaf : (s.leafOf v va).2 = .ok e z)
    (perm : need.granted e = true) (here : side.matches e = true) :
    (s.translate v va need side).2 = .ok (leafPlace e z va) :=
  (State.translate_leaf leaf need side).trans (if_pos (by rw [perm, here]; rfl))

/-- Settles O48: by what the walk found. -/
theorem translationPermissions : Obligations.TranslationPermissions := by
  intro s d va need side
  exact ⟨fun absent => State.translate_absent absent need side, fun _ wait => State.translate_wait wait need side,
    fun e z leaf => ⟨State.translate_refused leaf, State.translate_granted leaf⟩⟩

end Sys2Proof.Machine
end

section
/-! PROOFS. Pre-emption: requests and their end, the window, a block's save and its restore (R402 to R406, R409). -/

namespace Sys2Proof.Machine

/-! ## What a request reads, and waking leaves (R402, R453) -/

/-- The launches and blocks there are, the cycle, and of a die its save aperture, its window and its halt. -/
def State.requestView (s : State) (k : Nat) : List Launch × List Block × Nat × Option (Nat × Nat) × Word × Bool :=
  (s.launches, s.blocks, s.cycle, (s.die k).saveRange, (s.die k).prewin, (s.die k).halted)

theorem State.requestView_wake (s : State) (d k : Nat) : (s.wake d).requestView k = s.requestView k := by
  have awake : (s.modDie d fun di => { di with pwrState := 0 }).requestView k = s.requestView k := by
    rw [State.requestView, State.die_modDie]
    split <;> rfl
  have quiet (s : State) (r : RemoteLine) : (s.giveUp r).requestView k = s.requestView k := by
    obtain ⟨o, p, q, m, f, e⟩ := s.giveUp_eq r
    rw [e]
    rfl
  unfold State.wake
  dsimp only
  split
  · rfl
  split
  · exact (foldl_unchanged (g := (State.requestView · k)) quiet _ _).trans awake
  · exact awake

@[simp] theorem State.launches_wake (s : State) (d : Nat) : (s.wake d).launches = s.launches :=
  congrArg (·.1) (s.requestView_wake d d)

@[simp] theorem State.blocks_wake (s : State) (d : Nat) : (s.wake d).blocks = s.blocks :=
  congrArg (·.2.1) (s.requestView_wake d d)

@[simp] theorem State.cycle_wake (s : State) (d : Nat) : (s.wake d).cycle = s.cycle :=
  congrArg (·.2.2.1) (s.requestView_wake d d)

@[simp] theorem State.saveRange_wake (s : State) (d k : Nat) : ((s.wake d).die k).saveRange = (s.die k).saveRange :=
  congrArg (·.2.2.2.1) (s.requestView_wake d k)

@[simp] theorem State.prewin_wake (s : State) (d k : Nat) : ((s.wake d).die k).prewin = (s.die k).prewin :=
  congrArg (·.2.2.2.2.1) (s.requestView_wake d k)

@[simp] theorem State.halted_wake (s : State) (d k : Nat) : ((s.wake d).die k).halted = (s.die k).halted :=
  congrArg (·.2.2.2.2.2) (s.requestView_wake d k)

@[simp] theorem State.clusterSaved_wake (s : State) (d : Nat) (b : Block) : (s.wake d).clusterSaved b = s.clusterSaved b := by
  simp [State.clusterSaved, State.clusterOf]

/-! ## Requests (R402, R403, R406) -/

theorem mem_updWhere {α : Type} {p : α → Bool} {l : List α} {a : α} (f : α → α) (ha : a ∈ l) (hp : p a = true) :
    f a ∈ updWhere p f l :=
  List.mem_map.2 ⟨a, ha, if_pos hp⟩

/-- A launch asked for is among the numbers of those asked for. -/
theorem Launch.id_asked {ls : List Launch} {l : Launch} {d : Nat} {which : Launch → Bool} (hl : l ∈ ls) (hd : l.die = d)
    (hw : which l = true) : ((ls.filter fun l => l.die == d && which l).map (·.id)).contains l.id = true :=
  List.contains_iff_mem.2 (List.mem_map_of_mem (List.mem_filter.2 ⟨hl, by simp [hd, hw]⟩))

theorem State.requestSave_launches (s : State) (d : Nat) (which : Launch → Bool) (window : Nat) :
    (s.requestSave d which window).launches = s.launches := by
  unfold State.requestSave
  split <;> rfl

/-- Without a save aperture a request reaches no block. -/
theorem State.requestSave_none {s : State} {d : Nat} (aperture : (s.die d).saveRange = none) (which : Launch → Bool) (window : Nat) :
    s.requestSave d which window = s := by
  simp [State.requestSave, aperture]

/-- With one, it opens the window of each running block of a launch asked for. -/
theorem State.mem_requestSave {s : State} {d : Nat} {which : Launch → Bool} {b : Block} {l : Launch}
    (aperture : (s.die d).saveRange.isSome = true) (hb : b ∈ s.blocks) (hl : l ∈ s.launches) (hd : l.die = d)
    (hw : which l = true) (bd : b.die = d) (bl : b.launch = l.id) (running : b.st = .running) (window : Nat) :
    { b with st := .window window } ∈ (s.requestSave d which window).blocks := by
  rw [State.requestSave, if_neg (by simpa [← Option.isSome_iff_ne_none] using aperture)]
  refine mem_updWhere (fun b : Block => { b with st := .window window }) hb ?_
  rw [bl, Launch.id_asked hl hd hw, bd, running]
  simp

/-- The launches named are marked suspended. -/
def State.markSuspended (s : State) (d hdr : Nat) (all : Bool) : State :=
  { s with launches := updWhere (fun l => l.die == d && named hdr all l) (fun l => { l with suspended := true }) s.launches }

/-- A suspension marks launches and then asks for the save of their blocks. -/
theorem State.suspend_eq (s : State) (d hdr : Nat) (all : Bool) :
    s.suspend d hdr all = (s.markSuspended d hdr all).requestSave d (named hdr all)
      (if (s.die d).prewin.toNat % 2 ^ 32 = 0 then 0 else s.cycle + (s.die d).prewin.toNat % 2 ^ 32 * usCycles) := rfl

theorem State.mem_markSuspended {s : State} {d hdr : Nat} {all : Bool} {l : Launch} (hl : l ∈ s.launches) (hd : l.die = d)
    (hn : named hdr all l = true) : { l with suspended := true } ∈ (s.markSuspended d hdr all).launches :=
  mem_updWhere (fun l : Launch => { l with suspended := true }) hl (by simp [hd, hn])

/-- A launch named is suspended. -/
theorem State.mem_suspend_launches {s : State} {d hdr : Nat} {all : Bool} {l : Launch} (hl : l ∈ s.launches) (hd : l.die = d)
    (hn : named hdr all l = true) : { l with suspended := true } ∈ (s.suspend d hdr all).launches := by
  rw [State.suspend_eq, State.requestSave_launches]
  exact State.mem_markSuspended hl hd hn

theorem State.suspend_noAperture {s : State} {d : Nat} (aperture : (s.die d).saveRange = none) (hdr : Nat) (all : Bool) :
    (s.suspend d hdr all).blocks = s.blocks := by
  rw [State.suspend_eq, State.requestSave_none (s := s.markSuspended d hdr all) aperture]
  rfl

/-- A launch marked suspended keeps its number and its header, so the request reaches its blocks. -/
theorem State.mem_suspend_blocks {s : State} {d hdr : Nat} {all : Bool} {b : Block} {l : Launch}
    (aperture : (s.die d).saveRange.isSome = true) (hb : b ∈ s.blocks) (hl : l ∈ s.launches) (hd : l.die = d)
    (hn : named hdr all l = true) (bd : b.die = d) (bl : b.launch = l.id) (running : b.st = .running) :
    let us := (s.die d).prewin.toNat % 2 ^ 32
    { b with st := .window (if us = 0 then 0 else s.cycle + us * usCycles) } ∈ (s.suspend d hdr all).blocks :=
  State.mem_requestSave (s := s.markSuspended d hdr all) aperture hb (State.mem_markSuspended hl hd hn) hd hn bd bl running _

/-- A launch asked for is no longer suspended. -/
theorem State.mem_resume_launches {s : State} {d : Nat} {which : Launch → Bool} {l : Launch} (hl : l ∈ s.launches) (hd : l.die = d)
    (hw : which l = true) : { l with suspended := false } ∈ (s.resume d which).launches :=
  mem_updWhere (fun l : Launch => { l with suspended := false }) hl (Launch.id_asked hl hd hw)

/-- Its blocks that are stopping run on, where their cluster's save has not begun and the device is not halted. -/
theorem State.mem_resume_blocks {s : State} {d : Nat} {which : Launch → Bool} {b : Block} {l : Launch} (hb : b ∈ s.blocks)
    (hl : l ∈ s.launches) (hd : l.die = d) (hw : which l = true) (bd : b.die = d) (bl : b.launch = l.id)
    (stopping : b.preempting = true) (live : (s.die d).halted = false) (unsaved : s.clusterSaved b = false) :
    { b.unpark with st := .running } ∈ (s.resume d which).blocks := by
  refine mem_updWhere (fun b : Block => { b.unpark with st := .running }) hb ?_
  rw [bl, Launch.id_asked hl hd hw, bd, stopping, live, unsaved]
  simp

/-! ## The window (R403) -/

/-- At the end of its window a block not yet parked is to be saved in full. -/
theorem execPreemptWindowEnd_ends {s : State} {blk e : Nat} {b : Block} (found : s.block? blk = some b) (window : b.st = .window e)
    (finite : e ≠ 0) (past : e ≤ s.cycle) (moving : b.allParked = false) :
    execPreemptWindowEnd blk s = .next (s.setBlock { b with st := .window 0 }) := by
  rw [execPreemptWindowEnd, found]
  dsimp only
  rw [window]
  simp [finite, past, moving]

/-! ## A save (R404, R405) -/

/-- A block that is asked to stop is not one retained for its cluster. -/
theorem Block.not_retained {b : Block} (stopping : b.preempting = true) : (b.st == .retained) = false := by
  unfold Block.preempting at stopping
  split at stopping
  · next e => rw [e]; rfl
  · cases stopping

/-- The V registers that a save keeps of a lane: all, or those that its table lists. -/
def Block.keptRegs (b : Block) (full : Bool) (tables : List (Nat × Keep)) (l : Nat) : List Nat :=
  if full then List.range b.vregs
  else match (b.lane l).st with
    | .between _ _ (.parked t) => ((tables.find? (·.1 == t)).map fun e => (List.range b.vregs).filter (inRanges e.2.vs)).getD []
    | _ => []

/-- A block gives up its core for the record q of it, and what its core stored is published. -/
def State.leaveCore (s : State) (blk : Nat) (b q : Block) : State :=
  let s2 := ((s.returnSlots b).setBlock q).publish fun u => u.cores.contains b.coreKey
  { s2 with monitors := s2.monitors.filter (fun m => !(m.blk == blk)), accs := s2.accs.filter (·.blk != blk) }

/-- Tables that were all read: none is broken, and they are what was read. -/
theorem tables_read {α β : Type} {read : List (α × Option β)} {tables : List (α × β)} (h : read = tables.map fun e => (e.1, some e.2)) :
    read.filter (·.2.isNone) = [] ∧ (read.filterMap fun (a, k) => k.map fun k => (a, k)) = tables := by
  subst h
  constructor
  · exact List.filter_eq_nil_iff.2 (List.forall_mem_map.2 fun _ _ => Bool.false_ne_true)
  · simp [List.filterMap_map]

/-- A block that has stopped, whose accesses have drained and whose lines and tables hold nothing back, is saved where its image can be
written. -/
theorem execBlockSave_saves {s s1 : State} {blk ap n slot : Nat} {b0 : Block} {tables : List (Nat × Keep)}
    (found : s.block? blk = some b0) (stopping : b0.unstart.preempting = true) (unsaved : b0.unstart.isSaved = false)
    (idle : b0.unstart.wbWaits = none) (live : b0.unstart.hasExited = false)
    (stopped : ∀ q ∈ s.clusterOf b0.unstart, (q.hasExited = true ∨ s.stopped q = true) ∧ (q.isSaved = true ∨ s.settled q = true))
    (aperture : (s.die b0.unstart.die).saveRange = some (ap, n)) (clean : b0.unstart.dirtyLines = [])
    (free : s.freeSlot b0.unstart.die n = some slot) (home : ∀ a ∈ b0.unstart.tables, s.tableAway b0.unstart a = [])
    (read : (b0.unstart.tables.map fun a => (a, s.readTable b0.unstart a)) = tables.map (fun e => (e.1, some e.2))) :
    let b := b0.unstart
    let full := b.st == .window 0
    let q := s.saveBlock b full tables slot
    s.putImage b.die (ctxBase ap slot) b.wbRefused (s.image b q full (tables.flatMap (·.2.scr)) (b.keptRegs full tables)) = .ok s1 () →
    execBlockSave blk s = .next (s1.leaveCore blk b q) := by
  intro b full q written
  obtain ⟨unbroken, whole⟩ := tables_read read
  have all : (s.clusterOf b).all (fun q => (q.hasExited || s.stopped q) && (q.isSaved || s.settled q)) = true :=
    List.all_eq_true.2 fun q hq => by simpa using stopped q hq
  have go : ((b.preempting || b.st == .retained) && !b.isSaved && b.wbWaits.isNone && (b.st == .retained || !b.hasExited) &&
      (s.clusterOf b).all fun q => (q.hasExited || s.stopped q) && (q.isSaved || s.settled q)) = true := by
    simp [b, all, stopping, unsaved, idle, live]
  have near : b.tables.flatMap (s.tableAway b) = [] := List.flatMap_eq_nil_iff.2 home
  have notRetained : (b.st == .retained) = false := Block.not_retained stopping
  unfold execBlockSave
  rw [found]
  dsimp only [Option.map_some]
  rw [if_pos go, aperture]
  dsimp only
  rw [clean, free]
  dsimp only
  rw [near, unbroken, whole, notRetained]
  simp only [List.isEmpty_nil, Bool.not_true, Bool.or_false, List.foldl_nil, Bool.false_eq_true, if_false]
  split <;> rename_i put <;> cases put.symm.trans written
  rfl

/-! ## A restore (R409) -/

/-- The saved members of a block's cluster are seated again: their context slots are freed, and what reached them meanwhile is applied. -/
def State.comeBack (s : State) (b : Block) (ap : Nat) (all : List Block) : State :=
  all.foldl (fun s q => s.applyReach q.id) (all.foldl (fun s q => match q.st with
    | .saved k _ => s.put b.die (ctxBase ap k) (toBytes 8 0)
    | _ => s) s)

/-- The context slot of a saved block can be read and reads saved. -/
def State.slotSaved (s : State) (d ap : Nat) (q : Block) : Prop :=
  ∀ k f, q.st = .saved k f → s.virtAway d (ctxBase ap k) 8 = [] ∧
    ∃ w, s.readVirtWord d (ctxBase ap k) = some w ∧ Machine.bits w.toNat 1 0 = 2

/-- A saved cluster whose turn it is comes back where it fits. -/
theorem execBlockRestore_restores {s s1 : State} {blk core slot ap n k : Nat} {b : Block} {full : Bool}
    (found : s.block? blk = some b) (saved : b.st = .saved slot full) (aperture : (s.die b.die).saveRange = some (ap, n))
    (turn : s.frontNext b.die = some (.restore k)) (member : ∃ q ∈ s.clusterOf b, q.id = k) (hc : core < 192)
    (whole : ∀ q ∈ s.clusterOf b, q.isSaved = true) (slots : ∀ q ∈ s.clusterOf b, s.slotSaved b.die ap q)
    (seated : s.seatAll ((s.clusterOf b).filter (·.isSaved)) core = some s1) :
    execBlockRestore blk core s = .next (s1.comeBack b ap ((s.clusterOf b).filter (·.isSaved))) := by
  have ours : (s.clusterOf b).any (·.id == k) = true := by simpa using member
  have allSaved : ((s.clusterOf b).all fun q => q.isSaved) = true := List.all_eq_true.2 whole
  have goes : (!(s.clusterOf b).any (·.id == k) || decide (192 ≤ core) || !(s.clusterOf b).all fun q => q.isSaved) = false := by
    simp [ours, allSaved, hc]
  have members {q : Block} (hq : q ∈ (s.clusterOf b).filter (·.isSaved)) : s.slotSaved b.die ap q :=
    slots q (List.mem_filter.1 hq).1
  unfold execBlockRestore
  rw [found]
  dsimp only
  rw [turn, saved, aperture]
  dsimp only
  rw [goes]
  refine (if_neg Bool.false_ne_true).trans ((if_neg ?_).trans ((if_neg ?_).trans ?_))
  · rw [Bool.not_eq_true', Bool.not_eq_false, List.isEmpty_iff, List.flatMap_eq_nil_iff]
    intro q hq
    split
    · next e => exact (members hq _ _ e).1
    · rfl
  · rw [Bool.not_eq_true', Bool.not_eq_false, List.all_eq_true]
    intro q hq
    split
    · next e =>
      obtain ⟨w, hw, reads⟩ := (members hq _ _ e).2
      simp [hw, reads]
    · rfl
  · rw [seated]; rfl

/-- Settles O30: each event by the lemma above about it. -/
theorem preemptionEventsComplete : Obligations.PreemptionEventsComplete := by
  intro s
  refine ⟨fun die hdr all => ⟨_, rfl, ?_, ?_, ?_⟩, fun die hdr all => ⟨_, rfl, ?_, ?_⟩, fun _ _ _ => execPreemptWindowEnd_ends, ?_, ?_⟩
  · exact fun l hl => State.mem_suspend_launches (by rwa [State.launches_wake])
  · exact fun aperture => (State.suspend_noAperture (by rwa [State.saveRange_wake]) _ _).trans (s.blocks_wake _)
  · intro b hb l hl aperture hd hn bd bl running
    have stops := State.mem_suspend_blocks (s := s.wake die.val) (by simpa using aperture) (by simpa using hb) (by simpa using hl)
      hd hn bd bl running
    rwa [State.prewin_wake, State.cycle_wake] at stops
  · exact fun l hl => State.mem_resume_launches (by rwa [State.launches_wake])
  · intro b hb l hl hd hn bd bl stopping live unsaved
    exact State.mem_resume_blocks (by simpa using hb) (by simpa using hl) hd hn bd bl stopping (by simpa using live) (by simpa using unsaved)
  · intro blk b0 ap n slot s1 tables found b stopping unsaved idle live stopped aperture clean free home read full q kept written
    exact execBlockSave_saves found stopping unsaved idle live stopped aperture clean free home read written
  · intro blk core b slot full ap n k s1 found saved aperture turn member hc whole slots seated
    exact ⟨_, execBlockRestore_restores found saved aperture turn member hc whole slots seated, rfl⟩

end Sys2Proof.Machine
end

section
/-! PROOFS. Power states, throttling, telemetry, trips, memory errors and supply resets (R451 to R458). -/

namespace Sys2Proof.Machine

/-! ## What a fold over a list takes away -/

/-- Where no entry brings `q` about and one that meets `c` ends it: if `q` holds at the end, it held at the start and no entry met `c`. -/
theorem foldl_loses {σ α : Type} {f : σ → α → σ} {q : σ → Prop} {c : α → Prop} (h : ∀ s a, q (f s a) → q s ∧ ¬ c a) {l : List α} {s : σ}
    (hq : q (l.foldl f s)) : q s ∧ ∀ a ∈ l, ¬ c a := by
  induction l generalizing s with
  | nil => exact ⟨hq, nofun⟩
  | cons a l ih =>
    obtain ⟨hs, hl⟩ := ih hq
    obtain ⟨hq0, ha⟩ := h s a hs
    exact ⟨hq0, List.forall_mem_cons.2 ⟨ha, hl⟩⟩

/-- Where each entry keeps `p`, and one of them leads from `r` to `p` while the others keep `r` or lead there too, `p` holds at the end. -/
theorem foldl_reaches {σ α : Type} {f : σ → α → σ} {r p : σ → Prop} {a : α} (wait : ∀ s b, r s → r (f s b) ∨ p (f s b))
    (own : ∀ s, r s → p (f s a)) (keep : ∀ s b, p s → p (f s b)) {l : List α} (ha : a ∈ l) {s : σ} (hs : r s) : p (l.foldl f s) := by
  have kept (l : List α) {s : σ} (h : p s) : p (l.foldl f s) := List.foldlRecOn (motive := p) l f h fun s h b _ => keep s b h
  induction l generalizing s with
  | nil => cases ha
  | cons b l ih =>
    rcases List.mem_cons.1 ha with rfl | hl
    · exact kept l (own s hs)
    · exact (wait s b hs).elim (ih hl) (kept l)

/-! ## The host-line filter's entry for a half (R421) -/

/-- The filter's entry for a half. -/
def State.halfEntry (s : State) (l : Nat) : Option HostLine := s.filter.find? (·.line == l)

/-- A die holds a half, by the filter's entry. -/
def State.HoldsHalf (s : State) (d l : Nat) : Prop := ∃ e, s.halfEntry l = some e ∧ d ∈ e.dies

/-- The modified bytes of a half were lost in a reset (R455). -/
def State.HalfLost (s : State) (l : Nat) : Prop := ∃ e, s.halfEntry l = some e ∧ e.lost = true

/-- The entry of a half that no die holds names none. -/
theorem State.dies_of_not_holdsHalf {s : State} {l : Nat} {e : HostLine} (h : ∀ d, ¬ s.HoldsHalf d l) (he : s.halfEntry l = some e) :
    e.dies = [] :=
  List.eq_nil_iff_forall_not_mem.2 fun d hd => h d ⟨e, he, hd⟩

/-- Taking a half out of the filter leaves the entry of every other. -/
theorem find?_line_removed (f : List HostLine) (l k : Nat) :
    (f.filter (·.line != l)).find? (·.line == k) = if k = l then none else f.find? (·.line == k) := by
  rw [List.find?_filter]
  split
  · next h => simp [h]
  · next h => exact congrArg (f.find? ·) (funext fun e => by by_cases he : e.line = k <;> simp [he, h])

/-- Changing the dies and the mark of a half's entry changes those of no other. -/
theorem find?_line_updWhere (f : List HostLine) (l k : Nat) (dies : HostLine → List Nat) (lost : HostLine → Bool) :
    (updWhere (·.line == l) (fun x => { x with dies := dies x, lost := lost x }) f).find? (·.line == k) =
      if k = l then (f.find? (·.line == k)).map fun x => { x with dies := dies x, lost := lost x } else f.find? (·.line == k) := by
  split
  · next h => subst h; refine updWhere_find HostLine.line k _ ?_ f; exact fun _ he => he
  · next h => refine updWhere_find_other HostLine.line l k _ ?_ h f; exact fun _ he => he

/-! ## A die gives up a half -/

/-- A die that does not hold a half gives nothing up; one that does leaves the entry, which goes if it is sound and names no die any
longer. -/
theorem State.leaveHalf_cases (s : State) (d l : Nat) :
    (s.leaveHalf d l = s ∧ ¬ s.HoldsHalf d l) ∨
    ∃ e o sh h, s.halfEntry l = some e ∧
      s.leaveHalf d l = ({ s with
        hostOut := o, sharers := sh,
        filter := if (e.dies.filter (· != d)).isEmpty && !e.lost then s.filter.filter (·.line != l)
          else updWhere (·.line == l) (fun x => { x with dies := e.dies.filter (· != d) }) s.filter } : State).setHalf l h := by
  unfold State.leaveHalf
  split
  · next hf => exact .inl ⟨rfl, fun ⟨e, he, _⟩ => nomatch hf.symm.trans he⟩
  · next e hf =>
    by_cases hd : d ∈ e.dies
    · refine .inr ?_
      rw [if_neg (by simp [hd])]
      dsimp only
      cases (s.half l).dirty && (s.half l).owner == d <;> exact ⟨e, _, _, _, hf, rfl⟩
    · rw [if_pos (by simp [hd])]
      refine .inl ⟨rfl, fun ⟨e', he', hd'⟩ => hd ?_⟩
      rwa [Option.some.inj (hf.symm.trans he')]

/-- A die no longer stands in the entry of a half, whose mark of lost bytes stays; every other entry is the same. -/
structure State.GivesUp (s : State) (d l : Nat) (t : State) : Prop where
  others : ∀ j, j ≠ l → t.halfEntry j = s.halfEntry j
  dies : ∀ a, t.halfEntry l = some a → ∃ e, s.halfEntry l = some e ∧ a.dies = e.dies.filter (· != d)
  lost : s.HalfLost l → t.HalfLost l

/-- Nobody holds a half that did not, and the die that gives it up no longer does. -/
theorem State.GivesUp.holdsHalf {s t : State} {d l k j : Nat} (g : s.GivesUp d l t) (h : t.HoldsHalf k j) :
    s.HoldsHalf k j ∧ ¬ (k = d ∧ j = l) := by
  obtain ⟨a, ha, hk⟩ := h
  by_cases hj : j = l
  · subst hj
    obtain ⟨e, he, hdies⟩ := g.dies a ha
    rw [hdies] at hk
    obtain ⟨hmem, hne⟩ := List.mem_filter.1 hk
    exact ⟨⟨e, he, hmem⟩, fun h => bne_iff_ne.1 hne h.1⟩
  · exact ⟨⟨a, g.others j hj ▸ ha, hk⟩, fun h => hj h.2⟩

/-- A half that was lost stays so, whoever gives up whichever half. -/
theorem State.GivesUp.halfLost {s t : State} {d l j : Nat} (g : s.GivesUp d l t) (h : s.HalfLost j) : t.HalfLost j := by
  by_cases hj : j = l
  · subst hj
    exact g.lost h
  · rwa [State.HalfLost, g.others j hj]

/-- A die that gives a half up stands in its entry no longer (R421, R455). -/
theorem State.leaveHalf_givesUp (s : State) (d l : Nat) : s.GivesUp d l (s.leaveHalf d l) := by
  rcases s.leaveHalf_cases d l with ⟨eq, hn⟩ | ⟨e, o, sh, x, he, eq⟩ <;> rw [eq]
  · refine ⟨fun _ _ => rfl, fun a ha => ⟨a, ha, ?_⟩, id⟩
    exact (List.filter_eq_self.2 fun x hx => bne_iff_ne.2 fun hd : x = d => hn ⟨a, ha, hd ▸ hx⟩).symm
  · refine ⟨fun j hj => ?_, fun a ha => ⟨e, he, ?_⟩, fun ⟨y, hy, hl⟩ => ?_⟩
    · show List.find? _ (if _ then _ else _) = _
      split
      · exact (find?_line_removed ..).trans (if_neg hj)
      · exact (find?_line_updWhere ..).trans (if_neg hj)
    · change List.find? _ (if _ then _ else _) = _ at ha
      split at ha
      · rw [find?_line_removed, if_pos rfl] at ha
        cases ha
      · rw [find?_line_updWhere, if_pos rfl] at ha
        obtain ⟨y, -, rfl⟩ := Option.map_eq_some_iff.1 ha
        rfl
    · obtain rfl := Option.some.inj (he.symm.trans hy)
      refine ⟨{ e with dies := e.dies.filter (· != d) }, ?_, hl⟩
      show List.find? _ (if _ then _ else _) = _
      rw [if_neg (by simp [hl]), find?_line_updWhere, if_pos rfl]
      exact congrArg (Option.map _) he

/-! ## Every die gives up halves (R421, R452) -/

/-- Nobody holds a half that every die has given up. -/
theorem State.holdsHalf_dropHalf {s : State} {l k j : Nat} (h : (s.dropHalf l).HoldsHalf k j) : s.HoldsHalf k j ∧ j ≠ l := by
  obtain ⟨hs, left⟩ := foldl_loses (q := fun t : State => t.HoldsHalf k j) (c := fun d => k = d ∧ j = l)
    (fun s d => (s.leaveHalf_givesUp d l).holdsHalf) h
  refine ⟨hs, ?_⟩
  rintro rfl
  obtain ⟨e, he, hk⟩ := hs
  refine left k ?_ ⟨rfl, rfl⟩
  change s.filter.find? _ = _ at he
  rwa [he]

/-- Nor one among those that a test names. -/
theorem State.not_holdsHalf_dropHalves {s : State} {gone : Nat → Bool} {j : Nat} (hg : gone j = true) (k : Nat) :
    ¬ (s.dropHalves gone).HoldsHalf k j := by
  intro h
  obtain ⟨⟨e, he, -⟩, left⟩ := foldl_loses (q := fun t : State => t.HoldsHalf k j) (c := fun l => j = l)
    (fun _ _ => State.holdsHalf_dropHalf) h
  have hline : e.line = j := by simpa using List.find?_some he
  exact left j (List.mem_filter.2 ⟨List.mem_map.2 ⟨e, List.mem_of_find?_eq_some he, hline⟩, hg⟩) rfl

/-- THERMAL_TRIP halts every device and leaves no half held (R452). -/
theorem execThermalTrip_halts (die : Fin 4) (s : State) :
    ∃ t, execThermalTrip die s = .next t ∧ t.bootState = 3 ∧
      (∀ l h, t.filter.find? (·.line == l) = some h → h.dies = []) ∧ ∀ k, k < 4 → k < s.dies.length → (t.die k).halted = true := by
  refine ⟨_, rfl, rfl, fun l h hl => State.dies_of_not_holdsHalf (State.not_holdsHalf_dropHalves rfl) hl, fun k hk hlen => ?_⟩
  have logged : (s.logOwn die.val 0x0A 0 0).dies.length = s.dies.length := List.length_modify ..
  have halted := State.haltAll_halted (List.mem_range.2 hk) (logged.symm ▸ hlen)
  exact (congrArg (fun ds : List Die => (ds.getD k Die.reset).halted) (State.dropHalves_sameSetup _ fun _ => true).dies).trans halted

/-! ## A die loses its halves in a reset (R455) -/

/-- A die holds a half modified: its bytes are in that die alone. -/
structure State.OwnsDirty (s : State) (d l : Nat) : Prop where
  holds : s.HoldsHalf d l
  dirty : (s.half l).dirty = true
  owner : (s.half l).owner = d

/-- Setting a half replaces the directory's entry of its line, if any, by one of that line, if any. -/
theorem State.setHalf_hostDir (s : State) (l : Nat) (h : HalfSt) :
    ∃ es : List HostDir, (∀ e ∈ es, e.line = l / 2) ∧ (s.setHalf l h).hostDir = s.hostDir.filter (·.line != l / 2) ++ es := by
  have placed (e : HostDir) (he : e.line = l / 2) (rest : List HostDir) : ∃ es : List HostDir, (∀ e ∈ es, e.line = l / 2) ∧
      (if e.lo.st == .i && e.hi.st == .i then rest else rest ++ [e]) = rest ++ es := by
    split
    · exact ⟨[], nofun, (List.append_nil _).symm⟩
    · exact ⟨[e], fun x hx => List.mem_singleton.1 hx ▸ he, rfl⟩
  exact placed _ (by split <;> rfl) _

/-- The directory's entry of another line stays. -/
theorem State.half_setHalf_otherLine {s : State} {l k : Nat} (hk : k / 2 ≠ l / 2) (h : HalfSt) : (s.setHalf l h).half k = s.half k := by
  obtain ⟨es, hes, eq⟩ := s.setHalf_hostDir l h
  have none_new : es.find? (·.line == k / 2) = none :=
    List.find?_eq_none.2 fun e he hline => hk ((beq_iff_eq.1 hline).symm.trans (hes e he))
  have kept : (s.hostDir.filter (·.line != l / 2)).find? (·.line == k / 2) = s.hostDir.find? (·.line == k / 2) := by
    rw [List.find?_filter]
    exact congrArg (s.hostDir.find? ·) (funext fun e => by by_cases he : e.line = k / 2 <;> simp [he, hk])
  rw [State.half, State.half, eq, List.find?_append, kept, none_new, Option.or_none]

/-- Setting one half leaves every other that is dirty as it was, the other of its line among them. -/
theorem State.half_setHalf_other {s : State} {l k : Nat} (hk : k ≠ l) (hd : (s.half k).dirty = true) (h : HalfSt) :
    (s.setHalf l h).half k = s.half k := by
  by_cases hline : k / 2 = l / 2
  · have held : (s.half k).st ≠ .i := fun e => by simp [HalfSt.dirty, e] at hd
    have gone : (s.hostDir.filter (·.line != l / 2)).find? (·.line == l / 2) = none := by simp
    rcases Nat.mod_two_eq_zero_or_one l with hl | hl
    · obtain rfl : k = l + 1 := by omega
      have hodd : (l + 1) % 2 ≠ 0 := by omega
      conv_lhs => rw [State.half, hline]
      simp [State.setHalf, hl, held, gone, hodd, List.find?_append]
    · obtain rfl : k = l - 1 := by omega
      have heven : (l - 1) % 2 = 0 := by omega
      conv_lhs => rw [State.half, hline]
      simp [State.setHalf, hl, held, gone, heven, List.find?_append]
  · exact State.half_setHalf_otherLine hline h

/-- A die that gives a half up leaves the state of every other that is dirty. -/
theorem State.half_leaveHalf_other {s : State} {l k : Nat} (hk : k ≠ l) (hd : (s.half k).dirty = true) (d : Nat) :
    (s.leaveHalf d l).half k = s.half k := by
  rcases s.leaveHalf_cases d l with ⟨e, -⟩ | ⟨e, o, sh, x, -, eq⟩
  · rw [e]
  · rw [eq]
    exact State.half_setHalf_other hk hd x

/-- A die that loses a half no longer stands in its entry. -/
theorem State.loseHalf_givesUp (s : State) (d l : Nat) : s.GivesUp d l (s.loseHalf d l) := by
  unfold State.loseHalf
  dsimp only
  split
  · refine ⟨fun j hj => (find?_line_updWhere ..).trans (if_neg hj), fun a ha => ?_, fun ⟨e, he, _⟩ => ?_⟩
    · obtain ⟨e, he, rfl⟩ := Option.map_eq_some_iff.1 (((find?_line_updWhere ..).trans (if_pos rfl)).symm.trans ha)
      exact ⟨e, he, rfl⟩
    · exact ⟨_, ((find?_line_updWhere ..).trans (if_pos rfl)).trans (congrArg (Option.map _) he), rfl⟩
  · obtain ⟨others, dies, lost⟩ := State.leaveHalf_givesUp (s.logOwn d 0x0A (BitVec.ofNat 64 (64 * l)) 0) d l
    exact ⟨others, dies, lost⟩

/-- A die loses no half but that one, however the other half of its line is held. -/
theorem State.half_loseHalf_other {s : State} {l k : Nat} (hk : k ≠ l) (hd : (s.half k).dirty = true) (d : Nat) :
    (s.loseHalf d l).half k = s.half k := by
  unfold State.loseHalf
  dsimp only
  split
  · exact State.half_setHalf_other hk hd _
  · exact State.half_leaveHalf_other (s := s.logOwn _ _ _ _) hk hd d

/-- A half that a die owned modified is lost with it. -/
theorem State.OwnsDirty.loseHalf {s : State} {d l : Nat} (h : s.OwnsDirty d l) : (s.loseHalf d l).HalfLost l := by
  obtain ⟨⟨e, he, -⟩, hd, ho⟩ := h
  rw [State.loseHalf, if_pos (by simp [hd, ho])]
  exact ⟨_, ((find?_line_updWhere ..).trans (if_pos rfl)).trans (congrArg (Option.map _) he), rfl⟩

/-- A half owned modified is lost, or still owned so while another is. -/
theorem State.OwnsDirty.loseHalf_any {s : State} {d j : Nat} (h : s.OwnsDirty d j) (l : Nat) :
    (s.loseHalf d l).OwnsDirty d j ∨ (s.loseHalf d l).HalfLost j := by
  by_cases hj : j = l
  · exact .inr (hj ▸ h.loseHalf)
  · have same := State.half_loseHalf_other hj h.dirty d
    obtain ⟨⟨e, he, hm⟩, hd, ho⟩ := h
    exact .inl ⟨⟨e, ((s.loseHalf_givesUp d l).others j hj).trans he, hm⟩, same ▸ hd, same ▸ ho⟩

/-- Every half that a die loses in a reset. -/
def State.loseHalves (s : State) (d : Nat) : State :=
  (s.filter.filter fun h => h.dies.contains d).foldl (fun s h => s.loseHalf d h.line) s

/-- The entry of a half that a die holds is among those the reset goes through. -/
theorem State.mem_held {s : State} {d l : Nat} {e : HostLine} (he : s.halfEntry l = some e) (hd : d ∈ e.dies) :
    e ∈ s.filter.filter (fun h => h.dies.contains d) ∧ e.line = l :=
  ⟨List.mem_filter.2 ⟨List.mem_of_find?_eq_some he, List.contains_iff_mem.2 hd⟩, by simpa using List.find?_some he⟩

/-- The die holds none any longer. -/
theorem State.not_holdsHalf_loseHalves (s : State) (d l : Nat) : ¬ (s.loseHalves d).HoldsHalf d l := by
  intro h
  obtain ⟨⟨e, he, hd⟩, left⟩ := foldl_loses (q := fun t : State => t.HoldsHalf d l) (c := fun e : HostLine => d = d ∧ l = e.line)
    (fun s e => (s.loseHalf_givesUp d e.line).holdsHalf) h
  obtain ⟨hmem, hline⟩ := State.mem_held he hd
  exact left e hmem ⟨rfl, hline.symm⟩

/-- Those that it owned modified are lost. -/
theorem State.OwnsDirty.loseHalves {s : State} {d l : Nat} (h : s.OwnsDirty d l) : (s.loseHalves d).HalfLost l := by
  obtain ⟨e, he, hd⟩ := h.holds
  obtain ⟨hmem, hline⟩ := State.mem_held he hd
  have own (t : State) (ht : t.OwnsDirty d l) : (t.loseHalf d e.line).HalfLost l := by
    subst hline
    exact ht.loseHalf
  exact foldl_reaches (f := fun (t : State) (x : HostLine) => t.loseHalf d x.line) (r := (·.OwnsDirty d l)) (p := (·.HalfLost l))
    (fun _ x ht => ht.loseHalf_any x.line) own (fun t x => (t.loseHalf_givesUp d x.line).halfLost) hmem h

/-- Discarding what a logical device runs leaves the host-line filter alone. -/
theorem State.clearLd_filter (s : State) (d : Nat) : (s.clearLd d).filter = s.filter :=
  foldl_unchanged (g := fun s : State => s.filter) (fun s b => by split <;> rfl) _ s

/-- A logical device that is reset is at reset and not halted. -/
theorem State.die_modDie_resetLd (s : State) (d : Nat) :
    ((s.modDie d Die.resetLd).die d).AtReset ∧ ((s.modDie d Die.resetLd).die d).halted = false := by
  rw [State.die_modDie]
  split
  · exact ⟨Die.AtReset.of_registers rfl, rfl⟩
  · next h =>
    rw [State.die_of_length_le (by simpa using h)]
    exact ⟨Die.AtReset.of_registers rfl, rfl⟩

/-- What SUPPLY_RESET leaves (R455). -/
theorem execSupplyReset_eq (die : Fin 4) (s : State) :
    let t := ((s.loseHalves die.val).clearLd die.val).modDie die.val Die.resetLd
    execSupplyReset die s = .next { t with remotes := t.remotes.filter (·.die != die.val) } := rfl

/-! ## Sleep and telemetry -/

/-- An idle die with a deeper target goes to sleep (R453 to R455). -/
theorem execPowerStateEnter_sleeps {die : Fin 4} {s : State} (serves : s.inService die.val = true) (idle : s.idleDie die.val = true)
    (deeper : (s.die die.val).pwrState.toNat < (s.die die.val).pwrTarget.toNat) :
    execPowerStateEnter die s = if (s.die die.val).pwrTarget = 2
      then .next ((s.dropHostLines die.val).modDie die.val fun d => { d with pwrState := 2, d2At := s.podTime })
      else .next (s.modDie die.val fun d => { d with pwrState := d.pwrTarget }) := by
  simp [execPowerStateEnter, serves, idle, Nat.not_le.2 deeper]

/-- The dies are throttled for the package cap while their telemetry alone exceeds it (R451, log 57). -/
theorem State.overCap_eq (s : State) : s.overCap =
    decide (8 * max 1200 (min 3200 (s.pwrcap.toNat % 2 ^ 16)) < (s.dies.map fun d => d.power.toNat).foldl (· + ·) 0) := by
  simp [State.overCap, State.powerCap, bits]

/-- Settles O35: the trip by `execThermalTrip_halts`, the supply reset by what its halves come to (`not_holdsHalf_loseHalves`,
`OwnsDirty.loseHalves`). -/
theorem powerEventsComplete : Obligations.PowerEventsComplete := by
  intro s die
  refine ⟨fun serves idle deeper => ⟨fun ht => ?_, fun ht => ?_⟩, rfl, execThermalTrip_halts die s, fun temp power => ?_, rfl, rfl,
    fun place => ⟨rfl, rfl⟩, ?_⟩
  · exact (execPowerStateEnter_sleeps serves idle deeper).trans (if_neg ht)
  · exact (execPowerStateEnter_sleeps serves idle deeper).trans (if_pos ht)
  · exact congrArg (fun c => Host.Outcome.next { s.modDie die.val _ with capThrottled := c }) (State.overCap_eq _)
  · obtain ⟨hblocks, hlaunches⟩ := (s.loseHalves die.val).clearLd_work die.val
    obtain ⟨hreset, hhalted⟩ := State.die_modDie_resetLd ((s.loseHalves die.val).clearLd die.val) die.val
    refine ⟨_, execSupplyReset_eq die s, hblocks, hlaunches, hreset, hhalted, fun r hr => by simpa using (List.mem_filter.1 hr).2,
      fun l h hl hd => ?_, fun l h hl hd dirty owner => ?_⟩
    · refine s.not_holdsHalf_loseHalves die.val l ⟨h, ?_, hd⟩
      rwa [State.halfEntry, ← State.clearLd_filter _ die.val]
    · obtain ⟨e, he, hlost⟩ := State.OwnsDirty.loseHalves ⟨⟨h, hl, hd⟩, dirty, owner⟩
      rw [State.halfEntry, ← State.clearLd_filter _ die.val] at he
      exact ⟨e, he, hlost⟩

end Sys2Proof.Machine
end

section
/-! PROOFS. Failing ports, retraining, lost groups, peers and host links (R459 to R462). -/

namespace Sys2Proof.Machine

/-! ## Ports of a group that carries (R459, R460) -/

section
variable {s : State} {kg : Fin 16}

/-- A port that carries and fails has its group retrain. -/
theorem execPortFailing_carries {port : Fin 9} (h : s.carries kg.val port.val = true) :
    execPortFailing kg port s = .next (s.retrain kg.val port.val) := by
  rw [execPortFailing, if_pos h]

/-- No port of a group that retrains carries. -/
theorem State.carries_retraining (hg : (s.kg kg.val).gstate = 2) (p : Nat) : s.carries kg.val p = false := by
  simp [State.carries, hg]

/-- One that fails while the group retrains joins the retraining (log 53). -/
theorem execPortFailing_retraining {port : Fin 9} (hu : s.hasUnit 5 = true) (hg : (s.kg kg.val).gstate = 2)
    (hup : (s.kg kg.val).up.getLsbD port.val = true) :
    execPortFailing kg port s = .next (s.modKg kg.val fun g =>
      if port.val ∈ g.failing then g else { g with failing := g.failing ++ [port.val] }) := by
  simp [execPortFailing, State.carries_retraining hg, hu, hg, hup, PortGroup.joins]

/-- A port that carries and loses its signal is down. -/
theorem execPortSignalLoss_carries {port : Fin 9} (hu : s.hasUnit 5 = true) (h : s.carries kg.val port.val = true) :
    execPortSignalLoss kg port s = .next (s.portDown kg.val port.val) := by
  simp [execPortSignalLoss, hu, h]

/-- A signal lost while the group retrains takes its port down at once (log 53). -/
theorem execPortSignalLoss_retraining {port : Fin 9} (hu : s.hasUnit 5 = true) (hg : (s.kg kg.val).gstate = 2) :
    execPortSignalLoss kg port s = .next
      ((s.modKg kg.val fun g => { g with up := downPort g.up port.val }).settleGroup kg.val) := by
  simp [execPortSignalLoss, State.carries_retraining hg, hu, hg]

/-- Silence counts 2 µs after the group last resumed. -/
theorem execPortSilenceTimeout_quiet (hu : s.hasUnit 5 = true) (hg : (s.kg kg.val).gstate = 1)
    (h : (s.kg kg.val).resumedAt + 2000 ≤ s.now) :
    execPortSilenceTimeout kg none s = .next (s.loseGroup kg.val) ∧
      ∀ p : Fin 9, s.carries kg.val p.val = true → execPortSilenceTimeout kg (some p) s = .next (s.portDown kg.val p.val) := by
  simp +contextual [execPortSilenceTimeout, hu, hg, Nat.not_lt.2 h]

/-- Before that it does nothing. -/
theorem execPortSilenceTimeout_early (h : ¬ (s.kg kg.val).resumedAt + 2000 ≤ s.now) (p : Option (Fin 9)) :
    execPortSilenceTimeout kg p s = .next s := by
  simp [execPortSilenceTimeout, Nat.not_le.1 h]

/-! ## The end of a retrain (R459) -/

/-- The group's own record after an update of it. -/
theorem State.kg_modKg {k : Nat} (hk : k < s.kgs.length) (f : PortGroup → PortGroup) : (s.modKg k f).kg k = f (s.kg k) := by
  simp [State.kg, State.modKg, hk]

/-- Ports that work again. -/
def portsBack (up : BitVec 9) (ps : List Nat) : BitVec 9 := ps.foldl (fun u p => u ||| BitVec.ofNat 9 (2 ^ p)) up

/-- The record that a retrain for some ports leaves: they work again, the first replaced by the spare where it is unused. -/
def PortGroup.retrained (g : PortGroup) (now p : Nat) (ps : List Nat) : PortGroup :=
  let n : BitVec 8 := if g.retrains = 255 then 255 else g.retrains + 1
  let g1 : PortGroup := { g with gstate := 1, failing := [], retrains := n, resumedAt := now }
  if g.spare then { g1 with up := portsBack g.up (p :: ps) }
  else { g1 with spare := true, up := portsBack (downPort g.up p ||| 0x100#9) ps }

/-- A window that has not passed is not over. -/
theorem State.windowOver_eq (hg : (s.kg kg.val).gstate = 2) :
    s.windowOver kg.val = decide ((s.kg kg.val).stallAt + s.window ≤ s.now) := by
  simp [State.windowOver, hg]

/-- A retrain that ends inside its window leaves its record so. -/
theorem execRetrainComplete_inTime {p : Nat} {ps : List Nat} (hg : (s.kg kg.val).gstate = 2)
    (ht : ¬ (s.kg kg.val).stallAt + s.window ≤ s.now) (hf : (s.kg kg.val).failing = p :: ps) :
    ∃ t, execRetrainComplete kg s = .next t ∧
      (kg.val < s.kgs.length → t.kg kg.val = (s.kg kg.val).retrained s.now p ps) := by
  have running : ((s.kg kg.val).gstate != 2 || s.windowOver kg.val) = false := by
    rw [State.windowOver_eq hg]
    simp [hg, ht]
  refine ⟨_, if_neg (Bool.eq_false_iff.1 running), fun hk => ?_⟩
  rw [State.kg_modKg hk]
  by_cases hs : (s.kg kg.val).spare = true <;> simp [PortGroup.retrained, PortGroup.resumes, portsBack, hs, hf]

/-- Past its window a retrain no longer ends with its ports back; the window's end takes them down (log 53). -/
theorem execRetrainWindowEnd_late (hg : (s.kg kg.val).gstate = 2) (ht : (s.kg kg.val).stallAt + s.window ≤ s.now) :
    execRetrainComplete kg s = .next s ∧ execRetrainWindowEnd kg s = .next ((s.modKg kg.val fun g =>
      { g with gstate := 1, failing := [], resumedAt := s.now, up := g.failing.foldl downPort g.up }).settleGroup kg.val) := by
  have passed : s.windowOver kg.val = true := (State.windowOver_eq hg).trans (decide_eq_true ht)
  simp [execRetrainComplete, execRetrainWindowEnd, passed, PortGroup.resumes]

end

/-! ## Peers and host links (R461, R462) -/

/-- A peer that no group faces and that has been silent for 2 µs is lost. -/
theorem execPeerLost_silent {s : State} {pos : BitVec 4} (hu : s.hasUnit 5 = true) (hf : s.faces pos.toNat = false)
    (hl : (s.peer pos.toNat).lost = false) (ht : (s.peer pos.toNat).heard + 2000 ≤ s.podTime.toNat) :
    execPeerLost pos s = .next (s.losePeer pos.toNat) := by
  simp [execPeerLost, State.silent, hu, hf, hl, ht]

/-- A peer that departs leaves no lease of its own. -/
theorem execDepartureMessage_leases {s : State} (hu : s.hasUnit 5 = true) (pos : BitVec 4) :
    ∃ t, execDepartureMessage pos s = .next t ∧ ∀ e ∈ t.leases, e.pos ≠ pos :=
  ⟨_, if_neg (by simp [hu]), fun _ he => bne_iff_ne.1 (List.mem_filter.1 he).2⟩

/-- A bring-up names the peer in KVMAP at each of its groups, and puts it back in service. -/
theorem execLinkBringUp_returns {s : State} (hu : s.hasUnit 5 = true) (pos : BitVec 4) (groups : List (Fin 16)) :
    ∃ t, execLinkBringUp pos groups s = .next t ∧
      (∀ k, k < s.kvmap.length → (∃ g ∈ groups, g.val = k) → t.kvmap[k]? = some (BitVec.ofNat 8 (128 + pos.toNat))) ∧
      (pos.toNat < s.peers.length → (t.peer pos.toNat).lost = false ∧ (t.peer pos.toNat).seq = 0) := by
  refine ⟨_, if_neg (by simp [hu]), fun k hk hg => ?_, fun hp => ?_⟩
  · have on : (groups.any fun g => g.val == k) = true := by simpa using hg
    show (s.kvmap.mapIdx _)[k]? = _
    rw [List.getElem?_mapIdx, List.getElem?_eq_getElem hk, Option.map_some, if_pos on]
  · simp [State.settleMaster, State.freeHolder, State.peer, hp]

/-- A host link that drops is out of service, and its filter holds no line (R461). -/
theorem execHostLinkDrop_drops (iod : Fin 2) (s : State) :
    ∃ t, execHostLinkDrop iod s = .next t ∧ t.hostLinks.getLsbD iod.val = false ∧ ∀ h ∈ t.filter, halfIod h.line ≠ iod.val := by
  have off (b : BitVec 2) : (b &&& ~~~ BitVec.ofNat 2 (2 ^ iod.val)).getLsbD iod.val = false := by
    revert b iod
    decide
  refine ⟨_, rfl, off _, fun h hh => ?_⟩
  simpa using (List.mem_filter.1 hh).2

/-- Settles O36: each event by the lemma above about it. -/
theorem linkEventsComplete : Obligations.LinkEventsComplete := by
  intro s
  refine ⟨fun kg port hu hg => ⟨fun hup => ?_, fun quiet => (execPortSilenceTimeout_quiet hu hg quiet).1,
      fun early => execPortSilenceTimeout_early early⟩,
    fun kg port hu hg => ⟨execPortSignalLoss_retraining hu hg, execPortFailing_retraining hu hg⟩,
    fun kg hg => ⟨fun ht p ps hf => execRetrainComplete_inTime hg ht hf, fun ht => execRetrainWindowEnd_late hg ht⟩,
    fun pos hu => ⟨execPeerLost_silent hu, execDepartureMessage_leases hu pos, execLinkBringUp_returns hu pos⟩,
    fun iod => execHostLinkDrop_drops iod s⟩
  have carries : s.carries kg.val port.val = true := by simp [State.carries, hu, hg, hup]
  exact ⟨execPortFailing_carries carries, execPortSignalLoss_carries hu carries,
    fun quiet => (execPortSilenceTimeout_quiet hu hg quiet).2 port carries⟩

end Sys2Proof.Machine
end

section
/-! PROOFS. The memories at reset (R446, R411). -/

namespace Sys2Proof.Machine

/-- Settles O38: both memories are empty. -/
theorem resetKeepsMemoryForm : Obligations.ResetKeepsMemoryForm := ⟨rfl, rfl⟩

end Sys2Proof.Machine
end
